-- ==== Sys2Proof/Word.lean ====
section
/-!
DEFINITION. Word.lean: the plain value types of the C6 (R6, R19, R40, R92, R121) and nothing else.
-/
namespace Sys2Proof

/-- One byte of memory. -/
abbrev Byte := BitVec 8
/-- A 64-bit register value (R121). -/
abbrev Word64 := BitVec 64
/-- An instruction word (R15). -/
abbrev InstrWord := BitVec 96
/-- A lane number of a signature, 0 to 127 (R6). -/
abbrev Lane := Fin 128
/-- A set of lanes: bit L is lane L (R93, R150). -/
abbrev Mask := BitVec 128
/-- One signature-register: 128 lanes of 64 bits (R123). -/
abbrev Row := Vector Word64 128
/-- A token value of a base-die array (R343). -/
abbrev TokenVal := BitVec 512

/-- Sparse data by number: a list of (number, value) pairs, numbers strictly rising. -/
abbrev AMap (α : Type) := List (Nat × α)

/-- The three codes of a predicate lane (R92): false 0b00, true 0b01, undecided 0b10. -/
inductive Tri where
  | f | t | u
  deriving DecidableEq, Repr

/-- A predicate register: one code per lane (R92). -/
abbrev PredRow := Vector Tri 128

end Sys2Proof
end

