-- ==== Sys2Proof/Syntax.lean ====
section
/-!
DEFINITION. Syntax.lean: the instructions and the events of the C6 as data: one constructor of `Instr` for each
row of the opcode table. Fields are already pulled apart; an operand field that breaks R19 is kept as `bad`, since
such a word faults with OPERAND only after FEATURE and PRIV have been looked at (R33).
-/
namespace Sys2Proof

/-- GUARD.COND (R17). -/
inductive Cond where
  | always | t | f | u | nt | nf | nu
  deriving DecidableEq, Repr

/-- The guard and the hints of a word (R15, R17, R18). The hints have no architectural effect; they are kept
because a trap hands the handler the whole word (R415). -/
structure Hdr where
  cond : Cond
  pred : BitVec 3
  stall : BitVec 3
  yld : Bool
  reuse : BitVec 3
  deriving DecidableEq, Repr

/-- An operand field (R19). `bad` holds the bits of a field that R19 gives no meaning. -/
inductive Operand where
  | v (n : BitVec 8) (neg abs : Bool)
  | s (n : BitVec 6) (neg abs : Bool)
  | idx (k : BitVec 2) (off : BitVec 8) (neg abs : Bool)
  | imm (i : BitVec 12)
  | p (n : BitVec 3)
  | h (n : BitVec 4)
  | t (n : BitVec 4) (neg abs : Bool)
  | sr (n : BitVec 8)
  | zero
  | bad (bits : BitVec 16)
  deriving DecidableEq, Repr

/-- The four operand fields of format R (R16). -/
structure Ops4 where
  d : Operand
  a : Operand
  b : Operand
  c : Operand
  deriving DecidableEq, Repr

/-- The two operand fields of formats I and J (R16). -/
structure Ops2 where
  d : Operand
  a : Operand
  deriving DecidableEq, Repr

/-- Rounding codes (R25). -/
inductive Rm where
  | rne | rtz | rd | ru | rna | dyn
  deriving DecidableEq, Repr

/-- Lane type codes 0x0 to 0xE (R26). -/
inductive Ty where
  | f64 | f32 | f16 | bf16 | f16x4 | bf16x4 | iv32 | iv64 | i32 | n32 | i64 | n64 | i16x4 | i8x8 | f32x2
  deriving DecidableEq, Repr

/-- The arithmetic MOD (R24). -/
structure AMod where
  rm : Rm
  ty : Ty
  sat : Bool
  ftz : Bool
  deriving DecidableEq, Repr

/-- The cross-lane MOD (R109). -/
structure XMod where
  w : Bool
  sel : BitVec 2
  ty : BitVec 4
  op : BitVec 3
  deriving DecidableEq, Repr

/-- MOD of MOV (R130). -/
structure X2Mod where
  x2 : Bool
  deriving DecidableEq, Repr
/-- MOD of MOVI (R130). -/
structure MoviMod where
  mode : BitVec 2
  deriving DecidableEq, Repr
/-- MOD of SEL (R130). -/
structure SelMod where
  pn : BitVec 3
  x2 : Bool
  deriving DecidableEq, Repr
/-- MOD of RGN (R130). -/
structure RgnMod where
  bank : BitVec 2
  buf : BitVec 2
  deriving DecidableEq, Repr
/-- MOD of SETK (R130). -/
structure SetkMod where
  n : BitVec 2
  deriving DecidableEq, Repr
/-- MOD of LDL, STL, LDB, STB (R233). -/
structure LMod where
  space : BitVec 2
  size : BitVec 3
  sx : Bool
  deriving DecidableEq, Repr
/-- MOD of ATOML (R235), ATOM, RED and CAS (R265); `sc` is a zero bit of ATOML. -/
structure AtMod where
  opc : BitVec 4
  size : BitVec 2
  signed : Bool
  sc : Bool
  deriving DecidableEq, Repr
/-- MOD of LD, ST (R263), LDSC and STSC (R290). -/
structure GMod where
  size : BitVec 3
  sx : Bool
  nm : Bool
  ch : BitVec 2
  deriving DecidableEq, Repr
/-- MOD of PREF (R268). -/
structure PrefMod where
  res : Bool
  deriving DecidableEq, Repr
/-- MOD of BIND (R290): false .c, true .m. -/
structure BindMod where
  kind : Bool
  deriving DecidableEq, Repr
/-- MOD of ACQ, REL and MBARR (R290); `oc` is a zero bit of ACQ and MBARR. -/
structure SyMod where
  oc : Bool
  sy : Bool
  deriving DecidableEq, Repr
/-- MOD of FENCE (R290). -/
structure FenceMod where
  scope : BitVec 3
  deriving DecidableEq, Repr
/-- MOD of TSPAWN (R157): N - 1. -/
structure TspMod where
  n : BitVec 6
  deriving DecidableEq, Repr
/-- MOD of DLAUNCH (R157). -/
structure DlMod where
  q : BitVec 4
  deriving DecidableEq, Repr
/-- MOD of COPY and COPYX (R301). -/
structure CpMod where
  sspace : BitVec 3
  dspace : BitVec 3
  ck : BitVec 2
  deriving DecidableEq, Repr
/-- MOD of MMA and MMAS (R327). -/
structure MmMod where
  nsel : BitVec 2
  acc : Bool
  g : Bool
  deriving DecidableEq, Repr
/-- MOD of MZERO (R327). -/
structure MzMod where
  iv : Bool
  deriving DecidableEq, Repr
/-- The partition slot in MOD of CFGRUN and CFGDRAIN (R402). -/
structure SlotMod where
  slot : BitVec 3
  deriving DecidableEq, Repr

/-- What an agent outside the model answers when an access reaches it: data of a peer (one number for each
access, in lane order), an uncorrectable soft error (R264, R266), or an error answer (R255, R435). -/
inductive Resp where
  | ok (data : List Nat)
  | ecc
  | refused
  deriving DecidableEq, Repr

/-- Life-cycle states (R440). -/
inductive LifeState where
  | manufacture | develop | production | rma | decommissioned
  deriving DecidableEq, Repr

/-- The member list that GRPSET names (R432, R436): the number of ranks and the list's virtual address. -/
structure MemberList where
  ranks : Nat
  va : Word64
  deriving DecidableEq, Repr

/-- Values of a BUDGET command (R260, R432): CD, CE, PART0 to PART7 in order, REF. -/
structure BudgetVals where
  cd : Nat
  ce : Nat
  parts : List Nat
  ref : Nat
  deriving DecidableEq, Repr

/-- A phase message of an RBLK operation arriving at this device (R436). `codes` are the block codes of phase 1
and `mants` the mantissas of phase 2, each for the whole vector. -/
structure RblkMsg where
  ctx : Nat
  group : Nat
  k : Nat
  phase : Nat
  rank : Nat
  nranks : Nat
  nblk : Nat
  tag : Word64
  crc : BitVec 32
  codes : List Nat
  mants : List Int
  deriving DecidableEq, Repr

/-- What a peer asks of this device's memory (R435). -/
inductive PeerOp where
  | read | write (data : List Byte) | atomic (opc : BitVec 4) (signed : Bool) (b c : Word64)
  deriving DecidableEq, Repr

/-- An access arriving from a peer device (R435): target context, virtual address, bytes. -/
structure PeerReq where
  ctx : Nat
  va : Word64
  size : Nat
  op : PeerOp
  deriving DecidableEq, Repr

/-- A host access through BAR2 (R431): an offset in the window; a read of `size` bytes or a write. -/
structure Bar2Req where
  off : Nat
  size : Nat
  write : Option (List Byte)
  deriving DecidableEq, Repr

/-- The instructions and the events of the part, one constructor for each row of the opcode table. An event's
numbers name the unit it happens at. -/
inductive Instr where
  /-- NOP (R101): Retires with no effect. -/
  | nop (h : Hdr) (o : Ops4)
  /-- BRA (R102): Sends the active lanes to the target and the other lanes of the mask to the next slot, splitting the path under R95 when both arms are non-empty. -/
  | bra (h : Hdr) (o : Ops2) (t u : BitVec 21)
  /-- BTRI (R103): Divides the active lanes by a three-valued predicate into true, fall-through and undecided arms. -/
  | btri (h : Hdr) (o : Ops2) (t u : BitVec 21)
  /-- BRX (R104): Branches to a target held in an s register, or to the target of the lowest active lane of a v register. -/
  | brx (h : Hdr) (o : Ops4)
  /-- CALL (R105): Writes the next PC into sD and then branches as BRA does. -/
  | call (h : Hdr) (o : Ops2) (t u : BitVec 21)
  /-- RET (R104): Branches to the uniform target held in an s register. -/
  | ret (h : Hdr) (o : Ops4)
  /-- JOIN (R97): Arrives at the innermost open nest: the path parts, or the merge completes and the path continues. -/
  | join (h : Hdr) (o : Ops4)
  /-- EXIT (R98): Ends the active lanes and removes them from the path mask and every stack entry. -/
  | exit (h : Hdr) (o : Ops4)
  /-- YIELD (R107): Parts the path with reason YIELD; the record is ready at once. -/
  | yield (h : Hdr) (o : Ops4)
  /-- TRAP (R425): Raises cause TRAP with the immediate in t2. -/
  | trap (h : Hdr) (o : Ops2) (imm : BitVec 32)
  /-- TRET_RETRY (R417): Ends the handler and reissues the instruction at t1. -/
  | tretRetry (h : Hdr) (o : Ops4)
  /-- TRET_SKIP (R417): Ends the handler and continues after the instruction at t1. -/
  | tretSkip (h : Hdr) (o : Ops4)
  /-- TRET_KILL (R417): Ends the handler and kills the quire or wave with the cause in t0. -/
  | tretKill (h : Hdr) (o : Ops4)
  /-- BPT (R108): Raises cause BPT, carrying the immediate, before the instruction has any effect. -/
  | bpt (h : Hdr) (o : Ops4)
  /-- LOOPD (R106): Decrements sD and branches as BRA does while the count is not zero. -/
  | loopd (h : Hdr) (o : Ops2) (t u : BitVec 21)
  /-- SHFL (R111): Moves register values between the lanes of a segment, with a fallback value. -/
  | shfl (h : Hdr) (o : Ops4) (m : XMod)
  /-- VOTE (R112): Forms a Kleene all or any, a uniformity test, or a ballot over the members of a segment. -/
  | vote (h : Hdr) (o : Ops4) (m : XMod)
  /-- REDUX (R113): Reduces an integer operand exactly over the members of a segment. -/
  | redux (h : Hdr) (o : Ops4) (m : XMod)
  /-- FREDUX (R114): Reduces a floating-point operand over the members of a segment in a fixed binary tree. -/
  | fredux (h : Hdr) (o : Ops4) (m : XMod)
  /-- MATCH (R115): Compares an operand among the members and reports any match, the first matching lane, or the match count. -/
  | matchOp (h : Hdr) (o : Ops4) (m : XMod)
  /-- PLOP (R117): Applies Kleene three-valued logic to predicates in each active lane. -/
  | plop (h : Hdr) (o : Ops4) (m : XMod)
  /-- PSET (R118): Sets a predicate from a non-zero test, a constant code, or a bit mask. -/
  | pset (h : Hdr) (o : Ops4) (m : XMod)
  /-- PMOV (R119): Copies predicate codes between p and v registers. -/
  | pmov (h : Hdr) (o : Ops4) (m : XMod)
  /-- PCOUNT (R120): Counts the members whose predicate holds the selected code. -/
  | pcount (h : Hdr) (o : Ops4) (m : XMod)
  /-- MOV (R131): Copies one register image, a register pair, or a handle. -/
  | mov (h : Hdr) (o : Ops4) (m : X2Mod)
  /-- MOVI (R132): Writes a 32-bit immediate sign-extended, zero-extended, or into the high or low half. -/
  | movi (h : Hdr) (o : Ops2) (imm : BitVec 32) (m : MoviMod)
  /-- SEL (R133): Chooses among three sources by a three-valued predicate in each lane. -/
  | sel (h : Hdr) (o : Ops4) (m : SelMod)
  /-- SREAD (R134): Writes the value of a special register, sampled at issue. -/
  | sread (h : Hdr) (o : Ops4)
  /-- RGN (R135): Advises the operand buffers of a register working set; no architectural effect. -/
  | rgn (h : Hdr) (o : Ops4) (m : RgnMod)
  /-- LIVE (R136): Sets the signature's live bound. -/
  | live (h : Hdr) (o : Ops2) (imm : BitVec 32)
  /-- SETK (R137): Writes the BASE and LIMIT of an index register after checking them. -/
  | setk (h : Hdr) (o : Ops4) (m : SetkMod)
  /-- QUOTA_GIVE (R138): Moves v registers from the signature into the quire's spare pool and satisfies waiting takes. -/
  | quotaGive (h : Hdr) (o : Ops4)
  /-- QUOTA_TAKE (R138): Takes v registers from the quire's spare pool, or parts until the take can be satisfied. -/
  | quotaTake (h : Hdr) (o : Ops4)
  /-- IADD (R174): Integer add, wrapping or saturating. -/
  | iadd (h : Hdr) (o : Ops4) (m : AMod)
  /-- ISUB (R174): Integer subtract, wrapping or saturating. -/
  | isub (h : Hdr) (o : Ops4) (m : AMod)
  /-- IMUL (R174): Integer multiply, wrapping or saturating. -/
  | imul (h : Hdr) (o : Ops4) (m : AMod)
  /-- IMULH (R175): Writes the high half of the exact product. -/
  | imulh (h : Hdr) (o : Ops4) (m : AMod)
  /-- IMAD (R174): Integer multiply-add, wrapping or saturating. -/
  | imad (h : Hdr) (o : Ops4) (m : AMod)
  /-- IMIN (R174): Integer minimum, compared as the type. -/
  | imin (h : Hdr) (o : Ops4) (m : AMod)
  /-- IMAX (R174): Integer maximum, compared as the type. -/
  | imax (h : Hdr) (o : Ops4) (m : AMod)
  /-- IABS (R174): Integer absolute value, wrapping or saturating. -/
  | iabs (h : Hdr) (o : Ops4) (m : AMod)
  /-- LOP3 (R176): Computes a three-input bitwise function given by a lookup table. -/
  | lop3 (h : Hdr) (o : Ops4) (m : AMod)
  /-- SHL (R177): Shifts left, with optional saturation. -/
  | shl (h : Hdr) (o : Ops4) (m : AMod)
  /-- SHR (R177): Shifts right logically. -/
  | shr (h : Hdr) (o : Ops4) (m : AMod)
  /-- SAR (R177): Shifts right arithmetically. -/
  | sar (h : Hdr) (o : Ops4) (m : AMod)
  /-- ROT (R177): Rotates left by the count modulo the width. -/
  | rot (h : Hdr) (o : Ops4) (m : AMod)
  /-- BFX (R178): Extracts a bit field, sign-extending it for signed types. -/
  | bfx (h : Hdr) (o : Ops4) (m : AMod)
  /-- BFI (R178): Inserts a bit field into D. -/
  | bfi (h : Hdr) (o : Ops4) (m : AMod)
  /-- POPC (R179): Counts the set bits. -/
  | popc (h : Hdr) (o : Ops4) (m : AMod)
  /-- CLZ (R179): Counts the leading zero bits. -/
  | clz (h : Hdr) (o : Ops4) (m : AMod)
  /-- BREV (R179): Reverses the bit order. -/
  | brev (h : Hdr) (o : Ops4) (m : AMod)
  /-- ICMP (R180): Writes a decided predicate from an integer comparison. -/
  | icmp (h : Hdr) (o : Ops4) (m : AMod)
  /-- LEA (R181): Forms a 64-bit address from a base and a shifted index. -/
  | lea (h : Hdr) (o : Ops4) (m : AMod)
  /-- IDIV (R182): Integer division, writing the truncated quotient or the remainder. -/
  | idiv (h : Hdr) (o : Ops4) (m : AMod)
  /-- CVTI (R183): Converts between integer types. -/
  | cvti (h : Hdr) (o : Ops4) (m : AMod)
  /-- FADD (R185): Floating-point add, rounded once. -/
  | fadd (h : Hdr) (o : Ops4) (m : AMod)
  /-- FMUL (R185): Floating-point multiply, rounded once. -/
  | fmul (h : Hdr) (o : Ops4) (m : AMod)
  /-- FFMA (R185): Fused multiply-add with a single rounding. -/
  | ffma (h : Hdr) (o : Ops4) (m : AMod)
  /-- FMIN (R186): Returns the smaller operand exactly. -/
  | fmin (h : Hdr) (o : Ops4) (m : AMod)
  /-- FMAX (R186): Returns the larger operand exactly. -/
  | fmax (h : Hdr) (o : Ops4) (m : AMod)
  /-- FCMP (R187): Writes a three-valued predicate from a floating-point comparison; unordered lanes are undecided. -/
  | fcmp (h : Hdr) (o : Ops4) (m : AMod)
  /-- FCLASS (R188): Classifies a value into one of ten classes, as a bit or a mask test. -/
  | fclass (h : Hdr) (o : Ops4) (m : AMod)
  /-- FRND (R189): Rounds to an integral value of the same format. -/
  | frnd (h : Hdr) (o : Ops4) (m : AMod)
  /-- FRCP (R185): Reciprocal, computed as FDIV(1, a). -/
  | frcp (h : Hdr) (o : Ops4) (m : AMod)
  /-- FSQRT (R185): Square root, rounded once. -/
  | fsqrt (h : Hdr) (o : Ops4) (m : AMod)
  /-- FRSQ (R190): Approximate reciprocal square root. -/
  | frsq (h : Hdr) (o : Ops4) (m : AMod)
  /-- FEX2 (R190): Approximate base-2 exponential. -/
  | fex2 (h : Hdr) (o : Ops4) (m : AMod)
  /-- FLG2 (R190): Approximate base-2 logarithm. -/
  | flg2 (h : Hdr) (o : Ops4) (m : AMod)
  /-- FSIN (R190): Approximate sine. -/
  | fsin (h : Hdr) (o : Ops4) (m : AMod)
  /-- FCOS (R190): Approximate cosine. -/
  | fcos (h : Hdr) (o : Ops4) (m : AMod)
  /-- FDIV (R185): Floating-point divide, rounded once. -/
  | fdiv (h : Hdr) (o : Ops4) (m : AMod)
  /-- FTANH (R190): Approximate hyperbolic tangent. -/
  | ftanh (h : Hdr) (o : Ops4) (m : AMod)
  /-- FDOT (R191): Exact sum of C and the element products, rounded once to f32. -/
  | fdot (h : Hdr) (o : Ops4) (m : AMod)
  /-- FSCALE (R189): Computes a × 2^n, rounded once. -/
  | fscale (h : Hdr) (o : Ops4) (m : AMod)
  /-- CVTF (R193): Converts between floating types, or between floating and integer types. -/
  | cvtf (h : Hdr) (o : Ops4) (m : AMod)
  /-- PACK (R194): Converts four values into a narrow format and writes them into a group of D. -/
  | pack (h : Hdr) (o : Ops4) (m : AMod)
  /-- UNPACK (R195): Decodes four narrow elements without a scale. -/
  | unpack (h : Hdr) (o : Ops4) (m : AMod)
  /-- DEQ (R196): Decodes four block-scaled elements into an f32x2 pair. -/
  | deq (h : Hdr) (o : Ops4) (m : AMod)
  /-- QBLK (R197): Quantises one block per quarter into an MX or Q4N format. -/
  | qblk (h : Hdr) (o : Ops4) (m : AMod)
  /-- IVMAKE (R206): Builds an interval from point values, or converts its width. -/
  | ivmake (h : Hdr) (o : Ops4) (m : AMod)
  /-- IVBND (R207): Sets, reads or tests interval bounds without the well-formedness check. -/
  | ivbnd (h : Hdr) (o : Ops4) (m : AMod)
  /-- IVADD (R208): Interval add with outward rounding. -/
  | ivadd (h : Hdr) (o : Ops4) (m : AMod)
  /-- IVSUB (R208): Interval subtract with outward rounding. -/
  | ivsub (h : Hdr) (o : Ops4) (m : AMod)
  /-- IVMUL (R208): Interval multiply with outward rounding. -/
  | ivmul (h : Hdr) (o : Ops4) (m : AMod)
  /-- IVDIV (R209): Interval divide; a divisor containing zero gives the entire interval. -/
  | ivdiv (h : Hdr) (o : Ops4) (m : AMod)
  /-- IVFMA (R208): Interval fused multiply-add, with each bound rounded once. -/
  | ivfma (h : Hdr) (o : Ops4) (m : AMod)
  /-- IVSQR (R208): Interval square. -/
  | ivsqr (h : Hdr) (o : Ops4) (m : AMod)
  /-- IVSQRT (R210): Interval square root, clipped below zero. -/
  | ivsqrt (h : Hdr) (o : Ops4) (m : AMod)
  /-- IVEX2 (R211): Enclosure of the base-2 exponential. -/
  | ivex2 (h : Hdr) (o : Ops4) (m : AMod)
  /-- IVLG2 (R211): Enclosure of the base-2 logarithm. -/
  | ivlg2 (h : Hdr) (o : Ops4) (m : AMod)
  /-- IVMID (R213): Writes the midpoint of an interval as a point. -/
  | ivmid (h : Hdr) (o : Ops4) (m : AMod)
  /-- IVWID (R213): Writes the width of an interval, rounded up, as a point. -/
  | ivwid (h : Hdr) (o : Ops4) (m : AMod)
  /-- IVHULL (R214): Writes the hull of two intervals. -/
  | ivhull (h : Hdr) (o : Ops4) (m : AMod)
  /-- IVISECT (R215): Writes the intersection of two intervals; the .e form may give the canonical empty interval. -/
  | ivisect (h : Hdr) (o : Ops4) (m : AMod)
  /-- IVCMP (R216): Writes a three-valued predicate from an interval comparison. -/
  | ivcmp (h : Hdr) (o : Ops4) (m : AMod)
  /-- IVBISECT (R218): Halves the interval in each lane, keeping the lower half and spawning the upper half as a task. -/
  | ivbisect (h : Hdr) (o : Ops4) (m : AMod)
  /-- IVLD (R222): Loads interval images as single-copy atomic accesses; always parts. -/
  | ivld (h : Hdr) (o : Ops2) (imm : BitVec 32) (m : AMod)
  /-- IVST (R223): Stores interval images bit for bit, without a check. -/
  | ivst (h : Hdr) (o : Ops2) (imm : BitVec 32) (m : AMod)
  /-- LDL (R234): Loads from local memory. -/
  | ldl (h : Hdr) (o : Ops2) (imm : BitVec 32) (m : LMod)
  /-- STL (R234): Stores to local memory. -/
  | stl (h : Hdr) (o : Ops2) (imm : BitVec 32) (m : LMod)
  /-- ATOML (R237): Atomic operation on local memory, with lanes applied in ascending order as one event. -/
  | atoml (h : Hdr) (o : Ops4) (m : AtMod)
  /-- LDB (R234): Loads from a typed buffer. -/
  | ldb (h : Hdr) (o : Ops2) (imm : BitVec 32) (m : LMod)
  /-- STB (R234): Stores to a typed buffer. -/
  | stb (h : Hdr) (o : Ops2) (imm : BitVec 32) (m : LMod)
  /-- SPUSH (R240): Appends an entry to a cluster stream, or parts while the stream is blocked. -/
  | spush (h : Hdr) (o : Ops4)
  /-- SPOP (R240): Removes the oldest entry of a cluster stream, or parts while the stream is blocked. -/
  | spop (h : Hdr) (o : Ops4)
  /-- LD (R264): Global load; parts with reason LOAD. -/
  | ld (h : Hdr) (o : Ops2) (imm : BitVec 32) (m : GMod)
  /-- ST (R264): Global store; the .nm form adds to the outstanding counter. -/
  | st (h : Hdr) (o : Ops2) (imm : BitVec 32) (m : GMod)
  /-- ATOM (R266): Atomic update at the home slice, with or without a result. -/
  | atom (h : Hdr) (o : Ops4) (m : AtMod)
  /-- RED (R266): Atomic reduction without a result; adds to the outstanding counter. -/
  | red (h : Hdr) (o : Ops4) (m : AtMod)
  /-- CAS (R266): Compare-and-swap at the home slice; always parts. -/
  | cas (h : Hdr) (o : Ops4) (m : AtMod)
  /-- LDSC (R291): Sequentially consistent load; parts with reason LOAD. -/
  | ldsc (h : Hdr) (o : Ops2) (imm : BitVec 32) (m : GMod)
  /-- STSC (R291): Sequentially consistent store; parts with reason SCSTORE. -/
  | stsc (h : Hdr) (o : Ops2) (imm : BitVec 32) (m : GMod)
  /-- CFLUSH (R267): Writes the dirty L2 lines of a range back to DRAM. -/
  | cflush (h : Hdr) (o : Ops4)
  /-- CINV (R267): Removes the lines of a range from L2 and every L1 without writeback. -/
  | cinv (h : Hdr) (o : Ops4)
  /-- PREF (R268): Requests fills of non-resident pages and may bring lines into L2. -/
  | pref (h : Hdr) (o : Ops4) (m : PrefMod)
  /-- BIND (R292): Binds a region to a clasp or a memory barrier. -/
  | bind (h : Hdr) (o : Ops4) (m : BindMod)
  /-- ACQ (R293): Acquires a clasp, or parts while another signature holds it. -/
  | acq (h : Hdr) (o : Ops4) (m : SyMod)
  /-- REL (R293): Releases a held clasp, granting it to the first waiter. -/
  | rel (h : Hdr) (o : Ops4) (m : SyMod)
  /-- FENCE (R294): Waits until the path's earlier global writes are performed at their home slices. -/
  | fence (h : Hdr) (o : Ops4) (m : FenceMod)
  /-- OCWAIT (R295): Parts until the core's outstanding counter reaches zero. -/
  | ocwait (h : Hdr) (o : Ops4)
  /-- RVINIT (R296): Initialises a rendezvous point. -/
  | rvinit (h : Hdr) (o : Ops4)
  /-- RVARR (R296): Arrives at a rendezvous point, declaring a byte count. -/
  | rvarr (h : Hdr) (o : Ops4)
  /-- RVWAIT (R296): Waits for a rendezvous phase to complete. -/
  | rvwait (h : Hdr) (o : Ops4)
  /-- MBINIT (R297): Initialises a memory-barrier cell. -/
  | mbinit (h : Hdr) (o : Ops4)
  /-- MBARR (R297): Makes k arrivals at a memory barrier. -/
  | mbarr (h : Hdr) (o : Ops4) (m : SyMod)
  /-- MBWAIT (R297): Waits for a memory-barrier generation to complete. -/
  | mbwait (h : Hdr) (o : Ops4)
  /-- HWAIT (R158): Parts until the handle's operation leaves PENDING. -/
  | hwait (h : Hdr) (o : Ops4)
  /-- HTEST (R158): Writes whether the handle's operation has finished. -/
  | htest (h : Hdr) (o : Ops4)
  /-- HCANCEL (R158): Requests cancellation of the handle's operation. -/
  | hcancel (h : Hdr) (o : Ops4)
  /-- HSTAT (R158): Writes the state, fault cause and DETAIL of the handle's operation. -/
  | hstat (h : Hdr) (o : Ops4)
  /-- HMOV (R158): Moves a handle between h and s registers, checking it on the way into h. -/
  | hmov (h : Hdr) (o : Ops4)
  /-- TSPAWN (R163): Pushes one task per active lane to the core's pool, or parts while the pool and ring are full. -/
  | tspawn (h : Hdr) (o : Ops4) (m : TspMod)
  /-- TARG (R167): Writes bytes of each lane's task header. -/
  | targ (h : Hdr) (o : Ops4)
  /-- DLAUNCH (R169): Appends a child launch block to a device queue or its overflow. -/
  | dlaunch (h : Hdr) (o : Ops4) (m : DlMod)
  /-- COPY (R302): Queues a copy operation at the cluster's copy engine and returns its handle. -/
  | copy (h : Hdr) (o : Ops4) (m : CpMod)
  /-- COPYX (R302): Queues a copy operation whose source passes through the expander. -/
  | copyx (h : Hdr) (o : Ops4) (m : CpMod)
  /-- MMA (R328): Appends a matrix command to the quire's queue. -/
  | mma (h : Hdr) (o : Ops4) (m : MmMod)
  /-- MMAS (R328): Appends a structured-sparse matrix command to the quire's queue. -/
  | mmas (h : Hdr) (o : Ops4) (m : MmMod)
  /-- MZERO (R328): Appends a command that fills a C-buffer range with zeros or [−0, +0]. -/
  | mzero (h : Hdr) (o : Ops4) (m : MzMod)
  /-- CFGLOAD (R403): Sends an image load to a stack's configuration controller. -/
  | cfgload (h : Hdr) (o : Ops4)
  /-- CFGRUN (R403): Sends a run of a cached image on a partition to the controller. -/
  | cfgrun (h : Hdr) (o : Ops4) (m : SlotMod)
  /-- CFGRUN_RES (R398): Sends the resumption of a saved run to the controller. -/
  | cfgrunRes (h : Hdr) (o : Ops4) (m : SlotMod)
  /-- CFGDRAIN (R403): Sends a drain of the partition's current run to the controller. -/
  | cfgdrain (h : Hdr) (o : Ops4) (m : SlotMod)
  /-- CFGEVICT (R403): Sends the eviction of an image to the controller. -/
  | cfgevict (h : Hdr) (o : Ops4)
  /-- RBLK (R436): Starts a link block reduction across the members of a group. -/
  | rblk (h : Hdr) (o : Ops4)
  /-- SRREG (R425): Reads a system register chosen by a selector. -/
  | srreg (h : Hdr) (o : Ops2) (imm : BitVec 32)
  /-- SWREG (R426): Writes a group-0 context register after checking access and limits. -/
  | swreg (h : Hdr) (o : Ops2) (imm : BitVec 32)
  /-- FREC (R427): Writes a program-defined fault record. -/
  | frec (h : Hdr) (o : Ops4)
  /-- ICINV (R428): Removes code lines of a range from every instruction cache of the context. -/
  | icinv (h : Hdr) (o : Ops4)
  /-- FRTAIL_WRITE (R418): Writes FRTAIL, refusing a value below FRTAIL or above FRHEAD. -/
  | frtailWrite (ctx : Nat) (v : Word64)
  /-- COVSIZE_WRITE (R145): Writes COVSIZE, which may only rise. -/
  | covsizeWrite (ctx : Nat) (v : Word64)
  /-- DETCTL_WRITE (R423): Writes the deterministic mode and quantum; DET 1 is refused unless DETM is accepted. -/
  | detctlWrite (ctx : Nat) (v : Word64)
  /-- FEATACC_WRITE (R423): Writes accepted feature words; values that are not a subset of FEATDEV are refused. -/
  | feataccWrite (ctx n : Nat) (v : Word64)
  /-- PEER_WINDOW_WRITE (R435): Writes an outbound peer window of group 5. -/
  | peerWindowWrite (ctx w : Nat) (v : Word64)
  /-- WATCHDOG (R89): The signature's instruction count reaches the budget and the path raises WATCHDOG. -/
  | watchdog (core slot pidx : Nat)
  /-- RECORD_RELAUNCH (R146): A ready record takes a free residency in relaunch order and becomes a running path. -/
  | recordRelaunch (core : Nat)
  /-- LOAD_DATA_ARRIVAL (R141): Writes a load's data to the destination, checking interval images and ECC, and makes the record ready. -/
  | loadDataArrival (core pseq : Nat) (r : Resp)
  /-- STORE_PERFORMED (R289): A global write or update is performed at its home slice, removing outstanding counts and readying FENCE and OUTST waiters. -/
  | storePerformed (core ix : Nat) (r : Resp)
  /-- FLUSH_COMPLETE (R267): A CFLUSH or CINV has treated every line of its range and removes its outstanding count. -/
  | flushComplete (core ix : Nat)
  /-- APERTURE_WRITE_ACK (R430): The zero-length read behind a host-aperture write returns and acknowledges the write. -/
  | apertureWriteAck (core ix : Nat)
  /-- THIMBLE_VISIT (R285): A node holding the thimble performs its queued SC operations in arrival order and passes the thimble on. -/
  | thimbleVisit
  /-- ISSUE_QUANTUM_END (R84): A signature retires Q instructions and its deterministic round ends. -/
  | issueQuantumEnd (core slot : Nat)
  /-- SERIAL_PHASE (R86): Performs the round's synchronising operations in fixed order, readies waits, forms waves and starts the next round. -/
  | serialPhase (ctx : Nat)
  /-- WAVE_FORM (R164): Forms a task wave from pooled tasks of one entry, reading and checking the task entry. -/
  | waveForm (core : Nat)
  /-- GANG_PLACE (R69): Places a pending gang on adjacent cores, reserving every resource of each quire. -/
  | gangPlace
  /-- QUIRE_RETIRE (R73): Releases a quire's reservations once its last signature has exited and its engine operations have completed. -/
  | quireRetire (core key : Nat)
  /-- GRID_RETIRE (R63): Retires a grid, releasing its unbound memory and writing the completion word at DONE. -/
  | gridRetire (ctx grid : Nat)
  /-- DEVICE_QUEUE_TAKE (R168): The launch scheduler takes the next entry of a device queue and moves an overflow block into the queue. -/
  | deviceQueueTake (ctx q : Nat)
  /-- HOST_DOORBELL (R433): A host tail write makes blocks available; the firmware reads, validates and hands them on, and updates the head word. -/
  | hostDoorbell (fn ctx q : Nat) (tail : Word64)
  /-- SERIAL_QUEUE_RETIRE (R437): Firmware event on a grid's retirement in a SERIAL queue, which hands on the queue's next block. -/
  | serialQueueRetire (ctx q : Nat)
  /-- PAGE_FILL_COMPLETE (R255): The paging engine finishes a fill: writes the frame and the entry, and makes the waiters ready, or fails the fill under R256. -/
  | pageFillComplete (ix : Nat) (r : Resp)
  /-- CHANNEL_PERIOD (R260): A pseudo-channel period of 2,048 command cycles begins and reloads the budget counters from the registers. -/
  | channelPeriod (stack pc : Nat)
  /-- REFRESH_DUE (R261): A bank's refresh falls due and is performed, postponed, or forces an all-bank refresh. -/
  | refreshDue (stack pc bank : Nat)
  /-- COPY_CHUNK (R299): The copy engine performs one chunk of an active operation in its round-robin turn. -/
  | copyChunk (cluster : Nat) (r : Resp)
  /-- COPY_COMPLETE (R313): Once every byte is written, delivers to a point, pushes a task or writes the completion word, and makes the handle DONE. -/
  | copyComplete (cluster op : Nat)
  /-- TILE_STEP (R329): The matrix engine performs one tile step of a head command, completing the command after its last step. -/
  | tileStep (cluster : Nat) (r : Resp)
  /-- MZERO_EXECUTE (R334): The matrix engine writes the MZERO range and completes the command. -/
  | mzeroExecute (cluster : Nat)
  /-- CFGLOAD_PERFORM (R404): The controller copies an image into the configuration cache and checks it. -/
  | cfgloadPerform (stack : Nat)
  /-- CFGRUN_ENQUEUE (R389): The controller checks a run, pins its image and appends it to the slot's run queue. -/
  | cfgrunEnqueue (stack : Nat)
  /-- CFGDRAIN_PERFORM (R394): The controller starts draining the partition's current run. -/
  | cfgdrainPerform (stack : Nat)
  /-- CFGEVICT_PERFORM (R404): The controller frees an unpinned image's granules. -/
  | cfgevictPerform (stack : Nat)
  /-- INSTALL_RUN (R390): Reads the parameters, checks the image against the partition, and writes the tiles. -/
  | installRun (stack slot : Nat)
  /-- TILE_FIRE (R347): A C tile fires when its inputs hold tokens and its outputs have room. -/
  | tileFire (stack slot row col : Nat)
  /-- M_BUFFER_ACCEPT (R355): An M-tile buffer stores an arriving token. -/
  | mBufferAccept (stack slot row col buf : Nat)
  /-- M_BUFFER_EMIT (R355): An M-tile buffer emits its oldest token, or a replay pass. -/
  | mBufferEmit (stack slot row col buf : Nat)
  /-- PORT_READ_ISSUE (R357): A read port checks and issues the next word of its walk, or withholds it on a non-resident page. -/
  | portReadIssue (stack slot row col : Nat)
  /-- PORT_READ_RETURN (R358): A read port emits a returned word as DATA in walk order, then END after the last word. -/
  | portReadReturn (stack slot row col : Nat)
  /-- PORT_WRITE (R359): A write port writes a DATA token to the next address of its walk. -/
  | portWrite (stack slot row col : Nat)
  /-- PORT_WRITE_ACK (R359): DRAM acknowledges a port's write; the port is done once END has arrived and every write is acknowledged. -/
  | portWriteAck (stack slot row col : Nat)
  /-- CONTEXT_STEP (R369): Once every tile is done, the sequencer steps the partition to the next context. -/
  | contextStep (stack slot : Nat)
  /-- RUN_COMPLETE (R372): A run completes; the partition becomes IDLE and the run's handle DONE. -/
  | runComplete (stack slot : Nat)
  /-- FREEZE_END (R393): Once issued writes and queued entries are done, makes the run FAULTED and the partition IDLE. -/
  | freezeEnd (stack slot : Nat)
  /-- DRAIN_SAVE (R394): On quiescence, writes the drained run's state to the save area. -/
  | drainSave (stack slot : Nat)
  /-- DRAIN_DONE (R394): Once the save writes are performed, makes the partition IDLE and the drain's handle DONE. -/
  | drainDone (stack slot : Nat)
  /-- DRAIN_TIMEOUT (R395): The drain bound expires without quiescence; the partition freezes with DRAINTO. -/
  | drainTimeout (stack slot : Nat)
  /-- RBLK_MESSAGE (R436): Receives a phase message of a matching reduction, checks it, and advances or completes the phase. -/
  | rblkMessage (m : RblkMsg)
  /-- RBLK_ABORT (R436): Receives an abort from a member and ends the matching operation FAULTED with ACCESS. -/
  | rblkAbort (ctx group k : Nat)
  /-- PEER_REQUEST (R435): An access arriving from a peer device is translated, checked and performed at the target. -/
  | peerRequest (r : PeerReq)
  /-- HOST_BAR2_ACCESS (R431): A host access through BAR2 is performed at the home slice of each line. -/
  | hostBar2Access (fn : Nat) (r : Bar2Req)
  /-- DEFINE (R408): Moves a context from UNDEFINED to DEFINED with registers at their values after creation. -/
  | ctxDefine (fn ctx : Nat)
  /-- UNDEFINE (R408): Moves a DEFINED context to UNDEFINED. -/
  | ctxUndefine (fn ctx : Nat)
  /-- ACTIVATE (R408): Activates a DEFINED context, or restores a SAVED context under R422. -/
  | ctxActivate (fn ctx : Nat)
  /-- PREEMPT (R421): Halts, saves and releases an ACTIVE context until it is SAVED. -/
  | ctxPreempt (fn ctx : Nat)
  /-- KILL (R410): Discards every path, task and launch of the context and cancels its operations. -/
  | ctxKill (fn ctx : Nat)
  /-- CTXWRITE (R409): Writes a context register of group 0, or a peer window of group 5. -/
  | ctxwrite (fn ctx : Nat) (sel : BitVec 32) (v : Word64)
  /-- QSET (R433): Sets a host queue's ring, entry count, mode and head word. -/
  | qset (fn ctx q : Nat) (ring : Word64) (entries : Nat) (serial : Bool) (head : Word64)
  /-- INVAL (R253): Makes entry changes of a range take effect, writing back and dropping its cached lines. -/
  | inval (fn ctx : Nat) (va : Word64) (len : Nat)
  /-- UNMAP (R434): Waits for fills on the range, clears V, invalidates, and optionally wipes the frames. -/
  | unmap (fn ctx : Nat) (va : Word64) (len : Nat) (wipe : Bool)
  /-- BUDGET (R260): Writes channel budget registers, finishing once the new budgets are in force. -/
  | budget (fn stack : Nat) (pcs : BitVec 64) (vals : BudgetVals)
  /-- PARTSET (R365): Writes a partition register after the firmware's checks. -/
  | partset (fn stack slot : Nat) (v : Word64)
  /-- GRPSET (R436): Defines a reduction group with its ranks and members. -/
  | grpset (fn ctx group rank : Nat) (members : MemberList)
  /-- FNSET (R432): Assigns contexts and HAOFF to a function; PF only. -/
  | fnset (fn target first count : Nat) (haoff : Word64)
  /-- LIFECYCLE (R440): Moves the life-cycle state forward and wipes the device. -/
  | lifecycle (fn : Nat) (target : LifeState) (auth : Bool) (svn : Nat)
  /-- ATTEST (R439): Writes a signed report of the measurements, the SVN and the life-cycle state. -/
  | attest (fn ctx : Nat) (nonce : List Byte) (va : Word64)
  /-- DEVICE_RESET (R440): Wipes HBM and every on-die and base-die SRAM and register, loads and measures the firmware, and leaves every context UNDEFINED. -/
  | deviceReset (rom image : List Byte)
  /-- POWER_LIMIT (R441): The power stage lowers the arithmetic clock when the sensed power would exceed the rating. -/
  | powerLimit (lowered : Bool)
  /-- ALL_BANK_REFRESH_END (R261): A forced all-bank refresh ends after 512 command cycles, its banks are refreshed, and the pseudo-channel resumes issuing for every activity. -/
  | allBankRefreshEnd (stack pc : Nat)
  /-- CFGLOAD_GRANULE (R404): A 4 KiB granule of a CFGLOAD's image has been copied into the configuration cache; after the last granule, the controller checks CHECK and the sections, enters the image and completes the handle. -/
  | cfgloadGranule (stack : Nat)
  deriving DecidableEq, Repr

end Sys2Proof
end

