-- ==== Sys2Proof/WellFormed.lean ====
section
/-!
DEFINITION. WellFormed.lean: which values of `Instr` stand for words that are instructions (R16 to R32): the
conditions whose breach raises ILLOP, written on the typed fields, and the canonical form of a field.
-/
namespace Sys2Proof

/-- The bits of an operand field that R19 gives no meaning. -/
def Operand.meaningless (b : BitVec 16) : Bool :=
  match (b.extractLsb' 12 4).toNat with
  | 0 => b.extractLsb' 8 2 != 0
  | 1 => b.extractLsb' 6 4 != 0
  | 2 => false
  | 3 => false
  | 4 => b.extractLsb' 3 9 != 0
  | 5 => b.extractLsb' 4 8 != 0
  | 6 => b.extractLsb' 4 6 != 0
  | 7 => b.extractLsb' 8 4 != 0
  | 8 => b.extractLsb' 0 12 != 0
  | _ => true

/-- A field is in canonical form: `bad` is kept for the bits of `Operand.meaningless` alone. -/
def Operand.canon : Operand → Bool
  | .bad b => Operand.meaningless b
  | _ => true

def Operand.isH : Operand → Bool
  | .h _ => true
  | .bad b => b.extractLsb' 12 4 == 5
  | _ => false

def Operand.isP : Operand → Bool
  | .p _ => true
  | _ => false

/-- A guard of R17: "always" names p0. -/
def Hdr.ok (h : Hdr) : Bool := h.cond != .always || h.pred == 0

def Ops4.canon (o : Ops4) : Bool := o.d.canon && o.a.canon && o.b.canon && o.c.canon
def Ops2.canon (o : Ops2) : Bool := o.d.canon && o.a.canon
/-- No field of kind 5 (R20). -/
def Ops4.noH (o : Ops4) : Bool := !o.d.isH && !o.a.isH && !o.b.isH && !o.c.isH
def Ops2.noH (o : Ops2) : Bool := !o.d.isH && !o.a.isH

/-- Type sets of R173, R184 and R192. -/
def tyI : List Ty := [.i32, .n32, .i64, .n64, .i16x4, .i8x8]
def tyW : List Ty := [.i32, .n32, .i64, .n64]
def tyN : List Ty := [.n32, .n64]
def tyAbs : List Ty := [.i32, .i64, .i16x4, .i8x8]
def tyF : List Ty := [.f64, .f32, .f16, .bf16, .f16x4, .bf16x4, .f32x2]
def tyH : List Ty := [.f32, .f16, .bf16, .f16x4, .bf16x4, .f32x2]
def tyS : List Ty := [.f64, .f32, .f16, .bf16]
def tyV : List Ty := [.f16x4, .bf16x4, .f32x2]
def tyC : List Ty := [.f64, .f32, .f16, .bf16, .i32, .n32, .i64, .n64]

/-- The lane type of an R26 code; 0xF stands for none. -/
def Ty.ofCode : Nat → Option Ty
  | 0 => some .f64 | 1 => some .f32 | 2 => some .f16 | 3 => some .bf16
  | 4 => some .f16x4 | 5 => some .bf16x4 | 6 => some .iv32 | 7 => some .iv64
  | 8 => some .i32 | 9 => some .n32 | 10 => some .i64 | 11 => some .n64
  | 12 => some .i16x4 | 13 => some .i8x8 | 14 => some .f32x2 | _ => none

def Ty.code : Ty → BitVec 4
  | .f64 => 0 | .f32 => 1 | .f16 => 2 | .bf16 => 3 | .f16x4 => 4 | .bf16x4 => 5 | .iv32 => 6 | .iv64 => 7
  | .i32 => 8 | .n32 => 9 | .i64 => 10 | .n64 => 11 | .i16x4 => 12 | .i8x8 => 13 | .f32x2 => 14

/-- MOD of the integer group (R173): RM 000, FTZ 0, a listed type, SAT where it is listed. -/
def AMod.intOk (m : AMod) (tys : List Ty) (sat : Bool) : Bool :=
  m.rm == .rne && !m.ftz && tys.contains m.ty && (sat || !m.sat)
/-- MOD of the interval group (R201). -/
def AMod.ivOk (m : AMod) : Bool :=
  m.rm == .rne && !m.sat && !m.ftz && (m.ty == .iv32 || m.ty == .iv64)

/-- A control operand (R172) holds an accepted value. A field that is no immediate is an OPERAND fault, not an
ILLOP, so it passes here. -/
def ctlSat (o : Operand) (p : Nat → Bool) : Bool :=
  match o with
  | .imm i => p i.toNat
  | _ => true
def ctlMax (o : Operand) (n : Nat) : Bool := ctlSat o fun x => x ≤ n

/-- The source type of CVTI (R183). -/
def cvtiSourceOk (x : Nat) (t : Ty) : Bool :=
  match Ty.ofCode x with
  | some y => tyW.contains y && y != t
  | none => false
/-- The source type of CVTF (R193). -/
def cvtfSourceOk (x : Nat) (t : Ty) : Bool :=
  match Ty.ofCode x with
  | some y => tyC.contains y && y != t && !(tyW.contains y && tyW.contains t)
  | none => false

/-- The largest group number of a format in a 64-bit register (R192). -/
def groupMax (fmt : Nat) : Nat :=
  if fmt == 3 || fmt == 4 then 0
  else if fmt == 9 || fmt == 0xC || fmt == 0xD || fmt == 0xE then 3
  else if fmt == 0xF then 7 else 1
/-- An fg control value (R192). -/
def fgOk (x : Nat) (fmts : Nat → Bool) : Bool :=
  fmts (x % 16) && x / 128 == 0 && x / 16 % 8 ≤ groupMax (x % 16)
/-- The control value and the type of QBLK (R192). -/
def qblkOk (x : Nat) (t : Ty) : Bool :=
  x / 16 == 0 && ((5 ≤ x && x ≤ 0xA && t == .f32) || (x == 0xE && t == .f32x2))

def isNTy (t : BitVec 4) : Bool := t == 9 || t == 11
def isWTy (t : BitVec 4) : Bool := t == 8 || t == 9 || t == 10 || t == 11
/-- SIZE and SIGNED of an atomic (R235, R265). -/
def AtMod.atOk (m : AtMod) : Bool :=
  (m.size == 2 || m.size == 3) && (!m.signed || m.opc == 1 || m.opc == 2)

/-- The word of this instruction raises no ILLOP for its fields (R16, R17, R20, R24 to R27, R31, R32 and the MOD
tables of the chapters). Events are no words. -/
def Instr.legal : Instr → Bool
  | .nop h o => h.ok && o.noH
  | .bra h o _ u => h.ok && o.noH && u == 0
  | .btri h o _ _ => h.ok && o.noH
  | .brx h o => h.ok && o.noH
  | .call h o _ u => h.ok && o.noH && u == 0
  | .ret h o => h.ok && o.noH
  | .join h o => h.ok && o.noH && h.cond == .always
  | .exit h o => h.ok && o.noH
  | .yield h o => h.ok && o.noH
  | .trap h o _ => h.ok && o.noH
  | .tretRetry h o => h.ok && o.noH
  | .tretSkip h o => h.ok && o.noH
  | .tretKill h o => h.ok && o.noH
  | .bpt h o => h.ok && o.noH
  | .loopd h o _ u => h.ok && o.noH && u == 0
  | .shfl h o m => h.ok && o.noH && isNTy m.ty && m.op == 0
  | .vote h o m => h.ok && o.noH && (((m.sel == 0 || m.sel == 1) && m.ty == 0 && m.op == 0) || (m.sel == 2 && isNTy m.ty && m.op == 0) || (m.sel == 3 && m.ty == 0 && m.op.toNat ≤ 2))
  | .redux h o m => h.ok && o.noH && m.sel == 0 && isWTy m.ty && m.op.toNat ≤ 5
  | .fredux h o m => h.ok && o.noH && (((m.ty == 0 || m.ty == 1) && m.sel.toNat ≤ 2) || (m.ty == 6 && m.sel == 0 && m.op == 0))
  | .matchOp h o m => h.ok && o.noH && isNTy m.ty && m.sel.toNat ≤ 2 && m.op == 0
  | .plop h o m => h.ok && o.noH && !m.w && m.sel == 0 && m.ty == 0
  | .pset h o m => h.ok && o.noH && (!m.w && m.ty == 0 && (((m.sel == 0 || m.sel == 2) && m.op == 0) || (m.sel == 1 && m.op.toNat ≤ 2)))
  | .pmov h o m => h.ok && o.noH && !m.w && m.sel == 0 && m.ty == 0 && m.op == 0
  | .pcount h o m => h.ok && o.noH && m.sel.toNat ≤ 2 && m.ty == 0 && m.op == 0
  | .mov h _ _ => h.ok
  | .movi h o _ _ => h.ok && o.noH
  | .sel h o _ => h.ok && o.noH
  | .sread h o => h.ok && o.noH
  | .rgn h o _ => h.ok && o.noH
  | .live h o _ => h.ok && o.noH
  | .setk h o _ => h.ok && o.noH
  | .quotaGive h o => h.ok && o.noH
  | .quotaTake h o => h.ok && o.noH
  | .iadd h o m => h.ok && o.noH && m.intOk tyI true
  | .isub h o m => h.ok && o.noH && m.intOk tyI true
  | .imul h o m => h.ok && o.noH && m.intOk tyI true
  | .imulh h o m => h.ok && o.noH && m.intOk tyW false
  | .imad h o m => h.ok && o.noH && m.intOk tyI true
  | .imin h o m => h.ok && o.noH && m.intOk tyI false
  | .imax h o m => h.ok && o.noH && m.intOk tyI false
  | .iabs h o m => h.ok && o.noH && m.intOk tyAbs true
  | .lop3 h o m => h.ok && o.noH && m.intOk tyN false && ctlMax o.c 255
  | .shl h o m => h.ok && o.noH && m.intOk tyI true
  | .shr h o m => h.ok && o.noH && m.intOk tyI false
  | .sar h o m => h.ok && o.noH && m.intOk tyI false
  | .rot h o m => h.ok && o.noH && m.intOk tyI false
  | .bfx h o m => h.ok && o.noH && m.intOk tyW false
  | .bfi h o m => h.ok && o.noH && m.intOk tyN false
  | .popc h o m => h.ok && o.noH && m.intOk tyN false
  | .clz h o m => h.ok && o.noH && m.intOk tyN false
  | .brev h o m => h.ok && o.noH && m.intOk tyN false
  | .icmp h o m => h.ok && o.noH && m.intOk tyW false && ctlMax o.c 5
  | .lea h o m => h.ok && o.noH && m.intOk tyW false && ctlMax o.c 63
  | .idiv h o m => h.ok && o.noH && m.intOk tyW true && ctlMax o.c 1
  | .cvti h o m => h.ok && o.noH && (m.intOk tyW true && ctlSat o.b fun x => cvtiSourceOk x m.ty)
  | .fadd h o m => h.ok && o.noH && tyF.contains m.ty
  | .fmul h o m => h.ok && o.noH && tyF.contains m.ty
  | .ffma h o m => h.ok && o.noH && tyF.contains m.ty
  | .fmin h o m => h.ok && o.noH && tyF.contains m.ty && m.rm == .rne && !m.sat
  | .fmax h o m => h.ok && o.noH && tyF.contains m.ty && m.rm == .rne && !m.sat
  | .fcmp h o m => h.ok && o.noH && tyS.contains m.ty && m.rm == .rne && !m.sat && ctlMax o.c 6
  | .fclass h o m => h.ok && o.noH && (tyS.contains m.ty && m.rm == .rne && !m.sat && !m.ftz && (!o.d.isP || ctlMax o.c 1023))
  | .frnd h o m => h.ok && o.noH && tyF.contains m.ty && !m.sat
  | .frcp h o m => h.ok && o.noH && tyF.contains m.ty
  | .fsqrt h o m => h.ok && o.noH && tyF.contains m.ty
  | .frsq h o m => h.ok && o.noH && tyH.contains m.ty && m.rm == .rne
  | .fex2 h o m => h.ok && o.noH && tyH.contains m.ty && m.rm == .rne
  | .flg2 h o m => h.ok && o.noH && tyH.contains m.ty && m.rm == .rne
  | .fsin h o m => h.ok && o.noH && tyH.contains m.ty && m.rm == .rne
  | .fcos h o m => h.ok && o.noH && tyH.contains m.ty && m.rm == .rne
  | .fdiv h o m => h.ok && o.noH && tyF.contains m.ty
  | .ftanh h o m => h.ok && o.noH && tyH.contains m.ty && m.rm == .rne
  | .fdot h o m => h.ok && o.noH && tyV.contains m.ty
  | .fscale h o m => h.ok && o.noH && tyF.contains m.ty
  | .cvtf h o m => h.ok && o.noH && (tyC.contains m.ty && !(tyW.contains m.ty && m.sat) && ctlSat o.b fun x => cvtfSourceOk x m.ty)
  | .pack h o m => h.ok && o.noH && (tyV.contains m.ty && ctlSat o.c fun x => fgOk x (fun f => 3 ≤ f && f ≤ 0xD))
  | .unpack h o m => h.ok && o.noH && (tyV.contains m.ty && ctlSat o.c fun x => fgOk x (fun f => 3 ≤ f && f ≤ 0xD))
  | .deq h o m => h.ok && o.noH && (m.ty == .f32x2 && !m.sat && ctlSat o.c fun x => fgOk x (fun f => (5 ≤ f && f ≤ 0xA) || f == 0xE || f == 0xF))
  | .qblk h o m => h.ok && o.noH && ((m.ty == .f32 || m.ty == .f32x2) && m.rm == .rne && !m.sat && !m.ftz && ctlSat o.c fun x => qblkOk x m.ty)
  | .ivmake h o m => h.ok && o.noH && m.ivOk && ctlMax o.c 2
  | .ivbnd h o m => h.ok && o.noH && m.ivOk && ctlMax o.c 3
  | .ivadd h o m => h.ok && o.noH && m.ivOk
  | .ivsub h o m => h.ok && o.noH && m.ivOk
  | .ivmul h o m => h.ok && o.noH && m.ivOk
  | .ivdiv h o m => h.ok && o.noH && m.ivOk
  | .ivfma h o m => h.ok && o.noH && m.ivOk
  | .ivsqr h o m => h.ok && o.noH && m.ivOk
  | .ivsqrt h o m => h.ok && o.noH && m.ivOk
  | .ivex2 h o m => h.ok && o.noH && m.ivOk && m.ty == .iv32
  | .ivlg2 h o m => h.ok && o.noH && m.ivOk && m.ty == .iv32
  | .ivmid h o m => h.ok && o.noH && m.ivOk
  | .ivwid h o m => h.ok && o.noH && m.ivOk
  | .ivhull h o m => h.ok && o.noH && m.ivOk
  | .ivisect h o m => h.ok && o.noH && m.ivOk && ctlMax o.c 1
  | .ivcmp h o m => h.ok && o.noH && m.ivOk && ctlMax o.c 6
  | .ivbisect h o m => h.ok && o.noH && m.ivOk
  | .ivld h o _ m => h.ok && o.noH && m.ivOk
  | .ivst h o _ m => h.ok && o.noH && m.ivOk
  | .ldl h o _ m => h.ok && o.noH && (m.space == 0 && m.size.toNat ≤ 4 && (!m.sx || m.size.toNat ≤ 2))
  | .stl h o _ m => h.ok && o.noH && m.space == 0 && m.size.toNat ≤ 4 && !m.sx
  | .atoml h o m => h.ok && o.noH && m.atOk && m.opc.toNat ≤ 8 && !m.sc
  | .ldb h o _ m => h.ok && o.noH && (m.space != 0 && m.size.toNat ≤ 4 && (!m.sx || m.size.toNat ≤ 2))
  | .stb h o _ m => h.ok && o.noH && m.space != 0 && m.size.toNat ≤ 4 && !m.sx
  | .spush h o => h.ok && o.noH
  | .spop h o => h.ok && o.noH
  | .ld h o _ m => h.ok && o.noH && (m.size.toNat ≤ 4 && (!m.sx || m.size.toNat ≤ 2) && !m.nm && m.ch != 3)
  | .st h o _ m => h.ok && o.noH && m.size.toNat ≤ 4 && !m.sx && m.ch != 3
  | .atom h o m => h.ok && o.noH && m.atOk && m.opc.toNat ≤ 8 && m.opc != 7
  | .red h o m => h.ok && o.noH && m.atOk && m.opc.toNat ≤ 8 && m.opc != 7 && m.opc != 6 && !m.sc
  | .cas h o m => h.ok && o.noH && m.atOk && m.opc == 0
  | .ldsc h o _ m => h.ok && o.noH && ((m.size == 2 || (m.size == 3 && !m.sx)) && !m.nm && m.ch == 0)
  | .stsc h o _ m => h.ok && o.noH && ((m.size == 2 || m.size == 3) && !m.sx && !m.nm && m.ch == 0)
  | .cflush h o => h.ok && o.noH
  | .cinv h o => h.ok && o.noH
  | .pref h o _ => h.ok && o.noH
  | .bind h o _ => h.ok && o.noH
  | .acq h o m => h.ok && o.noH && !m.oc
  | .rel h o _ => h.ok && o.noH
  | .fence h o m => h.ok && o.noH && m.scope.toNat ≤ 4
  | .ocwait h o => h.ok && o.noH
  | .rvinit h o => h.ok && o.noH
  | .rvarr h o => h.ok && o.noH
  | .rvwait h o => h.ok && o.noH
  | .mbinit h o => h.ok && o.noH
  | .mbarr h o m => h.ok && o.noH && !m.oc
  | .mbwait h o => h.ok && o.noH
  | .hwait h _ => h.ok
  | .htest h _ => h.ok
  | .hcancel h _ => h.ok
  | .hstat h _ => h.ok
  | .hmov h _ => h.ok
  | .tspawn h _ _ => h.ok
  | .targ h _ => h.ok
  | .dlaunch h _ _ => h.ok
  | .copy h _ m => h.ok && m.sspace.toNat ≤ 4 && m.dspace.toNat ≤ 4
  | .copyx h _ m => h.ok && m.sspace.toNat ≤ 4 && m.dspace.toNat ≤ 4
  | .mma h _ m => h.ok && m.nsel != 3
  | .mmas h _ m => h.ok && m.nsel != 3 && !m.g
  | .mzero h _ _ => h.ok
  | .cfgload h _ => h.ok
  | .cfgrun h _ _ => h.ok
  | .cfgrunRes h _ _ => h.ok
  | .cfgdrain h _ _ => h.ok
  | .cfgevict h _ => h.ok
  | .rblk h _ => h.ok
  | .srreg h o _ => h.ok && o.noH
  | .swreg h o _ => h.ok && o.noH
  | .frec h o => h.ok && o.noH
  | .icinv h o => h.ok && o.noH
  | .frtailWrite _ _ => false
  | .covsizeWrite _ _ => false
  | .detctlWrite _ _ => false
  | .feataccWrite _ _ _ => false
  | .peerWindowWrite _ _ _ => false
  | .watchdog _ _ _ => false
  | .recordRelaunch _ => false
  | .loadDataArrival _ _ _ => false
  | .storePerformed _ _ _ => false
  | .flushComplete _ _ => false
  | .apertureWriteAck _ _ => false
  | .thimbleVisit => false
  | .issueQuantumEnd _ _ => false
  | .serialPhase _ => false
  | .waveForm _ => false
  | .gangPlace => false
  | .quireRetire _ _ => false
  | .gridRetire _ _ => false
  | .deviceQueueTake _ _ => false
  | .hostDoorbell _ _ _ _ => false
  | .serialQueueRetire _ _ => false
  | .pageFillComplete _ _ => false
  | .channelPeriod _ _ => false
  | .refreshDue _ _ _ => false
  | .copyChunk _ _ => false
  | .copyComplete _ _ => false
  | .tileStep _ _ => false
  | .mzeroExecute _ => false
  | .cfgloadPerform _ => false
  | .cfgrunEnqueue _ => false
  | .cfgdrainPerform _ => false
  | .cfgevictPerform _ => false
  | .installRun _ _ => false
  | .tileFire _ _ _ _ => false
  | .mBufferAccept _ _ _ _ _ => false
  | .mBufferEmit _ _ _ _ _ => false
  | .portReadIssue _ _ _ _ => false
  | .portReadReturn _ _ _ _ => false
  | .portWrite _ _ _ _ => false
  | .portWriteAck _ _ _ _ => false
  | .contextStep _ _ => false
  | .runComplete _ _ => false
  | .freezeEnd _ _ => false
  | .drainSave _ _ => false
  | .drainDone _ _ => false
  | .drainTimeout _ _ => false
  | .rblkMessage _ => false
  | .rblkAbort _ _ _ => false
  | .peerRequest _ => false
  | .hostBar2Access _ _ => false
  | .ctxDefine _ _ => false
  | .ctxUndefine _ _ => false
  | .ctxActivate _ _ => false
  | .ctxPreempt _ _ => false
  | .ctxKill _ _ => false
  | .ctxwrite _ _ _ _ => false
  | .qset _ _ _ _ _ _ _ => false
  | .inval _ _ _ _ => false
  | .unmap _ _ _ _ _ => false
  | .budget _ _ _ _ => false
  | .partset _ _ _ _ => false
  | .grpset _ _ _ _ _ => false
  | .fnset _ _ _ _ _ => false
  | .lifecycle _ _ _ _ => false
  | .attest _ _ _ _ => false
  | .deviceReset _ _ => false
  | .powerLimit _ => false
  | .allBankRefreshEnd _ _ => false
  | .cfgloadGranule _ => false

/-- Every operand field is in canonical form. -/
def Instr.canon : Instr → Bool
  | .nop _ o => o.canon
  | .bra _ o _ _ => o.canon
  | .btri _ o _ _ => o.canon
  | .brx _ o => o.canon
  | .call _ o _ _ => o.canon
  | .ret _ o => o.canon
  | .join _ o => o.canon
  | .exit _ o => o.canon
  | .yield _ o => o.canon
  | .trap _ o _ => o.canon
  | .tretRetry _ o => o.canon
  | .tretSkip _ o => o.canon
  | .tretKill _ o => o.canon
  | .bpt _ o => o.canon
  | .loopd _ o _ _ => o.canon
  | .shfl _ o _ => o.canon
  | .vote _ o _ => o.canon
  | .redux _ o _ => o.canon
  | .fredux _ o _ => o.canon
  | .matchOp _ o _ => o.canon
  | .plop _ o _ => o.canon
  | .pset _ o _ => o.canon
  | .pmov _ o _ => o.canon
  | .pcount _ o _ => o.canon
  | .mov _ o _ => o.canon
  | .movi _ o _ _ => o.canon
  | .sel _ o _ => o.canon
  | .sread _ o => o.canon
  | .rgn _ o _ => o.canon
  | .live _ o _ => o.canon
  | .setk _ o _ => o.canon
  | .quotaGive _ o => o.canon
  | .quotaTake _ o => o.canon
  | .iadd _ o _ => o.canon
  | .isub _ o _ => o.canon
  | .imul _ o _ => o.canon
  | .imulh _ o _ => o.canon
  | .imad _ o _ => o.canon
  | .imin _ o _ => o.canon
  | .imax _ o _ => o.canon
  | .iabs _ o _ => o.canon
  | .lop3 _ o _ => o.canon
  | .shl _ o _ => o.canon
  | .shr _ o _ => o.canon
  | .sar _ o _ => o.canon
  | .rot _ o _ => o.canon
  | .bfx _ o _ => o.canon
  | .bfi _ o _ => o.canon
  | .popc _ o _ => o.canon
  | .clz _ o _ => o.canon
  | .brev _ o _ => o.canon
  | .icmp _ o _ => o.canon
  | .lea _ o _ => o.canon
  | .idiv _ o _ => o.canon
  | .cvti _ o _ => o.canon
  | .fadd _ o _ => o.canon
  | .fmul _ o _ => o.canon
  | .ffma _ o _ => o.canon
  | .fmin _ o _ => o.canon
  | .fmax _ o _ => o.canon
  | .fcmp _ o _ => o.canon
  | .fclass _ o _ => o.canon
  | .frnd _ o _ => o.canon
  | .frcp _ o _ => o.canon
  | .fsqrt _ o _ => o.canon
  | .frsq _ o _ => o.canon
  | .fex2 _ o _ => o.canon
  | .flg2 _ o _ => o.canon
  | .fsin _ o _ => o.canon
  | .fcos _ o _ => o.canon
  | .fdiv _ o _ => o.canon
  | .ftanh _ o _ => o.canon
  | .fdot _ o _ => o.canon
  | .fscale _ o _ => o.canon
  | .cvtf _ o _ => o.canon
  | .pack _ o _ => o.canon
  | .unpack _ o _ => o.canon
  | .deq _ o _ => o.canon
  | .qblk _ o _ => o.canon
  | .ivmake _ o _ => o.canon
  | .ivbnd _ o _ => o.canon
  | .ivadd _ o _ => o.canon
  | .ivsub _ o _ => o.canon
  | .ivmul _ o _ => o.canon
  | .ivdiv _ o _ => o.canon
  | .ivfma _ o _ => o.canon
  | .ivsqr _ o _ => o.canon
  | .ivsqrt _ o _ => o.canon
  | .ivex2 _ o _ => o.canon
  | .ivlg2 _ o _ => o.canon
  | .ivmid _ o _ => o.canon
  | .ivwid _ o _ => o.canon
  | .ivhull _ o _ => o.canon
  | .ivisect _ o _ => o.canon
  | .ivcmp _ o _ => o.canon
  | .ivbisect _ o _ => o.canon
  | .ivld _ o _ _ => o.canon
  | .ivst _ o _ _ => o.canon
  | .ldl _ o _ _ => o.canon
  | .stl _ o _ _ => o.canon
  | .atoml _ o _ => o.canon
  | .ldb _ o _ _ => o.canon
  | .stb _ o _ _ => o.canon
  | .spush _ o => o.canon
  | .spop _ o => o.canon
  | .ld _ o _ _ => o.canon
  | .st _ o _ _ => o.canon
  | .atom _ o _ => o.canon
  | .red _ o _ => o.canon
  | .cas _ o _ => o.canon
  | .ldsc _ o _ _ => o.canon
  | .stsc _ o _ _ => o.canon
  | .cflush _ o => o.canon
  | .cinv _ o => o.canon
  | .pref _ o _ => o.canon
  | .bind _ o _ => o.canon
  | .acq _ o _ => o.canon
  | .rel _ o _ => o.canon
  | .fence _ o _ => o.canon
  | .ocwait _ o => o.canon
  | .rvinit _ o => o.canon
  | .rvarr _ o => o.canon
  | .rvwait _ o => o.canon
  | .mbinit _ o => o.canon
  | .mbarr _ o _ => o.canon
  | .mbwait _ o => o.canon
  | .hwait _ o => o.canon
  | .htest _ o => o.canon
  | .hcancel _ o => o.canon
  | .hstat _ o => o.canon
  | .hmov _ o => o.canon
  | .tspawn _ o _ => o.canon
  | .targ _ o => o.canon
  | .dlaunch _ o _ => o.canon
  | .copy _ o _ => o.canon
  | .copyx _ o _ => o.canon
  | .mma _ o _ => o.canon
  | .mmas _ o _ => o.canon
  | .mzero _ o _ => o.canon
  | .cfgload _ o => o.canon
  | .cfgrun _ o _ => o.canon
  | .cfgrunRes _ o _ => o.canon
  | .cfgdrain _ o _ => o.canon
  | .cfgevict _ o => o.canon
  | .rblk _ o => o.canon
  | .srreg _ o _ => o.canon
  | .swreg _ o _ => o.canon
  | .frec _ o => o.canon
  | .icinv _ o => o.canon
  | .frtailWrite _ _ => false
  | .covsizeWrite _ _ => false
  | .detctlWrite _ _ => false
  | .feataccWrite _ _ _ => false
  | .peerWindowWrite _ _ _ => false
  | .watchdog _ _ _ => false
  | .recordRelaunch _ => false
  | .loadDataArrival _ _ _ => false
  | .storePerformed _ _ _ => false
  | .flushComplete _ _ => false
  | .apertureWriteAck _ _ => false
  | .thimbleVisit => false
  | .issueQuantumEnd _ _ => false
  | .serialPhase _ => false
  | .waveForm _ => false
  | .gangPlace => false
  | .quireRetire _ _ => false
  | .gridRetire _ _ => false
  | .deviceQueueTake _ _ => false
  | .hostDoorbell _ _ _ _ => false
  | .serialQueueRetire _ _ => false
  | .pageFillComplete _ _ => false
  | .channelPeriod _ _ => false
  | .refreshDue _ _ _ => false
  | .copyChunk _ _ => false
  | .copyComplete _ _ => false
  | .tileStep _ _ => false
  | .mzeroExecute _ => false
  | .cfgloadPerform _ => false
  | .cfgrunEnqueue _ => false
  | .cfgdrainPerform _ => false
  | .cfgevictPerform _ => false
  | .installRun _ _ => false
  | .tileFire _ _ _ _ => false
  | .mBufferAccept _ _ _ _ _ => false
  | .mBufferEmit _ _ _ _ _ => false
  | .portReadIssue _ _ _ _ => false
  | .portReadReturn _ _ _ _ => false
  | .portWrite _ _ _ _ => false
  | .portWriteAck _ _ _ _ => false
  | .contextStep _ _ => false
  | .runComplete _ _ => false
  | .freezeEnd _ _ => false
  | .drainSave _ _ => false
  | .drainDone _ _ => false
  | .drainTimeout _ _ => false
  | .rblkMessage _ => false
  | .rblkAbort _ _ _ => false
  | .peerRequest _ => false
  | .hostBar2Access _ _ => false
  | .ctxDefine _ _ => false
  | .ctxUndefine _ _ => false
  | .ctxActivate _ _ => false
  | .ctxPreempt _ _ => false
  | .ctxKill _ _ => false
  | .ctxwrite _ _ _ _ => false
  | .qset _ _ _ _ _ _ _ => false
  | .inval _ _ _ _ => false
  | .unmap _ _ _ _ _ => false
  | .budget _ _ _ _ => false
  | .partset _ _ _ _ => false
  | .grpset _ _ _ _ _ => false
  | .fnset _ _ _ _ _ => false
  | .lifecycle _ _ _ _ => false
  | .attest _ _ _ _ => false
  | .deviceReset _ _ => false
  | .powerLimit _ => false
  | .allBankRefreshEnd _ _ => false
  | .cfgloadGranule _ => false

/-- A well-formed instruction: the words that stand for one (R32). -/
def Instr.wf (i : Instr) : Bool := i.legal && i.canon

end Sys2Proof
end

