-- ==== Sys2Proof/Decode.lean ====
section
/-!
DEFINITION. Decode.lean: from the bits of a word to an instruction or a named reason why it is none (R15 to R32),
the encoder written from the same tables, and the byte layout of a code slot (R10).
-/
namespace Sys2Proof

/-- Why a word stands for no instruction. Every one of these is an ILLOP (R32). -/
inductive Reject where
  /-- OP is unassigned (R28). -/
  | opcode
  /-- GUARD.COND 111 (R17). -/
  | guard
  /-- HINT.ZERO is set (R18). -/
  | hintZero
  /-- a MOD field holds a reserved code or a set zero bit (R24 to R27). -/
  | mod
  /-- a field value that the instruction does not accept (R16, R17, R20, R31). -/
  | value
  deriving DecidableEq, Repr

/-! ### Fields -/

def Cond.ofCode : Nat → Option Cond
  | 0 => some .always | 1 => some .t | 2 => some .f | 3 => some .u
  | 4 => some .nt | 5 => some .nf | 6 => some .nu | _ => none

def Cond.code : Cond → BitVec 3
  | .always => 0 | .t => 1 | .f => 2 | .u => 3 | .nt => 4 | .nf => 5 | .nu => 6

def Rm.ofCode : Nat → Option Rm
  | 0 => some .rne | 1 => some .rtz | 2 => some .rd | 3 => some .ru | 4 => some .rna | 5 => some .dyn | _ => none

def Rm.code : Rm → BitVec 3
  | .rne => 0 | .rtz => 1 | .rd => 2 | .ru => 3 | .rna => 4 | .dyn => 5

/-- Bit j of x. -/
def bit {n : Nat} (x : BitVec n) (j : Nat) : Bool := x.getLsbD j

/-- An operand field (R19). -/
def Operand.parse (b : BitVec 16) : Operand :=
  if Operand.meaningless b then .bad b
  else match (b.extractLsb' 12 4).toNat with
    | 0 => .v (b.extractLsb' 0 8) (bit b 11) (bit b 10)
    | 1 => .s (b.extractLsb' 0 6) (bit b 11) (bit b 10)
    | 2 => .idx (b.extractLsb' 8 2) (b.extractLsb' 0 8) (bit b 11) (bit b 10)
    | 3 => .imm (b.extractLsb' 0 12)
    | 4 => .p (b.extractLsb' 0 3)
    | 5 => .h (b.extractLsb' 0 4)
    | 6 => .t (b.extractLsb' 0 4) (bit b 11) (bit b 10)
    | 7 => .sr (b.extractLsb' 0 8)
    | _ => .zero

/-- The bits of an operand field (R19). -/
def Operand.bits : Operand → BitVec 16
  | .v n neg abs => 0#4 ++ BitVec.ofBool neg ++ BitVec.ofBool abs ++ 0#2 ++ n
  | .s n neg abs => 1#4 ++ BitVec.ofBool neg ++ BitVec.ofBool abs ++ 0#4 ++ n
  | .idx k off neg abs => 2#4 ++ BitVec.ofBool neg ++ BitVec.ofBool abs ++ k ++ off
  | .imm i => 3#4 ++ i
  | .p n => 4#4 ++ 0#9 ++ n
  | .h n => 5#4 ++ 0#8 ++ n
  | .t n neg abs => 6#4 ++ BitVec.ofBool neg ++ BitVec.ofBool abs ++ 0#6 ++ n
  | .sr n => 7#4 ++ 0#4 ++ n
  | .zero => 8#4 ++ 0#12
  | .bad b => b

/-- The arithmetic MOD (R24 to R27). -/
def AMod.parse (m : BitVec 10) : Option AMod :=
  match Rm.ofCode (m.extractLsb' 7 3).toNat, Ty.ofCode (m.extractLsb' 3 4).toNat with
  | some rm, some ty => if bit m 0 then none else some ⟨rm, ty, bit m 2, bit m 1⟩
  | _, _ => none

def AMod.bits (m : AMod) : BitVec 10 :=
  m.rm.code ++ m.ty.code ++ BitVec.ofBool m.sat ++ BitVec.ofBool m.ftz ++ 0#1

def XMod.parse (m : BitVec 10) : Option XMod := some ⟨bit m 9, m.extractLsb' 7 2, m.extractLsb' 3 4, m.extractLsb' 0 3⟩
def XMod.bits (m : XMod) : BitVec 10 := BitVec.ofBool m.w ++ m.sel ++ m.ty ++ m.op

def X2Mod.parse (m : BitVec 10) : Option X2Mod :=
  if m.extractLsb' 1 9 != 0 then none else some ⟨bit m 0⟩
def X2Mod.bits (m : X2Mod) : BitVec 10 := 0#9 ++ BitVec.ofBool m.x2

def MoviMod.parse (m : BitVec 10) : Option MoviMod :=
  if m.extractLsb' 2 8 != 0 then none else some ⟨m.extractLsb' 0 2⟩
def MoviMod.bits (m : MoviMod) : BitVec 10 := 0#8 ++ m.mode

def SelMod.parse (m : BitVec 10) : Option SelMod :=
  if m.extractLsb' 4 6 != 0 then none else some ⟨m.extractLsb' 0 3, bit m 3⟩
def SelMod.bits (m : SelMod) : BitVec 10 := 0#6 ++ BitVec.ofBool m.x2 ++ m.pn

def RgnMod.parse (m : BitVec 10) : Option RgnMod :=
  if m.extractLsb' 0 6 != 0 then none else some ⟨m.extractLsb' 8 2, m.extractLsb' 6 2⟩
def RgnMod.bits (m : RgnMod) : BitVec 10 := m.bank ++ m.buf ++ 0#6

def SetkMod.parse (m : BitVec 10) : Option SetkMod :=
  if m.extractLsb' 2 8 != 0 then none else some ⟨m.extractLsb' 0 2⟩
def SetkMod.bits (m : SetkMod) : BitVec 10 := 0#8 ++ m.n

def LMod.parse (m : BitVec 10) : Option LMod :=
  if m.extractLsb' 0 4 != 0 then none else some ⟨m.extractLsb' 8 2, m.extractLsb' 5 3, bit m 4⟩
def LMod.bits (m : LMod) : BitVec 10 := m.space ++ m.size ++ BitVec.ofBool m.sx ++ 0#4

def GMod.parse (m : BitVec 10) : Option GMod :=
  if m.extractLsb' 0 3 != 0 then none else some ⟨m.extractLsb' 7 3, bit m 6, bit m 5, m.extractLsb' 3 2⟩
def GMod.bits (m : GMod) : BitVec 10 := m.size ++ BitVec.ofBool m.sx ++ BitVec.ofBool m.nm ++ m.ch ++ 0#3

def PrefMod.parse (m : BitVec 10) : Option PrefMod :=
  if m.extractLsb' 1 9 != 0 then none else some ⟨bit m 0⟩
def PrefMod.bits (m : PrefMod) : BitVec 10 := 0#9 ++ BitVec.ofBool m.res

def BindMod.parse (m : BitVec 10) : Option BindMod :=
  if m.extractLsb' 1 9 != 0 then none else some ⟨bit m 0⟩
def BindMod.bits (m : BindMod) : BitVec 10 := 0#9 ++ BitVec.ofBool m.kind

def SyMod.parse (m : BitVec 10) : Option SyMod :=
  if m.extractLsb' 2 8 != 0 then none else some ⟨bit m 0, bit m 1⟩
def SyMod.bits (m : SyMod) : BitVec 10 := 0#8 ++ BitVec.ofBool m.sy ++ BitVec.ofBool m.oc

def FenceMod.parse (m : BitVec 10) : Option FenceMod :=
  if m.extractLsb' 3 7 != 0 then none else some ⟨m.extractLsb' 0 3⟩
def FenceMod.bits (m : FenceMod) : BitVec 10 := 0#7 ++ m.scope

def TspMod.parse (m : BitVec 10) : Option TspMod :=
  if m.extractLsb' 6 4 != 0 then none else some ⟨m.extractLsb' 0 6⟩
def TspMod.bits (m : TspMod) : BitVec 10 := 0#4 ++ m.n

def DlMod.parse (m : BitVec 10) : Option DlMod :=
  if m.extractLsb' 4 6 != 0 then none else some ⟨m.extractLsb' 0 4⟩
def DlMod.bits (m : DlMod) : BitVec 10 := 0#6 ++ m.q

def CpMod.parse (m : BitVec 10) : Option CpMod :=
  if m.extractLsb' 0 2 != 0 then none else some ⟨m.extractLsb' 7 3, m.extractLsb' 4 3, m.extractLsb' 2 2⟩
def CpMod.bits (m : CpMod) : BitVec 10 := m.sspace ++ m.dspace ++ m.ck ++ 0#2

def MmMod.parse (m : BitVec 10) : Option MmMod :=
  if m.extractLsb' 0 6 != 0 then none else some ⟨m.extractLsb' 8 2, bit m 7, bit m 6⟩
def MmMod.bits (m : MmMod) : BitVec 10 := m.nsel ++ BitVec.ofBool m.acc ++ BitVec.ofBool m.g ++ 0#6

def MzMod.parse (m : BitVec 10) : Option MzMod :=
  if m.extractLsb' 1 9 != 0 then none else some ⟨bit m 0⟩
def MzMod.bits (m : MzMod) : BitVec 10 := 0#9 ++ BitVec.ofBool m.iv

def AtMod.parse (m : BitVec 10) : Option AtMod :=
  if m.extractLsb' 0 2 != 0 then none else some ⟨m.extractLsb' 6 4, m.extractLsb' 4 2, bit m 3, bit m 2⟩
def AtMod.bits (m : AtMod) : BitVec 10 := m.opc ++ m.size ++ BitVec.ofBool m.signed ++ BitVec.ofBool m.sc ++ 0#2

/-- A MOD of which every bit must be zero. -/
def zeroMod (m : BitVec 10) : Option Unit := if m == 0 then some () else none

/-! ### The word -/

/-- GUARD and HINT (R15, R17, R18). -/
def Hdr.parse (w : InstrWord) : Except Reject Hdr :=
  if bit w 74 then .error .hintZero
  else match Cond.ofCode (w.extractLsb' 85 3).toNat with
    | none => .error .guard
    | some c => .ok ⟨c, w.extractLsb' 82 3, w.extractLsb' 79 3, bit w 78, w.extractLsb' 75 3⟩

/-- Bits [95:74] of a word (R15). -/
def Hdr.bits (op : BitVec 8) (h : Hdr) : BitVec 22 :=
  op ++ h.cond.code ++ h.pred ++ h.stall ++ BitVec.ofBool h.yld ++ h.reuse ++ 0#1

def Ops4.parse (w : InstrWord) : Ops4 :=
  ⟨Operand.parse (w.extractLsb' 58 16), Operand.parse (w.extractLsb' 42 16),
   Operand.parse (w.extractLsb' 26 16), Operand.parse (w.extractLsb' 10 16)⟩
def Ops2.parse (w : InstrWord) : Ops2 :=
  ⟨Operand.parse (w.extractLsb' 58 16), Operand.parse (w.extractLsb' 42 16)⟩

/-- Format R (R16). -/
def encR (op : BitVec 8) (h : Hdr) (o : Ops4) (m : BitVec 10) : InstrWord :=
  h.bits op ++ o.d.bits ++ o.a.bits ++ o.b.bits ++ o.c.bits ++ m
/-- Format I (R16). -/
def encI (op : BitVec 8) (h : Hdr) (o : Ops2) (imm : BitVec 32) (m : BitVec 10) : InstrWord :=
  h.bits op ++ o.d.bits ++ o.a.bits ++ imm ++ m
/-- Format J (R16). -/
def encJ (op : BitVec 8) (h : Hdr) (o : Ops2) (t u : BitVec 21) : InstrWord :=
  h.bits op ++ o.d.bits ++ o.a.bits ++ t ++ u

/-- MOD of TRET (R424): retry, skip, kill. -/
def tretMod : Nat → Option (Fin 3)
  | 0 => some 0 | 1 => some 1 | 2 => some 2 | _ => none

/-- The instruction of a word, before the conditions of `Instr.legal`: OP fixes format and MOD layout (R28, R29). -/
def parseWord (w : InstrWord) (h : Hdr) : Except Reject Instr :=
  let o := Ops4.parse w
  let q := Ops2.parse w
  let m := w.extractLsb' 0 10
  let imm := w.extractLsb' 10 32
  let t := w.extractLsb' 21 21
  let u := w.extractLsb' 0 21
  let need {α : Type} (x : Option α) (f : α → Instr) : Except Reject Instr :=
    match x with
    | some a => .ok (f a)
    | none => .error .mod
  match (w.extractLsb' 88 8).toNat with
  | 0x01 => need (zeroMod m) fun _ => .nop h o
  | 0x02 => .ok (.bra h q t u)
  | 0x03 => .ok (.btri h q t u)
  | 0x04 => need (zeroMod m) fun _ => .brx h o
  | 0x05 => .ok (.call h q t u)
  | 0x06 => need (zeroMod m) fun _ => .ret h o
  | 0x07 => need (zeroMod m) fun _ => .join h o
  | 0x08 => need (zeroMod m) fun _ => .exit h o
  | 0x09 => need (zeroMod m) fun _ => .yield h o
  | 0x0A => need (zeroMod m) fun _ => .trap h q imm
  | 0x0B => need (tretMod m.toNat) fun x => if x = 0 then .tretRetry h o else if x = 1 then .tretSkip h o else .tretKill h o
  | 0x0C => need (zeroMod m) fun _ => .bpt h o
  | 0x0D => .ok (.loopd h q t u)
  | 0x10 => need (XMod.parse m) fun x => .shfl h o x
  | 0x11 => need (XMod.parse m) fun x => .vote h o x
  | 0x12 => need (XMod.parse m) fun x => .redux h o x
  | 0x13 => need (XMod.parse m) fun x => .fredux h o x
  | 0x14 => need (XMod.parse m) fun x => .matchOp h o x
  | 0x15 => need (XMod.parse m) fun x => .plop h o x
  | 0x16 => need (XMod.parse m) fun x => .pset h o x
  | 0x17 => need (XMod.parse m) fun x => .pmov h o x
  | 0x18 => need (XMod.parse m) fun x => .pcount h o x
  | 0x20 => need (X2Mod.parse m) fun x => .mov h o x
  | 0x21 => need (MoviMod.parse m) fun x => .movi h q imm x
  | 0x22 => need (SelMod.parse m) fun x => .sel h o x
  | 0x23 => need (zeroMod m) fun _ => .sread h o
  | 0x24 => need (RgnMod.parse m) fun x => .rgn h o x
  | 0x25 => need (zeroMod m) fun _ => .live h q imm
  | 0x26 => need (SetkMod.parse m) fun x => .setk h o x
  | 0x27 => if m == 0 then .ok (.quotaGive h o) else if m == 1 then .ok (.quotaTake h o) else .error .mod
  | 0x30 => need (AMod.parse m) fun x => .iadd h o x
  | 0x31 => need (AMod.parse m) fun x => .isub h o x
  | 0x32 => need (AMod.parse m) fun x => .imul h o x
  | 0x33 => need (AMod.parse m) fun x => .imulh h o x
  | 0x34 => need (AMod.parse m) fun x => .imad h o x
  | 0x35 => need (AMod.parse m) fun x => .imin h o x
  | 0x36 => need (AMod.parse m) fun x => .imax h o x
  | 0x37 => need (AMod.parse m) fun x => .iabs h o x
  | 0x38 => need (AMod.parse m) fun x => .lop3 h o x
  | 0x39 => need (AMod.parse m) fun x => .shl h o x
  | 0x3A => need (AMod.parse m) fun x => .shr h o x
  | 0x3B => need (AMod.parse m) fun x => .sar h o x
  | 0x3C => need (AMod.parse m) fun x => .rot h o x
  | 0x3D => need (AMod.parse m) fun x => .bfx h o x
  | 0x3E => need (AMod.parse m) fun x => .bfi h o x
  | 0x3F => need (AMod.parse m) fun x => .popc h o x
  | 0x40 => need (AMod.parse m) fun x => .clz h o x
  | 0x41 => need (AMod.parse m) fun x => .brev h o x
  | 0x42 => need (AMod.parse m) fun x => .icmp h o x
  | 0x43 => need (AMod.parse m) fun x => .lea h o x
  | 0x44 => need (AMod.parse m) fun x => .idiv h o x
  | 0x45 => need (AMod.parse m) fun x => .cvti h o x
  | 0x50 => need (AMod.parse m) fun x => .fadd h o x
  | 0x51 => need (AMod.parse m) fun x => .fmul h o x
  | 0x52 => need (AMod.parse m) fun x => .ffma h o x
  | 0x53 => need (AMod.parse m) fun x => .fmin h o x
  | 0x54 => need (AMod.parse m) fun x => .fmax h o x
  | 0x55 => need (AMod.parse m) fun x => .fcmp h o x
  | 0x56 => need (AMod.parse m) fun x => .fclass h o x
  | 0x57 => need (AMod.parse m) fun x => .frnd h o x
  | 0x58 => need (AMod.parse m) fun x => .frcp h o x
  | 0x59 => need (AMod.parse m) fun x => .fsqrt h o x
  | 0x5A => need (AMod.parse m) fun x => .frsq h o x
  | 0x5B => need (AMod.parse m) fun x => .fex2 h o x
  | 0x5C => need (AMod.parse m) fun x => .flg2 h o x
  | 0x5D => need (AMod.parse m) fun x => .fsin h o x
  | 0x5E => need (AMod.parse m) fun x => .fcos h o x
  | 0x5F => need (AMod.parse m) fun x => .fdiv h o x
  | 0x60 => need (AMod.parse m) fun x => .ftanh h o x
  | 0x61 => need (AMod.parse m) fun x => .fdot h o x
  | 0x62 => need (AMod.parse m) fun x => .fscale h o x
  | 0x68 => need (AMod.parse m) fun x => .cvtf h o x
  | 0x69 => need (AMod.parse m) fun x => .pack h o x
  | 0x6A => need (AMod.parse m) fun x => .unpack h o x
  | 0x6B => need (AMod.parse m) fun x => .deq h o x
  | 0x6C => need (AMod.parse m) fun x => .qblk h o x
  | 0x70 => need (AMod.parse m) fun x => .ivmake h o x
  | 0x71 => need (AMod.parse m) fun x => .ivbnd h o x
  | 0x72 => need (AMod.parse m) fun x => .ivadd h o x
  | 0x73 => need (AMod.parse m) fun x => .ivsub h o x
  | 0x74 => need (AMod.parse m) fun x => .ivmul h o x
  | 0x75 => need (AMod.parse m) fun x => .ivdiv h o x
  | 0x76 => need (AMod.parse m) fun x => .ivfma h o x
  | 0x77 => need (AMod.parse m) fun x => .ivsqr h o x
  | 0x78 => need (AMod.parse m) fun x => .ivsqrt h o x
  | 0x79 => need (AMod.parse m) fun x => .ivex2 h o x
  | 0x7A => need (AMod.parse m) fun x => .ivlg2 h o x
  | 0x7B => need (AMod.parse m) fun x => .ivmid h o x
  | 0x7C => need (AMod.parse m) fun x => .ivwid h o x
  | 0x7D => need (AMod.parse m) fun x => .ivhull h o x
  | 0x7E => need (AMod.parse m) fun x => .ivisect h o x
  | 0x7F => need (AMod.parse m) fun x => .ivcmp h o x
  | 0x80 => need (AMod.parse m) fun x => .ivbisect h o x
  | 0x81 => need (AMod.parse m) fun x => .ivld h q imm x
  | 0x82 => need (AMod.parse m) fun x => .ivst h q imm x
  | 0x90 => need (LMod.parse m) fun x => .ldl h q imm x
  | 0x91 => need (LMod.parse m) fun x => .stl h q imm x
  | 0x92 => need (AtMod.parse m) fun x => .atoml h o x
  | 0x93 => need (LMod.parse m) fun x => .ldb h q imm x
  | 0x94 => need (LMod.parse m) fun x => .stb h q imm x
  | 0x95 => need (zeroMod m) fun _ => .spush h o
  | 0x96 => need (zeroMod m) fun _ => .spop h o
  | 0xA0 => need (GMod.parse m) fun x => .ld h q imm x
  | 0xA1 => need (GMod.parse m) fun x => .st h q imm x
  | 0xA2 => need (AtMod.parse m) fun x => .atom h o x
  | 0xA3 => need (AtMod.parse m) fun x => .red h o x
  | 0xA4 => need (AtMod.parse m) fun x => .cas h o x
  | 0xA5 => need (GMod.parse m) fun x => .ldsc h q imm x
  | 0xA6 => need (GMod.parse m) fun x => .stsc h q imm x
  | 0xA7 => need (zeroMod m) fun _ => .cflush h o
  | 0xA8 => need (zeroMod m) fun _ => .cinv h o
  | 0xA9 => need (PrefMod.parse m) fun x => .pref h o x
  | 0xB0 => need (BindMod.parse m) fun x => .bind h o x
  | 0xB1 => need (SyMod.parse m) fun x => .acq h o x
  | 0xB2 => need (SyMod.parse m) fun x => .rel h o x
  | 0xB3 => need (FenceMod.parse m) fun x => .fence h o x
  | 0xB4 => need (zeroMod m) fun _ => .ocwait h o
  | 0xB5 => need (zeroMod m) fun _ => .rvinit h o
  | 0xB6 => need (zeroMod m) fun _ => .rvarr h o
  | 0xB7 => need (zeroMod m) fun _ => .rvwait h o
  | 0xB8 => need (zeroMod m) fun _ => .mbinit h o
  | 0xB9 => need (SyMod.parse m) fun x => .mbarr h o x
  | 0xBA => need (zeroMod m) fun _ => .mbwait h o
  | 0xC0 => need (zeroMod m) fun _ => .hwait h o
  | 0xC1 => need (zeroMod m) fun _ => .htest h o
  | 0xC2 => need (zeroMod m) fun _ => .hcancel h o
  | 0xC3 => need (zeroMod m) fun _ => .hstat h o
  | 0xC4 => need (zeroMod m) fun _ => .hmov h o
  | 0xC5 => need (TspMod.parse m) fun x => .tspawn h o x
  | 0xC6 => need (zeroMod m) fun _ => .targ h o
  | 0xC7 => need (DlMod.parse m) fun x => .dlaunch h o x
  | 0xD0 => need (CpMod.parse m) fun x => .copy h o x
  | 0xD1 => need (CpMod.parse m) fun x => .copyx h o x
  | 0xD2 => need (MmMod.parse m) fun x => .mma h o x
  | 0xD3 => need (MmMod.parse m) fun x => .mmas h o x
  | 0xD4 => need (MzMod.parse m) fun x => .mzero h o x
  | 0xD5 => need (zeroMod m) fun _ => .cfgload h o
  | 0xD6 => if m.extractLsb' 4 6 != 0 then .error .mod else if bit m 3 then .ok (.cfgrunRes h o ⟨m.extractLsb' 0 3⟩) else .ok (.cfgrun h o ⟨m.extractLsb' 0 3⟩)
  | 0xD7 => if m.extractLsb' 3 7 != 0 then .error .mod else .ok (.cfgdrain h o ⟨m.extractLsb' 0 3⟩)
  | 0xD8 => need (zeroMod m) fun _ => .cfgevict h o
  | 0xD9 => need (zeroMod m) fun _ => .rblk h o
  | 0xE0 => need (zeroMod m) fun _ => .srreg h q imm
  | 0xE1 => need (zeroMod m) fun _ => .swreg h q imm
  | 0xE2 => need (zeroMod m) fun _ => .frec h o
  | 0xE3 => need (zeroMod m) fun _ => .icinv h o
  | _ => .error .opcode

/-- The instruction of a word, or why it is none. -/
def decode (w : InstrWord) : Except Reject Instr :=
  match Hdr.parse w with
  | .error e => .error e
  | .ok h =>
    match parseWord w h with
    | .error e => .error e
    | .ok i => if i.legal then .ok i else .error .value

/-! ### The encoder -/

/-- The word of an instruction (R15, R16, R28, R29); 0, which is illegal (R32), for an event. -/
def encode : Instr → InstrWord
  | .nop h o => encR 0x01 h o 0#10
  | .bra h o t u => encJ 0x02 h o t u
  | .btri h o t u => encJ 0x03 h o t u
  | .brx h o => encR 0x04 h o 0#10
  | .call h o t u => encJ 0x05 h o t u
  | .ret h o => encR 0x06 h o 0#10
  | .join h o => encR 0x07 h o 0#10
  | .exit h o => encR 0x08 h o 0#10
  | .yield h o => encR 0x09 h o 0#10
  | .trap h o imm => encI 0x0A h o imm 0#10
  | .tretRetry h o => encR 0x0B h o 0#10
  | .tretSkip h o => encR 0x0B h o 1#10
  | .tretKill h o => encR 0x0B h o 2#10
  | .bpt h o => encR 0x0C h o 0#10
  | .loopd h o t u => encJ 0x0D h o t u
  | .shfl h o m => encR 0x10 h o m.bits
  | .vote h o m => encR 0x11 h o m.bits
  | .redux h o m => encR 0x12 h o m.bits
  | .fredux h o m => encR 0x13 h o m.bits
  | .matchOp h o m => encR 0x14 h o m.bits
  | .plop h o m => encR 0x15 h o m.bits
  | .pset h o m => encR 0x16 h o m.bits
  | .pmov h o m => encR 0x17 h o m.bits
  | .pcount h o m => encR 0x18 h o m.bits
  | .mov h o m => encR 0x20 h o m.bits
  | .movi h o imm m => encI 0x21 h o imm m.bits
  | .sel h o m => encR 0x22 h o m.bits
  | .sread h o => encR 0x23 h o 0#10
  | .rgn h o m => encR 0x24 h o m.bits
  | .live h o imm => encI 0x25 h o imm 0#10
  | .setk h o m => encR 0x26 h o m.bits
  | .quotaGive h o => encR 0x27 h o 0#10
  | .quotaTake h o => encR 0x27 h o 1#10
  | .iadd h o m => encR 0x30 h o m.bits
  | .isub h o m => encR 0x31 h o m.bits
  | .imul h o m => encR 0x32 h o m.bits
  | .imulh h o m => encR 0x33 h o m.bits
  | .imad h o m => encR 0x34 h o m.bits
  | .imin h o m => encR 0x35 h o m.bits
  | .imax h o m => encR 0x36 h o m.bits
  | .iabs h o m => encR 0x37 h o m.bits
  | .lop3 h o m => encR 0x38 h o m.bits
  | .shl h o m => encR 0x39 h o m.bits
  | .shr h o m => encR 0x3A h o m.bits
  | .sar h o m => encR 0x3B h o m.bits
  | .rot h o m => encR 0x3C h o m.bits
  | .bfx h o m => encR 0x3D h o m.bits
  | .bfi h o m => encR 0x3E h o m.bits
  | .popc h o m => encR 0x3F h o m.bits
  | .clz h o m => encR 0x40 h o m.bits
  | .brev h o m => encR 0x41 h o m.bits
  | .icmp h o m => encR 0x42 h o m.bits
  | .lea h o m => encR 0x43 h o m.bits
  | .idiv h o m => encR 0x44 h o m.bits
  | .cvti h o m => encR 0x45 h o m.bits
  | .fadd h o m => encR 0x50 h o m.bits
  | .fmul h o m => encR 0x51 h o m.bits
  | .ffma h o m => encR 0x52 h o m.bits
  | .fmin h o m => encR 0x53 h o m.bits
  | .fmax h o m => encR 0x54 h o m.bits
  | .fcmp h o m => encR 0x55 h o m.bits
  | .fclass h o m => encR 0x56 h o m.bits
  | .frnd h o m => encR 0x57 h o m.bits
  | .frcp h o m => encR 0x58 h o m.bits
  | .fsqrt h o m => encR 0x59 h o m.bits
  | .frsq h o m => encR 0x5A h o m.bits
  | .fex2 h o m => encR 0x5B h o m.bits
  | .flg2 h o m => encR 0x5C h o m.bits
  | .fsin h o m => encR 0x5D h o m.bits
  | .fcos h o m => encR 0x5E h o m.bits
  | .fdiv h o m => encR 0x5F h o m.bits
  | .ftanh h o m => encR 0x60 h o m.bits
  | .fdot h o m => encR 0x61 h o m.bits
  | .fscale h o m => encR 0x62 h o m.bits
  | .cvtf h o m => encR 0x68 h o m.bits
  | .pack h o m => encR 0x69 h o m.bits
  | .unpack h o m => encR 0x6A h o m.bits
  | .deq h o m => encR 0x6B h o m.bits
  | .qblk h o m => encR 0x6C h o m.bits
  | .ivmake h o m => encR 0x70 h o m.bits
  | .ivbnd h o m => encR 0x71 h o m.bits
  | .ivadd h o m => encR 0x72 h o m.bits
  | .ivsub h o m => encR 0x73 h o m.bits
  | .ivmul h o m => encR 0x74 h o m.bits
  | .ivdiv h o m => encR 0x75 h o m.bits
  | .ivfma h o m => encR 0x76 h o m.bits
  | .ivsqr h o m => encR 0x77 h o m.bits
  | .ivsqrt h o m => encR 0x78 h o m.bits
  | .ivex2 h o m => encR 0x79 h o m.bits
  | .ivlg2 h o m => encR 0x7A h o m.bits
  | .ivmid h o m => encR 0x7B h o m.bits
  | .ivwid h o m => encR 0x7C h o m.bits
  | .ivhull h o m => encR 0x7D h o m.bits
  | .ivisect h o m => encR 0x7E h o m.bits
  | .ivcmp h o m => encR 0x7F h o m.bits
  | .ivbisect h o m => encR 0x80 h o m.bits
  | .ivld h o imm m => encI 0x81 h o imm m.bits
  | .ivst h o imm m => encI 0x82 h o imm m.bits
  | .ldl h o imm m => encI 0x90 h o imm m.bits
  | .stl h o imm m => encI 0x91 h o imm m.bits
  | .atoml h o m => encR 0x92 h o m.bits
  | .ldb h o imm m => encI 0x93 h o imm m.bits
  | .stb h o imm m => encI 0x94 h o imm m.bits
  | .spush h o => encR 0x95 h o 0#10
  | .spop h o => encR 0x96 h o 0#10
  | .ld h o imm m => encI 0xA0 h o imm m.bits
  | .st h o imm m => encI 0xA1 h o imm m.bits
  | .atom h o m => encR 0xA2 h o m.bits
  | .red h o m => encR 0xA3 h o m.bits
  | .cas h o m => encR 0xA4 h o m.bits
  | .ldsc h o imm m => encI 0xA5 h o imm m.bits
  | .stsc h o imm m => encI 0xA6 h o imm m.bits
  | .cflush h o => encR 0xA7 h o 0#10
  | .cinv h o => encR 0xA8 h o 0#10
  | .pref h o m => encR 0xA9 h o m.bits
  | .bind h o m => encR 0xB0 h o m.bits
  | .acq h o m => encR 0xB1 h o m.bits
  | .rel h o m => encR 0xB2 h o m.bits
  | .fence h o m => encR 0xB3 h o m.bits
  | .ocwait h o => encR 0xB4 h o 0#10
  | .rvinit h o => encR 0xB5 h o 0#10
  | .rvarr h o => encR 0xB6 h o 0#10
  | .rvwait h o => encR 0xB7 h o 0#10
  | .mbinit h o => encR 0xB8 h o 0#10
  | .mbarr h o m => encR 0xB9 h o m.bits
  | .mbwait h o => encR 0xBA h o 0#10
  | .hwait h o => encR 0xC0 h o 0#10
  | .htest h o => encR 0xC1 h o 0#10
  | .hcancel h o => encR 0xC2 h o 0#10
  | .hstat h o => encR 0xC3 h o 0#10
  | .hmov h o => encR 0xC4 h o 0#10
  | .tspawn h o m => encR 0xC5 h o m.bits
  | .targ h o => encR 0xC6 h o 0#10
  | .dlaunch h o m => encR 0xC7 h o m.bits
  | .copy h o m => encR 0xD0 h o m.bits
  | .copyx h o m => encR 0xD1 h o m.bits
  | .mma h o m => encR 0xD2 h o m.bits
  | .mmas h o m => encR 0xD3 h o m.bits
  | .mzero h o m => encR 0xD4 h o m.bits
  | .cfgload h o => encR 0xD5 h o 0#10
  | .cfgrun h o m => encR 0xD6 h o (0#7 ++ m.slot)
  | .cfgrunRes h o m => encR 0xD6 h o (0#6 ++ 1#1 ++ m.slot)
  | .cfgdrain h o m => encR 0xD7 h o (0#7 ++ m.slot)
  | .cfgevict h o => encR 0xD8 h o 0#10
  | .rblk h o => encR 0xD9 h o 0#10
  | .srreg h o imm => encI 0xE0 h o imm 0#10
  | .swreg h o imm => encI 0xE1 h o imm 0#10
  | .frec h o => encR 0xE2 h o 0#10
  | .icinv h o => encR 0xE3 h o 0#10
  | .frtailWrite _ _ => 0
  | .covsizeWrite _ _ => 0
  | .detctlWrite _ _ => 0
  | .feataccWrite _ _ _ => 0
  | .peerWindowWrite _ _ _ => 0
  | .watchdog _ _ _ => 0
  | .recordRelaunch _ => 0
  | .loadDataArrival _ _ _ => 0
  | .storePerformed _ _ _ => 0
  | .flushComplete _ _ => 0
  | .apertureWriteAck _ _ => 0
  | .thimbleVisit => 0
  | .issueQuantumEnd _ _ => 0
  | .serialPhase _ => 0
  | .waveForm _ => 0
  | .gangPlace => 0
  | .quireRetire _ _ => 0
  | .gridRetire _ _ => 0
  | .deviceQueueTake _ _ => 0
  | .hostDoorbell _ _ _ _ => 0
  | .serialQueueRetire _ _ => 0
  | .pageFillComplete _ _ => 0
  | .channelPeriod _ _ => 0
  | .refreshDue _ _ _ => 0
  | .copyChunk _ _ => 0
  | .copyComplete _ _ => 0
  | .tileStep _ _ => 0
  | .mzeroExecute _ => 0
  | .cfgloadPerform _ => 0
  | .cfgrunEnqueue _ => 0
  | .cfgdrainPerform _ => 0
  | .cfgevictPerform _ => 0
  | .installRun _ _ => 0
  | .tileFire _ _ _ _ => 0
  | .mBufferAccept _ _ _ _ _ => 0
  | .mBufferEmit _ _ _ _ _ => 0
  | .portReadIssue _ _ _ _ => 0
  | .portReadReturn _ _ _ _ => 0
  | .portWrite _ _ _ _ => 0
  | .portWriteAck _ _ _ _ => 0
  | .contextStep _ _ => 0
  | .runComplete _ _ => 0
  | .freezeEnd _ _ => 0
  | .drainSave _ _ => 0
  | .drainDone _ _ => 0
  | .drainTimeout _ _ => 0
  | .rblkMessage _ => 0
  | .rblkAbort _ _ _ => 0
  | .peerRequest _ => 0
  | .hostBar2Access _ _ => 0
  | .ctxDefine _ _ => 0
  | .ctxUndefine _ _ => 0
  | .ctxActivate _ _ => 0
  | .ctxPreempt _ _ => 0
  | .ctxKill _ _ => 0
  | .ctxwrite _ _ _ _ => 0
  | .qset _ _ _ _ _ _ _ => 0
  | .inval _ _ _ _ => 0
  | .unmap _ _ _ _ _ => 0
  | .budget _ _ _ _ => 0
  | .partset _ _ _ _ => 0
  | .grpset _ _ _ _ _ => 0
  | .fnset _ _ _ _ _ => 0
  | .lifecycle _ _ _ _ => 0
  | .attest _ _ _ _ => 0
  | .deviceReset _ _ => 0
  | .powerLimit _ => 0
  | .allBankRefreshEnd _ _ => 0
  | .cfgloadGranule _ => 0

/-! ### Bytes of a slot (R10) -/

/-- The word of the 12 bytes of a slot, byte 0 lowest (R10). -/
def wordOfBytes (bs : List Byte) : InstrWord :=
  BitVec.ofNat 96 ((bs.take 12).foldr (fun b acc => b.toNat + 256 * acc) 0)

/-- The 12 bytes of a word (R10). -/
def bytesOfWord (w : InstrWord) : List Byte :=
  (List.range 12).map fun j => w.extractLsb' (8 * j) 8

/-- The decoder on any bytes: twelve of them are a word, and the rest is handed back; fewer are none. -/
def decodeBytes (bs : List Byte) : Except Reject (Instr × List Byte) :=
  if bs.length < 12 then .error .opcode
  else match decode (wordOfBytes bs) with
    | .ok i => .ok (i, bs.drop 12)
    | .error e => .error e

/-- The instruction the decoder reads from a word whose bits are w, as the opcode table numbers them; the bits
above nbits are 0. The bytes go through the layout of R10. -/
def decodeTableWord (nbits w : Nat) : Option Instr :=
  match decodeBytes (bytesOfWord (BitVec.ofNat 96 (w % 2 ^ nbits))) with
  | .ok (i, _) => some i
  | .error _ => none

end Sys2Proof
end

