-- ==== Sys2Proof/Config.lean ====
section
/-!
DEFINITION. Config.lean: what the manual leaves open (R8) as opaque constants without a body, and the
constants every part carries. Nothing can be proved of the value of an opaque constant.
-/
namespace Sys2Proof.Config

/-- An unspecified 64-bit value (R8), drawn by a counter of the state; log entry 3. -/
opaque freeWord : Nat → Word64
/-- An unspecified byte (R8), drawn by a counter of the state; log entry 3. -/
opaque freeByte : Nat → Byte
/-- The value an implementation returns for an approximate function (R190), before the manual's bound is
applied: the function's code (0 FRSQ, 1 FEX2, 2 FLG2, 3 FSIN, 4 FCOS, 5 FTANH) and the FP32 operand. -/
opaque approx32 : Nat → BitVec 32 → BitVec 32
/-- Whether IVEX2 (0) or IVLG2 (1) returns a bound one ulp outside the tightest one (R211): the function, the operand's
image, and true for the upper bound. -/
opaque looseBound : Nat → BitVec 64 → Bool → Bool
/-- A bound of ABS of an interval one of whose bounds is a NaN (R22 states none): the bounds' codes, true for the upper. -/
opaque nanBound : Nat → Nat → Bool → Nat
/-- SHA-384 (R438, R439), named by the manual and defined outside it. -/
opaque sha384 : List Byte → BitVec 384
/-- Ed25519 verification (R438): the key, the message, the signature. -/
opaque ed25519Ok : List Byte → List Byte → List Byte → Bool
/-- ML-DSA-65 verification (R438): the key, the message, the signature. -/
opaque mldsa65Ok : List Byte → List Byte → List Byte → Bool
/-- The Ed25519 signature of a report under the device's key (R439). -/
opaque ed25519Sign : List Byte → List Byte
/-- The ML-DSA-65 signature of a report under the device's key (R439). -/
opaque mldsa65Sign : List Byte → List Byte
/-- The device identifier of an attestation report (R439); the manual gives no width. -/
opaque deviceId : Nat → List Byte
/-- The public keys fused for a life-cycle state (R438): the state's number, false Ed25519, true ML-DSA-65. -/
opaque fusedKey : Nat → Bool → List Byte
/-- The device number of this device in its Falueber domain, 0 to 255 (R435). -/
opaque deviceNumber : Nat → Nat
/-- An image carries an authorisation signed for RMA (R440); the manual gives no layout of it. -/
opaque rmaAuthorised : List Byte → Bool
/-- Cycles by which the count of a service core advances (R4): by step and service core. -/
opaque serviceCycles : Nat → Nat → Word64
/-- FEATDEV0 of the C6 (R423). -/
def featdev0 : Word64 := 0x7FF
/-- Cores of the device (R1). -/
def nCores : Nat := 192
/-- Cores of a cluster (R1). -/
def coresPerCluster : Nat := 12
/-- Stacks of the device (R1). -/
def nStacks : Nat := 12
/-- Service cores (R4, R437). -/
def nServiceCores : Nat := 12

end Sys2Proof.Config
end

