-- ==== Sys2Proof/Machine/State.lean ====
section
/-!
DEFINITION. Machine/State.lean: everything the manual gives the machine, as plain data, and the machine after reset
(R440). Sparse tables (`AMap`, `Mem`) list only what differs from the value a docstring names.
-/
namespace Sys2Proof.Machine

/-- Bytes by address, in canonical form (`Mem.wf`, Ops.lean): addresses rising, no byte that equals 0. -/
abbrev Mem := List Host.Cell

/-! ### Where an access goes -/

/-- Where the bytes of a translated address lie (R248, R249, R430, R435): in HBM (the stack-local physical address),
in host memory (a bus address of a function), at a peer device (device, context, virtual address). -/
inductive Place where
  | hbm (pa : Nat)
  | host (bus : Nat)
  | peer (dev ctx va : Nat)
  deriving DecidableEq, Repr

/-- A v or t register as a resolved destination, or none (R138, R151). -/
inductive Dest where
  | none
  | v (n : Nat)
  | t (n : Nat)
  deriving DecidableEq, Repr

/-- What is done to the bytes of one lane's access. -/
inductive MemOp where
  /-- a plain load, LDSC, or the read of an engine -/
  | read
  /-- a plain store or STSC -/
  | write (bytes : List Byte)
  /-- ATOM, RED (R236): operation code, signed, B -/
  | rmw (opc : Nat) (signed : Bool) (b : Word64)
  /-- CAS: compare, new -/
  | cas (b c : Word64)
  deriving DecidableEq, Repr

/-- One lane's access to global memory (R264, R266, R291). `got` is the value returned so far. -/
structure Access where
  lane : Nat
  va : Nat
  place : Place
  size : Nat
  op : MemOp
  got : Option Nat
  deriving DecidableEq, Repr

/-! ### Paths and records -/

/-- What a handler is told of a fault (R415, t0 to t5). -/
structure TrapInfo where
  cause : Nat
  resume : Word64
  t2 : Word64
  word : InstrWord
  active : Mask
  failing : Mask
  deriving DecidableEq, Repr

/-- A path-stack entry (R96). Entries are named by `id`; `nest` of a deferred entry is the id of its join entry.
`parent` is the enclosing nest of the merged path, `orig` the lanes at the split, `byHandler` whether a handler
opened the nest (R416). -/
structure StackEntry where
  id : Nat
  join : Bool
  nest : Nat
  mask : Mask
  orig : Mask
  pc : Word64
  count : Nat
  pidx : Nat
  parent : Option Nat
  byHandler : Bool
  deriving DecidableEq, Repr

/-- A fault that an instruction raises: its cause, t2 (R415), the failing lanes when they are not the active ones. -/
structure Trap where
  cause : Nat
  t2 : Word64
  failing : Option Mask
  deriving DecidableEq, Repr

/-- A synchronising operation as it was issued (R84, R473): its word, and the registers that it reads. -/
structure HeldOp where
  word : InstrWord
  B : Nat
  v : AMap Row
  s : Vector Word64 64
  p : Vector PredRow 8
  k : Vector (Nat × Nat) 4
  h : Vector Word64 16
  deriving DecidableEq, Repr

/-- A running path that is resident on a port (R93, R94, R416). -/
structure Path where
  idx : Nat
  mask : Mask
  pc : Word64
  /-- the innermost open nest (R97) -/
  nest : Option Nat
  /-- relaunch sequence number (R80) -/
  rseq : Nat
  /-- choices in a row that passed this path over (R81) -/
  passes : Nat
  /-- the path runs a trap handler (R415) -/
  handler : Bool
  /-- the port it is resident on -/
  port : Nat
  /-- what its next instruction raises (R142) -/
  fault : Option Trap
  /-- its instruction waits for room in an engine's queue or in the outstanding counter (R289, R298, R320) -/
  stalled : Bool
  /-- the retired instruction (word, active lanes, next PC) after which WATCHDOG is due (R89) -/
  wdog : Option (InstrWord × Mask × Word64)
  /-- deterministic mode: a synchronising operation waits here for the serial phase (R84, R86) -/
  held : Bool
  /-- that operation -/
  op : Option HeldOp := none
  deriving DecidableEq, Repr

/-- A task record (R159). `parked` is the mark of R165; `asked`: its core has read its entry and waits for the page. -/
structure Task where
  entry : Nat
  flags : Nat
  origin : Nat
  core : Nat
  grid : Nat
  payload : List Word64
  parked : Bool
  asked : Bool := false
  deriving DecidableEq, Repr

/-- What the device completes on behalf of a parted path (R140). -/
inductive Wait where
  | none
  | load (dest : Dest) (field : BitVec 16) (sx interval pair sc : Bool) (acc : List Access)
  | scStore (left : Nat)
  /-- cells by virtual address -/
  | acq (cell : Nat) (sy : Bool)
  | relOc (cell uid : Nat) (sy : Bool)
  | fence (uid : Nat) (sy : Bool)
  | membar (cell gen : Nat)
  /-- deterministic mode: an ACQ whose clasp was broken; it relaunches in the serial phase carrying CLASP (R86, R278) -/
  | broken
  | push (entry : Row)
  | pop (dest : Dest)
  | take (n : Nat)
  | spawn (ts : List Task)
  | launch (serial : Nat)
  | trap (t : TrapInfo)
  deriving DecidableEq, Repr

/-- A continuation record (R140, R150). `seen` is the tick in which it became READY. -/
structure Record where
  slot : Nat
  pidx : Nat
  mask : Mask
  nest : Option Nat
  handler : Bool
  reason : Nat
  evkey : Word64
  evaux : Word64
  ready : Bool
  seen : Nat
  readyord : Nat
  fault : Nat
  resume : Word64
  /-- the parting instruction, at which a record that carries a fault relaunches (R142) -/
  pc : Word64
  lb : Nat
  budget : Nat
  core : Nat
  port : Nat
  pseq : Nat
  rseq : Nat
  iret : Word64
  wait : Wait
  /-- order of parting over the device: the order in which waiters reach a cell (R277) -/
  born : Nat
  /-- the header's slot in the continuation overflow area (R144), when it spilled -/
  spill : Option Nat
  /-- the path waited for the serial phase when it was pre-empted (R84, R422), with its operation (R473) -/
  held : Bool
  op : Option HeldOp := none
  /-- active lanes of the parting instruction -/
  act : Mask := 0
  /-- least PSEQ among the arms of the signature that became READY with this one (R146) -/
  first : Nat := pseq
  /-- READY, and the port that R416 names had no free residency (R82) -/
  barred : Bool := false
  /-- the fault that the next instruction raises, where the header's fields do not hold it whole (R91, R142) -/
  carried : Option Trap := none
  /-- accesses of a synchronising operation that waits in the core's round state (R473) -/
  late : List Access := []
  /-- deterministic mode: the event sequence number at which the wait's event occurred (R86) -/
  due : Option Nat := none
  /-- registers written since the parting, with the lanes (R126) -/
  kept : List (Nat × Mask) := []
  /-- the spilled header stands in the overflow area (R144, R150) -/
  inMem : Bool := false
  deriving DecidableEq, Repr

/-! ### Signatures, quires, cores -/

/-- A signature slot (R67, R121). A v register or t register that is not listed is 0 in every lane. -/
structure Sig where
  /-- names the signature over its life, for the clasps it holds (R277) -/
  uid : Nat
  /-- the signature's current relaunch sequence number (R80) -/
  rseq : Nat
  ctx : Nat
  grid : Nat
  /-- placement key of the quire at the core; none for a task wave (R166) -/
  quire : Option Nat
  /-- linear index of the quire (R61) -/
  qix : Nat
  sigix : Nat
  role : Nat
  /-- order of forming among the core's waves (R86) -/
  wave : Nat
  /-- the core on which it was formed, whose place in the serial order it keeps where a restore puts it on another core
  (R86, R88; log entry 57) -/
  home : Nat
  B : Nat
  LB : Nat
  v : AMap Row
  s : Vector Word64 64
  p : Vector PredRow 8
  k : Vector (Nat × Nat) 4
  h : Vector Word64 16
  stack : List StackEntry
  nextNest : Nat
  paths : List Path
  iret : Word64
  wdog : Nat
  /-- task headers by lane (R164, R167): the 16 bytes as two words -/
  tasks : AMap (Word64 × Word64)
  /-- instructions retired in the round, and whether the round has ended (R84) -/
  quantum : Nat
  ended : Bool
  deriving DecidableEq, Repr

/-- A rendezvous point (R281). -/
structure RvPoint where
  phase : Nat
  expect : Nat
  arr : Nat
  expb : Nat
  deliv : Nat
  poison : Nat
  deriving DecidableEq, Repr

/-- The byte reservations of a quire in LM, W-, A- and C-buffer (R64, R225). -/
structure Locals where
  lm : Nat
  wb : Nat
  ab : Nat
  cb : Nat
  deriving DecidableEq, Repr

/-- A placed quire (R68, R73). -/
structure Quire where
  grid : Nat
  ix : Nat
  gang : Nat
  pos : Nat
  gsize : Nat
  /-- first core of the gang -/
  first : Nat
  base : Locals
  size : Locals
  /-- signature-registers reserved (R68) -/
  regs : Nat
  slots : List Nat
  points : List RvPoint
  spare : Nat
  /-- incoming stream FIFOs by sending position, oldest entry first (R238) -/
  fifos : AMap (List Row)
  killed : Bool
  /-- chosen for eviction, which waits for the data of its loads (R75, R150) -/
  leaving : Bool := false
  deriving DecidableEq, Repr

/-- An issue port (R67, R128, R415, R413 group 4). -/
structure Port where
  t : AMap Row
  /-- slot and path index of the path that runs the port's handler -/
  handler : Option (Nat × Nat)
  /-- the last choice of the rotation in deterministic mode (R87): quire index, signature index, path index -/
  turn : Nat × Nat × Nat
  fmtErr : Word64
  deriving DecidableEq, Repr

/-- A global write or update of a core that is not yet performed at its home slice, or, `posted`, a write to the host
that is performed and not yet acknowledged (R270, R289). `mask` holds the lanes whose program order it stands in, `count`
what it adds to the outstanding counter, `born` the instruction, `waiter` the PSEQ of the record that its old value goes
to, `after` own SC operations on the same bytes that come first (R264). -/
structure PendW where
  grid : Nat
  /-- of the issuing signature -/
  uid : Nat
  mask : Mask
  acc : Access
  count : Nat
  posted : Bool
  born : Nat
  waiter : Option Nat
  after : List Nat
  /-- a write of IVST (R221) -/
  iv : Bool := false
  deriving DecidableEq, Repr

/-- A CFLUSH or CINV in progress (R267): the range of virtual lines. -/
structure Flush where
  ctx : Nat
  grid : Nat
  inv : Bool
  va : Nat
  len : Nat
  /-- bursts of its writebacks that have been issued (R259, R260) -/
  paid : AMap Nat := []
  deriving DecidableEq, Repr

/-- The local spaces of a core (R224), as bytes of the core. -/
structure Spaces where
  lm : Mem
  wb : Mem
  ab : Mem
  cb : Mem
  deriving DecidableEq, Repr

/-- A core (R3, R67). `ringHead` and `ringLen` place the tasks in the core's ring of the overflow area (R162). -/
structure Core where
  ctx : Option Nat
  cycles : Word64
  quires : AMap Quire
  sigs : AMap Sig
  ports : Vector Port 4
  mem : Spaces
  records : List Record
  pseq : Nat
  rseq : Nat
  nextKey : Nat
  waves : Nat
  pool : List Task
  ringHead : Nat
  ringLen : Nat
  outst : Nat
  pend : List PendW
  flushes : List Flush
  /-- the core whose task pool and waves a restore has brought here (R422), if another -/
  home : Option Nat
  deriving DecidableEq, Repr

/-! ### Grids, queues, contexts -/

/-- A role entry (R65). -/
structure Role where
  entry : Nat
  regs : Nat
  sigs : Nat
  deriving DecidableEq, Repr

/-- A launch block (R64). -/
structure Launch where
  prio : Nat
  det : Bool
  depth : Nat
  gang : Nat
  rvpoints : Nat
  x : Nat
  y : Nat
  z : Nat
  size : Locals
  param : Nat
  tasktab : Nat
  done : Nat
  roles : List Role
  syncpg : List Nat
  deriving DecidableEq, Repr

/-- A live grid (R60 to R63). -/
structure Grid where
  id : Nat
  blk : Launch
  parent : Option Nat
  /-- SEQ of its handle of kind 0x5, for a child grid -/
  child : Option Nat
  /-- place of its DLAUNCH in the serial order (R86) -/
  dorder : List Nat
  /-- the host queue it came from -/
  hostq : Option Nat
  /-- order of launch over the device (R70) -/
  order : Nat
  /-- gangs placed so far: gangs start in order -/
  started : Nat
  quiresDone : Nat
  killed : Nat
  status : Nat
  cancelled : Bool
  /-- the queue that its block came from, as fault records name it (R419) -/
  queue : Nat := 0
  deriving DecidableEq, Repr

/-- A host queue (R433). -/
structure HostQ where
  ring : Nat
  entries : Nat
  serial : Bool
  head : Nat
  read : Nat
  tail : Nat
  /-- SERIAL: a block of the queue has been handed on and its grid has not retired -/
  busy : Bool
  deriving DecidableEq, Repr

/-- What the device keeps beside a block in a device queue: the launching grid, the SEQ of the child's handle if it has one. -/
structure QMeta where
  parent : Nat
  child : Option Nat
  /-- place of the DLAUNCH in the serial order (R86) -/
  order : List Nat
  /-- cancelled before it was taken (R158) -/
  dead : Bool
  deriving DecidableEq, Repr

/-- A device queue (R168): blocks stand in memory, in the queue from number `head` on (`len` of them) and in the
overflow from number `ohead` on (`olen`). -/
structure DevQ where
  head : Nat
  len : Nat
  ohead : Nat
  olen : Nat
  info : List QMeta
  deriving DecidableEq, Repr

/-- A parted quire of an evicted or saved gang, whole (R76, R77): its signatures by slot, its records, the bytes of its
reservations from offset 0, its trap windows by record port. -/
structure StoredQuire where
  core : Nat
  /-- its placement key there -/
  key : Nat
  q : Quire
  sigs : AMap Sig
  records : List Record
  mem : Spaces
  windows : AMap (AMap Row)
  /-- address of the image of each record's header, by PSEQ, and whether it is physical -/
  imgs : AMap Nat
  phys : Bool
  deriving DecidableEq, Repr

/-- An evicted or saved gang (R76, R77, R421). -/
structure StoredGang where
  grid : Nat
  gang : Nat
  /-- its place in the swap area -/
  off : Nat
  bytes : Nat
  quires : List StoredQuire
  deriving DecidableEq, Repr

/-- States of a context (R408). -/
inductive CtxState where
  | undefined | defined | active | saving | saved | restoring | killing
  deriving DecidableEq, Repr

/-- A reduction group (R436). -/
structure RGroup where
  rank : Nat
  members : List (Nat × Nat)
  /-- operations issued on the group since its GRPSET -/
  issued : Nat
  /-- messages for operations not issued yet -/
  early : List RblkMsg
  deriving DecidableEq, Repr

/-- An RBLK operation (R436). `phase` 0 before the descriptor is read, 1 before the source is read, 2 and 4 the exchanges,
3 before the source is read again, 5 before the destination is written. -/
structure RblkOp where
  seq : Nat
  grid : Nat
  order : List Nat
  desc : Nat
  group : Nat
  k : Nat
  phase : Nat
  src : Nat
  dst : Nat
  nblk : Nat
  tag : Word64
  codes : List Nat
  mants : List Int
  /-- messages of phase 1 and 2 received, by rank -/
  got1 : AMap RblkMsg
  got2 : AMap RblkMsg
  /-- non-resident page it waits for -/
  page : Option Nat
  /-- cancelled; it takes effect at the end of the phase -/
  cancel : Bool := false
  /-- bursts of its phase that have been issued (R260) -/
  paid : AMap Nat := []
  deriving DecidableEq, Repr

/-- An event that takes effect in the serial phase (R86). -/
inductive DetEvent where
  | deliver (core key point bytes : Nat)
  | handle (kind unit seq : Nat) (code cause detail : Nat)
  /-- the push of a copy, of the quire with the key on the task's core, if it was issued in one -/
  | task (key : Option Nat) (t : Task)
  | notify (grid cell payload : Nat) (bytes : List Byte)
  deriving DecidableEq, Repr

/-! ### Engines -/

/-- A tensor descriptor as read (R303). -/
structure Desc where
  base : Nat
  sfmt : Nat
  ndim : Nat
  mx : Bool
  ulen : Nat
  scale : Nat
  super : Nat
  extent : List Nat
  stride : List Nat
  deriving DecidableEq, Repr

/-- A copy window as read (R304). -/
structure Window where
  start : List Nat
  box : List Nat
  dest : Nat
  dfmt : Nat
  transpose : Bool
  sat : Bool
  scl : Nat
  xform : Nat
  tscale : BitVec 32
  deriving DecidableEq, Repr

/-- State of an operation that a handle names (R156, R158). -/
structure HState where
  code : Nat
  cause : Nat
  detail : Nat
  deriving DecidableEq, Repr

/-- A copy operation in a queue of its cluster's copy engine (R298). -/
structure CopyOp where
  id : Nat
  /-- the UNIT of its handle -/
  unit : Nat
  core : Nat
  ctx : Nat
  grid : Nat
  quire : Option Nat
  seq : Nat
  expand : Bool
  sspace : Nat
  dspace : Nat
  ck : Nat
  a : Word64
  b : Word64
  c : Word64
  order : List Nat
  /-- descriptor, window and task record, once read (R305) -/
  plan : Option (Desc × Window)
  task : Option Task
  /-- bytes written: data, then block scales, then super-scales -/
  written : Nat
  /-- block scales and super-scales of the data written so far (R310) -/
  scales : List Nat
  supers : List Nat
  /-- non-resident page the operation is suspended on (R314) -/
  page : Option Nat
  cancel : Bool
  /-- its context or quire was killed: it ends at its boundary without a completion word (R316) -/
  dead : Bool := false
  /-- it has faulted or was cancelled, and its completion word is still to be written: status, end state (R314 to R316) -/
  ending : Option (Nat × HState) := none
  /-- bursts of its next chunk that have been issued, by stack × 64 + pseudo-channel (R260, R300) -/
  paid : AMap Nat := []
  /-- COPYX: compressed bytes that the operation has been charged for (R300) -/
  fetched : Nat := 0
  /-- a thread has stored to bytes that it reads or writes: what it still writes is undefined (R232) -/
  raced : Bool := false
  /-- the core that its quire is on: an operation between global places stays in its queue when the quire is evicted (R74) -/
  qcore : Nat := core
  deriving DecidableEq, Repr

/-- A matrix command kind (R327). -/
inductive MatKind where
  | mma | mmas | mzero
  deriving DecidableEq, Repr

/-- A command of a quire's matrix queue (R320). -/
structure MatOp where
  id : Nat
  /-- the UNIT of its handle -/
  unit : Nat
  kind : MatKind
  core : Nat
  ctx : Nat
  grid : Nat
  quire : Nat
  seq : Nat
  n : Nat
  acc : Bool
  g : Bool
  iv : Bool
  a : Word64
  b : Word64
  c : Word64
  order : List Nat
  desc : Option Desc
  step : Nat
  page : Option Nat
  cancel : Bool
  /-- bursts of its next step that have been issued (R260) -/
  paid : AMap Nat := []
  /-- a thread has stored to bytes that it reads or writes: what it still writes is undefined (R232) -/
  raced : Bool := false
  deriving DecidableEq, Repr

/-- The engines of a cluster: copy operations and matrix commands in issue order, the points of the round-robins
(R299, R321), format-error counters (R413). -/
structure Cluster where
  copies : List CopyOp
  copyTurn : Nat
  /-- last operation served in each core's queue -/
  copyLast : AMap Nat
  mats : List MatOp
  matTurn : Nat × Nat
  copyErr : Word64
  matErr : Word64
  nextId : Nat
  deriving DecidableEq, Repr

/-! ### Base-die arrays -/

/-- A token (R343). -/
inductive Token where
  | data (v : TokenVal)
  | null
  | fin
  deriving DecidableEq, Repr

/-- An image in the configuration cache (R366). -/
structure Image where
  ctx : Nat
  key : Nat
  bytes : List Byte
  granules : Nat
  pins : Nat
  deriving DecidableEq, Repr

/-- A link of an image: producer tile and output, branches (tile, input, hops) in image coordinates (R379). -/
structure Link where
  srow : Nat
  scol : Nat
  sport : Nat
  branches : List ((Nat × Nat) × (Nat × List Nat))
  deriving DecidableEq, Repr

/-- An access-pattern record with its context and parameter (R356, R381). -/
structure PortRec where
  row : Nat
  col : Nat
  ctx : Nat
  psel : Nat
  base : Nat
  count : List Nat
  stride : List Int
  write : Bool
  deriving DecidableEq, Repr

/-- An image taken apart (R375 to R382). -/
structure Config where
  nctx : Nat
  shape : Nat
  drain : Nat
  nparam : Nat
  check : Nat
  /-- row, col, kind, context words by context -/
  tiles : List ((Nat × Nat) × Nat × AMap (BitVec 128))
  links : List Link
  /-- row, col, register, context, value -/
  consts : List ((Nat × Nat) × Nat × Nat × TokenVal)
  /-- row, col, line, preload -/
  delays : List ((Nat × Nat) × Nat × List TokenVal)
  ports : List PortRec
  /-- WCTX, WPORT, RCTX, RPORT -/
  arcs : List (Nat × Nat × Nat × Nat)
  deriving DecidableEq, Repr

/-- State of a C tile in a run (R346): delay lines, accumulator, done signal; the held word of a quantiser or weight of a
cell, X; `count` 1 while a word is held, 2 once the data that an END brings out is emitted; the page that a NOTIFY waits
for (R370). -/
structure CTile where
  dl : List (List TokenVal)
  acc : TokenVal
  done : Bool
  held : Option TokenVal
  count : Nat
  x : Nat
  page : Option Nat
  deriving DecidableEq, Repr

/-- A buffer of an M tile (R354, R355): its full slots, oldest first, the slot written next, the place in a replay pass,
passes done, phase 0 fill (and FIFO), 1 read, 2 done. -/
structure MBuf where
  order : List Nat
  tail : Nat
  pos : Nat
  passes : Nat
  phase : Nat
  deriving DecidableEq, Repr

/-- An M tile: full slots by number (R354), four buffers, the order in which the slots were written. -/
structure MTile where
  slots : AMap Token
  bufs : List MBuf
  ages : AMap Nat := []
  clock : Nat := 0
  deriving DecidableEq, Repr

/-- An S tile in its context (R356 to R359). `pos` is the place in the walk, `flight` the words issued and not yet
returned or acknowledged (places in HBM), `held` words that a restore brought back. -/
structure STile where
  active : Bool
  base : Nat
  pos : Nat
  done : Bool
  waiting : Option Nat
  endSeen : Bool
  flight : List Nat
  held : List TokenVal
  deriving DecidableEq, Repr

/-- A run of an image (R373, R389). -/
structure ARun where
  ctx : Nat
  grid : Nat
  seq : Nat
  key : Nat
  b : Word64
  order : List Nat
  /-- resumed from a save area at this address; true: a physical address (R398, R421) -/
  resume : Option (Bool × Nat)
  cancel : Bool
  /-- SYNCPG of the grid that issued CFGRUN (R370) -/
  syncpg : List Nat := []
  /-- of a saved run: the order in which the slots of its M tiles were written, by tile (R345) -/
  ages : AMap (AMap Nat) := []
  deriving DecidableEq, Repr

/-- States of a partition (R367). -/
inductive PartState where
  | idle | installing | running | frozen | draining | saved
  deriving DecidableEq, Repr

/-- The running configuration of a partition. -/
structure Active where
  run : ARun
  cfg : Config
  params : List Word64
  ctxi : Nat
  cts : AMap CTile
  mts : AMap MTile
  sts : AMap STile
  /-- tokens of each link branch, oldest first, by 4 × link + branch -/
  fifos : AMap (List Token)
  /-- NOTIFY entries of the run not yet performed -/
  notifies : Nat
  /-- cause that froze the run (R393) -/
  cause : Nat
  deriving DecidableEq, Repr

/-- A drain in progress (R394): its handle (none: pre-emption or cancel), the save address, t0. -/
structure Drain where
  seq : Option Nat
  order : List Nat
  ctx : Nat
  grid : Nat
  /-- virtual address of the save area, or physical (pre-emption), or none (cancel) -/
  va : Option Nat
  phys : Option Nat
  t0 : Word64
  deriving DecidableEq, Repr

/-- A partition slot (R364 to R367). -/
structure Part where
  reg : Word64
  st : PartState
  act : Option Active
  queue : List ARun
  drain : Option Drain
  /-- page that the installation at the head of the queue waits for -/
  page : Option Nat
  deriving DecidableEq, Repr

/-- A saved run as the device knows it (R394, R398). -/
structure SavedRun where
  run : ARun
  slot : Nat
  deriving DecidableEq, Repr

/-- An operation at the configuration controller (R389, R402). -/
inductive CfgOp where
  | load (ctx grid seq : Nat) (va : Word64) (key : Nat) (order : List Nat)
  | run (slot : Nat) (r : ARun)
  | resume (ctx grid : Nat) (slot key : Nat) (va : Word64) (order : List Nat)
  | drain (ctx grid seq : Nat) (slot : Nat) (va : Word64) (order : List Nat)
  | evict (ctx grid seq : Nat) (key : Nat) (order : List Nat)
  deriving DecidableEq, Repr

/-- A CFGLOAD in progress (R404): bytes copied so far; length 0 until the header is read. -/
structure Loading where
  ctx : Nat
  grid : Nat
  seq : Nat
  order : List Nat
  va : Nat
  key : Nat
  length : Nat
  bytes : List Byte
  page : Option Nat
  cancel : Bool
  /-- bursts of its next granule that have been issued (R260) -/
  paid : AMap Nat := []
  deriving DecidableEq, Repr

/-- An entry of a notify port (R370, R371). -/
structure Notify where
  ctx : Nat
  grid : Nat
  slot : Nat
  seq : Nat
  cell : Nat
  payload : Nat
  bytes : List Byte
  order : List Nat
  deriving DecidableEq, Repr

/-- A pseudo-channel (R259 to R262): budget registers and period counters in the order CD, CE, PART0 to PART7, REF;
`pending` are values that take effect at the next period; counters by the numbers of R262; the banks of
postponed refreshes, oldest first (R261). -/
structure PChan where
  budget : List Nat
  pending : Option (List Nat)
  left : List Nat
  counters : AMap Word64
  postponed : List Nat
  /-- a forced all-bank refresh is in progress -/
  allBank : Bool
  deriving DecidableEq, Repr

/-- A stack's base die. -/
structure Stack where
  parts : Vector Part 8
  images : List Image
  ctl : List CfgOp
  loading : Option Loading
  saved : List SavedRun
  notify : List Notify
  acyc : Word64
  /-- pseudo-channels that differ from `PChan` after reset -/
  chans : AMap PChan
  /-- the access-pattern records that the S tiles hold, by tile and context (R356); a record that is not listed is 0 -/
  walks : AMap PortRec
  deriving DecidableEq, Repr

/-! ### Handles, paging, ordering, host -/

/-- Serial numbers and operation states of one unit for one context. -/
structure HUnit where
  next : Nat
  ops : AMap HState
  deriving DecidableEq, Repr

/-- A fill asked for or in progress (R255): context, first virtual address, size and table-entry address of the page.
`started`: one of the 64 in progress. -/
structure Fill where
  ctx : Nat
  va : Nat
  size : Nat
  entry : Nat
  started : Bool
  /-- bursts that have been issued for it (R260) -/
  paid : AMap Nat := []
  deriving DecidableEq, Repr

/-- An SC operation of one lane (R285, R286). `waiter`: PSEQ of the record of the core that waits for it; `after`: SC
operations of the path that must be performed first. -/
structure ScOp where
  id : Nat
  ctx : Nat
  grid : Nat
  core : Nat
  uid : Nat
  mask : Mask
  waiter : Option Nat
  acc : Access
  counted : Bool
  after : List Nat
  /-- the node at which it is performed -/
  node : Nat
  deriving DecidableEq, Repr

/-- The state of the thimble (R285): the node it visits next, the queued operations by node in arrival order, those
that wait for an earlier operation of their path. -/
structure Thimble where
  node : Nat
  queues : AMap (List ScOp)
  held : List ScOp
  nextId : Nat
  deriving DecidableEq, Repr

/-- L2 and L1 as far as the manual makes them visible (R250, R267, R288). `hbm` of the state holds what the home
slices give; `old` holds what DRAM still has under bytes not written back; `held` the lines that the central die may
hold, `stale` the held lines that DRAM has since been changed under, `half` the lines of which one of the two bursts has come
(R260). Lines are numbered by address / 128. -/
structure L2 where
  old : AMap Byte
  held : List Nat
  stale : List Nat
  half : List Nat := []
  deriving DecidableEq, Repr

/-- A context saved under R421. -/
structure SavedCtx where
  gangs : List StoredGang
  waves : List StoredQuire
  tasks : AMap (List Task)
  copies : List (Nat × CopyOp)
  mats : List (Nat × MatOp)
  /-- stack, slot, run saved in the area at the address, if it was running -/
  runs : List (Nat × Nat × ARun)
  /-- cores whose tasks and waves come from another core, with that core (R86) -/
  homes : AMap Nat := []
  deriving DecidableEq, Repr

/-- A context (R408 to R411, R433, R435). A register of group 0 or a window that is not listed holds its value after
creation. -/
structure Ctx where
  st : CtxState
  owner : Nat
  regs : AMap Word64
  windows : AMap Word64
  hostq : AMap HostQ
  devq : AMap DevQ
  devTurn : Nat
  grids : AMap Grid
  nextGrid : Nat
  latch : Nat
  stored : List StoredGang
  saved : Option SavedCtx
  groups : AMap RGroup
  rblk : List RblkOp
  /-- overflow-area slots in use (R144) -/
  spills : List Nat
  /-- deterministic mode: event sequence number, events of the round (R86) -/
  evseq : Nat
  events : List (List Nat × DetEvent)
  /-- lines of code that the instruction caches may hold, by virtual address / 128, with their bytes (R428) -/
  icache : AMap (List Byte)
  /-- deterministic mode: signatures that have exited in the round holding clasps, with their place in the serial order: the
  serial phase releases the clasps there (R86, R278) -/
  releases : List (List Nat × Nat)
  deriving DecidableEq, Repr

/-- An admin command that has not finished (R432): until a context leaves a passing state, until channels of a stack run
under new budgets, until the fills on the range of an UNMAP have ended. -/
inductive Busy where
  | ctx (n : Nat)
  | unmap (ctx va len : Nat) (wipe : Bool)
  | budget (stack : Nat) (chans : List Nat)
  deriving DecidableEq, Repr

/-- A PCIe function (R429 to R432). -/
structure Func where
  haoff : Word64
  bar2 : Nat
  ring : Nat
  entries : Nat
  head : Nat
  /-- how often each MSI-X vector has been raised -/
  msix : AMap Nat
  busy : Option Busy
  /-- commands that the host has written, as the tail says -/
  tail : Nat
  deriving DecidableEq, Repr

/-- Firmware, fuses and power (R437 to R441). -/
structure Platform where
  life : LifeState
  svnFuse : Nat
  meas : List (BitVec 384)
  running : List Byte
  svn : Nat
  slow : Bool
  /-- cycle counts of the service cores (R4) -/
  service : List Word64
  deriving DecidableEq, Repr

/-- The path that the step has selected, and the word it has fetched. `serial`: the serial phase performs it. -/
structure Sel where
  core : Nat
  slot : Nat
  pidx : Nat
  word : InstrWord
  serial : Bool
  deriving DecidableEq, Repr

/-- One move of the agenda: which event happens next, or which port issues, or what the host writes (R8, R431). -/
inductive Move where
  | event (i : Instr)
  | issue (core port : Nat)
  | hostWrite (bus : Nat) (bytes : List Byte)
  /-- the host sets a function's admin ring (R432) -/
  | adminRing (fn base entries : Nat)
  /-- an uncorrectable soft error strikes a 64-byte block of HBM, or is gone (R266) -/
  | softError (block : Nat) (on : Bool)
  /-- the PF sets the base of a function's BAR2 window (R429) -/
  | bar2Base (fn base : Nat)
  /-- the host writes 8 bytes in a function's BAR0: the tail of its admin ring, or a doorbell (R429, R432, R433) -/
  | bar0Write (fn off : Nat) (v : Word64)
  /-- the firmware finds a command with another code than those of R432 -/
  | unknownCommand (fn : Nat)
  /-- a service core takes the oldest event that waits for an ordering lock (R437) -/
  | serve (lock : Nat)
  /-- the firmware records a hash in one of the measurement registers 2 to 7 (R439) -/
  | measure (reg : Nat) (hash : BitVec 384)
  deriving DecidableEq, Repr

/-- The machine. `agenda`, `free`, `tick` and `sel` are the model's own: the choices that time and the outside world
make, the counter that draws free values, the count of steps, and the instruction being performed. -/
structure State where
  cores : AMap Core
  clusters : AMap Cluster
  memStacks : AMap Stack
  ctxs : AMap Ctx
  handles : AMap HUnit
  hbm : Mem
  l2 : L2
  host : Mem
  fills : List Fill
  thimble : Thimble
  funcs : AMap Func
  platform : Platform
  launches : Nat
  /-- RBLK messages on their way: target device, sending context (R436) -/
  outbox : List (Nat × Nat × RblkMsg)
  /-- writes and atomics that have left for the windows of peers: target device (R435) -/
  requests : List (Nat × PeerReq)
  /-- firmware events that wait for their ordering lock, in arrival order (R437) -/
  waiting : AMap (List Move)
  /-- holder of each held clasp (R277), by context × 2^54 + virtual address of the cell: `uid` of the signature -/
  holders : AMap Nat
  /-- 64-byte blocks of HBM, by address / 64, and of local spaces (from 2^60 on), whose data an uncorrectable soft error has
  spoiled, where the event that reads them carries no answer of its own (R266, R315) -/
  softErrs : List Nat
  /-- 64-byte blocks of HBM, by address / 64, that the engine operation in progress has read (2 n) and written (2 n + 1):
  what it is charged for; empty between steps (R259, R300) -/
  touched : List Nat
  /-- counts partings and signatures (`born`, `uid`) -/
  births : Nat
  agenda : List Move
  free : Nat
  tick : Nat
  sel : Option Sel
  deriving DecidableEq, Repr

/-- Why the machine stops. -/
inductive Fault where
  /-- `exec` was asked for an instruction although no path is selected; `step` never does so. Safe. -/
  | noPath
  deriving DecidableEq, Repr

/-- Why the model gives no meaning to an instruction or an event in a state. -/
inductive Refusal where
  /-- no meaning has been written yet; raised by Dispatch.lean alone. Safe. -/
  | notModelled (mnemonic : String)
  /-- the event cannot happen in this state: what it is the completion of has not begun, or the unit does not
  exist. Raised by the events of the table. Safe. -/
  | disabled (event : String)
  deriving DecidableEq, Repr

/-! ### Initial values -/

def predAllFalse : PredRow := Vector.replicate 128 .f
def rowZero : Row := Vector.replicate 128 0

def Port.init : Port := ⟨[], none, (0, 0, 0), 0⟩
def Core.init : Core where
  ctx := none
  cycles := 0
  quires := []
  sigs := []
  ports := Vector.replicate 4 Port.init
  mem := ⟨[], [], [], []⟩
  records := []
  pseq := 0
  rseq := 0
  nextKey := 0
  waves := 0
  pool := []
  ringHead := 0
  ringLen := 0
  outst := 0
  pend := []
  flushes := []
  home := none

def Cluster.init : Cluster := ⟨[], 0, [], [], (0, 0), 0, 0, 0⟩

/-- R260: CD 992, CE 496, each PART 0, REF 32. -/
def PChan.init : PChan where
  budget := [992, 496, 0, 0, 0, 0, 0, 0, 0, 0, 32]
  pending := none
  left := [992, 496, 0, 0, 0, 0, 0, 0, 0, 0, 32]
  counters := []
  postponed := []
  allBank := false

def Part.init : Part := ⟨0, .idle, none, [], none, none⟩
def Stack.init : Stack := ⟨Vector.replicate 8 Part.init, [], [], none, [], [], 0, [], []⟩
def Ctx.init : Ctx := ⟨.undefined, 0, [], [], [], [], 0, [], 1, 0, [], none, [], [], [], 0, [], [], []⟩
def Func.init : Func := ⟨0, 0, 0, 16, 0, [], none, 0⟩
def HUnit.init : HUnit := ⟨0, []⟩
def Platform.init : Platform := ⟨.production, 0, List.replicate 8 0, [], 0, false, List.replicate Config.nServiceCores 0⟩

/-- The machine right after reset (R440): all of HBM and every SRAM, cache and register file zero, every context
UNDEFINED, counters and budgets as R4, R260 and R262 give them. The agenda is empty. -/
def State.reset : State where
  cores := []
  clusters := []
  memStacks := []
  ctxs := []
  handles := []
  hbm := []
  l2 := ⟨[], [], [], []⟩
  host := []
  fills := []
  thimble := ⟨0, [], [], 0⟩
  funcs := []
  platform := Platform.init
  launches := 0
  outbox := []
  requests := []
  waiting := []
  holders := []
  softErrs := []
  touched := []
  births := 0
  agenda := []
  free := 0
  tick := 0
  sel := none

end Sys2Proof.Machine
end

