-- ==== Sys2Proof/Machine/Map.lean ====
section
/-!
DEFINITION. Machine/Map.lean: operations on sparse tables, on memories and on little-endian bytes (R6).
-/
namespace Sys2Proof

/-- The value at key k. -/
def AMap.get? {α : Type} (m : AMap α) (k : Nat) : Option α :=
  match m with
  | [] => none
  | (x, a) :: r => if x = k then some a else if k < x then none else AMap.get? r k

/-- The value at key k, or d. -/
def AMap.getD {α : Type} (m : AMap α) (k : Nat) (d : α) : α := (AMap.get? m k).getD d

/-- m with a at key k. -/
def AMap.set {α : Type} (m : AMap α) (k : Nat) (a : α) : AMap α :=
  match m with
  | [] => [(k, a)]
  | (x, b) :: r =>
    if k < x then (k, a) :: (x, b) :: r
    else if k = x then (k, a) :: r
    else (x, b) :: AMap.set r k a

/-- m without key k. -/
def AMap.del {α : Type} (m : AMap α) (k : Nat) : AMap α :=
  match m with
  | [] => []
  | (x, b) :: r => if x = k then r else if k < x then (x, b) :: r else (x, b) :: AMap.del r k

/-- f applied at key k, when it is listed. -/
def AMap.mod {α : Type} (m : AMap α) (k : Nat) (f : α → α) : AMap α :=
  match AMap.get? m k with
  | some a => AMap.set m k (f a)
  | none => m

def AMap.keys {α : Type} (m : AMap α) : List Nat := m.map (·.1)
def AMap.vals {α : Type} (m : AMap α) : List α := m.map (·.2)
def AMap.mapVals {α β : Type} (m : AMap α) (f : α → β) : AMap β := m.map fun p => (p.1, f p.2)

/-- Keys strictly rising. -/
def AMap.rising {α : Type} : AMap α → Bool
  | [] => true
  | [_] => true
  | (x, _) :: (y, b) :: r => decide (x < y) && AMap.rising ((y, b) :: r)

namespace Machine

/-- The byte at address a; an address that is not listed reads 0 (R228, R440). -/
def Mem.read (m : Mem) (a : Nat) : Byte :=
  match m with
  | [] => 0
  | (x, b) :: r => if x = a then b else if a < x then 0 else Mem.read r a

/-- m with byte b at address a, in canonical form. -/
def Mem.write (m : Mem) (a : Nat) (b : Byte) : Mem :=
  match m with
  | [] => if b = 0 then [] else [(a, b)]
  | (x, c) :: r =>
    if a < x then (if b = 0 then (x, c) :: r else (a, b) :: (x, c) :: r)
    else if a = x then (if b = 0 then r else (a, b) :: r)
    else (x, c) :: Mem.write r a b

/-- The bytes at a, a + 1, and so on. -/
def Mem.readN (m : Mem) (a n : Nat) : List Byte := (List.range n).map fun i => Mem.read m (a + i)

/-- m with the bytes at a, a + 1, and so on. -/
def Mem.writeN (m : Mem) (a : Nat) (bs : List Byte) : Mem :=
  match bs with
  | [] => m
  | b :: r => Mem.writeN (Mem.write m a b) (a + 1) r

/-- m with zeros in [a, a + n). -/
def Mem.clear (m : Mem) (a n : Nat) : Mem := m.filter fun c => c.1 < a || a + n ≤ c.1

/-- The bytes of [a, a + n), moved so that a becomes b. -/
def Mem.slice (m : Mem) (a n b : Nat) : Mem :=
  (m.filter fun c => a ≤ c.1 && c.1 < a + n).map fun c => (c.1 - a + b, c.2)

/-- m with [b, b + n) replaced by the listed bytes of `part`, which lie in it. -/
def Mem.paste (m : Mem) (b n : Nat) (part : Mem) : Mem :=
  part.foldl (fun acc c => Mem.write acc c.1 c.2) (Mem.clear m b n)

/-- Strictly rising addresses, no listed 0. -/
def Mem.wf : Mem → Bool
  | [] => true
  | [(_, b)] => b != 0
  | (x, b) :: (y, c) :: r => b != 0 && decide (x < y) && Mem.wf ((y, c) :: r)

/-- The number in little-endian bytes (R6). -/
def natOfBytes (bs : List Byte) : Nat := bs.foldr (fun b acc => b.toNat + 256 * acc) 0
/-- n bytes of a number, little-endian (R6). -/
def bytesOfNat (n x : Nat) : List Byte :=
  match n with
  | 0 => []
  | n + 1 => BitVec.ofNat 8 x :: bytesOfNat n (x / 256)

/-- Bytes i to i + n - 1 of a byte string, as a number; bytes beyond it read 0. -/
def field (bs : List Byte) (i n : Nat) : Nat := natOfBytes ((bs.drop i).take n)

/-- bs with the number x in bytes i to i + n - 1. -/
def setField (bs : List Byte) (i n x : Nat) : List Byte := bs.take i ++ bytesOfNat n x ++ bs.drop (i + n)

/-- Bits [hi:lo] of a number. -/
def bitsOf (x hi lo : Nat) : Nat := x / 2 ^ lo % 2 ^ (hi + 1 - lo)

/-- The lowest multiple of k at or above n. -/
def alignUp (n k : Nat) : Nat := (n + k - 1) / k * k

/-- A 16-bit-and-up two's-complement reading of the low n bits of x. -/
def signedOf (n x : Nat) : Int := if x % 2 ^ n < 2 ^ (n - 1) then (x % 2 ^ n : Int) else (x % 2 ^ n : Int) - 2 ^ n

end Machine
end Sys2Proof
end

