-- ==== Sys2Proof/Machine/Base.lean ====
section
/-!
DEFINITION. Machine/Base.lean: the parts of the state by number, register numbers of a context (R411), program-counter
arithmetic (R12, R13), lanes and masks (R93), free values (R8).
-/
namespace Sys2Proof.Machine

/-! ### Parts of the state -/

def State.core (s : State) (c : Nat) : Core := AMap.getD s.cores c Core.init
def State.setCore (s : State) (c : Nat) (k : Core) : State := { s with cores := AMap.set s.cores c k }
def State.modCore (s : State) (c : Nat) (f : Core → Core) : State := s.setCore c (f (s.core c))
def State.sig? (s : State) (c slot : Nat) : Option Sig := AMap.get? (s.core c).sigs slot
def State.modSig (s : State) (c slot : Nat) (f : Sig → Sig) : State :=
  s.modCore c fun k => { k with sigs := AMap.mod k.sigs slot f }
def State.quire? (s : State) (c key : Nat) : Option Quire := AMap.get? (s.core c).quires key
def State.modQuire (s : State) (c key : Nat) (f : Quire → Quire) : State :=
  s.modCore c fun k => { k with quires := AMap.mod k.quires key f }
def State.cluster (s : State) (c : Nat) : Cluster := AMap.getD s.clusters c Cluster.init
def State.modCluster (s : State) (c : Nat) (f : Cluster → Cluster) : State :=
  { s with clusters := AMap.set s.clusters c (f (s.cluster c)) }
def State.stack (s : State) (n : Nat) : Stack := AMap.getD s.memStacks n Stack.init
def State.modStack (s : State) (n : Nat) (f : Stack → Stack) : State :=
  { s with memStacks := AMap.set s.memStacks n (f (s.stack n)) }
def State.ctx (s : State) (n : Nat) : Ctx := AMap.getD s.ctxs n Ctx.init
def State.modCtx (s : State) (n : Nat) (f : Ctx → Ctx) : State :=
  { s with ctxs := AMap.set s.ctxs n (f (s.ctx n)) }
def State.func (s : State) (n : Nat) : Func := AMap.getD s.funcs n Func.init
def State.modFunc (s : State) (n : Nat) (f : Func → Func) : State :=
  { s with funcs := AMap.set s.funcs n (f (s.func n)) }
def State.grid? (s : State) (ctx g : Nat) : Option Grid := AMap.get? (s.ctx ctx).grids g
def State.modGrid (s : State) (ctx g : Nat) (f : Grid → Grid) : State :=
  s.modCtx ctx fun c => { c with grids := AMap.mod c.grids g f }
def Core.port (k : Core) (p : Nat) : Port := k.ports[p]?.getD Port.init
def Core.setPort (k : Core) (p : Nat) (x : Port) : Core := { k with ports := k.ports.setIfInBounds p x }
def Core.modPort (k : Core) (p : Nat) (f : Port → Port) : Core := k.setPort p (f (k.port p))
def Stack.part (t : Stack) (p : Nat) : Part := t.parts[p]?.getD Part.init
def Stack.modPart (t : Stack) (p : Nat) (f : Part → Part) : Stack :=
  { t with parts := t.parts.setIfInBounds p (f (t.part p)) }
def Stack.chan (t : Stack) (p : Nat) : PChan := AMap.getD t.chans p PChan.init
def Stack.modChan (t : Stack) (p : Nat) (f : PChan → PChan) : Stack :=
  { t with chans := AMap.set t.chans p (f (t.chan p)) }

/-- Core id to cluster (R3). -/
def clusterOf (core : Nat) : Nat := core / Config.coresPerCluster

/-! ### Context registers (R411) -/

/-- Numbers of group 0. -/
def rFPCTL : Nat := 0x01
def rTROOT : Nat := 0x02
def rTRAPVEC : Nat := 0x03
def rTRAPEN : Nat := 0x04
def rFRBASE : Nat := 0x05
def rFRSIZE : Nat := 0x06
def rFRHEAD : Nat := 0x07
def rFRTAIL : Nat := 0x08
def rFRDROP : Nat := 0x09
def rCOVBASE : Nat := 0x0A
def rCOVSIZE : Nat := 0x0B
def rTOVBASE : Nat := 0x0C
def rTOVSIZE : Nat := 0x0D
def rDQBASE : Nat := 0x0E
def rQOVBASE : Nat := 0x0F
def rQOVSIZE : Nat := 0x10
def rSWAPBASE : Nat := 0x11
def rSWAPSIZE : Nat := 0x12
def rBKBASE : Nat := 0x13
def rBKCOUNT : Nat := 0x14
def rDETCTL : Nat := 0x15
def rWDOG : Nat := 0x16
def rMONITOR : Nat := 0x17
def rCSAVEBASE : Nat := 0x18
def rASAVEBASE : Nat := 0x19
def rASAVESTRIDE : Nat := 0x1A
def rFEATACC0 : Nat := 0x1F

/-- The value of a group-0 register after creation (R411, R423). -/
def regInit (ctx num : Nat) : Word64 :=
  if num = 0 then BitVec.ofNat 64 ctx else if num = 0x1B then Config.featdev0 else 0

/-- A group-0 register of a context (R411). -/
def State.reg (s : State) (ctx num : Nat) : Word64 := AMap.getD (s.ctx ctx).regs num (regInit ctx num)
def State.setReg (s : State) (ctx num : Nat) (v : Word64) : State :=
  s.modCtx ctx fun c => { c with regs := AMap.set c.regs num v }
def State.regN (s : State) (ctx num : Nat) : Nat := (s.reg ctx num).toNat

/-- Deterministic mode (R83). -/
def State.det (s : State) (ctx : Nat) : Bool := (s.reg ctx rDETCTL).getLsbD 0
/-- The deterministic quantum Q (R83). -/
def State.detQ (s : State) (ctx : Nat) : Nat := bitsOf (s.regN ctx rDETCTL) 32 16

/-- Feature bit b of word 0 is accepted (R423). -/
def State.feat (s : State) (ctx b : Nat) : Bool := (s.reg ctx rFEATACC0).getLsbD b

/-! ### Free values (R8) -/

/-- An unspecified 64-bit value. -/
def State.drawWord (s : State) : Word64 × State := (Config.freeWord s.free, { s with free := s.free + 1 })
/-- n unspecified bytes. -/
def State.drawBytes (s : State) (n : Nat) : List Byte × State :=
  ((List.range n).map fun i => Config.freeByte (s.free + i), { s with free := s.free + n })
/-- An unspecified row: a value for each lane. -/
def State.drawRow (s : State) : Row × State :=
  (Vector.ofFn fun l : Lane => Config.freeWord (s.free + l.val), { s with free := s.free + 128 })

/-! ### Lanes -/

/-- The lanes of a mask, ascending. -/
def lanesOf (m : Mask) : List Lane := (List.finRange 128).filter fun l => m.getLsbD l.val
def maskOf (f : Lane → Bool) : Mask := BitVec.ofNat 128 ((List.finRange 128).foldl (fun a l => if f l then a + 2 ^ l.val else a) 0)
def popMask (m : Mask) : Nat := (lanesOf m).length
/-- The lowest lane of a mask. -/
def lowest (m : Mask) : Option Lane := (lanesOf m).head?
def rowOf (w : Word64) : Row := Vector.replicate 128 w

/-- The lanes of a mask for which a guard holds (R93). -/
def guardMask (c : Cond) (p : PredRow) (m : Mask) : Mask :=
  match c with
  | .always => m
  | .t => m &&& maskOf fun l => p[l] == .t
  | .f => m &&& maskOf fun l => p[l] == .f
  | .u => m &&& maskOf fun l => p[l] == .u
  | .nt => m &&& maskOf fun l => p[l] != .t
  | .nf => m &&& maskOf fun l => p[l] != .f
  | .nu => m &&& maskOf fun l => p[l] != .u

/-! ### Program counter (R12, R13) -/

/-- A valid PC: one of ten places in its line (R12), in the 54-bit space. -/
def pcValid (pc : Word64) : Bool :=
  decide (pc.toNat < 2 ^ 54) && decide (8 ≤ pc.toNat % 128) && (pc.toNat % 128 - 8) % 12 == 0
/-- The slot number of a valid PC (R13). -/
def slotOf (pc : Word64) : Nat := pc.toNat / 128 * 10 + (pc.toNat % 128 - 8) / 12
/-- The address of a slot number, with floor division, modulo 2^64 (R13). -/
def addrOf (n : Int) : Word64 := BitVec.ofInt 64 (n / 10 * 128 + 8 + n % 10 * 12)
/-- A slot number whose address is a 54-bit address (R13). -/
def slotOk (n : Int) : Bool := decide (0 ≤ n) && decide (n < 2 ^ 47 * 10)
/-- The next PC: by 12 in slots 0 to 8, by 20 in slot 9 (R12). -/
def nextPc (pc : Word64) : Word64 := if pc.toNat % 128 = 116 then pc + 20 else pc + 12

/-! ### Fault causes (R414) -/

def cILLOP : Nat := 0x01
def cOPERAND : Nat := 0x02
def cINDEX : Nat := 0x03
def cEMPTY : Nat := 0x04
def cMISALIGN : Nat := 0x05
def cPAGE : Nat := 0x06
def cACCESS : Nat := 0x07
def cECC : Nat := 0x08
def cCONTOVF : Nat := 0x09
def cPATHOVF : Nat := 0x0A
def cWATCHDOG : Nat := 0x0B
def cRVOVR : Nat := 0x0C
def cRVSTARVE : Nat := 0x0D
def cQFULL : Nat := 0x0E
def cENTRY : Nat := 0x0F
def cQUOTA : Nat := 0x10
def cHANDLE : Nat := 0x11
def cDEPTH : Nat := 0x12
def cCFG : Nat := 0x13
def cDRAINTO : Nat := 0x14
def cTRAP : Nat := 0x15
def cBPT : Nat := 0x16
def cSTALE : Nat := 0x17
def cCLASP : Nat := 0x18
def cPRIV : Nat := 0x19
def cFEATURE : Nat := 0x1A

/-- A fault whose t2 is 0 and whose failing lanes are the active ones. -/
def trapOf (cause : Nat) : Trap := ⟨cause, 0, none⟩
/-- A fault at an address. -/
def trapAt (cause addr : Nat) : Trap := ⟨cause, BitVec.ofNat 64 addr, none⟩

end Sys2Proof.Machine
end

