-- ==== Sys2Proof/Machine/ArrayImage.lean ====
section
/-!
DEFINITION. Machine/ArrayImage.lean: the Amisel image (R374 to R383), where tiles lie (R339 to R341), and the checks of an
installation (R384, R385, R388, R390).
-/
namespace Sys2Proof.Machine

/-! ### Tiles (R339 to R341, R383) -/

/-- Kinds of tiles: 1 C, 2 M, 3 S (R340, R376). -/
def tileKind (row col : Nat) : Nat :=
  if col % 6 = 0 ∨ col % 6 = 5 then (if row % 6 = 0 ∨ row % 6 = 3 then 3 else 2) else 1

/-- The number of an S tile within its block (R341). -/
def sTileNo (row col : Nat) : Nat := row % 6 / 3 + 2 * (col % 6 / 5)

/-- The port index of an S tile in a partition of bw block columns (R383). -/
def portIndex (bw row col : Nat) : Nat := 4 * (bw * (row / 6) + col / 6) + sTileNo row col

/-- A tile's place in the tables of a run. -/
def tileKey (row col : Nat) : Nat := row * 24 + col

/-! ### CRC-32 of IEEE 802.3 (R375, R436) -/

def crcBit (x : BitVec 32) : BitVec 32 := if x.getLsbD 0 then (x >>> 1) ^^^ 0xEDB88320 else x >>> 1
def crcByte (x : BitVec 32) (b : Byte) : BitVec 32 :=
  (List.range 8).foldl (fun a _ => crcBit a) (x ^^^ b.setWidth 32)
def crc32 (bs : List Byte) : BitVec 32 := ~~~(bs.foldl crcByte 0xFFFFFFFF)

/-! ### Header and sections (R374, R375) -/

def imageMagic : Nat := 0x31534D41
def imgLength (bs : List Byte) : Nat := field bs 8 4

/-- MAGIC, VERSION and LENGTH are in order (R404). -/
def imgHeaderOk (bs : List Byte) : Bool :=
  let n := imgLength bs
  field bs 0 4 == imageMagic && field bs 4 2 == 1 && n % 64 == 0 && decide (64 ≤ n) && decide (n ≤ 524288)

/-- CHECK (R375). -/
def imgCheckOk (bs : List Byte) : Bool := (crc32 (setField bs 0x38 4 0)).toNat == field bs 0x38 4

/-- Entries of the sections tile, link, constant, delay, port, arc. -/
def imgCount (bs : List Byte) (k : Nat) : Nat :=
  match k with
  | 0 => field bs 0x12 2 | 1 => field bs 0x14 2 | 2 => field bs 0x16 2 | 3 => field bs 0x18 2 | 4 => field bs 0x1A 2
  | _ => field bs 0x11 1

def imgOffset (bs : List Byte) (k : Nat) : Nat := field bs (0x20 + 4 * k) 4

/-- Set bits of a byte. -/
def bitCount (x : Nat) : Nat := ((List.range 8).filter fun i => x / 2 ^ i % 2 == 1).length

/-- Size of the entry at an offset of section k (R376, R379 to R382). -/
def entrySize (bs : List Byte) (k off : Nat) : Nat :=
  match k with
  | 0 => 16 + 16 * bitCount (field bs (off + 3) 1)
  | 1 => 64
  | 2 => 80
  | 3 => 16 + 64 * field bs (off + 3) 1
  | 4 => 48
  | _ => 8

/-- Offsets of n entries from an offset on, and where they end. -/
def entriesFrom (bs : List Byte) (k : Nat) : Nat → Nat → List Nat × Nat
  | 0, off => ([], off)
  | n + 1, off =>
    let (r, e) := entriesFrom bs k n (off + entrySize bs k off)
    (off :: r, e)

def imgEntries (bs : List Byte) (k : Nat) : List Nat := (entriesFrom bs k (imgCount bs k) (imgOffset bs k)).1
def sectionEnd (bs : List Byte) (k : Nat) : Nat := (entriesFrom bs k (imgCount bs k) (imgOffset bs k)).2

/-- R374. -/
def imgSectionsOk (bs : List Byte) : Bool :=
  let secs := (List.range 6).map fun k => (imgOffset bs k, sectionEnd bs k)
  secs.all (fun x => x.1 % 16 == 0 && decide (0x40 ≤ x.1) && decide (x.2 ≤ imgLength bs))
    && (List.range 6).all fun i => (List.range i).all fun j =>
      match secs[i]?, secs[j]? with
      | some a, some b => a.1 == a.2 || b.1 == b.2 || decide (a.2 ≤ b.1) || decide (b.2 ≤ a.1)
      | _, _ => true

/-! ### Entries -/

def signed24 (x : Nat) : Int := signedOf 24 x

/-- The hops of a branch, in order (R379): 0 north, 1 east, 2 south, 3 west. -/
def hopsOf (x n : Nat) : List Nat := (List.range n).map fun j => x / 4 ^ j % 4

/-- An image taken apart. -/
def Config.parse (bs : List Byte) : Config where
  nctx := field bs 6 1
  shape := field bs 7 1
  drain := field bs 0xC 4
  nparam := field bs 0x10 1
  check := field bs 0x38 4
  tiles := (imgEntries bs 0).map fun o =>
    let mask := field bs (o + 3) 1
    let ctxs := (List.range 8).filter fun i => mask / 2 ^ i % 2 == 1
    ((field bs o 1, field bs (o + 1) 1), field bs (o + 2) 1,
     ctxs.zipIdx.map fun x => (x.1, BitVec.ofNat 128 (field bs (o + 16 + 16 * x.2) 16)))
  links := (imgEntries bs 1).map fun o =>
    { srow := field bs o 1, scol := field bs (o + 1) 1, sport := field bs (o + 2) 1
      branches := (List.range (min 4 (field bs (o + 3) 1))).map fun k =>
        let b := o + 8 + 14 * k
        ((field bs b 1, field bs (b + 1) 1), (field bs (b + 2) 1, hopsOf (field bs (b + 4) 10) (field bs (b + 3) 1))) }
  consts := (imgEntries bs 2).map fun o =>
    ((field bs o 1, field bs (o + 1) 1), field bs (o + 2) 1, field bs (o + 3) 1, BitVec.ofNat 512 (field bs (o + 16) 64))
  delays := (imgEntries bs 3).map fun o =>
    ((field bs o 1, field bs (o + 1) 1), field bs (o + 2) 1,
     (List.range (field bs (o + 3) 1)).map fun i => BitVec.ofNat 512 (field bs (o + 16 + 64 * i) 64))
  ports := (imgEntries bs 4).map fun o =>
    let r := o + 16
    { row := field bs o 1, col := field bs (o + 1) 1, ctx := field bs (o + 2) 1, psel := field bs (o + 3) 1
      base := field bs r 8
      count := (List.range 4).map fun d => field bs (r + 8 + 2 * d) 2
      stride := (List.range 4).map fun d => signed24 (field bs (r + 0x10 + 3 * d) 3)
      write := field bs (r + 0x1C) 1 % 2 == 1 }
  arcs := (imgEntries bs 5).map fun o => (field bs o 1, field bs (o + 1) 1, field bs (o + 2) 1, field bs (o + 3) 1)

def Config.rows (c : Config) : Nat := 6 * (c.shape % 4 + 1)
def Config.cols (c : Config) : Nat := 6 * (c.shape / 4 % 4 + 1)
def Config.bw (c : Config) : Nat := c.shape / 4 % 4 + 1
def Config.blocks (c : Config) : Nat := (c.shape % 4 + 1) * (c.shape / 4 % 4 + 1)
def Config.inside (c : Config) (x : Nat × Nat) : Bool := decide (x.1 < c.rows) && decide (x.2 < c.cols)

/-! ### Context words (R377, R378, R384, R385, R388) -/

abbrev CtxWord := BitVec 128
def wOpc (w : CtxWord) : Nat := bitsOf w.toNat 7 0
/-- Sources a, b, c. -/
def wSrc (w : CtxWord) : List Nat := [bitsOf w.toNat 11 8, bitsOf w.toNat 15 12, bitsOf w.toNat 19 16]
def wOut (w : CtxWord) (o : Nat) : Nat := bitsOf w.toNat (21 + 2 * o) (20 + 2 * o)
def wDlf (w : CtxWord) : Nat := bitsOf w.toNat 27 24
def wInit (w : CtxWord) : Nat := bitsOf w.toNat 29 28
def wImm (w : CtxWord) : Nat := bitsOf w.toNat 63 32
def wUp (w : CtxWord) : Nat := bitsOf w.toNat 127 64

/-- Operands that an operation reads; none for a reserved code (R384). -/
def opReads (opc : Nat) : Option Nat :=
  match opc with
  | 0x00 => some 0
  | 0x01 | 0x02 | 0x03 | 0x05 | 0x06 => some 2
  | 0x04 => some 3
  | 0x07 => some 1
  | 0x10 | 0x11 | 0x12 | 0x13 | 0x14 | 0x15 => some 2
  | 0x16 | 0x17 | 0x18 | 0x20 | 0x21 => some 1
  | 0x28 | 0x30 | 0x31 => some 2
  | 0x32 => some 3
  | 0x38 | 0x39 | 0x3C | 0x3D => some 1
  | 0x3E => some 2
  | 0x40 => some 3
  | _ => none

def isInput (src : Nat) : Bool := decide (1 ≤ src) && decide (src ≤ 3)
/-- Link inputs that a word reads, each once, as 0 to 2. -/
def wInputs (w : CtxWord) : List Nat := (List.range 3).filter fun i => (wSrc w).contains (i + 1)
/-- Delay lines that a word reads, each once. -/
def wLines (w : CtxWord) : List Nat := (List.range 4).filter fun i => (wSrc w).contains (i + 8)
def wFeeds (w : CtxWord) : List Nat := (List.range 4).filter fun i => wDlf w / 2 ^ i % 2 == 1

/-- Codes and reserved bits of R377. -/
def wCodesOk (w : CtxWord) : Bool :=
  (wSrc w).all (fun s => s != 7 && decide (s < 12)) && wOut w 0 != 3 && wOut w 1 != 3 && bitsOf w.toNat 31 30 == 0
    && (wUp w == 0 || wOpc w == 0x3C)

/-- IMM of an operation (R384, R385, R387, R388). -/
def wImmOk (w : CtxWord) : Bool :=
  let i := wImm w
  match wOpc w with
  | 0x16 | 0x17 | 0x18 => decide (i < 32)
  | 0x28 => decide (i < 6)
  | 0x3C => decide (i < 2 ^ 12)
  | 0x3D | 0x3E => decide (5 ≤ i) && decide (i ≤ 10)
  | 0x40 => i == 1 || i == 3 || i == 5 || i == 6 || i == 10
  | _ => i == 0

/-- A buffer field of an M-tile word (R378): first slot, depth, replay, passes; none when it is not used. -/
def wBuf (w : CtxWord) (j : Nat) : Option (Nat × Nat × Bool × Nat) :=
  let f := bitsOf w.toNat (32 * j + 31) (32 * j)
  if f / 2 ^ 21 % 2 = 1 then some (bitsOf f 9 0, bitsOf f 19 10 + 1, f / 2 ^ 20 % 2 == 1, bitsOf f 29 22) else none

/-- R378. -/
def wBufOk (w : CtxWord) (j : Nat) : Bool :=
  let f := bitsOf w.toNat (32 * j + 31) (32 * j)
  match wBuf w j with
  | none => f == 0
  | some (first, depth, replay, passes) => decide (first + depth ≤ 1024) && f / 2 ^ 30 == 0 && (if replay then decide (1 ≤ passes) else passes == 0)

/-! ### Looking things up -/

def Config.word? (c : Config) (x : Nat × Nat) (i : Nat) : Option CtxWord :=
  (c.tiles.find? fun t => t.1 == x).bind fun t => (t.2.2.find? fun p => p.1 == i).map (·.2)
/-- Links that end at an input, with their numbers. -/
def Config.feeders (c : Config) (x : Nat × Nat) (port : Nat) : List (Nat × Link) :=
  (c.links.zipIdx.filter fun l => l.1.branches.any fun b => b.1 == x && b.2.1 == port).map fun l => (l.2, l.1)
def Config.port? (c : Config) (x : Nat × Nat) (i : Nat) : Option PortRec :=
  c.ports.find? fun p => (p.row, p.col) == x && p.ctx == i
/-- Port p of R383 is a write port, a read port, in a context. -/
def Config.isPort (c : Config) (i p : Nat) (write : Bool) : Bool :=
  c.ports.any fun r => r.ctx == i && r.write == write && portIndex c.bw r.row r.col == p

/-- The tile after a hop; none past the edge. -/
def hopTo (x : Nat × Nat) (h : Nat) : Option (Nat × Nat) :=
  match h with
  | 0 => if x.1 = 0 then none else some (x.1 - 1, x.2)
  | 1 => some (x.1, x.2 + 1)
  | 2 => some (x.1 + 1, x.2)
  | _ => if x.2 = 0 then none else some (x.1, x.2 - 1)

/-- The boundaries that a route crosses and where it ends; none where it leaves SHAPE. -/
def Config.route (c : Config) : Nat × Nat → List Nat → Option (List ((Nat × Nat) × Nat) × (Nat × Nat))
  | x, [] => some ([], x)
  | x, h :: r => match hopTo x h with
    | none => none
    | some y => if c.inside y then (c.route y r).map fun t => ((x, h) :: t.1, t.2) else none

/-! ### The checks of R390 -/

def noTwice {α : Type} [BEq α] : List α → Bool
  | [] => true
  | x :: r => !r.contains x && noTwice r

/-- 0x02: reserved bytes of the image. -/
def imgReservedOk (bs : List Byte) : Bool :=
  let z := fun o n => field bs o n == 0
  z 0x1C 4 && z 0x3C 4
    && (imgEntries bs 0).all (fun o => z (o + 4) 12)
    && (imgEntries bs 1).all (fun o =>
      let n := field bs (o + 3) 1
      z (o + 4) 4 && (List.range 4).all fun k =>
        if k < n then field bs (o + 8 + 14 * k + 4) 10 / 4 ^ field bs (o + 8 + 14 * k + 3) 1 == 0 else z (o + 8 + 14 * k) 14)
    && (imgEntries bs 2).all (fun o => z (o + 4) 12)
    && (imgEntries bs 3).all (fun o => z (o + 4) 12)
    && (imgEntries bs 4).all (fun o => z (o + 4) 12 && decide (field bs (o + 16 + 0x1C) 1 ≤ 1) && z (o + 16 + 0x1D) 3)
    && (imgEntries bs 5).all (fun o => z (o + 4) 4)

/-- The largest output and input number of a tile by kind (R379). -/
def topOut (kind : Nat) : Nat := match kind with | 1 => 1 | 2 => 3 | _ => 0
def topIn (kind : Nat) : Nat := match kind with | 1 => 2 | 2 => 3 | _ => 0

/-- 0x02: counts, limits and codes of R375 to R382; an M-tile word is left to 0x04. -/
def Config.limitsOk (c : Config) (bs : List Byte) : Bool :=
  decide (1 ≤ c.nctx) && decide (c.nctx ≤ 8) && decide (c.shape < 16) && decide (1 ≤ c.drain) && decide (c.drain ≤ 65536)
    && decide (c.nparam ≤ 32) && decide (imgCount bs 5 ≤ 64) && decide (imgCount bs 0 ≤ 576) && decide (imgCount bs 1 ≤ 1024)
    && decide (imgCount bs 2 ≤ 6144) && decide (imgCount bs 3 ≤ 1536) && decide (imgCount bs 4 ≤ 512)
    && imgReservedOk bs
    && c.tiles.all (fun t => c.inside t.1 && (t.2.1 == 1 || t.2.1 == 2) && t.2.2.all (fun p => decide (p.1 < c.nctx))
      && (t.2.1 != 1 || t.2.2.all fun p => wCodesOk p.2))
    && (imgEntries bs 1).all (fun o => decide (1 ≤ field bs (o + 3) 1) && decide (field bs (o + 3) 1 ≤ 4))
    && c.links.all (fun l => c.inside (l.srow, l.scol) && decide (l.sport ≤ topOut (tileKind l.srow l.scol))
      && l.branches.all fun b => c.inside b.1 && decide (b.2.1 ≤ 3) && decide (1 ≤ b.2.2.length) && decide (b.2.2.length ≤ 40))
    && c.consts.all (fun k => c.inside k.1 && decide (k.2.1 ≤ 1) && decide (k.2.2.1 < c.nctx))
    && c.delays.all (fun d => c.inside d.1 && decide (d.2.1 ≤ 3) && decide (1 ≤ d.2.2.length) && decide (d.2.2.length ≤ 16))
    && c.ports.all (fun p => c.inside (p.row, p.col) && decide (p.ctx < c.nctx) && (p.psel == 0xFF || decide (p.psel < c.nparam))
      && p.count.all fun n => decide (1 ≤ n))

/-- 0x03. -/
def Config.namesOk (c : Config) : Bool :=
  c.tiles.all (fun t => t.2.1 == tileKind t.1.1 t.1.2) && noTwice (c.tiles.map (·.1))
    && c.ports.all (fun p => tileKind p.row p.col == 3) && noTwice (c.ports.map fun p => (p.row, p.col, p.ctx))
    && c.consts.all (fun k => tileKind k.1.1 k.1.2 == 1) && noTwice (c.consts.map fun k => (k.1, k.2.1, k.2.2.1))
    && c.delays.all (fun d => tileKind d.1.1 d.1.2 == 1) && noTwice (c.delays.map fun d => (d.1, d.2.1))

/-- The neighbour whose output a cell takes its input from within a systolic array: the cell to the west on IN0, the one to the
north on IN1 (R362); none at the edges and on IN2. -/
def cellWest (x : Nat × Nat) (port : Nat) : Option ((Nat × Nat) × Nat) :=
  if port = 0 ∧ 1 < x.2 % 6 then some ((x.1, x.2 - 1), 0)
  else if port = 1 ∧ 0 < x.1 % 6 then some ((x.1 - 1, x.2), 1)
  else none

/-- 0x04: one word of a C tile in context i (R384, R385, R388). The array itself feeds the inner inputs of its cells (R362). -/
def Config.cWordOk (c : Config) (x : Nat × Nat) (i : Nat) (w : CtxWord) : Bool :=
  let srcs := wSrc w
  match opReads (wOpc w) with
  | none => false
  | some n =>
    (srcs.take n).all (· != 0) && (srcs.drop n).all (· == 0) && (n == 0 || srcs.any isInput)
      && (wInputs w).all (fun j => !(c.feeders x j).isEmpty || (wOpc w == 0x40 && (cellWest x j).isSome))
      && (wOpc w == 0x30 || wOpc w == 0x40 || (wOut w 0 != 2 && wOut w 1 != 2))
      && (!(wOpc w == 0 || wOpc w == 0x3C) || (wOut w 0 == 0 && wOut w 1 == 0 && wDlf w == 0))
      && wImmOk w
      && (wOpc w != 0x3C || (List.range 64).all fun p => wUp w / 2 ^ p % 2 == 0 || c.isPort i p true)
      && (wOpc w != 0x40 || (srcs == [1, 2, 3] && wOut w 0 == 1 && wOut w 1 == 2
        && (List.range 24).all fun k =>
          let y := (x.1 / 6 * 6 + k / 4, x.2 / 6 * 6 + 1 + k % 4)
          match c.word? y i with
          | some v => wOpc v == 0x40 && wImm v == wImm w
          | none => false))

def Config.wordsOk (c : Config) : Bool :=
  c.tiles.all fun t => t.2.2.all fun p => if t.2.1 = 1 then c.cWordOk t.1 p.1 p.2 else (List.range 4).all (wBufOk p.2)

/-- 0x05. -/
def Config.routesOk (c : Config) : Bool :=
  c.links.all (fun l => l.branches.all fun b =>
      (match c.route (l.srow, l.scol) b.2.2 with | some r => r.2 == b.1 | none => false)
        && decide (b.2.1 ≤ topIn (tileKind b.1.1 b.1.2)))
    && c.links.all fun l => l.branches.all fun b => decide ((c.feeders b.1 b.2.1).length ≤ 1)

/-- The boundaries that a link crosses, each once. -/
def Config.crossings (c : Config) (l : Link) : List ((Nat × Nat) × Nat) :=
  (l.branches.flatMap fun b => match c.route (l.srow, l.scol) b.2.2 with | some r => r.1 | none => []).eraseDups

/-- 0x06. -/
def Config.boundariesOk (c : Config) : Bool :=
  let all := c.links.flatMap c.crossings
  all.all fun x => decide ((all.filter (· == x)).length ≤ 4)

/-- 0x07. -/
def wBufsApart (w : CtxWord) : Bool :=
  (List.range 4).all fun i => (List.range i).all fun j =>
    match wBuf w i, wBuf w j with
    | some (a, n, _, _), some (b, m, _, _) => decide (a + n ≤ b) || decide (b + m ≤ a)
    | _, _ => true

def Config.buffersOk (c : Config) : Bool := c.tiles.all fun t => t.2.1 != 2 || t.2.2.all fun p => wBufsApart p.2

/-- 0x08. -/
def Config.linesOk (c : Config) : Bool :=
  c.tiles.all (fun t => t.2.1 != 1 || t.2.2.all fun p =>
      (wLines p.2 ++ wFeeds p.2).all fun d => c.delays.any fun e => e.1 == t.1 && e.2.1 == d)
    && c.ports.all fun p =>
      if p.write then !(c.feeders (p.row, p.col) 0).isEmpty
      else c.links.any fun l => l.srow == p.row && l.scol == p.col && l.sport == 0

/-- The QMAX tile that a QCVT word in context i is paired with as 0x09 demands. -/
def Config.quantPair (c : Config) (x : Nat × Nat) (i : Nat) (w : CtxWord) : Option (Nat × Nat) :=
  let src := fun n => (wSrc w).getD n 0
  let feed := fun (y : Nat × Nat) n => if isInput n then (c.feeders y (n - 1)).head? else none
  match feed x (src 0), feed x (src 1) with
  | some (_, la), some (_, lb) =>
    let m := (la.srow, la.scol)
    let q := (lb.srow, lb.scol)
    match c.word? m i, c.word? q i with
    | some mw, some qw =>
      let buf := if tileKind m.1 m.2 = 2 then wBuf mw la.sport else none
      let fifo := match buf with | some (_, d, r, _) => d == 2 && !r | none => false
      let lin := c.feeders m la.sport
      let qin := feed q ((wSrc qw).getD 0 0)
      if fifo && tileKind q.1 q.2 == 1 && wOpc qw == 0x3D && wImm qw == wImm w && wOut qw lb.sport == 1 && !lin.isEmpty
          && (match qin with | some f => lin.map (·.1) == [f.1] | none => false)
      then some q else none
    | _, _ => none
  | _, _ => none

/-- 0x09: every QCVT has its QMAX and its buffer, and every QMAX its QCVT. -/
def Config.quantOk (c : Config) : Bool :=
  let words := c.tiles.flatMap fun t => if t.2.1 = 1 then t.2.2.map fun p => (t.1, p.1, p.2) else []
  let pairs := (words.filter fun x => wOpc x.2.2 == 0x3E).map fun x => (c.quantPair x.1 x.2.1 x.2.2, x.2.1)
  pairs.all (fun p => p.1.isSome) && (words.filter fun x => wOpc x.2.2 == 0x3D).all fun x => pairs.contains (some x.1, x.2.1)

/-- The resolved BASE of a port (R381). -/
def PortRec.resolved (p : PortRec) (params : List Word64) : Nat :=
  (p.base + (if p.psel = 0xFF then 0 else (params.getD p.psel 0).toNat)) % 2 ^ 64

/-- P of a NOTIFY (R388). -/
def notifyBytes (imm : Nat) : Nat := 8 * 2 ^ bitsOf imm 11 10

/-- 0x0B: parameter indices and addresses of NOTIFY; B. -/
def Config.notifyOk (c : Config) (params : List Word64) (b : Nat) : Bool :=
  (c.nparam == 0 || b != 0)
    && c.tiles.all fun t => t.2.1 != 1 || t.2.2.all fun p => wOpc p.2 != 0x3C ||
      (let i := wImm p.2
       let cell := i % 32
       let pay := i / 32 % 32
       decide (cell < c.nparam) && decide (pay < c.nparam) && (params.getD cell 0).toNat % 64 == 0
         && (params.getD pay 0).toNat % notifyBytes i == 0)

/-- 0x0C (R382). -/
def Config.arcsOk (c : Config) : Bool :=
  c.arcs.all fun a => decide (a.1 ≤ a.2.2.1) && c.isPort a.1 a.2.1 true && c.isPort a.2.2.1 a.2.2.2 false

/-- The first check that fails (R390). `reg` is the partition's register. -/
def Config.firstFault (c : Config) (bs : List Byte) (reg : Nat) (params : List Word64) (b : Nat) : Option Nat :=
  let checks : List (Nat × Bool) := [
    (0x01, c.shape % 4 == bitsOf reg 5 4 && c.shape / 4 % 4 == bitsOf reg 7 6),
    (0x02, c.limitsOk bs), (0x03, c.namesOk), (0x04, c.wordsOk), (0x05, c.routesOk), (0x06, c.boundariesOk),
    (0x07, c.buffersOk), (0x08, c.linesOk), (0x09, c.quantOk),
    (0x0A, c.ports.all fun p => p.resolved params % 64 == 0), (0x0B, c.notifyOk params b), (0x0C, c.arcsOk)]
  (checks.find? fun x => !x.2).map (·.1)

end Sys2Proof.Machine
end

