-- ==== Sys2Proof/Machine/Num.lean ====
section
/-!
DEFINITION. Machine/Num.lean: numbers as the formats of chapter 02 denote them, exact arithmetic on them, and the
roundings of R44, R57 and R58.
-/
namespace Sys2Proof.Machine

/-- What a floating code denotes: NaN, an infinity, or (-1)^neg × m × 2^e; m = 0 is a signed zero. -/
inductive XR where
  | nan
  | inf (neg : Bool)
  | fin (neg : Bool) (m : Nat) (e : Int)
  deriving DecidableEq, Repr

/-- What the all-ones exponent of a format holds (R41, R45). -/
inductive Special where
  | ieee   -- infinities and NaNs
  | e4m3   -- one NaN of each sign
  | none   -- finite values
  deriving DecidableEq, Repr

/-- A binary format (R41, R45). -/
structure FFmt where
  ebits : Nat
  mbits : Nat
  bias : Nat
  special : Special
  deriving DecidableEq, Repr

def FP64 : FFmt := ⟨11, 52, 1023, .ieee⟩
def FP32 : FFmt := ⟨8, 23, 127, .ieee⟩
def FP16 : FFmt := ⟨5, 10, 15, .ieee⟩
def BF16 : FFmt := ⟨8, 7, 127, .ieee⟩
def E4M3 : FFmt := ⟨4, 3, 7, .e4m3⟩
def E5M2 : FFmt := ⟨5, 2, 15, .ieee⟩
def E3M2 : FFmt := ⟨3, 2, 3, .none⟩
def E2M3 : FFmt := ⟨2, 3, 1, .none⟩
def E2M1 : FFmt := ⟨2, 1, 1, .none⟩

def FFmt.width (f : FFmt) : Nat := 1 + f.ebits + f.mbits
def FFmt.signBit (f : FFmt) : Nat := 2 ^ (f.ebits + f.mbits)
/-- Code of the largest finite magnitude (R41, R45). -/
def FFmt.maxCode (f : FFmt) : Nat :=
  match f.special with
  | .ieee => (2 ^ f.ebits - 1) * 2 ^ f.mbits - 1
  | .e4m3 => 2 ^ (f.ebits + f.mbits) - 2
  | .none => 2 ^ (f.ebits + f.mbits) - 1
/-- The canonical NaN (R42); formats without NaN give code zero (R57). -/
def FFmt.nan (f : FFmt) : Nat :=
  match f.special with
  | .ieee => (2 ^ f.ebits - 1) * 2 ^ f.mbits + 2 ^ (f.mbits - 1)
  | .e4m3 => 2 ^ (f.ebits + f.mbits) - 1
  | .none => 0
/-- The infinity's magnitude code of an IEEE format. -/
def FFmt.inf (f : FFmt) : Nat := (2 ^ f.ebits - 1) * 2 ^ f.mbits
/-- Exponent of the smallest normal. -/
def FFmt.emin (f : FFmt) : Int := 1 - (f.bias : Int)

/-- The value of a code (R41, R45). -/
def FFmt.decode (f : FFmt) (x : Nat) : XR :=
  let neg := x / f.signBit % 2 == 1
  let ex := x / 2 ^ f.mbits % 2 ^ f.ebits
  let fr := x % 2 ^ f.mbits
  if f.special == .ieee ∧ ex = 2 ^ f.ebits - 1 then (if fr = 0 then .inf neg else .nan)
  else if f.special == .e4m3 ∧ x % f.signBit = f.signBit - 1 then .nan
  else if ex = 0 then .fin neg fr (f.emin - f.mbits)
  else .fin neg (2 ^ f.mbits + fr) ((ex : Int) - f.bias - f.mbits)

/-- Rounding modes that R25 names (DYN has been resolved). -/
inductive Mode where
  | rne | rtz | rd | ru | rna
  deriving DecidableEq, Repr

/-- The magnitude m / 2^d rounded to an integer (R25). -/
def roundShift (rm : Mode) (neg : Bool) (m d0 : Nat) : Nat :=
  let d := min d0 (Nat.log2 m + 3)
  let q := m / 2 ^ d
  let r := m % 2 ^ d
  let half := 2 ^ d / 2
  let up := match rm with
    | .rne => decide (half < r) || (r == half && r != 0 && q % 2 == 1)
    | .rna => decide (half ≤ r) && r != 0
    | .rtz => false
    | .rd => neg && r != 0
    | .ru => !neg && r != 0
  if up then q + 1 else q

/-- m × 2^e rounded to a multiple of 2^q, as that multiple. -/
def roundAt (rm : Mode) (neg : Bool) (m : Nat) (e q : Int) : Nat :=
  if q ≤ e then m * 2 ^ (e - q).toNat else roundShift rm neg m (q - e).toNat

/-- The first rounding of R44 and R57: to the format's precision with unbounded exponent; the exponent of the leading
bit and the significand of mbits + 1 bits. -/
def FFmt.round1 (f : FFmt) (rm : Mode) (neg : Bool) (m : Nat) (e : Int) : Int × Nat :=
  let lead := (Nat.log2 m : Int) + e
  let k := roundAt rm neg m e (lead - f.mbits)
  if k = 2 ^ (f.mbits + 1) then (lead + 1, 2 ^ f.mbits) else (lead, k)

/-- Where R44 gives an infinity for an overflow in this mode (else the largest finite value). -/
def overflowsToInf (rm : Mode) (neg : Bool) : Bool :=
  match rm with
  | .rne => true
  | .rna => true
  | .rtz => false
  | .rd => neg
  | .ru => !neg

/-- The code that stands for an infinity (R44, R57). -/
def FFmt.infCode (f : FFmt) (sat : Bool) : Nat :=
  match f.special with
  | .ieee => if sat then f.maxCode else f.inf
  | .e4m3 => if sat then f.maxCode else f.nan
  | .none => f.maxCode

/-- The code of a value under R44 (IEEE formats) or R57 (narrow formats; FTZ does not apply to them). -/
def FFmt.encode (f : FFmt) (rm : Mode) (sat ftz : Bool) (x : XR) : Nat :=
  match x with
  | .nan => f.nan
  | .inf neg => if f.special == .e4m3 ∧ !sat then f.nan else (if neg then f.signBit else 0) + f.infCode sat
  | .fin neg m e =>
    let sgn := if neg then f.signBit else 0
    if m = 0 then sgn
    else
      let (lead, k) := f.round1 rm neg m e
      if lead < f.emin then
        if ftz then sgn else sgn + roundAt rm neg m e (f.emin - f.mbits)
      else
        let code := (lead + f.bias).toNat * 2 ^ f.mbits + (k - 2 ^ f.mbits)
        if f.maxCode < code then
          if overflowsToInf rm neg then
            (if f.special == .e4m3 ∧ !sat then f.nan else sgn + f.infCode sat)
          else sgn + f.maxCode
        else sgn + code

/-- A subnormal or zero code reads as a zero of its sign (FTZ, R27). -/
def FFmt.flush (f : FFmt) (x : Nat) : Nat :=
  if x / 2 ^ f.mbits % 2 ^ f.ebits = 0 then x / f.signBit % 2 * f.signBit else x

/-- A source operand under FTZ or without (R27). -/
def FFmt.read (f : FFmt) (ftz : Bool) (x : Nat) : XR := f.decode (if ftz then f.flush x else x)

/-! ### Exact arithmetic -/

def XR.zero : XR := .fin false 0 0
def XR.ofInt (i : Int) : XR := .fin (decide (i < 0)) i.natAbs 0
def XR.isNan : XR → Bool
  | .nan => true
  | _ => false
def XR.isFin : XR → Bool
  | .fin _ _ _ => true
  | _ => false
def XR.isZero : XR → Bool
  | .fin _ 0 _ => true
  | _ => false
def XR.negate : XR → XR
  | .nan => .nan
  | .inf n => .inf (!n)
  | .fin n m e => .fin (!n) m e
def XR.abs : XR → XR
  | .nan => .nan
  | .inf _ => .inf false
  | .fin _ m e => .fin false m e
def XR.sign : XR → Bool
  | .nan => false
  | .inf n => n
  | .fin n _ _ => n

/-- m × 2^e with sign, in units of 2^q, q ≤ e. -/
def scaled (neg : Bool) (m : Nat) (e q : Int) : Int :=
  let k : Int := (m * 2 ^ (e - q).toNat : Nat)
  if neg then -k else k

/-- The exact sum; an exact zero takes its sign as IEEE 754-2019 has it for the mode (R44). -/
def XR.add (rm : Mode) (x y : XR) : XR :=
  match x, y with
  | .nan, _ => .nan
  | _, .nan => .nan
  | .inf a, .inf b => if a == b then .inf a else .nan
  | .inf a, _ => .inf a
  | _, .inf b => .inf b
  | .fin a m e, .fin b n f =>
    if m = 0 ∧ n = 0 then .fin (if a == b then a else rm == .rd) 0 0
    else
      let q := min e f
      let t := scaled a m e q + scaled b n f q
      if t = 0 then .fin (rm == .rd) 0 0 else .fin (decide (t < 0)) t.natAbs q

def XR.mul (x y : XR) : XR :=
  match x, y with
  | .nan, _ => .nan
  | _, .nan => .nan
  | .inf a, .inf b => .inf (a != b)
  | .inf a, .fin b n _ => if n = 0 then .nan else .inf (a != b)
  | .fin a m _, .inf b => if m = 0 then .nan else .inf (a != b)
  | .fin a m e, .fin b n f => .fin (a != b) (m * n) (e + f)

/-- The quotient to at least 70 significant bits, the last bit holding whether anything is left: every rounding of it to
at most 64 bits is the rounding of the exact quotient. -/
def XR.div (x y : XR) : XR :=
  match x, y with
  | .nan, _ => .nan
  | _, .nan => .nan
  | .inf _, .inf _ => .nan
  | .inf a, .fin b _ _ => .inf (a != b)
  | .fin a _ _, .inf b => .fin (a != b) 0 0
  | .fin a m e, .fin b n f =>
    if n = 0 then (if m = 0 then .nan else .inf (a != b))
    else if m = 0 then .fin (a != b) 0 0
    else
      let k := 72 + Nat.log2 n + 1 - min (Nat.log2 m) 60
      let q := m * 2 ^ k / n
      let r := m * 2 ^ k % n
      .fin (a != b) (2 * q + (if r = 0 then 0 else 1)) (e - f - k - 1)

/-- floor(sqrt n), by bits from 2^k down. -/
def isqrtGo (n : Nat) : Nat → Nat → Nat
  | 0, r => r
  | k + 1, r => let t := r + 2 ^ k; isqrtGo n k (if t * t ≤ n then t else r)
def isqrt (n : Nat) : Nat := isqrtGo n (Nat.log2 n / 2 + 1) 0

/-- The square root, as precisely as `XR.div`; NaN for a negative number. -/
def XR.sqrt (x : XR) : XR :=
  match x with
  | .nan => .nan
  | .inf n => if n then .nan else .inf false
  | .fin n m e =>
    if m = 0 then .fin n 0 0
    else if n then .nan
    else
      let m1 := if e % 2 = 0 then m else 2 * m
      let e1 := if e % 2 = 0 then e else e - 1
      let r := isqrt (m1 * 2 ^ 160)
      .fin false (2 * r + (if r * r = m1 * 2 ^ 160 then 0 else 1)) (e1 / 2 - 81)

/-- x × 2^k. -/
def XR.scale (x : XR) (k : Int) : XR :=
  match x with
  | .fin n m e => .fin n m (e + k)
  | y => y

/-- Compare two values that are not NaN; zeros are equal. -/
def XR.cmp (x y : XR) : Ordering :=
  match x, y with
  | .inf a, .inf b => if a == b then .eq else if a then .lt else .gt
  | .inf a, _ => if a then .lt else .gt
  | _, .inf b => if b then .gt else .lt
  | .fin a m e, .fin b n f => compare (scaled a m e (min e f)) (scaled b n f (min e f))
  | _, _ => .eq

def XR.lt (x y : XR) : Bool := !x.isNan && !y.isNan && x.cmp y == .lt
def XR.eq (x y : XR) : Bool := !x.isNan && !y.isNan && x.cmp y == .eq
def XR.le (x y : XR) : Bool := x.lt y || x.eq y

/-- Order with -0 below +0 (R114, R186). -/
def XR.ltZ (x y : XR) : Bool := x.lt y || (x.isZero && y.isZero && x.sign && !y.sign)

/-- The larger and the smaller under that order: a number wins over a NaN (R114, R186). -/
def XR.max2 (x y : XR) : XR := if x.isNan then y else if y.isNan then x else if x.ltZ y then y else x
def XR.min2 (x y : XR) : XR := if x.isNan then y else if y.isNan then x else if y.ltZ x then y else x

/-- A finite value rounded to an integer (R58, R189). -/
def roundInt (rm : Mode) (neg : Bool) (m : Nat) (e : Int) : Int :=
  let k : Int := (roundAt rm neg m e 0 : Nat)
  if neg then -k else k

/-- Conversion into an integer format with the range [lo, hi] (R58). -/
def XR.toInt (rm : Mode) (lo hi : Int) (x : XR) : Int :=
  match x with
  | .nan => 0
  | .inf n => if n then lo else hi
  | .fin n m e => max lo (min hi (roundInt rm n m e))

/-- floor(log2 m × 2^e) of a positive value (R50). -/
def floorLog2 (m : Nat) (e : Int) : Int := (Nat.log2 m : Int) + e

end Sys2Proof.Machine
end

