-- ==== Sys2Proof/Machine/Formats.lean ====
section
/-!
DEFINITION. Machine/Formats.lean: matrix format codes (R55), packed elements (R47), conversion into a format (R56 to R58),
block scales (R49, R50), Q4N (R51) and TERN2 (R52).
-/
namespace Sys2Proof.Machine

/-- Bits of an element of a format code (R55). -/
def fmtBits (c : Nat) : Nat :=
  match c with
  | 0 => 64 | 1 => 32 | 2 => 64 | 3 => 16 | 4 => 16 | 5 => 8 | 6 => 8 | 7 => 6 | 8 => 6 | 9 => 4
  | 10 => 8 | 11 => 8 | 12 => 4 | 13 => 4 | 14 => 4 | _ => 2

/-- The floating format behind a code. -/
def fmtFloat (c : Nat) : Option FFmt :=
  match c with
  | 0 => some FP64 | 1 => some FP32 | 3 => some BF16 | 4 => some FP16 | 5 => some E4M3 | 6 => some E5M2
  | 7 => some E3M2 | 8 => some E2M3 | 9 => some E2M1 | _ => none

/-- Signedness of an integer code. -/
def fmtInt (c : Nat) : Option Bool :=
  match c with
  | 10 => some true | 11 => some false | 12 => some true | 13 => some false | _ => none

/-- FTZ applies to the format (R46). -/
def fmtFlushes (c : Nat) : Bool := c == 0 || c == 1 || c == 3 || c == 4

/-- 256 times the codebook value (R51). -/
def q4nCode (q : Nat) : Int :=
  match q with
  | 0 => -256 | 1 => -178 | 2 => -134 | 3 => -101 | 4 => -74 | 5 => -49 | 6 => -25 | 7 => 0
  | 8 => 22 | 9 => 44 | 10 => 67 | 11 => 92 | 12 => 121 | 13 => 156 | 14 => 200 | _ => 256

/-- The value of a code before any scale (R45, R48, R51, R52); FTZ on a source (R27). -/
def fmtValue (c : Nat) (ftz : Bool) (x : Nat) : XR :=
  match fmtFloat c with
  | some f => f.read (ftz && fmtFlushes c) x
  | none =>
    match fmtInt c with
    | some sg => XR.ofInt (if sg then signedOf (fmtBits c) x else (x : Int))
    | none =>
      if c = 14 then (XR.ofInt (q4nCode x)).scale (-8)
      else match x with | 1 => XR.ofInt 1 | 2 => XR.ofInt (-1) | _ => XR.zero

/-- Conversion of a value into a floating or integer format (R44, R56 to R58). -/
def fmtEncode (c : Nat) (rm : Mode) (sat ftz : Bool) (x : XR) : Nat :=
  match fmtFloat c with
  | some f => f.encode rm sat (ftz && fmtFlushes c) x
  | none =>
    match fmtInt c with
    | some sg =>
      let w := fmtBits c
      intCodeOf w (x.toInt rm (if sg then -(2 ^ (w - 1)) else 0) (if sg then 2 ^ (w - 1) - 1 else 2 ^ w - 1))
    | none => 0
where
  intCodeOf (w : Nat) (x : Int) : Nat := (x % 2 ^ w).toNat

/-- The low bits of an integer value (R59 without SAT). -/
def fmtWrap (c : Nat) (x : XR) : Nat := (x.toInt .rne (-(2 ^ 64)) (2 ^ 64) % 2 ^ fmtBits c).toNat

/-- A NaN converted into a format without NaN is counted (R57). -/
def fmtCounts (c : Nat) (x : XR) : Bool := x.isNan && (c == 7 || c == 8 || c == 9)

/-! ### Block scales -/

/-- E8M0 (R49). -/
def e8m0 (x : Nat) : XR := if x = 255 then .nan else .fin false 1 ((x : Int) - 127)

/-- An element under an MX scale (R50). -/
def mxValue (c x scale : Nat) : XR :=
  let v := fmtValue c false x
  (if c = 10 then v.scale (-6) else v).mul (e8m0 scale)

/-- emax of a format (R50). -/
def mxEmax (c : Nat) : Int := match c with | 5 => 8 | 6 => 15 | 7 => 4 | 8 => 2 | 9 => 2 | _ => 0

/-- The largest magnitude of some finite numbers. -/
def maxAbs (xs : List XR) : XR := xs.foldl (fun a x => if a.lt x.abs then x.abs else a) XR.zero

/-- A value quantised by 2^e into an MX element (R50). -/
def mxCode (c : Nat) (e : Int) (x : XR) : Nat :=
  let y := x.scale (-e)
  fmtEncode c .rne true false (if c = 10 then y.scale 6 else y)

/-- The scale code of a block and the exponent of its quotients; none: X = 0xFF or amax = 0, every code 0 (R50). -/
def mxScale (c : Nat) (xs : List XR) : Nat × Option Int :=
  if xs.any fun x => !x.isFin then (255, none)
  else match maxAbs xs with
    | .fin _ m e =>
      if m = 0 then (127, none)
      else
        let k := min (max (floorLog2 m e - mxEmax c) (-127)) 127
        ((k + 127).toNat, some k)
    | _ => (255, none)

/-- The codes of a block, in order, with its scale (R50). -/
def mxQuantise (c : Nat) (xs : List XR) : Nat × List Nat :=
  let s := mxScale c xs
  (s.1, xs.map fun x => match s.2 with | some e => mxCode c e x | none => 0)

/-! ### Q4N -/

/-- S × (b + 1) / 256 (R51). -/
def q4nScale (s : XR) (b : Nat) : XR := (s.mul (XR.ofInt (b + 1))).scale (-8)

/-- An element of Q4N (R51). -/
def q4nValue (q : Nat) (s : XR) (b : Nat) : XR :=
  match s with
  | .fin _ _ _ => (fmtValue 14 false q).mul (q4nScale s b)
  | _ => .nan

/-- b of a block whose largest magnitude is a, under S ≠ 0 (R51). -/
def q4nBlock (s a : XR) : Nat :=
  match s, a with
  | .fin sn sm se, .fin _ am ae =>
    let n : Nat := 256 * am * 2 ^ (ae - se).toNat
    let d : Nat := sm * 2 ^ (se - ae).toNat
    if sn || am = 0 then 0 else min 255 ((n + d - 1) / d - 1)
  | _, _ => 0

/-- The nearest code: a tie goes to the even code (R51). -/
def q4nCodeOf (s : XR) (b : Nat) (x : XR) : Nat :=
  let dist := fun q => (x.add .rne (q4nValue q s b).negate).abs
  (List.range 15).foldl (fun best i =>
    let q := i + 1
    if (dist q).lt (dist best) then q
    else if (dist q).eq (dist best) && q % 2 == 0 then q else best) 0

end Sys2Proof.Machine
end

