-- ==== Sys2Proof/Machine/Phys.lean ====
section
/-!
DEFINITION. Machine/Phys.lean: physical addresses (R248, R249), page tables (R243 to R247), the checks on an access
(R252), and reading and writing the bytes behind a place with what the manual makes visible of the caches (R250,
R267, R288).
-/
namespace Sys2Proof.Machine

/-! ### Physical addresses -/

/-- Windows of the physical map (R248). -/
inductive Win where
  | local | striped | host | peer | reserved
  deriving DecidableEq, Repr

def winOf (pa : Nat) : Win :=
  if pa < 0xC0 * 2 ^ 32 then .local
  else if pa < 0x100 * 2 ^ 32 then .reserved
  else if pa < 0x1C0 * 2 ^ 32 then .striped
  else if pa < 0x400 * 2 ^ 32 then .reserved
  else if pa < 0x800 * 2 ^ 32 then .host
  else if pa < 0x1000 * 2 ^ 32 then .peer
  else .reserved

/-- The DRAM byte behind a PA of an HBM window, as its stack-local address (R249). DESIGN CHOICE (log entry 65): a byte that is
mapped through both views, whose results R249 leaves undefined, is one coherent byte. -/
def hbmOf (pa : Nat) : Option Nat :=
  match winOf pa with
  | .local => some pa
  | .striped =>
    let so := pa - 0x100 * 2 ^ 32
    some (so / 4096 % 12 * 2 ^ 36 + so / 4096 / 12 * 4096 + so % 4096)
  | _ => none

def stackOf (hbm : Nat) : Nat := hbm / 2 ^ 36
/-- The pseudo-channel of a DRAM byte in its stack (R249). -/
def chanOf (hbm : Nat) : Nat := hbm / 512 % 64
/-- The home slice of a physical address (R250). -/
def homeOf (pa : Nat) : Nat :=
  (List.range 7).foldl (fun acc k => acc ^^^ (pa / 2 ^ (7 + 6 * k) % 64)) 0

/-! ### Page tables -/

/-- A well-formed leaf entry (R246): the page's first virtual address and size, the entry's place and bits. -/
structure Leaf where
  va : Nat
  size : Nat
  entry : Nat
  res : Bool
  cmp : Bool
  r : Bool
  w : Bool
  x : Bool
  sync : Bool
  /-- PA of a resident page, backing-descriptor index of a non-resident one -/
  addr : Nat
  deriving DecidableEq, Repr

/-- Whether a leaf entry's address is in order for its size (R247). -/
def leafAddrOk (e addr size : Nat) (res sync : Bool) : Bool :=
  if res then
    e / 2 ^ 44 % 2 ^ 12 == 0 && addr % size == 0 && winOf addr != .reserved && winOf addr == winOf (addr + size - 1)
      && (!sync || (size == 2 ^ 18 && (hbmOf addr).isSome))
  else !sync || size == 2 ^ 18

/-- A walk from a table (R244) over the index shifts of the levels left; none: an entry with V = 0 or malformed. -/
def walkFrom (hbm : Mem) (va : Nat) : List Nat → Nat → Option Leaf
  | [], _ => none
  | sh :: rest, table =>
    match hbmOf table with
    | none => none
    | some t =>
      let at_ := t + 8 * (va / 2 ^ sh % 512)
      let e := natOfBytes (Mem.readN hbm at_ 8)
      let leaf := e / 2 % 2 == 1
      let res := e / 4 % 2 == 1
      let sync := e / 128 % 2 == 1
      if e % 2 = 0 ∨ e / 256 % 16 ≠ 0 ∨ e / 2 ^ 56 ≠ 0 then none
      else if leaf then
        let size := 2 ^ sh
        let addr := if res then e / 2 ^ 12 % 2 ^ 32 * 4096 else e / 2 ^ 12 % 2 ^ 44
        if sh = 45 ∨ !leafAddrOk e addr size res sync then none
        else some { va := va / size * size, size := size, entry := at_, res := res, cmp := e / 8 % 2 == 1,
                    r := e / 16 % 2 == 1, w := e / 32 % 2 == 1, x := e / 64 % 2 == 1, sync := sync, addr := addr }
      else if sh = 18 ∨ !res ∨ e / 2 ^ 44 % 2 ^ 12 ≠ 0 then none
      else walkFrom hbm va rest (e / 2 ^ 12 % 2 ^ 32 * 4096)

/-- Index shifts of levels 0 to 3 (R244). -/
def levels : List Nat := [45, 36, 27, 18]

/-- The leaf that maps a virtual address of a context (R243, R244); none: PAGE under R247. -/
def State.walk (s : State) (ctx va : Nat) : Option Leaf := walkFrom s.hbm va levels (s.regN ctx rTROOT)

/-- The leaf entries with V set that map a range, from a table on (R244): their addresses, with the leaf, none where it is
malformed. -/
def entriesIn (hbm : Mem) (lo hi : Nat) : List Nat → Nat → Nat → List (Nat × Option Leaf)
  | [], _, _ => []
  | sh :: rest, table, va =>
    match hbmOf table with
    | none => []
    | some t => (List.range 512).flatMap fun i =>
      let a := va + i * 2 ^ sh
      if hi ≤ a ∨ a + 2 ^ sh ≤ lo then []
      else
        let e := natOfBytes (Mem.readN hbm (t + 8 * i) 8)
        if e % 2 = 0 then []
        else if e / 2 % 2 = 1 ∨ sh = 18 then [(t + 8 * i, walkFrom hbm a (sh :: rest) table)]
        else entriesIn hbm lo hi rest (e / 2 ^ 12 % 2 ^ 32 * 4096) a

/-- The leaf entries of a range of a context. -/
def State.entriesOf (s : State) (ctx va len : Nat) : List (Nat × Option Leaf) :=
  if len = 0 then [] else entriesIn s.hbm va (va + len) levels (s.regN ctx rTROOT) 0

/-- The leaves of a range that are not malformed. -/
def State.leavesIn (s : State) (ctx va len : Nat) : List Leaf := (s.entriesOf ctx va len).filterMap (·.2)

/-- The place behind a PA for a context (R248, R430, R435); none where a peer window is invalid. -/
def State.placeOf (s : State) (ctx pa : Nat) : Option Place :=
  match winOf pa with
  | .host => some (.host (((s.func (s.ctx ctx).owner).haoff.toNat + (pa - 0x400 * 2 ^ 32)) % 2 ^ 64))
  | .peer =>
    let w := (AMap.getD (s.ctx ctx).windows (pa / 2 ^ 35 % 256) 0).toNat
    if w / 2 ^ 63 = 1 then
      some (.peer (bitsOf w 7 0) (bitsOf w 17 8) (bitsOf w 36 18 * 2 ^ 35 + pa % 2 ^ 35))
    else none
  | .reserved => none
  | _ => (hbmOf pa).map .hbm

/-! ### Checks on an access (R252) -/

/-- What an access needs: the entry's permissions, alignment, and what the manual excludes for its kind. -/
structure Need where
  r : Bool := false
  w : Bool := false
  x : Bool := false
  /-- ACCESS on a SYNC page (engines: R251, R312, R326, R404) -/
  noSync : Bool := false
  /-- ACCESS on the host aperture (R248, R291), on the peer aperture (R435) -/
  noHost : Bool := false
  noPeer : Bool := false
  deriving DecidableEq, Repr

/-- One access to check: lane, address, bytes. -/
structure Want where
  lane : Nat
  va : Word64
  size : Nat
  deriving DecidableEq, Repr

/-- What the checks of R252 answer. -/
inductive Reach where
  | fail (t : Trap)
  /-- non-resident pages touched, and the lowest address on one -/
  | absent (pages : List Leaf) (va : Nat)
  | ok (places : List Place)
  deriving DecidableEq, Repr

/-- Every byte of an access has bits [63:54] zero (R243). -/
def vaOk (va size : Nat) : Bool := decide (va + size ≤ 2 ^ 54)

/-- The permission bits allow the access (R246). -/
def Need.perm (n : Need) (l : Leaf) : Bool :=
  (!n.r || l.r) && (!n.w || l.w) && (!n.x || l.x)

/-- R248, R435: the page's window suits the kind of access. -/
def Need.windowOk (n : Need) (l : Leaf) : Bool :=
  if !l.res then true
  else match winOf l.addr with
    | .host => !n.noHost
    | .peer => !n.noPeer
    | _ => true

/-- The first access that breaks p, as a fault of the cause at its address. -/
def firstBad (ws : List Want) (cause : Nat) (p : Want → Bool) : Option Trap :=
  match ws.find? fun w => !p w with
  | some w => some ⟨cause, w.va, none⟩
  | none => none

/-- The checks of R252 from step 2 on, over every access, one step after the other; `cell` is the check of R275 on the
page, made within step 5. -/
def State.reach (s : State) (ctx : Nat) (n : Need) (cell : Leaf → Bool) (ws : List Want) : Reach :=
  let leafOf := fun w : Want => s.walk ctx w.va.toNat
  let onLeaf := fun (p : Leaf → Bool) (w : Want) => match leafOf w with | some l => p l | none => true
  match firstBad ws cMISALIGN fun w => w.va.toNat % w.size == 0 with
  | some t => .fail t
  | none =>
  match firstBad ws cACCESS fun w => vaOk w.va.toNat w.size with
  | some t => .fail t
  | none =>
  match firstBad ws cPAGE fun w => (leafOf w).isSome with
  | some t => .fail t
  | none =>
  match firstBad ws cACCESS (onLeaf n.perm) with
  | some t => .fail t
  | none =>
  match firstBad ws cACCESS (onLeaf fun l => !(n.noSync && l.sync)) with
  | some t => .fail t
  | none =>
  match firstBad ws cCLASP (onLeaf cell) with
  | some t => .fail t
  | none =>
  match firstBad ws cACCESS (onLeaf n.windowOk) with
  | some t => .fail t
  | none =>
  let away := ws.filter fun w => match leafOf w with | some l => !l.res | none => false
  match away with
  | w0 :: r =>
    let low := r.foldl (fun a w => min a w.va.toNat) w0.va.toNat
    let pages := (away.filterMap leafOf).foldl (fun acc l => if acc.any fun m => m.va == l.va then acc else acc ++ [l]) []
    .absent pages low
  | [] =>
  match firstBad ws cACCESS fun w =>
      match leafOf w with
      | some l => (s.placeOf ctx (l.addr + w.va.toNat % l.size)).isSome
      | none => false with
  | some t => .fail t
  | none =>
    .ok (ws.map fun w => match leafOf w with
      | some l => (s.placeOf ctx (l.addr + w.va.toNat % l.size)).getD (.hbm 0)
      | none => .hbm 0)

/-- Requests start in arrival order while fewer than 64 fills are in progress (R255). -/
def startFills (l : List Fill) : List Fill :=
  (l.foldl (fun (a : Nat × List Fill) f =>
    if f.started || decide (64 ≤ a.1) then (a.1, a.2 ++ [f]) else (a.1 + 1, a.2 ++ [{ f with started := true }]))
    ((l.filter (·.started)).length, [])).2

/-- Ask the paging engine for a page (R255): a request joins a fill of the page that is asked for already; up to 64
fills are in progress. -/
def State.askFill (s : State) (ctx : Nat) (l : Leaf) : State :=
  if s.fills.any fun f => f.ctx == ctx && f.va == l.va then s
  else { s with fills := startFills (s.fills ++ [⟨ctx, l.va, l.size, l.entry, false, []⟩]) }

def State.askFills (s : State) (ctx : Nat) (ls : List Leaf) : State := ls.foldl (fun a l => a.askFill ctx l) s

/-! ### Bytes -/

/-- l, strictly rising, with x. -/
def insertNat (l : List Nat) (x : Nat) : List Nat :=
  match l with
  | [] => [x]
  | y :: r => if x < y then x :: y :: r else if x = y then y :: r else y :: insertNat r x

/-- The line numbers (address / 128) of a range. -/
def linesOf (a n : Nat) : List Nat :=
  if n = 0 then [] else (List.range ((a + n - 1) / 128 - a / 128 + 1)).map fun i => a / 128 + i

/-- The central die holds copies of the lines of a range (R250). -/
def State.hold (s : State) (a n : Nat) : State :=
  { s with l2 := { s.l2 with held := (linesOf a n).foldl insertNat s.l2.held } }

/-- Bytes of HBM as an access of the central die reads them at the home slices: a byte of a line held from before a
DRAM write of an array is unspecified (R288). -/
def State.loadHbm (s : State) (a n : Nat) : List Byte × State :=
  let bs := (List.range n).map fun i =>
    if s.l2.stale.contains ((a + i) / 128) then Config.freeByte (s.free + i) else Mem.read s.hbm (a + i)
  let free := if (linesOf a n).any s.l2.stale.contains then s.free + n else s.free
  (bs, { s.hold a n with free := free })

/-- DRAM's old bytes under a write (R267): kept until the line is written back. -/
def keepOld (hbm : Mem) (old : AMap Byte) (a : Nat) : Nat → AMap Byte
  | 0 => old
  | n + 1 => match AMap.get? old a with
    | some _ => keepOld hbm old (a + 1) n
    | none => keepOld hbm (AMap.set old a (Mem.read hbm a)) (a + 1) n

/-- A write of the central die, performed at the home slices (R270). -/
def State.storeHbm (s : State) (a : Nat) (bs : List Byte) : State :=
  let l2 := { s.l2 with old := keepOld s.hbm s.l2.old a bs.length }
  { s with hbm := Mem.writeN s.hbm a bs, l2 := l2 }.hold a bs.length

/-- Bytes of DRAM as a base-die array reads them: a byte that L2 has not written back is unspecified (R288). -/
def State.loadDram (s : State) (a n : Nat) : List Byte × State :=
  let bs := (List.range n).map fun i =>
    match AMap.get? s.l2.old (a + i) with
    | some _ => Config.freeByte (s.free + i)
    | none => Mem.read s.hbm (a + i)
  let free := if (List.range n).any fun i => (AMap.get? s.l2.old (a + i)).isSome then s.free + n else s.free
  (bs, { s with free := free })

/-- A DRAM write of an array: copies that the central die holds of the lines become stale (R288). -/
def State.storeDram (s : State) (a : Nat) (bs : List Byte) : State :=
  let hit := (linesOf a bs.length).filter s.l2.held.contains
  { s with hbm := Mem.writeN s.hbm a bs, l2 := { s.l2 with stale := hit.foldl insertNat s.l2.stale } }

/-- A line number lies in the lines of a range. -/
def inLines (a n line : Nat) : Bool := decide (0 < n) && decide (a / 128 ≤ line) && decide (line ≤ (a + n - 1) / 128)

/-- Write back the lines of a range of HBM (R267, CFLUSH). -/
def State.flushHbm (s : State) (a n : Nat) : State :=
  { s with l2 := { s.l2 with old := s.l2.old.filter fun p => !inLines a n (p.1 / 128) } }

/-- Drop one line without writeback (R267, CINV). Bytes not written back are lost, unless the line had left L2 before:
which of the two holds is not known. -/
def State.dropLine (s : State) (line : Nat) : State :=
  let mine := s.l2.old.filter fun p => p.1 / 128 == line
  let l2 := { old := s.l2.old.filter fun p => p.1 / 128 != line, held := s.l2.held.filter (· != line),
              stale := s.l2.stale.filter (· != line), half := s.l2.half : L2 }
  if mine.isEmpty then { s with l2 := l2 }
  else
    let lost := (Config.freeByte s.free).getLsbD 0
    { s with l2 := l2, free := s.free + 1,
             hbm := if lost then mine.foldl (fun m p => Mem.write m p.1 p.2) s.hbm else s.hbm }

/-- Drop the lines of a range without writeback (R267). -/
def State.dropHbm (s : State) (a n : Nat) : State :=
  let ls := (s.l2.held ++ (AMap.keys s.l2.old).map (· / 128)).filter (inLines a n)
  (ls.foldl insertNat []).foldl State.dropLine s

/-- Write back and drop the lines for which p holds (R253). -/
def State.purgeLines (s : State) (p : Nat → Bool) : State :=
  { s with l2 := { old := s.l2.old.filter fun c => !p (c.1 / 128), held := s.l2.held.filter fun x => !p x,
                   stale := s.l2.stale.filter fun x => !p x, half := s.l2.half } }

/-- The PA of a DRAM byte in the striped view (R249). -/
def stripedOf (a : Nat) : Nat := 0x100 * 2 ^ 32 + (a % 2 ^ 36 / 4096 * 12 + a / 2 ^ 36) * 4096 + a % 4096

/-- The offset of a DRAM byte in the page frame at pa, when it lies in it. -/
def offsetIn (pa size a : Nat) : Option Nat :=
  let x := if winOf pa == .striped then stripedOf a else a
  if pa ≤ x ∧ x < pa + size then some (x - pa) else none

/-- The frame's bytes replaced whole (a fill, R255; a wipe, R434); `cells` holds the bytes by offset. -/
def State.setFrame (s : State) (pa size : Nat) (cells : Mem) : State :=
  let kept := s.hbm.filter fun c => (offsetIn pa size c.1).isNone
  let hbm := cells.foldl (fun m c => Mem.write m ((hbmOf (pa + c.1)).getD 0) c.2) kept
  { s with hbm := hbm }.purgeLines fun l => (offsetIn pa size (l * 128)).isSome

/-! ### Peers (R435) -/

def Place.isPeer : Place → Bool
  | .peer _ _ _ => true
  | _ => false

/-- Whether a peer device refuses what the step asks of it, where the step carries no answer: it cannot be told before the
device asks; a free choice of the step (log entry 3). -/
def State.peerRefuses (s : State) : Bool := (Config.freeWord (2 ^ 200 + s.tick)).getLsbD 0

/-- The answer of peers to an engine, where the step carries none. -/
def State.peerResp (s : State) : Resp := if s.peerRefuses then .refused else .ok []

/-- What an access through a window that names this device comes to (R435): the place in its own memory; a refusal; or a wait, for
pages of the target context or for an earlier request to the same bytes. Every other place is as it stands. -/
inductive Own where
  | here (p : Place)
  | refused
  | away (ctx : Nat) (pages : List Leaf)

/-- A request of this device to itself that is still on its way meets some bytes of a context. -/
def State.ownPending (s : State) (ctx va n : Nat) : Bool :=
  s.requests.any fun r => r.1 == Config.deviceNumber 0 && r.2.ctx == ctx && decide (va < r.2.va.toNat + r.2.size) && decide (r.2.va.toNat < va + n)

def State.own (s : State) (need : Need) (p : Place) (n : Nat) : Own :=
  match p with
  | .peer d c va =>
    if d ≠ Config.deviceNumber 0 then .here p
    else if (s.ctx c).st ≠ .active then .refused
    else match s.reach c need (fun _ => true) [⟨0, BitVec.ofNat 64 va, 1⟩] with
      | .ok [q] => if q.isPeer then .refused else if s.ownPending c va n then .away c [] else .here q
      | .absent pages _ => .away c pages
      | _ => .refused
  | _ => .here p

/-- What a memory operation needs of its page. -/
def MemOp.need : MemOp → Need
  | .read => { r := true }
  | .write _ => { w := true }
  | _ => { r := true, w := true, noHost := true }

/-- A place behind a window that names this device. -/
def Place.isOwn : Place → Bool
  | .peer d _ _ => decide (d = Config.deviceNumber 0)
  | _ => false

/-- Whether an access through a peer window is refused, as far as it can be told: of this device by its own check. -/
def State.refuses (s : State) (need : Need) (p : Place) (n : Nat) : Bool :=
  p.isPeer && (match s.own need p n with
    | .here _ => !p.isOwn && s.peerRefuses
    | .refused => true
    | .away _ _ => false)

/-- A request leaves for a peer. -/
def State.sendRequest (s : State) (dev ctx va n : Nat) (op : PeerOp) : State :=
  { s with requests := s.requests ++ [(dev, ⟨ctx, BitVec.ofNat 64 va, n, op⟩)] }

/-- The bytes at a place; what a peer answers is not the device's (R435), so it is given as `peer`. -/
def State.loadPlace (s : State) (p : Place) (n : Nat) (peer : Nat) : List Byte × State :=
  match p with
  | .hbm a => s.loadHbm a n
  | .host a => (Mem.readN s.host a n, s)
  | .peer _ _ _ => (bytesOfNat n peer, s)

/-- The same, where what another device answers is left open (R8). -/
def State.readPlace (s : State) (p : Place) (n : Nat) : List Byte × State :=
  match s.own { r := true } p n with
  | .here q => if q.isPeer then s.drawBytes n else s.loadPlace q n 0
  | _ => s.drawBytes n

/-- Bytes written at a place. A write to a peer leaves as a request; one that this device itself refuses changes nothing. -/
def State.storePlace (s : State) (p : Place) (bs : List Byte) : State :=
  let put := fun (p : Place) => match p with
    | .hbm a => s.storeHbm a bs
    | .host a => { s with host := Mem.writeN s.host a bs }
    | .peer dev ctx va => s.sendRequest dev ctx va bs.length (.write bs)
  match s.own { w := true } p bs.length with
  | .here q => put q
  | .refused => s
  | .away _ _ => put p

end Sys2Proof.Machine
end

