-- ==== Sys2Proof/Machine/Atomic.lean ====
section
/-!
DEFINITION. Machine/Atomic.lean: the operations of atomic instructions (R236), and performing one lane's access to
global memory (R264, R266, R270).
-/
namespace Sys2Proof.Machine

/-- The format of FADD on n bytes. -/
def atomFmt (n : Nat) : FFmt := if n = 4 then FP32 else FP64

/-- The new value of n bytes (R236). -/
def rmwNew (opc n : Nat) (signed : Bool) (old b x : Nat) : Nat :=
  let w := 8 * n
  let b := b % 2 ^ w
  let less := fun p q : Nat => if signed then decide (signedOf w p < signedOf w q) else decide (p < q)
  match opc with
  | 0 => (old + b) % 2 ^ w
  | 1 => if less b old then b else old
  | 2 => if less old b then b else old
  | 3 => old &&& b
  | 4 => old ||| b
  | 5 => old ^^^ b
  | 6 => b
  | 7 => if old = b then x % 2 ^ w else old
  | _ => let f := atomFmt n
    f.encode .rne false false ((f.decode old).add .rne (f.decode b))

/-- One lane's access is performed: the old value of its bytes (0 for a write) and the state. `peer` is what a peer
device answers; an atomic operation on its memory leaves as a request and is performed there (R435). -/
def State.performAt (s : State) (a : Access) (peer : Nat) : Nat × State :=
  match a.op, a.place with
  | .write bs, _ => (0, s.storePlace a.place bs)
  | .read, _ => let (bs, s) := s.loadPlace a.place a.size peer; (natOfBytes bs, s)
  | .rmw opc sg b, .peer dev ctx va => (peer, s.sendRequest dev ctx va a.size (.atomic (BitVec.ofNat 4 opc) sg b 0))
  | .cas b x, .peer dev ctx va => (peer, s.sendRequest dev ctx va a.size (.atomic 7 false b x))
  | .rmw opc sg b, _ =>
    let (bs, s) := s.loadPlace a.place a.size peer
    (natOfBytes bs, s.storePlace a.place (bytesOfNat a.size (rmwNew opc a.size sg (natOfBytes bs) b.toNat 0)))
  | .cas b x, _ =>
    let (bs, s) := s.loadPlace a.place a.size peer
    (natOfBytes bs, s.storePlace a.place (bytesOfNat a.size (rmwNew 7 a.size false (natOfBytes bs) b.toNat x.toNat)))

/-- The same through a window that names this device (R435): in its own memory. -/
def State.performAccess (s : State) (a : Access) (peer : Nat) : Nat × State :=
  match s.own a.op.need a.place a.size with
  | .here p => s.performAt { a with place := p } peer
  | .refused => (peer, s)
  | .away _ _ => s.performAt a peer

/-- Accesses through windows that name this device, with the places in its own memory. -/
inductive Owned where
  | ok (acc : List Access)
  | refused (a : Access)
  | away (s : State)

def State.owned? (s : State) : List Access → Owned
  | [] => .ok []
  | a :: l =>
    match if a.got.isSome then .here a.place else s.own a.op.need a.place a.size with
    | .refused => .refused a
    | .away c pages => .away (s.askFills c pages)
    | .here p => match s.owned? l with
      | .ok l => .ok ({ a with place := p } :: l)
      | x => x

/-- A store: it reads nothing. -/
def Access.isStore (a : Access) : Bool := match a.op with | .write _ => true | _ => false

/-! ### Soft errors (R262, R266) -/

/-- One more on a counter of the pseudo-channel behind a DRAM byte (R262). -/
def State.countChan (s : State) (a num : Nat) : State :=
  s.modStack (stackOf a) fun t => t.modChan (chanOf a) fun c =>
    { c with counters := AMap.set c.counters num (AMap.getD c.counters num 0 + 1) }

/-- An uncorrectable soft error behind a place is counted in ECCU (R262). -/
def State.countEcc (s : State) (p : Place) : State :=
  match p with
  | .hbm a => s.countChan a 0x1C
  | _ => s

/-- Bytes that a soft error has spoiled lie at a place. -/
def State.spoiled (s : State) (p : Place) (n : Nat) : Bool :=
  match p with
  | .hbm a => s.softErrs.any fun b => decide (64 * b < a + n) && decide (a < 64 * b + 64)
  | _ => false

/-- The same of bytes of a local space of a core: its blocks are numbered from 2^60 on. -/
def State.localSpoiled (s : State) (core space a n : Nat) : Bool :=
  let first := 2 ^ 60 + (4 * core + space) * 2 ^ 20
  s.softErrs.any fun b => decide (first + a / 64 ≤ b) && decide (b ≤ first + (a + n - 1) / 64)

/-- The old value that the access reads is spoiled: the location stays unchanged (R266). -/
def State.eccMeets (s : State) (a : Access) : Bool :=
  (match a.op with | .write _ => false | _ => true) && s.spoiled a.place a.size

/-- The same, where a soft error keeps the access from its effect: the location is unchanged and the error counted. -/
def State.performOrCount (s : State) (a : Access) (peer : Nat) : State :=
  if s.eccMeets a then s.countEcc a.place else (s.performAccess a peer).2

end Sys2Proof.Machine
end

