-- ==== Sys2Proof/Machine/Expander.lean ====
section
/-!
DEFINITION. Machine/Expander.lean: the expander of R317 to R319: frames, the LZ4 block format, byte planes.
-/
namespace Sys2Proof.Machine

/-- Length-extension bytes of a sequence: their sum and what follows; the run ends at the first byte below 255. -/
def lzExtend : List Byte → Option (Nat × List Byte)
  | [] => none
  | b :: r => if b = 255 then (lzExtend r).map fun p => (p.1 + 255, p.2) else some (b.toNat, r)

/-- A length from a nibble, with its extension when the nibble is 15. -/
def lzLength (nibble : Nat) (bs : List Byte) : Option (Nat × List Byte) :=
  if nibble = 15 then (lzExtend bs).map fun p => (p.1 + 15, p.2) else some (nibble, bs)

/-- n bytes of a match at the offset; `out` is the output so far, last byte first. -/
def lzCopy (out : List Byte) (off : Nat) : Nat → Option (List Byte)
  | 0 => some out
  | n + 1 =>
    match lzCopy out off n with
    | none => none
    | some o => if off = 0 then none else (o[off - 1]?).map fun b => b :: o

/-- One LZ4 block (R318): sequences until the body ends; none where it ends inside a sequence or an offset reaches
before the output. -/
def lzBlock (fuel : Nat) (inp out : List Byte) : Option (List Byte) :=
  match fuel with
  | 0 => none
  | fuel + 1 =>
    match inp with
    | [] => some out
    | tok :: r =>
      match lzLength (tok.toNat / 16) r with
      | none => none
      | some (n, r1) =>
        if r1.length < n then none else
        let out1 := (r1.take n).reverse ++ out
        match r1.drop n with
        | [] => some out1
        | [_] => none
        | o0 :: o1 :: r2 =>
          match lzLength (tok.toNat % 16) r2 with
          | none => none
          | some (m, r3) =>
            match lzCopy out1 (o0.toNat + 256 * o1.toNat) (m + 4) with
            | none => none
            | some out2 => lzBlock fuel r3 out2

/-- Byte planes back into element order (R319): out[i * w + p] := in[p * (U / w) + i]. -/
def regroup (w : Nat) (u : List Byte) : Option (List Byte) :=
  if w = 0 ∨ w = 1 then some u
  else if u.length % w ≠ 0 then none
  else some ((List.range u.length).map fun j => (u[j % w * (u.length / w) + j / w]?).getD 0)

/-- The element width of RG (R317). -/
def rgWidth (xform : Nat) : Option Nat :=
  if xform / 16 ≠ 0 then none
  else match xform / 2 % 8 with
    | 0 => some 1 | 1 => some 2 | 2 => some 4 | 3 => some 8 | _ => none

/-- 256 KiB, the unit of frames and of raw regrouping (R318, R319). -/
def frameUnit : Nat := 262144

/-- The decompressed image up to at least `need` bytes (R318, R319). `read off n` gives the n stream bytes at off, none
where they run past what is there. `image` is the image length; `at` and `done` the stream bytes and image bytes
passed. -/
def expandFrom (fuel : Nat) (read : Nat → Nat → Option (List Byte)) (lz : Bool) (w image need pos done : Nat) :
    Option (List Byte) :=
  match fuel with
  | 0 => none
  | fuel + 1 =>
    if need ≤ done ∨ image ≤ done then some [] else
    let u := min frameUnit (image - done)
    if lz then
      match read pos 4 with
      | none => none
      | some hd =>
        let h := natOfBytes hd
        let clen := h % 2 ^ 20
        if h / 2 ^ 21 ≠ 0 then none else
        match read (pos + 4) clen with
        | none => none
        | some body =>
          let out := if h / 2 ^ 20 % 2 = 1 then some body else (lzBlock (clen + 1) body []).map List.reverse
          match out with
          | none => none
          | some o =>
            if o.length ≠ u then none else
            match regroup w o with
            | none => none
            | some g => (expandFrom fuel read lz w image need (pos + 4 + clen) (done + u)).map fun r => g ++ r
    else
      match read pos u with
      | none => none
      | some o =>
        match regroup w o with
        | none => none
        | some g => (expandFrom fuel read lz w image need (pos + u) (done + u)).map fun r => g ++ r

/-- The image of an XFORM value (R317): none for a malformed stream. -/
def expand (read : Nat → Nat → Option (List Byte)) (xform image need : Nat) : Option (List Byte) :=
  match rgWidth xform with
  | none => none
  | some w => expandFrom (image / frameUnit + 2) read (xform % 2 == 1) w image need 0 0

end Sys2Proof.Machine
end

