-- ==== Sys2Proof/Machine/Paging.lean ====
section
/-!
DEFINITION. Machine/Paging.lean: backing descriptors and page fills (R254 to R256), and the device's accesses to the
areas that the driver names (R411).
-/
namespace Sys2Proof.Machine

/-- A backing descriptor (R254). -/
structure Backing where
  frame : Nat
  src : Nat
  kind : Nat
  xform : Nat
  srclen : Nat
  deriving DecidableEq, Repr

/-- A byte range lies in one window (R255, step 2). -/
def inWindow (w : Win) (pa n : Nat) : Bool := winOf pa == w && (n == 0 || winOf (pa + n - 1) == w)

/-- The descriptor in 64 bytes, for a leaf; none where it is malformed (R255, step 2). -/
def Backing.parse (bs : List Byte) (l : Leaf) : Option Backing :=
  let b : Backing := ⟨field bs 0 8, field bs 8 8, field bs 0x10 1, field bs 0x11 1, field bs 0x18 8⟩
  let lenOk := if l.cmp then decide (b.srclen ≤ l.size + l.size / 256) else b.srclen == l.size
  if field bs 0x12 6 == 0 && field bs 0x20 32 == 0 && decide (1 ≤ b.kind) && decide (b.kind ≤ 3)
    && (l.cmp || b.xform == 0)
    && b.frame % l.size == 0 && (hbmOf b.frame).isSome && winOf b.frame == winOf (b.frame + l.size - 1)
    && (b.kind == 3 || (lenOk && inWindow (if b.kind == 1 then .host else .peer) b.src b.srclen))
  then some b else none

/-- A byte list as cells by offset, zeros left out. -/
def cellsOf (bs : List Byte) : Mem :=
  ((List.range bs.length).zip bs).filter fun c => c.2 != 0

/-- Every peer window that n bytes of the peer aperture lie in is valid (R435). -/
def State.windowsValid (s : State) (ctx pa n : Nat) : Bool :=
  (List.range ((pa + n - 1) / 2 ^ 35 - pa / 2 ^ 35 + 1)).all fun i =>
    (AMap.getD (s.ctx ctx).windows ((pa / 2 ^ 35 + i) % 256) 0).getLsbD 63

/-- The page image of a fill (R255, steps 3 and 4), by offset; or the failure code. A reserved XFORM is a malformed stream of every
KIND (R255, R317), and a raw stream is exactly a page. -/
def State.fillImage (s : State) (ctx : Nat) (l : Leaf) (b : Backing) (resp : Resp) : Except Nat Mem :=
  if b.kind = 3 then (if l.cmp ∧ (rgWidth b.xform).isNone then .error 3 else .ok [])
  else match resp, s.placeOf ctx b.src with
    | .refused, _ => .error 2
    | _, none => .error 2
    | .ecc, _ => .error 4
    | .ok data, some p =>
      if p.isPeer && !s.windowsValid ctx b.src b.srclen then .error 2
      else
        let raw : Mem := match p with
          | .host a => Mem.slice s.host a b.srclen 0
          | _ => cellsOf (bytesOfNat b.srclen (data.headD 0))
        if !l.cmp then .ok raw
        else if b.xform % 2 = 0 ∧ b.srclen ≠ l.size then .error 3
        else
          match expand (fun i n => if i + n ≤ b.srclen then some (Mem.readN raw i n) else none) b.xform l.size l.size with
          | some bs => if bs.length = l.size then .ok (cellsOf bs) else .error 3
          | none => .error 3

/-- A fill that has failed, as its record tells it (R256): the cause, the failure code, the page, the descriptor index. -/
structure FillErr where
  cause : Nat
  code : Nat
  va : Nat
  index : Nat
  deriving DecidableEq, Repr

/-- How a fill ends (R255, R256): done; or failed, the innermost page first. `lost`: the backing table itself could not be
reached, which kills the context (R411). -/
inductive FillEnd where
  | done (s : State)
  | failed (s : State) (errs : List FillErr) (lost : Bool)

/-- How the source of a fill answers, where no event says it: a free choice. -/
def State.fillResp (s : State) : Resp × State :=
  let (w, s) := s.drawWord
  (match w.toNat % 4 with | 1 => .refused | 2 => .ecc | _ => .ok [], s)

/-- One fill from its first step to its last (R255). What a peer source gives where the step names nothing is unspecified.
DESIGN CHOICE (log entry 18): where the entry has become unmapped or malformed since the request, the fill stops as for RES = 1.
Where the backing table lies on a non-resident page, that page is filled first. -/
def fillPage (fuel : Nat) (s : State) (ctx va : Nat) (resp : Resp) : FillEnd :=
  match fuel with
  | 0 => .failed s [⟨cPAGE, 1, va, 0⟩] true
  | fuel + 1 =>
    match s.walk ctx va with
    | none => .done s
    | some l =>
      if l.res then .done s
      else if s.regN ctx rBKCOUNT ≤ l.addr then .failed s [⟨cPAGE, 1, l.va, l.addr⟩] false
      else
        let dva := s.regN ctx rBKBASE + 64 * l.addr
        match s.reach ctx { r := true } (fun _ => true) [⟨0, BitVec.ofNat 64 dva, 64⟩] with
        | .fail t => .failed s [⟨t.cause, 1, l.va, l.addr⟩] true
        | .absent _ _ =>
          let (r, s) := s.fillResp
          match fillPage fuel s ctx dva r with
          | .failed s' es _ => .failed s' (es ++ [⟨cPAGE, 1, l.va, l.addr⟩]) true
          | .done s' => finish s' l dva
        | .ok _ => finish s l dva
where
  /-- The fill once its descriptor can be read at dva. -/
  finish (s : State) (l : Leaf) (dva : Nat) : FillEnd :=
    match s.reach ctx { r := true } (fun _ => true) [⟨0, BitVec.ofNat 64 dva, 64⟩] with
    | .ok [p] =>
      let (bs, s) := s.readPlace p 64
      if s.refuses { r := true } p 64 then .failed s [⟨cACCESS, 1, l.va, l.addr⟩] true
      else match Backing.parse bs l with
      | none => .failed s [⟨cPAGE, 1, l.va, l.addr⟩] false
      | some b =>
        let (data, s) := match resp with
          | .ok [] => if b.kind = 2 then s.drawBytes b.srclen else ([], s)
          | _ => ([], s)
        match s.fillImage ctx l b (if data.isEmpty then resp else .ok [natOfBytes data]) with
        | .error c => .failed s [⟨cPAGE, c, l.va, l.addr⟩] false
        | .ok cells =>
          let s := s.setFrame b.frame l.size cells
          let e := natOfBytes (Mem.readN s.hbm l.entry 8)
          let e' := e % 2 ^ 12 + (if e / 4 % 2 = 1 then 0 else 4) + b.frame / 4096 * 2 ^ 12
          .done (s.storeHbm l.entry (bytesOfNat 8 e'))
    | _ => .failed s [⟨cPAGE, 1, l.va, l.addr⟩] true

/-- Pages of the backing table that can stand one behind the other: each has an entry of its own in memory. -/
def State.fillDepth (s : State) : Nat := s.hbm.length + 1

/-! ### Device accesses to areas (R411) -/

/-- Why an area cannot be reached: the cause, and the fills that failed on the way (R256, R411). -/
structure AreaErr where
  cause : Nat
  fills : List FillErr := []
  deriving DecidableEq, Repr

/-- The failure code of the fill of the area's own page (R255), 0 where none failed. -/
def AreaErr.code (e : AreaErr) : Nat := match e.fills.getLast? with | some f => f.code | none => 0

/-- A peer's place is reached where the peer does not refuse; one of this device where its page is resident or can be filled. -/
def State.areaAnswer (s : State) (n : Need) (p : Place) : Except AreaErr (Place × State) :=
  if s.refuses n p 1 then .error ⟨cACCESS, []⟩
  else match s.own n p 1, p with
    | .here q, _ => .ok (q, s)
    | .away c _, .peer _ _ va =>
      let (r, s) := s.fillResp
      match fillPage s.fillDepth s c va r with
      | .failed _ es _ => .error ⟨cACCESS, es⟩
      | .done s => .ok (p, s)
    | _, _ => .ok (p, s)

/-- The place of a device access inside one aligned unit; a non-resident page is filled first (R411). -/
def State.areaPlace (s : State) (ctx va : Nat) (n : Need) : Except AreaErr (Place × State) :=
  match s.reach ctx n (fun _ => true) [⟨0, BitVec.ofNat 64 (va % 2 ^ 64), 1⟩] with
  | .fail t => .error ⟨t.cause, []⟩
  | .ok [p] => s.areaAnswer n p
  | .ok _ => .error ⟨cACCESS, []⟩
  | .absent _ _ =>
    let (r, s) := s.fillResp
    match fillPage s.fillDepth s ctx va r with
    | .failed _ es _ => .error ⟨cPAGE, es⟩
    | .done s' =>
      match s'.reach ctx n (fun _ => true) [⟨0, BitVec.ofNat 64 (va % 2 ^ 64), 1⟩] with
      | .ok [p] => s'.areaAnswer n p
      | .fail t => .error ⟨t.cause, []⟩
      | _ => .error ⟨cPAGE, []⟩

/-- n bytes of an area, in runs that end at 4 KiB boundaries. -/
def State.areaRead (s : State) (ctx va n : Nat) : Except AreaErr (List Byte × State) :=
  go (n / 4096 + 2) s va n
where
  go (fuel : Nat) (s : State) (va n : Nat) : Except AreaErr (List Byte × State) :=
    match fuel with
    | 0 => .ok ([], s)
    | fuel + 1 =>
      if n = 0 then .ok ([], s) else
      let k := min n (4096 - va % 4096)
      match s.areaPlace ctx va { r := true } with
      | .error c => .error c
      | .ok (p, s) =>
        let (bs, s) := s.readPlace p k
        match go fuel s (va + k) (n - k) with
        | .error c => .error c
        | .ok (r, s) => .ok (bs ++ r, s)

/-- Bytes written to an area under some permissions. -/
def State.areaPut (need : Need) (s : State) (ctx va : Nat) (bs : List Byte) : Except AreaErr State :=
  go (bs.length / 4096 + 2) s va bs
where
  go (fuel : Nat) (s : State) (va : Nat) (bs : List Byte) : Except AreaErr State :=
    match fuel with
    | 0 => .ok s
    | fuel + 1 =>
      if bs.isEmpty then .ok s else
      let k := min bs.length (4096 - va % 4096)
      match s.areaPlace ctx va need with
      | .error c => .error c
      | .ok (p, s) => go fuel (s.storePlace p (bs.take k)) (va + k) (bs.drop k)

/-- Bytes written to an area. -/
def State.areaWrite (s : State) (ctx va : Nat) (bs : List Byte) : Except AreaErr State := s.areaPut { w := true } ctx va bs

/-! ### Areas by virtual or physical address (R404, R421) -/

/-- Bytes written at a physical address of HBM, in runs that end at 4 KiB boundaries. -/
def State.physWrite (fuel : Nat) (s : State) (pa : Nat) (bs : List Byte) : Except AreaErr State :=
  match fuel with
  | 0 => .ok s
  | fuel + 1 =>
    if bs.isEmpty then .ok s else
    let k := min bs.length (4096 - pa % 4096)
    match hbmOf pa with
    | none => .error ⟨cACCESS, []⟩
    | some a => (s.storeHbm a (bs.take k)).physWrite fuel (pa + k) (bs.drop k)

def State.physRead (fuel : Nat) (s : State) (pa n : Nat) : Except AreaErr (List Byte × State) :=
  match fuel with
  | 0 => .ok ([], s)
  | fuel + 1 =>
    if n = 0 then .ok ([], s) else
    let k := min n (4096 - pa % 4096)
    match hbmOf pa with
    | none => .error ⟨cACCESS, []⟩
    | some a =>
      let (bs, s) := s.loadHbm a k
      match s.physRead fuel (pa + k) (n - k) with
      | .error c => .error c
      | .ok (r, s) => .ok (bs ++ r, s)

def State.saveWrite (s : State) (ctx : Nat) (phys : Bool) (a : Nat) (bs : List Byte) : Except AreaErr State :=
  if phys then s.physWrite (bs.length / 4096 + 2) a bs else s.areaPut { w := true, noSync := true } ctx a bs
def State.saveRead (s : State) (ctx : Nat) (phys : Bool) (a n : Nat) : Except AreaErr (List Byte × State) :=
  if phys then s.physRead (n / 4096 + 2) a n else s.areaRead ctx a n

end Sys2Proof.Machine
end

