-- ==== Sys2Proof/Machine/Shapes.lean ====
section
/-!
DEFINITION. Machine/Shapes.lean: how far the operations of the copy engine and of the matrix engine reach: the destination
of a window (R304, R308, R310), the panels and the C tile of a matrix command (R323 to R325, R332); which of their bytes a
thread's access races with (R232).
-/
namespace Sys2Proof.Machine

def ceilDiv (a b : Nat) : Nat := (a + b - 1) / b

/-! ### Windows -/

def Window.boxAt (w : Window) (i : Nat) : Nat := w.box.getD i 1

/-- The inner extent of the destination (R308). -/
def Window.wd (w : Window) : Nat := if w.transpose then w.boxAt 1 else w.boxAt 0
/-- Elements of the box. -/
def Window.elems (w : Window) : Nat := (List.range 8).foldl (fun a i => a * w.boxAt i) 1
def Window.rows (w : Window) : Nat := w.elems / w.wd
/-- DATA (R308). -/
def Window.data (w : Window) : Nat := w.elems * fmtBits w.dfmt / 8
/-- The destination is block-quantised (R310): elements of a block, none for plain elements. -/
def Window.block (w : Window) : Option Nat := if w.scl = 2 then some (if w.dfmt = 14 then 64 else 32) else none
/-- Bytes of the plane of block scales and of the plane of super-scales. -/
def Window.scaleBytes (w : Window) : Nat := match w.block with | some k => w.rows * (w.wd / k) | none => 0
def Window.superBytes (w : Window) : Nat := if w.scl = 2 ∧ w.dfmt = 14 then 4 * (w.rows * ceilDiv w.wd 16384) else 0
/-- Offsets of the planes from DEST (R310). -/
def Window.scaleOff (w : Window) : Nat := alignUp w.data 64
def Window.superOff (w : Window) : Nat := alignUp (w.scaleOff + w.scaleBytes) 64
/-- d of R313. -/
def Window.total (w : Window) : Nat := w.data + w.scaleBytes + w.superBytes
/-- The end of the destination, from DEST. -/
def Window.reach (w : Window) : Nat :=
  if w.superBytes ≠ 0 then w.superOff + w.superBytes else if w.scaleBytes ≠ 0 then w.scaleOff + w.scaleBytes else w.data

/-! ### How far a copy has come (R299, R313) -/

/-- Every byte is written. -/
def CopyOp.full (o : CopyOp) : Bool :=
  match o.plan with
  | some (_, w) => decide (w.total ≤ o.written)
  | none => false

/-- No chunk is in progress. -/
def CopyOp.atBoundary (o : CopyOp) : Bool :=
  match o.plan with
  | none => true
  | some (_, w) => o.full || (o.written % 4096 == 0 && decide (o.written < w.data))

/-! ### Classes (R323) -/

def isN8 (fmt : Nat) : Bool := decide (5 ≤ fmt) && decide (fmt ≤ 9)

/-- What a step does with its products: exact groups of G into FP32 (R330), or one of the rules of R331. -/
inductive MatRule where
  | groups (g : Nat)
  | fma64
  | ints
  | intervals
  deriving DecidableEq, Repr

/-- K_s, bytes of an accumulator, the rule; none for a pairing or an MX setting that R323 refuses. -/
def matClass (af bf : Nat) (mx : Bool) : Option (Nat × Nat × MatRule) :=
  if af = 0 ∧ bf = 0 ∧ !mx then some (16, 8, .fma64)
  else if af = 2 ∧ bf = 2 ∧ !mx then some (16, 8, .intervals)
  else if af = 1 ∧ bf = 1 ∧ !mx then some (32, 4, .groups 8)
  else if (af = 3 ∨ af = 4) ∧ (bf = 3 ∨ bf = 4) ∧ !mx then some (64, 4, .groups 32)
  else if isN8 af ∧ isN8 bf then some (if af = 9 ∧ bf = 9 then 256 else 128, 4, .groups 32)
  else if af = 10 ∧ bf = 10 ∧ mx then some (128, 4, .groups 32)
  else if (af = 10 ∨ af = 11) ∧ (bf = 10 ∨ bf = 11) ∧ !mx then some (128, 4, .ints)
  else if (af = 12 ∨ af = 13) ∧ (bf = 12 ∨ bf = 13) ∧ !mx then some (256, 4, .ints)
  else if isN8 af ∧ (bf = 14 ∨ bf = 15) ∧ !mx then some (if af = 9 then 256 else 128, 4, .groups 32)
  else none

/-- R333. -/
def sparseOk (af bf : Nat) (mx : Bool) : Bool :=
  !mx && (((af == 3 || af == 4) && (bf == 3 || bf == 4)) || ((af == 10 || af == 11) && (bf == 10 || bf == 11))
    || ((af == 5 || af == 6) && (bf == 5 || bf == 6)))

/-! ### The control word (R324) -/

structure MatCtl where
  coff : Nat
  af : Nat
  bf : Nat
  mx : Bool
  rve : Bool
  rvn : Nat
  nstep : Nat
  nk : Nat
  deriving DecidableEq, Repr

def MatCtl.parse (x : Nat) : MatCtl :=
  ⟨bitsOf x 17 0, bitsOf x 21 18, bitsOf x 25 22, bitsOf x 26 26 == 1, bitsOf x 27 27 == 1, bitsOf x 32 28, bitsOf x 48 33, bitsOf x 50 49⟩

/-- A command with everything its layout needs. -/
structure MatShape where
  ctl : MatCtl
  sparse : Bool
  n : Nat
  ks : Nat
  accBytes : Nat
  rule : MatRule

/-- Logical K of a step (R332), and elements of a B column in a step. -/
def MatShape.ka (p : MatShape) : Nat := if p.sparse then 2 * p.ks else p.ks
def MatShape.kept (p : MatShape) : Nat := if p.sparse then p.ks * (16 * 2 ^ p.ctl.nk) / 64 else p.ks
def MatShape.rowA (p : MatShape) : Nat := p.ka * fmtBits p.ctl.af / 8
def MatShape.colB (p : MatShape) : Nat := p.kept * fmtBits p.ctl.bf / 8
def MatShape.metaBytes (p : MatShape) : Nat := 7 * p.kept / 8

/-- Offsets of the planes behind AOFF and BOFF (R325, R332), and where the panels end. -/
def MatShape.scaleA (p : MatShape) : Nat := alignUp (p.ctl.nstep * 128 * p.rowA) 64
def MatShape.endA (p : MatShape) : Nat :=
  if p.ctl.mx then p.scaleA + p.ctl.nstep * 128 * (p.ks / 32) else p.ctl.nstep * 128 * p.rowA
def MatShape.scaleB (p : MatShape) : Nat := alignUp (p.ctl.nstep * p.n * p.colB) 64
def MatShape.superB (p : MatShape) : Nat := alignUp (p.scaleB + p.ctl.nstep * p.n * (p.ks / 64)) 64
def MatShape.endB (p : MatShape) : Nat :=
  if p.sparse then p.scaleB + p.ctl.nstep * p.n * p.metaBytes
  else if p.ctl.mx then p.scaleB + p.ctl.nstep * p.n * (p.ks / 32)
  else if p.ctl.bf = 14 then p.superB + 4 * (ceilDiv (p.ctl.nstep * p.ks) 16384 * p.n)
  else if p.ctl.bf = 15 then p.scaleB + 2 * (p.ctl.nstep * p.n * (p.ks / 128))
  else p.ctl.nstep * p.n * p.colB
def MatShape.bytesC (p : MatShape) : Nat := 128 * p.n * p.accBytes

def MatShape.of (c : Nat) (sparse : Bool) (n : Nat) : Option MatShape :=
  let k := MatCtl.parse c
  (matClass k.af k.bf k.mx).map fun x => ⟨k, sparse, n, x.1, x.2.1, x.2.2⟩

/-! ### What a pending operation reads and writes (R232) -/

def Desc.ext (d : Desc) (i : Nat) : Nat := d.extent.getD i 0
def Desc.str (d : Desc) (i : Nat) : Nat := d.stride.getD i 0

/-- The byte offset of the row of coordinates c (R306). -/
def Desc.rowOffset (d : Desc) (x : List Nat) : Nat :=
  (List.range d.ndim).foldl (fun a i => if i = 0 then a else a + x.getD i 0 * d.str i) 0

/-- The end of the source bytes that the box reads, from BASE. -/
def Desc.sourceEnd (d : Desc) (w : Window) : Nat :=
  if (List.range d.ndim).any fun i => decide (d.ext i ≤ w.start.getD i 0) then 0
  else
    let top := (List.range d.ndim).map fun i => min (w.start.getD i 0 + w.boxAt i) (d.ext i) - 1
    d.rowOffset top + ceilDiv ((top.getD 0 0 + 1) * fmtBits d.sfmt) 8

/-- The bytes that a copy writes, in its destination space; none before its window has been read. -/
def CopyOp.target (o : CopyOp) : Option (Nat × Nat) := o.plan.map fun p => (p.2.dest, p.2.reach)

/-- The bytes of the C-buffer that a command writes. -/
def MatOp.target (o : MatOp) : Nat × Nat :=
  match o.kind with
  | .mzero => (o.a.toNat, 1024 * o.b.toNat)
  | k => match MatShape.of o.c.toNat (k == .mmas) o.n with
    | some p => (p.ctl.coff, p.bytesC)
    | none => (0, 0)

/-- The bytes that a copy reads, in its source space. -/
def CopyOp.source (o : CopyOp) : Option (Nat × Nat) := o.plan.map fun p => (p.1.base, p.1.sourceEnd p.2)

/-- The panels that a command reads: in the A-buffer, and in the W-buffer unless B is streamed (R325, R326, R332). -/
def MatOp.panels (o : MatOp) : (Nat × Nat) × (Nat × Nat) :=
  match o.kind, MatShape.of o.c.toNat (o.kind == .mmas) o.n with
  | .mzero, _ => ((0, 0), (0, 0))
  | _, some p => ((o.a.toNat, p.endA), if o.g then (0, 0) else (o.b.toNat, p.endB))
  | _, none => ((0, 0), (0, 0))

/-- Two ranges of bytes, by offset and length, meet. -/
def rangesMeet (x y : Nat × Nat) : Bool := decide (x.1 < y.1 + y.2) && decide (y.1 < x.1 + x.2)

/-- A copy of a quire writes, or reads, some of the bytes of a space (0 LM, 1 W-, 2 A-, 3 C-buffer) at an offset; one whose
window has not been read yet may write or read any. -/
def CopyOp.writes (o : CopyOp) (core key space : Nat) (r : Nat × Nat) : Bool :=
  o.core == core && o.quire == some key && o.dspace == space + 1 && o.target.all (rangesMeet r)
def CopyOp.reads (o : CopyOp) (core key space : Nat) (r : Nat × Nat) : Bool :=
  o.core == core && o.quire == some key && o.sspace == space + 1 && o.source.all (rangesMeet r)

/-- The same of a matrix command. -/
def MatOp.writes (o : MatOp) (core key space : Nat) (r : Nat × Nat) : Bool :=
  o.core == core && o.quire == key && space == 3 && rangesMeet r o.target
def MatOp.reads (o : MatOp) (core key space : Nat) (r : Nat × Nat) : Bool :=
  o.core == core && o.quire == key
    && ((space == 2 && rangesMeet r o.panels.1) || (space == 1 && rangesMeet r o.panels.2) || (space == 3 && o.acc && rangesMeet r o.target))

/-- An engine operation of a quire writes some of n bytes of a space at an offset. -/
def Cluster.writes (k : Cluster) (core key space off n : Nat) : Bool :=
  k.copies.any (fun o => o.writes core key space (off, n)) || k.mats.any fun o => o.writes core key space (off, n)

/-- It reads or writes some of them. -/
def CopyOp.meets (o : CopyOp) (core key space : Nat) (r : Nat × Nat) : Bool := o.writes core key space r || o.reads core key space r
def MatOp.meets (o : MatOp) (core key space : Nat) (r : Nat × Nat) : Bool := o.writes core key space r || o.reads core key space r
def Cluster.meets (k : Cluster) (core key space off n : Nat) : Bool :=
  k.copies.any (fun o => o.meets core key space (off, n)) || k.mats.any fun o => o.meets core key space (off, n)

/-- A thread has stored to some ranges of bytes of a space: what the operations that read or write them still write is
undefined. -/
def Cluster.race (k : Cluster) (core key space : Nat) (rs : List (Nat × Nat)) : Cluster :=
  { k with
    copies := k.copies.map fun o => if rs.any (o.meets core key space) then { o with raced := true } else o
    mats := k.mats.map fun o => if rs.any (o.meets core key space) then { o with raced := true } else o }

/-- Bytes that an engine writes: free values where a race leaves them open. -/
def State.spoil (s : State) (raced : Bool) (bs : List Byte) : List Byte × State :=
  if raced then s.drawBytes bs.length else (bs, s)

/-- The same of the bytes at some addresses. -/
def State.spoilAt (s : State) (p : Option (Nat → Bool)) (a : Nat) (bs : List Byte) : List Byte × State :=
  match p with
  | none => (bs, s)
  | some p =>
    let (fb, s) := s.drawBytes bs.length
    ((bs.zip fb).zipIdx.map fun x => if p (a + x.2) then x.1.2 else x.1.1, s)

/-! ### What a copy reads (R305, R312) -/

/-- The row's number among the rows of the tensor (R311). -/
def Desc.lin (d : Desc) (x : List Nat) : Nat :=
  (List.range d.ndim).foldr (fun i a => if i = 0 then a else x.getD i 0 + d.ext i * a) 0

/-- Coordinates beyond the tensor (R306). -/
def Desc.padding (d : Desc) (x : List Nat) : Bool := (List.range d.ndim).any fun i => decide (d.ext i ≤ x.getD i 0)

/-- Tensor coordinates of the first element of row r of the box. -/
def Window.rowStart (w : Window) (r : Nat) : List Nat :=
  let (_, b) := (List.range 7).foldl (fun (a : Nat × List Nat) j => (a.1 / w.boxAt (j + 1), a.2 ++ [a.1 % w.boxAt (j + 1)])) (r, [])
  (0 :: b).zipWith (· + ·) w.start

/-- The planes of source scales: address, elements to an entry, bytes of an entry (R311). -/
def Desc.planes (d : Desc) : List (Nat × Nat × Nat) :=
  if d.mx then [(d.scale, 32, 1)]
  else if d.sfmt = 14 then [(d.scale, 64, 1), (d.super, 16384, 4)]
  else if d.sfmt = 15 then [(d.scale, 128, 2)]
  else []

/-- The bytes of source data that the box reads, row by row. -/
def Desc.dataSpans (d : Desc) (w : Window) : List (Nat × Nat) :=
  let c1 := min (w.start.getD 0 0 + w.boxAt 0) (d.ext 0)
  (List.range (w.elems / w.boxAt 0)).filterMap fun r =>
    let x := w.rowStart r
    let first := x.getD 0 0 * fmtBits d.sfmt / 8
    if d.padding x then none else some (d.base + d.rowOffset x + first, ceilDiv (c1 * fmtBits d.sfmt) 8 - first)

/-- The bytes of source scales that it reads. -/
def Desc.planeSpans (d : Desc) (w : Window) : List (Nat × Nat) :=
  let c1 := min (w.start.getD 0 0 + w.boxAt 0) (d.ext 0)
  d.planes.flatMap fun p => (List.range (w.elems / w.boxAt 0)).filterMap fun r =>
    let x := w.rowStart r
    let first := x.getD 0 0 / p.2.1
    if d.padding x then none
    else some (p.1 + p.2.2 * (first + ceilDiv (d.ext 0) p.2.1 * d.lin x), p.2.2 * (ceilDiv c1 p.2.1 - first))

/-- Ranges that hold the scales. -/
def Desc.planeBounds (d : Desc) (w : Window) : List (Nat × Nat) :=
  let top := (List.range 8).map fun i => min (w.start.getD i 0 + w.boxAt i) (d.ext i) - 1
  d.planes.map fun p => (p.1, p.2.2 * ceilDiv (d.ext 0) p.2.1 * (d.lin top + 1))

/-- Descriptor, window and task record of a copy (R305). -/
def CopyOp.named (o : CopyOp) : List (Nat × Nat) :=
  [(o.a.toNat, 128), (o.b.toNat, 64)] ++ if o.ck = 2 then [(o.c.toNat, 16 + 8 * ((o.task.map fun t => t.payload.length).getD 64))] else []

/-- Which of n bytes at an address of its destination space the operation reads as well (R312); none: it reads none of them. -/
def CopyOp.alsoReads (o : CopyOp) (a n : Nat) : Option (Nat → Bool) :=
  match o.plan with
  | none => none
  | some (d, w) =>
    let same := o.sspace == o.dspace
    let packed := o.expand && w.xform != 0
    let glob := o.dspace == 0
    let bounds := (if same then [if packed then (d.base, o.fetched) else (d.base, d.sourceEnd w)] else [])
      ++ if glob then d.planeBounds w ++ o.named else []
    if !bounds.any (rangesMeet (a, n)) then none
    else
      let spans := (if same then (if packed then [(d.base, o.fetched)] else d.dataSpans w) else [])
        ++ if glob then d.planeSpans w ++ o.named else []
      some fun x => spans.any (rangesMeet (x, 1))

/-- A store of a context is performed: a copy whose descriptor, window or task record it meets writes undefined bytes (R305). -/
def State.storeMeets (s : State) (ctx : Option Nat) (a : Access) : State :=
  let hit := fun (o : CopyOp) => some o.ctx == ctx && o.named.any (rangesMeet (a.va, a.size))
  match a.op with
  | .read => s
  | _ =>
    if s.clusters.any fun k => k.2.copies.any hit then
      { s with clusters := AMap.mapVals s.clusters fun k => { k with copies := k.copies.map fun o => if hit o then { o with raced := true } else o } }
    else s

end Sys2Proof.Machine
end

