-- ==== Sys2Proof/Machine/Agents.lean ====
section
/-!
DEFINITION. Machine/Agents.lean: what agents other than a path do and paths share with them: handles (R155, R156),
fault records (R418, R419), synchronisation cells (R275), task pools (R161, R162), rendezvous deliveries (R282),
waking records (R140, R148), killing a quire, a wave or a context (R73, R149, R278, R410).
-/
namespace Sys2Proof.Machine

/-! ### Handles -/

def hkey (kind unit ctx : Nat) : Nat := (kind * 256 + unit) * 1024 + ctx
/-- The value of a handle (R155). -/
def handleVal (kind unit ctx seq : Nat) : Word64 :=
  BitVec.ofNat 64 (kind * 2 ^ 60 + unit * 2 ^ 52 + ctx * 2 ^ 40 + seq % 2 ^ 40)
def hKind (h : Word64) : Nat := h.toNat / 2 ^ 60
def hUnit (h : Word64) : Nat := h.toNat / 2 ^ 52 % 256
def hCtx (h : Word64) : Nat := h.toNat / 2 ^ 40 % 1024
def hSeq (h : Word64) : Nat := h.toNat % 2 ^ 40

def State.hunit (s : State) (kind unit ctx : Nat) : HUnit := AMap.getD s.handles (hkey kind unit ctx) HUnit.init

/-- A new operation of a unit: its serial number, state PENDING (R155, R156). -/
def State.newHandle (s : State) (kind unit ctx : Nat) : Nat × State :=
  let u := s.hunit kind unit ctx
  (u.next, { s with handles := AMap.set s.handles (hkey kind unit ctx) ⟨u.next + 1, AMap.set u.ops u.next ⟨0, 0, 0⟩⟩ })

/-- An operation ends, once (R156): 1 DONE, 2 CANCELLED, 3 FAULTED. -/
def State.endHandle (s : State) (kind unit ctx seq : Nat) (st : HState) : State :=
  let u := s.hunit kind unit ctx
  match AMap.get? u.ops seq with
  | some old => if old.code = 0 then
      { s with handles := AMap.set s.handles (hkey kind unit ctx) { u with ops := AMap.set u.ops seq st } }
    else s
  | none => s

/-- DETAIL of an operation that is PENDING (R158): the destination bytes of a copy, the tile steps of a matrix command so far; in
deterministic mode 0, since what a program reads does not depend on how far an engine has come (R88; log entry 64). -/
def State.progress (s : State) (kind unit ctx seq : Nat) : Nat :=
  if s.det ctx then 0
  else
    let copy := fun (o : CopyOp) => kind == 1 && o.unit == unit && o.ctx == ctx && o.seq == seq
    let mat := fun (o : MatOp) => kind == 2 && o.unit == unit && o.ctx == ctx && o.seq == seq
    let saved := match (s.ctx ctx).saved with
      | some v => (v.copies.map fun (x : Nat × CopyOp) => x.2, v.mats.map fun (x : Nat × MatOp) => x.2)
      | none => ([], [])
    match (s.clusters.flatMap (fun (e : Nat × Cluster) => e.2.copies) ++ saved.1).find? copy,
        (s.clusters.flatMap (fun (e : Nat × Cluster) => e.2.mats) ++ saved.2).find? mat with
    | some o, _ => o.written % 2 ^ 32
    | none, some o => o.step
    | none, none => 0

/-- The state of the operation that a handle names: EXPIRED after 65,536 later operations; a child grid's handle not
while a grid of the context is live (R156). -/
def State.handleState (s : State) (h : Word64) : HState :=
  let u := s.hunit (hKind h) (hUnit h) (hCtx h)
  let live := hKind h == 5 && !(s.ctx (hCtx h)).grids.isEmpty
  if hSeq h + 65536 < u.next ∧ !live then ⟨4, 0, 0⟩
  else match AMap.get? u.ops (hSeq h) with
    | none => ⟨4, 0, 0⟩
    | some x => if x.code = 0 then ⟨0, 0, s.progress (hKind h) (hUnit h) (hCtx h) (hSeq h)⟩ else x

/-- A grid starts where none was live: handles of child grids that have expired stay so (R156). -/
def State.expireGrids (s : State) (ctx : Nat) : State :=
  if !(s.ctx ctx).grids.isEmpty then s
  else { s with handles := AMap.mod s.handles (hkey 5 0 ctx) fun u => { u with ops := u.ops.filter fun (x : Nat × HState) => decide (u.next ≤ x.1 + 65536) } }

/-- The check of R155 that HMOV makes: kind, context, bits [51:50]. -/
def handleFormOk (ctx : Nat) (h : Word64) : Bool :=
  decide (1 ≤ hKind h) && decide (hKind h ≤ 5) && hCtx h == ctx && h.toNat / 2 ^ 50 % 4 == 0

/-- The check of R155 that HWAIT, HTEST, HCANCEL and HSTAT make. -/
def State.handleOk (s : State) (ctx : Nat) (h : Word64) : Bool :=
  handleFormOk ctx h
    && (if hKind h ≤ 2 then decide (hUnit h < 16) else if hKind h = 3 then decide (hUnit h < 12) else hUnit h == 0)
    && decide (hSeq h < (s.hunit (hKind h) (hUnit h) ctx).next)

/-! ### Waking records -/

/-- A record becomes READY, carrying a fault cause or 0 (R140, R142): with a fault it relaunches at the parting
instruction. `ord` is READYORD, 0 outside deterministic mode (R147, R148); where the serial phase has noted the event
that the wait's condition came with, its number goes before `ord` (R86). -/
def Record.wake (r : Record) (tick ord fault : Nat) : Record :=
  { r with ready := true, seen := tick, readyord := r.due.getD ord, due := none, fault := fault, late := []
           resume := if fault = 0 then r.resume else r.pc }

/-- A record becomes READY carrying a fault that the header's fields do not hold whole (R142). -/
def Record.wakeWith (r : Record) (tick ord : Nat) (t : Trap) : Record := { r.wake tick ord t.cause with carried := some t }

/-- f on the WAITING records of a list: `some c` makes a record READY carrying fault c. -/
def wakeList (f : Record → Option Nat) (tick ord : Nat) (rs : List Record) : List Record :=
  rs.map fun r => if r.ready then r else match f r with | some c => r.wake tick ord c | none => r

/-- The same on stored records: READYORD is the counter raised by `inc` (1), or the event sequence number (`inc` 0; R148). -/
def latchList (f : Record → Option Nat) (tick inc : Nat) : Nat → List Record → Nat × List Record
  | n, [] => (n, [])
  | n, r :: rs =>
    if r.ready then let (m, t) := latchList f tick inc n rs; (m, r :: t)
    else match f r with
      | some c => let (m, t) := latchList f tick inc (n + inc) rs; (m, r.wake tick (n + inc) c :: t)
      | none => let (m, t) := latchList f tick inc n rs; (m, r :: t)

def latchQuires (f : Record → Option Nat) (tick inc : Nat) : Nat → List StoredQuire → Nat × List StoredQuire
  | n, [] => (n, [])
  | n, q :: qs =>
    let (n, rs) := latchList f tick inc n q.records
    let (n, r) := latchQuires f tick inc n qs
    (n, { q with records := rs } :: r)

def latchGangs (f : Record → Option Nat) (tick inc : Nat) : Nat → List StoredGang → Nat × List StoredGang
  | n, [] => (n, [])
  | n, g :: gs =>
    let (n, qs) := latchQuires f tick inc n g.quires
    let (n, r) := latchGangs f tick inc n gs
    (n, { g with quires := qs } :: r)

/-- f on the stored records of a context: evicted, saved, saved waves. In deterministic mode READYORD is the event
sequence number (R148). -/
def Ctx.latchAll (c : Ctx) (det : Bool) (f : Record → Option Nat) (tick : Nat) : Ctx :=
  let n0 := if det then c.evseq else c.latch
  let inc := if det then 0 else 1
  let (n, st) := latchGangs f tick inc n0 c.stored
  let (n, sv) := match c.saved with
    | none => (n, none)
    | some v =>
      let (n, g) := latchGangs f tick inc n v.gangs
      let (n, w) := latchQuires f tick inc n v.waves
      (n, some { v with gangs := g, waves := w })
  { c with stored := st, saved := sv, latch := if det then c.latch else n }

/-- The cores that hold a context. -/
def State.coresOf (s : State) (ctx : Nat) : List Nat :=
  (s.cores.filter fun (p : Nat × Core) => p.2.ctx == some ctx).map (·.1)

/-- Events that reach records of a context are latched (R421). -/
def State.latches (s : State) (ctx : Nat) : Bool :=
  !s.det ctx && (match (s.ctx ctx).st with | .saving => true | .saved => true | .restoring => true | _ => false)

/-- READYORD of a record that becomes READY now (R147, R148), and the counter moved. In deterministic mode a record that
a load's data make READY relaunches in the round (R147), without a number. -/
def State.takeOrd (s : State) (ctx : Nat) : Nat × State :=
  if s.det ctx then (0, s)
  else if s.latches ctx then ((s.ctx ctx).latch + 1, s.modCtx ctx fun c => { c with latch := c.latch + 1 })
  else (0, s)

/-- f on every WAITING record of a context, wherever it is. -/
def State.wakeCtx (s : State) (ctx : Nat) (f : Record → Option Nat) : State :=
  let ord := if s.det ctx then (s.ctx ctx).evseq else 0
  let s := if s.latches ctx then
      (s.coresOf ctx).foldl (fun (a : State) c =>
        let (n, rs) := latchList f a.tick 1 (a.ctx ctx).latch (a.core c).records
        (a.modCore c fun k => { k with records := rs }).modCtx ctx fun x => { x with latch := n }) s
    else (s.coresOf ctx).foldl (fun a c => a.modCore c fun k => { k with records := wakeList f a.tick ord k.records }) s
  s.modCtx ctx fun c => c.latchAll (s.det ctx) f s.tick

/-! ### Synchronisation cells (R275) -/

/-- A cell as read at its place in HBM. -/
structure Cell where
  kind : Nat
  state : Nat
  expect : Nat
  count : Nat
  gen : Nat
  hgrid : Nat
  rbase : Nat
  rlen : Nat
  hwho : Nat
  deriving DecidableEq, Repr

def State.cell (s : State) (pa : Nat) : Cell :=
  let g := fun i n => natOfBytes (Mem.readN s.hbm (pa + i) n)
  ⟨g 0 1, g 1 1, g 4 4, g 8 4, g 0xC 4, g 0x10 8, g 0x18 8, g 0x20 8, g 0x28 8⟩

def State.setCell (s : State) (pa : Nat) (c : Cell) : State :=
  s.storeHbm pa (bytesOfNat 1 c.kind ++ bytesOfNat 1 c.state ++ bytesOfNat 2 0 ++ bytesOfNat 4 c.expect
    ++ bytesOfNat 4 c.count ++ bytesOfNat 4 c.gen ++ bytesOfNat 8 c.hgrid ++ bytesOfNat 8 c.rbase
    ++ bytesOfNat 8 c.rlen ++ bytesOfNat 8 c.hwho)

/-- One arrival at a memory barrier (R279). -/
def State.arrive (s : State) (pa : Nat) : State :=
  let c := s.cell pa
  let n := (c.count + 1) % 2 ^ 32
  s.setCell pa (if n = c.expect then { c with count := 0, gen := (c.gen + 1) % 2 ^ 32 } else { c with count := n })

/-- (x - y) mod 2^32 lies in [1, 2^31): phase or generation y is complete (R296, R297). -/
def passed32 (x y : Nat) : Bool :=
  let d := (x + 2 ^ 32 - y % 2 ^ 32) % 2 ^ 32
  decide (1 ≤ d) && decide (d < 2 ^ 31)

/-- HWHO of a signature (R275, R278). -/
def Sig.hwho (g : Sig) : Nat := if g.quire.isSome then g.qix % 2 ^ 40 + g.sigix * 2 ^ 40 else 2 ^ 40 - 1 + 0xFF * 2 ^ 40

/-- The place in HBM of the cell at a virtual address, while its page is resident (R275): a page that comes back in another
frame brings its cells there. -/
def State.cellPlace (s : State) (ctx va : Nat) : Option Nat :=
  match s.walk ctx va with
  | some l => if l.res then hbmOf (l.addr + va % l.size) else none
  | none => none

/-- The place of a cell on which the device itself acts (R278, R293): a page that is not resident is filled first (log entry
63). -/
def State.cellNow (s : State) (ctx va : Nat) : Option (Nat × State) :=
  match s.areaPlace ctx va { r := true, w := true } with
  | .ok (.hbm pa, s) => some (pa, s)
  | _ => none

/-- Where `holders` lists the clasp at a virtual address of a context. -/
def claspKey (ctx va : Nat) : Nat := ctx * 2 ^ 54 + va

/-- An entry of `holders` names the cell at a place. -/
def State.holdsAt (s : State) (ctx pa : Nat) (x : Nat × Nat) : Bool :=
  x.1 / 2 ^ 54 == ctx && s.cellPlace ctx (x.1 % 2 ^ 54) == some pa

/-- The holder of the clasp at a place (R277). -/
def State.holderAt (s : State) (ctx pa : Nat) : Option Nat := (s.holders.find? (s.holdsAt ctx pa)).map (·.2)

/-- The grant of the clasp at va, which lies at pa (R277). -/
def State.grantTo (s : State) (va pa : Nat) (g : Sig) : State :=
  let c := s.cell pa
  let left := s.holders.filter fun x => !s.holdsAt g.ctx pa x
  let s := s.setCell pa { c with state := 1, gen := (c.gen + 1) % 2 ^ 32, hgrid := g.grid, hwho := g.hwho }
  { s with holders := AMap.set left (claspKey g.ctx va) g.uid }

/-! ### Finding records and signatures that wait -/

/-- Signature and record of every waiter that p picks out, with `born`: on the cores, then stored. -/
def State.waiters (s : State) (ctx : Nat) (p : Record → Bool) : List (Nat × Sig) :=
  let ofQ := fun (q : StoredQuire) => (q.records.filter fun r => !r.ready && p r).filterMap fun r =>
    (AMap.get? q.sigs r.slot).map fun g => (r.born, g)
  let live := (s.coresOf ctx).flatMap fun c =>
    ((s.core c).records.filter fun r => !r.ready && p r).filterMap fun r =>
      (AMap.get? (s.core c).sigs r.slot).map fun g => (r.born, g)
  let c := s.ctx ctx
  let stored := c.stored.flatMap fun g => g.quires.flatMap ofQ
  let saved := match c.saved with
    | none => []
    | some v => (v.gangs.flatMap fun g => g.quires.flatMap ofQ) ++ v.waves.flatMap ofQ
  live ++ stored ++ saved

/-- A record waits for the clasp at a place. -/
def State.waitsClasp (s : State) (ctx pa : Nat) (r : Record) : Bool :=
  match r.wait with
  | .acq va _ => r.reason == 4 && s.cellPlace ctx va == some pa
  | _ => false

/-- The clasp at va, which lies at pa, becomes FREE, or is granted to the ACQ that reached the cell first (R277). -/
def State.freeClasp (s : State) (ctx va pa : Nat) : State :=
  match s.waiters ctx (s.waitsClasp ctx pa) with
  | [] =>
    let c := s.cell pa
    let left := s.holders.filter fun x => !s.holdsAt ctx pa x
    { s.setCell pa { c with state := 0, hgrid := 0, hwho := 0 } with holders := left }
  | w :: r =>
    let first := r.foldl (fun (a b : Nat × Sig) => if b.1 < a.1 then b else a) w
    (s.grantTo va pa first.2).wakeCtx ctx fun x => if x.born = first.1 ∧ s.waitsClasp ctx pa x then some 0 else none

/-- The clasps that a signature holds: their keys in `holders`. -/
def State.claspsOf (s : State) (uid : Nat) : List Nat :=
  (s.holders.filter fun (p : Nat × Nat) => p.2 == uid).map (·.1)

/-- The device releases the clasps of a signature as REL does (R278). -/
def State.releaseClasps (s : State) (ctx uid : Nat) : State :=
  (s.claspsOf uid).foldl (fun a x => match a.cellNow ctx (x % 2 ^ 54) with
    | some (pa, a) => a.freeClasp ctx (x % 2 ^ 54) pa
    | none => { a with holders := AMap.del a.holders x }) s

/-- f on the records of a context that wait, wherever they are. -/
def State.mapWaiting (s : State) (ctx : Nat) (f : Record → Record) : State :=
  let g := fun (r : Record) => if r.ready then r else f r
  let quires := List.map fun (q : StoredQuire) => { q with records := q.records.map g }
  let gangs := List.map fun (x : StoredGang) => { x with quires := quires x.quires }
  ((s.coresOf ctx).foldl (fun (a : State) c => a.modCore c fun k => { k with records := k.records.map g }) s).modCtx ctx fun c => { c with
    stored := gangs c.stored, saved := c.saved.map fun v => { v with gangs := gangs v.gangs, waves := quires v.waves } }

/-- The clasps of a killed signature become BROKEN, and every waiting ACQ relaunches carrying CLASP (R278): in deterministic
mode in the serial phase, whatever has become of the cell by then (R86). -/
def State.breakClasps (s : State) (ctx uid : Nat) : State :=
  (s.claspsOf uid).foldl (fun a x => match a.cellNow ctx (x % 2 ^ 54) with
    | some (pa, a) =>
      let hit := a.waitsClasp ctx pa
      let a := { a.setCell pa { a.cell pa with state := 2 } with holders := AMap.del a.holders x }
      if a.det ctx then a.mapWaiting ctx fun r => if hit r then { r with wait := .broken } else r
      else a.wakeCtx ctx fun r => if hit r then some cCLASP else none
    | none => { a with holders := AMap.del a.holders x }) s

/-! ### Killing -/

/-- The end of an engine operation: at once, or, in deterministic mode, in the serial phase (R86). -/
def State.endLater (s : State) (ctx : Nat) (order : List Nat) (kind unit seq : Nat) (st : HState) : State :=
  if s.det ctx && (s.ctx ctx).st != .killing then
    s.modCtx ctx fun c => { c with events := c.events ++ [(order, .handle kind unit seq st.code st.cause st.detail)] }
  else s.endHandle kind unit ctx seq st

/-- A kill cancels a copy (R316): at once where no chunk is in progress, else at the end of its chunk; no completion word is
written. `whole`: its context is killed, so that a page that it waits for does not come (R257; log entry 18). -/
def State.killCopy (s : State) (cl : Nat) (whole : Bool) (o : CopyOp) : State :=
  let gone := fun (h : HState) =>
    (s.modCluster cl fun k => { k with copies := k.copies.filter fun x => x.id != o.id }).endLater o.ctx o.order 1 o.unit o.seq h
  match o.ending with
  | some (_, h) => gone h
  | none =>
    if o.atBoundary || (whole && o.page.isSome) then gone ⟨2, 0, o.written % 2 ^ 32⟩
    else s.modCluster cl fun k => { k with copies := k.copies.map fun x => if x.id == o.id then { x with cancel := true, dead := true } else x }

/-- Operations of copy and matrix engines for which p holds are cancelled by a kill: copies at their next boundary, matrix
commands between steps, which is at once (R316, R338). -/
def State.cancelEngines (s : State) (whole : Bool) (pc : CopyOp → Bool) (pm : MatOp → Bool) : State :=
  s.clusters.foldl (fun (a : State) (e : Nat × Cluster) =>
    let a := (e.2.copies.filter pc).foldl (fun (a : State) o => a.killCopy e.1 whole o) a
    let a := (e.2.mats.filter pm).foldl (fun (a : State) o => a.endLater o.ctx o.order 2 o.unit o.seq ⟨2, 0, o.step⟩) a
    a.modCluster e.1 fun k => { k with mats := k.mats.filter fun o => !pm o }) s

/-- The copy is one of a quire. -/
def CopyOp.ofQuire (o : CopyOp) (core key : Nat) : Bool := o.qcore == core && o.quire == some key

/-- The copy reads or writes a local space. -/
def CopyOp.isLocal (o : CopyOp) : Bool := o.sspace != 0 || o.dspace != 0

/-- Engine operations of a quire that are not over, and of which p holds where they are copies. -/
def State.quireOps (s : State) (core key : Nat) (p : CopyOp → Bool) : Bool :=
  s.clusters.any (fun (e : Nat × Cluster) => e.2.copies.any fun o => o.ofQuire core key && p o)
    || (s.cluster (clusterOf core)).mats.any fun o => o.core == core && o.quire == key

/-- Engine operations of a quire that are not over: after a kill they are cancelled first (R73). -/
def State.quireBusy (s : State) (core key : Nat) : Bool := s.quireOps core key fun _ => true

/-- Engine operations that target the LM or a buffer of a quire (R73, R74). -/
def State.quireTargeted (s : State) (core key : Nat) : Bool := s.quireOps core key CopyOp.isLocal

/-- Overflow-area slots of records are free again (R144, R149). The record and the cause where the area cannot be written. DESIGN
CHOICE (log entry 65): with COVBASE changed while records lie in the area, which R145 leaves undefined, the new base holds at once. -/
def State.clearSpills (s : State) (ctx : Nat) (rs : List Record) : State × Option (Record × AreaErr) :=
  rs.foldl (fun a r => match r.spill with
    | none => a
    | some n =>
      let s := a.1.modCtx ctx fun c => { c with spills := c.spills.filter (· != n) }
      if !r.inMem then (s, a.2)
      else match s.areaWrite ctx (s.regN ctx rCOVBASE + 128 * n + 2) [0] with
        | .ok s => (s, a.2)
        | .error c => (s, a.2.or (some (r, c)))) (s, none)

/-- SC operations on which a discarded record waited are dropped with it (R149). -/
def State.dropSc (s : State) (core : Nat) (rs : List Record) : State :=
  let gone := fun (o : ScOp) => o.core == core && (match o.waiter with | some q => rs.any fun r => r.pseq == q | none => false)
  { s with thimble := { s.thimble with
      queues := AMap.mapVals s.thimble.queues fun l => l.filter fun o => !gone o
      held := s.thimble.held.filter fun o => !gone o } }

/-- The signatures in some slots of a core vanish with their paths and records; ports whose handler they ran are free
(R73, R149). -/
def State.dropSigs (s : State) (core ctx : Nat) (slots : List Nat) : State :=
  let k := s.core core
  let gone := k.records.filter fun r => slots.contains r.slot
  let s := (s.clearSpills ctx gone).1.dropSc core gone
  s.modCore core fun k => { k with
    sigs := k.sigs.filter fun (p : Nat × Sig) => !slots.contains p.1
    records := k.records.filter fun r => !slots.contains r.slot
    ports := k.ports.map fun p => match p.handler with
      | some (sl, _) => if slots.contains sl then { p with handler := none } else p
      | none => p }

/-- The signatures of a quire or a wave, killed: clasps broken, then all of them dropped. -/
def State.killSigs (s : State) (core ctx : Nat) (slots : List Nat) : State :=
  let s := slots.foldl (fun (a : State) sl => match a.sig? core sl with
    | some g => a.breakClasps ctx g.uid
    | none => a) s
  s.dropSigs core ctx slots

/-- A kill counts at the grid: the first cause is the grid's status (R63). -/
def Grid.count (g : Grid) (cause : Nat) : Grid :=
  { g with killed := g.killed + 1, status := if g.status = 0 then cause else g.status }

/-! ### Reduction groups (R436) -/

def RGroup.none : RGroup := ⟨0, [], 0, []⟩
def State.group (s : State) (ctx g : Nat) : RGroup := AMap.getD (s.ctx ctx).groups g RGroup.none

/-- The CRC-32 of a member list: two bytes of device, two of context, in rank order (log entry 24). -/
def RGroup.crc (g : RGroup) : BitVec 32 := crc32 (g.members.flatMap fun m => bytesOfNat 2 m.1 ++ bytesOfNat 2 m.2)

/-- A message of an operation. -/
def RblkOp.msg (o : RblkOp) (g : RGroup) (ctx phase : Nat) : RblkMsg where
  ctx := ctx
  group := o.group
  k := o.k
  phase := phase
  rank := g.rank
  nranks := g.members.length
  nblk := o.nblk
  tag := o.tag
  crc := g.crc
  codes := if phase = 1 then o.codes else []
  mants := if phase = 2 then o.mants else []

/-- The message of a rank goes to every other one. -/
def State.sendRblk (s : State) (ctx : Nat) (o : RblkOp) (g : RGroup) (phase : Nat) : State :=
  { s with outbox := s.outbox ++ (g.members.zipIdx.filter fun m => m.2 != g.rank).map fun m =>
      (m.1.1, ctx, o.msg g m.1.2 phase) }

/-- The group that a descriptor names, where it can be read at once. -/
def State.rblkGroup (s : State) (ctx desc : Nat) : Option Nat :=
  match s.reach ctx { r := true, noSync := true } (fun _ => true) [⟨0, BitVec.ofNat 64 desc, 64⟩] with
  | .ok [p] => some (field (s.loadPlace p 64 0).1 0x14 1)
  | _ => none

/-- A context that is killed tells the other ranks of each of its operations (R436). One whose descriptor has not been read
yet takes its number in the order of issue; log entry 24. -/
def State.abortRblk (s : State) (ctx : Nat) : State :=
  let s := (s.ctx ctx).rblk.foldl (fun (a : State) o =>
    if o.phase ≠ 0 then a.sendRblk ctx o (a.group ctx o.group) 3
    else match a.rblkGroup ctx o.desc with
      | none => a
      | some g =>
        let r := a.group ctx g
        (a.sendRblk ctx { o with group := g, k := r.issued } r 3).modCtx ctx fun c =>
          { c with groups := AMap.mod c.groups g fun r => { r with issued := r.issued + 1 } }) s
  (s.ctx ctx).rblk.foldl (fun (a : State) o => a.endHandle 4 0 ctx o.seq ⟨2, 0, 0⟩) s

/-! ### Killing a context -/

def CfgOp.ctx : CfgOp → Nat
  | .load c _ _ _ _ _ => c
  | .run _ r => r.ctx
  | .resume c _ _ _ _ _ => c
  | .drain c _ _ _ _ _ => c
  | .evict c _ _ _ _ => c

/-- The handle's serial number; CFGRUN.res has none of its own. -/
def CfgOp.seq : CfgOp → Option Nat
  | .load _ _ q _ _ _ => some q
  | .run _ r => some r.seq
  | .resume _ _ _ _ _ _ => none
  | .drain _ _ q _ _ _ => some q
  | .evict _ _ q _ _ => some q

/-- The run installs, and does not wait for a page. -/
def Part.installs (p : Part) (r : ARun) : Bool := p.st == .installing && p.page.isNone && p.queue.head? == some r

/-- A partition when a context is killed (R399): its runs leave the queue; one that installs goes on, unless it waits for a page,
whose fill is abandoned (R257; log entry 18), and one that runs drains, to be discarded then; a saved one is gone. -/
def Part.kill (p : Part) (ctx : Nat) (t0 : Word64) : Part :=
  let stuck := p.st == .installing && p.page.isSome && (match p.queue.head? with | some r => r.ctx == ctx | none => false)
  let queue := p.queue.filterMap fun (r : ARun) =>
    if r.ctx != ctx then some r else if p.installs r then some { r with cancel := true } else none
  let p := if stuck then { p with queue := queue, st := .idle, page := none, drain := none } else { p with queue := queue : Part }
  match p.act with
  | some x =>
    if x.run.ctx != ctx || p.st == .frozen then p
    else if p.st == .saved then { p with act := none }
    else { p with act := some { x with run := { x.run with cancel := true } }, st := .draining
                  drain := some (p.drain.getD ⟨none, [], ctx, x.run.grid, none, none, t0⟩) }
  | none => p

/-- Operations of a context at a stack that a kill ends at once, by the serial numbers of their handles. -/
def Stack.killed (t : Stack) (ctx : Nat) : List Nat :=
  (List.range 8).flatMap (fun i =>
      let p := t.part i
      (p.queue.filter fun r => r.ctx == ctx && !p.installs r).map (·.seq)
        ++ (match p.st, p.act with | .saved, some x => if x.run.ctx == ctx then [x.run.seq] else [] | _, _ => []))
    ++ (t.saved.filter (·.run.ctx == ctx)).map (·.run.seq)
    ++ (t.ctl.filter fun o => o.ctx == ctx).filterMap CfgOp.seq
    ++ (match t.loading with | some l => if l.ctx == ctx then [l.seq] else [] | none => [])

/-- Every run, load and queued operation of a context is cancelled (R399). -/
def State.cancelArrays (s : State) (ctx : Nat) : State :=
  s.memStacks.foldl (fun (a : State) (e : Nat × Stack) =>
    let a := (e.2.killed ctx).foldl (fun (b : State) q => b.endHandle 3 e.1 ctx q ⟨2, 0, 0⟩) a
    a.modStack e.1 fun t => { t with
      ctl := t.ctl.filter fun o => o.ctx != ctx
      saved := t.saved.filter fun r => r.run.ctx != ctx
      loading := match t.loading with | some l => if l.ctx == ctx then none else some l | none => none
      parts := t.parts.map fun p => p.kill ctx t.acyc }) s

/-- The frame that a fill in progress has found in its descriptor (R255). -/
def State.fillFrame (s : State) (f : Fill) : Option Nat :=
  match s.walk f.ctx f.va with
  | some l =>
    if l.res || decide (s.regN f.ctx rBKCOUNT ≤ l.addr) then none
    else match s.reach f.ctx { r := true } (fun _ => true) [⟨0, BitVec.ofNat 64 (s.regN f.ctx rBKBASE + 64 * l.addr), 64⟩] with
      | .ok [p] => (Backing.parse (s.readPlace p 64).1 l).map (·.frame)
      | _ => none
  | none => none

/-- A fill is abandoned before its last step (R257): the entry stays, and what its frame holds is unspecified. -/
def State.abandonFill (s : State) (f : Fill) : State :=
  match if f.started then s.fillFrame f else none with
  | some frame => let (bs, s) := s.drawBytes f.size; s.setFrame frame f.size (cellsOf bs)
  | none => s

/-- Fills of a context are abandoned (R257). -/
def State.dropFills (s : State) (ctx : Nat) : State :=
  let s := (s.fills.filter (·.ctx == ctx)).foldl State.abandonFill s
  { s with fills := startFills (s.fills.filter (·.ctx != ctx)) }

/-- A context is killed (R410): everything of it is discarded; writes already retired are performed. It stays KILLING
until its engine operations and array partitions have stopped. -/
def State.killCtx (s : State) (ctx : Nat) : State :=
  let s := (s.coresOf ctx).foldl (fun (a : State) c =>
    let k := a.core c
    let a := (k.pend.filter fun w => !w.posted).foldl (fun (b : State) w => b.performOrCount w.acc 0) a
    let a := a.killSigs c ctx (AMap.keys k.sigs)
    a.modCore c fun k => { k with pool := [], ringHead := 0, ringLen := 0, outst := 0, pend := [], flushes := [] }) s
  let stored := (s.ctx ctx).stored.flatMap (·.quires) ++ (match (s.ctx ctx).saved with
    | some v => v.gangs.flatMap (·.quires) ++ v.waves
    | none => [])
  let s := stored.foldl (fun (a : State) q => q.sigs.foldl (fun (a : State) (x : Nat × Sig) => a.breakClasps ctx x.2.uid) a) s
  let s := s.cancelEngines true (fun o => o.ctx == ctx) (fun o => o.ctx == ctx)
  let s := (s.coresOf ctx).foldl (fun (a : State) c => a.modCore c fun k => { k with
    quires := (k.quires.filter fun (x : Nat × Quire) => a.quireBusy c x.1).map fun (x : Nat × Quire) => (x.1, { x.2 with killed := true }) }) s
  let s := s.cancelArrays ctx
  let s := (s.ctx ctx).events.foldl (fun (a : State) e => match e.2 with
    | .handle kind unit seq code cause detail => a.endHandle kind unit ctx seq ⟨code, cause, detail⟩
    | _ => a) s
  let s := s.abortRblk ctx
  let s := match (s.ctx ctx).saved with
    | some v =>
      let s := v.copies.foldl (fun (a : State) (o : Nat × CopyOp) => a.endHandle 1 o.2.unit ctx o.2.seq ⟨2, 0, o.2.written % 2 ^ 32⟩) s
      let s := v.mats.foldl (fun (a : State) (o : Nat × MatOp) => a.endHandle 2 o.2.unit ctx o.2.seq ⟨2, 0, o.2.step⟩) s
      v.runs.foldl (fun (a : State) (r : Nat × Nat × ARun) => a.endHandle 3 r.1 ctx r.2.2.seq ⟨2, 0, 0⟩) s
    | none => s
  let s := s.dropFills ctx
  s.modCtx ctx fun c => { c with
    st := .killing, grids := [], devq := [], stored := [], saved := none, rblk := [], spills := [], events := [], icache := [], releases := []
    hostq := AMap.mapVals c.hostq fun q => { q with read := q.tail, busy := false } }

/-! ### Fault records (R418, R419) -/

/-- A 64-byte record joins the ring of a context, or is counted in FRDROP. Answers the record's number. An area that
cannot be reached kills the context (R411). -/
def State.putRecord (s : State) (ctx : Nat) (bs : List Byte) : Option Nat × State :=
  let slots := s.regN ctx rFRSIZE / 64
  let head := s.regN ctx rFRHEAD
  let drop := s.setReg ctx rFRDROP (s.reg ctx rFRDROP + 1)
  if head - s.regN ctx rFRTAIL < slots then
    match s.areaWrite ctx (s.regN ctx rFRBASE + 64 * (head % slots)) bs with
    | .ok s' => (some head, s'.setReg ctx rFRHEAD (s'.reg ctx rFRHEAD + 1))
    | .error _ => (none, drop.killCtx ctx)
  else (none, drop)

/-- The fields of a record of R419. -/
structure FRec where
  source : Nat
  cause : Nat := 0
  core : Nat := 0xFFFF
  port : Nat := 0xFF
  sig : Nat := 0xFF
  grid : Nat := 0
  quire : Nat := 2 ^ 64 - 1
  pc : Word64 := 0
  handle : Word64 := 0
  addr : Word64 := 0
  aux0 : Word64 := 0
  aux1 : Word64 := 0

def FRec.bytes (r : FRec) : List Byte :=
  bytesOfNat 2 1 ++ bytesOfNat 1 r.source ++ bytesOfNat 1 r.cause ++ bytesOfNat 2 r.core ++ bytesOfNat 1 r.port
    ++ bytesOfNat 1 r.sig ++ bytesOfNat 8 r.grid ++ bytesOfNat 8 r.quire ++ bytesOfNat 8 r.pc.toNat
    ++ bytesOfNat 8 r.handle.toNat ++ bytesOfNat 8 r.addr.toNat ++ bytesOfNat 8 r.aux0.toNat ++ bytesOfNat 8 r.aux1.toNat

def State.log (s : State) (ctx : Nat) (r : FRec) : State := (s.putRecord ctx r.bytes).2

/-- The records of fills that have failed (R256). -/
def State.logFills (s : State) (ctx : Nat) (es : List FillErr) : State :=
  es.foldl (fun (s : State) e => s.log ctx { source := 6, cause := e.cause, addr := BitVec.ofNat 64 e.va, aux0 := BitVec.ofNat 64 e.code
                                             aux1 := BitVec.ofNat 64 e.index }) s

/-- A fill that the firmware asked for has failed; where the backing table cannot be reached the context is killed (R256, R411). -/
def State.fillFailed (s : State) (ctx : Nat) (es : List FillErr) (lost : Bool) : State :=
  let s := s.logFills ctx es
  if lost then s.killCtx ctx else s

/-- An area of the context could not be reached: the records of the fills that failed, the record of the fault, then the
kill (R256, R411). -/
def State.areaLost (s : State) (ctx : Nat) (c : AreaErr) (r : FRec) : State :=
  ((s.logFills ctx c.fills).log ctx { r with cause := c.cause }).killCtx ctx

/-- The record of SOURCE 0x01 about a parted path whose header's slot in the overflow area cannot be reached (R411, R419): the word is
that of the instruction that parted. -/
def State.spillRec (s : State) (ctx core : Nat) (r : Record) : FRec :=
  let g := s.sig? core r.slot
  let inst := g.filter fun g => g.quire.isSome
  let word := match s.reach ctx { x := true } (fun _ => true) [⟨0, r.pc, 4⟩] with
    | .ok [p] => natOfBytes (s.readPlace p 12).1
    | _ => 0
  { source := 1, core := core, port := r.port, sig := (inst.map (·.sigix)).getD 0xFF, grid := (g.map (·.grid)).getD 0
    quire := (inst.map (·.qix)).getD (2 ^ 64 - 1), pc := r.resume
    addr := BitVec.ofNat 64 (s.regN ctx rCOVBASE + 128 * r.spill.getD 0), aux0 := BitVec.ofNat 64 word, aux1 := BitVec.ofNat 64 (word / 2 ^ 64) }

/-- Overflow-area slots of records of a core are free again (R144, R149); the records count as no longer spilled. An area
that cannot be written kills the context (R411). -/
def State.freeSpills (s : State) (ctx core : Nat) (rs : List Record) : State :=
  match s.clearSpills ctx rs with
  | (s, none) => s.modCore core fun k => { k with
      records := k.records.map fun r => if rs.any fun x => x.pseq == r.pseq then { r with spill := none, inMem := false } else r }
  | (s, some (r, c)) => s.areaLost ctx c (s.spillRec ctx core r)

/-- A quire is killed (R73, R149): records discarded, engine operations cancelled; its reservations are released at once where
none of those is left, else when the last has ended. -/
def State.killQuire (s : State) (core key cause : Nat) : State :=
  match s.quire? core key, (s.core core).ctx with
  | some q, some ctx =>
    if q.killed then s
    else
      let s := s.freeSpills ctx core ((s.core core).records.filter fun r => q.slots.contains r.slot)
      if (s.quire? core key).isNone || (s.ctx ctx).st == .killing then s
      else
        let s := s.killSigs core ctx q.slots
        let s := s.cancelEngines false (fun o => o.ofQuire core key && o.ctx == ctx)
          (fun o => o.core == core && o.ctx == ctx && o.quire == key)
        let s := if s.quireBusy core key then s.modQuire core key fun q => { q with killed := true }
          else s.modCore core fun k => { k with quires := AMap.del k.quires key }
        s.modGrid ctx q.grid fun g => { g.count cause with quiresDone := g.quiresDone + 1 }
  | _, _ => s

/-- A task wave is killed (R415). -/
def State.killWave (s : State) (core slot cause : Nat) : State :=
  let s := match (s.core core).ctx with
    | some ctx => s.freeSpills ctx core ((s.core core).records.filter fun r => r.slot == slot)
    | none => s
  match s.sig? core slot with
  | some g => (s.killSigs core g.ctx [slot]).modGrid g.ctx g.grid fun x => x.count cause
  | none => s

/-! ### Tasks (R161, R162) -/

/-- The task header (R159). -/
def Task.word0 (t : Task) : Word64 :=
  BitVec.ofNat 64 (t.entry + t.flags * 2 ^ 8 + t.payload.length * 2 ^ 16 + t.origin * 2 ^ 24 + t.core * 2 ^ 32)

/-- Slots in one core's ring of the task overflow area (R162). -/
def State.ringSlots (s : State) (ctx : Nat) : Nat := s.regN ctx rTOVSIZE / 192 / 528

/-- The virtual address of the i-th ring slot of a core. -/
def State.ringAddr (s : State) (ctx core i : Nat) : Nat :=
  s.regN ctx rTOVBASE + core * (s.regN ctx rTOVSIZE / 192) + 528 * (i % s.ringSlots ctx)

/-- Room for n more tasks of a core: in the pool while its ring is empty, else in the ring (R162). -/
def State.taskRoom (s : State) (ctx core n : Nat) : Bool :=
  let k := s.core core
  let inPool := if k.ringLen = 0 then 4096 - k.pool.length else 0
  decide (n ≤ inPool + (s.ringSlots ctx - k.ringLen))

/-- The core whose pool takes a task: the one that it is bound for; where that one is another context's by now, one that holds
tasks of the grid, else the first of the context (R76; log entry 62). -/
def State.taskCore (s : State) (ctx core grid : Nat) : Nat :=
  if (s.core core).ctx = some ctx then core
  else
    let l := s.coresOf ctx
    ((l.find? fun c => (s.core c).pool.any fun t => t.grid == grid).or l.head?).getD core

/-- Room for n tasks of a grid bound for a core; none while the context has no core. -/
def State.taskFits (s : State) (ctx core grid n : Nat) : Bool :=
  let c := s.taskCore ctx core grid
  (s.core c).ctx == some ctx && s.taskRoom ctx c n

def Task.image (t : Task) : List Byte :=
  bytesOfNat 8 t.word0.toNat ++ bytesOfNat 8 t.grid ++ t.payload.flatMap fun w => bytesOfNat 8 w.toNat

/-- One task pushed to its core, where there is room (R161). A task of a retired grid is discarded and logged STALE. -/
def State.pushTask (s : State) (ctx : Nat) (t : Task) : State :=
  let t := { t with core := s.taskCore ctx t.core t.grid }
  let k := s.core t.core
  if (s.grid? ctx t.grid).isNone then
    s.log ctx { source := 2, cause := cSTALE, core := t.core, grid := t.grid, aux0 := t.word0 }
  else if k.ringLen = 0 ∧ k.pool.length < 4096 then s.modCore t.core fun k => { k with pool := k.pool ++ [t] }
  else match s.areaWrite ctx (s.ringAddr ctx t.core (k.ringHead + k.ringLen)) t.image with
    | .ok s => s.modCore t.core fun k => { k with ringLen := k.ringLen + 1 }
    | .error c => s.areaLost ctx c { source := 2, core := t.core, grid := t.grid }

/-- The task in the bytes of a ring slot. -/
def Task.ofImage (bs : List Byte) : Task where
  entry := field bs 0 1
  flags := field bs 1 1
  origin := field bs 3 1
  core := field bs 4 2
  grid := field bs 8 8
  payload := (List.range (field bs 2 1)).map fun i => BitVec.ofNat 64 (field bs (16 + 8 * i) 8)
  parked := false

/-- The pool is refilled from the ring, oldest first (R162). -/
def State.refill (fuel : Nat) (s : State) (ctx core : Nat) : State :=
  match fuel with
  | 0 => s
  | fuel + 1 =>
    let k := s.core core
    if k.ringLen = 0 ∨ 4096 ≤ k.pool.length then s
    else match s.areaRead ctx (s.ringAddr ctx core k.ringHead) 528 with
      | .ok (bs, s) =>
        (s.modCore core fun k => { k with pool := k.pool ++ [Task.ofImage bs], ringHead := k.ringHead + 1,
                                          ringLen := k.ringLen - 1 }).refill fuel ctx core
      | .error c => s.areaLost ctx c { source := 2, core := core }

/-! ### Rendezvous points (R282) -/

/-- The check after an arrival or a delivery. -/
def RvPoint.check (p : RvPoint) : RvPoint :=
  if p.arr = p.expect ∧ p.deliv = p.expb then { p with phase := (p.phase + 1) % 2 ^ 32, arr := 0, expb := 0, deliv := 0 }
  else if p.arr = p.expect ∧ p.expb < p.deliv then { p with poison := cRVOVR }
  else p

/-- An arrival that declares e bytes (R282). -/
def RvPoint.arrive (p : RvPoint) (e : Nat) : RvPoint :=
  if p.arr = p.expect then { p with poison := cRVOVR }
  else { p with arr := p.arr + 1, expb := (p.expb + e) % 2 ^ 64 }.check

/-- A delivery of d bytes; discarded on a poisoned point (R282). -/
def RvPoint.deliver (p : RvPoint) (d : Nat) : RvPoint :=
  if p.poison ≠ 0 then p else { p with deliv := (p.deliv + d) % 2 ^ 64 }.check

def RvPoint.init : RvPoint := ⟨0, 0, 0, 0, 0, 0⟩
def Quire.point (q : Quire) (n : Nat) : RvPoint := q.points[n]?.getD RvPoint.init
def Quire.modPoint (q : Quire) (n : Nat) (f : RvPoint → RvPoint) : Quire :=
  { q with points := q.points.set n (f (q.point n)) }

/-! ### Completions of agents (R86, R287) -/

/-- An event of an agent takes effect: a delivery also at a point of an evicted quire (R76). -/
def State.applyEvent (s : State) (ctx : Nat) (e : DetEvent) : State :=
  match e with
  | .deliver core key pt d =>
    let put := fun (q : Quire) => q.modPoint pt fun p => p.deliver d
    (s.modQuire core key put).modCtx ctx fun c => { c with stored := c.stored.map fun g => { g with
      quires := g.quires.map fun x => if x.core == core && x.key == key then { x with q := put x.q } else x } }
  | .handle kind unit seq code cause detail => s.endHandle kind unit ctx seq ⟨code, cause, detail⟩
  | .task _ t => s.pushTask ctx t
  | .notify _ cell payload bs => (s.storeHbm payload bs).arrive cell

/-- Lexicographic order of event keys (R86). -/
def keyLt : List Nat → List Nat → Bool
  | [], [] => false
  | [], _ :: _ => true
  | _ :: _, [] => false
  | a :: r, b :: t => decide (a < b) || (a == b && keyLt r t)

/-- An agent's event: at once, or, in deterministic mode, in the serial phase (R86). -/
def State.happen (s : State) (ctx : Nat) (order : List Nat) (e : DetEvent) : State :=
  if s.det ctx && (s.ctx ctx).st != .killing then s.modCtx ctx fun c => { c with events := c.events ++ [(order, e)] } else s.applyEvent ctx e

end Sys2Proof.Machine
end

