-- ==== Sys2Proof/Machine/Ops.lean ====
section
/-!
DEFINITION. Machine/Ops.lean: the selected path and its surroundings, parting (R140 to R145), taking an exception
(R415) and returning from one (R417), retiring an instruction, and the frame in which every instruction is performed
(R31 to R33).
-/
namespace Sys2Proof.Machine

/-! ### The selected path -/

/-- The instruction being performed: the state, what is selected, the signature, the path, the active lanes (R93). -/
structure Env where
  s : State
  sel : Sel
  sig : Sig
  path : Path
  act : Mask

def Sig.path? (g : Sig) (pidx : Nat) : Option Path := g.paths.find? fun p => p.idx == pidx
def Sig.modPath (g : Sig) (pidx : Nat) (f : Path → Path) : Sig :=
  { g with paths := g.paths.map fun p => if p.idx == pidx then f p else p }

/-- The registers of a signature as a synchronising operation that waits for the serial phase reads them (R473). -/
def Sig.asIssued (g : Sig) (o : Option HeldOp) : Sig :=
  match o with
  | some o => { g with B := o.B, v := o.v, s := o.s, p := o.p, k := o.k, h := o.h }
  | none => g

/-- A synchronising operation as it is issued. -/
def Sig.held (g : Sig) (w : InstrWord) : HeldOp := ⟨w, g.B, g.v, g.s, g.p, g.k, g.h⟩

/-- The selected path, if there is one. In the serial phase it reads the registers as they were at issue (R473). -/
def State.env (s : State) : Option Env :=
  match s.sel with
  | none => none
  | some x =>
    match s.sig? x.core x.slot with
    | none => none
    | some g => (g.path? x.pidx).map fun p => ⟨s, x, if x.serial then g.asIssued p.op else g, p, p.mask⟩

/-- The path's signature as it stands, which in the serial phase may hold later values of registers than the operation reads. -/
def Env.now (e : Env) : Sig := (e.s.sig? e.sel.core e.sel.slot).getD e.sig
def Env.core (e : Env) : Core := e.s.core e.sel.core
def Env.portNo (e : Env) : Nat := e.path.port
def Env.port (e : Env) : Port := e.core.port e.portNo
def Env.quire (e : Env) : Option Quire := e.sig.quire.bind fun k => e.s.quire? e.sel.core k
def Env.grid (e : Env) : Option Grid := e.s.grid? e.sig.ctx e.sig.grid
def Env.next (e : Env) : Word64 := nextPc e.path.pc
/-- s with the selected signature changed; s may be later than the environment. -/
def Env.modSig (e : Env) (s : State) (f : Sig → Sig) : State := s.modSig e.sel.core e.sel.slot f
def Env.modPath (e : Env) (s : State) (f : Path → Path) : State := e.modSig s fun g => g.modPath e.sel.pidx f
def Env.modPort (e : Env) (s : State) (f : Port → Port) : State :=
  s.modCore e.sel.core fun k => k.modPort e.portNo f
/-- The lane mask whose program order the path stands in (R269). -/
def Env.mask (e : Env) : Mask := e.path.mask

/-! ### The serial order (R86) -/

/-- Where a signature stands among those of its core: quires by linear index, then task waves in the order they formed,
then the signature index (R86, R87; log entry 57). -/
def Sig.rank (g : Sig) : Nat × Nat := (if g.quire.isSome then g.qix else 2 ^ 40 + g.wave, g.sigix)

/-- The place of a signature in the serial order (R86): the core on which it was formed, then its place there; signatures of
different grids that agree so far go by age (log entry 57). -/
def Sig.place (g : Sig) : List Nat := [g.home, g.rank.1, g.rank.2, g.uid]

/-! ### Record images (R150) -/

def boolNat (b : Bool) : Nat := if b then 1 else 0

/-- The smallest count such that every s register at or above it is zero (R152). -/
def nunif (s : Vector Word64 64) : Nat :=
  (List.range 64).foldl (fun a i => if s[i]?.getD 0 ≠ 0 then i + 1 else a) 0

/-- LOADDESC (R151). -/
def loadDesc (w : Wait) : List Byte :=
  match w with
  | .load _ field sx interval pair _ acc =>
    let size := ((acc.head?.map (·.size)).getD 1) * (if pair ∧ !interval then 2 else 1)
    bytesOfNat 2 field.toNat ++ bytesOfNat 1 (Nat.log2 size) ++ bytesOfNat 1 (boolNat sx + 2 * boolNat interval + 4 * boolNat pair)
      ++ bytesOfNat 4 0 ++ bytesOfNat 8 ((acc.head?.map (·.va)).getD 0)
  | _ => bytesOfNat 16 0

/-- The 128-byte header of a record (R150). -/
def Record.header (r : Record) (g : Sig) (primary : Bool) (primoff : Int) : List Byte :=
  bytesOfNat 2 1 ++ bytesOfNat 1 (if r.ready then 2 else 1) ++ bytesOfNat 1 r.reason ++ bytesOfNat 1 g.stack.length
    ++ bytesOfNat 1 (nunif g.s) ++ bytesOfNat 2 r.lb ++ bytesOfNat 2 r.budget
    ++ bytesOfNat 1 (r.pidx + 4 * boolNat primary + 8 * boolNat g.quire.isNone) ++ bytesOfNat 1 r.fault
    ++ bytesOfNat 2 r.core ++ bytesOfNat 1 r.port ++ bytesOfNat 1 (if g.quire.isSome then g.sigix else 0xFF)
    ++ bytesOfNat 8 r.resume.toNat ++ bytesOfNat 16 r.mask.toNat ++ bytesOfNat 2 g.ctx ++ bytesOfNat 2 0
    ++ bytesOfNat 4 (BitVec.ofInt 32 primoff).toNat ++ bytesOfNat 8 (if g.quire.isSome then g.qix else 2 ^ 64 - 1)
    ++ bytesOfNat 8 g.grid ++ bytesOfNat 8 r.evkey.toNat ++ bytesOfNat 8 r.evaux.toNat ++ bytesOfNat 8 r.rseq
    ++ bytesOfNat 8 r.iret.toNat ++ loadDesc r.wait ++ bytesOfNat 8 r.pseq ++ bytesOfNat 8 r.readyord

/-! ### Parting (R140 to R145) -/

/-- What a parting instruction asks for: reason, event key and auxiliary word (R141), the resume address, what the
device completes, whether the instruction counts as retired (R129). -/
structure PartSpec where
  reason : Nat
  evkey : Word64
  evaux : Word64 := 0
  resume : Word64
  wait : Wait
  counts : Bool := true
  ready : Bool := false
  /-- a deferred arm that becomes a path as this one parts (R97) -/
  arm : Option Path := none
  /-- accesses of a synchronising operation that waits for the serial phase (R473) -/
  late : List Access := []

/-- The lowest free slot of the overflow area from slot n on (R144): its STATE byte is 0, and no header that waits for
the data of its load is to go there (R150). The cause where the area cannot be read. -/
def State.freeSpill (fuel : Nat) (s : State) (ctx n : Nat) : Except AreaErr (Option (Nat × State)) :=
  match fuel with
  | 0 => .ok none
  | fuel + 1 =>
    if s.regN ctx rCOVSIZE < 128 * n + 128 then .ok none
    else if (s.ctx ctx).spills.contains n then s.freeSpill fuel ctx (n + 1)
    else match s.areaRead ctx (s.regN ctx rCOVBASE + 128 * n + 2) 1 with
      | .error c => .error c
      | .ok (bs, s') => if bs.headD 0 = 0 then .ok (some (n, s')) else s.freeSpill fuel ctx (n + 1)

/-- A spilled header (R144, R152): PRIMARY unless a path of lower index of its signature is parted; PRIMOFF reaches that
one's header where it is in the area too (log entry 19). -/
def State.spillBytes (s : State) (core : Nat) (g : Sig) (r : Record) : List Byte :=
  let others := (s.core core).records.filter fun x => x.slot == r.slot && decide (x.pidx < r.pidx)
  match others.foldl (fun (a : Option Record) x => match a with
      | some y => if x.pidx < y.pidx then some x else some y
      | none => some x) none, r.spill with
  | some p, some n => r.header g false (match p.spill with | some m => 128 * ((m : Int) - n) | none => 0)
  | _, _ => r.header g true 0

/-- The data of a load are not there yet (R150). An operation that waits for the serial phase is no such load (R473). -/
def Record.outstanding (r : Record) : Bool :=
  !r.ready && r.late.isEmpty && (match r.wait with
    | .load _ _ _ _ _ _ _ => true
    | .scStore _ => true
    | _ => false)

/-- A record of SOURCE 0x01 about a path (R419). -/
def Env.faultRec (e : Env) (i : TrapInfo) : FRec where
  source := 1
  cause := i.cause
  core := e.sel.core
  port := e.portNo
  sig := if e.sig.quire.isSome then e.sig.sigix else 0xFF
  grid := e.sig.grid
  quire := if e.sig.quire.isSome then e.sig.qix else 2 ^ 64 - 1
  pc := i.resume
  addr := i.t2
  aux0 := i.word.extractLsb' 0 64
  aux1 := BitVec.ofNat 64 (i.word.toNat / 2 ^ 64 + popMask i.failing * 2 ^ 32)

/-- Reasons 0x01 to 0x0F share 384 entries of the store (R143). -/
def Core.storeFull (k : Core) : Bool :=
  decide (384 ≤ (k.records.filter fun r => decide (r.reason ≤ 0x0F) && r.spill.isNone).length)

/-- Partings that end a deterministic round (R85). REL.oc waits for the serial phase too; log entry 6. -/
def roundEnding (reason : Nat) (w : Wait) : Bool :=
  match reason with
  | 4 | 7 | 8 | 9 | 10 | 13 | 14 | 15 => true
  | 5 => match w with | .relOc _ _ _ => true | _ => false
  | _ => false

/-- The path leaves its port and becomes a record (R140); CONTOVF where its header finds no room (R145). `s` is the
state with the instruction's effect. -/
def Env.part (e : Env) (s : State) (p : PartSpec) : Except Trap State :=
  let k := s.core e.sel.core
  let lost := fun (s : State) (c : AreaErr) (n : Nat) => s.areaLost e.sig.ctx c (e.faultRec
    ⟨c.cause, e.path.pc, BitVec.ofNat 64 (s.regN e.sig.ctx rCOVBASE + 128 * n), e.sel.word, e.act, e.act⟩)
  let full := decide (p.reason ≤ 0x0F) && k.storeFull
  match if full then s.freeSpill (s.regN e.sig.ctx rCOVSIZE / 128 + 1) e.sig.ctx 0 else .ok none with
  | .error c => .ok (lost s c 0)
  | .ok room =>
  let slot := room.map (·.1)
  let s := match room with | some x => x.2 | none => s
  if full ∧ slot.isNone then .error (trapOf cCONTOVF)
  else
    match s.sig? e.sel.core e.sel.slot with
    | none => .ok s
    | some g =>
      let pth := (g.path? e.sel.pidx).getD e.path
      let iret := if p.counts then g.iret + 1 else g.iret
      let r : Record := {
        slot := e.sel.slot, pidx := pth.idx, mask := pth.mask, nest := pth.nest, handler := pth.handler
        reason := p.reason, evkey := p.evkey, evaux := p.evaux, ready := p.ready, seen := s.tick, readyord := 0
        fault := 0, resume := p.resume, pc := e.path.pc, lb := g.LB, budget := g.B, core := e.sel.core, port := pth.port
        pseq := k.pseq, rseq := pth.rseq, iret := iret, wait := p.wait, born := s.births, spill := slot, held := pth.held
        op := if pth.held then pth.op else none, act := e.act, late := p.late }
      let r := { r with inMem := slot.isSome && !r.outstanding }
      let left := (g.paths.filter fun q => q.idx != pth.idx) ++ p.arm.toList
      let s := e.modSig s fun g => { g with
        paths := left, iret := iret, wdog := 0, quantum := g.quantum + (if p.counts then 1 else 0) }
      let s := { s with births := s.births + 1 }
      let s := s.modCore e.sel.core fun k => { k with records := k.records ++ [r], pseq := k.pseq + 1 }
      match slot with
      | none => .ok s
      | some n =>
        let s := s.modCtx e.sig.ctx fun c => { c with spills := insertNat c.spills n }
        if r.outstanding then .ok s
        else match s.areaWrite e.sig.ctx (s.regN e.sig.ctx rCOVBASE + 128 * n) (s.spillBytes e.sel.core g r) with
          | .ok s => .ok s
          | .error c => .ok (lost s c n)

/-! ### Taking an exception and returning from it (R415, R417) -/

/-- A row that is 1 in the lanes of a mask. -/
def rowMask (m : Mask) : Row := Vector.ofFn fun l : Lane => if m.getLsbD l.val then 1 else 0

/-- t0 to t15 at handler entry (R415): t7 to t15 are unspecified. -/
def trapWindow (s : State) (pidx : Nat) (mask : Mask) (i : TrapInfo) : AMap Row × State :=
  let t3 : Row := Vector.ofFn fun l : Lane =>
    BitVec.ofNat 64 (boolNat (i.active.getLsbD l.val) + 2 * boolNat (i.failing.getLsbD l.val))
  let set : AMap Row := [(0, rowOf (BitVec.ofNat 64 (i.cause + 256 * pidx))), (1, rowOf i.resume), (2, rowOf i.t2), (3, t3),
    (4, rowOf (i.word.extractLsb' 0 64)), (5, rowOf ((i.word.extractLsb' 64 32).setWidth 64)), (6, rowMask mask)]
  (List.range 9).foldl (fun a j => let (r, s) := State.drawRow a.2; (a.1 ++ [(7 + j, r)], s)) (set, s)

/-- The path's quire or wave is killed with a record of SOURCE 0x01 (R415 step 1, R417). -/
def Env.killWith (e : Env) (s : State) (i : TrapInfo) : State :=
  let s := s.log e.sig.ctx (e.faultRec i)
  match e.sig.quire with
  | some key => s.killQuire e.sel.core key i.cause
  | none => s.killWave e.sel.core e.sel.slot i.cause

/-- The path enters its port's handler (R415): at TRAPVEC with the window set. -/
def Env.enter (e : Env) (s : State) (i : TrapInfo) : State :=
  let (w, s) := trapWindow s e.path.idx e.path.mask i
  let s := e.modPort s fun p => { p with t := w, handler := some (e.sel.slot, e.path.idx) }
  e.modPath s fun p => { p with pc := s.reg e.sig.ctx rTRAPVEC, handler := true, passes := 0, wdog := none, fault := none, held := false, stalled := false }

/-- The fault is delivered to a handler: TRAPVEC is set and the cause is enabled (R415 step 1). -/
def State.trapEnabled (s : State) (ctx cause : Nat) : Bool :=
  s.reg ctx rTRAPVEC != 0 && (s.reg ctx rTRAPEN).getLsbD cause

/-- Taking an exception (R415). -/
def Env.take (e : Env) (s : State) (i : TrapInfo) : State :=
  if !s.trapEnabled e.sig.ctx i.cause ∨ e.path.handler then e.killWith s i
  else if e.port.handler.isSome then
    match e.part s { reason := 0x10, evkey := BitVec.ofNat 64 e.portNo, evaux := BitVec.ofNat 64 i.cause
                     resume := i.resume, wait := .trap i, counts := false } with
    | .ok s => s
    | .error _ => s
  else e.enter s i

/-- The instruction raises a fault before it has any effect: the path's PC stays at it (R33). -/
def Env.raise (e : Env) (t : Trap) : State :=
  e.take e.s ⟨t.cause, e.path.pc, t.t2, e.sel.word, e.act, t.failing.getD e.act⟩

/-- The handler's path leaves it (R417): the window is released, the port's handler free, the watchdog count zero. -/
def Env.leaveHandler (e : Env) (s : State) (pc : Word64) : State :=
  let s := e.modPort s fun p => { p with handler := none }
  e.modSig s fun g => { g.modPath e.sel.pidx (fun p => { p with handler := false, pc := pc }) with wdog := 0 }

/-! ### Retiring -/

/-- The counts that a retired instruction changes (R84, R89, R129): the watchdog counts no handler. WATCHDOG falls due
on the path, or on the first arm where the instruction has split it; log entry 7. -/
def Env.count (e : Env) (s : State) : State :=
  let budget := s.regN e.sig.ctx rWDOG
  e.modSig s fun g =>
    let n := if e.path.handler then g.wdog else g.wdog + 1
    let due := decide (budget ≠ 0) && !e.path.handler && decide (budget ≤ n)
    let g := { g with iret := g.iret + 1, wdog := n, quantum := g.quantum + 1 }
    let idx := if (g.path? e.sel.pidx).isSome then e.sel.pidx else (g.paths.head?.map (·.idx)).getD 0
    g.modPath idx fun p => { p with passes := 0, held := false, stalled := false, fault := none,
                                      wdog := if due then some (e.sel.word, e.act, e.next) else p.wdog }

/-- The instruction retires and the path goes on at a PC. -/
def Env.retire (e : Env) (s : State) (pc : Word64) : State :=
  (e.count s) |> fun s => e.modPath s fun p => { p with pc := pc }

/-! ### The frame of an instruction -/

/-- What the body of an instruction does. -/
inductive Eff where
  /-- retires; the path goes on at the next PC -/
  | done (s : State)
  /-- retires; the body has moved the path itself -/
  | moved (s : State)
  /-- raises a fault; the body has no effect -/
  | trap (t : Trap)
  /-- parts -/
  | part (s : State) (p : PartSpec)
  /-- neither retires nor parts: the path is not ready, and issues the instruction again (R289, R298, R320) -/
  | stall
  /-- the path has ended, or a handler has: nothing is left to count -/
  | over (s : State)

/-- What stands before the body of an instruction (R32, R33): whether its rounding is DYN, the features it needs,
when it is reserved to handlers, whether its operand fields are in order. -/
structure Front where
  dyn : Bool := false
  feats : List Nat := []
  priv : Env → Bool := fun _ => false
  ok : Env → Bool

/-- Names a t register (R20). -/
def Operand.isT : Operand → Bool
  | .t _ _ _ => true
  | .bad b => b.extractLsb' 12 4 == 6
  | _ => false

/-- The first of ILLOP, FEATURE, PRIV, OPERAND (R33); a word's other ILLOP conditions are the decoder's. -/
def Env.front (e : Env) (f : Front) (os : List Operand) : Option Trap :=
  if f.dyn ∧ 4 < e.s.regN e.sig.ctx rFPCTL % 8 then some (trapOf cILLOP)
  else if f.feats.any fun b => !e.s.feat e.sig.ctx b then some (trapOf cFEATURE)
  else if !e.path.handler ∧ os.any Operand.isT ∨ f.priv e then some (trapOf cPRIV)
  else if !f.ok e then some (trapOf cOPERAND)
  else none

/-- The effect of a body becomes the next state. -/
def Env.finish (e : Env) (x : Eff) : State :=
  match x with
  | .done s => e.retire s e.next
  | .moved s => e.count s
  | .trap t => e.raise t
  | .part s p =>
    match e.part s p with
    | .ok s => s
    | .error t => e.raise t
  | .stall => e.modPath e.s fun p => { p with stalled := true, passes := 0, held := false }
  | .over s => s

/-- The environment with the lanes that a guard selects (R93). -/
def Env.guarded (e : Env) (h : Hdr) : Env :=
  { e with act := guardMask h.cond (e.sig.p[h.pred.toNat]?.getD predAllFalse) e.path.mask }

/-- Every instruction: its front, its guard (R31: no active lane, no effect), then, in deterministic mode, the wait for
the serial phase when it is a synchronising operation (R84), then its body. -/
def perform (h : Hdr) (os : List Operand) (f : Front) (sync : Env → Bool) (body : Env → Eff) (s : State) :
    Host.Outcome State Fault Refusal :=
  match s.env with
  | none => .fault .noPath
  | some e0 =>
    let e := e0.guarded h
    match e.front f os with
    | some t => .next (e.raise t)
    | none =>
      if e.act = 0 then .next (e.retire e.s e.next)
      else if s.det e.sig.ctx ∧ !e.sel.serial ∧ sync e then
        .next (e.modSig e.s fun g => g.modPath e.sel.pidx fun p => { p with held := true, op := some (g.held e.sel.word) })
      else .next (e.finish (body e))

def noSync (_ : Env) : Bool := false

end Sys2Proof.Machine
end

