-- ==== Sys2Proof/Machine/Operands.lean ====
section
/-!
DEFINITION. Machine/Operands.lean: operand forms (R19 to R23, R40, R125): which kinds a position allows, what a source
supplies to every lane, where a result goes.
-/
namespace Sys2Proof

def Ops4.list (o : Ops4) : List Operand := [o.d, o.a, o.b, o.c]
def Ops2.list (o : Ops2) : List Operand := [o.d, o.a]

def Operand.neg : Operand → Bool
  | .v _ n _ => n
  | .s _ n _ => n
  | .idx _ _ n _ => n
  | .t _ n _ => n
  | _ => false
def Operand.abs : Operand → Bool
  | .v _ _ a => a
  | .s _ _ a => a
  | .idx _ _ _ a => a
  | .t _ _ a => a
  | _ => false

namespace Machine

/-- Element i of w bits. -/
def elemAt (w i : Nat) (x : Word64) : Nat := x.toNat / 2 ^ (w * i) % 2 ^ w

/-- The register whose elements of w bits are f 0, f 1, … (R26: the other bits are zero). -/
def packElems (w : Nat) (n : Nat) (f : Nat → Nat) : Word64 :=
  BitVec.ofNat 64 ((List.range n).foldl (fun a i => a + f i % 2 ^ w * 2 ^ (w * i)) 0)

/-- The code of an integer in w bits. -/
def intCode (w : Nat) (x : Int) : Nat := (x % 2 ^ w).toNat

end Machine

open Machine

/-! ### Lane types (R26, R40) -/

/-- Bits of an element and number of elements. -/
def Ty.shape : Ty → Nat × Nat
  | .f64 => (64, 1) | .f32 => (32, 1) | .f16 => (16, 1) | .bf16 => (16, 1)
  | .f16x4 => (16, 4) | .bf16x4 => (16, 4) | .iv32 => (32, 2) | .iv64 => (64, 1)
  | .i32 => (32, 1) | .n32 => (32, 1) | .i64 => (64, 1) | .n64 => (64, 1)
  | .i16x4 => (16, 4) | .i8x8 => (8, 8) | .f32x2 => (32, 2)

/-- The floating format of the type's elements. -/
def Ty.fmt : Ty → FFmt
  | .f64 => FP64 | .f16 => FP16 | .f16x4 => FP16 | .bf16 => BF16 | .bf16x4 => BF16 | _ => FP32
def Ty.signed : Ty → Bool
  | .i32 => true | .i64 => true | .i16x4 => true | .i8x8 => true | _ => false
def Ty.isFloat (t : Ty) : Bool := t == .f64 || t == .f32 || t == .f16 || t == .bf16 || t == .f16x4 || t == .bf16x4 || t == .f32x2

/-- A two's-complement or unsigned reading of an element, by type. -/
def Ty.int (t : Ty) (w x : Nat) : Int := if t.signed then signedOf w x else (x : Int)
/-- The range of an integer type's element. -/
def Ty.lo (t : Ty) (w : Nat) : Int := if t.signed then -(2 ^ (w - 1)) else 0
def Ty.hi (t : Ty) (w : Nat) : Int := if t.signed then 2 ^ (w - 1) - 1 else 2 ^ w - 1

/-- A kind-3 immediate in a lane type (R23); interval types take the bound's image from Interval.lean. -/
def Ty.immBits (t : Ty) (i : BitVec 12) : Word64 :=
  let (w, n) := t.shape
  if t.isFloat then packElems w n fun _ => t.fmt.encode .rne false false (XR.ofInt i.toInt)
  else packElems w n fun _ => intCode w i.toInt

/-- NEG and ABS on the elements of a floating type (R22): ABS clears the sign bit, then NEG inverts it. -/
def Ty.modBits (t : Ty) (neg abs : Bool) (x : Word64) : Word64 :=
  let (w, n) := t.shape
  let one := fun b : Nat =>
    let b := if abs then b % 2 ^ (w - 1) else b
    if neg then (b + 2 ^ (w - 1)) % 2 ^ w else b
  if neg || abs then packElems w n fun i => one (elemAt w i x) else x

end Sys2Proof

namespace Sys2Proof.Machine

/-! ### Kinds and positions -/

/-- Operand kinds a position may list; t stands with v (R20). -/
inductive Kind where
  | v | s | idx | imm | p | h | sr | zero
  deriving DecidableEq, Repr

/-- A position of an instruction: the kinds it lists, whether NEG and ABS are allowed (R22), whether it names a register
pair (R21). -/
structure Pos where
  kinds : List Kind
  fp : Bool := false
  pair : Bool := false

/-- The field is well formed for the position (R19 to R22). -/
def Env.fieldOk (e : Env) (p : Pos) : Operand → Bool
  | .v n neg abs => p.kinds.contains .v && (p.fp || (!neg && !abs)) && decide (n.toNat < e.sig.B)
      && (!p.pair || (n.toNat % 2 == 0 && decide (n.toNat + 1 < e.sig.B)))
  | .s _ neg abs => p.kinds.contains .s && (p.fp || (!neg && !abs))
  | .idx _ _ neg abs => p.kinds.contains .idx && (p.fp || (!neg && !abs))
  | .imm _ => p.kinds.contains .imm
  | .p _ => p.kinds.contains .p
  | .h _ => p.kinds.contains .h
  | .t n neg abs => p.kinds.contains .v && (p.fp || (!neg && !abs)) && (!p.pair || n.toNat % 2 == 0)
  | .sr _ => p.kinds.contains .sr
  | .zero => p.kinds.contains .zero
  | .bad _ => false

/-- A field that the instruction does not use (R20). -/
def unused : Pos := { kinds := [.zero] }

/-- Every field fits its position. -/
def Env.ops4Ok (e : Env) (o : Ops4) (d a b c : Pos) : Bool :=
  e.fieldOk d o.d && e.fieldOk a o.a && e.fieldOk b o.b && e.fieldOk c o.c
def Env.ops2Ok (e : Env) (o : Ops2) (d a : Pos) : Bool := e.fieldOk d o.d && e.fieldOk a o.a

/-! ### Indexed operands (R125) -/

/-- The register that v[kN + off] names; it may lie outside every bound. -/
def Env.idxReg (e : Env) (k : BitVec 2) (off : BitVec 8) : Int := ((e.sig.k[k.toNat]?.getD (0, 0)).1 : Int) + off.toInt

/-- INDEX for one operand, with the register number it names. -/
def Env.indexFault1 (e : Env) (o : Operand) (pair : Bool) : Option Trap :=
  match o with
  | .idx k off _ _ =>
    let n := e.idxReg k off
    let lim : Int := ((e.sig.k[k.toNat]?.getD (0, 0)).2 : Nat)
    if n < 0 ∨ lim ≤ n ∨ (e.sig.B : Int) ≤ n ∨ (pair ∧ (n % 2 ≠ 0 ∨ lim ≤ n + 1 ∨ (e.sig.B : Int) ≤ n + 1)) then
      some ⟨cINDEX, BitVec.ofInt 64 n, none⟩
    else none
  | _ => none

/-- The first INDEX fault of some operands, in the order of the list. DESIGN CHOICE (log entry 66): where several indexed
operands of one instruction fail, t2 is the number of the first in the order D, A, B, C. -/
def Env.indexFault (e : Env) (os : List (Operand × Bool)) : Option Trap :=
  os.findSome? fun o => e.indexFault1 o.1 o.2

/-- The body of an instruction after its INDEX check. -/
def Env.indexed (e : Env) (os : List (Operand × Bool)) (k : Unit → Eff) : Eff :=
  match e.indexFault os with
  | some t => .trap t
  | none => k ()

/-! ### Sources -/

/-- A v register of a signature. -/
def Sig.reg (g : Sig) (n : Nat) : Row := AMap.getD g.v n rowZero
def Sig.sreg (g : Sig) (n : Nat) : Word64 := g.s[n]?.getD 0
def Sig.hreg (g : Sig) (n : Nat) : Word64 := g.h[n]?.getD 0
def Sig.preg (g : Sig) (n : Nat) : PredRow := g.p[n]?.getD predAllFalse
def Port.treg (p : Port) (n : Nat) : Row := AMap.getD p.t n rowZero

/-- A 12-bit immediate sign-extended to 64 bits (R130). -/
def immWord (i : BitVec 12) : Word64 := BitVec.ofInt 64 i.toInt

/-- The raw bits that a source supplies to every lane, `add` registers further (0, or 1 for the odd register of a
pair); an immediate is what `imm` makes of it. -/
def Env.rawAt (e : Env) (imm : BitVec 12 → Word64) (add : Nat) : Operand → Row
  | .v n _ _ => e.sig.reg (n.toNat + add)
  | .s n _ _ => rowOf (e.sig.sreg (n.toNat + add))
  | .idx k off _ _ => e.sig.reg ((e.idxReg k off).toNat + add)
  | .imm i => rowOf (imm i)
  | .t n _ _ => e.port.treg (n.toNat + add)
  | _ => rowZero

def Env.raw (e : Env) (o : Operand) : Row := e.rawAt immWord 0 o

/-- A uniform source: s register, immediate read as unsigned after sign extension, zero. -/
def Env.uni (e : Env) : Operand → Word64
  | .s n _ _ => e.sig.sreg n.toNat
  | .imm i => immWord i
  | _ => 0

/-- The rows that a source of a lane type supplies, NEG and ABS applied. -/
def Env.src (e : Env) (t : Ty) (o : Operand) : Row :=
  let r := e.rawAt t.immBits 0 o
  if o.neg || o.abs then r.map (t.modBits o.neg o.abs) else r

/-! ### Destinations -/

/-- new in the lanes of m, old elsewhere (R93). -/
def mergeRow (m : Mask) (old new : Row) : Row := Vector.ofFn fun l : Lane => if m.getLsbD l.val then new[l] else old[l]

/-- The register that a per-lane destination names. -/
def Env.dest (e : Env) : Operand → Dest
  | .v n _ _ => .v n.toNat
  | .idx k off _ _ => .v (e.idxReg k off).toNat
  | .t n _ _ => .t n.toNat
  | _ => .none

def Sig.setReg (g : Sig) (n : Nat) (r : Row) : Sig := { g with v := AMap.set g.v n r }
def Port.setT (p : Port) (n : Nat) (r : Row) : Port := { p with t := AMap.set p.t n r }
def Sig.setS (g : Sig) (n : Nat) (x : Word64) : Sig := { g with s := g.s.setIfInBounds n x }
def Sig.setH (g : Sig) (n : Nat) (x : Word64) : Sig := { g with h := g.h.setIfInBounds n x }
def Sig.setP (g : Sig) (n : Nat) (x : PredRow) : Sig := { g with p := g.p.setIfInBounds n x }

/-- A row written to a register in the lanes of m, `add` registers further. -/
def writeDest (s : State) (core slot port : Nat) (m : Mask) (add : Nat) (d : Dest) (r : Row) : State :=
  match d with
  | .none => s
  | .v n => s.modSig core slot fun g => g.setReg (n + add) (mergeRow m (g.reg (n + add)) r)
  | .t n => s.modCore core fun k => k.modPort port fun p => p.setT (n + add) (mergeRow m (p.treg (n + add)) r)

/-- The lanes in which register n has been written since a parting. -/
def keptIn (kept : List (Nat × Mask)) (n : Nat) : Mask :=
  kept.foldl (fun m x => if x.1 = n then m ||| x.2 else m) 0

/-- The registers of a destination, n of them, with the lanes written. -/
def Dest.kept (d : Dest) (n : Nat) (m : Mask) : List (Nat × Mask) :=
  match d with
  | .v r => (List.range n).map fun i => (r + i, m)
  | _ => []

/-- R126: the registers from the recorded live bound on hold unspecified values in the lanes of a path that relaunches
(or whose lanes merge), but for what has been written since the parting. -/
def State.loseLive (s : State) (core slot : Nat) (m : Mask) (lb : Nat) (kept : List (Nat × Mask)) : State :=
  match s.sig? core slot with
  | none => s
  | some g => (List.range (g.B - lb)).foldl (fun (s : State) i =>
      let m := m &&& ~~~(keptIn kept (lb + i))
      if m = 0 then s
      else
        let (r, s) := s.drawRow
        writeDest s core slot 0 m 0 (.v (lb + i)) r) s

/-- A per-lane result in the active lanes. -/
def Env.write (e : Env) (s : State) (o : Operand) (r : Row) : State :=
  writeDest s e.sel.core e.sel.slot e.portNo e.act 0 (e.dest o) r
/-- The odd register of a pair. -/
def Env.writeHi (e : Env) (s : State) (o : Operand) (r : Row) : State :=
  writeDest s e.sel.core e.sel.slot e.portNo e.act 1 (e.dest o) r

/-- A uniform result in an s register. -/
def Env.writeS (e : Env) (s : State) (n : Nat) (x : Word64) : State := e.modSig s fun g => g.setS n x
def Env.writeH (e : Env) (s : State) (n : Nat) (x : Word64) : State := e.modSig s fun g => g.setH n x

/-- The number of an h register. -/
def hregNo : Operand → Nat
  | .h n => n.toNat
  | _ => 0

/-- A result that a uniform value gives to an s register or to every active lane. -/
def Env.writeUni (e : Env) (s : State) (o : Operand) (x : Word64) : State :=
  match o with
  | .s n _ _ => e.writeS s n.toNat x
  | _ => e.write s o (rowOf x)

/-- A result uniform in segments: to an s register, the value of the lowest active lane. -/
def Env.writeAny (e : Env) (s : State) (o : Operand) (r : Row) : State :=
  match o with
  | .s n _ _ => e.writeS s n.toNat (match lowest e.act with | some l => r[l] | none => 0)
  | _ => e.write s o r

def mapRow (f : Word64 → Word64) (a : Row) : Row := a.map f
def mapRow2 (f : Word64 → Word64 → Word64) (a b : Row) : Row := Vector.ofFn fun l : Lane => f a[l] b[l]
def mapRow3 (f : Word64 → Word64 → Word64 → Word64) (a b x : Row) : Row := Vector.ofFn fun l : Lane => f a[l] b[l] x[l]

/-- The rounding mode of a code; DYN takes FPCTL (R25). -/
def Env.mode (e : Env) (r : Rm) : Mode :=
  match r with
  | .rne => .rne | .rtz => .rtz | .rd => .rd | .ru => .ru | .rna => .rna
  | .dyn => match e.s.regN e.sig.ctx rFPCTL % 8 with
    | 0 => .rne | 1 => .rtz | 2 => .rd | 3 => .ru | _ => .rna

/-- The positions of R130: "src" and "dst". -/
def srcPos : Pos := { kinds := [.v, .s, .idx, .imm, .zero] }
def dstPos : Pos := { kinds := [.v, .idx] }

end Sys2Proof.Machine
end

