-- ==== Sys2Proof/Machine/Fp.lean ====
section
/-!
DEFINITION. Machine/Fp.lean: floating-point operations on element codes (R44, R185, R186), and interval bounds (R54,
R200, R202, R203).
-/
namespace Sys2Proof.Machine

/-! ### Elements -/

end Sys2Proof.Machine

namespace Sys2Proof
open Machine

/-- f on the elements of a lane type. -/
def Ty.map1 (t : Ty) (f : Nat → Nat) (a : Word64) : Word64 :=
  packElems t.shape.1 t.shape.2 fun i => f (elemAt t.shape.1 i a)
def Ty.map2 (t : Ty) (f : Nat → Nat → Nat) (a b : Word64) : Word64 :=
  packElems t.shape.1 t.shape.2 fun i => f (elemAt t.shape.1 i a) (elemAt t.shape.1 i b)
def Ty.map3 (t : Ty) (f : Nat → Nat → Nat → Nat) (a b x : Word64) : Word64 :=
  packElems t.shape.1 t.shape.2 fun i => f (elemAt t.shape.1 i a) (elemAt t.shape.1 i b) (elemAt t.shape.1 i x)


end Sys2Proof

namespace Sys2Proof.Machine

/-- Rounding, SAT and FTZ of an instruction (R25, R27). -/
structure Rnd where
  rm : Mode
  sat : Bool
  ftz : Bool

/-- An exact value of an operation becomes a code: rounded once, flushed, saturated (R44, R185). -/
def FFmt.out (f : FFmt) (r : Rnd) (x : XR) : Nat := f.encode r.rm r.sat r.ftz x

def FFmt.fadd (f : FFmt) (r : Rnd) (a b : Nat) : Nat := f.out r ((f.read r.ftz a).add r.rm (f.read r.ftz b))
def FFmt.fmul (f : FFmt) (r : Rnd) (a b : Nat) : Nat := f.out r ((f.read r.ftz a).mul (f.read r.ftz b))
def FFmt.ffma (f : FFmt) (r : Rnd) (a b x : Nat) : Nat :=
  f.out r (((f.read r.ftz a).mul (f.read r.ftz b)).add r.rm (f.read r.ftz x))
def FFmt.fdiv (f : FFmt) (r : Rnd) (a b : Nat) : Nat := f.out r ((f.read r.ftz a).div (f.read r.ftz b))
def FFmt.fsqrt (f : FFmt) (r : Rnd) (a : Nat) : Nat := f.out r (f.read r.ftz a).sqrt
/-- R186: exact; a number wins over a NaN. -/
def FFmt.fmax (f : FFmt) (ftz : Bool) (a b : Nat) : Nat := f.encode .rne false ftz ((f.read ftz a).max2 (f.read ftz b))
def FFmt.fmin (f : FFmt) (ftz : Bool) (a b : Nat) : Nat := f.encode .rne false ftz ((f.read ftz a).min2 (f.read ftz b))

/-! ### Interval bounds -/

/-- An interval as the codes of its bounds. -/
structure Bounds where
  lo : Nat
  hi : Nat
  deriving DecidableEq, Repr

/-- The bound format of an interval type (R53). -/
def boundFmt (t : Ty) : FFmt := if t == .iv64 then FP64 else FP32

/-- Well-formed (R54). -/
def FFmt.ivOk (f : FFmt) (x : Bounds) : Bool :=
  let l := f.decode x.lo
  let h := f.decode x.hi
  l.le h && l != .inf false && h != .inf true

/-- Zero bounds written as R54 states. -/
def FFmt.canon (f : FFmt) (x : Bounds) : Bounds :=
  ⟨if (f.decode x.lo).isZero then f.signBit else x.lo, if (f.decode x.hi).isZero then 0 else x.hi⟩

def FFmt.ivEntire (f : FFmt) : Bounds := ⟨f.signBit + f.inf, f.inf⟩
/-- The canonical empty interval (R54). -/
def FFmt.ivEmpty (f : FFmt) : Bounds := ⟨f.inf, f.signBit + f.inf⟩

/-- The tightest outward rounding of exact bounds (R202); a form without a value gives the entire interval (R203). -/
def FFmt.outward (f : FFmt) (lo hi : XR) : Bounds :=
  if lo.isNan || hi.isNan then f.ivEntire
  else f.canon ⟨f.encode .rd false false lo, f.encode .ru false false hi⟩

/-- IVADD (R208). -/
def FFmt.ivAdd (f : FFmt) (a b : Bounds) : Bounds :=
  f.outward ((f.decode a.lo).add .rd (f.decode b.lo)) ((f.decode a.hi).add .ru (f.decode b.hi))

/-- ABS then NEG of an interval (R22). A magnitude of a NaN bound is not stated. -/
def FFmt.ivMod (f : FFmt) (neg abs : Bool) (x : Bounds) : Bounds :=
  let mag := fun c => c % f.signBit
  let x1 := if !abs then x
    else
      let l := mag x.lo
      let h := mag x.hi
      if (f.decode l).isNan || (f.decode h).isNan then
        ⟨(Config.nanBound x.lo x.hi false) % 2 ^ f.width, (Config.nanBound x.lo x.hi true) % 2 ^ f.width⟩
      else if x.lo / f.signBit = x.hi / f.signBit then f.canon ⟨min l h, max l h⟩
      else f.canon ⟨0, max l h⟩
  if neg then f.canon ⟨(x1.hi + f.signBit) % (2 * f.signBit), (x1.lo + f.signBit) % (2 * f.signBit)⟩ else x1

/-- An IV32 register image (R53). -/
def boundsOf32 (w : Word64) : Bounds := ⟨elemAt 32 0 w, elemAt 32 1 w⟩
def image32 (x : Bounds) : Word64 := BitVec.ofNat 64 (x.lo % 2 ^ 32 + x.hi * 2 ^ 32)

/-- The intervals that a source supplies before NEG and ABS (R23, R201). -/
def Env.ivRaw (e : Env) (t : Ty) (o : Operand) : Vector Bounds 128 :=
  if t == .iv64 then
    let lo := e.rawAt Ty.f64.immBits 0 o
    let hi := e.rawAt Ty.f64.immBits 1 o
    Vector.ofFn fun l : Lane => ⟨lo[l].toNat, hi[l].toNat⟩
  else (e.rawAt (fun i => Ty.f32x2.immBits i) 0 o).map boundsOf32

/-- The intervals that a source supplies. -/
def Env.iv (e : Env) (t : Ty) (o : Operand) : Vector Bounds 128 :=
  if o.neg || o.abs then (e.ivRaw t o).map ((boundFmt t).ivMod o.neg o.abs) else e.ivRaw t o

/-- Point codes that a source supplies (R201). -/
def Env.pt (e : Env) (t : Ty) (o : Operand) : Vector Nat 128 :=
  if t == .iv64 then (e.src .f64 o).map fun w => w.toNat else (e.src .f32 o).map fun w => elemAt 32 0 w

/-- The active lanes for which a test fails. -/
def Env.failing (e : Env) (ok : Lane → Bool) : Mask := e.act &&& maskOf fun l => !ok l

/-- EMPTY with its failing lanes (R199). -/
def emptyTrap (m : Mask) : Trap := ⟨cEMPTY, 0, some m⟩

/-- Interval results in the active lanes. -/
def Env.writeIv (e : Env) (s : State) (t : Ty) (o : Operand) (x : Lane → Bounds) : State :=
  if t == .iv64 then
    e.writeHi (e.write s o (Vector.ofFn fun l : Lane => BitVec.ofNat 64 (x l).lo)) o
      (Vector.ofFn fun l : Lane => BitVec.ofNat 64 (x l).hi)
  else e.write s o (Vector.ofFn fun l : Lane => image32 (x l))

end Sys2Proof.Machine
end

