-- ==== Sys2Proof/Machine/ArrayUnit.lean ====
section
/-!
DEFINITION. Machine/ArrayUnit.lean: the function unit of a C tile (R352, R353, R363, R384, R387), links (R344), and the
firing of C and M tiles (R347 to R351, R355, R386) on a run.
-/
namespace Sys2Proof.Machine

/-! ### Lanes of a token (R343) -/

def tokLane (v : TokenVal) (i : Nat) : Nat := v.toNat / 2 ^ (32 * i) % 2 ^ 32
def tokOf (f : Nat → Nat) : TokenVal :=
  BitVec.ofNat 512 ((List.range 16).foldr (fun i a => f i % 2 ^ 32 + 2 ^ 32 * a) 0)
def tokLanes (v : TokenVal) : List Nat := (List.range 16).map (tokLane v)

/-! ### Operations (R384) -/

/-- R352. -/
def arrRnd : Rnd := { rm := .rne, sat := false, ftz := false }

/-- One lane of an operation that works lane by lane. -/
def laneOp (opc imm a b c : Nat) : Nat :=
  let sa := signedOf 32 a
  let sb := signedOf 32 b
  match opc with
  | 0x01 => FP32.fadd arrRnd a b
  | 0x02 => FP32.fadd arrRnd a ((b + 2 ^ 31) % 2 ^ 32)
  | 0x03 => FP32.fmul arrRnd a b
  | 0x04 => FP32.ffma arrRnd a b c
  | 0x05 => FP32.fmin false a b
  | 0x06 => FP32.fmax false a b
  | 0x07 => a
  | 0x10 => intCode 32 (sa + sb)
  | 0x11 => intCode 32 (sa - sb)
  | 0x12 => intCode 32 (sa * sb)
  | 0x13 => a &&& b
  | 0x14 => a ||| b
  | 0x15 => a ^^^ b
  | 0x16 => a * 2 ^ (imm % 32) % 2 ^ 32
  | 0x17 => a / 2 ^ (imm % 32)
  | 0x18 => intCode 32 (sa / 2 ^ (imm % 32))
  | 0x20 => FP32.encode .rne false false (XR.ofInt sa)
  | 0x21 => if (FP32.decode a).isNan then 0 else intCode 32 ((FP32.decode a).toInt .rne (-(2 ^ 31)) (2 ^ 31 - 1))
  | 0x28 =>
    let x := FP32.decode a
    let y := FP32.decode b
    let holds := if x.isNan || y.isNan then imm == 1 else
      match imm with
      | 0 => x.eq y | 1 => !x.eq y | 2 => x.lt y | 3 => x.le y | 4 => y.lt x | _ => y.le x
    if holds then 2 ^ 32 - 1 else 0
  | 0x32 => if c ≠ 0 then a else b
  | _ => 0

/-- One level of the tree of R353. -/
def addPairs : List Nat → List Nat
  | a :: b :: r => FP32.fadd arrRnd a b :: addPairs r
  | l => l

/-- REDW (R353). -/
def redw (v : TokenVal) : Nat := ((List.range 4).foldl (fun l _ => addPairs l) (tokLanes v)).headD 0

/-- Elements of a lane in a format of R363: J of w bits. -/
def cellShape (fmt : Nat) : Nat := match fmt with | 1 => 1 | 3 => 2 | _ => 4

/-- The partial sum of a cell (R363). -/
def cellSum (fmt : Nat) (weight act psum : TokenVal) : TokenVal :=
  let j := cellShape fmt
  let w := 32 / j
  let el := fun (v : TokenVal) (l i : Nat) => tokLane v l / 2 ^ (w * i) % 2 ^ w
  tokOf fun l =>
    if fmt = 10 then
      intCode 32 (signedOf 32 (tokLane psum l)
        + (List.range j).foldl (fun (a : Int) i => a + signedOf 8 (el weight l i) * signedOf 8 (el act 0 i)) 0)
    else
      let t := (List.range j).map fun i => (fmtValue fmt false (el weight l i)).mul (fmtValue fmt false (el act 0 i))
      let sum := t.foldl (fun a x => a.add .rne x) (XR.fin (t.all fun x => x.isZero && x.sign) 0 0)
      FP32.fadd arrRnd (tokLane psum l) (FP32.encode .rne false false sum)

/-- The token of QMAX for the words of a block (R387). -/
def qmaxToken (fmt : Nat) (ws : List TokenVal) : TokenVal :=
  let x := (mxScale fmt (ws.flatMap fun v => (tokLanes v).map FP32.decode)).1
  tokOf fun i => if i = 0 then x else 0

/-- The running maximum of a QMAX that holds a word: the code of the largest magnitude, NaN where an element is one (R397; log
entry 61). -/
def runningMax (v : TokenVal) : Nat :=
  let xs := (tokLanes v).map FP32.decode
  if xs.any XR.isNan then FP32.nan else FP32.encode .rne false false (maxAbs xs)

/-- The token of QCVT for the words of a block under X (R387): every element is converted, so that −0 in a block of zeros
gives the code of −0, where R50 names code 0 (log entry 60). -/
def qcvtToken (fmt x : Nat) (ws : List TokenVal) : TokenVal :=
  let codes := (ws.flatMap tokLanes).map fun a => if x = 255 then 0 else mxCode fmt ((x : Int) - 127) (FP32.decode a)
  let bits := fmtBits fmt
  let packed := codes.foldr (fun c a => c % 2 ^ bits + 2 ^ bits * a) 0
  BitVec.ofNat 512 (packed + x * 2 ^ (32 * bits))

/-! ### Links (R344) -/

def CTile.init : CTile := ⟨[], 0, false, none, 0, 0, none⟩
def MBuf.init : MBuf := ⟨[], 0, 0, 0, 0⟩
def STile.init : STile := ⟨false, 0, 0, true, none, false, [], []⟩

def Active.ct (a : Active) (x : Nat × Nat) : CTile := AMap.getD a.cts (tileKey x.1 x.2) CTile.init
def Active.mt (a : Active) (x : Nat × Nat) : MTile := AMap.getD a.mts (tileKey x.1 x.2) ⟨[], List.replicate 4 MBuf.init, [], 0⟩
def Active.st (a : Active) (x : Nat × Nat) : STile := AMap.getD a.sts (tileKey x.1 x.2) STile.init
def Active.setCt (a : Active) (x : Nat × Nat) (t : CTile) : Active := { a with cts := AMap.set a.cts (tileKey x.1 x.2) t }
def Active.setMt (a : Active) (x : Nat × Nat) (t : MTile) : Active := { a with mts := AMap.set a.mts (tileKey x.1 x.2) t }
def Active.setSt (a : Active) (x : Nat × Nat) (t : STile) : Active := { a with sts := AMap.set a.sts (tileKey x.1 x.2) t }
def Active.word? (a : Active) (x : Nat × Nat) : Option CtxWord := a.cfg.word? x a.ctxi

/-- The branch from an output, where one is named, to an input, as a number. -/
def Config.branchTo (c : Config) (src : Option ((Nat × Nat) × Nat)) (x : Nat × Nat) (port : Nat) : Option Nat :=
  c.links.zipIdx.findSome? fun l =>
    if src.all fun y => (l.1.srow, l.1.scol) == y.1 && l.1.sport == y.2 then
      (l.1.branches.zipIdx.find? fun b => b.1.1 == x && b.1.2.1 == port).map fun b => 4 * l.2 + b.2
    else none

/-- The tile is a cell of a systolic array in context i (R362). -/
def Config.isCell (c : Config) (i : Nat) (x : Nat × Nat) : Bool := match c.word? x i with | some w => wOpc w == 0x40 | none => false

/-- The connection of a systolic array to an inner input of a cell (R362): the link that the image names for it, or the array's
own, which holds the head token alone (log entry 38). -/
def Config.cellKey (c : Config) (i : Nat) (x : Nat × Nat) (port : Nat) : Option Nat :=
  if !c.isCell i x then none
  else (cellWest x port).map fun y => (c.branchTo (some y) x port).getD (2 ^ 20 + 2 * tileKey x.1 x.2 + port)

/-- The branch that feeds an input in a context, as a number. -/
def Config.feedKey (c : Config) (i : Nat) (x : Nat × Nat) (port : Nat) : Option Nat :=
  match c.cellKey i x port with
  | some k => some k
  | none => c.branchTo none x port

/-- The input of a tile holds a head token apart from the hops (R346, R397): a C tile's, and a write port's in its context. -/
def Config.headed (c : Config) (i : Nat) (x : Nat × Nat) : Bool :=
  match tileKind x.1 x.2 with
  | 1 => true
  | 2 => false
  | _ => match c.port? x i with | some p => p.write | none => false

/-- Branches of the links that an output feeds in a context: number and tokens that it holds at most, two for each hop and
the head. An inner output of a systolic array feeds the next cell, and another consumer only by a link
that ends there too (R362). -/
def Config.fedBy (c : Config) (i : Nat) (x : Nat × Nat) (o : Nat) : List (Nat × Nat) :=
  let y := if o = 0 then (x.1, x.2 + 1) else (x.1 + 1, x.2)
  let inner := c.isCell i x && (if o = 0 then decide (x.2 % 6 < 4) else decide (x.1 % 6 < 5))
  let all := (c.links.zipIdx.filter fun l => l.1.srow == x.1 && l.1.scol == x.2 && l.1.sport == o).flatMap fun l =>
    l.1.branches.zipIdx.map fun b => (4 * l.2 + b.2, 2 * b.1.2.2.length + (if c.headed i b.1.1 then 1 else 0))
  match if inner then c.cellKey i y o else none with
  | none => all
  | some k => match all.filter fun b => b.1 / 4 == k / 4 with
    | [] => [(k, 1)]
    | l => l

def Active.fifo (a : Active) (k : Nat) : List Token := AMap.getD a.fifos k []
def Active.head (a : Active) (x : Nat × Nat) (port : Nat) : Option Token := (a.cfg.feedKey a.ctxi x port).bind fun k => (a.fifo k).head?
def Active.pop (a : Active) (x : Nat × Nat) (port : Nat) : Active :=
  match a.cfg.feedKey a.ctxi x port with
  | some k => { a with fifos := AMap.set a.fifos k ((a.fifo k).drop 1) }
  | none => a
def Active.pops (a : Active) (x : Nat × Nat) (ports : List Nat) : Active := ports.foldl (fun a p => a.pop x p) a
/-- Every branch of an output has room. -/
def Active.room (a : Active) (x : Nat × Nat) (o : Nat) : Bool :=
  (a.cfg.fedBy a.ctxi x o).all fun b => decide ((a.fifo b.1).length < b.2)
def Active.emit (a : Active) (x : Nat × Nat) (o : Nat) (t : Token) : Active :=
  (a.cfg.fedBy a.ctxi x o).foldl (fun a b => { a with fifos := AMap.set a.fifos b.1 (a.fifo b.1 ++ [t]) }) a

/-- Outputs that a word writes have room. -/
def Active.outsOk (a : Active) (x : Nat × Nat) (w : CtxWord) : Bool :=
  (List.range 2).all fun o => wOut w o == 0 || a.room x o
/-- Outputs emit the main or the alternate token. -/
def Active.emits (a : Active) (x : Nat × Nat) (w : CtxWord) (main alt : Token) : Active :=
  (List.range 2).foldl (fun a o => match wOut w o with
    | 0 => a
    | 1 => a.emit x o main
    | _ => a.emit x o alt) a

/-! ### C tiles -/

/-- What an attempt to fire comes to. -/
inductive Fire where
  | idle
  | done (a : Active)
  | fault (cause detail : Nat)

def cfgFault (detail : Nat) : Fire := .fault cCFG detail

def Token.isEnd : Token → Bool
  | .fin => true
  | _ => false
def Token.isNull : Token → Bool
  | .null => true
  | _ => false
def Token.val : Token → TokenVal
  | .data v => v
  | _ => 0

/-- A constant register in the current context (R351, R380). -/
def Active.const (a : Active) (x : Nat × Nat) (reg : Nat) : TokenVal :=
  match a.cfg.consts.find? fun k => k.1 == x && k.2.1 == reg && k.2.2.1 == a.ctxi with
  | some k => k.2.2.2
  | none => 0

def CTile.line (t : CTile) (d : Nat) : List TokenVal := t.dl.getD d []
def CTile.setLine (t : CTile) (d : Nat) (l : List TokenVal) : CTile := { t with dl := t.dl.set d l }

/-- The value of a source of R377. -/
def Active.source (a : Active) (x : Nat × Nat) (s : Nat) : TokenVal :=
  match s with
  | 0 => 0
  | 1 | 2 | 3 => match a.head x (s - 1) with | some t => t.val | none => 0
  | 4 => a.const x 0
  | 5 => a.const x 1
  | 6 => (a.ct x).acc
  | _ => ((a.ct x).line (s - 8)).headD 0

/-- Capacity of a delay line (R350). -/
def Config.stages (c : Config) (x : Nat × Nat) (d : Nat) : Nat :=
  match c.delays.find? fun e => e.1 == x && e.2.1 == d with
  | some e => e.2.2.length
  | none => 0

/-- Delay lines that the word reads hold a token; those it feeds have room once the heads are consumed (R347, R350). -/
def Active.linesHold (a : Active) (x : Nat × Nat) (w : CtxWord) : Bool := (wLines w).all fun d => !((a.ct x).line d).isEmpty
def Active.linesRoom (a : Active) (x : Nat × Nat) (w : CtxWord) : Bool :=
  (wFeeds w).all fun d => decide (((a.ct x).line d).length < a.cfg.stages x d + (if (wLines w).contains d then 1 else 0))

/-- Heads are consumed and a main result is pushed (R348). -/
def CTile.shift (t : CTile) (w : CtxWord) (main : Option TokenVal) : CTile :=
  let t := (wLines w).foldl (fun (t : CTile) d => t.setLine d ((t.line d).drop 1)) t
  match main with
  | none => t
  | some v => (wFeeds w).foldl (fun (t : CTile) d => t.setLine d (t.line d ++ [v])) t

/-- Inputs whose tokens must be aligned for the next firing: not the weight input of a cell that has its weight, nor the
scale input of a QCVT within a block. -/
def alignedInputs (w : CtxWord) (t : CTile) : List Nat :=
  if wOpc w = 0x40 ∧ t.count = 1 then [0, 1]
  else if wOpc w = 0x3E ∧ t.count = 1 then (wInputs w).filter fun i => (wSrc w).headD 0 == i + 1
  else wInputs w

/-- A firing on END (R349, R386, R387): what it still holds comes out first. -/
def Active.fireEnd (a : Active) (x : Nat × Nat) (w : CtxWord) : Fire :=
  let t := a.ct x
  if !a.outsOk x w then .idle
  else
    let last := fun (_ : Unit) => Fire.done (((a.pops x (wInputs w)).emits x w .fin .fin).setCt x { t with done := true, held := none, count := 0 })
    let first := fun (v : TokenVal) => Fire.done ((a.emits x w (.data v) .null).setCt x { t with held := none, count := 2 })
    match wOpc w with
    | 0x39 => if t.count = 2 then last () else first t.acc
    | 0x3D => if t.count = 1 then first (qmaxToken (wImm w) [t.held.getD 0]) else last ()
    | 0x3E => if t.count = 1 then first (qcvtToken (wImm w) t.x [t.held.getD 0]) else last ()
    | _ => last ()

/-- A firing on DATA and NULL; `ins` are the inputs consumed. -/
def Active.fireData (a : Active) (x : Nat × Nat) (w : CtxWord) (ins : List Nat) : Fire :=
  let t := a.ct x
  let toks := ins.filterMap (a.head x)
  let null := toks.any Token.isNull
  let va := a.source x ((wSrc w).getD 0 0)
  let vb := a.source x ((wSrc w).getD 1 0)
  let vc := a.source x ((wSrc w).getD 2 0)
  let next := a.pops x ins
  let silent := fun (t : CTile) => Fire.done (next.setCt x t)
  /- a result in every output that the word writes -/
  let result := fun (main alt : Token) (t : CTile) => if a.outsOk x w then Fire.done ((next.emits x w main alt).setCt x t) else .idle
  let pushIn := fun (t : CTile) (main alt : Token) =>
    let v := match main with | .data v => some v | _ => none
    if v.isSome && !a.linesRoom x w then .idle else result main alt (t.shift w v)
  let push := pushIn t
  if !a.linesHold x w then .idle
  else match wOpc w with
    | 0x31 =>
      let others := (wSrc w).filter fun s => decide (3 < s)
      let datas := (toks.filter fun k => !k.isNull).map Token.val ++ others.map (a.source x)
      match datas with
      | [] => result .null .null t
      | [v] => push (.data v) .null
      | _ => cfgFault 0x13
    | 0x39 => silent (if null then t else { t with acc := tokOf fun i => FP32.fadd arrRnd (tokLane t.acc i) (tokLane va i) })
    | 0x3D =>
      if null then cfgFault 0x14
      else if t.count = 1 then
        pushIn { t with held := none, count := 0, x := 0 } (.data (qmaxToken (wImm w) [t.held.getD 0, va])) .null
      else silent { t with held := some va, count := 1, x := runningMax va }
    | 0x3E =>
      if null then cfgFault 0x14
      else if t.count = 1 then
        pushIn { t with held := none, count := 0 } (.data (qcvtToken (wImm w) t.x [t.held.getD 0, va])) .null
      else silent { t with held := some va, count := 1, x := tokLane vb 0 % 256 }
    | 0x40 =>
      if null then result .null .null t
      else push (.data va) (.data (cellSum (wImm w) (t.held.getD 0) va vb))
    | op =>
      if null then result .null .null t
      else match op with
        | 0x30 => if tokLane vb 0 ≠ 0 then push (.data va) .null else push .null (.data va)
        | 0x38 => push (.data (tokOf fun i => if i = 0 then redw va else 0)) .null
        | _ => push (.data (tokOf fun i => laneOp op (wImm w) (tokLane va i) (tokLane vb i) (tokLane vc i))) .null

/-- What the heads of a C tile's inputs ask for. -/
inductive Heads where
  | wait
  | mismatch
  | fin
  | data (ins : List Nat)

/-- R349. -/
def Active.heads (a : Active) (x : Nat × Nat) (w : CtxWord) : Heads :=
  let need := alignedInputs w (a.ct x)
  let toks := need.filterMap (a.head x)
  if toks.any Token.isEnd && toks.any (fun t => !t.isEnd) then .mismatch
  else if toks.length ≠ need.length then .wait
  else if toks.all Token.isEnd then
    let all := (wInputs w).filterMap (a.head x)
    if all.any fun t => !t.isEnd then .mismatch else if all.length ≠ (wInputs w).length then .wait else .fin
  else .data need

/-- A C tile fires, NOTIFY apart (R347 to R349). A cell takes its weight first (R362). -/
def Active.fireC (a : Active) (x : Nat × Nat) : Fire :=
  match a.word? x with
  | none => .idle
  | some w =>
    let t := a.ct x
    if t.done ∨ wOpc w = 0 ∨ wOpc w = 0x3C then .idle
    else if wOpc w == 0x40 && t.count == 0 && (match a.head x 2 with | some k => !k.isEnd | none => false) then
      match a.head x 2 with
      | some (.data v) => .done ((a.pop x 2).setCt x { t with held := some v, count := 1 })
      | _ => .done (a.pop x 2)
    else match a.heads x w with
      | .wait => .idle
      | .mismatch => cfgFault 0x11
      | .fin => a.fireEnd x w
      | .data ins => if wOpc w = 0x40 ∧ t.count = 0 then .idle else a.fireData x w ins

/-! ### M tiles (R354, R355) -/

/-- The next empty slot of a region, from a slot on. -/
def nextEmpty (first depth tail : Nat) (full : List Nat) : Option Nat :=
  ((List.range depth).map fun i => first + (tail - first + i) % depth).find? fun k => !full.contains k

def MTile.buf (t : MTile) (j : Nat) : MBuf := t.bufs.getD j MBuf.init
def MTile.setBuf (t : MTile) (j : Nat) (b : MBuf) : MTile := { t with bufs := t.bufs.set j b }

/-- A token is written to the next empty slot of a buffer. -/
def MTile.store (t : MTile) (j first depth : Nat) (tok : Token) : MTile :=
  let b := t.buf j
  match nextEmpty first depth b.tail b.order with
  | none => t
  | some k => { t with slots := AMap.set t.slots k tok, ages := AMap.set t.ages k t.clock, clock := t.clock + 1 }.setBuf j
      { b with order := b.order ++ [k], tail := if k + 1 = first + depth then first else k + 1 }

/-- A buffer takes the token at its input. -/
def Active.accept (a : Active) (x : Nat × Nat) (j : Nat) : Fire :=
  match (a.word? x).bind fun w => wBuf w j, a.head x j with
  | some (first, depth, replay, _), some tok =>
    let t := a.mt x
    let b := t.buf j
    let next := a.pop x j
    if b.phase ≠ 0 then .idle
    else if replay then
      if tok.isEnd then .done (next.setMt x (t.setBuf j { b with phase := 1, pos := 0, passes := 0 }))
      else if depth ≤ b.order.length then cfgFault 0x12
      else .done (next.setMt x (t.store j first depth tok))
    else if depth ≤ b.order.length then .idle
    else .done (next.setMt x (t.store j first depth tok))
  | _, _ => .idle

/-- A buffer emits on its output. -/
def Active.emitBuf (a : Active) (x : Nat × Nat) (j : Nat) : Fire :=
  match (a.word? x).bind fun w => wBuf w j with
  | none => .idle
  | some (_, _, replay, passes) =>
    let t := a.mt x
    let b := t.buf j
    if !a.room x j then .idle
    else if replay then
      if b.phase ≠ 1 then .idle
      else if b.order.isEmpty ∨ passes ≤ b.passes then .done ((a.emit x j .fin).setMt x (t.setBuf j { b with phase := 2 }))
      else
        let tok := AMap.getD t.slots (b.order.getD b.pos 0) .null
        let b' := if b.pos + 1 = b.order.length then { b with pos := 0, passes := b.passes + 1 } else { b with pos := b.pos + 1 }
        .done ((a.emit x j tok).setMt x (t.setBuf j b'))
    else match b.order with
      | k :: r =>
        if b.phase = 2 then .idle
        else
          let tok := AMap.getD t.slots k .null
          .done ((a.emit x j tok).setMt x ({ t with slots := AMap.del t.slots k, ages := AMap.del t.ages k }.setBuf j
            { b with order := r, phase := if tok.isEnd then 2 else 0 }))
      | [] => .idle

/-- Full slots of a region, oldest first (R355). -/
def MTile.oldest (t : MTile) (first depth : Nat) : List Nat :=
  let age := fun k => AMap.getD t.ages k 0
  let put := fun (l : List Nat) (k : Nat) => (l.filter fun y => decide (age y ≤ age k)) ++ k :: l.filter fun y => decide (age k < age y)
  ((AMap.keys t.slots).filter fun k => decide (first ≤ k) && decide (k < first + depth)).foldl put []

/-- The buffers of an M tile as a context begins (R354): tokens left in a buffer's slots come first. -/
def MTile.enter (t : MTile) (w : CtxWord) : MTile :=
  { t with bufs := (List.range 4).map fun j => match wBuf w j with
    | none => { MBuf.init with phase := 2 }
    | some (first, depth, _, _) =>
      let order := t.oldest first depth
      let tail := match order.getLast? with | some k => if k + 1 = first + depth then first else k + 1 | none => first
      { MBuf.init with order := order, tail := tail } }

/-! ### Contexts of a run (R351, R368, R369) -/

/-- A C tile as a context begins. -/
def Active.enterC (a : Active) (x : Nat × Nat) (w : CtxWord) : CTile :=
  let t := a.ct x
  { t with
    acc := match wInit w with | 0 => t.acc | 1 => 0 | 2 => a.const x 0 | _ => a.const x 1
    done := wOpc w == 0, held := none, count := 0, x := 0, page := none }

/-- An S tile as a context begins (R381). -/
def Active.enterS (a : Active) (x : Nat × Nat) : STile :=
  match a.cfg.port? x a.ctxi with
  | none => STile.init
  | some p => { STile.init with active := true, base := p.resolved a.params, done := false }

/-- Every S tile that some context uses. -/
def Config.sTiles (c : Config) : List (Nat × Nat) := (c.ports.map fun p => (p.row, p.col)).eraseDups

/-- Context i begins in every tile; the first tile whose entry is empty (R368). -/
def Active.enter (a : Active) (i : Nat) : Active × Option (Nat × Nat) :=
  let a := { a with ctxi := i }
  let empty := (a.cfg.tiles.map (·.1)).filter fun x => (a.word? x).isNone
  let low := empty.foldl (fun (m : Option (Nat × Nat)) x => match m with
    | some y => if tileKey x.1 x.2 < tileKey y.1 y.2 then some x else some y
    | none => some x) none
  let a := a.cfg.tiles.foldl (fun (a : Active) t => match a.word? t.1 with
    | some w => if t.2.1 = 1 then a.setCt t.1 (a.enterC t.1 w) else a.setMt t.1 ((a.mt t.1).enter w)
    | none => a) a
  (a.cfg.sTiles.foldl (fun (a : Active) x => a.setSt x (a.enterS x)) a, low)

/-- Every tile is done (R369). -/
def Active.allDone (a : Active) : Bool :=
  a.cfg.tiles.all (fun t => if t.2.1 = 1 then (a.ct t.1).done else (a.mt t.1).bufs.all fun b => b.phase == 2)
    && a.cfg.sTiles.all fun x => (a.st x).done

/-- The tokens that a delay line starts with (R380). -/
def Config.preload (c : Config) (x : Nat × Nat) (d : Nat) : List TokenVal :=
  match c.delays.find? fun e => e.1 == x && e.2.1 == d with
  | some e => e.2.2
  | none => []

/-- A run as installation leaves it (R391): lines preloaded, bits cleared, context 0. -/
def Active.start (run : ARun) (cfg : Config) (params : List Word64) : Active × Option (Nat × Nat) :=
  let a : Active := { run := run, cfg := cfg, params := params, ctxi := 0, cts := [], mts := [], sts := [], fifos := [], notifies := 0, cause := 0 }
  let a := cfg.tiles.foldl (fun (a : Active) t =>
    if t.2.1 = 1 then a.setCt t.1 { CTile.init with dl := (List.range 4).map (cfg.preload t.1) } else a) a
  a.enter 0

end Sys2Proof.Machine
end

