-- ==== Sys2Proof/Machine/Flags.lean ====
section
/-!
DEFINITION. Machine/Flags.lean: predicates, the flags of this machine: their codes (R92), Kleene logic (R112, R117),
how a comparison sets them, and writing them in the active lanes.
-/
namespace Sys2Proof

/-- The code of a predicate lane (R92). -/
def Tri.code : Tri → Nat
  | .f => 0 | .t => 1 | .u => 2
/-- A 2-bit code as a predicate lane; 0b11 is read as undecided (R119). -/
def Tri.ofCode (n : Nat) : Tri := match n % 4 with | 0 => .f | 1 => .t | _ => .u
def Tri.ofBool (b : Bool) : Tri := if b then .t else .f

/-- Kleene's tables (R117). -/
def Tri.and : Tri → Tri → Tri
  | .f, _ => .f
  | _, .f => .f
  | .t, .t => .t
  | _, _ => .u
def Tri.or : Tri → Tri → Tri
  | .t, _ => .t
  | _, .t => .t
  | .f, .f => .f
  | _, _ => .u
def Tri.not : Tri → Tri
  | .f => .t | .t => .f | .u => .u
def Tri.xor : Tri → Tri → Tri
  | .u, _ => .u
  | _, .u => .u
  | a, b => Tri.ofBool (a != b)

end Sys2Proof

namespace Sys2Proof.Machine

/-- PLOP by operation code (R117): AND, OR, XOR, NOT, ANDN, DEFT, DEFF, ISU. -/
def plopCode (op : Nat) (a b : Tri) : Tri :=
  match op with
  | 0 => Tri.and a b
  | 1 => Tri.or a b
  | 2 => Tri.xor a b
  | 3 => Tri.not a
  | 4 => Tri.and a (Tri.not b)
  | 5 => match a with | .f => .f | _ => .t
  | 6 => match a with | .t => .t | _ => .f
  | _ => match a with | .u => .t | _ => .f

/-- new in the lanes of m, old elsewhere (R92). -/
def mergePred (m : Mask) (old new : PredRow) : PredRow :=
  Vector.ofFn fun l : Lane => if m.getLsbD l.val then new[l] else old[l]

/-- A predicate written in the active lanes (R92). -/
def Env.writeP (e : Env) (s : State) (n : Nat) (r : PredRow) : State :=
  e.modSig s fun g => g.setP n (mergePred e.act (g.preg n) r)

/-- The p register that an operand names. -/
def pregNo : Operand → Nat
  | .p n => n.toNat
  | _ => 0

def Env.predSrc (e : Env) (o : Operand) : PredRow := e.sig.preg (pregNo o)

/-- A predicate row from a test on two rows. -/
def testRow (f : Word64 → Word64 → Tri) (a b : Row) : PredRow := Vector.ofFn fun l : Lane => f a[l] b[l]

/-- Comparison codes eq, ne, lt, le, gt, ge on an ordering (R180, R187). -/
def ccHolds (cc : Nat) (o : Ordering) : Bool :=
  match cc, o with
  | 0, .eq => true
  | 1, .lt => true
  | 1, .gt => true
  | 2, .lt => true
  | 3, .lt => true
  | 3, .eq => true
  | 4, .gt => true
  | 5, .gt => true
  | 5, .eq => true
  | _, _ => false

end Sys2Proof.Machine
end

