-- ==== Sys2Proof/Machine/Memory.lean ====
section
/-!
DEFINITION. Machine/Memory.lean: global accesses of a path on their way: which writes come first in program order
(R264, R269), what becomes of a write that is performed (R289), SC operations (R285, R286), and the checks and the
parting with reason PAGE that every access begins with (R252).
-/
namespace Sys2Proof.Machine

/-! ### Program order -/

/-- n bytes at a place and m bytes at another have a byte in common. -/
def Place.meets (p : Place) (n : Nat) (q : Place) (m : Nat) : Bool :=
  match p, q with
  | .hbm a, .hbm b => decide (a < b + m) && decide (b < a + n)
  | .host a, .host b => decide (a < b + m) && decide (b < a + n)
  | .peer d k a, .peer e l b => d == e && k == l && decide (a < b + m) && decide (b < a + n)
  | _, _ => false

def Access.meets (a b : Access) : Bool := a.place.meets a.size b.place b.size

/-- The place some bytes further. -/
def Place.add (p : Place) (n : Nat) : Place :=
  match p with
  | .hbm a => .hbm (a + n)
  | .host a => .host (a + n)
  | .peer d k a => .peer d k (a + n)
def Place.isHost : Place → Bool
  | .host _ => true
  | _ => false

/-- SC operations that are not yet performed. -/
def State.scOps (s : State) : List ScOp := s.thimble.held ++ s.thimble.queues.flatMap (fun (p : Nat × List ScOp) => p.2)

/-- Own SC operations of some lanes of a signature that meet an access and are not yet performed. -/
def State.scBefore (s : State) (uid : Nat) (m : Mask) (a : Access) : List Nat :=
  (s.scOps.filter fun o => o.uid == uid && (o.mask &&& m) != 0 && o.acc.meets a).map (·.id)

/-- Some write that is not yet performed and acknowledged satisfies p. The writes of a signature may stand at a core that
its quire has left (R76). -/
def State.anyPend (s : State) (p : PendW → Bool) : Bool := s.cores.any fun (c : Nat × Core) => c.2.pend.any p

/-- A write that the lanes m of a signature have made and that is not yet performed meets an access. -/
def State.writeBefore (s : State) (uid : Nat) (m : Mask) (a : Access) : Bool :=
  s.anyPend fun w => w.uid == uid && !w.posted && (w.mask &&& m) != 0 && w.acc.meets a

/-- A plain store of the signature is not yet performed (R277). -/
def State.storesLeft (s : State) (uid : Nat) : Bool :=
  s.anyPend fun w => w.uid == uid && !w.posted && w.count == 0 && w.waiter.isNone

/-- A write of the signature to an aperture is not yet acknowledged (R270). -/
def State.apertureLeft (s : State) (uid : Nat) : Bool :=
  s.anyPend fun w => w.uid == uid && (w.acc.place.isHost || w.acc.place.isPeer)

/-- What a release waits for (R277, R293): plain stores of the signature; with sy also acknowledgements. -/
def State.releaseWaits (s : State) (uid : Nat) (sy : Bool) : Bool := s.storesLeft uid || (sy && s.apertureLeft uid)

/-- A plain store that precedes in the path's program order is not yet performed (R284, R287). -/
def Env.storesLeft (e : Env) : Bool :=
  e.s.anyPend fun w => w.uid == e.sig.uid && !w.posted && w.count == 0 && w.waiter.isNone && (w.mask &&& e.path.mask) != 0

/-- What follows a release of the path's plain stores; until they are performed the instruction waits. -/
def Env.released (e : Env) (k : Unit → Eff) : Eff := if e.storesLeft then .stall else k ()

/-! ### Performing writes -/

def State.modRecord (s : State) (core pseq : Nat) (f : Record → Record) : State :=
  s.modCore core fun k => { k with records := k.records.map fun r => if r.pseq == pseq then f r else r }

/-- The value that an awaited access has returned. -/
def Wait.gets (w : Wait) (va v : Nat) (lane : Nat) : Wait :=
  match w with
  | .load d f sx iv pr sc acc => .load d f sx iv pr sc (acc.map fun a => if a.lane == lane && a.va == va then { a with got := some v } else a)
  | .scStore n => .scStore (n - 1)
  | x => x

/-- Some operations leave the outstanding counter (R289). -/
def State.uncount (s : State) (core n : Nat) : State := s.modCore core fun k => { k with outst := k.outst - n }

/-! ### Races (R8, R88) -/

/-- What a plain read returns that races with a plain store of another signature: a free value, by step, record and address
(log entry 13). -/
def State.racyValue (s : State) (core pseq va : Nat) : Nat :=
  (Config.freeWord (2 ^ 250 * (s.tick + 1) + 2 ^ 200 * core + 2 ^ 100 * pseq + va)).toNat

/-- A write of another signature that is not yet performed and meets an access. -/
def PendW.rival (w : PendW) (uid : Nat) (a : Access) : Bool :=
  w.uid != uid && !w.posted && (match w.acc.op with | .write _ => true | _ => false) && w.acc.meets a

/-- A plain read races with a plain store of another signature that is not yet performed; a read of IVLD does not with one that it
observes wholly or not at all (R221). -/
def State.racesPend (s : State) (uid : Nat) (interval : Bool) (a : Access) : Bool :=
  s.anyPend fun w => w.rival uid a && !(interval && decide (8 ≤ w.acc.size))

/-- An IVLD. -/
def Wait.interval : Wait → Bool
  | .load _ _ _ iv _ _ _ => iv
  | _ => false

/-- The plain reads of a load that meet an access return a free value. -/
def Wait.race (w : Wait) (a : Access) (v : Nat → Nat) : Wait :=
  match w with
  | .load d f sx iv pair false acc => if iv && decide (8 ≤ a.size) then w else .load d f sx iv pair false (acc.map fun x =>
    if x.op == .read && x.got.isNone && x.meets a then { x with got := some (v x.va % 2 ^ (8 * x.size)) } else x)
  | w => w

/-- A plain store of a signature is performed while loads of other signatures that meet it are on their way. -/
def State.race (s : State) (uid : Nat) (a : Access) : State :=
  let hits := fun (k : Core) (r : Record) => !r.ready && (match AMap.get? k.sigs r.slot with | some g => g.uid != uid | none => false)
    && (match r.wait with
      | .load _ _ _ iv _ false acc => !(iv && decide (8 ≤ a.size)) && acc.any fun x => x.op == .read && x.got.isNone && x.meets a
      | _ => false)
  let mark := fun (c : Nat) (k : Core) (r : Record) => if hits k r then { r with wait := r.wait.race a (s.racyValue c r.pseq) } else r
  { s with cores := s.cores.map fun (c : Nat × Core) => (c.1,
      if c.2.records.any (hits c.2) then { c.2 with records := c.2.records.map (mark c.1 c.2) } else c.2) }

/-- The bytes that a write would leave, free where it meets another one. -/
def Access.blurred (a o : Access) (bs : List Byte) (free : Nat) : List Byte :=
  bs.zipIdx.map fun x => if (a.place.add x.2).meets 1 o.place o.size then Config.freeByte (free + x.2) else x.1

/-- A plain store of a signature is performed while one of another signature that meets it is on its way: what either leaves in the
bytes that both write is free (R88), but for two IVSTs, of which each is stored whole (R221; log entry 13). -/
def State.clash (s : State) (w : PendW) : PendW × State :=
  let rival := fun (x : PendW) => x.rival w.uid w.acc && !(x.iv && w.iv)
  if !s.anyPend rival then (w, s)
  else
    let blur := fun (a o : Access) (free : Nat) => match a.op with
      | .write bs => { a with op := .write (a.blurred o bs free) }
      | _ => a
    let all := s.cores.flatMap fun (c : Nat × Core) => c.2.pend.filter rival
    let mine := all.foldl (fun a x => blur a x.acc s.free) w.acc
    let pends := fun (k : Core) => k.pend.map fun x => if rival x then { x with acc := blur x.acc w.acc (s.free + 128 + 128 * x.born) } else x
    ({ w with acc := mine }, { s with
      cores := AMap.mapVals s.cores fun k => if k.pend.any rival then { k with pend := pends k } else k
      free := s.free + 256 + 128 * s.births })

/-- A write or an update of a core is performed: its old value goes to the record that waits, its count is removed once
no part of the lane's access is left, a write to the host stays until it is acknowledged (R270, R289). -/
def State.performPend (s : State) (core ix : Nat) (w : PendW) (peer : Nat) : State :=
  let (w, s) := match w.acc.op with | .write _ => (s.race w.uid w.acc).clash w | _ => (w, s)
  let (old, s) := (s.storeMeets (s.core core).ctx w.acc).performAccess w.acc peer
  let s := match w.waiter with
    | some q => s.modRecord core q fun r => { r with wait := r.wait.gets w.acc.va old w.acc.lane }
    | none => s
  let rest := (s.core core).pend.eraseIdx ix
  let parts := rest.any fun x => x.born == w.born && x.acc.lane == w.acc.lane && !x.posted
  let s := s.modCore core fun k => { k with
    pend := if w.acc.place.isHost then k.pend.set ix { w with posted := true } else rest }
  if parts then s else s.uncount core w.count

/-- Whether a write may be performed now: none of its path that meets it and comes first is left. -/
def State.pendReady (s : State) (core ix : Nat) (w : PendW) : Bool :=
  let first := fun (x : PendW) => x.uid == w.uid && !x.posted && (x.mask &&& w.mask) != 0 && x.acc.meets w.acc
  !w.posted && ((s.core core).pend.take ix).all (fun x => !first x) && !(s.anyPend fun x => decide (x.born < w.born) && first x)
    && !(s.scOps.any fun o => w.after.contains o.id)

/-- Every write of a core that can be performed is performed. -/
def State.drainCore (fuel : Nat) (s : State) (core : Nat) : State :=
  match fuel with
  | 0 => s
  | fuel + 1 =>
    let k := s.core core
    match (List.range k.pend.length).find? fun i => match k.pend[i]? with | some w => s.pendReady core i w | none => false with
    | none => s
    | some i => match k.pend[i]? with
      | some w =>
        let (v, s) := s.drawWord
        (s.performPend core i w v.toNat).drainCore fuel core
      | none => s

/-! ### SC operations (R285, R286) -/

/-- A held SC operation is sent to its node once the path's earlier SC operations and its earlier writes to the same
bytes are performed. -/
def State.sendSc (s : State) : State :=
  let left := s.scOps.map (·.id)
  let ready := fun (o : ScOp) => !(o.after.any left.contains)
    && !(s.anyPend fun w => w.uid == o.uid && !w.posted && (w.mask &&& o.mask) != 0 && w.acc.meets o.acc && !w.after.contains o.id)
  let go := s.thimble.held.filter ready
  if go.isEmpty then s
  else
    { s with thimble := { s.thimble with
      held := s.thimble.held.filter fun o => !ready o
      queues := go.foldl (fun (q : AMap (List ScOp)) o => AMap.set q o.node (AMap.getD q o.node [] ++ [o])) s.thimble.queues } }

/-- A record waits for nothing more. -/
def Record.scDone (r : Record) : Bool :=
  match r.wait with
  | .scStore 0 => true
  | _ => false

/-- An awaited access of a record meets an uncorrectable soft error: the record relaunches carrying ECC (R142, R266). -/
def State.wakeEcc (s : State) (ctx core pseq va : Nat) : State :=
  let (ord, s) := s.takeOrd ctx
  s.modRecord core pseq fun r => if r.ready then r else r.wakeWith s.tick ord (trapAt cECC va)

/-- An SC operation is performed at its node. -/
def State.performSc (s : State) (o : ScOp) : State :=
  let s := if o.counted then s.uncount o.core 1 else s
  if s.eccMeets o.acc then
    let s := s.countEcc o.acc.place
    match o.waiter with
    | some q => s.wakeEcc o.ctx o.core q o.acc.va
    | none => s
  else
  let (old, s) := (s.storeMeets (some o.ctx) o.acc).performAccess o.acc 0
  match o.waiter with
  | none => s
  | some q =>
    let s := s.modRecord o.core q fun r => { r with wait := r.wait.gets o.acc.va old o.acc.lane }
    if (s.core o.core).records.any fun r => r.pseq == q && r.scDone && !r.ready then
      let (ord, s) := s.takeOrd o.ctx
      s.modRecord o.core q fun r => r.wake s.tick ord 0
    else s

/-- New SC operations of one instruction: each after the path's earlier ones and after the one before it. -/
def State.queueSc (s : State) (ops : List ScOp) : State :=
  ops.foldl (fun (s : State) o =>
    let before := (s.scOps.filter fun x => x.uid == o.uid && (x.mask &&& o.mask) != 0).map (·.id)
    { s with thimble := { s.thimble with
      held := s.thimble.held ++ [{ o with id := s.thimble.nextId, after := before }], nextId := s.thimble.nextId + 1 } }) s

/-! ### The checks of an access (R252) -/

/-- The path parts for a page that is not resident; every such page is asked for. -/
def Env.partPage (e : Env) (pages : List Leaf) (va : Nat) : Eff :=
  .part (e.s.askFills e.sig.ctx pages)
    { reason := 0x03, evkey := BitVec.ofNat 64 (va / 2 ^ 18 * 2 ^ 18), evaux := BitVec.ofNat 64 va, resume := e.path.pc,
      wait := .none, counts := false }

/-- The checks on some accesses, then what follows with their places. -/
def Env.reached (e : Env) (n : Need) (cell : Leaf → Bool) (ws : List Want) (k : List Place → Eff) : Eff :=
  match e.s.reach e.sig.ctx n cell ws with
  | .fail t => .trap t
  | .absent pages va => e.partPage pages va
  | .ok places => k places

/-- Every page may be touched. -/
def anyPage (_ : Leaf) : Bool := true

/-- The checks on one access of each active lane, then what follows with lane, address and place. -/
def Env.lanesReached (e : Env) (n : Need) (ea : Row) (size : Nat) (k : List (Lane × Nat × Place) → Eff) : Eff :=
  let ls := lanesOf e.act
  e.reached n anyPage (ls.map fun l => ⟨l.val, ea[l], size⟩) fun places => k ((ls.zip places).map fun x => (x.1, ea[x.1].toNat, x.2))

/-- The physical address of a resident byte (R244). -/
def State.paOf (s : State) (ctx va : Nat) : Nat :=
  match s.walk ctx va with
  | some l => l.addr + va % l.size
  | none => 0

/-- The node of an SC operation: the home slice of its line (R250, R285). -/
def State.nodeOf (s : State) (ctx va : Nat) : Nat := homeOf (s.paOf ctx va)

/-- ACCESS where a peer, or this device through a window of its own, refuses (R435). -/
def Env.peerFault (e : Env) (need : Need) (n : Nat) (acc : List (Lane × Nat × Place)) : Option Trap :=
  (acc.find? fun x => e.s.refuses need x.2.2 n).map fun x => trapAt cACCESS x.2.1

end Sys2Proof.Machine
end

