-- ==== Sys2Proof/Machine/Budget.lean ====
section
/-!
DEFINITION. Machine/Budget.lean: what DRAM accesses of the central die are charged to (R259, R260, R300): bursts of 64 bytes
by pseudo-channel, the CD budget and its CE part, the counters CDB and CEB (R262).
-/
namespace Sys2Proof.Machine

/-- More on a counter (R262). -/
def PChan.add (c : PChan) (num n : Nat) : PChan :=
  { c with counters := AMap.set c.counters num (AMap.getD c.counters num 0 + BitVec.ofNat 64 n) }

/-- Bursts by stack × 64 + pseudo-channel. -/
abbrev Bursts := AMap Nat

/-- The pseudo-channel of a 64-byte block of HBM. -/
def chanKey (block : Nat) : Nat := stackOf (64 * block) * 64 + chanOf (64 * block)

def Bursts.one (b : Bursts) (block n : Nat) : Bursts := AMap.set b (chanKey block) (AMap.getD b (chanKey block) 0 + n)

/-- The bursts of the blocks that an engine operation has touched: one for each block read and for each block written
(log entry 46). -/
def burstsOf (touched : List Nat) : Bursts := touched.foldl (fun b x => b.one (x / 2) 1) []

/-- The bursts of a whole frame of HBM: its 4 KiB granules in turn; a page above 256 KiB is spread evenly over its channels. -/
def frameBursts (pa size : Nat) : Bursts :=
  if size ≤ 2 ^ 18 then
    (List.range (size / 512)).foldl (fun b i => match hbmOf (pa + 512 * i) with
      | some a => b.one (a / 64) 8
      | none => b) []
  else
    let homes := if winOf pa == .striped then List.range Config.nStacks else [stackOf ((hbmOf pa).getD 0)]
    homes.flatMap fun st => (List.range 64).map fun c => (st * 64 + c, (size / 64 + homes.length * 64 - 1) / (homes.length * 64))

/-- A pseudo-channel issues up to n bursts of the central die, of the CE sub-budget where `ce`: no more than the counters hold,
none during a forced all-bank refresh (R260, R261). -/
def PChan.issue (c : PChan) (ce : Bool) (n : Nat) : Nat × PChan :=
  let cd := c.left.getD 0 0
  let sub := c.left.getD 1 0
  let k := if c.allBank then 0 else min n (if ce then min cd sub else cd)
  let c := { c with left := (c.left.set 0 (cd - k)) }.add 0x01 k
  (k, if ce then { c with left := c.left.set 1 (sub - k) }.add 0x02 k else c)

/-- As many of the bursts that are needed and not yet issued as the counters allow are issued. -/
def State.payBursts (s : State) (ce : Bool) (need paid : Bursts) : Bursts × State :=
  need.foldl (fun (a : Bursts × State) (x : Nat × Nat) =>
    let left := x.2 - AMap.getD a.1 x.1 0
    let (k, c) := ((a.2.stack (x.1 / 64)).chan (x.1 % 64)).issue ce left
    if k = 0 then a
    else (AMap.set a.1 x.1 (AMap.getD a.1 x.1 0 + k), a.2.modStack (x.1 / 64) fun t => t.modChan (x.1 % 64) fun _ => c)) (paid, s)

/-- Every burst that is needed has been issued. -/
def Bursts.covered (need paid : Bursts) : Bool := need.all fun x => decide (x.2 ≤ AMap.getD paid x.1 0)

/-- A line that the central die does not hold is fetched: as many of its two bursts are issued as CD lets through (R250, R259, R260;
log entry 46). Answers whether the line is there. -/
def State.fetchLine (s : State) (line : Nat) : Bool × State :=
  let key := chanKey (2 * line)
  let need := if s.l2.half.contains line then 1 else 2
  let (k, c) := ((s.stack (key / 64)).chan (key % 64)).issue false need
  let t := s.modStack (key / 64) fun t => t.modChan (key % 64) fun _ => c
  if k = 0 then (false, s)
  else if k < need then (false, { t with l2 := { t.l2 with half := insertNat t.l2.half line } })
  else (true, { t with l2 := { t.l2 with half := t.l2.half.filter (· != line) } }.hold (128 * line) 128)

/-- The lines of HBM that the accesses of a load or an update still need are fetched, as far as CD allows; whether all are there. -/
def State.fetchLines (s : State) (acc : List Access) : Bool × State :=
  let lines := acc.foldl (fun (l : List Nat) a => match a.place, a.got with
    | .hbm p, none => (linesOf p a.size).foldl insertNat l
    | _, _ => l) []
  (lines.filter fun n => !s.l2.held.contains n).foldl (fun (x : Bool × State) n =>
    let (ok, s) := x.2.fetchLine n
    (x.1 && ok, s)) (true, s)

/-- The lines of HBM that n bytes at a place need. -/
def State.fetchAt (s : State) (p : Place) (n : Nat) : Bool × State :=
  s.fetchLines [{ lane := 0, va := 0, size := n, place := p, op := .read, got := none }]

/-- The bursts that write the bytes back that L2 has changed in some lines (R259): one for each 64 bytes with such a byte. -/
def State.backBursts (s : State) (mine : Nat → Bool) : Bursts :=
  burstsOf (((s.l2.old.filter fun p => mine (p.1 / 128)).map fun p => 2 * (p.1 / 64) + 1).foldl insertNat [])

end Sys2Proof.Machine
end

