-- ==== Sys2Proof/Machine/Control.lean ====
section
/-!
DEFINITION. Machine/Control.lean: branches, arms and the path stack (R94 to R98), and the meanings of the control group
(R100 to R108) with TRAP and TRET (R417, R425).
-/
namespace Sys2Proof.Machine

/-! ### Arms (R95) -/

/-- One arm of a branch: its number (0 taken, 1 fall-through, 2 undecided), its lanes, its first PC. -/
structure Arm where
  no : Nat
  mask : Mask
  pc : Word64

/-- The path of an arm, with the signature's current relaunch sequence number (R95). Every arm of a split that a trap
handler's path makes runs the handler (log entry 56). -/
def Arm.path (a : Arm) (p : Path) (rseq idx nest : Nat) : Path :=
  { p with idx := idx, mask := a.mask, pc := a.pc, nest := some nest, rseq := rseq, passes := 0, wdog := none }

/-- A deferred entry for an arm (R95). -/
def Arm.deferred (a : Arm) (id nest pidx : Nat) (h : Bool) : StackEntry :=
  ⟨id, false, nest, a.mask, a.mask, a.pc, 0, pidx, none, h⟩

/-- The split of a path into two or three arms (R95); the stack grows by a join entry and the deferred arms. -/
def Sig.split (g : Sig) (p : Path) (arms : List Arm) : Sig :=
  let id := g.nextNest
  let rest := g.paths.filter fun q => q.idx != p.idx
  if g.stack.isEmpty then
    let join : StackEntry := ⟨id, true, id, p.mask, p.mask, 0, arms.length, 0, none, p.handler⟩
    { g with
      paths := (arms.take 2).map fun a => a.path p g.rseq a.no id
      stack := join :: (arms.drop 2).map fun a => a.deferred (id + 1) id a.no p.handler
      nextNest := id + 2 }
  else
    let join : StackEntry := ⟨id, true, id, p.mask, p.mask, 0, arms.length, p.idx, p.nest, p.handler⟩
    let later := (arms.drop 1).reverse
    { g with
      paths := rest ++ ((arms.take 1).map fun a => a.path p g.rseq p.idx id)
      stack := g.stack ++ join :: (later.zip (List.range later.length)).map fun a => a.1.deferred (id + 1 + a.2) id p.idx p.handler
      nextNest := id + 1 + later.length }

/-- Entries a split pushes (R95). -/
def Sig.pushes (g : Sig) (n : Nat) : Nat := if g.stack.isEmpty then n - 1 else n

/-- R95 on the non-empty arms, in order. -/
def Env.branch (e : Env) (s : State) (arms : List Arm) : Eff :=
  match arms.filter fun a => a.mask != 0 with
  | [] => .done s
  | [a] => .moved (e.modPath s fun p => { p with pc := a.pc })
  | l =>
    if 32 < e.sig.stack.length + e.sig.pushes l.length then .trap (trapOf cPATHOVF)
    else .moved (e.modSig s fun g => g.split e.path l)

/-- The slot number of a branch target (R13). -/
def Env.target (e : Env) (off : BitVec 21) : Int := (slotOf e.path.pc : Int) + off.toInt

/-- ACCESS for a target outside the address space (R13). -/
def Env.badTarget (e : Env) (off : BitVec 21) : Option Trap :=
  if slotOk (e.target off) then none else some ⟨cACCESS, addrOf (e.target off), none⟩

/-- The taken arm and the fall-through arm of a branch by a slot offset (R102). -/
def Env.twoArms (e : Env) (pc : Word64) : List Arm :=
  [⟨0, e.act, pc⟩, ⟨1, e.path.mask &&& ~~~e.act, e.next⟩]

def plain4 (o : Ops4) : Front := { ok := fun e => e.ops4Ok o unused unused unused unused }

/-! ### Arrival at a nest (R97, R98) -/

/-- How an arrival ends. -/
inductive Arrival where
  /-- the nest waits for other arms; a deferred arm may have become ready -/
  | waits (nest : Nat) (arm : Option Path)
  /-- the merged path -/
  | merged (p : Path)

/-- Remove the topmost deferred entry of a nest. -/
def dropTop (nest : Nat) (l : List StackEntry) : List StackEntry :=
  match l.reverse.find? fun x => !x.join && x.nest == nest with
  | some x => l.filter fun y => y.id != x.id
  | none => l

/-- The loop of R97 over deferred entries whose lanes have all exited: the stack and the count left. -/
def skipEmpty (fuel nest count : Nat) (l : List StackEntry) : Nat × List StackEntry :=
  match fuel with
  | 0 => (count, l)
  | fuel + 1 =>
    match l.reverse.find? fun x => !x.join && x.nest == nest with
    | some x => if 0 < count ∧ x.mask = 0 then skipEmpty fuel nest (count - 1) (dropTop nest l) else (count, l)
    | none => (count, l)

/-- One arrival of path p at its innermost nest, and, while a merge is left without lanes, at the next one out (R98).
`pc` is the next PC of the arriving instruction. A deferred arm takes the signature's current relaunch sequence number, the
merged path keeps the arriving path's (log entry 56). Answers the signature, the nests that have closed, how it ends; none
where there is no nest. -/
def Sig.arrive (fuel : Nat) (g : Sig) (p : Path) (pc : Word64) (closed : List Nat) : Sig × List Nat × Option Arrival :=
  match fuel, p.nest with
  | 0, _ => (g, closed, none)
  | _, none => (g, closed, none)
  | fuel + 1, some nest =>
    match g.stack.find? fun x => x.join && x.id == nest with
    | none => (g, closed, none)
    | some j =>
      let (count, stack) := skipEmpty g.stack.length nest (j.count - 1) g.stack
      if 0 < count then
        let stack1 := stack.map fun x => if x.join && x.id == nest then { x with count := count } else x
        match stack.reverse.find? fun x => !x.join && x.nest == nest with
        | some d =>
          let arm : Path := { idx := d.pidx, mask := d.mask, pc := d.pc, nest := some nest, rseq := g.rseq, passes := 0,
                              handler := p.handler, port := p.port, fault := none, wdog := none, held := false,
                              stalled := false }
          ({ g with stack := dropTop nest stack1 }, closed, some (.waits nest (some arm)))
        | none => ({ g with stack := stack1 }, closed, some (.waits nest none))
      else
        let g := { g with stack := stack.filter fun x => !(x.join && x.id == nest) }
        let m : Path := { p with idx := j.pidx, mask := j.mask, pc := pc, nest := j.parent }
        if j.mask = 0 then g.arrive fuel m pc (nest :: closed) else (g, nest :: closed, some (.merged m))

/-- Where a join entry stands in the stack (R141). -/
def Sig.position (g : Sig) (nest : Nat) : Nat := (g.stack.findIdx? fun x => x.join && x.id == nest).getD 0

/-- The records of paths parted at closed nests are discarded (R97), and writes of every arm stand in the merged path's
program order (R269). -/
def Env.closeNests (e : Env) (s : State) (nests : List Nat) : State :=
  let mine := fun (r : Record) => r.slot == e.sel.slot && r.reason == 0x0B && (match r.nest with | some n => nests.contains n | none => false)
  let gone := (s.core e.sel.core).records.filter mine
  let s := s.freeSpills e.sig.ctx e.sel.core gone
  let s := gone.foldl (fun (s : State) r => s.loseLive e.sel.core e.sel.slot r.mask r.lb r.kept) s
  let whole := e.sig.stack.foldl (fun (m : Mask) x => if x.join && nests.contains x.id then m ||| x.orig else m) 0
  let wide := fun (u : Nat) (m : Mask) => if u == e.sig.uid && (m &&& whole) != 0 then m ||| whole else m
  let sc := fun (o : ScOp) => { o with mask := wide o.uid o.mask }
  let s := { s with thimble := { s.thimble with
    held := s.thimble.held.map sc, queues := AMap.mapVals s.thimble.queues fun l => l.map sc } }
  let s := s.modCore e.sel.core fun k => { k with records := k.records.filter fun r => !mine r }
  { s with cores := AMap.mapVals s.cores fun k => { k with pend := k.pend.map fun w => { w with mask := wide w.uid w.mask } } }

/-! ### Exit of a signature (R73, R98, R278) -/

/-- The last lane of a signature has exited: its clasps are released, in deterministic mode in the serial phase (R86); its slot's
state ends. -/
def Env.sigExit (e : Env) (s : State) : State :=
  let s := if (s.claspsOf e.sig.uid).isEmpty then s
    else if s.det e.sig.ctx then s.modCtx e.sig.ctx fun c => { c with releases := c.releases ++ [(e.sig.place ++ [e.path.idx], e.sig.uid)] }
    else s.releaseClasps e.sig.ctx e.sig.uid
  let s := s.freeSpills e.sig.ctx e.sel.core ((s.core e.sel.core).records.filter fun r => r.slot == e.sel.slot)
  s.dropSigs e.sel.core e.sig.ctx [e.sel.slot]

/-! ### Meanings -/

/-- R101. -/
def execNop (h : Hdr) (o : Ops4) : State → Host.Outcome State Fault Refusal :=
  perform h o.list (plain4 o) noSync fun e => .done e.s

/-- R102. -/
def execBra (h : Hdr) (o : Ops2) (t _u : BitVec 21) : State → Host.Outcome State Fault Refusal :=
  perform h o.list { ok := fun e => e.ops2Ok o unused unused } noSync fun e =>
    match e.badTarget t with
    | some x => .trap x
    | none => e.branch e.s (e.twoArms (addrOf (e.target t)))

/-- R103. -/
def execBtri (h : Hdr) (o : Ops2) (t u : BitVec 21) : State → Host.Outcome State Fault Refusal :=
  perform h o.list { ok := fun e => e.ops2Ok o unused { kinds := [.p] } } noSync fun e =>
    let p := e.predSrc o.a
    let at_ := e.act &&& maskOf fun l => p[l] == .t
    let au := e.act &&& maskOf fun l => p[l] == .u
    let bad := (if at_ = 0 then none else e.badTarget t).orElse fun _ => if au = 0 then none else e.badTarget u
    match bad with
    | some x => .trap x
    | none => e.branch e.s [⟨0, at_, addrOf (e.target t)⟩, ⟨1, e.path.mask &&& ~~~at_ &&& ~~~au, e.next⟩,
                            ⟨2, au, addrOf (e.target u)⟩]

/-- The branch of BRX and RET to a target in a register (R104). -/
def Env.branchTo (e : Env) (a : Operand) : Eff :=
  let row := e.raw a
  let t := match lowest e.act with | some l => row[l] | none => 0
  let taken := e.act &&& maskOf fun l => row[l] == t
  if !pcValid t then .trap ⟨cMISALIGN, t, none⟩
  else e.branch e.s [⟨0, taken, t⟩, ⟨1, e.path.mask &&& ~~~taken, e.next⟩]

/-- R104. -/
def execBrx (h : Hdr) (o : Ops4) : State → Host.Outcome State Fault Refusal :=
  perform h o.list { ok := fun e => e.ops4Ok o unused { kinds := [.s, .v] } unused unused } noSync fun e => e.branchTo o.a

/-- R104: only the s form. -/
def execRet (h : Hdr) (o : Ops4) : State → Host.Outcome State Fault Refusal :=
  perform h o.list { ok := fun e => e.ops4Ok o unused { kinds := [.s] } unused unused } noSync fun e => e.branchTo o.a

/-- The number of an s register. -/
def sregNo : Operand → Nat
  | .s n _ _ => n.toNat
  | _ => 0

/-- R105. -/
def execCall (h : Hdr) (o : Ops2) (t _u : BitVec 21) : State → Host.Outcome State Fault Refusal :=
  perform h o.list { ok := fun e => e.ops2Ok o { kinds := [.s] } unused } noSync fun e =>
    match e.badTarget t with
    | some x => .trap x
    | none => e.branch (e.writeS e.s (sregNo o.d) e.next) (e.twoArms (addrOf (e.target t)))

/-- R106: the target is checked when a lane takes it. -/
def execLoopd (h : Hdr) (o : Ops2) (t _u : BitVec 21) : State → Host.Outcome State Fault Refusal :=
  perform h o.list { ok := fun e => e.ops2Ok o { kinds := [.s] } unused } noSync fun e =>
    let c := e.sig.sreg (sregNo o.d) - 1
    if c = 0 then .done (e.writeS e.s (sregNo o.d) c)
    else match e.badTarget t with
      | some x => .trap x
      | none => e.branch (e.writeS e.s (sregNo o.d) c) (e.twoArms (addrOf (e.target t)))

/-- R97. -/
def execJoin (h : Hdr) (o : Ops4) : State → Host.Outcome State Fault Refusal :=
  perform h o.list (plain4 o) noSync fun e =>
    match e.sig.arrive 33 e.path e.next [] with
    | (_, _, none) => .done e.s
    | (g, closed, some (.merged m)) =>
      let s := e.closeNests e.s closed
      .moved (e.modSig s fun g0 => { g0 with
        stack := g.stack, paths := (g0.paths.filter fun q => q.idx != e.path.idx) ++ [m] })
    | (g, _, some (.waits nest arm)) =>
      .part (e.modSig e.s fun g0 => { g0 with stack := g.stack })
        { reason := 0x0B, evkey := BitVec.ofNat 64 (e.sig.position nest), resume := e.next, wait := .none, arm := arm }

/-- The effect of EXIT on a signature (R98): lanes leave the path and every stack entry; an empty path arrives at its
nest without lanes, or the signature exits. -/
def Env.exitLanes (e : Env) : Eff :=
  let left := e.path.mask &&& ~~~e.act
  let thin := fun (x : StackEntry) => { x with mask := x.mask &&& ~~~e.act }
  let cut := fun (g : Sig) => { g with stack := g.stack.map thin }
  let p := { e.path with mask := left }
  if left ≠ 0 then .done (e.modSig e.s fun g => (cut g).modPath e.path.idx fun q => { q with mask := left })
  else
    let others := fun (g : Sig) => g.paths.filter fun q => q.idx != e.path.idx
    let zero := fun (s : State) => e.modSig s fun g => { g with wdog := 0, iret := g.iret + 1, quantum := g.quantum + 1 }
    match (cut e.sig).arrive 33 p e.next [] with
    | (_, _, none) =>
      if !(e.s.claspsOf e.sig.uid).isEmpty && e.s.storesLeft e.sig.uid then .stall
      else .over (e.sigExit (zero e.s))
    | (g, closed, some (.merged m)) =>
      let m := { m with passes := 0, held := false, stalled := false, fault := none, wdog := none }
      .over (zero (e.modSig (e.closeNests e.s closed) fun g0 => { g0 with stack := g.stack, paths := others g0 ++ [m] }))
    | (g, closed, some (.waits _ arm)) =>
      let s := e.closeNests e.s closed
      .over (zero (e.modSig s fun g0 =>
        let ps := others g0 ++ arm.toList
        { g0 with stack := g.stack, paths := ps }))

/-- R98; PRIV in a handler (R416), where some lane is active (R31). -/
def execExit (h : Hdr) (o : Ops4) : State → Host.Outcome State Fault Refusal :=
  perform h o.list (plain4 o) noSync fun e => if e.path.handler then .trap (trapOf cPRIV) else e.exitLanes

/-- R107. -/
def execYield (h : Hdr) (o : Ops4) : State → Host.Outcome State Fault Refusal :=
  perform h o.list (plain4 o) noSync fun e =>
    .part e.s { reason := 0x0C, evkey := 0, resume := e.next, wait := .none, ready := true }

/-- R425. -/
def execTrap (h : Hdr) (o : Ops2) (imm : BitVec 32) : State → Host.Outcome State Fault Refusal :=
  perform h o.list { ok := fun e => e.ops2Ok o unused unused } noSync fun _ => .trap ⟨cTRAP, imm.setWidth 64, none⟩

/-- R108. -/
def execBpt (h : Hdr) (o : Ops4) : State → Host.Outcome State Fault Refusal :=
  perform h o.list { ok := fun e => e.ops4Ok o unused { kinds := [.zero, .imm] } unused unused } noSync fun e =>
    .trap ⟨cBPT, e.uni o.a, none⟩

/-- TRET is reserved to handlers (R412). -/
def tretFront (o : Ops4) : Front := { ok := (plain4 o).ok, priv := fun e => !e.path.handler }

/-- A nest that the handler opened is open (R416). -/
def Env.handlerNest (e : Env) : Bool :=
  match e.path.nest with
  | some n => e.sig.stack.any fun x => x.join && x.id == n && x.byHandler
  | none => false

/-- A t register in the lowest lane of the path's mask (R417). -/
def Env.tLow (e : Env) (n : Nat) : Word64 := match lowest e.path.mask with | some l => (e.port.treg n)[l] | none => 0

/-- .retry and .skip (R417): the path goes on at a PC computed from t1. -/
def Env.tret (e : Env) (f : Word64 → Word64) : Eff :=
  if e.handlerNest then .trap (trapOf cPRIV)
  else if !pcValid (e.tLow 1) then .trap ⟨cMISALIGN, e.tLow 1, none⟩
  else .moved (e.leaveHandler e.s (f (e.tLow 1)))

/-- R417, .retry. -/
def execTretRetry (h : Hdr) (o : Ops4) : State → Host.Outcome State Fault Refusal :=
  perform h o.list (tretFront o) noSync fun e => e.tret id

/-- R417, .skip. -/
def execTretSkip (h : Hdr) (o : Ops4) : State → Host.Outcome State Fault Refusal :=
  perform h o.list (tretFront o) noSync fun e => e.tret nextPc

/-- R417, .kill. -/
def execTretKill (h : Hdr) (o : Ops4) : State → Host.Outcome State Fault Refusal :=
  perform h o.list (tretFront o) noSync fun e =>
    if e.handlerNest then .trap (trapOf cPRIV)
    else
      let t3 := e.port.treg 3
      .over (e.killWith e.s ⟨(e.tLow 0).toNat % 256, e.tLow 1, e.tLow 2, (e.tLow 5).setWidth 32 ++ e.tLow 4,
                             maskOf fun l => t3[l].getLsbD 0, maskOf fun l => t3[l].getLsbD 1⟩)

end Sys2Proof.Machine
end

