-- ==== Sys2Proof/Machine/Approx.lean ====
section
/-!
DEFINITION. Machine/Approx.lean: the approximate functions of R190: what the manual fixes of them (special values, exact
cases, error bounds) by enclosing the exact value in fixed point, and the free choice within the bound (log entry 10).
-/
namespace Sys2Proof.Machine

/-! ### Fixed point: an Int in units of 2^-320 -/

def fxBits : Nat := 320
def fxOne : Int := 2 ^ fxBits
def fxMul (a b : Int) : Int := a * b / fxOne
def fxDiv (a b : Int) : Int := a * fxOne / b
/-- Every function below errs by less than this. -/
def fxSlack : Int := 2 ^ 160

/-- m × 2^e with a sign, rounded down. -/
def fxOf (neg : Bool) (m : Nat) (e : Int) : Int :=
  let k : Int := if 0 ≤ e + fxBits then (m : Int) * 2 ^ (e + fxBits).toNat else (m : Int) / 2 ^ (-(e + fxBits)).toNat
  if neg then -k else k

/-- z + z^3/3 ± z^5/5 … : atanh for sgn = 1, atan for sgn = -1; `t` is the power, `k` its exponent. -/
def atanSeries (sgn : Int) (zz : Int) : Nat → Int → Int → Int
  | 0, _, _ => 0
  | n + 1, t, k => t / k + atanSeries sgn zz n (sgn * fxMul t zz) (k + 2)
def fxAtan (sgn : Int) (z : Int) (n : Nat) : Int := atanSeries sgn (fxMul z z) n z 1
/-- ln 2 = 2 atanh(1/3). -/
def fxLn2 : Int := 2 * fxAtan 1 (fxOne / 3) 110
/-- π = 16 atan(1/5) - 4 atan(1/239). -/
def fxPi : Int := 16 * fxAtan (-1) (fxOne / 5) 80 - 4 * fxAtan (-1) (fxOne / 239) 30

/-- Σ y^k / k! from a term on. -/
def expSeries (y : Int) : Nat → Int → Int → Int
  | 0, _, _ => 0
  | n + 1, t, k => t + expSeries y n (fxMul t y / k) (k + 1)

/-- 2^t for |t| at most some thousands. -/
def fxExp2 (t : Int) : Int :=
  let i := t / fxOne
  let r := expSeries (fxMul (t % fxOne) fxLn2) 80 fxOne 1
  if 0 ≤ i then r * 2 ^ i.toNat else r / 2 ^ (-i).toNat

/-- log2 of m × 2^e, m > 0. -/
def fxLog2 (m : Nat) (e : Int) : Int :=
  let l := Nat.log2 m
  let x := fxOf false m (-(l : Int))
  (e + l) * fxOne + fxDiv (2 * fxAtan 1 (fxDiv (x - fxOne) (x + fxOne)) 110) fxLn2

/-- Σ ± y^k / k! over every second k, from a term on. -/
def trigSeries (yy : Int) : Nat → Int → Int → Int
  | 0, _, _ => 0
  | n + 1, t, k => t + trigSeries yy n (-(fxMul t yy) / (k * (k + 1))) (k + 2)

/-- sin or cos of m × 2^e, the argument reduced by 2π. -/
def fxTrig (cosine neg : Bool) (m : Nat) (e : Int) : Int :=
  let x := fxOf neg m e
  let r := x % (2 * fxPi)
  if cosine then trigSeries (fxMul r r) 70 fxOne 1 else trigSeries (fxMul r r) 70 r 2

/-- tanh of m × 2^e below 64 in magnitude; of a tiny x it lies below x by less than anything that 320 bits resolve. -/
def fxTanh (neg : Bool) (m : Nat) (e : Int) : Int :=
  let x := fxOf false m e
  let q := fxExp2 (-(fxDiv (2 * x) fxLn2))
  let r := if x < 2 ^ 245 then x - 2 ^ 20 else fxDiv (fxOne - q) (fxOne + q)
  if neg then -r else r

/-- 1 / sqrt(m × 2^e). -/
def fxRsqrt (m : Nat) (e : Int) : Int := (isqrt (2 ^ (2 * fxBits - e).toNat / m) : Int)

/-- A fixed-point value as a number. -/
def fxNum (x : Int) : XR := .fin (decide (x < 0)) x.natAbs (-(fxBits : Int))

/-! ### The functions -/

/-- Codes of the approximate functions. -/
inductive ApproxFn where
  | rsq | ex2 | lg2 | sin | cos | tanh
  deriving DecidableEq, Repr

def ApproxFn.code : ApproxFn → Nat
  | .rsq => 0 | .ex2 => 1 | .lg2 => 2 | .sin => 3 | .cos => 4 | .tanh => 5

/-- A power of two with its exponent. -/
def powerOfTwo (m : Nat) (e : Int) : Option Int :=
  if m = 2 ^ Nat.log2 m then some ((Nat.log2 m : Int) + e) else none

/-- m × 2^e as an integer, when it is one. -/
def asInt (neg : Bool) (m : Nat) (e : Int) : Option Int :=
  let v : Option Nat := if 0 ≤ e then some (m * 2 ^ e.toNat)
    else if m % 2 ^ (-e).toNat = 0 then some (m / 2 ^ (-e).toNat) else none
  v.map fun (x : Nat) => if neg then -(x : Int) else (x : Int)

/-- Special values and exact cases (R190), as numbers. DESIGN CHOICE (log entry 66): FEX2 of an integer below −149, which FP32
cannot hold exactly, is no exact case, and the absolute bound holds for it. -/
def ApproxFn.special (k : ApproxFn) (x : XR) : Option XR :=
  match x with
  | .nan => some .nan
  | .inf neg =>
    some (match k with
      | .rsq => if neg then .nan else XR.zero
      | .ex2 => if neg then XR.zero else .inf false
      | .lg2 => if neg then .nan else .inf false
      | .sin => .nan
      | .cos => .nan
      | .tanh => .fin neg 1 0)
  | .fin neg m e =>
    if m = 0 then
      some (match k with
        | .rsq => .inf neg
        | .ex2 => .fin false 1 0
        | .lg2 => .inf true
        | .sin => x
        | .cos => .fin false 1 0
        | .tanh => x)
    else match k with
      | .rsq => if neg then some .nan else none
      | .lg2 => if neg then some .nan else (powerOfTwo m e).map XR.ofInt
      | .ex2 =>
        if 7 < floorLog2 m e then (if neg then none else some (.inf false))
        else match asInt neg m e with
          | some i => if i < -149 then none else some (.fin false 1 i)
          | none => if !neg && floorLog2 m e = 7 then some (.inf false) else none
      | _ => none

/-- The exact value of a function at a finite number that is no special case, in fixed point. Of FEX2 below −256 it is the
least positive number, since 2^x is above 0. -/
def ApproxFn.exact (k : ApproxFn) (neg : Bool) (m : Nat) (e : Int) : Int :=
  match k with
  | .rsq => fxRsqrt m e
  | .ex2 => if 7 < floorLog2 m e then 1 else fxExp2 (fxOf neg m e)
  | .lg2 => fxLog2 m e
  | .sin => fxTrig false neg m e
  | .cos => fxTrig true neg m e
  | .tanh => if 6 ≤ floorLog2 m e then (if neg then 2 ^ 200 - fxOne else fxOne - 2 ^ 200) else fxTanh neg m e

/-- 2^-n in fixed point. -/
def fxPow (n : Nat) : Int := 2 ^ (fxBits - n)

/-- An f32 ulp of a value (R190). -/
def fxUlp (x : Int) : Int :=
  let l : Int := (Nat.log2 x.natAbs : Int) - fxBits
  2 ^ (max (-126) l - 23 + fxBits).toNat

/-- The error that the manual allows at an exact value (R190). -/
def ApproxFn.bound (k : ApproxFn) (m : Nat) (e : Int) (y : Int) : Int :=
  match k with
  | .rsq => fxUlp y
  | .ex2 => if y < fxPow 126 then fxPow 149 else 2 * fxUlp y
  | .lg2 =>
    let x := XR.fin false m e
    if (XR.fin false 1 (-1)).le x && x.le (.fin false 1 1) then fxPow 22 else 2 * fxUlp y
  | .sin => fxPow 22
  | .cos => fxPow 22
  | .tanh => 2 * fxUlp y

/-- The f32 code that the device returns: the implementation's value where it lies within the bound. Neither f32 values nor
the ends of the bound lie as near to the exact value as `exact` errs, so that the test is the manual's (log entry 10). -/
def ApproxFn.eval (k : ApproxFn) (x : Nat) : Nat :=
  let v := FP32.decode x
  match k.special v, v with
  | some y, _ => FP32.encode .rne false false y
  | none, .fin neg m e =>
    let y := k.exact neg m e
    let b := k.bound m e y
    let c := (Config.approx32 k.code (BitVec.ofNat 32 x)).toNat
    match FP32.decode c with
    | .fin cn cm ce =>
      let z := fxOf cn cm ce
      if y - b ≤ z ∧ z ≤ y + b then c else FP32.encode .rne false false (fxNum y)
    | _ => FP32.encode .rne false false (fxNum y)
  | none, _ => FP32.nan

end Sys2Proof.Machine
end

