-- ==== Sys2Proof/Machine/Integer.lean ====
section
/-!
DEFINITION. Machine/Integer.lean: the meanings of the integer and address group (R173 to R183).
-/
namespace Sys2Proof.Machine

/-! ### Shared forms -/

/-- A result in D from one, two or three sources, lane by lane; every operand is read before D is written (R171). -/
def lane1 (o : Ops4) (t : Ty) (f : Word64 → Word64) (e : Env) : Eff :=
  e.indexed [(o.d, false), (o.a, false)] fun _ => .done (e.write e.s o.d (mapRow f (e.src t o.a)))
def lane2 (o : Ops4) (t : Ty) (f : Word64 → Word64 → Word64) (e : Env) : Eff :=
  e.indexed [(o.d, false), (o.a, false), (o.b, false)] fun _ =>
    .done (e.write e.s o.d (mapRow2 f (e.src t o.a) (e.src t o.b)))
def lane3 (o : Ops4) (t : Ty) (f : Word64 → Word64 → Word64 → Word64) (e : Env) : Eff :=
  e.indexed [(o.d, false), (o.a, false), (o.b, false), (o.c, false)] fun _ =>
    .done (e.write e.s o.d (mapRow3 f (e.src t o.a) (e.src t o.b) (e.src t o.c)))

def ctlPos : Pos := { kinds := [.imm] }
def front1 (o : Ops4) : Front := { ok := fun e => e.ops4Ok o dstPos srcPos unused unused }
def front2 (o : Ops4) : Front := { ok := fun e => e.ops4Ok o dstPos srcPos srcPos unused }
def front3 (o : Ops4) : Front := { ok := fun e => e.ops4Ok o dstPos srcPos srcPos srcPos }
def front2c (o : Ops4) : Front := { ok := fun e => e.ops4Ok o dstPos srcPos srcPos ctlPos }

/-- The unsigned value of a control operand (R172). -/
def ctlNo : Operand → Nat
  | .imm i => i.toNat
  | _ => 0

/-- An exact integer becomes an element: wrapped, or clamped under SAT (R174). -/
def Ty.wrap (t : Ty) (sat : Bool) (w : Nat) (x : Int) : Nat :=
  intCode w (if sat then max (t.lo w) (min (t.hi w) x) else x)

end Sys2Proof.Machine

namespace Sys2Proof
open Machine

/-- An element operation on integers of the type (R174). -/
def Ty.arith2 (t : Ty) (sat : Bool) (f : Int → Int → Int) : Word64 → Word64 → Word64 :=
  t.map2 fun a b => Machine.Ty.wrap t sat t.shape.1 (f (t.int t.shape.1 a) (t.int t.shape.1 b))
def Ty.arith1 (t : Ty) (sat : Bool) (f : Int → Int) : Word64 → Word64 :=
  t.map1 fun a => Machine.Ty.wrap t sat t.shape.1 (f (t.int t.shape.1 a))
def Ty.arith3 (t : Ty) (sat : Bool) (f : Int → Int → Int → Int) : Word64 → Word64 → Word64 → Word64 :=
  t.map3 fun a b x => Machine.Ty.wrap t sat t.shape.1 (f (t.int t.shape.1 a) (t.int t.shape.1 b) (t.int t.shape.1 x))

end Sys2Proof

namespace Sys2Proof.Machine

/-! ### Arithmetic (R174, R175) -/

/-- R174. -/
def execIadd (h : Hdr) (o : Ops4) (m : AMod) : State → Host.Outcome State Fault Refusal :=
  perform h o.list (front2 o) noSync (lane2 o m.ty (m.ty.arith2 m.sat fun a b => a + b))

/-- R174. -/
def execIsub (h : Hdr) (o : Ops4) (m : AMod) : State → Host.Outcome State Fault Refusal :=
  perform h o.list (front2 o) noSync (lane2 o m.ty (m.ty.arith2 m.sat fun a b => a - b))

/-- R174. -/
def execImul (h : Hdr) (o : Ops4) (m : AMod) : State → Host.Outcome State Fault Refusal :=
  perform h o.list (front2 o) noSync (lane2 o m.ty (m.ty.arith2 m.sat fun a b => a * b))

/-- R175: bits [2w-1:w] of the exact product. -/
def execImulh (h : Hdr) (o : Ops4) (m : AMod) : State → Host.Outcome State Fault Refusal :=
  perform h o.list (front2 o) noSync (lane2 o m.ty (m.ty.arith2 false fun a b => a * b / 2 ^ m.ty.shape.1))

/-- R174. -/
def execImad (h : Hdr) (o : Ops4) (m : AMod) : State → Host.Outcome State Fault Refusal :=
  perform h o.list (front3 o) noSync (lane3 o m.ty (m.ty.arith3 m.sat fun a b x => a * b + x))

/-- R174. -/
def execImin (h : Hdr) (o : Ops4) (m : AMod) : State → Host.Outcome State Fault Refusal :=
  perform h o.list (front2 o) noSync (lane2 o m.ty (m.ty.arith2 false fun a b => min a b))

/-- R174. -/
def execImax (h : Hdr) (o : Ops4) (m : AMod) : State → Host.Outcome State Fault Refusal :=
  perform h o.list (front2 o) noSync (lane2 o m.ty (m.ty.arith2 false fun a b => max a b))

/-- R174. -/
def execIabs (h : Hdr) (o : Ops4) (m : AMod) : State → Host.Outcome State Fault Refusal :=
  perform h o.list (front1 o) noSync (lane1 o m.ty (m.ty.arith1 m.sat fun a => (a.natAbs : Int)))

/-! ### Logic, shifts, bit fields (R176 to R179) -/

/-- LOP3 on w bits (R176). -/
def lop3 (w lut : Nat) (a b d : Nat) : Nat :=
  (List.range w).foldl (fun r j =>
    let i := 4 * (a / 2 ^ j % 2) + 2 * (b / 2 ^ j % 2) + d / 2 ^ j % 2
    r + lut / 2 ^ i % 2 * 2 ^ j) 0

/-- R176: D is the third input. -/
def execLop3 (h : Hdr) (o : Ops4) (m : AMod) : State → Host.Outcome State Fault Refusal :=
  perform h o.list (front2c o) noSync fun e =>
    e.indexed [(o.d, false), (o.a, false), (o.b, false)] fun _ =>
      .done (e.write e.s o.d (mapRow3 (m.ty.map3 (lop3 m.ty.shape.1 (ctlNo o.c))) (e.src m.ty o.a) (e.src m.ty o.b) (e.raw o.d)))

/-- SHL (R177). -/
def shiftLeft (t : Ty) (sat : Bool) (a n : Nat) : Nat :=
  let w := t.shape.1
  if sat then (if a = 0 then 0 else Ty.wrap t true w (t.int w a * 2 ^ min n (w + 1)))
  else if w ≤ n then 0 else a * 2 ^ n % 2 ^ w
/-- SHR (R177). -/
def shiftRight (w a n : Nat) : Nat := if w ≤ n then 0 else a / 2 ^ n
/-- SAR (R177). -/
def shiftArith (w a n : Nat) : Nat := intCode w (signedOf w a / 2 ^ min n w)
/-- ROT (R177). -/
def rotate (w a n : Nat) : Nat := a * 2 ^ (n % w) % 2 ^ w + a / 2 ^ (w - n % w)

/-- R177. -/
def execShl (h : Hdr) (o : Ops4) (m : AMod) : State → Host.Outcome State Fault Refusal :=
  perform h o.list (front2 o) noSync (lane2 o m.ty (m.ty.map2 (shiftLeft m.ty m.sat)))

/-- R177. -/
def execShr (h : Hdr) (o : Ops4) (m : AMod) : State → Host.Outcome State Fault Refusal :=
  perform h o.list (front2 o) noSync (lane2 o m.ty (m.ty.map2 (shiftRight m.ty.shape.1)))

/-- R177. -/
def execSar (h : Hdr) (o : Ops4) (m : AMod) : State → Host.Outcome State Fault Refusal :=
  perform h o.list (front2 o) noSync (lane2 o m.ty (m.ty.map2 (shiftArith m.ty.shape.1)))

/-- R177. -/
def execRot (h : Hdr) (o : Ops4) (m : AMod) : State → Host.Outcome State Fault Refusal :=
  perform h o.list (front2 o) noSync (lane2 o m.ty (m.ty.map2 (rotate m.ty.shape.1)))

/-- BFX (R178). -/
def fieldExtract (t : Ty) (a b x : Nat) : Nat :=
  let w := t.shape.1
  let pos := b % 256
  let len := min (x % 256) (w - pos)
  if x % 256 = 0 ∨ w ≤ pos then 0
  else
    let f := a / 2 ^ pos % 2 ^ len
    if t.signed then intCode w (signedOf len f) else f

/-- BFI (R178). -/
def fieldInsert (w a b x d : Nat) : Nat :=
  let pos := b % 256
  let len := min (x % 256) (w - pos)
  if x % 256 = 0 ∨ w ≤ pos then d
  else d % 2 ^ pos + a % 2 ^ len * 2 ^ pos + d / 2 ^ (pos + len) * 2 ^ (pos + len)

/-- R178. -/
def execBfx (h : Hdr) (o : Ops4) (m : AMod) : State → Host.Outcome State Fault Refusal :=
  perform h o.list (front3 o) noSync (lane3 o m.ty (m.ty.map3 (fieldExtract m.ty)))

/-- R178. -/
def execBfi (h : Hdr) (o : Ops4) (m : AMod) : State → Host.Outcome State Fault Refusal :=
  perform h o.list (front3 o) noSync fun e =>
    e.indexed [(o.d, false), (o.a, false), (o.b, false), (o.c, false)] fun _ =>
      let w := m.ty.shape.1
      let a := e.src m.ty o.a
      let b := e.src m.ty o.b
      let x := e.src m.ty o.c
      let d := e.raw o.d
      .done (e.write e.s o.d (Vector.ofFn fun l : Lane =>
        BitVec.ofNat 64 (fieldInsert w (elemAt w 0 a[l]) (elemAt w 0 b[l]) (elemAt w 0 x[l]) (elemAt w 0 d[l]))))

/-- Set bits of a number of w bits. -/
def popBits (w a : Nat) : Nat := (List.range w).foldl (fun n j => n + a / 2 ^ j % 2) 0
/-- Leading zero bits (R179). -/
def leadingZeros (w a : Nat) : Nat := if a = 0 then w else w - 1 - Nat.log2 a
/-- The w bits in reverse order (R179). -/
def reverseBits (w a : Nat) : Nat := (List.range w).foldl (fun r j => r + a / 2 ^ j % 2 * 2 ^ (w - 1 - j)) 0

/-- R179. -/
def execPopc (h : Hdr) (o : Ops4) (m : AMod) : State → Host.Outcome State Fault Refusal :=
  perform h o.list (front1 o) noSync (lane1 o m.ty (m.ty.map1 (popBits m.ty.shape.1)))

/-- R179. -/
def execClz (h : Hdr) (o : Ops4) (m : AMod) : State → Host.Outcome State Fault Refusal :=
  perform h o.list (front1 o) noSync (lane1 o m.ty (m.ty.map1 (leadingZeros m.ty.shape.1)))

/-- R179. -/
def execBrev (h : Hdr) (o : Ops4) (m : AMod) : State → Host.Outcome State Fault Refusal :=
  perform h o.list (front1 o) noSync (lane1 o m.ty (m.ty.map1 (reverseBits m.ty.shape.1)))

/-! ### Comparison, addresses, division, conversion (R180 to R183) -/

/-- R180. -/
def execIcmp (h : Hdr) (o : Ops4) (m : AMod) : State → Host.Outcome State Fault Refusal :=
  perform h o.list { ok := fun e => e.ops4Ok o { kinds := [.p] } srcPos srcPos ctlPos } noSync fun e =>
    e.indexed [(o.a, false), (o.b, false)] fun _ =>
      let w := m.ty.shape.1
      let num := fun x => m.ty.int w (elemAt w 0 x)
      .done (e.writeP e.s (pregNo o.d)
        (testRow (fun a b => Tri.ofBool (ccHolds (ctlNo o.c) (compare (num a) (num b)))) (e.src m.ty o.a) (e.src m.ty o.b)))

/-- ext of R181: A is read as 64 bits. -/
def leaAddr (t : Ty) (sh : Nat) (a b : Word64) : Word64 :=
  let w := t.shape.1
  a + (BitVec.ofInt 64 (t.int w (elemAt w 0 b))) <<< sh

/-- R181. -/
def execLea (h : Hdr) (o : Ops4) (m : AMod) : State → Host.Outcome State Fault Refusal :=
  perform h o.list (front2c o) noSync fun e =>
    e.indexed [(o.d, false), (o.a, false), (o.b, false)] fun _ =>
      .done (e.write e.s o.d (mapRow2 (leaAddr m.ty (ctlNo o.c)) (e.raw o.a) (e.src m.ty o.b)))

/-- IDIV (R182): quotient or remainder. -/
def divide (t : Ty) (sat rem : Bool) (a b : Nat) : Nat :=
  let w := t.shape.1
  let x := t.int w a
  let y := t.int w b
  if y = 0 then (if rem then a else 2 ^ w - 1)
  else if rem then intCode w (x.tmod y)
  else Ty.wrap t sat w (x.tdiv y)

/-- R182. -/
def execIdiv (h : Hdr) (o : Ops4) (m : AMod) : State → Host.Outcome State Fault Refusal :=
  perform h o.list (front2c o) noSync fun e =>
    lane2 o m.ty (m.ty.map2 (divide m.ty m.sat (ctlNo o.c == 1))) e

/-- A lane type by its code, where the decoder has checked the code. -/
def srcTy (o : Operand) : Ty := (Ty.ofCode (ctlNo o)).getD .n64

/-- R183, R59: the value of the source type, wrapped or clamped to TYPE. DESIGN CHOICE (log entry 66): a kind-3 A is read as a
value of the source type. -/
def execCvti (h : Hdr) (o : Ops4) (m : AMod) : State → Host.Outcome State Fault Refusal :=
  perform h o.list { ok := fun e => e.ops4Ok o dstPos srcPos ctlPos unused } noSync fun e =>
    let t := srcTy o.b
    let w := t.shape.1
    e.indexed [(o.d, false), (o.a, false)] fun _ =>
      .done (e.write e.s o.d (mapRow (fun a =>
        BitVec.ofNat 64 (Ty.wrap m.ty m.sat m.ty.shape.1 (t.int w (elemAt w 0 a)))) (e.src t o.a)))

end Sys2Proof.Machine
end

