-- ==== Sys2Proof/Machine/Float.lean ====
section
/-!
DEFINITION. Machine/Float.lean: the meanings of the floating-point group (R184 to R191).
-/
namespace Sys2Proof.Machine

/-! ### Shared forms -/

/-- A floating source (R22, R172). -/
def fpPos : Pos := { kinds := [.v, .s, .idx, .imm, .zero], fp := true }

/-- DYN is looked at in the front (R25). -/
def isDyn (m : AMod) : Bool := m.rm == .dyn
def frontF1 (o : Ops4) (m : AMod) : Front := { dyn := isDyn m, ok := fun e => e.ops4Ok o dstPos fpPos unused unused }
def frontF2 (o : Ops4) (m : AMod) : Front := { dyn := isDyn m, ok := fun e => e.ops4Ok o dstPos fpPos fpPos unused }
def frontF3 (o : Ops4) (m : AMod) : Front := { dyn := isDyn m, ok := fun e => e.ops4Ok o dstPos fpPos fpPos fpPos }

/-- Rounding of an instruction (R24). -/
def Env.rnd (e : Env) (m : AMod) : Rnd := ⟨e.mode m.rm, m.sat, m.ftz⟩

/-! ### Arithmetic (R185, R186) -/

/-- R185. -/
def execFadd (h : Hdr) (o : Ops4) (m : AMod) : State → Host.Outcome State Fault Refusal :=
  perform h o.list (frontF2 o m) noSync fun e => lane2 o m.ty (m.ty.map2 (m.ty.fmt.fadd (e.rnd m))) e

/-- R185. -/
def execFmul (h : Hdr) (o : Ops4) (m : AMod) : State → Host.Outcome State Fault Refusal :=
  perform h o.list (frontF2 o m) noSync fun e => lane2 o m.ty (m.ty.map2 (m.ty.fmt.fmul (e.rnd m))) e

/-- R185: one rounding. -/
def execFfma (h : Hdr) (o : Ops4) (m : AMod) : State → Host.Outcome State Fault Refusal :=
  perform h o.list (frontF3 o m) noSync fun e => lane3 o m.ty (m.ty.map3 (m.ty.fmt.ffma (e.rnd m))) e

/-- R186. -/
def execFmin (h : Hdr) (o : Ops4) (m : AMod) : State → Host.Outcome State Fault Refusal :=
  perform h o.list (frontF2 o m) noSync (lane2 o m.ty (m.ty.map2 (m.ty.fmt.fmin m.ftz)))

/-- R186. -/
def execFmax (h : Hdr) (o : Ops4) (m : AMod) : State → Host.Outcome State Fault Refusal :=
  perform h o.list (frontF2 o m) noSync (lane2 o m.ty (m.ty.map2 (m.ty.fmt.fmax m.ftz)))

/-- R185: FDIV(1, a). -/
def execFrcp (h : Hdr) (o : Ops4) (m : AMod) : State → Host.Outcome State Fault Refusal :=
  perform h o.list (frontF1 o m) noSync fun e =>
    let f := m.ty.fmt
    lane1 o m.ty (m.ty.map1 (f.fdiv (e.rnd m) (f.encode .rne false false (.fin false 1 0)))) e

/-- R185. -/
def execFsqrt (h : Hdr) (o : Ops4) (m : AMod) : State → Host.Outcome State Fault Refusal :=
  perform h o.list (frontF1 o m) noSync fun e => lane1 o m.ty (m.ty.map1 (m.ty.fmt.fsqrt (e.rnd m))) e

/-- R185. -/
def execFdiv (h : Hdr) (o : Ops4) (m : AMod) : State → Host.Outcome State Fault Refusal :=
  perform h o.list (frontF2 o m) noSync fun e => lane2 o m.ty (m.ty.map2 (m.ty.fmt.fdiv (e.rnd m))) e

/-! ### Comparison and classes (R187, R188) -/

/-- FCMP of two numbers (R187): code 6 is ord. -/
def fcmpTri (cc : Nat) (x y : XR) : Tri :=
  if x.isNan || y.isNan then (if cc = 6 then .f else .u)
  else if cc = 6 then .t
  else Tri.ofBool (ccHolds cc (x.cmp y))

/-- R187. -/
def execFcmp (h : Hdr) (o : Ops4) (m : AMod) : State → Host.Outcome State Fault Refusal :=
  perform h o.list { ok := fun e => e.ops4Ok o { kinds := [.p] } fpPos fpPos ctlPos } noSync fun e =>
    e.indexed [(o.a, false), (o.b, false)] fun _ =>
      let f := m.ty.fmt
      let num := fun x => f.read m.ftz (elemAt m.ty.shape.1 0 x)
      .done (e.writeP e.s (pregNo o.d) (testRow (fun a b => fcmpTri (ctlNo o.c) (num a) (num b)) (e.src m.ty o.a) (e.src m.ty o.b)))

/-- The class of a code (R188). -/
def FFmt.classOf (f : FFmt) (x : Nat) : Nat :=
  let neg := x / f.signBit % 2 == 1
  let ex := x / 2 ^ f.mbits % 2 ^ f.ebits
  let fr := x % 2 ^ f.mbits
  if ex = 2 ^ f.ebits - 1 then
    if fr = 0 then (if neg then 0 else 7) else if fr / 2 ^ (f.mbits - 1) = 0 then 8 else 9
  else if ex = 0 then
    if fr = 0 then (if neg then 3 else 4) else (if neg then 2 else 5)
  else if neg then 1 else 6

end Sys2Proof.Machine

namespace Sys2Proof.Machine

/-- R188. -/
def execFclass (h : Hdr) (o : Ops4) (m : AMod) : State → Host.Outcome State Fault Refusal :=
  let isP := match o.d with | .p _ => true | _ => false
  let d : Pos := if isP then { kinds := [.p] } else dstPos
  perform h o.list { ok := fun e => e.ops4Ok o d fpPos unused (if isP then ctlPos else unused) } noSync fun e =>
    e.indexed [(o.d, false), (o.a, false)] fun _ =>
      let cls := fun x => m.ty.fmt.classOf (elemAt m.ty.shape.1 0 x)
      let a := e.src m.ty o.a
      if isP then .done (e.writeP e.s (pregNo o.d) (Vector.ofFn fun l : Lane => Tri.ofBool (ctlNo o.c / 2 ^ cls a[l] % 2 == 1)))
      else .done (e.write e.s o.d (mapRow (fun x => BitVec.ofNat 64 (2 ^ cls x)) a))

/-! ### Rounding and scaling (R189) -/

/-- FRND. -/
def FFmt.frnd (f : FFmt) (rm : Mode) (ftz : Bool) (x : Nat) : Nat :=
  f.encode rm false ftz (match f.read ftz x with
    | .fin n m e => .fin n (roundAt rm n m e 0) 0
    | y => y)

/-- R189. -/
def execFrnd (h : Hdr) (o : Ops4) (m : AMod) : State → Host.Outcome State Fault Refusal :=
  perform h o.list (frontF1 o m) noSync fun e => lane1 o m.ty (m.ty.map1 (FFmt.frnd m.ty.fmt (e.mode m.rm) m.ftz)) e

/-- FSCALE of an element by n. -/
def FFmt.fscale (f : FFmt) (r : Rnd) (x : Nat) (n : Int) : Nat :=
  f.encode r.rm r.sat r.ftz (match f.read r.ftz x with
    | .fin s m e => if m = 0 then .fin s 0 0 else .fin s m (e + n)
    | y => y)

/-- R189: B of a packed type is read by elements, any other B as 32 bits (R184). -/
def execFscale (h : Hdr) (o : Ops4) (m : AMod) : State → Host.Outcome State Fault Refusal :=
  perform h o.list { dyn := isDyn m, ok := fun e => e.ops4Ok o dstPos fpPos srcPos unused } noSync fun e =>
    e.indexed [(o.d, false), (o.a, false), (o.b, false)] fun _ =>
      let (w, n) := m.ty.shape
      let bw := if n = 1 then 32 else w
      let b := e.rawAt (fun i => packElems bw n fun _ => intCode bw i.toInt) 0 o.b
      let r := e.rnd m
      .done (e.write e.s o.d (mapRow2 (fun x y => packElems w n fun i =>
        FFmt.fscale m.ty.fmt r (elemAt w i x) (signedOf bw (elemAt bw i y))) (e.src m.ty o.a) b))

/-! ### Approximate functions (R190) -/

/-- Converted to f32, evaluated, rounded to the type with RNE. -/
def FFmt.approx (f : FFmt) (k : ApproxFn) (sat ftz : Bool) (x : Nat) : Nat :=
  let y := k.eval (FP32.encode .rne false false (f.read ftz x))
  f.encode .rne sat ftz (FP32.decode y)

def approxBody (o : Ops4) (m : AMod) (k : ApproxFn) : Env → Eff :=
  lane1 o m.ty (m.ty.map1 (FFmt.approx m.ty.fmt k m.sat m.ftz))

/-- R190. -/
def execFrsq (h : Hdr) (o : Ops4) (m : AMod) : State → Host.Outcome State Fault Refusal :=
  perform h o.list (frontF1 o m) noSync (approxBody o m .rsq)

/-- R190. -/
def execFex2 (h : Hdr) (o : Ops4) (m : AMod) : State → Host.Outcome State Fault Refusal :=
  perform h o.list (frontF1 o m) noSync (approxBody o m .ex2)

/-- R190. -/
def execFlg2 (h : Hdr) (o : Ops4) (m : AMod) : State → Host.Outcome State Fault Refusal :=
  perform h o.list (frontF1 o m) noSync (approxBody o m .lg2)

/-- R190. -/
def execFsin (h : Hdr) (o : Ops4) (m : AMod) : State → Host.Outcome State Fault Refusal :=
  perform h o.list (frontF1 o m) noSync (approxBody o m .sin)

/-- R190. -/
def execFcos (h : Hdr) (o : Ops4) (m : AMod) : State → Host.Outcome State Fault Refusal :=
  perform h o.list (frontF1 o m) noSync (approxBody o m .cos)

/-- R190. -/
def execFtanh (h : Hdr) (o : Ops4) (m : AMod) : State → Host.Outcome State Fault Refusal :=
  perform h o.list (frontF1 o m) noSync (approxBody o m .tanh)

/-! ### FDOT (R191) -/

/-- The exact sum of finite terms, with the sign of an exact zero. -/
def exactSum (rm : Mode) (ts : List XR) : XR :=
  match ts with
  | [] => XR.zero
  | t :: r =>
    let s := r.foldl (fun a b => a.add rm b) t
    if s.isFin && s.isZero then
      if ts.all fun x => x.isZero && x.sign then .fin true 0 0
      else if ts.all fun x => x.isZero && !x.sign then .fin false 0 0
      else .fin (rm == .rd) 0 0
    else s

/-- One lane of FDOT. -/
def fdot (t : Ty) (r : Rnd) (a b x : Word64) : Word64 :=
  let f := t.fmt
  let w := t.shape.1
  let ts := FP32.read r.ftz (elemAt 32 0 x) ::
    (List.range t.shape.2).map fun i => (f.read r.ftz (elemAt w i a)).mul (f.read r.ftz (elemAt w i b))
  BitVec.ofNat 64 (FP32.out r (exactSum r.rm ts))

/-- R191. -/
def execFdot (h : Hdr) (o : Ops4) (m : AMod) : State → Host.Outcome State Fault Refusal :=
  perform h o.list (frontF3 o m) noSync fun e =>
    e.indexed [(o.d, false), (o.a, false), (o.b, false), (o.c, false)] fun _ =>
      .done (e.write e.s o.d (mapRow3 (fdot m.ty (e.rnd m)) (e.src m.ty o.a) (e.src m.ty o.b) (e.src .f32 o.c)))

end Sys2Proof.Machine
end

