-- ==== Sys2Proof/Machine/Interval.lean ====
section
/-!
DEFINITION. Machine/Interval.lean: the meanings of the interval group (R198 to R219).
-/
namespace Sys2Proof.Machine

/-! ### Positions and checks (R198, R201, R205) -/

/-- An interval source of a type. -/
def ivPos (t : Ty) : Pos :=
  if t == .iv64 then { kinds := [.v, .idx, .imm, .zero], fp := true, pair := true }
  else { kinds := [.v, .s, .idx, .imm, .zero], fp := true }
/-- A point source of the same kinds. -/
def ptPos (t : Ty) : Pos := { ivPos t with pair := false }
/-- An interval destination. -/
def ivDst (t : Ty) : Pos := { kinds := [.v, .idx], pair := t == .iv64 }
def ivWide (t : Ty) : Bool := t == .iv64

/-- iv32, iv64 and the group are feature INTV (R423). -/
def ivFront (o : Ops4) (d a b c : Pos) : Front := { feats := [0], ok := fun e => e.ops4Ok o d a b c }

/-- An interval result in every active lane: EMPTY when an operand is ill-formed or a result is empty (R198, R199). -/
def Env.ivResult (e : Env) (t : Ty) (o : Ops4) (f : Lane → Option Bounds) : Eff :=
  let bad := e.failing fun l => (f l).isSome
  if bad ≠ 0 then .trap (emptyTrap bad)
  else .done (e.writeIv e.s t o.d fun l => (f l).getD ⟨0, 0⟩)

/-- A point result in every active lane. -/
def Env.ptResult (e : Env) (o : Ops4) (f : Lane → Option Nat) : Eff :=
  let bad := e.failing fun l => (f l).isSome
  if bad ≠ 0 then .trap (emptyTrap bad)
  else .done (e.write e.s o.d (Vector.ofFn fun l : Lane => BitVec.ofNat 64 ((f l).getD 0)))

/-- A predicate result in every active lane. -/
def Env.triResult (e : Env) (o : Ops4) (f : Lane → Option Tri) : Eff :=
  let bad := e.failing fun l => (f l).isSome
  if bad ≠ 0 then .trap (emptyTrap bad)
  else .done (e.writeP e.s (pregNo o.d) (Vector.ofFn fun l : Lane => (f l).getD .f))

/-- A well-formed operand. -/
def FFmt.checked (f : FFmt) (x : Bounds) : Option Bounds := if f.ivOk x then some x else none

/-- An interval operation on one, two or three checked operands. -/
def iv1 (o : Ops4) (t : Ty) (f : Bounds → Option Bounds) (e : Env) : Eff :=
  e.indexed [(o.d, ivWide t), (o.a, ivWide t)] fun _ =>
    let a := e.iv t o.a
    e.ivResult t o fun l => ((boundFmt t).checked a[l]).bind f
def iv2 (o : Ops4) (t : Ty) (f : Bounds → Bounds → Option Bounds) (e : Env) : Eff :=
  e.indexed [(o.d, ivWide t), (o.a, ivWide t), (o.b, ivWide t)] fun _ =>
    let a := e.iv t o.a
    let b := e.iv t o.b
    e.ivResult t o fun l => ((boundFmt t).checked a[l]).bind fun x => ((boundFmt t).checked b[l]).bind fun y => f x y
def iv3 (o : Ops4) (t : Ty) (f : Bounds → Bounds → Bounds → Option Bounds) (e : Env) : Eff :=
  e.indexed [(o.d, ivWide t), (o.a, ivWide t), (o.b, ivWide t), (o.c, ivWide t)] fun _ =>
    let a := e.iv t o.a
    let b := e.iv t o.b
    let k := e.iv t o.c
    e.ivResult t o fun l => ((boundFmt t).checked a[l]).bind fun x => ((boundFmt t).checked b[l]).bind fun y =>
      ((boundFmt t).checked k[l]).bind fun z => f x y z

def ivFront1 (o : Ops4) (t : Ty) : Front := ivFront o (ivDst t) (ivPos t) unused unused
def ivFront2 (o : Ops4) (t : Ty) : Front := ivFront o (ivDst t) (ivPos t) (ivPos t) unused
def ivFront3 (o : Ops4) (t : Ty) : Front := ivFront o (ivDst t) (ivPos t) (ivPos t) (ivPos t)

/-! ### Bounds of arithmetic (R203, R208 to R210) -/

/-- A product; zero times infinity counts as 0 (R203). -/
def XR.mul0 (x y : XR) : XR := if x.isZero || y.isZero then XR.zero else x.mul y
/-- The least of some numbers that are not NaN; NaN of none. -/
def leastXR (l : List XR) : XR := l.foldl (fun a x => if a.isNan then x else if x.lt a then x else a) .nan
def greatestXR (l : List XR) : XR := l.foldl (fun a x => if a.isNan then x else if a.lt x then x else a) .nan

def FFmt.products (f : FFmt) (a b : Bounds) : List XR :=
  let x := f.decode a.lo
  let y := f.decode a.hi
  let u := f.decode b.lo
  let v := f.decode b.hi
  [x.mul0 u, x.mul0 v, y.mul0 u, y.mul0 v]

/-- IVSUB. -/
def FFmt.ivSub (f : FFmt) (a b : Bounds) : Bounds :=
  f.outward ((f.decode a.lo).add .rd (f.decode b.hi).negate) ((f.decode a.hi).add .ru (f.decode b.lo).negate)
/-- IVMUL. -/
def FFmt.ivMul (f : FFmt) (a b : Bounds) : Bounds := f.outward (leastXR (f.products a b)) (greatestXR (f.products a b))
/-- IVFMA: one rounding. -/
def FFmt.ivFma (f : FFmt) (a b k : Bounds) : Bounds :=
  f.outward ((leastXR (f.products a b)).add .rd (f.decode k.lo)) ((greatestXR (f.products a b)).add .ru (f.decode k.hi))
/-- IVSQR. -/
def FFmt.ivSqr (f : FFmt) (a : Bounds) : Bounds :=
  let x := f.decode a.lo
  let y := f.decode a.hi
  if XR.zero.le x then f.outward (x.mul0 x) (y.mul0 y)
  else if y.le XR.zero then f.outward (y.mul0 y) (x.mul0 x)
  else f.outward XR.zero (greatestXR [x.mul0 x, y.mul0 y])
/-- IVDIV (R209): none for a divisor [0, 0]. -/
def FFmt.ivDiv (f : FFmt) (a b : Bounds) : Option Bounds :=
  let x := f.decode a.lo
  let y := f.decode a.hi
  let u := f.decode b.lo
  let v := f.decode b.hi
  if u.isZero && v.isZero then none
  else if u.le XR.zero && XR.zero.le v then some f.ivEntire
  else
    let q := [x.div u, x.div v, y.div u, y.div v].filter fun z => !z.isNan
    some (f.outward (leastXR q) (greatestXR q))
/-- IVSQRT (R210). -/
def FFmt.ivSqrt (f : FFmt) (a : Bounds) : Option Bounds :=
  let x := f.decode a.lo
  let y := f.decode a.hi
  if y.lt XR.zero then none
  else some (f.outward (if x.lt XR.zero then XR.zero else x.sqrt) (if y.isZero then XR.zero else y.sqrt))

/-! ### IVEX2 and IVLG2 (R211) -/

/-- The FP32 number next below or above a code that is no NaN. -/
def nextDown32 (x : Nat) : Nat := if x % 2 ^ 31 = 0 then 2 ^ 31 + 1 else if x < 2 ^ 31 then x - 1 else x + 1
def nextUp32 (x : Nat) : Nat := if x % 2 ^ 31 = 0 then 1 else if x < 2 ^ 31 then x + 1 else x - 1

/-- A tight bound is a power of two. -/
def isPower32 (x : Nat) : Bool :=
  match FP32.decode x with
  | .fin false m e => m != 0 && (powerOfTwo m e).isSome
  | _ => false

/-- The device's bound from the tightest one: exact at powers of two and at infinities, else at most one ulp outside. -/
def loosen (fn : Nat) (image : Word64) (up : Bool) (tight : Nat) : Nat :=
  if isPower32 tight || !(FP32.decode tight).isFin || !Config.looseBound fn image up then tight
  else if up then nextUp32 tight else nextDown32 tight

/-- The tight FP32 bound of 2^x. -/
def tightExp2 (up : Bool) (x : XR) : Nat :=
  let enc := FP32.encode (if up then .ru else .rd) false false
  match x with
  | .nan => FP32.nan
  | .inf n => if n then 0 else FP32.inf
  | .fin n m e =>
    if m = 0 then enc (.fin false 1 0)
    else match asInt n m e with
      | some i => enc (.fin false 1 i)
      | none =>
        if 7 < floorLog2 m e then enc (.fin false 1 (if n then -1000 else 1000))
        else
          let y := fxExp2 (fxOf n m e)
          let d : Int := if n then 2 ^ 20 else fxSlack
          enc (fxNum (if up then y + d else max 0 (y - d)))

/-- The tight FP32 bound of log2 x, x > 0. -/
def tightLog2 (up : Bool) (x : XR) : Nat :=
  let enc := FP32.encode (if up then .ru else .rd) false false
  match x with
  | .fin _ m e =>
    match powerOfTwo m e with
    | some i => enc (XR.ofInt i)
    | none => enc (fxNum (fxLog2 m e + (if up then 2 ^ 20 else -(2 ^ 20))))
  | _ => FP32.inf

/-- IVEX2: a lower bound is never below -0; one that overflows is the largest finite number. -/
def ivExp2 (a : Bounds) : Bounds :=
  let lo := tightExp2 false (FP32.decode a.lo)
  let lo1 := if lo = 0 ∨ lo = FP32.maxCode ∧ !((FP32.decode a.lo).lt (.fin false 128 0)) then lo else loosen 0 (image32 a) false lo
  FP32.canon ⟨lo1, loosen 0 (image32 a) true (tightExp2 true (FP32.decode a.hi))⟩

/-- IVLG2. -/
def ivLog2 (a : Bounds) : Option Bounds :=
  if (FP32.decode a.hi).le XR.zero then none
  else
    let lo := if (FP32.decode a.lo).le XR.zero then FP32.signBit + FP32.inf
      else loosen 1 (image32 a) false (tightLog2 false (FP32.decode a.lo))
    some (FP32.canon ⟨lo, loosen 1 (image32 a) true (tightLog2 true (FP32.decode a.hi))⟩)

/-! ### Measures and sets (R212 to R215) -/

/-- mid (R212). -/
def FFmt.mid (f : FFmt) (a : Bounds) : Nat :=
  let lo := f.decode a.lo
  let hi := f.decode a.hi
  let one := XR.fin false 1 0
  let code := match lo, hi with
    | .inf _, .inf _ => 0
    | .inf _, y =>
      let k := f.encode .rne false false ((y.add .rne y.abs.negate).add .rne one.negate)
      if k = f.signBit + f.inf then f.signBit + f.maxCode else k
    | x, .inf _ =>
      let k := f.encode .rne false false ((x.add .rne x.abs).add .rne one)
      if k = f.inf then f.maxCode else k
    | x, y => f.encode .rne false false ((x.add .rne y).scale (-1))
  if (f.decode code).isZero then 0 else code

/-- Splittable (R212). -/
def FFmt.splittable (f : FFmt) (a : Bounds) : Bool :=
  let m := f.decode (f.mid a)
  (f.decode a.lo).lt m && m.lt (f.decode a.hi)

/-- IVWID (R213). -/
def FFmt.wid (f : FFmt) (a : Bounds) : Nat :=
  let x := (f.decode a.hi).add .ru (f.decode a.lo).negate
  if x.isZero then 0 else f.encode .ru false false x

def FFmt.minCode (f : FFmt) (a b : Nat) : Nat := if (f.decode b).lt (f.decode a) then b else a
def FFmt.maxCode2 (f : FFmt) (a b : Nat) : Nat := if (f.decode a).lt (f.decode b) then b else a
/-- IVHULL (R214). -/
def FFmt.hull (f : FFmt) (a b : Bounds) : Bounds := f.canon ⟨f.minCode a.lo b.lo, f.maxCode2 a.hi b.hi⟩
/-- The intersection, well-formed or not (R215). -/
def FFmt.isect (f : FFmt) (a b : Bounds) : Bounds := f.canon ⟨f.maxCode2 a.lo b.lo, f.minCode a.hi b.hi⟩

/-- IVISECT.e (R215). -/
def FFmt.isectE (f : FFmt) (a b : Bounds) : Option Bounds :=
  let ok := fun x => f.ivOk x || x == f.ivEmpty
  if !ok a || !ok b then none
  else if a == f.ivEmpty || b == f.ivEmpty then some f.ivEmpty
  else some (if f.ivOk (f.isect a b) then f.isect a b else f.ivEmpty)

/-! ### Comparison (R216) -/

/-- Conditions lt, le, eq, subset, interior, disjoint on two intervals. -/
def FFmt.ivCmp (f : FFmt) (cc : Nat) (a b : Bounds) : Tri :=
  let al := f.decode a.lo
  let ah := f.decode a.hi
  let bl := f.decode b.lo
  let bh := f.decode b.hi
  match cc with
  | 0 => if ah.lt bl then .t else if bh.le al then .f else .u
  | 1 => if ah.le bl then .t else if bh.lt al then .f else .u
  | 2 => if al.eq ah && ah.eq bl && bl.eq bh then .t else if ah.lt bl || bh.lt al then .f else .u
  | 3 => Tri.ofBool (bl.le al && ah.le bh)
  | 4 => Tri.ofBool ((bl.lt al || bl == .inf true) && (ah.lt bh || bh == .inf false))
  | _ => Tri.ofBool (ah.lt bl || bh.lt al)

/-! ### Meanings -/

/-- IVMAKE.pair and .sort (R206). -/
def FFmt.makeIv (f : FFmt) (sort : Bool) (a b : Nat) : Option Bounds :=
  let x : Bounds := if sort && (f.decode b).lt (f.decode a) then ⟨b, a⟩ else ⟨a, b⟩
  if f.ivOk x then some (f.canon x) else none

def otherIv (t : Ty) : Ty := if t == .iv64 then .iv32 else .iv64

/-- R206. -/
def execIvmake (h : Hdr) (o : Ops4) (m : AMod) : State → Host.Outcome State Fault Refusal :=
  let t := m.ty
  let f := boundFmt t
  if ctlNo o.c = 2 then
    perform h o.list (ivFront o (ivDst t) (ivPos (otherIv t)) unused ctlPos) noSync fun e =>
      e.indexed [(o.d, ivWide t), (o.a, ivWide (otherIv t))] fun _ =>
        let g := boundFmt (otherIv t)
        let a := e.iv (otherIv t) o.a
        e.ivResult t o fun l => (g.checked a[l]).map fun x => f.outward (g.decode x.lo) (g.decode x.hi)
  else
    perform h o.list (ivFront o (ivDst t) (ptPos t) (ptPos t) ctlPos) noSync fun e =>
      e.indexed [(o.d, ivWide t), (o.a, false), (o.b, false)] fun _ =>
        let a := e.pt t o.a
        let b := e.pt t o.b
        e.ivResult t o fun l => f.makeIv (ctlNo o.c == 1) a[l] b[l]

/-- R207. -/
def execIvbnd (h : Hdr) (o : Ops4) (m : AMod) : State → Host.Outcome State Fault Refusal :=
  let t := m.ty
  let f := boundFmt t
  let pd : Pos := { kinds := [.v, .idx] }
  match ctlNo o.c with
  | 0 =>
    perform h o.list (ivFront o (ivDst t) (ptPos t) (ptPos t) ctlPos) noSync fun e =>
      e.indexed [(o.d, ivWide t), (o.a, false), (o.b, false)] fun _ =>
        let a := e.pt t o.a
        let b := e.pt t o.b
        e.ivResult t o fun l => some ((f.makeIv false a[l] b[l]).getD f.ivEmpty)
  | 3 =>
    perform h o.list (ivFront o { kinds := [.p] } (ivPos t) unused ctlPos) noSync fun e =>
      e.indexed [(o.a, ivWide t)] fun _ =>
        let a := e.iv t o.a
        e.triResult o fun l => some (Tri.ofBool (!f.ivOk a[l]))
  | k =>
    perform h o.list (ivFront o pd (ivPos t) unused ctlPos) noSync fun e =>
      e.indexed [(o.d, false), (o.a, ivWide t)] fun _ =>
        let a := e.iv t o.a
        e.ptResult o fun l => some (if k = 1 then a[l].lo else a[l].hi)

/-- R208. -/
def execIvadd (h : Hdr) (o : Ops4) (m : AMod) : State → Host.Outcome State Fault Refusal :=
  perform h o.list (ivFront2 o m.ty) noSync (iv2 o m.ty fun a b => some ((boundFmt m.ty).ivAdd a b))

/-- R208. -/
def execIvsub (h : Hdr) (o : Ops4) (m : AMod) : State → Host.Outcome State Fault Refusal :=
  perform h o.list (ivFront2 o m.ty) noSync (iv2 o m.ty fun a b => some ((boundFmt m.ty).ivSub a b))

/-- R208. -/
def execIvmul (h : Hdr) (o : Ops4) (m : AMod) : State → Host.Outcome State Fault Refusal :=
  perform h o.list (ivFront2 o m.ty) noSync (iv2 o m.ty fun a b => some ((boundFmt m.ty).ivMul a b))

/-- R209. -/
def execIvdiv (h : Hdr) (o : Ops4) (m : AMod) : State → Host.Outcome State Fault Refusal :=
  perform h o.list (ivFront2 o m.ty) noSync (iv2 o m.ty (boundFmt m.ty).ivDiv)

/-- R208. -/
def execIvfma (h : Hdr) (o : Ops4) (m : AMod) : State → Host.Outcome State Fault Refusal :=
  perform h o.list (ivFront3 o m.ty) noSync (iv3 o m.ty fun a b k => some ((boundFmt m.ty).ivFma a b k))

/-- R208. -/
def execIvsqr (h : Hdr) (o : Ops4) (m : AMod) : State → Host.Outcome State Fault Refusal :=
  perform h o.list (ivFront1 o m.ty) noSync (iv1 o m.ty fun a => some ((boundFmt m.ty).ivSqr a))

/-- R210. -/
def execIvsqrt (h : Hdr) (o : Ops4) (m : AMod) : State → Host.Outcome State Fault Refusal :=
  perform h o.list (ivFront1 o m.ty) noSync (iv1 o m.ty (boundFmt m.ty).ivSqrt)

/-- R211. -/
def execIvex2 (h : Hdr) (o : Ops4) (m : AMod) : State → Host.Outcome State Fault Refusal :=
  perform h o.list (ivFront1 o m.ty) noSync (iv1 o m.ty fun a => some (ivExp2 a))

/-- R211. -/
def execIvlg2 (h : Hdr) (o : Ops4) (m : AMod) : State → Host.Outcome State Fault Refusal :=
  perform h o.list (ivFront1 o m.ty) noSync (iv1 o m.ty ivLog2)

/-- A point of one checked interval. -/
def ivPoint (o : Ops4) (t : Ty) (f : Bounds → Nat) (e : Env) : Eff :=
  e.indexed [(o.d, false), (o.a, ivWide t)] fun _ =>
    let a := e.iv t o.a
    e.ptResult o fun l => ((boundFmt t).checked a[l]).map f
def ivFrontP (o : Ops4) (t : Ty) : Front := ivFront o { kinds := [.v, .idx] } (ivPos t) unused unused

/-- R213. -/
def execIvmid (h : Hdr) (o : Ops4) (m : AMod) : State → Host.Outcome State Fault Refusal :=
  perform h o.list (ivFrontP o m.ty) noSync (ivPoint o m.ty (boundFmt m.ty).mid)

/-- R213. -/
def execIvwid (h : Hdr) (o : Ops4) (m : AMod) : State → Host.Outcome State Fault Refusal :=
  perform h o.list (ivFrontP o m.ty) noSync (ivPoint o m.ty (boundFmt m.ty).wid)

/-- R214. -/
def execIvhull (h : Hdr) (o : Ops4) (m : AMod) : State → Host.Outcome State Fault Refusal :=
  perform h o.list (ivFront2 o m.ty) noSync (iv2 o m.ty fun a b => some ((boundFmt m.ty).hull a b))

/-- R215. -/
def execIvisect (h : Hdr) (o : Ops4) (m : AMod) : State → Host.Outcome State Fault Refusal :=
  let f := boundFmt m.ty
  perform h o.list (ivFront o (ivDst m.ty) (ivPos m.ty) (ivPos m.ty) ctlPos) noSync fun e =>
    if ctlNo o.c = 0 then iv2 o m.ty (fun a b => f.checked (f.isect a b)) e
    else e.indexed [(o.d, ivWide m.ty), (o.a, ivWide m.ty), (o.b, ivWide m.ty)] fun _ =>
      let a := e.iv m.ty o.a
      let b := e.iv m.ty o.b
      e.ivResult m.ty o fun l => f.isectE a[l] b[l]

/-- R216: in .contains B is a point. -/
def execIvcmp (h : Hdr) (o : Ops4) (m : AMod) : State → Host.Outcome State Fault Refusal :=
  let t := m.ty
  let f := boundFmt t
  let pt := ctlNo o.c == 5
  perform h o.list (ivFront o { kinds := [.p] } (ivPos t) (if pt then ptPos t else ivPos t) ctlPos) noSync fun e =>
    e.indexed [(o.a, ivWide t), (o.b, ivWide t && !pt)] fun _ =>
      let a := e.iv t o.a
      if pt then
        let b := e.pt t o.b
        e.triResult o fun l => (f.checked a[l]).map fun x =>
          Tri.ofBool ((f.decode x.lo).le (f.decode b[l]) && (f.decode b[l]).le (f.decode x.hi))
      else
        let b := e.iv t o.b
        e.triResult o fun l => (f.checked a[l]).bind fun x => (f.checked b[l]).map fun y => f.ivCmp (ctlNo o.c) x y

/-! ### IVBISECT (R217 to R219) -/

/-- The number of a v register that an operand names. -/
def Env.vregNo (e : Env) (o : Operand) : Nat :=
  match e.dest o with
  | .v n => n
  | _ => 0

/-- Active lanes whose interval splits, or the fault of R217. -/
def Env.bisect (e : Env) (o : Ops4) (t : Ty) : Except Trap Mask :=
  let f := boundFmt t
  let top := e.vregNo o.d + (if ivWide t then 1 else 0)
  match e.indexFault [(o.d, ivWide t), (o.b, false)] with
  | some x => .error x
  | none =>
    let d := e.ivRaw t o.d
    let b := e.raw o.b
    let bad := e.failing fun l => f.ivOk d[l]
    let split := e.act &&& maskOf fun l => f.splittable d[l]
    if e.sig.LB ≤ top ∨ e.sig.LB < 1 ∨ 64 < e.sig.LB ∨ (e.failing fun l => decide (b[l].toNat ≤ 255)) ≠ 0 then
      .error (trapOf cOPERAND)
    else if bad ≠ 0 then .error (emptyTrap bad)
    else if split != 0 && (match e.grid with | some g => g.blk.tasktab == 0 | none => true) then .error (trapOf cOPERAND)
    else .ok split

/-- The task of a lane: its registers below LB, with the upper half in D's place (R218). -/
def Env.upperHalf (e : Env) (o : Ops4) (t : Ty) (l : Lane) : Task :=
  let f := boundFmt t
  let d := (e.ivRaw t o.d)[l]
  let up := f.canon ⟨f.mid d, d.hi⟩
  let n := e.vregNo o.d
  let word := fun i : Nat =>
    if ivWide t then (if i = n then BitVec.ofNat 64 up.lo else if i = n + 1 then BitVec.ofNat 64 up.hi else (e.sig.reg i)[l])
    else if i = n then image32 up else (e.sig.reg i)[l]
  { entry := (e.raw o.b)[l].toNat, flags := 0, origin := 1, core := e.sel.core, grid := e.sig.grid,
    payload := (List.range e.sig.LB).map word, parked := false }

/-- R218, R219. -/
def execIvbisect (h : Hdr) (o : Ops4) (m : AMod) : State → Host.Outcome State Fault Refusal :=
  let t := m.ty
  let f := boundFmt t
  let entry : Pos := { kinds := [.v, .s, .imm] }
  let front : Front := { feats := [0, 7], ok := fun e => e.ops4Ok o (ivDst t) { kinds := [.p] } entry unused && !Operand.isT o.d }
  let sync := fun e : Env => match e.bisect o t with
    | .ok split => split != 0
    | .error _ => false
  perform h o.list front sync fun e =>
    match e.bisect o t with
    | .error x => .trap x
    | .ok split =>
      let mark := fun (yes : Tri) (s : State) =>
        e.writeP s (pregNo o.a) (Vector.ofFn fun l : Lane => if split.getLsbD l.val then yes else .f)
      if split ≠ 0 ∧ !e.s.taskRoom e.sig.ctx e.sel.core (popMask split) then .done (mark .u e.s)
      else
        let s := (lanesOf split).foldl (fun (s : State) l => s.pushTask e.sig.ctx (e.upperHalf o t l)) e.s
        let d := e.ivRaw t o.d
        let s := Env.writeIv { e with act := split } s t o.d fun l => f.canon ⟨d[l].lo, f.mid d[l]⟩
        .done (mark .t s)

end Sys2Proof.Machine
end

