-- ==== Sys2Proof/Machine/Sched.lean ====
section
/-!
DEFINITION. Machine/Sched.lean: residencies and relaunch (R67, R82, R94, R146, R416), the choice of a port (R79 to
R81, R87), fetching an instruction (R10, R11, R14).
-/
namespace Sys2Proof.Machine

/-! ### Residencies -/

/-- Signatures that hold a residency on a port (R67). -/
def Core.load (k : Core) (p : Nat) : Nat :=
  (k.sigs.filter fun (x : Nat × Sig) => x.2.paths.any fun q => q.port == p).length

/-- A record whose port R416 names. -/
def Record.named (r : Record) : Bool := r.handler || r.reason == 0x10

/-- The port with the most free residencies, the lower-numbered one on a tie (R72, R82). -/
def Core.bestPort (k : Core) : Nat :=
  (List.range 4).foldl (fun b p => if k.load p < k.load b then p else b) 0

/-! ### Relaunch -/

/-- Lexicographic order. -/
def listLt : List Nat → List Nat → Bool
  | [], [] => false
  | [], _ :: _ => true
  | _ :: _, [] => false
  | a :: r, b :: t => decide (a < b) || (a == b && listLt r t)

/-- The wait of a record has ended, or ends, in a serial phase (R85, R86, R473). -/
def Record.serialMade (r : Record) : Bool := r.readyord != 0 && (roundEnding r.reason r.wait || decide (r.reason ≤ 2))

/-- The place of a READY record in the relaunch order. R146, R148: the cycle in which it became READY, READYORD, PSEQ of
the arm that parted first, path index. R147, in deterministic mode: what the serial phase has made ready, by event sequence
number and signature; then PSEQ of the first arm, path index (log entry 57). -/
def Core.readyKey (k : Core) (det : Bool) (r : Record) : List Nat :=
  let arms := k.records.filter fun x => x.ready && x.slot == r.slot && x.seen == r.seen
  let first := arms.foldl (fun a x => min a x.first) r.first
  if det then
    match AMap.get? k.sigs r.slot, r.serialMade with
    | some g, true => [0, r.readyord, g.rank.1, g.rank.2, first, r.pidx]
    | _, _ => [1, first, r.pidx]
  else [r.seen, r.readyord, first, r.pidx]

/-- The port on which a READY record can become resident now (R82, R94, R416). -/
def Core.portFor (k : Core) (r : Record) : Option Nat :=
  match AMap.get? k.sigs r.slot with
  | none => none
  | some g =>
    let free := fun p => k.load p < 16 || g.paths.any fun q => q.port == p
    if r.named then (if free r.port then some r.port else none)
    else match g.paths.head? with
      | some q => some q.port
      | none => if free k.bestPort then some k.bestPort else none

/-- The least of some records by key. -/
def leastBy (key : Record → List Nat) : List Record → Option Record
  | [] => none
  | r :: rs => match leastBy key rs with
    | some x => if listLt (key x) (key r) then some x else some r
    | none => some r

/-- The signature's quire has been chosen for eviction (R75). -/
def Core.leaving (k : Core) (slot : Nat) : Bool :=
  match (AMap.get? k.sigs slot).bind (·.quire) with
  | some key => match AMap.get? k.quires key with
    | some q => q.leaving
    | none => false
  | none => false

/-- The record that relaunches next (R146): READY, in the store, with a port. One that has found no residency on the port
that R416 names takes the next that is free there before any other (R82). -/
def Core.nextReady (k : Core) (det : Bool) : Option Record :=
  leastBy (fun r => (if r.barred then 0 else 1) :: k.readyKey det r)
    (k.records.filter fun r => r.ready && r.spill.isNone && (k.portFor r).isSome && !k.leaving r.slot)

/-- READY records without a free residency on the port that R416 names (R82). -/
def Core.bar (k : Core) : Core :=
  { k with records := k.records.map fun r => if r.ready && r.spill.isNone && r.named && (k.portFor r).isNone then { r with barred := true } else r }

/-- What a record's FAULT field makes the instruction raise (R142, R415). -/
def Record.trap (r : Record) : Option Trap :=
  if r.carried.isSome then r.carried
  else if r.fault = 0 then none
  else if r.fault = cEMPTY then some ⟨cEMPTY, 0, some (BitVec.ofNat 128 (r.evkey.toNat + 2 ^ 64 * r.evaux.toNat))⟩
  else if r.reason ≠ 0x0A ∧ (r.fault = cPAGE ∨ r.fault = cECC ∨ r.fault = cACCESS) then some ⟨r.fault, r.evaux, none⟩
  else some ⟨r.fault, 0, none⟩

/-- A record becomes a running path on a port; its signature takes the next relaunch sequence number (R80, R146). The other
arm keeps its place in the relaunch order (R146). One that parted with reason TRAP goes into the port's handler (R415
step 3). -/
def State.resume (s : State) (c : Nat) (r : Record) (port : Nat) : State :=
  let k := s.core c
  let p : Path := { idx := r.pidx, mask := r.mask, pc := r.resume, nest := r.nest, rseq := k.rseq, passes := 0,
                    handler := r.handler, port := port, fault := r.trap, stalled := false, wdog := none, held := r.held, op := r.op }
  let s := s.modCore c fun k => { k with
    rseq := k.rseq + 1
    records := (k.records.filter fun x => x.pseq != r.pseq).map fun x =>
      if x.ready && x.slot == r.slot && x.seen == r.seen then { x with first := min x.first r.first } else x }
  let s := s.loseLive c r.slot r.mask r.lb r.kept
  let s := s.modSig c r.slot fun g => { g with rseq := k.rseq, paths := g.paths ++ [p] }
  match r.wait, s.sig? c r.slot with
  | .trap i, some g => Env.enter ⟨s, ⟨c, r.slot, r.pidx, i.word, false⟩, g, p, p.mask⟩ s i
  | _, _ => s

/-! ### Choice of a port -/

/-- The ready paths of a port, with slot and signature (R79); in deterministic mode not those of a signature that has
retired Q instructions in the round, nor a path that has issued a synchronising operation (R84, R451; log entry 6); `det`
is Q. -/
def Core.readyPaths (k : Core) (det : Option Nat) (port : Nat) : List (Nat × Sig × Path) :=
  k.sigs.flatMap fun (x : Nat × Sig) =>
    (x.2.paths.filter fun p => p.port == port && !p.stalled && !p.held && !(det.any fun q => x.2.ended || decide (q ≤ x.2.quantum))).map fun p => (x.1, x.2, p)

/-- Place in the fixed rotation of deterministic mode (R87). Task waves come after the quires, in the order they formed;
paths that agree in quire index, signature index and path index (of different grids) go by slot, the lower first: both are
the model's choice (log entry 57). -/
def turnOf (g : Sig) (p : Path) : Nat × Nat × Nat := (g.rank.1, g.rank.2, p.idx)
def turnLt (a b : Nat × Nat × Nat) : Bool := listLt [a.1, a.2.1, a.2.2] [b.1, b.2.1, b.2.2]

/-- The least of a list under an order. -/
def leastOf {α : Type} (lt : α → α → Bool) : List α → Option α
  | [] => none
  | x :: xs => match leastOf lt xs with
    | some y => if lt y x then some y else some x
    | none => some x

/-- Priority of a signature's grid (R80). -/
def State.prio (s : State) (g : Sig) : Nat := match s.grid? g.ctx g.grid with | some x => x.blk.prio | none => 0

/-- Operations in a core's copy queue (R298). -/
def State.copyQueue (s : State) (core : Nat) : List CopyOp :=
  (s.cluster (clusterOf core)).copies.filter fun o => o.core == core

/-- The command queue of a quire (R320). -/
def State.matQueue (s : State) (cl core key : Nat) : List MatOp :=
  (s.cluster cl).mats.filter fun o => o.core == core && o.quire == key

/-- The engine that an instruction's operation enters (R298, R320): false the copy engine, true the matrix engine. -/
def Instr.engine : Instr → Option Bool
  | .copy _ _ _ => some false
  | .copyx _ _ _ => some false
  | .mma _ _ _ => some true
  | .mmas _ _ _ => some true
  | .mzero _ _ _ => some true
  | _ => none

/-- The word at a PC, for the choice alone. -/
def State.peek (s : State) (ctx : Nat) (pc : Word64) : Option Instr :=
  match s.reach ctx { x := true } (fun _ => true) [⟨0, pc, 4⟩] with
  | .ok [.hbm a] => match decode (wordOfBytes (Mem.readN s.hbm a 12)) with
    | .ok i => some i
    | .error _ => none
  | .ok [.host a] => match decode (wordOfBytes (Mem.readN s.host a 12)) with
    | .ok i => some i
    | .error _ => none
  | _ => none

/-- The path's next instruction needs an engine queue that is full, so that the path is not ready (R298, R320). -/
def State.queueFull (s : State) (c : Nat) (g : Sig) (p : Path) : Bool :=
  let copies := decide (16 ≤ (s.copyQueue c).length)
  let mats := match g.quire with
    | some key => decide (16 ≤ (s.matQueue (clusterOf c) c key).length)
    | none => false
  if p.wdog.isSome || p.fault.isSome || (!copies && !mats) then false
  else match (s.peek g.ctx p.pc).bind Instr.engine with
    | some false => copies
    | some true => mats
    | none => false

/-- The path that the port chooses (R80, R81, R87). -/
def State.choose (s : State) (c port : Nat) : Option (Nat × Sig × Path) :=
  let k := s.core c
  let det := match k.ctx with | some x => s.det x | none => false
  let l := (k.readyPaths (if det then k.ctx.map s.detQ else none) port).filter fun a => !s.queueFull c a.2.1 a.2.2
  if det then
    let last := (k.port port).turn
    let lt := fun (a b : Nat × Sig × Path) => turnLt (turnOf a.2.1 a.2.2) (turnOf b.2.1 b.2.2)
    match leastOf lt (l.filter fun a => turnLt last (turnOf a.2.1 a.2.2)) with
    | some x => some x
    | none => leastOf lt l
  else
    let old := fun (a b : Nat × Sig × Path) => listLt [a.2.2.rseq, a.2.2.idx] [b.2.2.rseq, b.2.2.idx]
    match leastOf old (l.filter fun a => 64 ≤ a.2.2.passes) with
    | some x => some x
    | none => leastOf (fun a b => decide (s.prio b.2.1 < s.prio a.2.1) || (s.prio a.2.1 == s.prio b.2.1 && old a b)) l

/-- The choice takes effect: the port passes the other ready paths over (R81), the rotation moves on (R87). -/
def State.chosen (s : State) (c port : Nat) (x : Nat × Sig × Path) : State :=
  let det := s.det x.2.1.ctx
  let pass := fun (slot : Nat) (g : Sig) (p : Path) =>
    if p.port != port || p.stalled || p.held || (slot == x.1 && p.idx == x.2.2.idx) then p
    else { p with passes := if s.queueFull c g p then 0 else p.passes + 1 }
  let step := fun (slot : Nat) (g : Sig) => { g with paths := g.paths.map (pass slot g) }
  s.modCore c fun k => { (k.modPort port fun q => { q with turn := if det then turnOf x.2.1 x.2.2 else q.turn }) with
    sigs := k.sigs.map fun (y : Nat × Sig) => (y.1, step y.1 y.2) }

/-! ### Fetch (R10, R11, R14) -/

/-- The instruction word at a PC, or why there is none. -/
inductive Fetch where
  | word (w : InstrWord) (s : State)
  | illegal (w : InstrWord) (s : State)
  | fault (t : Trap)
  | absent (pages : List Leaf) (va : Nat)

/-- The place of the first byte of the line of an instruction. -/
def Place.back (p : Place) (n : Nat) : Place :=
  match p with
  | .hbm a => .hbm (a - n)
  | .host a => .host (a - n)
  | .peer d k a => .peer d k (a - n)

/-- The 128 bytes of a line of code, and an instruction cache that holds them from here on. A line that is held with other bytes
gives those or the new ones; which of the two is a free choice (R428; log entry 20). Of a SYNC page no line is held (R251). -/
def State.codeLine (s : State) (ctx va : Nat) (p : Place) : List Byte × State :=
  let (now, s) := s.readPlace p 128
  let line := va / 128
  let keep := fun (s : State) => s.modCtx ctx fun c => { c with icache := AMap.set c.icache line now }
  if (match s.walk ctx va with | some l => l.sync | none => false) then (now, s) else
  match AMap.get? (s.ctx ctx).icache line with
  | none => (now, keep s)
  | some old =>
    if old = now then (now, s)
    else
      let (w, s) := s.drawWord
      if w.getLsbD 0 then (old, s) else (now, keep s)

/-- The line of an instruction is fetched where neither an instruction cache nor L2 holds it: whether it is there (R259, R260). -/
def State.codeReady (s : State) (ctx : Nat) (pc : Word64) : Bool × State :=
  match s.reach ctx { x := true } (fun _ => true) [⟨0, pc, 4⟩] with
  | .ok [.peer d c a] => match s.own { x := true } (.peer d c a) 128 with
    | .away c pages => (false, s.askFills c pages)
    | _ => (true, s)
  | .ok [.hbm a] => if (AMap.get? (s.ctx ctx).icache (pc.toNat / 128)).isSome then (true, s) else s.fetchAt (.hbm a) 4
  | _ => (true, s)

/-- Reads the header of the line and the slot (R11, R14). -/
def State.fetch (s : State) (ctx : Nat) (pc : Word64) : Fetch :=
  match s.reach ctx { x := true } (fun _ => true) [⟨0, pc, 4⟩] with
  | .fail t => .fault t
  | .absent l va => .absent l va
  | .ok [p] =>
    if s.refuses { x := true } p 128 then .fault ⟨cACCESS, pc, none⟩
    else
      let off := pc.toNat % 128
      let (bs, s) := s.codeLine ctx pc.toNat (p.back off)
      let w := wordOfBytes ((bs.drop off).take 12)
      if natOfBytes (bs.take 8) = 0 then .word w s else .illegal w s
  | .ok _ => .fault ⟨cACCESS, pc, none⟩

/-- An unspecified word. -/
def State.drawInstr (s : State) : InstrWord × State :=
  let (a, s) := s.drawWord
  let (b, s) := s.drawWord
  ((a.setWidth 32) ++ b, s)

/-- The environment of a path with a word, its active lanes as the guard of the word has them; a reserved guard gives
unspecified lanes of the mask. JOIN takes no guard (R31): a JOIN word that is refused for its guard has every lane of the
mask active (R415). -/
def State.envWith (s : State) (c slot : Nat) (g : Sig) (p : Path) (w : InstrWord) : Env :=
  let sel : Sel := ⟨c, slot, p.idx, w, false⟩
  if w.extractLsb' 88 8 = 0x07 then ⟨s, sel, g, p, p.mask⟩
  else match Cond.ofCode (w.extractLsb' 85 3).toNat with
  | some c => Env.guarded ⟨s, sel, g, p, p.mask⟩ ⟨c, w.extractLsb' 82 3, 0, false, 0⟩
  | none =>
    let (a, s) := s.drawWord
    let (b, s) := s.drawWord
    ⟨s, sel, g, p, p.mask &&& (a ++ b)⟩

/-- What an issue slot of a port comes to. -/
inductive Issue where
  /-- no path is ready -/
  | idle
  /-- the path has faulted or parted at the fetch -/
  | spent (s : State)
  /-- an instruction, or the WATCHDOG of the path (R89) -/
  | run (i : Instr) (s : State)

/-- One issue slot for a path: WATCHDOG when it is due; a fetch that fails; a fault carried from the record (R142);
ILLOP for a word that decodes to nothing; else the instruction, selected. -/
def State.issuePath (s : State) (c slot : Nat) (g : Sig) (p : Path) : Issue :=
  let start := fun (s : State) => (s.sig? c slot).getD g
  if p.wdog.isSome then .run (.watchdog c slot p.idx) s
  else match s.fetch g.ctx p.pc, p.fault with
  | .word w s, some t => let e := s.envWith c slot (start s) p w; .spent (e.raise t)
  | .illegal w s, some t => let e := s.envWith c slot (start s) p w; .spent (e.raise t)
  | _, some t =>
    let (w, s) := s.drawInstr
    let e := s.envWith c slot (start s) p w
    .spent (e.raise t)
  | .fault t, none =>
    let (w, s) := s.drawInstr
    let e := s.envWith c slot (start s) p w
    .spent (e.raise t)
  | .absent pages va, none =>
    let s := s.askFills g.ctx pages
    let e : Env := ⟨s, ⟨c, slot, p.idx, 0, false⟩, start s, p, p.mask⟩
    match e.part s { reason := 0x03, evkey := BitVec.ofNat 64 (va / 2 ^ 18 * 2 ^ 18), evaux := BitVec.ofNat 64 va, resume := p.pc,
                     wait := .none, counts := false } with
    | .ok s => .spent s
    | .error t =>
      let (w, s) := s.drawInstr
      let e := s.envWith c slot (start s) p w
      .spent (e.raise t)
  | .illegal w s, none => let e := s.envWith c slot (start s) p w; .spent (e.raise (trapOf cILLOP))
  | .word w s, none =>
    match decode w with
    | .ok i => .run i { s with sel := some ⟨c, slot, p.idx, w, false⟩ }
    | .error _ => let e := s.envWith c slot (start s) p w; .spent (e.raise (trapOf cILLOP))

/-- One issue slot of a port; it passes while the line of the instruction is on its way. -/
def State.issue (s : State) (c port : Nat) : Issue :=
  match s.choose c port with
  | none => .idle
  | some x =>
    let (there, s) := if x.2.2.wdog.isSome then (true, s) else s.codeReady x.2.1.ctx x.2.2.pc
    if there then (s.chosen c port x).issuePath c x.1 x.2.1 x.2.2 else .spent s

end Sys2Proof.Machine
end

