-- ==== Sys2Proof/Machine/Settle.lean ====
section
/-!
DEFINITION. Machine/Settle.lean: the events of waiting records (R140, R141) that follow from the state alone: handles,
counters, fences, phases, generations, streams, pools, queues; RVSTARVE and QUOTA (R139, R283); spilled headers that
return to the store (R144).
-/
namespace Sys2Proof.Machine

/-- No write of the signature in the program order of the lanes is left to be performed, nor, with sy, acknowledged
(R294). -/
def State.fenced (s : State) (uid : Nat) (m : Mask) (sy : Bool) : Bool :=
  let sc := fun (o : ScOp) => o.uid == uid && (o.mask &&& m) != 0 && o.acc.op != .read
  s.cores.all (fun (p : Nat × Core) => p.2.pend.all fun w => !(w.uid == uid && (w.mask &&& m) != 0 && (sy || !w.posted)))
    && s.thimble.queues.all (fun (p : Nat × List ScOp) => p.2.all fun o => !sc o) && s.thimble.held.all fun o => !sc o

/-- Number of the first block of device queue q that stands in the overflow (R168). -/
def DevQ.entered (q : DevQ) : Nat := q.head + q.len

def DevQ.init : DevQ := ⟨0, 0, 0, 0, []⟩

/-- Whether the event of a WAITING record has occurred, as a predicate on the state (R141). -/
def State.due (s : State) (ctx : Nat) (r : Record) : Option Nat :=
  match r.wait with
  | .fence uid sy => if s.fenced uid r.mask sy then some 0 else none
  | .membar va gen => match s.cellPlace ctx va with
    | some pa => if passed32 (s.cell pa).gen gen then some 0 else none
    | none => none
  | .launch n => if n < (AMap.getD (s.ctx ctx).devq r.evkey.toNat DevQ.init).entered then some 0 else none
  | .relOc _ _ _ => none
  | .acq _ _ => none
  | .broken => some cCLASP
  | _ =>
    if r.reason = 0x05 then (if (s.core r.evkey.toNat).outst = 0 then some 0 else none)
    else if r.reason = 0x09 then (if (s.handleState r.evkey).code = 0 then none else some 0)
    else none

/-- Whether the settling pass may look at a record: in deterministic mode round-ending waits are re-evaluated in the
serial phase alone (R86). -/
def State.awake (s : State) (ctx : Nat) (ser : Bool) (r : Record) : Bool :=
  ser || !s.det ctx || !roundEnding r.reason r.wait

/-! ### Waits with an effect -/

/-- One record of a context becomes READY. -/
def State.wakeOne (s : State) (ctx born fault : Nat) : State :=
  s.wakeCtx ctx fun r => if r.born = born then some fault else none

/-- Registers of a signature's parted paths have been written since the parting (R126). -/
def State.keep (s : State) (core : Nat) (p : Record → Bool) (l : List (Nat × Mask)) : State :=
  s.modCore core fun k => { k with records := k.records.map fun r => if p r then { r with kept := r.kept ++ l } else r }

/-- A parted REL.oc releases at zero (R293); a parted TSPAWN pushes when there is room (R162). -/
def State.settleEffect (s : State) (ctx : Nat) (r : Record) : State :=
  match r.wait with
  | .relOc va uid sy =>
    if (s.core r.evkey.toNat).outst = 0 ∧ !s.releaseWaits uid sy then
      match s.cellNow ctx va with
      | some (pa, s) => (s.freeClasp ctx va pa).wakeOne ctx r.born 0
      | none => s.wakeOne ctx r.born cCLASP
    else s
  | .spawn ts =>
    if s.taskFits ctx r.core ((ts.head?.map (·.grid)).getD 0) ts.length then (ts.foldl (fun (a : State) t => a.pushTask ctx t) s).wakeOne ctx r.born 0 else s
  | _ => s

/-! ### Streams (R240, R241) -/

/-- The quire at a gang position, with core and key, until its last signature exits (R73, R241). -/
def State.mate (s : State) (ctx : Nat) (q : Quire) (pos : Nat) : Option (Nat × Nat) :=
  let k := s.core (q.first + pos)
  if k.ctx != some ctx then none
  else (k.quires.find? fun (x : Nat × Quire) => x.2.grid == q.grid && x.2.gang == q.gang && x.2.pos == pos
      && x.2.slots.any fun sl => (AMap.get? k.sigs sl).isSome).map fun x => (q.first + pos, x.1)

/-- A waiting push or pop whose turn has come. A pop takes its entry and relaunches after itself also where a give has
removed its destination meanwhile (log entry 58). -/
def State.settleStream (s : State) (ctx core key : Nat) (q : Quire) (r : Record) : State :=
  let e := r.evkey.toNat
  match r.wait with
  | .push entry =>
    match s.mate ctx q e with
    | none => s.wakeOne ctx r.born 0
    | some (c, j) =>
      match s.quire? c j with
      | none => s
      | some t =>
        let f := AMap.getD t.fifos q.pos []
        if f.length < 4 then
          (s.modQuire c j fun t => { t with fifos := AMap.set t.fifos q.pos (f ++ [entry]) }).wakeOne ctx r.born 0
        else s
  | .pop d =>
    match AMap.getD q.fifos e [] with
    | x :: rest =>
      let s := s.modQuire core key fun t => { t with fifos := AMap.set t.fifos e rest }
      ((writeDest s core r.slot r.port r.act 0 d x).keep core (fun x => x.pseq == r.pseq) (d.kept 1 r.act)).wakeOne ctx r.born 0
    | [] => if (s.mate ctx q e).isNone then s.wakeOne ctx r.born cACCESS else s
  | _ => s

/-- A waiting push has room, a waiting pop an entry, or the stream is closed for it. -/
def State.streamMet (s : State) (ctx : Nat) (q : Quire) (r : Record) : Bool :=
  let e := r.evkey.toNat
  match r.wait with
  | .push _ => match (s.mate ctx q e).bind fun m => s.quire? m.1 m.2 with
    | none => true
    | some t => decide ((AMap.getD t.fifos q.pos []).length < 4)
  | .pop _ => !(AMap.getD q.fifos e []).isEmpty || (s.mate ctx q e).isNone
  | _ => false

/-- The same stream and the same end. -/
def sameStream (a b : Record) : Bool := a.reason == 0x0A && b.reason == 0x0A && a.evkey == b.evkey && a.evaux == b.evaux

/-- The quire of a record's signature, with its key. -/
def State.quireOf (s : State) (core : Nat) (r : Record) : Option (Nat × Quire) :=
  match s.sig? core r.slot with
  | some g => g.quire.bind fun k => (s.quire? core k).map fun q => (k, q)
  | none => none

/-- The place of a waiting push or pop among those at its end of the stream: by PSEQ (R240); in deterministic mode by the event
with which its turn came, then by signature and path (R86, R147). -/
def State.streamKey (s : State) (core : Nat) (r : Record) : List Nat :=
  match s.sig? core r.slot with
  | some g => if s.det g.ctx then [r.due.getD (2 ^ 64), g.sigix, r.pidx] else [r.pseq]
  | none => [r.pseq]

/-- No push or pop that goes first waits at the same end of the stream. -/
def State.streamFirst (s : State) (core key : Nat) (r : Record) (among : List Record) : Bool :=
  !among.any fun x => sameStream x r && listLt (s.streamKey core x) (s.streamKey core r) && (match s.sig? core x.slot with
    | some g => g.quire == some key
    | none => false)

/-! ### QUOTA (R138, R139) -/

/-- Waiting takes of a quire, in the order they parted. -/
def State.takes (s : State) (core : Nat) (q : Quire) : List Record :=
  (s.core core).records.filter fun r => !r.ready && r.reason == 0x0F && q.slots.contains r.slot

def takeOf (r : Record) : Nat := match r.wait with | .take n => n | _ => 0

/-- The budget of a signature grows by n registers, which read 0 in every lane, also in those of its parted paths (R124). -/
def State.grow (s : State) (core slot n : Nat) : State :=
  let b := match s.sig? core slot with | some g => g.B | none => 0
  (s.modSig core slot fun g => { g with
    B := g.B + n, v := g.v.filter fun (x : Nat × Row) => !(decide (g.B ≤ x.1) && decide (x.1 < g.B + n)) }).keep core
      (fun x => x.slot == slot) ((List.range n).map fun i => (b + i, BitVec.allOnes 128))

/-- The first waiting take is satisfied while the pool holds enough (R139). The takes of two paths of one signature can
raise its budget above 256 together (log entry 58). -/
def State.satisfyTake (s : State) (ctx core key : Nat) : State :=
  match s.quire? core key with
  | none => s
  | some q =>
    match s.takes core q with
    | [] => s
    | r :: _ =>
      let n := takeOf r
      if q.spare < n then s
      else
        let s := s.modQuire core key fun q => { q with spare := q.spare - n }
        (s.grow core r.slot n).wakeOne ctx r.born 0

/-- Takes that can never be satisfied relaunch carrying QUOTA, judged in the order they parted; `before` is what earlier
takes still ask for. -/
def State.judgeTakes (s : State) (ctx core : Nat) (q : Quire) (before : Nat) : List Record → State
  | [] => s
  | r :: rest =>
    let others := q.slots.filter fun sl => sl != r.slot && (s.sig? core sl).isSome
    let avail := others.foldl (fun a sl => a + (match s.sig? core sl with | some g => g.B - 8 | none => 0)) q.spare
    let need := before + takeOf r
    if avail < need then (s.wakeOne ctx r.born cQUOTA).judgeTakes ctx core q before rest
    else s.judgeTakes ctx core q need rest

/-- An engine operation whose completion names point p of the quire is pending: in its queue, taken out for the saving of
its context (R421), or, in deterministic mode, waiting to deliver in the serial phase (R86). -/
def State.names (s : State) (core key : Nat) (p : Nat → Bool) : Bool :=
  let e := s.cluster (clusterOf core)
  let copy := fun (o : CopyOp) => o.ofQuire core key && o.ck == 1 && p o.c.toNat
  let mat := fun (o : MatOp) => o.core == core && o.quire == key && o.c.toNat / 2 ^ 27 % 2 == 1 && p (o.c.toNat / 2 ^ 28 % 32)
  s.clusters.any (fun (x : Nat × Cluster) => x.2.copies.any copy) || e.mats.any mat || (match (s.core core).ctx with
    | none => false
    | some ctx => (s.ctx ctx).events.any (fun x => match x.2 with
        | .deliver c k n _ => c == core && k == key && p n
        | _ => false)
      || (match (s.ctx ctx).saved with
        | some v => v.copies.any (fun x => copy x.2) || v.mats.any fun x => mat x.2
        | none => false))

/-- Every path of every live signature of the quire is parted, for one of some reasons, and none is a handler's. -/
def State.allWait (s : State) (core : Nat) (q : Quire) (ok : Nat → Bool) : Bool :=
  let rs := (s.core core).records.filter fun r => q.slots.contains r.slot
  !rs.isEmpty && q.slots.all (fun sl => match s.sig? core sl with | some g => g.paths.isEmpty | none => true)
    && rs.all fun r => !r.ready && !r.handler && ok r.reason

/-- R139 and R283, on one quire. -/
def State.starve (s : State) (ctx core key : Nat) : State :=
  match s.quire? core key with
  | none => s
  | some q =>
    let s := s.judgeTakes ctx core q 0 (s.takes core q)
    let quiet := !s.names core key fun _ => true
    if quiet && s.allWait core q (fun n => n == 0x0F || n == 0x07) && !(s.takes core q).isEmpty then
      (s.takes core q).foldl (fun (a : State) r => a.wakeOne ctx r.born cQUOTA) s
    else if quiet && s.allWait core q (fun n => n == 0x07) then
      let rs := (s.core core).records.filter fun r => q.slots.contains r.slot
      rs.foldl (fun (a : State) r => a.modQuire core key fun q => q.modPoint r.evkey.toNat fun p =>
        if passed32 p.phase r.evaux.toNat || p.poison != 0 then p else { p with poison := cRVSTARVE }) s
    else s

/-- Waits at a rendezvous point (R282). -/
def State.duePoint (s : State) (core key : Nat) (r : Record) : Option Nat :=
  match s.quire? core key with
  | none => none
  | some q =>
    let p := q.point r.evkey.toNat
    if p.poison ≠ 0 then some p.poison else if passed32 p.phase r.evaux.toNat then some 0 else none

/-! ### TRAP (R415 step 3) -/

/-- A free handler is given to the oldest record that waits for it. -/
def State.settleTrap (s : State) (core port : Nat) : State :=
  let k := s.core core
  if (k.port port).handler.isSome then s
  else
    match k.records.find? fun r => !r.ready && r.reason == 0x10 && r.port == port with
    | none => s
    | some r => s.modCore core fun k => { k.modPort port (fun p => { p with handler := some (r.slot, r.pidx) }) with
        records := k.records.map fun x => if x.pseq == r.pseq then x.wake s.tick 0 0 else x }

/-! ### The store (R144) -/

/-- The first READY spilled header returns while an ordinary entry is free. -/
def State.unspill (s : State) (ctx core : Nat) : State :=
  let k := s.core core
  if k.storeFull then s
  else
    match leastBy (k.readyKey (s.det ctx)) (k.records.filter fun r => r.ready && r.spill.isSome) with
    | none => s
    | some r => s.freeSpills ctx core [r]

/-- A spilled header whose load has its data is written to the overflow area (R150). -/
def State.writeSpill (s : State) (ctx core : Nat) (r : Record) : State :=
  match r.spill, s.sig? core r.slot with
  | some n, some g =>
    match s.areaWrite ctx (s.regN ctx rCOVBASE + 128 * n) (s.spillBytes core g r) with
    | .ok s => s.modCore core fun k => { k with
        records := k.records.map fun x => if x.pseq == r.pseq then { x with inMem := true } else x }
    | .error c => s.areaLost ctx c (s.spillRec ctx core r)
  | _, _ => s

/-- Every such header of a core. -/
def State.writeSpills (s : State) (ctx core : Nat) : State :=
  ((s.core core).records.filter fun r => r.spill.isSome && !r.inMem && !r.outstanding).foldl (fun (s : State) r => s.writeSpill ctx core r) s

/-! ### The pass -/

/-- One look at each wait of one core. -/
def State.settleCore (s : State) (ctx : Nat) (ser : Bool) (core : Nat) : State :=
  let waiting := fun (s : State) => (s.core core).records.filter fun r => !r.ready && s.awake ctx ser r
  let s := (waiting s).foldl (fun (s : State) r => match s.quireOf core r with
    | none => s
    | some (key, q) =>
      if r.reason = 0x07 then
        match s.duePoint core key r with
        | some c => s.wakeOne ctx r.born c
        | none => s
      else if r.reason = 0x0A then
        if s.streamFirst core key r (waiting s) then s.settleStream ctx core key q r else s
      else s) s
  let s := if ser || !s.det ctx then
      (AMap.keys (s.core core).quires).foldl (fun (s : State) key => (s.satisfyTake ctx core key).starve ctx core key) s
    else s
  let s := (List.range 4).foldl (fun (s : State) p => s.settleTrap core p) s
  ((s.writeSpills ctx core).unspill ctx core).modCore core Core.bar

/-- One look at every wait of a context. -/
def State.settleOnce (s : State) (ctx : Nat) (ser : Bool) : State :=
  let eff := fun (r : Record) => (match r.wait with | .relOc _ _ _ => true | .spawn _ => true | _ => false) && s.awake ctx ser r
  let live := (s.coresOf ctx).flatMap fun c => ((s.core c).records.filter fun r => !r.ready && eff r)
  let kept := (s.ctx ctx).stored.flatMap fun g => g.quires.flatMap fun q => q.records.filter fun r => !r.ready && eff r
  let s := (live ++ kept).foldl (fun (s : State) r => s.settleEffect ctx r) s
  let s := (s.coresOf ctx).foldl (fun (s : State) c => s.settleCore ctx ser c) s
  s.wakeCtx ctx fun r => if s.awake ctx ser r then s.due ctx r else none

/-! ### The serial phase's view (R86) -/

/-- What a WAITING record waits for has come about. -/
def State.met (s : State) (ctx core : Nat) (r : Record) : Bool :=
  match r.wait with
  | .relOc _ uid sy => (s.core r.evkey.toNat).outst == 0 && !s.releaseWaits uid sy
  | .spawn ts => s.taskFits ctx r.core ((ts.head?.map (·.grid)).getD 0) ts.length
  | _ => (s.due ctx r).isSome || (match s.quireOf core r with
    | none => false
    | some (key, q) =>
      if r.reason = 0x07 then (s.duePoint core key r).isSome
      else if r.reason = 0x0A then
        s.streamFirst core key r ((s.core core).records.filter fun x => !x.ready) && s.streamMet ctx q r
      else if r.reason = 0x0F then
        ((s.takes core q).head?.map (·.pseq)) == some r.pseq && decide (takeOf r ≤ q.spare)
      else false)

/-- A round-ending wait notes the event with which its condition came about. -/
def Record.note (r : Record) (met : Bool) (ev : Nat) : Record :=
  if r.ready || !roundEnding r.reason r.wait then r
  else if met then { r with due := some (r.due.getD ev) } else { r with due := none }

/-- After an operation or an event of the serial phase: every round-ending wait whose condition has come about notes its
number; the waits are judged when all have been applied (R86). -/
def State.markDue (s : State) (ctx : Nat) : State :=
  let ev := (s.ctx ctx).evseq
  let s := (s.coresOf ctx).foldl (fun (a : State) c => a.modCore c fun k => { k with
    records := k.records.map fun r => r.note (s.met ctx c r) ev }) s
  s.modCtx ctx fun c => { c with stored := c.stored.map fun g => { g with quires := g.quires.map fun q => { q with
    records := q.records.map fun r => r.note (s.met ctx q.core r) ev } } }

/-- WAITING records of a context on its cores. -/
def State.waitingCount (s : State) (ctx : Nat) : Nat :=
  (s.coresOf ctx).foldl (fun n c => n + ((s.core c).records.filter fun r => !r.ready).length) 0

/-- Looks until every wait has had its turn after every other. -/
def State.settleCtx (s : State) (ctx : Nat) (ser : Bool) : State :=
  (List.range (s.waitingCount ctx + 1)).foldl (fun (s : State) _ => s.settleOnce ctx ser) s

/-- The events that follow from the state, in every ACTIVE context. -/
def State.settle (s : State) : State :=
  let s := s.sendSc
  (s.ctxs.filter fun (p : Nat × Ctx) => p.2.st == .active).foldl (fun (s : State) p => s.settleCtx p.1 false) s

end Sys2Proof.Machine
end

