-- ==== Sys2Proof/Machine/LocalMem.lean ====
section
/-!
DEFINITION. Machine/LocalMem.lean: local memory, the typed buffers and the cluster streams (R224 to R241), and the
operations of atomic instructions (R236).
-/
namespace Sys2Proof

/-- Bytes of a lane's access, and whether it takes a register pair (R233, R263, R265). -/
def LMod.bytes (m : LMod) : Nat := 2 ^ m.size.toNat
def LMod.wide (m : LMod) : Bool := m.size == 4
def GMod.bytes (m : GMod) : Nat := 2 ^ m.size.toNat
def GMod.wide (m : GMod) : Bool := m.size == 4
def AtMod.bytes (m : AtMod) : Nat := 2 ^ m.size.toNat
def AtMod.isCas (m : AtMod) : Bool := m.opc == 7
def AtMod.isFadd (m : AtMod) : Bool := m.opc == 8
/-- The lane type in which B of FADD is read; of any other operation it is an integer. -/
def AtMod.ty (m : AtMod) : Ty :=
  if m.isFadd then (if m.bytes = 4 then .f32 else .f64) else (if m.bytes = 4 then .n32 else .n64)

end Sys2Proof

namespace Sys2Proof.Machine

/-! ### Spaces -/

/-- Spaces by number: 0 LM, 1 W-, 2 A-, 3 C-buffer (R233). -/
def Spaces.get (m : Spaces) (n : Nat) : Mem :=
  match n with
  | 0 => m.lm | 1 => m.wb | 2 => m.ab | _ => m.cb
def Spaces.set (m : Spaces) (n : Nat) (x : Mem) : Spaces :=
  match n with
  | 0 => { m with lm := x } | 1 => { m with wb := x } | 2 => { m with ab := x } | _ => { m with cb := x }
def Locals.get (m : Locals) (n : Nat) : Nat :=
  match n with
  | 0 => m.lm | 1 => m.wb | 2 => m.ab | _ => m.cb

/-- First byte and size of the reservation of the path's quire; a task wave has none (R225, R227). -/
def Env.reserved (e : Env) (space : Nat) : Nat × Nat :=
  match e.quire with
  | some q => (q.base.get space, q.size.get space)
  | none => (0, 0)

/-- A test of every active lane, lowest first, that fails with a cause at the lane's address. -/
def Env.laneFault (e : Env) (cause : Nat) (ea : Row) (ok : Word64 → Bool) : Option Trap :=
  match (lanesOf e.act).find? fun l => !ok ea[l] with
  | some l => some ⟨cause, ea[l], none⟩
  | none => none

/-- MISALIGN, then ACCESS, over the active lanes (R234, R237). -/
def Env.localFault (e : Env) (space n : Nat) (ea : Row) : Option Trap :=
  (e.laneFault cMISALIGN ea fun x => x.toNat % n == 0).orElse fun _ =>
    e.laneFault cACCESS ea fun x => decide (x.toNat + n ≤ (e.reserved space).2)

/-- Effective addresses of formats I (R234, R220, R264). -/
def Env.addrs (e : Env) (a : Operand) (imm : BitVec 32) : Row := (e.raw a).map fun x => x + imm.signExtend 64

/-- n bytes of a space of the core, for a lane. -/
def Env.localBytes (e : Env) (space n : Nat) (x : Word64) : Nat :=
  natOfBytes (Mem.readN (e.core.mem.get space) ((e.reserved space).1 + x.toNat) n)

/-- Bytes written to a space of the core. -/
def State.localWrite (s : State) (core space a : Nat) (bs : List Byte) : State :=
  s.modCore core fun k => { k with mem := k.mem.set space (Mem.writeN (k.mem.get space) a bs) }

/-- sext64 or zext64 of n bytes (R234). -/
def extend (sx : Bool) (n x : Nat) : Word64 := if sx then BitVec.ofInt 64 (signedOf (8 * n) x) else BitVec.ofNat 64 x

/-! ### Loads and stores (R233, R234) -/

/-- The address operand. -/
def addrPos : Pos := { kinds := [.v, .s, .zero] }
/-- The data operand of a load and of a store. -/
def loadPos (wide : Bool) : Pos := { kinds := [.v, .idx], pair := wide }
def storePos (wide : Bool) : Pos := if wide then { kinds := [.v, .idx, .zero], pair := true } else { kinds := [.v, .s, .idx, .zero] }

/-- Active lanes whose n bytes an engine operation of the quire writes, or, for a store, reads or writes (R232). -/
def Env.engineRace (e : Env) (store : Bool) (space n : Nat) (ea : Row) : Mask :=
  match e.sig.quire with
  | some key =>
    let k := e.s.cluster (clusterOf e.sel.core)
    e.act &&& maskOf fun l => if store then k.meets e.sel.core key space ea[l].toNat n else k.writes e.sel.core key space ea[l].toNat n
  | none => 0

/-- Two free values for each lane. -/
def State.drawRows (s : State) : (Lane → Nat) × State :=
  let (a, s) := s.drawRow
  let (b, s) := s.drawRow
  (fun l => a[l].toNat + 2 ^ 64 * b[l].toNat, s)

/-- The operations whose bytes the stores of some lanes race with: what they write is undefined (R232). -/
def Env.raceEngines (e : Env) (s : State) (space n : Nat) (ea : Row) (race : Mask) : State :=
  match e.sig.quire with
  | some key => s.modCluster (clusterOf e.sel.core) fun k =>
      k.race e.sel.core key space ((lanesOf race).map fun l => (ea[l].toNat, n))
  | none => s

/-- What a load of a local space gives: unspecified values in the lanes whose bytes a pending engine operation writes (R232). -/
def Env.localData (e : Env) (space n : Nat) (ea : Row) : (Lane → Nat) × State :=
  let race := e.engineRace false space n ea
  let x := fun l : Lane => e.localBytes space n ea[l]
  if race = 0 then (x, e.s)
  else
    let (v, s) := e.s.drawRows
    (fun l => if race.getLsbD l.val then v l % 2 ^ (8 * n) else x l, s)

/-- A load of a local space. -/
def localLoad (o : Ops2) (imm : BitVec 32) (m : LMod) (e : Env) : Eff :=
  e.indexed [(o.d, m.wide)] fun _ =>
    let space := m.space.toNat
    let ea := e.addrs o.a imm
    match e.localFault space m.bytes ea with
    | some t => .trap t
    | none =>
      let (x, s) := e.localData space m.bytes ea
      if m.wide then
        .done (e.writeHi (e.write s o.d (Vector.ofFn fun l : Lane => BitVec.ofNat 64 (x l))) o.d
          (Vector.ofFn fun l : Lane => BitVec.ofNat 64 (x l / 2 ^ 64)))
      else .done (e.write s o.d (Vector.ofFn fun l : Lane => extend m.sx m.bytes (x l)))

/-- The bytes that a store takes from a lane of its data operand. -/
def Env.dataBytes (e : Env) (d : Operand) (n : Nat) (l : Lane) : List Byte :=
  bytesOfNat n ((e.raw d)[l].toNat + 2 ^ 64 * (if n = 16 then ((e.rawAt immWord 1 d)[l]).toNat else 0))

/-- The bytes of each lane of a store; undefined in the lanes that race with an engine, whose operations they spoil (R232). -/
def Env.storeData (e : Env) (d : Operand) (space n : Nat) (ea : Row) : (Lane → List Byte) × State :=
  let race := e.engineRace true space n ea
  let x := e.dataBytes d n
  if race = 0 then (x, e.s)
  else
    let (v, s) := e.s.drawRows
    (fun l => if race.getLsbD l.val then bytesOfNat n (v l) else x l, e.raceEngines s space n ea race)

/-- A store to a local space: the higher-numbered lane wins (R231). -/
def localStore (o : Ops2) (imm : BitVec 32) (m : LMod) (e : Env) : Eff :=
  e.indexed [(o.d, m.wide)] fun _ =>
    let space := m.space.toNat
    let ea := e.addrs o.a imm
    match e.localFault space m.bytes ea with
    | some t => .trap t
    | none =>
      let (x, s) := e.storeData o.d space m.bytes ea
      .done ((lanesOf e.act).foldl (fun (s : State) l =>
        s.localWrite e.sel.core space ((e.reserved space).1 + ea[l].toNat) (x l)) s)

/-- R234. -/
def execLdl (h : Hdr) (o : Ops2) (imm : BitVec 32) (m : LMod) : State → Host.Outcome State Fault Refusal :=
  perform h o.list { ok := fun e => e.ops2Ok o (loadPos m.wide) addrPos } noSync (localLoad o imm m)

/-- R234. -/
def execStl (h : Hdr) (o : Ops2) (imm : BitVec 32) (m : LMod) : State → Host.Outcome State Fault Refusal :=
  perform h o.list { ok := fun e => e.ops2Ok o (storePos m.wide) addrPos } noSync (localStore o imm m)

/-- R234. -/
def execLdb (h : Hdr) (o : Ops2) (imm : BitVec 32) (m : LMod) : State → Host.Outcome State Fault Refusal :=
  perform h o.list { ok := fun e => e.ops2Ok o (loadPos m.wide) addrPos } noSync (localLoad o imm m)

/-- R234. -/
def execStb (h : Hdr) (o : Ops2) (imm : BitVec 32) (m : LMod) : State → Host.Outcome State Fault Refusal :=
  perform h o.list { ok := fun e => e.ops2Ok o (storePos m.wide) addrPos } noSync (localStore o imm m)

/-! ### Atomic operations (R235 to R237) -/

def atomDst : Pos := { kinds := [.v, .idx, .zero] }
def atomB (m : AtMod) : Pos := { kinds := [.v, .s, .idx, .imm, .zero], fp := m.isFadd }

/-- R237: one event, its lanes in ascending order. The old value and the bytes of a lane that races with an engine are
undefined (R232). -/
def execAtoml (h : Hdr) (o : Ops4) (m : AtMod) : State → Host.Outcome State Fault Refusal :=
  let c := if m.isCas then srcPos else unused
  perform h o.list { ok := fun e => e.ops4Ok o atomDst addrPos (atomB m) c } noSync fun e =>
    e.indexed [(o.d, false), (o.b, false), (o.c, false)] fun _ =>
      let ea := e.raw o.a
      let b := e.src m.ty o.b
      let x := e.src m.ty o.c
      match e.localFault 0 m.bytes ea with
      | some t => .trap t
      | none =>
        let base := (e.reserved 0).1
        let race := e.engineRace true 0 m.bytes ea
        let (v, s) : (Lane → Nat) × State :=
          if race = 0 then (fun _ => 0, e.s) else let (v, s) := e.s.drawRows; (v, e.raceEngines s 0 m.bytes ea race)
        let one := fun (a : Mem × Row) (l : Lane) =>
          let p := base + ea[l].toNat
          let old := natOfBytes (Mem.readN a.1 p m.bytes)
          let (old, new) := if race.getLsbD l.val then (v l % 2 ^ (8 * m.bytes), v l / 2 ^ 64)
            else (old, rmwNew m.opc.toNat m.bytes m.signed old b[l].toNat x[l].toNat)
          (Mem.writeN a.1 p (bytesOfNat m.bytes new), a.2.set l (BitVec.ofNat 64 old))
        let (lm, old) := (lanesOf e.act).foldl one (e.core.mem.lm, rowZero)
        let s := s.modCore e.sel.core fun k => { k with mem := { k.mem with lm := lm } }
        .done (e.write s o.d old)

/-! ### Cluster streams (R238 to R241) -/

/-- The endpoint of a stream instruction, with the quire; or the fault of R238 or R239. -/
def Env.endpoint (e : Env) (o : Operand) : Except Trap (Nat × Quire) :=
  let n := (e.uni o).toNat
  if 11 < n then .error (trapOf cOPERAND)
  else match e.quire with
    | none => .error (trapOf cACCESS)
    | some q => if n = q.pos ∨ q.gsize ≤ n then .error (trapOf cACCESS) else .ok (n, q)

/-- Earlier pushes (0) or pops (1) of the stream wait. -/
def Env.streamWaits (e : Env) (n dir : Nat) : Bool :=
  e.core.records.any fun r => !r.ready && r.reason == 0x0A && r.evkey == BitVec.ofNat 64 n && r.evaux == BitVec.ofNat 64 dir
    && (match e.s.sig? e.sel.core r.slot with | some g => g.quire == e.sig.quire | none => false)

def endpointPos : Pos := { kinds := [.imm, .s] }

/-- R240, R241. DESIGN CHOICE (log entry 66): the faults of the endpoint come before the INDEX faults of the operands. -/
def execSpush (h : Hdr) (o : Ops4) : State → Host.Outcome State Fault Refusal :=
  perform h o.list { ok := fun e => e.ops4Ok o unused srcPos endpointPos unused } noSync fun e =>
    match e.endpoint o.b with
    | .error t => .trap t
    | .ok (n, q) => e.indexed [(o.a, false)] fun _ =>
      let a := e.raw o.a
      let entry : Row := Vector.ofFn fun l : Lane => if e.act.getLsbD l.val then a[l] else 0
      match e.s.mate e.sig.ctx q n with
      | none => .done e.s
      | some (c, key) =>
        let fifo := match e.s.quire? c key with
          | some r => AMap.getD r.fifos q.pos []
          | none => []
        if 4 ≤ fifo.length ∨ e.streamWaits n 0 then
          .part e.s { reason := 0x0A, evkey := BitVec.ofNat 64 n, resume := e.next, wait := .push entry }
        else .done (e.s.modQuire c key fun r => { r with fifos := AMap.set r.fifos q.pos (fifo ++ [entry]) })

/-- R240, R241. DESIGN CHOICE (log entry 66): the faults of the endpoint come before the INDEX faults of the operands. -/
def execSpop (h : Hdr) (o : Ops4) : State → Host.Outcome State Fault Refusal :=
  perform h o.list { ok := fun e => e.ops4Ok o dstPos endpointPos unused unused } noSync fun e =>
    match e.endpoint o.a with
    | .error t => .trap t
    | .ok (n, q) => e.indexed [(o.d, false)] fun _ =>
      let wait : PartSpec := { reason := 0x0A, evkey := BitVec.ofNat 64 n, evaux := 1, resume := e.next, wait := .pop (e.dest o.d) }
      match AMap.getD q.fifos n [] with
      | [] => if (e.s.mate e.sig.ctx q n).isNone then .trap (trapOf cACCESS) else .part e.s wait
      | x :: rest =>
        if e.streamWaits n 1 then .part e.s wait
        else
          let key := e.sig.quire.getD 0
          .done (e.write (e.s.modQuire e.sel.core key fun r => { r with fifos := AMap.set r.fifos n rest }) o.d x)

end Sys2Proof.Machine
end

