-- ==== Sys2Proof/Machine/Global.lean ====
section
/-!
DEFINITION. Machine/Global.lean: the meanings of the global memory instructions (R263 to R268), of LDSC and STSC (R291),
of IVLD and IVST (R220 to R223), and the events that complete them.
-/
namespace Sys2Proof.Machine

/-! ### Loads -/

/-- The first active lane's address, which EVKEY holds (R141). -/
def Env.lowAddr (e : Env) (ea : Row) : Word64 := match lowest e.act with | some l => ea[l] | none => 0

/-- How a load brings its data in. -/
structure LoadForm where
  sx : Bool := false
  interval : Bool := false
  pair : Bool := false

/-- Accesses of size n for each active lane; `halves`: two of 8 bytes each (R264). -/
def laneReads (acc : List (Lane × Nat × Place)) (n : Nat) (halves : Bool) : List Access :=
  acc.flatMap fun x =>
    if halves then [⟨x.1.val, x.2.1, x.2.2, 8, .read, none⟩, ⟨x.1.val, x.2.1 + 8, x.2.2.add 8, 8, .read, none⟩]
    else [⟨x.1.val, x.2.1, x.2.2, n, .read, none⟩]

/-- The parting with reason LOAD (R141, R151). -/
def Env.loadPart (e : Env) (s : State) (d : Operand) (f : LoadForm) (sc : Bool) (ea : Row) (acc : List Access)
    (late : List Access := []) : Eff :=
  .part s { reason := 0x01, evkey := e.lowAddr ea, resume := e.next, late := late
            wait := .load (e.dest d) (Operand.bits d) f.sx f.interval f.pair sc acc }

/-- LD (R264). -/
def execLd (h : Hdr) (o : Ops2) (imm : BitVec 32) (m : GMod) : State → Host.Outcome State Fault Refusal :=
  perform h o.list { ok := fun e => e.ops2Ok o (loadPos m.wide) addrPos } noSync fun e =>
    e.indexed [(o.d, m.wide)] fun _ =>
      let ea := e.addrs o.a imm
      e.lanesReached { r := true } ea m.bytes fun acc =>
        e.loadPart e.s o.d { sx := m.sx, pair := m.wide } false ea (laneReads acc m.bytes m.wide)

/-! ### Stores -/

/-- A piece of a store: lane, address, place, bytes. -/
structure Piece where
  lane : Nat
  va : Nat
  place : Place
  bytes : List Byte

/-- The byte that the pieces leave at an address: of the last piece that has one there. -/
def pieceByte (ps : List Piece) (va : Nat) : Option Byte :=
  ps.foldl (fun a p => if p.va ≤ va ∧ va < p.va + p.bytes.length then p.bytes[va - p.va]? else a) none

/-- The pieces of a store by line; those that cover a whole line become one (R273). With `counts`, each has what it adds
to the outstanding counter: the lanes it stands for. -/
def byLine (ps : List Piece) : List (Piece × Nat) :=
  let lines := ps.foldl (fun (acc : List Nat) p => if acc.contains (p.va / 128) then acc else acc ++ [p.va / 128]) []
  lines.flatMap fun ln =>
    let mine := ps.filter fun p => p.va / 128 == ln
    let bytes := (List.range 128).filterMap fun i => pieceByte mine (128 * ln + i)
    match mine.head? with
    | some p => if bytes.length = 128 then
        let lanes := mine.foldl (fun (acc : List Nat) q => if acc.contains q.lane then acc else acc ++ [q.lane]) []
        [(⟨p.lane, 128 * ln, match p.place with
            | .hbm a => .hbm (a - p.va % 128)
            | .host a => .host (a - p.va % 128)
            | .peer d k a => .peer d k (a - p.va % 128), bytes⟩, lanes.length)]
      else mine.map fun q => (q, 1)
    | none => []

/-- A write on its way to its home slice. -/
def Env.pendOf (e : Env) (a : Access) (count : Nat) (waiter : Option Nat) : PendW where
  grid := e.sig.grid
  uid := e.sig.uid
  mask := e.path.mask
  acc := a
  count := count
  posted := false
  born := e.s.births
  waiter := waiter
  after := e.s.scBefore e.sig.uid e.path.mask a

/-- Writes join those of the core that are not yet performed; `n` is added to the outstanding counter. -/
def Env.send (e : Env) (s : State) (ws : List PendW) (n : Nat) : State :=
  { s with births := s.births + 1 }.modCore e.sel.core fun k => { k with pend := k.pend ++ ws, outst := k.outst + n }

/-- The counter has no room for n more (R289). -/
def Env.outstFull (e : Env) (n : Nat) : Bool := decide (2 ^ 32 - 1 < e.core.outst + n)

/-- Pieces of a store in ascending lane order; 16 bytes as two halves when `halves`. -/
def Env.pieces (e : Env) (d : Operand) (acc : List (Lane × Nat × Place)) (n : Nat) (halves : Bool) : List Piece :=
  acc.flatMap fun x =>
    let bs := e.dataBytes d n x.1
    if halves then [⟨x.1.val, x.2.1, x.2.2, bs.take 8⟩, ⟨x.1.val, x.2.1 + 8, x.2.2.add 8, bs.drop 8⟩]
    else [⟨x.1.val, x.2.1, x.2.2, bs⟩]

def Piece.access (p : Piece) : Access := ⟨p.lane, p.va, p.place, p.bytes.length, .write p.bytes, none⟩

/-- ST (R264). -/
def execSt (h : Hdr) (o : Ops2) (imm : BitVec 32) (m : GMod) : State → Host.Outcome State Fault Refusal :=
  perform h o.list { ok := fun e => e.ops2Ok o (storePos m.wide) addrPos } noSync fun e =>
    e.indexed [(o.d, m.wide)] fun _ =>
      let ea := e.addrs o.a imm
      e.lanesReached { w := true } ea m.bytes fun acc =>
        match e.peerFault { w := true } m.bytes acc with
        | some t => .trap t
        | none =>
          let n := if m.nm then acc.length else 0
          if e.outstFull n then .stall
          else
            let ps := byLine (e.pieces o.d acc m.bytes m.wide)
            .done (e.send e.s (ps.map fun p => e.pendOf p.1.access (if m.nm then p.2 else 0) none) n)

/-! ### Atomics (R265, R266) -/

/-- Performed in lane order now, as the serial phase does (R86): old values by lane. An access that meets a soft error
changes nothing and gets no value (R266). -/
def performAll (ctx : Nat) (s : State) (acc : List Access) : List Access × State :=
  acc.foldl (fun (r : List Access × State) a =>
    if r.2.eccMeets a then (r.1 ++ [a], r.2.countEcc a.place)
    else
      let (x, s) := r.2.drawWord
      let (v, s) := (s.storeMeets (some ctx) a).performAccess a x.toNat
      (r.1 ++ [{ a with got := some v }], s)) ([], s)

/-- The SC operations of an instruction (R286). -/
def Env.scOf (e : Env) (a : Access) (waiter : Option Nat) (counted : Bool) : ScOp where
  id := 0
  ctx := e.sig.ctx
  grid := e.sig.grid
  core := e.sel.core
  uid := e.sig.uid
  mask := e.path.mask
  waiter := waiter
  acc := a
  counted := counted
  after := []
  node := e.s.nodeOf e.sig.ctx a.va

/-- Updates without a result: performed now, or sent and counted (R266). -/
def Env.sendUpdates (e : Env) (sc : Bool) (acc : List Access) : Eff :=
  if e.sel.serial then .done (performAll e.sig.ctx e.s acc).2
  else if e.outstFull acc.length then .stall
  else if sc then .done ((e.send e.s [] acc.length).queueSc (acc.map fun a => e.scOf a none true))
  else .done (e.send e.s (acc.map fun a => e.pendOf a 1 none) acc.length)

/-- Updates with a result (R266): the path parts until each has been performed. In deterministic mode they wait in the
core's round state for the serial phase (R473). -/
def Env.awaitUpdates (e : Env) (d : Operand) (sc : Bool) (ea : Row) (f : LoadForm) (acc : List Access) : Eff :=
  if e.s.det e.sig.ctx then e.loadPart e.s d f sc ea acc acc
  else
    let q := some e.core.pseq
    let s := if sc then (e.send e.s [] 0).queueSc (acc.map fun a => e.scOf a q false)
      else e.send e.s (acc.map fun a => e.pendOf a 0 q) 0
    e.loadPart s d f sc ea acc

/-- ATOM, RED and CAS. -/
def atomic (o : Ops4) (m : AtMod) (isCas : Bool) (e : Env) : Eff :=
  e.indexed [(o.d, false), (o.b, false), (o.c, false)] fun _ =>
    let ea := e.raw o.a
    let b := e.src m.ty o.b
    let x := e.src m.ty o.c
    e.lanesReached { r := true, w := true, noHost := true, noPeer := m.sc } ea m.bytes fun acc =>
      let ops := acc.map fun y : Lane × Nat × Place =>
        (⟨y.1.val, y.2.1, y.2.2, m.bytes, if isCas then .cas b[y.1] x[y.1] else .rmw m.opc.toNat m.signed b[y.1], none⟩ : Access)
      if isCas || o.d != .zero then e.awaitUpdates o.d m.sc ea {} ops
      else match e.peerFault { r := true, w := true, noHost := true } m.bytes acc with
        | some t => .trap t
        | none => e.sendUpdates m.sc ops

def atomAddr : Pos := { kinds := [.v, .s] }
def always (_ : Env) : Bool := true

/-- R266. The form with a result parts when it issues, also in deterministic mode (R91, R473). -/
def execAtom (h : Hdr) (o : Ops4) (m : AtMod) : State → Host.Outcome State Fault Refusal :=
  perform h o.list { ok := fun e => e.ops4Ok o atomDst atomAddr (atomB m) unused } (fun _ => o.d == .zero) (atomic o m false)

/-- R266. -/
def execRed (h : Hdr) (o : Ops4) (m : AtMod) : State → Host.Outcome State Fault Refusal :=
  perform h o.list { ok := fun e => e.ops4Ok o unused atomAddr (atomB m) unused } always (atomic o m false)

/-- R266; it parts when it issues, as in `execAtom`. -/
def execCas (h : Hdr) (o : Ops4) (m : AtMod) : State → Host.Outcome State Fault Refusal :=
  perform h o.list { ok := fun e => e.ops4Ok o atomDst atomAddr srcPos srcPos } noSync (atomic o m true)

/-! ### LDSC and STSC (R291) -/

/-- R291. -/
def execLdsc (h : Hdr) (o : Ops2) (imm : BitVec 32) (m : GMod) : State → Host.Outcome State Fault Refusal :=
  perform h o.list { ok := fun e => e.ops2Ok o (loadPos false) addrPos } noSync fun e =>
    e.indexed [(o.d, false)] fun _ =>
      let ea := e.addrs o.a imm
      e.lanesReached { r := true, noHost := true, noPeer := true } ea m.bytes fun acc =>
        e.awaitUpdates o.d true ea { sx := m.sx } (laneReads acc m.bytes false)

/-- R291. -/
def execStsc (h : Hdr) (o : Ops2) (imm : BitVec 32) (m : GMod) : State → Host.Outcome State Fault Refusal :=
  perform h o.list { ok := fun e => e.ops2Ok o (storePos false) addrPos } noSync fun e =>
    e.indexed [(o.d, false)] fun _ =>
      let ea := e.addrs o.a imm
      e.lanesReached { w := true, noHost := true, noPeer := true } ea m.bytes fun acc =>
        let ops := (e.pieces o.d acc m.bytes false).map Piece.access
        let part := fun (s : State) (late : List Access) => Eff.part s
          { reason := 0x02, evkey := e.lowAddr ea, resume := e.next, wait := .scStore ops.length, late := late }
        if e.s.det e.sig.ctx then part e.s ops
        else part ((e.send e.s [] 0).queueSc (ops.map fun a => e.scOf a (some e.core.pseq) false)) []

/-! ### Interval loads and stores (R220 to R223) -/

def ivBytes (t : Ty) : Nat := if ivWide t then 16 else 8

/-- R222. -/
def execIvld (h : Hdr) (o : Ops2) (imm : BitVec 32) (m : AMod) : State → Host.Outcome State Fault Refusal :=
  perform h o.list { feats := [0], ok := fun e => e.ops2Ok o (ivDst m.ty) atomAddr } noSync fun e =>
    e.indexed [(o.d, ivWide m.ty)] fun _ =>
      let ea := e.addrs o.a imm
      e.lanesReached { r := true } ea (ivBytes m.ty) fun acc =>
        e.loadPart e.s o.d { interval := true, pair := ivWide m.ty } false ea (laneReads acc (ivBytes m.ty) false)

/-- R223. -/
def execIvst (h : Hdr) (o : Ops2) (imm : BitVec 32) (m : AMod) : State → Host.Outcome State Fault Refusal :=
  perform h o.list { feats := [0], ok := fun e => e.ops2Ok o (ivDst m.ty) atomAddr } noSync fun e =>
    e.indexed [(o.d, ivWide m.ty)] fun _ =>
      let ea := e.addrs o.a imm
      e.lanesReached { w := true } ea (ivBytes m.ty) fun acc =>
        match e.peerFault { w := true } (ivBytes m.ty) acc with
        | some t => .trap t
        | none => .done (e.send e.s ((e.pieces o.d acc (ivBytes m.ty) false).map fun p => { e.pendOf p.access 0 none with iv := true }) 0)

/-! ### CFLUSH, CINV, PREF (R267, R268) -/

/-- One access in each 256 KiB unit of [va, va + len), the first at va. -/
def unitWants (va len : Nat) : List Want :=
  if len = 0 then []
  else
    let first := va / 2 ^ 18
    (List.range ((va + len - 1) / 2 ^ 18 - first + 1)).map fun i =>
      ⟨0, BitVec.ofNat 64 (if i = 0 then va else (first + i) * 2 ^ 18), 1⟩

/-- A length operand in an s register or an immediate. -/
def lenPos : Pos := { kinds := [.s, .imm] }

/-- CFLUSH and CINV: the range is treated later; a path's own writes to it come first (R267). -/
def flushRange (o : Ops4) (inv : Bool) (e : Env) : Eff :=
  let a := (e.uni o.a).toNat
  let n := (e.uni o.b).toNat
  if n = 0 then .done e.s
  else if 2 ^ 36 < n then .trap (trapOf cOPERAND)
  else
    let va := a / 128 * 128
    let len := alignUp (a + n) 128 - va
    if 2 ^ 54 < va + len then .trap (trapAt cACCESS (max va (2 ^ 54)))
    else e.reached { r := true, noHost := true, noPeer := true } anyPage (unitWants va len) fun _ =>
      let own := fun (w : PendW) => w.uid == e.sig.uid && !w.posted && (w.mask &&& e.path.mask) != 0
      if e.s.anyPend own || e.outstFull 1 then .stall
      else .done (e.s.modCore e.sel.core fun k => { k with
        flushes := k.flushes ++ [⟨e.sig.ctx, e.sig.grid, inv, va, len, []⟩], outst := k.outst + 1 })

def frontFlush (o : Ops4) : Front := { ok := fun e => e.ops4Ok o unused { kinds := [.s] } lenPos unused }

/-- R267. -/
def execCflush (h : Hdr) (o : Ops4) : State → Host.Outcome State Fault Refusal :=
  perform h o.list (frontFlush o) noSync (flushRange o false)

/-- R267. -/
def execCinv (h : Hdr) (o : Ops4) : State → Host.Outcome State Fault Refusal :=
  perform h o.list (frontFlush o) noSync (flushRange o true)

/-- PREF on one range (R268): ranges that fail a check are ignored page by page. -/
def State.prefetch (s : State) (ctx a n : Nat) (lines : Bool) : State :=
  let va := a / 128 * 128
  let len := if n = 0 then 128 else alignUp (a + min n (2 ^ 36)) 128 - va
  if 2 ^ 54 < va + len then s
  else
    let leaves := (unitWants va len).filterMap fun w => s.walk ctx w.va.toNat
    let s := (leaves.filter fun l => l.r && !l.res).foldl (fun (s : State) l => s.askFill ctx l) s
    if lines then
      (leaves.filter fun l => l.r && l.res && !l.sync).foldl (fun (s : State) l =>
        let from_ := max va l.va
        let till := min (va + len) (l.va + l.size)
        (List.range ((till - from_) / 128)).foldl (fun (s : State) i =>
          match hbmOf (l.addr + (from_ - l.va) + 128 * i) with
          | some p => s.hold p 128
          | none => s) s) s
    else s

/-- R268. -/
def execPref (h : Hdr) (o : Ops4) (m : PrefMod) : State → Host.Outcome State Fault Refusal :=
  perform h o.list { ok := fun e => e.ops4Ok o unused atomAddr lenPos unused } noSync fun e =>
    let a := e.raw o.a
    .done ((lanesOf e.act).foldl (fun (s : State) l => s.prefetch e.sig.ctx a[l].toNat (e.uni o.b).toNat (!m.res)) e.s)

/-! ### Events -/

def disabled (name : String) : Host.Outcome State Fault Refusal := .refused (.disabled name)

/-- A load's value in a lane: its accesses in address order. -/
def laneValue (acc : List Access) (l : Nat) : Nat :=
  (acc.filter fun a => a.lane == l).foldr (fun a x => (a.got.getD 0) + 2 ^ (8 * a.size) * x) 0

def laneMask (acc : List Access) : Mask := maskOf fun l => acc.any fun a => a.lane == l.val

/-- The plain reads of a load, performed; `data` answers for peers in order. A read that races with a store returns a free
value (R88); one of IVLD gives the image whole, as it is when the read is performed (R221). -/
def readAll (core : Nat) (r : Record) (uid : Nat) (s : State) (data : List Nat) : List Access → List Access × State
  | [] => ([], s)
  | a :: l =>
    match a.got with
    | some _ => let (t, s) := readAll core r uid s data l; (a :: t, s)
    | none =>
      let (v, s) := s.performAccess a (data.headD 0)
      let v := if a.op == .read && s.racesPend uid r.wait.interval a then s.racyValue core r.pseq a.va % 2 ^ (8 * a.size) else v
      let (t, s) := readAll core r uid s (if a.place.isPeer then data.drop 1 else data) l
      ({ a with got := some v } :: t, s)

/-- Some access of a load is still on its way: an SC operation or an update; or a write of the path that comes first. -/
def State.loadWaits (s : State) (g : Sig) (r : Record) (sc : Bool) (acc : List Access) : Bool :=
  acc.any fun a => a.got.isNone && (sc || a.op != .read || s.writeBefore g.uid r.mask a || !(s.scBefore g.uid r.mask a).isEmpty)

/-- The images of an interval load that are ill-formed (R222). -/
def badImages (pair : Bool) (acc : List Access) : Mask :=
  maskOf fun l => (acc.any fun a => a.lane == l.val) &&
    (let v := laneValue acc l.val
     if pair then !FP64.ivOk ⟨v % 2 ^ 64, v / 2 ^ 64⟩ else !FP32.ivOk (boundsOf32 (BitVec.ofNat 64 v)))

/-- The destination and, for a pair, its odd register lie below the budget (R138). -/
def Dest.below (d : Dest) (b : Nat) (pair : Bool) : Bool :=
  match d with
  | .v n => decide (n + (if pair then 1 else 0) < b)
  | _ => true

/-- The data of a load are there (R138, R222, R264): they go to the destination, and the record becomes READY, carrying
OPERAND where the destination lies at or above the budget of this moment, EMPTY where an interval image is ill-formed. A
destination that a give has taken and a take has brought back meanwhile is written (log entry 58). -/
def State.bring (s : State) (core : Nat) (r : Record) (g : Sig) (d : Dest) (sx iv pair : Bool) (acc : List Access) (ord : Nat) : State :=
  let m := laneMask acc
  let bad := if iv then badImages pair acc else 0
  let wake := fun (s : State) (f : Record → Record) => s.modRecord core r.pseq f
  if !d.below g.B pair then wake s fun x => x.wake s.tick ord cOPERAND
  else if bad ≠ 0 then
    wake s fun x => { x with evkey := bad.setWidth 64, evaux := (bad >>> 64).setWidth 64 }.wake s.tick ord cEMPTY
  else
    let val := fun l : Lane => laneValue acc l.val
    let size := (acc.head?.map (·.size)).getD 8
    let put := fun (s : State) (k : Nat) (row : Row) => writeDest s core r.slot r.port m k d row
    let s := if pair then
        put (put s 0 (Vector.ofFn fun l : Lane => BitVec.ofNat 64 (val l))) 1
          (Vector.ofFn fun l : Lane => BitVec.ofNat 64 (val l / 2 ^ 64))
      else put s 0 (Vector.ofFn fun l : Lane => extend sx size (val l))
    wake s fun x => { x with kept := x.kept ++ d.kept (if pair then 2 else 1) m }.wake s.tick ord 0

/-- LOAD_DATA_ARRIVAL (R141, R222, R264), once CD has let the lines' bursts through (R260). An update that a load record waits
for meets its soft error where it is performed (R266), not here. -/
def execLoadDataArrival (core pseq : Nat) (resp : Resp) (s : State) : Host.Outcome State Fault Refusal :=
  match (s.core core).records.find? fun r => r.pseq == pseq && !r.ready && r.late.isEmpty with
  | none => disabled "LOAD_DATA_ARRIVAL"
  | some r =>
    match r.wait, s.sig? core r.slot with
    | .load d _ sx iv pair sc acc, some g =>
      let s0 := s
      let (ord, s) := s.takeOrd g.ctx
      if s.loadWaits g r sc acc then disabled "LOAD_DATA_ARRIVAL"
      else match resp with
        | .ecc =>
          match acc.find? fun a => a.got.isNone with
          | some a => .next ((s.countEcc a.place).modRecord core pseq fun x => x.wakeWith s.tick ord ⟨cECC, r.evkey, none⟩)
          | none => disabled "LOAD_DATA_ARRIVAL"
        | .refused =>
          match acc.find? fun a => a.place.isPeer && !a.place.isOwn && a.got.isNone with
          | some a => .next (s.modRecord core pseq fun x => x.wakeWith s.tick ord (trapAt cACCESS a.va))
          | none => disabled "LOAD_DATA_ARRIVAL"
        | .ok data =>
          match s0.owned? acc with
          | .refused a => .next (s.modRecord core pseq fun x => x.wakeWith s.tick ord (trapAt cACCESS a.va))
          | .away s => .next s
          | .ok acc =>
          let (all, s1) := s0.fetchLines acc
          if all then
            let (ord, s) := s1.takeOrd g.ctx
            let (acc, s) := readAll core r g.uid s data acc
            .next (s.bring core r g d sx iv pair acc ord)
          else .next s1
    | _, _ => disabled "LOAD_DATA_ARRIVAL"

/-- STORE_PERFORMED (R266, R289); an update waits for its line (R260). An uncorrectable error leaves the location unchanged. -/
def execStorePerformed (core ix : Nat) (resp : Resp) (s : State) : Host.Outcome State Fault Refusal :=
  match (s.core core).pend[ix]? with
  | none => disabled "STORE_PERFORMED"
  | some w =>
    if !s.pendReady core ix w then disabled "STORE_PERFORMED"
    else
      let drop := fun (s : State) => (s.modCore core fun k => { k with pend := k.pend.eraseIdx ix }).uncount core w.count
      let fail := fun (s : State) (c : Nat) => match w.waiter with
        | some q =>
          let (ord, s) := match (s.core core).ctx with | some x => s.takeOrd x | none => (0, s)
          s.modRecord core q fun r => if r.ready then r else r.wakeWith s.tick ord (trapAt c w.acc.va)
        | none => s
      match s.owned? [w.acc] with
      | .refused _ => .next (fail (drop s) cACCESS)
      | .away s => .next s
      | .ok own =>
      let w := { w with acc := own.headD w.acc }
      match resp, w.acc.op with
      | .ok data, .write _ => .next (s.performPend core ix w (data.headD 0))
      | .ok data, _ =>
        let (all, s) := s.fetchLines [w.acc]
        .next (if all then s.performPend core ix w (data.headD 0) else s)
      | .refused, _ => if w.acc.place.isPeer && w.waiter.isSome then .next (fail (drop s) cACCESS) else disabled "STORE_PERFORMED"
      | .ecc, .rmw _ _ _ => .next (fail (drop (s.countEcc w.acc.place)) cECC)
      | .ecc, .cas _ _ => .next (fail (drop (s.countEcc w.acc.place)) cECC)
      | .ecc, _ => disabled "STORE_PERFORMED"

/-- The page leaves of a range that a CFLUSH or CINV treats (R251, R267). -/
def State.flushLeaves (s : State) (f : Flush) : List Leaf :=
  ((unitWants f.va f.len).filterMap fun w => s.walk f.ctx w.va.toNat).filter fun l => l.res && !l.sync

/-- A line number of HBM lies in a range of virtual addresses. -/
def lineIn (leaves : List Leaf) (va len line : Nat) : Bool :=
  leaves.any fun l => match offsetIn l.addr l.size (line * 128) with
    | some off => decide (va ≤ l.va + off) && decide (l.va + off < va + len)
    | none => false

/-- FLUSH_COMPLETE (R267): writebacks once CD has let their bursts through (R259, R260). -/
def execFlushComplete (core ix : Nat) (s : State) : Host.Outcome State Fault Refusal :=
  match (s.core core).flushes[ix]? with
  | none => disabled "FLUSH_COMPLETE"
  | some f =>
    let mine := lineIn (s.flushLeaves f) f.va f.len
    let gone := fun (s : State) => (s.modCore core fun k => { k with flushes := k.flushes.eraseIdx ix }).uncount core 1
    if f.inv then
      let ls := (s.l2.held ++ (AMap.keys s.l2.old).map (· / 128)).filter mine
      .next (gone ((ls.foldl insertNat []).foldl State.dropLine s))
    else
      let need := s.backBursts mine
      let (paid, s) := s.payBursts false need f.paid
      if Bursts.covered need paid then .next (gone { s with l2 := { s.l2 with old := s.l2.old.filter fun p => !mine (p.1 / 128) } })
      else .next (s.modCore core fun k => { k with flushes := k.flushes.modify ix fun f => { f with paid := paid } })

/-- APERTURE_WRITE_ACK (R430). -/
def execApertureWriteAck (core ix : Nat) (s : State) : Host.Outcome State Fault Refusal :=
  match (s.core core).pend[ix]? with
  | some w => if w.posted then .next (s.modCore core fun k => { k with pend := k.pend.eraseIdx ix })
    else disabled "APERTURE_WRITE_ACK"
  | none => disabled "APERTURE_WRITE_ACK"

/-- THIMBLE_VISIT (R285): the node performs what was queued at it before the visit, in order of arrival, and passes the
thimble on; it keeps the thimble while a line that it needs is on its way (R260). -/
def execThimbleVisit (s : State) : Host.Outcome State Fault Refusal :=
  let n := s.thimble.node
  let ops := AMap.getD s.thimble.queues n []
  let (all, s) := s.fetchLines ((ops.map (·.acc)).filter fun a => !a.isStore)
  if !all then .next s else
  let s := { s with thimble := { s.thimble with node := (n + 1) % 76, queues := AMap.del s.thimble.queues n } }
  let s := ops.foldl State.performSc s
  if 64 ≤ n then
    let es := (s.stack (n - 64)).notify
    let s := s.modStack (n - 64) fun t => { t with notify := [] }
    let performed := fun (s : State) (x : Notify) => s.modStack (n - 64) fun t => t.modPart x.slot fun p =>
      { p with act := p.act.map fun a => if a.run.seq = x.seq ∧ a.run.ctx = x.ctx then { a with notifies := a.notifies - 1 } else a }
    .next (es.foldl (fun (s : State) x => (performed s x).happen x.ctx x.order (.notify x.grid x.cell x.payload x.bytes)) s)
  else .next s

end Sys2Proof.Machine
end

