-- ==== Sys2Proof/Machine/Ordering.lean ====
section
/-!
DEFINITION. Machine/Ordering.lean: the meanings of the ordering group but LDSC and STSC (R290 to R297): clasps, memory
barriers, rendezvous points, FENCE and OCWAIT.
-/
namespace Sys2Proof.Machine

/-! ### Operands -/

/-- "u" (R290): an s register, or an immediate read as unsigned. -/
def uPos : Pos := { kinds := [.s, .imm] }
def uOrZero : Pos := { kinds := [.s, .imm, .zero] }
def sPos : Pos := { kinds := [.s] }
def sOrZero : Pos := { kinds := [.s, .zero] }

/-- The value of a "u". -/
def Env.u (e : Env) (o : Operand) : Nat :=
  match o with
  | .s n _ _ => (e.sig.sreg n.toNat).toNat
  | .imm i => i.toNat
  | _ => 0

/-- A uniform result where D is an s register. -/
def Env.writeSZ (e : Env) (s : State) (d : Operand) (x : Word64) : State :=
  match d with
  | .s n _ _ => e.writeS s n.toNat x
  | _ => s

/-! ### Cells (R275) -/

/-- The page is a SYNC page that the grid names. -/
def Env.syncNamed (e : Env) (l : Leaf) : Bool :=
  l.sync && l.va != 0 && (match e.grid with | some g => g.blk.syncpg.contains l.va | none => false)

/-- The checks on a cell's address (R275), then what follows with its place in HBM. -/
def Env.cellAt (e : Env) (a : Operand) (k : Nat → Eff) : Eff :=
  e.reached { r := true, w := true } e.syncNamed [⟨0, e.uni a, 64⟩] fun places =>
    match places with
    | [.hbm pa] => k pa
    | _ => .trap ⟨cACCESS, e.uni a, none⟩

def claspTrap : Eff := .trap (trapOf cCLASP)

/-! ### Clasps -/

/-- BIND (R292). -/
def execBind (h : Hdr) (o : Ops4) (m : BindMod) : State → Host.Outcome State Fault Refusal :=
  perform h o.list { ok := fun e => e.ops4Ok o unused sPos sPos uPos } always fun e =>
    e.cellAt o.a fun pa =>
      let base := (e.uni o.b).toNat
      let len := e.u o.c
      let cell := e.s.cell pa
      if base % 128 ≠ 0 ∨ len % 128 ≠ 0 ∨ 2 ^ 36 < len then .trap (trapOf cOPERAND)
      else if 2 ^ 54 < base + len ∨ 2 ^ 54 ≤ base then .trap (trapAt cACCESS (max base (2 ^ 54)))
      else if m.kind then
        if cell.kind = 2 then .done (e.s.setCell pa { cell with rbase := base, rlen := len }) else claspTrap
      else if 1 < cell.kind ∨ cell.state = 1 then claspTrap
      else .done (e.s.setCell pa { cell with kind := 1, state := 0, gen := 0, hgrid := 0, hwho := 0, rbase := base, rlen := len })

/-- This signature holds the clasp at a place. -/
def Env.holds (e : Env) (pa : Nat) : Bool := e.s.holderAt e.sig.ctx pa == some e.sig.uid

/-- ACQ (R293). -/
def execAcq (h : Hdr) (o : Ops4) (m : SyMod) : State → Host.Outcome State Fault Refusal :=
  perform h o.list { ok := fun e => e.ops4Ok o unused sPos unused unused } always fun e =>
    e.cellAt o.a fun pa =>
      let cell := e.s.cell pa
      if cell.kind ≠ 1 ∨ cell.state = 2 ∨ cell.state = 1 ∧ e.holds pa then claspTrap
      else if cell.state = 0 then .done (e.s.grantTo (e.uni o.a).toNat pa e.sig)
      else .part e.s { reason := 0x04, evkey := e.uni o.a, resume := e.next, wait := .acq (e.uni o.a).toNat m.sy }

/-- REL (R293). -/
def execRel (h : Hdr) (o : Ops4) (m : SyMod) : State → Host.Outcome State Fault Refusal :=
  perform h o.list { ok := fun e => e.ops4Ok o unused sPos unused unused } always fun e =>
    e.cellAt o.a fun pa =>
      let cell := e.s.cell pa
      if cell.kind ≠ 1 ∨ cell.state ≠ 1 ∨ !e.holds pa then claspTrap
      else if m.oc ∧ e.core.outst ≠ 0 then
        .part e.s { reason := 0x05, evkey := BitVec.ofNat 64 e.sel.core, resume := e.next, wait := .relOc (e.uni o.a).toNat e.sig.uid m.sy }
      else if e.s.releaseWaits e.sig.uid m.sy then .stall
      else .done (e.s.freeClasp e.sig.ctx (e.uni o.a).toNat pa)

/-! ### FENCE and OCWAIT -/

/-- FENCE (R294). -/
def execFence (h : Hdr) (o : Ops4) (m : FenceMod) : State → Host.Outcome State Fault Refusal :=
  perform h o.list (plain4 o) noSync fun e =>
    let sy := m.scope == 4
    if e.s.fenced e.sig.uid e.path.mask sy then .done e.s
    else .part e.s { reason := 0x06, evkey := m.scope.setWidth 64, resume := e.next, wait := .fence e.sig.uid sy }

/-- OCWAIT (R295). -/
def execOcwait (h : Hdr) (o : Ops4) : State → Host.Outcome State Fault Refusal :=
  perform h o.list (plain4 o) noSync fun e =>
    if e.core.outst = 0 then .done e.s
    else .part e.s { reason := 0x05, evkey := BitVec.ofNat 64 e.sel.core, resume := e.next, wait := .none }

/-! ### Rendezvous points (R281, R296) -/

/-- The point, with the quire and its key at the core; or the fault of R281. -/
def Env.pointAt (e : Env) (o : Operand) (init : Bool) (k : Nat → Nat → Quire → Eff) : Eff :=
  let n := e.u o
  match e.sig.quire, e.quire with
  | some key, some q =>
    if q.points.length ≤ n then .trap (trapOf cACCESS)
    else if !init ∧ (q.point n).expect = 0 then .trap (trapOf cOPERAND)
    else k n key q
  | _, _ => .trap (trapOf cACCESS)

/-- A record of the quire waits on the point. -/
def Env.pointAwaited (e : Env) (q : Quire) (n : Nat) : Bool :=
  e.core.records.any fun r => !r.ready && r.reason == 0x07 && q.slots.contains r.slot && r.evkey == BitVec.ofNat 64 n

/-- RVINIT. -/
def execRvinit (h : Hdr) (o : Ops4) : State → Host.Outcome State Fault Refusal :=
  perform h o.list { ok := fun e => e.ops4Ok o unused uPos uPos unused } always fun e =>
    e.pointAt o.a true fun n key q =>
      let b := e.u o.b
      if b < 1 ∨ 65535 < b ∨ e.pointAwaited q n ∨ e.s.names e.sel.core key (· == n) then .trap (trapOf cOPERAND)
      else .done (e.s.modQuire e.sel.core key fun q => q.modPoint n fun _ => ⟨0, b, 0, 0, 0, 0⟩)

/-- RVARR: an arrival that overruns the phase poisons the point and then raises RVOVR. -/
def execRvarr (h : Hdr) (o : Ops4) : State → Host.Outcome State Fault Refusal :=
  perform h o.list { ok := fun e => e.ops4Ok o sOrZero uPos uOrZero unused } always fun e =>
    e.pointAt o.a false fun n key q => e.released fun _ =>
      let p := q.point n
      if p.poison ≠ 0 then .trap (trapOf p.poison)
      else
        let p1 := p.arrive (e.u o.b)
        let s := e.writeSZ (e.s.modQuire e.sel.core key fun q => q.modPoint n fun _ => p1) o.d (BitVec.ofNat 64 p.phase)
        if p1.poison ≠ 0 then .over (Env.raise { e with s := s } (trapOf cRVOVR)) else .done s

/-- RVWAIT. -/
def execRvwait (h : Hdr) (o : Ops4) : State → Host.Outcome State Fault Refusal :=
  perform h o.list { ok := fun e => e.ops4Ok o unused uPos uPos unused } noSync fun e =>
    e.pointAt o.a false fun n _ q =>
      let p := q.point n
      let ph := e.u o.b % 2 ^ 32
      if p.poison ≠ 0 then .trap (trapOf p.poison)
      else if passed32 p.phase ph then .done e.s
      else .part e.s { reason := 0x07, evkey := BitVec.ofNat 64 n, evaux := BitVec.ofNat 64 ph, resume := e.next, wait := .none }

/-! ### Memory barriers (R297) -/

/-- A record waits on the cell at a place: for a generation of a barrier, or for a clasp. -/
def State.waitsCell (s : State) (ctx pa : Nat) (r : Record) : Bool :=
  s.waitsClasp ctx pa r || (match r.wait with
    | .membar va _ => s.cellPlace ctx va == some pa
    | _ => false)

/-- MBINIT: records that wait on the cell relaunch carrying CLASP. -/
def execMbinit (h : Hdr) (o : Ops4) : State → Host.Outcome State Fault Refusal :=
  perform h o.list { ok := fun e => e.ops4Ok o unused sPos uPos unused } always fun e =>
    e.cellAt o.a fun pa =>
      let b := e.u o.b
      let cell := e.s.cell pa
      if b < 1 ∨ 2 ^ 32 - 1 < b then .trap (trapOf cOPERAND)
      else if cell.kind = 1 ∧ cell.state = 1 then claspTrap
      else
        let s := e.s.wakeCtx e.sig.ctx fun r => if e.s.waitsCell e.sig.ctx pa r then some cCLASP else none
        .done (s.setCell pa { cell with kind := 2, state := 0, expect := b, count := 0, gen := 0, rbase := 0, rlen := 0 })

/-- n arrivals, one at a time. -/
def State.arriveN (s : State) (pa : Nat) (n : Nat) : State := (List.range n).foldl (fun (s : State) _ => s.arrive pa) s

/-- MBARR. -/
def execMbarr (h : Hdr) (o : Ops4) (m : SyMod) : State → Host.Outcome State Fault Refusal :=
  perform h o.list { ok := fun e => e.ops4Ok o sOrZero sPos uOrZero unused } always fun e =>
    e.cellAt o.a fun pa =>
      let cell := e.s.cell pa
      let k := if o.b == .zero then 1 else e.u o.b
      if cell.kind ≠ 2 then claspTrap
      else if k < 1 ∨ 65535 < k then .trap (trapOf cOPERAND)
      else if m.sy && e.s.apertureLeft e.sig.uid then .stall
      else e.released fun _ => .done ((e.writeSZ e.s o.d (BitVec.ofNat 64 cell.gen)).arriveN pa k)

/-- MBWAIT. -/
def execMbwait (h : Hdr) (o : Ops4) : State → Host.Outcome State Fault Refusal :=
  perform h o.list { ok := fun e => e.ops4Ok o unused sPos uPos unused } noSync fun e =>
    e.cellAt o.a fun pa =>
      let cell := e.s.cell pa
      let g := e.u o.b % 2 ^ 32
      if cell.kind ≠ 2 then claspTrap
      else if passed32 cell.gen g then .done e.s
      else .part e.s { reason := 0x08, evkey := e.uni o.a, evaux := BitVec.ofNat 64 g, resume := e.next, wait := .membar (e.uni o.a).toNat g }

end Sys2Proof.Machine
end

