-- ==== Sys2Proof/Machine/Tasks.lean ====
section
/-!
DEFINITION. Machine/Tasks.lean: the meanings of the handles and tasks group (R155 to R169) but HCANCEL.
-/
namespace Sys2Proof.Machine

/-! ### Handles (R158) -/

def hPos : Pos := { kinds := [.h] }

/-- The handle in an h register. -/
def Env.handle (e : Env) (o : Operand) : Word64 :=
  match o with
  | .h n => e.sig.hreg n.toNat
  | _ => 0

/-- The check of R155, then what follows with the handle. -/
def Env.checkedHandle (e : Env) (o : Operand) (k : Word64 → Eff) : Eff :=
  if e.s.handleOk e.sig.ctx (e.handle o) then k (e.handle o) else .trap (trapOf cHANDLE)

/-- HWAIT. -/
def execHwait (h : Hdr) (o : Ops4) : State → Host.Outcome State Fault Refusal :=
  perform h o.list { ok := fun e => e.ops4Ok o unused hPos unused unused } noSync fun e =>
    e.checkedHandle o.a fun x =>
      if (e.s.handleState x).code = 0 then .part e.s { reason := 0x09, evkey := x, resume := e.next, wait := .none }
      else .done e.s

/-- HTEST. -/
def execHtest (h : Hdr) (o : Ops4) : State → Host.Outcome State Fault Refusal :=
  perform h o.list { ok := fun e => e.ops4Ok o { kinds := [.p] } hPos unused unused } noSync fun e =>
    e.checkedHandle o.a fun x =>
      .done (e.writeP e.s (pregNo o.d) (Vector.replicate 128 (Tri.ofBool ((e.s.handleState x).code != 0))))

/-- The word of HSTAT. -/
def HState.word (x : HState) : Word64 :=
  BitVec.ofNat 64 (x.code + (if x.code = 3 then x.cause % 256 else 0) * 2 ^ 8 + x.detail % 2 ^ 32 * 2 ^ 32)

/-- HSTAT. -/
def execHstat (h : Hdr) (o : Ops4) : State → Host.Outcome State Fault Refusal :=
  perform h o.list { ok := fun e => e.ops4Ok o { kinds := [.v, .s] } hPos unused unused } noSync fun e =>
    e.checkedHandle o.a fun x => .done (e.writeUni e.s o.d (e.s.handleState x).word)

def Operand.isH : Operand → Bool
  | .h _ => true
  | _ => false

/-- HMOV: a value that goes into an h register is checked. -/
def execHmov (h : Hdr) (o : Ops4) : State → Host.Outcome State Fault Refusal :=
  perform h o.list { ok := fun e => if Operand.isH o.d then e.ops4Ok o hPos sPos unused unused
                                    else e.ops4Ok o sPos hPos unused unused } noSync fun e =>
    if Operand.isH o.d then
      (if handleFormOk e.sig.ctx (e.uni o.a) then .done (e.writeH e.s (hregNo o.d) (e.uni o.a)) else .trap (trapOf cHANDLE))
    else .done (e.writeS e.s (sregNo o.d) (e.handle o.a))

/-! ### Tasks (R163, R167) -/

/-- The registers A to A + n - 1 lie in the budget, or among the t registers. -/
def Env.groupOk (e : Env) (o : Operand) (n : Nat) : Bool :=
  match o with
  | .v a _ _ => decide (a.toNat + n ≤ e.sig.B)
  | .idx k off _ _ => decide (e.idxReg k off + n ≤ (e.sig.B : Int))
  | .t a _ _ => decide (a.toNat + n ≤ 16)
  | _ => false

/-- The task of a lane. -/
def Env.taskOf (e : Env) (o : Ops4) (n : Nat) (l : Lane) : Task where
  entry := (e.raw o.b)[l].toNat
  flags := (e.raw o.c)[l].toNat % 256
  origin := 0
  core := e.sel.core
  grid := e.sig.grid
  payload := (List.range n).map fun i => (e.rawAt immWord i o.a)[l]
  parked := false

/-- TSPAWN. -/
def execTspawn (h : Hdr) (o : Ops4) (m : TspMod) : State → Host.Outcome State Fault Refusal :=
  let num : Pos := { kinds := [.v, .s, .imm] }
  let front : Front := { feats := [7], ok := fun e => e.ops4Ok o unused dstPos num { kinds := [.v, .s, .imm, .zero] } }
  perform h o.list front always fun e =>
    let n := m.n.toNat + 1
    let b := e.raw o.b
    if (match e.grid with | some g => g.blk.tasktab == 0 | none => true) || !e.groupOk o.a n then .trap (trapOf cOPERAND)
    else e.indexed [(o.a, false)] fun _ =>
      if (e.failing fun l => decide (b[l].toNat ≤ 255)) ≠ 0 then .trap (trapOf cOPERAND)
      else
        let ts := (lanesOf e.act).map (e.taskOf o n)
        if e.s.taskRoom e.sig.ctx e.sel.core ts.length then
          .done (ts.foldl (fun (s : State) t => s.pushTask e.sig.ctx t) e.s)
        else .part e.s { reason := 0x0E, evkey := 0, resume := e.next, wait := .spawn ts }

/-- TARG. -/
def execTarg (h : Hdr) (o : Ops4) : State → Host.Outcome State Fault Refusal :=
  let num := match o.a with | .imm i => decide (i.toNat ≤ 1) | _ => false
  perform h o.list { feats := [7], ok := fun e => e.ops4Ok o dstPos { kinds := [.imm] } unused unused && num } noSync fun e =>
    e.indexed [(o.d, false)] fun _ =>
      .done (e.write e.s o.d (Vector.ofFn fun l : Lane =>
        match AMap.get? e.sig.tasks l.val with
        | some (a, b) => if ctlNo o.a = 0 then a else b
        | none => 0))

/-! ### DLAUNCH (R169) -/

/-- Place of the issuing path in the serial order, then program order (R86). -/
def Env.orderKey (e : Env) : List Nat :=
  e.sig.place ++ [e.path.idx, e.sig.iret.toNat]

/-- Blocks that the overflow of one device queue holds (R168). -/
def State.overflowSlots (s : State) (ctx : Nat) : Nat := s.regN ctx rQOVSIZE / 16 / 256

/-- The address of block number n in a device queue and in its overflow. -/
def State.queueAddr (s : State) (ctx q n : Nat) : Nat := s.regN ctx rDQBASE + q * 65536 + 256 * (n % 256)
def State.overflowAddr (s : State) (ctx q n : Nat) : Nat :=
  s.regN ctx rQOVBASE + q * (s.regN ctx rQOVSIZE / 16) + 256 * (n % s.overflowSlots ctx)

/-- Some bytes at several places, each read at its own; none where a peer refuses. -/
def State.readPlaces (n : Nat) : State → List Place → Option (List Byte × State)
  | s, [] => some ([], s)
  | s, p :: r =>
    if s.refuses { r := true } p n then none
    else
      let (bs, s) := s.readPlace p n
      (State.readPlaces n s r).map fun x => (bs ++ x.1, x.2)

/-- DLAUNCH: the block is read as one event and copied with its depth. -/
def execDlaunch (h : Hdr) (o : Ops4) (m : DlMod) : State → Host.Outcome State Fault Refusal :=
  let front : Front := { feats := [8], ok := fun e => e.ops4Ok o { kinds := [.h, .zero] } sPos unused unused }
  perform h o.list front always fun e =>
    let ctx := e.sig.ctx
    let a := e.uni o.a
    if e.sig.quire.isNone ∨ e.sig.sigix ≠ 0 then .trap (trapOf cOPERAND)
    else if (match e.grid with | some g => g.blk.depth == 10 | none => false) then .trap (trapOf cDEPTH)
    else e.reached { r := true } anyPage ((List.range 4).map fun i => ⟨0, a + BitVec.ofNat 64 (64 * i), 64⟩) fun places =>
      e.released fun _ =>
        match e.s.readPlaces 64 places, e.grid with
        | none, _ => .trap (trapAt cACCESS a.toNat)
        | some (bs, s), some g =>
          let q := m.q.toNat
          let d := AMap.getD (e.s.ctx ctx).devq q DevQ.init
          let blk := setField bs 4 1 (g.blk.depth + 1)
          let direct := decide (d.len < 256)
          if !direct ∧ s.overflowSlots ctx ≤ d.olen then .trap (trapOf cQFULL)
          else
            let addr := if direct then s.queueAddr ctx q (d.head + d.len) else s.overflowAddr ctx q (d.ohead + d.olen)
            let (child, s) := if Operand.isH o.d then let (n, s) := s.newHandle 5 0 ctx; (some n, s) else (none, s)
            let s := match child with
              | some n => e.writeH s (hregNo o.d) (handleVal 5 0 ctx n)
              | none => s
            let d1 := { d with
              info := d.info ++ [⟨e.sig.grid, child, e.orderKey, false⟩]
              len := if direct then d.len + 1 else d.len
              olen := if direct then d.olen else d.olen + 1 }
            let s := s.modCtx ctx fun c => { c with devq := AMap.set c.devq q d1 }
            let s := match s.areaWrite ctx addr blk with
              | .ok s => s
              | .error c => s.areaLost ctx c { source := 2, core := e.sel.core, grid := e.sig.grid, addr := BitVec.ofNat 64 addr, aux0 := BitVec.ofNat 64 q }
            if direct then .done s
            else .part s { reason := 0x0D, evkey := BitVec.ofNat 64 q, resume := e.next, wait := .launch (d.head + d.len + d.olen) }
        | _, _ => .trap (trapOf cOPERAND)

end Sys2Proof.Machine
end

