-- ==== Sys2Proof/Machine/Engine.lean ====
section
/-!
DEFINITION. Machine/Engine.lean: what the engines share: their accesses to memory, piece by piece (R252, R258, R312), the
tensor descriptor (R303), elements of a tensor with their scales (R47, R306, R311), the expander as a source (R317 to
R319), how an operation ends.
-/
namespace Sys2Proof.Machine

/-! ### Accesses -/

/-- Why an engine's access does not take place: a fault at an address, or a page that is not resident. `read`: what the
operation has touched up to then (`State.touched`), which it is charged for all the same (R300). -/
inductive Stop where
  | fault (cause addr : Nat) (read : List Nat)
  | absent (l : Leaf) (va : Nat) (read : List Nat)
  /-- a window that names this device: pages of the target context (R435) -/
  | away (ctx : Nat) (pages : List Leaf) (va : Nat) (read : List Nat)
  deriving DecidableEq, Repr

def Stop.read : Stop → List Nat
  | .fault _ _ r => r
  | .absent _ _ r => r
  | .away _ _ _ r => r
def Stop.addr : Stop → Nat
  | .fault _ a _ => a
  | .absent _ a _ => a
  | .away _ _ a _ => a

/-- The same stop, of an operation that has touched what the state holds. -/
def Stop.after (x : Stop) (s : State) : Stop :=
  match x with
  | .fault c a _ => .fault c a s.touched
  | .absent l a _ => .absent l a s.touched
  | .away c l a _ => .away c l a s.touched

/-- An operation stops here with a fault. -/
def State.stop (s : State) (cause addr : Nat) : Stop := .fault cause addr s.touched

/-- The place of one piece of an access, in one aligned unit of 4 KiB. -/
def State.engPlace (s : State) (ctx va : Nat) (n : Need) : Except Stop Place :=
  if 2 ^ 54 ≤ va then .error (s.stop cACCESS va)
  else match s.reach ctx n anyPage [⟨0, BitVec.ofNat 64 va, 1⟩] with
    | .fail t => .error (s.stop t.cause va)
    | .absent (l :: _) a => .error (.absent l a s.touched)
    | .ok [p] => match s.own n p 1 with
      | .here p => .ok p
      | .refused => .error (s.stop cACCESS va)
      | .away c pages => .error (.away c pages va s.touched)
    | _ => .error (s.stop cACCESS va)

/-- The 64-byte blocks of HBM at a place join those that the operation in progress is charged for. -/
def State.touch (s : State) (p : Place) (n : Nat) (write : Bool) : State :=
  match p with
  | .hbm a =>
    let blocks := (List.range ((a + n + 63) / 64 - a / 64)).map fun i => 2 * (a / 64 + i) + boolNat write
    { s with touched := blocks.foldl insertNat s.touched }
  | _ => s

/-- n bytes that an engine reads. `resp`: an uncorrectable error at the first byte, or a peer that refuses (R315, R435); an
error further on is one of `softErrs`. -/
def State.engRead (resp : Resp) (need : Need) (s : State) (ctx va n : Nat) : Except Stop (List Byte × State) :=
  go (n / 4096 + 2) s va n
where
  go (fuel : Nat) (s : State) (va n : Nat) : Except Stop (List Byte × State) :=
    match fuel with
    | 0 => .ok ([], s)
    | fuel + 1 =>
      if n = 0 then .ok ([], s) else
      let k := min n (4096 - va % 4096)
      match s.engPlace ctx va need with
      | .error x => .error x
      | .ok p =>
        if resp == .ecc || s.spoiled p k then .error ((s.touch p k false).stop cECC va)
        else if resp == .refused && p.isPeer then .error (s.stop cACCESS va)
        else
          let (bs, s) := (s.touch p k false).readPlace p k
          match go fuel s (va + k) (n - k) with
          | .error x => .error x
          | .ok (r, s) => .ok (bs ++ r, s)

/-- Bytes that an engine writes: how many, and why no more. -/
def State.engWrite (resp : Resp) (s : State) (ctx va : Nat) (bs : List Byte) : Nat × Option Stop × State :=
  go (bs.length / 4096 + 2) s va bs 0
where
  go (fuel : Nat) (s : State) (va : Nat) (bs : List Byte) (done : Nat) : Nat × Option Stop × State :=
    match fuel with
    | 0 => (done, none, s)
    | fuel + 1 =>
      if bs.isEmpty then (done, none, s) else
      let k := min bs.length (4096 - va % 4096)
      match s.engPlace ctx va { w := true, noSync := true } with
      | .error x => (done, some x, s)
      | .ok p =>
        if resp == .refused && p.isPeer then (done, some (s.stop cACCESS va), s)
        else go fuel ((s.touch p k true).storePlace p (bs.take k)) (va + k) (bs.drop k) (done + k)

/-- Engines read with R and never on a SYNC page (R312, R326). -/
def readNeed : Need := { r := true, noSync := true }

/-- The page of a stop is asked for (R258, R314); pages of another context are waited for by trying again. -/
def State.askStop (s : State) (ctx : Nat) (x : Stop) : State :=
  match x with
  | .absent l _ _ => s.askFill ctx l
  | .away c pages _ _ => s.askFills c pages
  | .fault _ _ _ => s
def Stop.page (x : Stop) : Option Nat :=
  match x with
  | .absent _ va _ => some va
  | .away _ _ _ _ => none
  | .fault _ _ _ => none

/-- A page that an engine waits for is resident by now. -/
def State.pageBack (s : State) (ctx : Nat) (p : Option Nat) : Bool :=
  match p with
  | none => true
  | some va => !(s.fills.any fun f => f.ctx == ctx && f.va ≤ va && va < f.va + f.size)

/-! ### Where a tensor lies -/

/-- Where elements are read from: global memory, a local space of a core from a first byte on, a decompressed image of a
length, as far as it could be decoded and why no further; or a raw image of a length that stands in global memory (R317). -/
inductive From where
  | global
  | space (core n base : Nat)
  | image (bs : List Byte) (len : Nat) (stop : Stop)
  | stream (base len : Nat)

/-- A pending matrix command of the core writes some of n bytes of the C-buffer memory (R335). -/
def State.tilePending (s : State) (core a n : Nat) : Bool :=
  (s.cluster (clusterOf core)).mats.any fun o => o.core == core && (match s.quire? core o.quire with
    | some q => rangesMeet (a, n) (q.base.cb + o.target.1, o.target.2)
    | none => false)

/-- n bytes of a source. Accumulators that a pending command writes are read as free values (R335). -/
def State.readFrom (resp : Resp) (s : State) (ctx : Nat) (f : From) (a n : Nat) : Except Stop (List Byte × State) :=
  match f with
  | .global => s.engRead resp readNeed ctx a n
  | .space core k base =>
    if s.localSpoiled core k (base + a) n then .error (s.stop cECC a)
    else if k = 3 ∧ s.tilePending core (base + a) n then .ok (s.drawBytes n)
    else .ok (Mem.readN ((s.core core).mem.get k) (base + a) n, s)
  | .image bs len stop =>
    if a + n ≤ bs.length then .ok ((bs.drop a).take n, s)
    else if len < a + n then .error (s.stop cOPERAND a)
    else .error (stop.after s)
  | .stream base len =>
    if len < a + n then .error (s.stop cOPERAND a) else s.engRead resp readNeed ctx (base + a) n

/-! ### The descriptor (R303) -/

def Desc.parse (bs : List Byte) : Desc where
  base := field bs 0 8
  sfmt := field bs 8 1
  ndim := field bs 9 1
  mx := field bs 0xA 1 % 2 == 1
  ulen := field bs 0xC 4
  scale := field bs 0x10 8
  super := field bs 0x18 8
  extent := (List.range 8).map fun d => field bs (0x20 + 12 * d) 4
  stride := (List.range 8).map fun d => field bs (0x24 + 12 * d) 5

/-- Reserved bytes zero and every field within the limits of R303, but for ULEN. DESIGN CHOICE (log entry 67): SCALE and SUPER of a
source that has no such plane may hold any value. -/
def Desc.limitsOk (d : Desc) (bs : List Byte) : Bool :=
  decide (d.sfmt < 16) && decide (1 ≤ d.ndim) && decide (d.ndim ≤ 8) && decide (field bs 0xA 1 ≤ 1) && field bs 0xB 1 == 0
    && (!d.mx || (decide (5 ≤ d.sfmt) && decide (d.sfmt ≤ 10))) && d.str 0 == 0
    && (List.range 8).all fun i => field bs (0x29 + 12 * i) 3 == 0 && (if i < d.ndim then decide (1 ≤ d.ext i) else d.ext i == 0)

/-- Bytes of an element, 1 for narrower ones (R305). -/
def elemAlign (fmt : Nat) : Nat := max 1 (fmtBits fmt / 8)
/-- The packing group of a format (R47, R305). -/
def packGroup (fmt : Nat) : Nat := match fmtBits fmt with | 4 => 2 | 2 => 4 | 6 => 4 | _ => 1

/-- Alignment of BASE, strides and scale planes (R305). -/
def Desc.aligned (d : Desc) : Bool :=
  d.base % elemAlign d.sfmt == 0 && (List.range 8).all (fun i => d.str i % elemAlign d.sfmt == 0)
    && (d.sfmt != 15 || d.scale % 2 == 0) && (d.sfmt != 14 || d.super % 4 == 0)

/-- Sources that need scales name them (R309). -/
def Desc.scaled (d : Desc) : Bool :=
  (!(d.mx || d.sfmt == 14 || d.sfmt == 15) || d.scale != 0) && (d.sfmt != 14 || d.super != 0)

/-! ### Elements -/

/-- The code of an element. -/
def State.elemCode (resp : Resp) (s : State) (ctx : Nat) (f : From) (d : Desc) (x : List Nat) : Except Stop (Nat × State) :=
  let w := fmtBits d.sfmt
  let bit := x.getD 0 0 * w
  let a := d.base + d.rowOffset x + bit / 8
  let a := match f with | .image _ _ _ => a - d.base | .stream _ _ => a - d.base | _ => a
  match s.readFrom resp ctx f a ((bit % 8 + w + 7) / 8) with
  | .error e => .error e
  | .ok (bs, s) => .ok (natOfBytes bs / 2 ^ (bit % 8) % 2 ^ w, s)

/-- An element's value, with its source scale when it has one (R309, R311). -/
def State.elemValue (resp : Resp) (s : State) (ctx : Nat) (f : From) (d : Desc) (x : List Nat) : Except Stop (XR × Nat × State) :=
  match s.elemCode resp ctx f d x with
  | .error e => .error e
  | .ok (code, s) =>
    let c0 := x.getD 0 0
    let read := fun (s : State) (a n : Nat) => s.engRead resp readNeed ctx a n
    if d.mx then
      match read s (d.scale + c0 / 32 + ceilDiv (d.ext 0) 32 * d.lin x) 1 with
      | .error e => .error e
      | .ok (b, s) => .ok (mxValue d.sfmt code (natOfBytes b), code, s)
    else if d.sfmt = 14 then
      let nb := ceilDiv (d.ext 0) 64
      match read s (d.scale + c0 / 64 + nb * d.lin x) 1 with
      | .error e => .error e
      | .ok (b, s) => match read s (d.super + 4 * (c0 / 16384 + ceilDiv nb 256 * d.lin x)) 4 with
        | .error e => .error e
        | .ok (q, s) => .ok (q4nValue code (FP32.decode (natOfBytes q)) (natOfBytes b), code, s)
    else if d.sfmt = 15 then
      match read s (d.scale + 2 * (c0 / 128 + ceilDiv (d.ext 0) 128 * d.lin x)) 2 with
      | .error e => .error e
      | .ok (b, s) => .ok ((fmtValue 15 false code).mul (BF16.decode (natOfBytes b)), code, s)
    else .ok (fmtValue d.sfmt false code, code, s)

/-- Codes of w bits packed in order (R47). -/
def packCodes (w : Nat) (cs : List Nat) : List Byte :=
  bytesOfNat (ceilDiv (w * cs.length) 8) (cs.foldr (fun x a => x % 2 ^ w + 2 ^ w * a) 0)

/-! ### The expander as a source (R317 to R319) -/

/-- A malformed stream (R318): its copy ends with OPERAND. -/
def malformed (pos : Nat) : Stop := .fault cOPERAND pos []

/-- An image as far as it can be decoded: its bytes, why no further, the compressed bytes taken, the state. Of a frame that
cannot be read to its end, the bytes before the stop are taken. -/
structure Expanded where
  bytes : List Byte
  stop : Stop
  taken : Nat
  s : State

/-- The image from a byte on, up to at least `need` bytes; `pos` is the place in the stream, which begins at `base`. -/
def expandSome (fuel : Nat) (read : State → Nat → Nat → Except Stop (List Byte × State)) (base : Nat) (lz : Bool)
    (w image need pos done : Nat) (s : State) : Expanded :=
  match fuel with
  | 0 => ⟨[], malformed pos, pos, s⟩
  | fuel + 1 =>
    if need ≤ done ∨ image ≤ done then ⟨[], malformed pos, pos, s⟩ else
    let u := min frameUnit (image - done)
    let more := fun (o : List Byte) (next : Nat) (s : State) => match regroup w o with
      | none => ⟨[], malformed pos, next, s⟩
      | some g => let x := expandSome fuel read base lz w image need next (done + u) s; { x with bytes := g ++ x.bytes }
    if lz then
      match read s (base + pos) 4 with
      | .error e => ⟨[], e, e.addr - base, s⟩
      | .ok (hd, s) =>
        let h := natOfBytes hd
        let clen := h % 2 ^ 20
        if h / 2 ^ 21 ≠ 0 then ⟨[], malformed pos, pos + 4, s⟩ else
        match read s (base + pos + 4) clen with
        | .error e => ⟨[], e, e.addr - base, s⟩
        | .ok (body, s) =>
          match if h / 2 ^ 20 % 2 = 1 then some body else (lzBlock (clen + 1) body []).map List.reverse with
          | none => ⟨[], malformed pos, pos + 4 + clen, s⟩
          | some o => if o.length ≠ u then ⟨[], malformed pos, pos + 4 + clen, s⟩ else more o (pos + 4 + clen) s
    else
      match read s (base + pos) u with
      | .error e => ⟨[], e, e.addr - base, s⟩
      | .ok (o, s) => more o (pos + u) s

/-- The image of a COPYX as a source (R317 to R319). -/
def State.imageFrom (resp : Resp) (s : State) (ctx base xform ulen need : Nat) : Expanded :=
  match rgWidth xform with
  | none => ⟨[], malformed base, 0, s⟩
  | some w => expandSome (ulen / frameUnit + 2) (fun s va n => s.engRead resp readNeed ctx va n) base (xform % 2 == 1) w
      ulen need 0 0 s

/-! ### Ends -/

/-- An operation ends (R156): at once, or in the serial phase (R86). -/
def State.finishOp (s : State) (ctx : Nat) (order : List Nat) (kind unit seq : Nat) (x : HState) : State :=
  s.happen ctx order (.handle kind unit seq x.code x.cause x.detail)

/-- The index of the issuing quire for a fault record. -/
def State.qixOf (s : State) (core : Nat) (q : Option Nat) : Nat :=
  match q.bind fun k => s.quire? core k with
  | some q => q.ix
  | none => 2 ^ 64 - 1

/-- The result of an engine instruction goes to an h register. -/
def Env.writeHandle (e : Env) (s : State) (d : Operand) (x : Word64) : State :=
  if Operand.isH d then e.writeH s (hregNo d) x else s

/-- h or zero. -/
def hOrZero : Pos := { kinds := [.h, .zero] }

end Sys2Proof.Machine
end

