-- ==== Sys2Proof/Machine/Arrays.lean ====
section
/-!
DEFINITION. Machine/Arrays.lean: the base-die arrays as they run: fault records and freezing (R393, R400), stream ports
(R357 to R361, R392), tiles, NOTIFY (R370, R371), the sequencer (R369), how runs end (R372, R373).
-/
namespace Sys2Proof.Machine

/-! ### Partitions (R364) -/

def prBrow (r : Word64) : Nat := bitsOf r.toNat 1 0
def prBcol (r : Word64) : Nat := bitsOf r.toNat 3 2
def prBh (r : Word64) : Nat := bitsOf r.toNat 5 4
def prBw (r : Word64) : Nat := bitsOf r.toNat 7 6
def prEn (r : Word64) : Bool := r.getLsbD 8
def prCtx (r : Word64) : Nat := bitsOf r.toNat 19 10

/-- The pseudo-channel of the S tile at image coordinates (R341, R374). -/
def portChan (r : Word64) (x : Nat × Nat) : Nat :=
  let row := 6 * prBrow r + x.1
  let col := 6 * prBcol r + x.2
  4 * (4 * (row / 6) + col / 6) + sTileNo row col

def State.part (s : State) (st slot : Nat) : Part := (s.stack st).part slot
def State.modPart (s : State) (st slot : Nat) (f : Part → Part) : State := s.modStack st fun t => t.modPart slot f
def State.putActive (s : State) (st slot : Nat) (a : Active) : State := s.modPart st slot fun p => { p with act := some a }

/-! ### Fault records (R400) -/

structure ARec where
  cause : Nat
  detail : Nat := 0
  slot : Nat := 0
  tile : Nat × Nat := (0xFF, 0xFF)
  ctxi : Nat := 0xFF
  key : Nat := 0
  handle : Word64 := 0
  va : Nat := 0
  counters : Nat := 0
  aux : Nat := 0

def ARec.bytes (r : ARec) (st : Nat) (acyc : Word64) : List Byte :=
  bytesOfNat 2 1 ++ bytesOfNat 1 3 ++ bytesOfNat 1 r.cause ++ bytesOfNat 1 st ++ bytesOfNat 1 r.slot ++ bytesOfNat 1 r.tile.1
    ++ bytesOfNat 1 r.tile.2 ++ bytesOfNat 1 r.ctxi ++ bytesOfNat 1 r.detail ++ bytesOfNat 2 0 ++ bytesOfNat 4 r.key
    ++ bytesOfNat 8 r.handle.toNat ++ bytesOfNat 8 acyc.toNat ++ bytesOfNat 8 r.va ++ bytesOfNat 8 r.counters ++ bytesOfNat 8 r.aux
    ++ bytesOfNat 8 0

/-- An array's cycle count when it is read: cycles have passed since it was read last, how many is not stated (R4, R342). -/
def State.tickArray (s : State) (st : Nat) : Word64 × State :=
  let (d, s) := s.drawWord
  let n := (s.stack st).acyc + d
  (n, s.modStack st fun t => { t with acyc := n })

def State.arrLog (s : State) (st ctx : Nat) (r : ARec) : State :=
  let (n, s) := s.tickArray st
  (s.putRecord ctx (r.bytes st n)).2

/-! ### How a run ends (R373) -/

/-- The image is pinned, or unpinned, once (R366). -/
def State.pinImage (s : State) (st ctx key : Nat) (pin : Bool) : State :=
  s.modStack st fun t => { t with images := t.images.map fun m =>
    if m.ctx = ctx ∧ m.key = key then { m with pins := if pin then m.pins + 1 else m.pins - 1 } else m }

/-- A drain finds nothing to save (R394): its handle is DONE. -/
def State.endDrain (s : State) (st : Nat) (d : Option Drain) : State :=
  match d with
  | some x => match x.seq with
    | some q => s.finishOp x.ctx x.order 3 st q ⟨1, 0, 0⟩
    | none => s
  | none => s

/-- The run of a partition ends; the partition is IDLE. In the serial phase its handle comes after the entries that its
NOTIFYs have sent (R372). -/
def State.endRun (s : State) (st slot : Nat) (r : ARun) (code cause : Nat) : State :=
  let d := (s.part st slot).drain
  let s := s.modPart st slot fun p => { p with st := .idle, act := none, drain := none, page := none }
  let s := (s.pinImage st r.ctx r.key false).finishOp r.ctx (r.order ++ [2 ^ 32]) 3 st r.seq ⟨code, cause, 0⟩
  s.endDrain st d

/-- A fault record that freezes a partition (R393). -/
def State.freeze (s : State) (st slot : Nat) (a : Active) (r : ARec) : State :=
  let s := s.arrLog st a.run.ctx { r with slot := slot, ctxi := a.ctxi, key := a.run.key, handle := handleVal 3 st a.run.ctx a.run.seq }
  s.modPart st slot fun p => { p with st := .frozen, act := p.act.map fun x => { x with cause := r.cause } }

/-- FREEZE_END (R393). -/
def execFreezeEnd (st slot : Nat) (s : State) : Host.Outcome State Fault Refusal :=
  let p := s.part st slot
  match p.st, p.act with
  | .frozen, some a =>
    let busy := a.cfg.sTiles.any fun x => (match a.cfg.port? x a.ctxi with | some r => r.write | none => false) && !(a.st x).flight.isEmpty
    if busy ∨ a.notifies ≠ 0 then disabled "FREEZE_END"
    else if a.cause = 0 then .next (s.endRun st slot a.run 2 0)
    else .next (s.endRun st slot a.run 3 a.cause)
  | _, _ => disabled "FREEZE_END"

/-- What an attempt to fire leaves. -/
def State.fired (s : State) (st slot : Nat) (a : Active) (x : Nat × Nat) (f : Fire) : Option State :=
  match f with
  | .idle => none
  | .done a => some (s.putActive st slot a)
  | .fault cause detail => some (s.freeze st slot a { cause := cause, detail := detail, tile := x })

/-- The run of a partition whose tiles work. -/
def State.running? (s : State) (st slot : Nat) : Option Active :=
  let p := s.part st slot
  match p.st with
  | .running => p.act
  | .draining => p.act
  | _ => none

/-! ### Walks (R357) -/

def PortRec.total (r : PortRec) : Nat := r.count.foldl (· * ·) 1
/-- i0 to i3 at a place in the walk. -/
def PortRec.at (r : PortRec) (pos : Nat) : List Nat :=
  (r.count.foldl (fun (a : Nat × List Nat) n => (a.1 / n, a.2 ++ [a.1 % n])) (pos, [])).2
def PortRec.addr (r : PortRec) (base pos : Nat) : Nat :=
  let off := ((r.at pos).zip r.stride).foldl (fun (a : Int) p => a + 64 * (p.1 : Int) * p.2) 0
  (((base : Int) + off) % 2 ^ 64).toNat
/-- The dimensions, outermost first: iterations and step in bytes. -/
def PortRec.dims (r : PortRec) : List (Nat × Int) := ((r.count.zip r.stride).map fun d => (d.1, 64 * d.2)).reverse
/-- Least and greatest offset of a walk. -/
def walkSpan (ds : List (Nat × Int)) : Int × Int :=
  ds.foldl (fun (a : Int × Int) d => let e := ((d.1 : Int) - 1) * d.2; (a.1 + min 0 e, a.2 + max 0 e)) (0, 0)
/-- A word of the walk from an address lies in [lo, hi). -/
def walkMeets (lo hi : Int) : List (Nat × Int) → Int → Bool
  | [], a => decide (lo ≤ a) && decide (a < hi)
  | d :: rest, a =>
    let (least, most) := walkSpan (d :: rest)
    if hi ≤ a + least ∨ a + most < lo then false
    else (List.range d.1).any fun i => walkMeets lo hi rest (a + i * d.2)
/-- The same of a port whose BASE is resolved; addresses count modulo 2^64. -/
def PortRec.meets (r : PortRec) (base lo hi : Nat) : Bool :=
  walkMeets lo hi r.dims base || walkMeets lo hi r.dims ((base : Int) - 2 ^ 64)
/-- The first word of the walk, in its order, that lies in [lo, hi). -/
def walkFirst (lo hi : Int) : List (Nat × Int) → Int → Option Int
  | [], a => if lo ≤ a ∧ a < hi then some a else none
  | d :: rest, a =>
    let (least, most) := walkSpan (d :: rest)
    if hi ≤ a + least ∨ a + most < lo then none
    else (List.range d.1).findSome? fun (i : Nat) => walkFirst lo hi rest (a + (i : Int) * d.2)
def PortRec.firstIn (r : PortRec) (base lo hi : Nat) : Option Nat :=
  ((walkFirst lo hi r.dims base).or ((walkFirst lo hi r.dims ((base : Int) - 2 ^ 64)))).map fun a => (a % 2 ^ 64).toNat
/-- The counters as a record holds them. -/
def PortRec.counters (r : PortRec) (pos : Nat) : Nat := (r.at pos).foldr (fun i a => i + 2 ^ 16 * a) 0

/-! ### The checks on a word (R360) -/

inductive PortCheck where
  | ok (a : Nat)
  | fault (cause : Nat)
  | absent (l : Leaf)

def State.portCheck (s : State) (st ctx chan va : Nat) (write : Bool) : PortCheck :=
  if 2 ^ 54 ≤ va ∨ va / 512 % 64 ≠ chan then .fault cACCESS
  else match s.walk ctx va with
    | none => .fault cPAGE
    | some l =>
      if !(if write then l.w else l.r) || l.sync then .fault cACCESS
      else if !l.res then .absent l
      else if winOf l.addr = .local ∧ stackOf l.addr = st then .ok (l.addr + va % l.size)
      else .fault cACCESS

/-- A burst of a slot at a pseudo-channel (R259, R260, R361): none while the counter is 0 or every activity is stopped
(R261). -/
def State.spendPart (s : State) (st chan slot : Nat) : Option State :=
  let c := (s.stack st).chan chan
  let n := c.left.getD (2 + slot) 0
  if n = 0 ∨ c.allBank then none
  else some (s.modStack st fun t => t.modChan chan fun c =>
    { c with left := c.left.set (2 + slot) (n - 1), counters := AMap.set c.counters (3 + slot) (AMap.getD c.counters (3 + slot) 0 + 1) })

/-! ### Stream ports -/

/-- The port with its record and state; `write` says which kind. -/
def Active.port? (a : Active) (x : Nat × Nat) (write : Bool) : Option (PortRec × STile) :=
  match a.cfg.port? x a.ctxi with
  | some r => let t := a.st x; if r.write == write && t.active then some (r, t) else none
  | none => none

/-- The arcs into a read port are satisfied (R382). -/
def Active.arcsDone (a : Active) (x : Nat × Nat) : Bool :=
  let p := portIndex a.cfg.bw x.1 x.2
  a.cfg.arcs.all fun e => !(e.2.2.1 == a.ctxi && e.2.2.2 == p) || decide (e.1 < a.ctxi)
    || a.cfg.sTiles.any fun y => portIndex a.cfg.bw y.1 y.2 == e.2.1 && (a.st y).done

/-- The next word of a port is checked and issued; withheld on a page that is not resident (R360, R392). -/
def State.portIssue (s : State) (st slot : Nat) (a : Active) (x : Nat × Nat) (r : PortRec) (t : STile) (ok : State → Nat → State) :
    Option State :=
  let reg := (s.part st slot).reg
  let va := r.addr t.base t.pos
  match s.portCheck st a.run.ctx (portChan reg x) va r.write with
  | .fault c => some (s.freeze st slot a { cause := c, tile := x, va := va, counters := r.counters t.pos })
  | .absent l => some ((s.askFill a.run.ctx l).putActive st slot (a.setSt x { t with waiting := some va }))
  | .ok p => (s.spendPart st (portChan reg x) slot).map fun s => ok s p

def orDisabled (name : String) (x : Option State) : Host.Outcome State Fault Refusal :=
  match x with
  | some s => .next s
  | none => disabled name

/-- A read port's next word. -/
def State.readIssue (s : State) (st slot : Nat) (x : Nat × Nat) : Option State :=
  let p := s.part st slot
  match p.st, p.act with
  | .running, some a =>
    match a.port? x false with
    | none => none
    | some (r, t) =>
      if t.done ∨ r.total ≤ t.pos ∨ !s.pageBack a.run.ctx t.waiting ∨ !a.arcsDone x ∨ 8 ≤ t.flight.length + t.held.length then none
      else s.portIssue st slot a x r t fun s p =>
        s.putActive st slot (a.setSt x { t with flight := t.flight ++ [p], pos := t.pos + 1, waiting := none })
  | _, _ => none

/-- PORT_READ_ISSUE (R357, R392). -/
def execPortReadIssue (st slot row col : Nat) (s : State) : Host.Outcome State Fault Refusal :=
  orDisabled "PORT_READ_ISSUE" (s.readIssue st slot (row, col))

/-- A write port of the run, of this context or an earlier one, touches the 64 bytes at a place of HBM, and no arc orders it
before the read port: a race (R405, R382). The place is looked for under every address of the context that maps it. -/
def State.portRace (s : State) (a : Active) (x : Nat × Nat) (p : Nat) : Bool :=
  let idx := fun (y : Nat × Nat) => portIndex a.cfg.bw y.1 y.2
  (a.cfg.ports.filter fun w => w.write && decide (w.ctx ≤ a.ctxi) && !a.cfg.arcs.contains (w.ctx, idx (w.row, w.col), a.ctxi, idx x)).any fun w =>
    let base : Nat := w.resolved a.params
    let (lo, hi) := walkSpan w.dims
    let first := ((base : Int) + lo).toNat
    (s.leavesIn a.run.ctx first (((base : Int) + hi).toNat + 64 - first)).any fun l =>
      l.res && decide (l.addr ≤ p) && decide (p < l.addr + l.size) && w.meets base (l.va + (p - l.addr)) (l.va + (p - l.addr) + 64)

/-- The word that a read port gets from a place: what it holds where a race leaves it open is unspecified (R405; log entry
13). -/
def State.portWord (s : State) (a : Active) (x : Nat × Nat) (p : Nat) : TokenVal × State :=
  let (bs, s) := if s.portRace a x p then s.drawBytes 64 else s.loadDram p 64
  (BitVec.ofNat 512 (natOfBytes bs), s)

/-- A read port emits the oldest word, or END after the last. -/
def State.readReturn (s : State) (st slot : Nat) (x : Nat × Nat) : Option State :=
  match s.running? st slot with
  | none => none
  | some a => match a.port? x false with
    | none => none
    | some (r, t) =>
      if t.done ∨ !a.room x 0 then none
      else match t.held, t.flight with
        | v :: hs, _ => some (s.putActive st slot ((a.emit x 0 (.data v)).setSt x { t with held := hs }))
        | [], p :: fs =>
          let (v, s) := s.portWord a x p
          some (s.putActive st slot ((a.emit x 0 (.data v)).setSt x { t with flight := fs }))
        | [], [] =>
          if r.total ≤ t.pos then some (s.putActive st slot ((a.emit x 0 .fin).setSt x { t with done := true })) else none

/-- PORT_READ_RETURN (R358). -/
def execPortReadReturn (st slot row col : Nat) (s : State) : Host.Outcome State Fault Refusal :=
  orDisabled "PORT_READ_RETURN" (s.readReturn st slot (row, col))

/-- A write port takes the token at its input. -/
def State.portWrite (s : State) (st slot : Nat) (x : Nat × Nat) : Option State :=
  match s.running? st slot with
  | none => none
  | some a => match a.port? x true, a.head x 0 with
    | some (r, t), some tok =>
      if t.done ∨ t.endSeen then none
      else match tok with
        | .null => some (s.putActive st slot (a.pop x 0))
        | .fin => some (s.putActive st slot ((a.pop x 0).setSt x { t with endSeen := true, done := t.flight.isEmpty, waiting := none }))
        | .data v =>
          if r.total ≤ t.pos then some (s.freeze st slot a { cause := cOPERAND, tile := x, counters := r.counters t.pos })
          else if !s.pageBack a.run.ctx t.waiting then none
          else s.portIssue st slot a x r t fun s p =>
            (s.storeDram p (bytesOfNat 64 v.toNat)).putActive st slot
              ((a.pop x 0).setSt x { t with flight := t.flight ++ [p], pos := t.pos + 1, waiting := none })
    | _, _ => none

/-- PORT_WRITE (R359). -/
def execPortWrite (st slot row col : Nat) (s : State) : Host.Outcome State Fault Refusal :=
  orDisabled "PORT_WRITE" (s.portWrite st slot (row, col))

/-- PORT_WRITE_ACK (R359). -/
def execPortWriteAck (st slot row col : Nat) (s : State) : Host.Outcome State Fault Refusal :=
  let x := (row, col)
  let p := s.part st slot
  match p.act with
  | none => disabled "PORT_WRITE_ACK"
  | some a => match a.port? x true with
    | none => disabled "PORT_WRITE_ACK"
    | some (_, t) => match t.flight with
      | [] => disabled "PORT_WRITE_ACK"
      | _ :: fs => .next (s.putActive st slot (a.setSt x { t with flight := fs, done := t.done || (t.endSeen && fs.isEmpty) }))

/-! ### NOTIFY (R370, R371) -/

/-- The checks on one of its addresses: the place in HBM, a fault, or a page that is not resident. `pages` is the SYNCPG of the
grid that issued CFGRUN. -/
def State.notifyCheck (s : State) (ctx : Nat) (pages : List Nat) (va : Nat) (cell : Bool) : PortCheck :=
  if 2 ^ 54 ≤ va then .fault cACCESS
  else match s.walk ctx va with
    | none => .fault cPAGE
    | some l =>
      let named := l.va != 0 && pages.contains l.va
      if !(l.r && l.w) then .fault cACCESS
      else if !(l.sync && named) then .fault cCLASP
      else if !l.res then .absent l
      else match hbmOf (l.addr + va % l.size) with
        | none => .fault cACCESS
        | some a => if cell ∧ (s.cell a).kind ≠ 2 then .fault cCLASP else .ok a

/-- Every port of the upstream set is done. -/
def Active.upstreamDone (a : Active) (w : CtxWord) : Bool :=
  a.cfg.sTiles.all fun y => wUp w / 2 ^ portIndex a.cfg.bw y.1 y.2 % 2 == 0 || (a.st y).done

/-- A NOTIFY tile acts on the token at its input. -/
def State.fireNotify (s : State) (st slot : Nat) (a : Active) (x : Nat × Nat) (w : CtxWord) : Option State :=
  let t := a.ct x
  let src := (wSrc w).headD 1 - 1
  match a.head x src with
  | none => none
  | some .null => some (s.putActive st slot (a.pop x src))
  | some .fin => some (s.putActive st slot ((a.pop x src).setCt x { t with done := true }))
  | some (.data v) =>
    if !a.upstreamDone w ∨ !s.pageBack a.run.ctx t.page then none
    else
      let i := wImm w
      let cell := (a.params.getD (i % 32) 0).toNat
      let pay := (a.params.getD (i / 32 % 32) 0).toNat
      let stop := fun (c va : Nat) => some (s.freeze st slot a { cause := c, tile := x, va := va })
      let hold := fun (l : Leaf) (va : Nat) => some ((s.askFill a.run.ctx l).putActive st slot (a.setCt x { t with page := some va }))
      match s.notifyCheck a.run.ctx a.run.syncpg pay false with
      | .fault c => stop c pay
      | .absent l => hold l pay
      | .ok pp => match s.notifyCheck a.run.ctx a.run.syncpg cell true with
        | .fault c => stop c cell
        | .absent l => hold l cell
        | .ok pc =>
          if 64 ≤ (s.stack st).notify.length then none
          else
            let e : Notify := ⟨a.run.ctx, a.run.grid, slot, a.run.seq, pc, pp, bytesOfNat (notifyBytes i) v.toNat, a.run.order ++ [x.1, x.2, s.tick]⟩
            let a := { (a.pop x src).setCt x { t with page := none } with notifies := a.notifies + 1 }
            some ((s.putActive st slot a).modStack st fun k => { k with notify := k.notify ++ [e] })

/-! ### Tiles -/

/-- A C tile fires. -/
def State.tileFire (s : State) (st slot : Nat) (x : Nat × Nat) : Option State :=
  match s.running? st slot with
  | none => none
  | some a => match a.word? x with
    | none => none
    | some w =>
      if tileKind x.1 x.2 ≠ 1 then none
      else if wOpc w = 0x3C then (if (a.ct x).done then none else s.fireNotify st slot a x w)
      else s.fired st slot a x (a.fireC x)

/-- TILE_FIRE (R347). -/
def execTileFire (st slot row col : Nat) (s : State) : Host.Outcome State Fault Refusal :=
  orDisabled "TILE_FIRE" (s.tileFire st slot (row, col))

/-- A buffer of an M tile takes a token, or emits one. -/
def State.bufferMove (s : State) (st slot : Nat) (x : Nat × Nat) (j : Nat) (emit : Bool) : Option State :=
  match s.running? st slot with
  | none => none
  | some a => if tileKind x.1 x.2 ≠ 2 then none else s.fired st slot a x (if emit then a.emitBuf x j else a.accept x j)

/-- M_BUFFER_ACCEPT (R355). -/
def execMBufferAccept (st slot row col buf : Nat) (s : State) : Host.Outcome State Fault Refusal :=
  orDisabled "M_BUFFER_ACCEPT" (s.bufferMove st slot (row, col) buf false)

/-- M_BUFFER_EMIT (R355). -/
def execMBufferEmit (st slot row col buf : Nat) (s : State) : Host.Outcome State Fault Refusal :=
  orDisabled "M_BUFFER_EMIT" (s.bufferMove st slot (row, col) buf true)

/-! ### The sequencer and completion -/

/-- CONTEXT_STEP (R369); a drain stops it (R394). -/
def execContextStep (st slot : Nat) (s : State) : Host.Outcome State Fault Refusal :=
  let p := s.part st slot
  match p.st, p.act with
  | .running, some a =>
    if a.allDone ∧ a.ctxi + 1 < a.cfg.nctx then
      let (a, empty) := a.enter (a.ctxi + 1)
      let s := s.putActive st slot a
      match empty with
      | some x => .next (s.freeze st slot a { cause := cCFG, detail := 0x10, tile := x })
      | none => .next s
    else disabled "CONTEXT_STEP"
  | _, _ => disabled "CONTEXT_STEP"

/-- A run is complete (R372). -/
def Active.complete (a : Active) : Bool := a.allDone && a.ctxi + 1 == a.cfg.nctx && a.notifies == 0

/-- RUN_COMPLETE (R372). -/
def execRunComplete (st slot : Nat) (s : State) : Host.Outcome State Fault Refusal :=
  match s.running? st slot with
  | some a =>
    if a.complete then .next (s.endRun st slot a.run 1 0)
    else disabled "RUN_COMPLETE"
  | none => disabled "RUN_COMPLETE"

/-! ### Quiescence (R394) -/

/-- No tile can fire, no read is outstanding, every issued write is acknowledged, every send is queued. A port or a NOTIFY
that waits for a page counts as quiescent; one that waits for budget or for room in the queue does not. -/
def State.quiescent (s : State) (st slot : Nat) : Bool :=
  match s.running? st slot with
  | none => false
  | some a =>
    let waitsUp := fun (x : Nat × Nat) (w : CtxWord) =>
      match a.head x ((wSrc w).headD 1 - 1) with
      | some (.data _) => !a.upstreamDone w || !s.pageBack a.run.ctx (a.ct x).page
      | some _ => false
      | none => true
    a.cfg.tiles.all (fun t => match a.word? t.1 with
        | none => true
        | some w =>
          if t.2.1 = 1 then (if wOpc w = 0x3C ∧ !(a.ct t.1).done then waitsUp t.1 w else (s.tileFire st slot t.1).isNone)
          else (List.range 4).all fun j => (s.bufferMove st slot t.1 j false).isNone && (s.bufferMove st slot t.1 j true).isNone)
      && a.cfg.sTiles.all fun x => match a.port? x true with
        | some (_, t) => t.flight.isEmpty && (t.done || (a.head x 0).isNone || !s.pageBack a.run.ctx t.waiting)
        | none => (s.readReturn st slot x).isNone

end Sys2Proof.Machine
end

