-- ==== Sys2Proof/Machine/ArraySave.lean ====
section
/-!
DEFINITION. Machine/ArraySave.lean: the save area of a drained run, written and read back (R396 to R398).
-/
namespace Sys2Proof.Machine

/-! ### Layout (R396, R397) -/

def Config.hopSum (c : Config) : Nat := c.links.foldl (fun n l => l.branches.foldl (fun n b => n + b.2.2.length) n) 0
/-- SIZE. -/
def Config.saveSize (c : Config) : Nat := 0x140 + c.blocks * 646144 + 160 * c.hopSum

/-- Tiles of a block in the order of its record, each with its offset there. -/
def blockTiles (row0 col0 : Nat) : List ((Nat × Nat) × Nat) :=
  ((List.range 24).map fun i => ((row0 + i / 4, col0 + 1 + i % 4), 4608 * i))
    ++ ((List.range 8).map fun i =>
      let r := (([1, 2, 4, 5] : List Nat).getD (i % 4) 0)
      ((row0 + r, col0 + 5 * (i / 4)), 24 * 4608 + 66624 * i))
    ++ (List.range 4).map fun k => ((row0 + 3 * (k % 2), col0 + 5 * (k / 2)), 24 * 4608 + 8 * 66624 + 640 * k)

/-- Every tile of the partition with the offset of its record in the area. -/
def Config.saveTiles (c : Config) : List ((Nat × Nat) × Nat) :=
  (List.range c.blocks).flatMap fun b =>
    (blockTiles (6 * (b / c.bw)) (6 * (b % c.bw))).map fun t => (t.1, 0x140 + 646144 * b + t.2)

/-- Branches in image order: number, hops, whether the consumer holds the head token in a context, the offset of its slots. -/
def Config.saveBranches (c : Config) (i : Nat) : List (Nat × Nat × Bool × Nat) :=
  let bs := c.links.zipIdx.flatMap fun l => l.1.branches.zipIdx.map fun b =>
    (4 * l.2 + b.2, b.1.2.2.length, c.headed i b.1.1)
  (bs.foldl (fun (a : List (Nat × Nat × Bool × Nat) × Nat) b => (a.1 ++ [(b.1, b.2.1, b.2.2, a.2)], a.2 + 160 * b.2.1))
    ([], 0x140 + 646144 * c.blocks)).1

/-! ### Tokens -/

def Token.tag : Token → Nat
  | .data _ => 0
  | .null => 1
  | .fin => 2
def Token.of (tag : Nat) (v : Nat) : Token := match tag with | 0 => .data (BitVec.ofNat 512 v) | 1 => .null | _ => .fin
def zeros (n : Nat) : List Byte := List.replicate n 0
/-- A list of bytes made n long. -/
def padTo (n : Nat) (bs : List Byte) : List Byte := bs.take n ++ zeros (n - bs.length)

/-! ### Records of tiles -/

/-- A C tile's record. Bit 1 of control byte 2, which R397 leaves open, says that the token due at END is out and END is not (log
entry 61). -/
def Active.cRecord (a : Active) (x : Nat × Nat) : List Byte :=
  let t := a.ct x
  let heads := (List.range 3).map (a.head x)
  let mask := (List.range 3).foldl (fun m i => if (heads.getD i none).isSome then m + 2 ^ i else m) 0
  let tags := (List.range 3).foldl (fun m i => m + 4 ^ i * (match heads.getD i none with | some k => k.tag | none => 0)) 0
  let head := bytesOfNat 64 t.acc.toNat ++ heads.flatMap fun h => bytesOfNat 64 (match h with | some k => k.val.toNat | none => 0)
  let ctl := bytesOfNat 1 mask ++ bytesOfNat 1 tags ++ bytesOfNat 1 (boolNat t.done + 2 * boolNat (t.count == 2)) ++ zeros 1
    ++ (List.range 4).flatMap fun d => bytesOfNat 1 (t.line d).length
  let op := bytesOfNat 64 (t.held.getD 0).toNat ++ bytesOfNat 4 (boolNat t.held.isSome) ++ bytesOfNat 4 t.x
  padTo 0x200 (padTo 0x140 (head ++ ctl) ++ op)
    ++ (List.range 4).flatMap fun d => padTo 1024 ((t.line d).flatMap fun v => bytesOfNat 64 v.toNat)

/-- An M tile's record. -/
def Active.mRecord (a : Active) (x : Nat × Nat) : List Byte :=
  let t := a.mt x
  ((List.range 1024).flatMap fun k => bytesOfNat 64 (match AMap.get? t.slots k with | some v => v.val.toNat | none => 0))
    ++ ((List.range 1024).flatMap fun k => bytesOfNat 1 (match AMap.get? t.slots k with | some v => 1 + 2 * v.tag | none => 0))
    ++ (List.range 4).flatMap fun j =>
      let b := t.buf j
      bytesOfNat 2 (b.order.getD b.pos 0) ++ bytesOfNat 2 b.tail ++ bytesOfNat 2 b.order.length ++ bytesOfNat 1 b.passes
        ++ bytesOfNat 1 b.phase ++ zeros 8

/-- Words of a read port, or the input head of a write port. -/
def State.sTokens (s : State) (a : Active) (x : Nat × Nat) : List Token × State :=
  let t := a.st x
  match a.cfg.port? x a.ctxi with
  | none => ([], s)
  | some r =>
    if r.write then ((a.head x 0).toList, s)
    else t.flight.foldl (fun (acc : List Token × State) p =>
      let (v, s) := acc.2.portWord a x p
      (acc.1 ++ [.data v], s)) (t.held.map Token.data, s)

/-- An S tile's record. -/
def Active.sRecord (a : Active) (x : Nat × Nat) (toks : List Token) : List Byte :=
  let t := a.st x
  let (total, idx) := match a.cfg.port? x a.ctxi with
    | some r => (r.total, r.at t.pos)
    | none => (0, [0, 0, 0, 0])
  let flags := boolNat t.done + 2 * boolNat t.waiting.isSome + 4 * boolNat (decide (total ≤ t.pos))
  padTo 0x40 (padTo 0x10 ((idx.flatMap (bytesOfNat 2)) ++ bytesOfNat 1 flags ++ bytesOfNat 1 toks.length) ++ bytesOfNat 8 t.base)
    ++ padTo 512 (toks.flatMap fun k => bytesOfNat 64 k.val.toNat) ++ padTo 64 (toks.flatMap fun k => bytesOfNat 1 k.tag)

def slotBytes (t : Option Token) : List Byte :=
  match t with
  | none => zeros 80
  | some k => bytesOfNat 1 1 ++ bytesOfNat 1 k.tag ++ zeros 6 ++ bytesOfNat 64 k.val.toNat ++ zeros 8

/-- The slots of a branch: the oldest tokens in the last hop. -/
def branchBytes (hops : Nat) (toks : List Token) : List Byte :=
  (List.range hops).flatMap fun h =>
    let i := 2 * (hops - 1 - h)
    slotBytes toks[i]? ++ slotBytes toks[i + 1]?

/-- The header. -/
def Active.saveHeader (a : Active) (st slot : Nat) (reg acyc : Word64) : List Byte :=
  bytesOfNat 2 1 ++ bytesOfNat 1 st ++ bytesOfNat 1 slot ++ bytesOfNat 1 reg.toNat ++ bytesOfNat 1 a.ctxi ++ zeros 2
    ++ bytesOfNat 4 a.run.key ++ bytesOfNat 4 a.cfg.check ++ bytesOfNat 8 (handleVal 3 st a.run.ctx a.run.seq).toNat
    ++ bytesOfNat 8 a.cfg.saveSize ++ bytesOfNat 8 acyc.toNat ++ zeros 24
    ++ (List.range 32).flatMap fun i => bytesOfNat 8 (a.params.getD i 0).toNat

/-- The pieces of the area, with their offsets. -/
def State.savePieces (s : State) (st slot : Nat) (a : Active) (acyc : Word64) : List (Nat × List Byte) × State :=
  let tiles := a.cfg.saveTiles.foldl (fun (acc : List (Nat × List Byte) × State) t =>
    match tileKind t.1.1 t.1.2 with
    | 1 => (acc.1 ++ [(t.2, a.cRecord t.1)], acc.2)
    | 2 => (acc.1 ++ [(t.2, a.mRecord t.1)], acc.2)
    | _ => let (toks, s) := acc.2.sTokens a t.1; (acc.1 ++ [(t.2, a.sRecord t.1 toks)], s)) ([], s)
  let links := (a.cfg.saveBranches a.ctxi).map fun b => (b.2.2.2, branchBytes b.2.1 (if b.2.2.1 then (a.fifo b.1).drop 1 else a.fifo b.1))
  ((0, a.saveHeader st slot (s.part st slot).reg acyc) :: tiles.1 ++ links, tiles.2)

/-- The state of a run is written to the save area. -/
def State.saveRun (s : State) (st slot : Nat) (a : Active) (acyc : Word64) (phys : Bool) (addr : Nat) : Except AreaErr State :=
  let (ps, s) := s.savePieces st slot a acyc
  ps.foldlM (fun (s : State) p => s.saveWrite a.run.ctx phys (addr + p.1) p.2) s

/-! ### Reading it back (R398) -/

/-- Tokens in some bytes with their tags. -/
def tokensAt (bs : List Byte) (at_ tags n : Nat) : List Token :=
  (List.range n).map fun i => Token.of (field bs (tags + i) 1) (field bs (at_ + 64 * i) 64)

/-- A C tile, and the heads of its inputs. -/
def cOfRecord (bs : List Byte) : CTile × List (Option Token) :=
  let count := if field bs 0x102 1 / 2 % 2 = 1 then 2 else field bs 0x180 4
  let t : CTile := {
    dl := (List.range 4).map fun d => (List.range (field bs (0x104 + d) 1)).map fun i => BitVec.ofNat 512 (field bs (0x200 + 1024 * d + 64 * i) 64)
    acc := BitVec.ofNat 512 (field bs 0 64), done := field bs 0x102 1 % 2 == 1
    held := if count = 1 then some (BitVec.ofNat 512 (field bs 0x140 64)) else none
    count := count, x := field bs 0x184 4, page := none }
  (t, (List.range 3).map fun i =>
    if field bs 0x100 1 / 2 ^ i % 2 = 1 then some (Token.of (field bs 0x101 1 / 4 ^ i % 4) (field bs (0x40 + 64 * i) 64)) else none)

/-- An M tile under the word of its context. The record tells no order among the slots of the tile; the run keeps it, since no
token may depend on a drain (R345; log entry 61). -/
def mOfRecord (bs : List Byte) (w : CtxWord) (ages : AMap Nat) : MTile :=
  let slots := (List.range 1024).filterMap fun k =>
    let b := field bs (0x10000 + k) 1
    if b % 2 = 1 then some (k, Token.of (b / 2 % 4) (field bs (64 * k) 64)) else none
  let clock := ages.foldl (fun n e => max n (e.2 + 1)) 0
  let t : MTile := { slots := slots, bufs := [], ages := ages.filter fun e => slots.any fun k => k.1 == e.1, clock := clock }
  { t with
    bufs := (List.range 4).map fun j =>
      let o := 0x10400 + 16 * j
      match wBuf w j with
      | none => { MBuf.init with phase := 2 }
      | some (first, depth, replay, _) =>
        let head := field bs o 2
        let order := t.oldest first depth
        { order := order, tail := field bs (o + 2) 2, pos := if replay then (order.findIdx? (· == head)).getD 0 else 0
          passes := field bs (o + 6) 1, phase := field bs (o + 7) 1 } }

/-- A port's place in its walk from its counters. -/
def PortRec.pos (r : PortRec) (bs : List Byte) : Nat :=
  if field bs 8 1 / 4 % 2 = 1 then r.total
  else ((List.range 4).foldr (fun d (a : Nat) => field bs (2 * d) 2 + (r.count.getD d 1) * a) 0)

/-- An S tile, and the input head of a write port. -/
def sOfRecord (bs : List Byte) (r : PortRec) : STile × Option Token :=
  let toks := tokensAt bs 0x40 0x240 (field bs 9 1)
  ({ active := true, base := field bs 0x10 8, pos := r.pos bs, done := field bs 8 1 % 2 == 1, waiting := none, endSeen := false
     flight := [], held := if r.write then [] else toks.map Token.val },
   if r.write then toks.head? else none)

/-- A token put before the tokens of an input. -/
def Active.unpop (a : Active) (x : Nat × Nat) (port : Nat) (t : Option Token) : Active :=
  match t, a.cfg.feedKey a.ctxi x port with
  | some t, some k => { a with fifos := AMap.set a.fifos k (t :: a.fifo k) }
  | _, _ => a

/-- The tokens in the slots of a branch, oldest first. -/
def branchTokens (hops : Nat) (bs : List Byte) : List Token :=
  (List.range hops).flatMap fun i =>
    let o := 160 * (hops - 1 - i)
    ([o, o + 80] : List Nat).filterMap fun p => if field bs p 1 % 2 = 1 then some (Token.of (field bs (p + 1) 1) (field bs (p + 8) 64)) else none

/-- The saved state takes the place of what installation wrote. A C tile that no entry names has heads too (R376, R397). -/
def State.restoreRun (s : State) (a : Active) (phys : Bool) (addr : Nat) : Except AreaErr (Active × State) := do
  let ctx := a.run.ctx
  let (hd, s) ← s.saveRead ctx phys addr 0x140
  let a := { a with ctxi := field hd 5 1 }
  let (a, s) ← (a.cfg.saveBranches a.ctxi).foldlM (fun (acc : Active × State) b => do
    let (bs, s) ← acc.2.saveRead ctx phys (addr + b.2.2.2) (160 * b.2.1)
    .ok ({ acc.1 with fifos := AMap.set acc.1.fifos b.1 (branchTokens b.2.1 bs) }, s)) (a, s)
  a.cfg.saveTiles.foldlM (fun (acc : Active × State) t => do
    let a := acc.1
    match tileKind t.1.1 t.1.2, a.word? t.1, a.cfg.port? t.1 a.ctxi with
    | 1, _, _ =>
      let (bs, s) ← acc.2.saveRead ctx phys (addr + t.2) 4608
      let (ct, heads) := cOfRecord bs
      .ok (heads.zipIdx.foldl (fun (a : Active) h => a.unpop t.1 h.2 h.1) (a.setCt t.1 ct), s)
    | 2, some w, _ =>
      let (bs, s) ← acc.2.saveRead ctx phys (addr + t.2) 66624
      .ok (a.setMt t.1 (mOfRecord bs w (AMap.getD a.run.ages (tileKey t.1.1 t.1.2) [])), s)
    | 3, _, some r =>
      let (bs, s) ← acc.2.saveRead ctx phys (addr + t.2) 640
      let (st, head) := sOfRecord bs r
      .ok ((a.setSt t.1 st).unpop t.1 0 head, s)
    | 3, _, none => .ok (a.setSt t.1 (a.enterS t.1), acc.2)
    | _, _, _ => .ok (a, acc.2)) (a, s)

end Sys2Proof.Machine
end

