-- ==== Sys2Proof/Machine/CopyEngine.lean ====
section
/-!
DEFINITION. Machine/CopyEngine.lean: COPY and COPYX (R301, R302), the copy engine's chunks and completions (R298 to R316).
-/
namespace Sys2Proof.Machine

/-! ### COPY and COPYX -/

def frontCopy (o : Ops4) (m : CpMod) (expand : Bool) : Front where
  feats := (if expand then [4] else []) ++ (if m.ck == 2 then [7] else [])
  ok := fun e => e.ops4Ok o hOrZero sPos sPos (match m.ck.toNat with | 0 => unused | 1 => uPos | _ => sPos)

/-- R302. -/
def copyBody (expand : Bool) (o : Ops4) (m : CpMod) (e : Env) : Eff :=
  let core := e.sel.core
  let cl := clusterOf core
  let ss := m.sspace.toNat
  let ds := m.dspace.toNat
  let ck := m.ck.toNat
  let go := fun (_ : Unit) =>
    if ck == 2 && (match e.grid with | some g => g.blk.tasktab == 0 | none => true) then .trap (trapOf cOPERAND)
    else e.released fun _ =>
      let (seq, s) := e.s.newHandle 1 cl e.sig.ctx
      let s := e.writeHandle s o.d (handleVal 1 cl e.sig.ctx seq)
      .done (s.modCluster cl fun k => { k with nextId := k.nextId + 1, copies := k.copies ++ [{
        id := k.nextId, unit := cl, core := core, ctx := e.sig.ctx, grid := e.sig.grid, quire := e.sig.quire, seq := seq, expand := expand
        sspace := ss, dspace := ds, ck := ck, a := e.uni o.a, b := e.uni o.b
        c := if ck = 0 then 0 else if ck = 1 then BitVec.ofNat 64 (e.u o.c) else e.uni o.c
        order := e.orderKey, plan := none, task := none, written := 0, scales := [], supers := [], page := none, cancel := false }] })
  if 16 ≤ (e.s.copyQueue core).length then .stall
  else if ss = 2 ∨ ss = 3 ∨ ds = 4 ∨ expand ∧ ss ≠ 0 ∨ e.sig.quire.isNone ∧ (ss ≠ 0 ∨ ds ≠ 0 ∨ ck = 1) then .trap (trapOf cACCESS)
  else if ck = 1 then e.pointAt o.c false fun _ _ _ => go ()
  else go ()

/-- R302. -/
def execCopy (h : Hdr) (o : Ops4) (m : CpMod) : State → Host.Outcome State Fault Refusal :=
  perform h o.list (frontCopy o m false) noSync (copyBody false o m)

/-- R302. -/
def execCopyx (h : Hdr) (o : Ops4) (m : CpMod) : State → Host.Outcome State Fault Refusal :=
  perform h o.list (frontCopy o m true) noSync (copyBody true o m)

/-! ### The window (R304) -/

def Window.parse (bs : List Byte) : Window where
  start := (List.range 8).map fun d => field bs (4 * d) 4
  box := (List.range 8).map fun d => field bs (0x20 + 2 * d) 2
  dest := field bs 0x30 8
  dfmt := field bs 0x38 1
  transpose := field bs 0x39 1 % 2 == 1
  sat := field bs 0x39 1 / 2 % 2 == 1
  scl := field bs 0x39 1 / 4 % 4
  xform := field bs 0x3A 1
  tscale := BitVec.ofNat 32 (field bs 0x3C 4)

/-- Reserved bytes zero and every field within the limits of R304. -/
def Window.limitsOk (w : Window) (bs : List Byte) (ndim : Nat) (expand : Bool) : Bool :=
  ((List.range 8).all fun i => decide (1 ≤ w.boxAt i) && (decide (i < ndim) || (w.start.getD i 0 == 0 && w.boxAt i == 1)))
    && w.dest % 16 == 0 && decide (w.dfmt < 16) && field bs 0x39 1 / 16 == 0 && w.scl != 3 && (expand || w.xform == 0)
    && field bs 0x3B 1 == 0 && (w.scl == 1 || w.tscale == 0)

/-- Tensor coordinates of destination element n (R306 to R308). -/
def Window.coords (w : Window) (n : Nat) : List Nat :=
  let i := n % w.wd
  let r := n / w.wd
  let other := if w.transpose then w.boxAt 0 else w.boxAt 1
  let inner := if w.transpose then [r % other, i] else [i, r % other]
  let (_, rest) := (List.range 6).foldl (fun (a : Nat × List Nat) j => (a.1 / w.boxAt (j + 2), a.2 ++ [a.1 % w.boxAt (j + 2)])) (r / other, [])
  (inner ++ rest).zipWith (· + ·) w.start

/-! ### The checks before the first byte (R305) -/

/-- The elements are copied bit for bit (R309). -/
def rawCopy (d : Desc) (w : Window) : Bool := d.sfmt == w.dfmt && w.scl == 0 && !d.mx

/-- R307, R309, R310. -/
def pairingOk (d : Desc) (w : Window) : Bool :=
  (!w.transpose || (decide (2 ≤ d.ndim) && decide (8 ≤ fmtBits d.sfmt)))
    && (rawCopy d w || (d.sfmt != 2 && w.dfmt != 2 && w.dfmt != 15 && d.scaled
      && (w.scl != 2 || (decide (5 ≤ w.dfmt) && decide (w.dfmt ≤ 10)) || w.dfmt == 14) && (w.dfmt != 14 || w.scl == 2)
      && (match w.block with | some k => w.wd % k == 0 | none => true)))

/-- The reservation of the issuing quire in a space of R301. -/
def State.copySpace (s : State) (o : CopyOp) (space : Nat) : Nat × Nat :=
  match o.quire.bind fun k => s.quire? o.core k with
  | some q => (q.base.get (space - 1), q.size.get (space - 1))
  | none => (0, 0)

/-- The features that descriptor and window name (R423). -/
def copyFeats (d : Desc) (w : Window) : List Nat :=
  (if 14 ≤ d.sfmt % 16 ∨ 14 ≤ w.dfmt % 16 then [9] else [])
    ++ (if d.mx ∨ w.scl = 2 ∧ 5 ≤ w.dfmt % 16 ∧ w.dfmt % 16 ≤ 10 then [10] else [])

/-- The rows of the table of R305 after the reads, in order; `bd`, `bw` are the bytes read, `th` the task record's header. -/
def State.copyCheck (s : State) (o : CopyOp) (d : Desc) (w : Window) (bd bw th : List Byte) : Option Nat :=
  let sp := s.copySpace o o.sspace
  let dp := s.copySpace o o.dspace
  if (copyFeats d w).any fun b => !s.feat o.ctx b then some cFEATURE
  else if !d.limitsOk bd || (if o.expand then d.ulen == 0 else d.ulen != 0) || !w.limitsOk bw d.ndim o.expand then some cOPERAND
  else if !pairingOk d w then some cOPERAND
  else if !d.aligned then some cMISALIGN
  else if w.start.getD 0 0 % packGroup d.sfmt ≠ 0 ∨ w.wd % packGroup w.dfmt ≠ 0 then some cOPERAND
  else if 2 ^ 32 - 1 < w.total then some cOPERAND
  else if o.sspace ≠ 0 ∧ d.sourceEnd w ≠ 0 ∧ sp.2 < d.base + d.sourceEnd w ∨ o.dspace ≠ 0 ∧ dp.2 < w.dest + w.reach then some cACCESS
  else if o.ck = 2 ∧ (field th 2 1 < 1 ∨ 64 < field th 2 1 ∨ field th 6 2 ≠ 0) then some cOPERAND
  else none

/-- The task that a completion pushes (R313). -/
def Task.ofRecord (th body : List Byte) (core grid : Nat) : Task where
  entry := field th 0 1
  flags := field th 1 1
  origin := 2
  core := core
  grid := grid
  payload := (List.range (field th 2 1)).map fun i => BitVec.ofNat 64 (field body (8 * i) 8)
  parked := false

/-- Descriptor, window and task record are read and checked. -/
def State.copyPlan (resp : Resp) (s : State) (o : CopyOp) : Except Stop (CopyOp × State) :=
  let a := o.a.toNat
  let b := o.b.toNat
  let x := o.c.toNat
  let misaligned := if a % 128 ≠ 0 then some a else if b % 64 ≠ 0 then some b
    else if o.ck = 3 ∧ x % 8 ≠ 0 ∨ o.ck = 2 ∧ x % 16 ≠ 0 then some x else none
  match misaligned with
  | some v => .error (s.stop cMISALIGN v)
  | none => do
    let (bd, s) ← s.engRead resp readNeed o.ctx a 128
    let (bw, s) ← s.engRead resp readNeed o.ctx b 64
    let (th, s) ← if o.ck = 2 then s.engRead resp readNeed o.ctx x 16 else .ok ([], s)
    let d := Desc.parse bd
    let w := Window.parse bw
    match s.copyCheck o d w bd bw th with
    | some cause => .error (s.stop cause 0)
    | none =>
      if o.ck = 2 then do
        let (body, s) ← s.engRead resp readNeed o.ctx (x + 16) (8 * field th 2 1)
        .ok ({ o with plan := some (d, w), task := some (Task.ofRecord th body o.core o.grid) }, s)
      else .ok ({ o with plan := some (d, w) }, s)

/-! ### Elements of a chunk -/

/-- Where the source lies. Of a COPYX the compressed bytes are charged once, as they are first taken (R300); of a raw image
without planes the box's own bytes are read (R317, R319). -/
def State.copyFrom (resp : Resp) (s : State) (o : CopyOp) (d : Desc) (w : Window) : From × CopyOp × State :=
  if o.expand ∧ w.xform = 0 then (.stream d.base d.ulen, o, s)
  else if o.expand then
    let x := s.imageFrom resp o.ctx d.base w.xform d.ulen (d.sourceEnd w)
    let s := match { x.s with touched := s.touched }.engRead (.ok []) readNeed o.ctx (d.base + o.fetched) (x.taken - o.fetched) with
      | .ok (_, t) => { x.s with touched := t.touched }
      | .error _ => { x.s with touched := s.touched }
    (.image x.bytes d.ulen x.stop, { o with fetched := max o.fetched x.taken }, s)
  else (if o.sspace = 0 then .global else .space o.core (o.sspace - 1) (s.copySpace o o.sspace).1, o, s)

/-- Code zero of a format (R306). DESIGN CHOICE (log entry 67): for IV32 and TERN2, of which the manual says nothing, zero bits. -/
def zeroCode (fmt : Nat) : Nat := if fmt = 14 then 7 else 0

/-- Source elements as bits, or as values with their TERN2 errors; none for padding. -/
def State.sourceCodes (resp : Resp) (ctx : Nat) (f : From) (d : Desc) (w : Window) :
    List Nat → State → Except Stop (List (Option Nat) × State)
  | [], s => .ok ([], s)
  | n :: r, s =>
    let x := w.coords n
    if d.padding x then do
      let (t, s) ← State.sourceCodes resp ctx f d w r s
      .ok (none :: t, s)
    else do
      let (v, s) ← s.elemCode resp ctx f d x
      let (t, s) ← State.sourceCodes resp ctx f d w r s
      .ok (some v :: t, s)

def State.sourceValues (resp : Resp) (ctx : Nat) (f : From) (d : Desc) (w : Window) :
    List Nat → State → Except Stop (List (Option XR) × Nat × State)
  | [], s => .ok ([], 0, s)
  | n :: r, s =>
    let x := w.coords n
    if d.padding x then do
      let (t, k, s) ← State.sourceValues resp ctx f d w r s
      .ok (none :: t, k, s)
    else do
      let (v, code, s) ← s.elemValue resp ctx f d x
      let (t, k, s) ← State.sourceValues resp ctx f d w r s
      .ok (some v :: t, k + (if d.sfmt = 15 ∧ code = 3 then 1 else 0), s)

/-- The value that is converted (R309). -/
def Window.scaled (w : Window) (v : XR) : XR := if w.scl = 1 then v.mul (FP32.decode w.tscale.toNat) else v

/-- A list in pieces of k. -/
def piecesOf {α : Type} (fuel k : Nat) (l : List α) : List (List α) :=
  match fuel with
  | 0 => []
  | n + 1 => if l.isEmpty then [] else l.take k :: piecesOf n k (l.drop k)

/-- Codes of some elements without block scales, and format errors. Between integer formats without SAT the low bits are
kept (R56, R59). -/
def plainCodes (d : Desc) (w : Window) (vs : List (Option XR)) : List Nat × Nat :=
  let xs := vs.map fun v => v.map w.scaled
  let low := (fmtInt d.sfmt).isSome && (fmtInt w.dfmt).isSome && !d.mx && w.scl == 0 && !w.sat
  let code := fun (x : XR) => if low then fmtWrap w.dfmt x else fmtEncode w.dfmt .rne w.sat false x
  (xs.map fun v => match v with | some x => code x | none => zeroCode w.dfmt,
   (xs.filter fun v => match v with | some x => fmtCounts w.dfmt x | none => false).length)

/-- An MX block (R50): codes and scale. -/
def mxBlock (fmt : Nat) (vs : List (Option XR)) : List Nat × Nat :=
  let (sc, e) := mxScale fmt (vs.filterMap id)
  (vs.map fun v => match v, e with | some x, some k => mxCode fmt k x | _, _ => 0, sc)

/-- A Q4N group (R51): codes, block scales, super-scale. Where S is a NaN, or FP32 gives the largest magnitude as ∞,
no codes and block scales are stated: free values. -/
def State.q4nGroup (s : State) (vs : List (Option XR)) : (List Nat × List Nat × Nat) × State :=
  let xs := vs.filterMap id
  let a := maxAbs xs
  let bad := xs.any fun x => !x.isFin
  let top := FP32.encode .rne false false a
  let code := if bad then FP32.nan else if (FP32.decode top).isZero then FP32.encode .rne false false (.fin false 1 0) else top
  let sv := FP32.decode code
  if bad || !sv.isFin then
    let (fb, s) := s.drawBytes (vs.length + ceilDiv vs.length 64)
    let codes := (vs.zip fb).map fun p => match p.1 with | some _ => p.2.toNat % 16 | none => 7
    ((codes, (fb.drop vs.length).map (·.toNat), code), s)
  else
    let blocks := (piecesOf (vs.length + 1) 64 vs).map fun bl =>
      let b := q4nBlock sv (maxAbs (bl.filterMap id))
      (bl.map fun v => match v with | some x => q4nCodeOf sv b x | none => 7, b)
    ((blocks.flatMap (·.1), blocks.map (·.2), code), s)

/-- A run of destination elements that is produced together: data bytes, block scales, super-scale, format errors. -/
def State.copySegment (resp : Resp) (s : State) (o : CopyOp) (f : From) (d : Desc) (w : Window) (ns : List Nat) :
    Except Stop ((List Byte × List Nat × List Nat × Nat) × State) :=
  let bits := fmtBits w.dfmt
  if rawCopy d w then do
    let (cs, s) ← State.sourceCodes resp o.ctx f d w ns s
    .ok ((packCodes bits (cs.map fun x => match x with | some v => v | none => zeroCode w.dfmt), [], [], 0), s)
  else do
    let (vs, bad, s) ← State.sourceValues resp o.ctx f d w ns s
    if w.scl = 2 then
      if w.dfmt = 14 then
        let ((cs, bs, q), s) := s.q4nGroup vs
        .ok ((packCodes bits cs, bs, [q], bad), s)
      else
        let (cs, sc) := mxBlock w.dfmt vs
        .ok ((packCodes bits cs, [sc], [], bad), s)
    else
      let (cs, k) := plainCodes d w vs
      .ok ((packCodes bits cs, [], [], bad + k), s)

/-- The run that holds a data byte: its first element and its length. -/
def Window.segmentAt (w : Window) (byte : Nat) : Nat × Nat :=
  let n := byte * 8 / fmtBits w.dfmt
  if w.scl = 2 ∧ w.dfmt = 14 then
    let i := n % w.wd / 16384 * 16384
    (n / w.wd * w.wd + i, min 16384 (w.wd - i))
  else
    let k := if w.scl = 2 then 32 else packGroup w.dfmt
    (n / k * k, k)

/-- Bytes written to the destination at an offset from DEST; undefined ones where a thread's store has raced (R232, R305), and
where the operation also reads them (R312). -/
def State.copyPut (resp : Resp) (s : State) (o : CopyOp) (w : Window) (off : Nat) (bs : List Byte) : Nat × Option Stop × State :=
  let (bs, s) := s.spoil o.raced bs
  let (bs, s) := s.spoilAt (o.alsoReads (w.dest + off) bs.length) (w.dest + off) bs
  if o.dspace = 0 then s.engWrite resp o.ctx (w.dest + off) bs
  else (bs.length, none, s.localWrite o.core (o.dspace - 1) ((s.copySpace o o.dspace).1 + w.dest + off) bs)

/-- Data bytes up to `stop`, run by run (R299). Answers also the format errors. -/
def State.copyData (fuel : Nat) (resp : Resp) (s : State) (o : CopyOp) (f : From) (d : Desc) (w : Window) (stop errs : Nat) :
    Option Stop × CopyOp × Nat × State :=
  match fuel with
  | 0 => (none, o, errs, s)
  | fuel + 1 =>
    if stop ≤ o.written then (none, o, errs, s) else
    let (n0, len) := w.segmentAt o.written
    match s.copySegment resp o f d w ((List.range len).map (n0 + ·)) with
    | .error x => (some x, o, errs, s)
    | .ok ((bs, scs, sups, bad), s) =>
      let first := n0 * fmtBits w.dfmt / 8
      let part := (bs.drop (o.written - first)).take (stop - o.written)
      let (k, e, s) := s.copyPut resp o w o.written part
      let o1 := { o with written := o.written + k }
      let whole := decide (first + bs.length ≤ o1.written)
      let o1 := if whole then { o1 with scales := o1.scales ++ scs, supers := o1.supers ++ sups } else o1
      let errs := if whole then errs + bad else errs
      match e with
      | some x => (some (x.after s), o1, errs, s)
      | none => if k = 0 then (none, o1, errs, s) else s.copyData fuel resp o1 f d w stop errs

/-- The scale planes, once every data byte is written (R310, R313). -/
def State.copyScales (resp : Resp) (s : State) (o : CopyOp) (w : Window) : Option Stop × CopyOp × State :=
  let k := o.written - w.data
  let blocks := (o.scales.map fun x => BitVec.ofNat 8 x).drop k
  let (n, e, s) := s.copyPut resp o w (w.scaleOff + k) blocks
  let o := { o with written := o.written + n }
  match e with
  | some x => (some (x.after s), o, s)
  | none =>
    let k := o.written - w.data - w.scaleBytes
    let sups := (o.supers.flatMap fun x => bytesOfNat 4 x).drop k
    let (n, e, s) := s.copyPut resp o w (w.superOff + k) sups
    (e.map (·.after s), { o with written := o.written + n }, s)

/-- One chunk (R299): to the end of the 4 KiB range of data that is open; the scales with the last. -/
def State.copyChunk (resp : Resp) (s : State) (o : CopyOp) (d : Desc) (w : Window) : Option Stop × CopyOp × Nat × State :=
  let stop := min w.data ((o.written / 4096 + 1) * 4096)
  let (f, o, s) := s.copyFrom resp o d w
  let (e, o, errs, s) := s.copyData 4097 resp o f d w stop 0
  match e with
  | some x => (some x, o, errs, s)
  | none =>
    if w.data ≤ o.written then let (e, o, s) := s.copyScales resp o w; (e, o, errs, s)
    else (none, o, errs, s)

/-! ### Ends (R313, R315, R316) -/

def State.putCopy (s : State) (cl : Nat) (o : CopyOp) : State :=
  s.modCluster cl fun k => { k with copies := k.copies.map fun x => if x.id == o.id then o else x }
def State.dropCopy (s : State) (cl : Nat) (o : CopyOp) : State :=
  s.modCluster cl fun k => { k with copies := k.copies.filter fun x => x.id != o.id }

/-- The operation leaves its queue, and its handle ends. -/
def State.goneCopy (s : State) (cl : Nat) (o : CopyOp) (h : HState) : State :=
  (s.dropCopy cl o).finishOp o.ctx o.order 1 o.unit o.seq h

/-- An operation ends short: at once, or with the completion word of CK = 11 still to be written (R315, R316). -/
def State.endCopy (s : State) (cl : Nat) (o : CopyOp) (status : Nat) (h : HState) : State :=
  if o.ck ≠ 3 ∨ o.dead then s.goneCopy cl o h else s.putCopy cl { o with page := none, ending := some (status, h) }

/-- The completion word of an operation that ended short is written, then its handle ends (R315, R316). A page that is not
resident suspends it (R314); a word that cannot be written stays as it is. -/
def State.wordCopy (s : State) (cl : Nat) (o : CopyOp) (status : Nat) (h : HState) : State :=
  match s.engWrite (.ok []) o.ctx o.c.toNat (bytesOfNat 4 status ++ bytesOfNat 4 (o.written % 2 ^ 32)) with
  | (_, some (.absent l va r), _) => (s.askStop o.ctx (.absent l va r)).putCopy cl { o with page := some va }
  | (_, some (.away c pages va r), _) => (s.askStop o.ctx (.away c pages va r)).putCopy cl { o with page := none }
  | (_, _, s) => s.goneCopy cl o h

/-- The operation is cancelled at a boundary (R316). -/
def State.cancelCopy (s : State) (cl : Nat) (o : CopyOp) : State := s.endCopy cl o 0xFFFFFFFF ⟨2, 0, o.written % 2 ^ 32⟩

/-- The operation faults (R315). -/
def State.faultCopy (s : State) (cl : Nat) (o : CopyOp) (cause addr : Nat) : State :=
  let s := s.log o.ctx { source := 4, cause := cause, core := o.core, grid := o.grid, quire := s.qixOf o.core o.quire,
                         handle := handleVal 1 o.unit o.ctx o.seq, addr := BitVec.ofNat 64 addr, aux0 := BitVec.ofNat 64 (o.written % 2 ^ 32) }
  s.endCopy cl o cause ⟨3, cause, o.written % 2 ^ 32⟩

/-- The operation stops at a fault or waits for a page (R314); it has touched what the stop says. One of a killed context gets no
page any more and is cancelled where it stands (R257, R316; log entry 18). -/
def State.stopCopy (s : State) (cl : Nat) (o : CopyOp) (x : Stop) : State :=
  let s := { s with touched := x.read }
  match x with
  | .fault cause addr _ => s.faultCopy cl o cause addr
  | _ =>
    if (s.ctx o.ctx).st = .killing then s.cancelCopy cl o else (s.askStop o.ctx x).putCopy cl { o with page := x.page }

/-! ### The engine's turn (R299) -/

/-- The operation that the engine serves next: cores of the cluster in rotation, the active operations of a queue in
rotation. -/
def State.nextCopy (s : State) (cl : Nat) : Option CopyOp :=
  let k := s.cluster cl
  let ofCore := fun i =>
    let core := cl * Config.coresPerCluster + i
    let act := (s.copyQueue core).take 4
    let last := AMap.getD k.copyLast core 0
    let l := (act.filter fun o => decide (last < o.id)) ++ act.filter fun o => decide (o.id ≤ last)
    l.find? fun o => s.pageBack o.ctx o.page && (o.cancel || !o.full) && o.ending.isNone
      && ((s.ctx o.ctx).st == .active || o.cancel || !o.atBoundary)
  ((List.range Config.coresPerCluster).map fun i => (k.copyTurn + i) % Config.coresPerCluster).findSome? ofCore

/-- What the operation in progress has touched is charged to CE (R300): with every burst issued, the outcome t stands; else t is
discarded, and the operation goes on once the periods have let the rest through. -/
def State.chargeCopy (s : State) (cl : Nat) (o : CopyOp) (t : State) : State :=
  let need := burstsOf t.touched
  let (paid, s1) := s.payBursts true need o.paid
  if Bursts.covered need paid then
    let (_, t) := { t with touched := [] }.payBursts true need o.paid
    t.modCluster cl fun k => { k with copies := k.copies.map fun x => if x.id == o.id then { x with paid := [] } else x }
  else s1.putCopy cl { o with paid := paid }

/-- COPY_CHUNK (R299, R305). The operation of a context that is being saved goes on to the end of its chunk only (R421). -/
def execCopyChunk (cl : Nat) (resp : Resp) (s : State) : Host.Outcome State Fault Refusal :=
  match s.nextCopy cl with
  | none => disabled "COPY_CHUNK"
  | some o =>
    let s := s.modCluster cl fun k => { k with
      copyTurn := (o.core % Config.coresPerCluster + 1) % Config.coresPerCluster, copyLast := AMap.set k.copyLast o.core o.id }
    if o.cancel && o.atBoundary then .next (s.chargeCopy cl o (s.cancelCopy cl o))
    else
      let planned : Except Stop (CopyOp × State) := match o.plan with
        | some _ => .ok (o, s)
        | none => s.copyPlan resp o
      match planned with
      | .error x => .next (s.chargeCopy cl o (s.stopCopy cl o x))
      | .ok (o1, t) =>
        match o1.plan with
        | none => .next s
        | some (d, w) =>
          let (e, o1, errs, t) := t.copyChunk resp { o1 with page := none } d w
          let t := (t.putCopy cl o1).modCluster cl fun k => { k with copyErr := k.copyErr + BitVec.ofNat 64 errs }
          match e with
          | some x => .next (s.chargeCopy cl o (t.stopCopy cl o1 x))
          | none => .next (s.chargeCopy cl o t)

/-- The named completion of an operation whose bytes are all written (R313); none: it waits for room. -/
def State.copyNamed (s : State) (o : CopyOp) : Except Stop (Option State) :=
  match o.ck with
  | 1 => match o.quire with
    | some key => .ok (some (s.happen o.ctx o.order (.deliver o.qcore key o.c.toNat o.written)))
    | none => .ok (some s)
  | 2 => match o.task with
    | some t => if s.det o.ctx || s.taskFits o.ctx t.core t.grid 1 then .ok (some (s.happen o.ctx o.order (.task o.quire t))) else .ok none
    | none => .ok (some s)
  | 3 =>
    match s.engWrite (.ok []) o.ctx o.c.toNat (bytesOfNat 4 0 ++ bytesOfNat 4 (o.written % 2 ^ 32)) with
    | (_, some x, _) => .error x
    | (_, none, s) => .ok (some s)
  | _ => .ok (some s)

/-- COPY_COMPLETE (R313); or the end, still to be written, of an operation that ended short (R314). -/
def execCopyComplete (cl op : Nat) (s : State) : Host.Outcome State Fault Refusal :=
  match (s.cluster cl).copies.find? fun o => o.id == op && (o.ending.isSome || (o.full && !o.cancel && (s.ctx o.ctx).st == .active))
      && s.pageBack o.ctx o.page with
  | none => disabled "COPY_COMPLETE"
  | some o =>
    match o.ending with
    | some (status, h) => .next (s.chargeCopy cl o (s.wordCopy cl o status h))
    | none =>
      match s.copyNamed o with
      | .error x => .next (s.chargeCopy cl o (s.stopCopy cl o x))
      | .ok none => disabled "COPY_COMPLETE"
      | .ok (some t) => .next (s.chargeCopy cl o ((t.dropCopy cl o).finishOp o.ctx o.order 1 o.unit o.seq ⟨1, 0, o.written % 2 ^ 32⟩))

end Sys2Proof.Machine
end

