-- ==== Sys2Proof/Machine/Matrix.lean ====
section
/-!
DEFINITION. Machine/Matrix.lean: MMA, MMAS, MZERO (R324 to R328, R332, R333) and the tile steps of the matrix engine
(R321, R322, R329 to R338).
-/
namespace Sys2Proof.Machine

/-! ### MMA, MMAS, MZERO (R328) -/

/-- The command joins the queue; its handle. -/
def Env.pushMat (e : Env) (d : Operand) (key : Nat) (op : MatOp) : Eff :=
  let cl := clusterOf e.sel.core
  let (seq, s) := e.s.newHandle 2 cl e.sig.ctx
  let s := e.writeHandle s d (handleVal 2 cl e.sig.ctx seq)
  .done (s.modCluster cl fun k => { k with nextId := k.nextId + 1, mats := k.mats ++ [{ op with
    id := k.nextId, unit := cl, core := e.sel.core, ctx := e.sig.ctx, grid := e.sig.grid, quire := key, seq := seq, order := e.orderKey }] })

/-- A command before it has its place. -/
def MatOp.blank (kind : MatKind) : MatOp where
  id := 0
  unit := 0
  kind := kind
  core := 0
  ctx := 0
  grid := 0
  quire := 0
  seq := 0
  n := 0
  acc := false
  g := false
  iv := false
  a := 0
  b := 0
  c := 0
  order := []
  desc := none
  step := 0
  page := none
  cancel := false

/-- The quire of the path with room in its queue, or what happens instead (R320, R328 step 1). -/
def Env.matQuire (e : Env) (k : Nat → Eff) : Eff :=
  match e.sig.quire with
  | none => .trap (trapOf cACCESS)
  | some key => if 16 ≤ (e.s.matQueue (clusterOf e.sel.core) e.sel.core key).length then .stall else k key

/-- The checks of R281 on a point that a control word names. -/
def Env.pointNo (e : Env) (n : Nat) (k : Unit → Eff) : Eff :=
  match e.quire with
  | some q => if q.points.length ≤ n then .trap (trapOf cACCESS)
    else if (q.point n).expect = 0 then .trap (trapOf cOPERAND) else k ()
  | none => .trap (trapOf cACCESS)

/-- Steps 2 to 6 of R328. -/
def matBody (sparse : Bool) (o : Ops4) (m : MmMod) (e : Env) : Eff :=
  e.matQuire fun key =>
    let a := (e.uni o.a).toNat
    let b := (e.uni o.b).toNat
    let c := (e.uni o.c).toNat
    let k := MatCtl.parse c
    let n := 64 * 2 ^ m.nsel.toNat
    let feats := (if k.af = 2 ∧ k.bf = 2 then [1] else []) ++ (if 14 ≤ k.af ∨ 14 ≤ k.bf then [9] else []) ++ (if k.mx then [10] else [])
    if feats.any fun x => !e.s.feat e.sig.ctx x then .trap (trapOf cFEATURE)
    else if 2 ^ 17 ≤ a ∨ !m.g ∧ 2 ^ 19 ≤ b ∨ 2 ^ 51 ≤ c ∨ (!k.rve ∧ k.rvn ≠ 0) ∨ 24 ≤ k.rvn ∨ k.nstep = 0
        ∨ (if sparse then k.nk = 3 else k.nk ≠ 0) ∨ sparse ∧ !sparseOk k.af k.bf k.mx then .trap (trapOf cOPERAND)
    else match MatShape.of c sparse n with
      | none => .trap (trapOf cOPERAND)
      | some p =>
        let push := fun (_ : Unit) => e.pushMat o.d key { MatOp.blank (if sparse then .mmas else .mma) with
          n := n, acc := m.acc, g := m.g, a := e.uni o.a, b := e.uni o.b, c := e.uni o.c }
        if a % 64 ≠ 0 then .trap (trapAt cMISALIGN a)
        else if b % (if m.g then 128 else 64) ≠ 0 then .trap (trapAt cMISALIGN b)
        else if k.coff % 1024 ≠ 0 then .trap (trapAt cMISALIGN k.coff)
        else if (e.reserved 2).2 < a + p.endA then .trap (trapAt cACCESS a)
        else if !m.g ∧ (e.reserved 1).2 < b + p.endB then .trap (trapAt cACCESS b)
        else if (e.reserved 3).2 < k.coff + p.bytesC then .trap (trapAt cACCESS k.coff)
        else if k.rve then e.pointNo k.rvn fun _ => push ()
        else push ()

/-- R328. -/
def execMma (h : Hdr) (o : Ops4) (m : MmMod) : State → Host.Outcome State Fault Refusal :=
  perform h o.list { ok := fun e => e.ops4Ok o hOrZero sPos sPos sPos } noSync (matBody false o m)

/-- R328, R332. -/
def execMmas (h : Hdr) (o : Ops4) (m : MmMod) : State → Host.Outcome State Fault Refusal :=
  perform h o.list { feats := [2], ok := fun e => e.ops4Ok o hOrZero sPos sPos sPos } noSync (matBody true o m)

/-- R328, R334. -/
def execMzero (h : Hdr) (o : Ops4) (m : MzMod) : State → Host.Outcome State Fault Refusal :=
  perform h o.list { ok := fun e => e.ops4Ok o hOrZero sPos uPos unused } noSync fun e =>
    e.matQuire fun key =>
      let a := (e.uni o.a).toNat
      let len := e.u o.b
      if len < 1 ∨ 256 < len then .trap (trapOf cOPERAND)
      else if a % 1024 ≠ 0 then .trap (trapAt cMISALIGN a)
      else if (e.reserved 3).2 < a + 1024 * len then .trap (trapAt cACCESS a)
      else e.pushMat o.d key { MatOp.blank .mzero with iv := m.iv, a := e.uni o.a, b := BitVec.ofNat 64 len }

/-! ### Operands of a step -/

/-- A row of A or a column of B in one step: element codes, block scales, super-scale. -/
structure Slab where
  codes : List Nat
  scales : List Nat
  super : Nat

/-- The codes of w bits in some bytes (R47). -/
def unpackCodes (w n : Nat) (bs : List Byte) : List Nat :=
  let x := natOfBytes bs
  (List.range n).map fun i => x / 2 ^ (w * i) % 2 ^ w

/-- Exact values of a slab, with its scales (R45, R48 to R52). -/
def Slab.values (fmt : Nat) (mx : Bool) (x : Slab) : List XR :=
  x.codes.zipIdx.map fun p =>
    if mx then mxValue fmt p.1 (x.scales.getD (p.2 / 32) 0)
    else if fmt = 14 then q4nValue p.1 (FP32.decode x.super) (x.scales.getD (p.2 / 64) 0)
    else if fmt = 15 then (fmtValue 15 false p.1).mul (BF16.decode (x.scales.getD (p.2 / 128) 0))
    else fmtValue fmt false p.1

/-- Bytes of a local space of the command's quire. -/
def State.matBytes (s : State) (o : MatOp) (space off n : Nat) : List Byte :=
  match s.quire? o.core o.quire with
  | some q => Mem.readN ((s.core o.core).mem.get space) (q.base.get space + off) n
  | none => []

/-- Row m of A in the open step. -/
def State.slabA (s : State) (o : MatOp) (p : MatShape) (m : Nat) : Slab :=
  let a := o.a.toNat
  let r := o.step * 128 + m
  ⟨unpackCodes (fmtBits p.ctl.af) p.ka (s.matBytes o 2 (a + r * p.rowA) p.rowA),
   if p.ctl.mx then (s.matBytes o 2 (a + p.scaleA + r * (p.ks / 32)) (p.ks / 32)).map (·.toNat) else [], 0⟩

/-- Column n of B in the open step, from the W-buffer. -/
def State.slabB (s : State) (o : MatOp) (p : MatShape) (n : Nat) : Slab :=
  let b := o.b.toNat
  let r := o.step * p.n + n
  let codes := unpackCodes (fmtBits p.ctl.bf) p.kept (s.matBytes o 1 (b + r * p.colB) p.colB)
  let sc := b + p.scaleB
  if p.ctl.mx then ⟨codes, (s.matBytes o 1 (sc + r * (p.ks / 32)) (p.ks / 32)).map (·.toNat), 0⟩
  else if p.ctl.bf = 14 then
    ⟨codes, (s.matBytes o 1 (sc + r * (p.ks / 64)) (p.ks / 64)).map (·.toNat),
     natOfBytes (s.matBytes o 1 (b + p.superB + 4 * (o.step * p.ks / 16384 * p.n + n)) 4)⟩
  else if p.ctl.bf = 15 then
    ⟨codes, unpackCodes 16 (p.ks / 128) (s.matBytes o 1 (sc + 2 * (r * (p.ks / 128))) (2 * (p.ks / 128))), 0⟩
  else ⟨codes, [], 0⟩

/-- Column n of B in the open step, streamed (R326, R311). -/
def State.slabStream (resp : Resp) (s : State) (o : MatOp) (p : MatShape) (d : Desc) (n : Nat) : Except Stop (Slab × State) := do
  let k0 := o.step * p.ks
  let (bs, s) ← s.engRead resp readNeed o.ctx (d.base + n * d.str 1 + k0 * fmtBits p.ctl.bf / 8) p.colB
  let codes := unpackCodes (fmtBits p.ctl.bf) p.ks bs
  if d.mx then
    let (sc, s) ← s.engRead resp readNeed o.ctx (d.scale + k0 / 32 + ceilDiv (d.ext 0) 32 * n) (p.ks / 32)
    .ok (⟨codes, sc.map (·.toNat), 0⟩, s)
  else if d.sfmt = 14 then
    let nb := ceilDiv (d.ext 0) 64
    let (sc, s) ← s.engRead resp readNeed o.ctx (d.scale + k0 / 64 + nb * n) (p.ks / 64)
    let (q, s) ← s.engRead resp readNeed o.ctx (d.super + 4 * (k0 / 16384 + ceilDiv nb 256 * n)) 4
    .ok (⟨codes, sc.map (·.toNat), natOfBytes q⟩, s)
  else if d.sfmt = 15 then
    let (sc, s) ← s.engRead resp readNeed o.ctx (d.scale + 2 * (k0 / 128 + ceilDiv (d.ext 0) 128 * n)) (2 * (p.ks / 128))
    .ok (⟨codes, unpackCodes 16 (p.ks / 128) sc, 0⟩, s)
  else .ok (⟨codes, [], 0⟩, s)

def State.slabStreams (resp : Resp) (o : MatOp) (p : MatShape) (d : Desc) : List Nat → State → Except Stop (List Slab × State)
  | [], s => .ok ([], s)
  | n :: r, s => do
    let (x, s) ← s.slabStream resp o p d n
    let (t, s) ← State.slabStreams resp o p d r s
    .ok (x :: t, s)

/-- The checks of R326 on the descriptor. -/
def matDescCheck (p : MatShape) (d : Desc) (bs : List Byte) : Option Nat :=
  if !d.limitsOk bs ∨ d.ulen ≠ 0 ∨ d.ndim ≠ 2 ∨ d.sfmt ≠ p.ctl.bf ∨ d.mx ≠ p.ctl.mx ∨ d.ext 0 < p.ctl.nstep * p.ks
      ∨ d.ext 1 < p.n ∨ !d.scaled then some cOPERAND
  else if !d.aligned then some cMISALIGN
  else none

/-- The descriptor of a streamed command, read once (R326). -/
def State.matDesc (resp : Resp) (s : State) (o : MatOp) (p : MatShape) : Except Stop (MatOp × State) :=
  match o.desc with
  | some _ => .ok (o, s)
  | none => do
    let (bs, s) ← s.engRead resp readNeed o.ctx o.b.toNat 128
    let d := Desc.parse bs
    if (copyFeats d ⟨[], [], 0, 0, false, false, 0, 0, 0⟩).any fun b => !s.feat o.ctx b then .error (s.stop cFEATURE 0)
    else match matDescCheck p d bs with
      | some x => .error (s.stop x 0)
      | none => .ok ({ o with desc := some d }, s)

/-- Every column of B. -/
def State.slabsB (resp : Resp) (s : State) (o : MatOp) (p : MatShape) : Except Stop (List Slab × MatOp × State) :=
  if o.g then do
    let (o, s) ← s.matDesc resp o p
    match o.desc with
    | some d =>
      let (bs, s) ← State.slabStreams resp o p d (List.range p.n) s
      .ok (bs, o, s)
    | none => .ok ([], o, s)
  else .ok ((List.range p.n).map (s.slabB o p), o, s)

/-! ### Sparsity (R332, R333) -/

/-- Indices of the kept elements of column n, in their 128-groups. -/
def State.keptOf (s : State) (o : MatOp) (p : MatShape) (n : Nat) : List Nat :=
  unpackCodes 7 p.kept (s.matBytes o 1 (o.b.toNat + p.scaleB + (o.step * p.n + n) * p.metaBytes) p.metaBytes)

def rising : List Nat → Bool
  | a :: b :: r => decide (a < b) && rising (b :: r)
  | _ => true

/-- Kept elements of a 128-group. -/
def MatShape.perGroup (p : MatShape) : Nat := 16 * 2 ^ p.ctl.nk
def MatShape.keptOk (p : MatShape) (l : List Nat) : Bool := (piecesOf (l.length + 1) p.perGroup l).all rising

/-- The elements of a row of A at the logical positions of the kept elements of a column. -/
def MatShape.pick {α : Type} (p : MatShape) (row : List α) (kept : List Nat) : List α :=
  if p.sparse then kept.zipIdx.filterMap fun x => row[128 * (x.2 / p.perGroup) + x.1]? else row

/-! ### Accumulation (R330, R331) -/

/-- The group sum of R330, as an FP32 code. -/
def groupSum (ps : List XR) : Nat := FP32.encode .rne false false (exactSum .rne ps)

/-- One accumulator through one step. -/
def MatShape.accumulate (p : MatShape) (av bv : List XR) (ac bc : List Nat) (c : Nat) : Nat :=
  match p.rule with
  | .groups g => (piecesOf (av.length + 1) g (av.zipWith XR.mul bv)).foldl (fun c ps =>
      FP32.encode .rne false false ((FP32.decode c).add .rne (FP32.decode (groupSum ps)))) c
  | .fma64 => (av.zip bv).foldl (fun c x => FP64.encode .rne false false (exactSum .rne [x.1.mul x.2, FP64.decode c])) c
  | .ints => (ac.zip bc).foldl (fun (c : Nat) x =>
      let v := fun fmt code => if fmtInt fmt == some true then signedOf (fmtBits fmt) code else (code : Int)
      intCode 32 ((c : Int) + v p.ctl.af x.1 * v p.ctl.bf x.2)) c
  | .intervals => (ac.zip bc).foldl (fun c x =>
      (image32 (FP32.ivFma (boundsOf32 (BitVec.ofNat 64 x.1)) (boundsOf32 (BitVec.ofNat 64 x.2)) (boundsOf32 (BitVec.ofNat 64 c)))).toNat) c

/-- The accumulator that step 0 takes without .acc (R329). -/
def MatShape.zero (p : MatShape) : Nat := if p.rule == .intervals then 2 ^ 31 else 0

def ivCodeOk (x : Nat) : Bool := FP32.ivOk (boundsOf32 (BitVec.ofNat 64 x))

/-- What a step writes: the bytes of the C tile in order, and the format errors; or the fault of the step. -/
def State.tile (s : State) (o : MatOp) (p : MatShape) (bs : List Slab) : Except Stop (List Byte × Nat) :=
  let as := (List.range 128).map (s.slabA o p)
  let fresh := o.step == 0 && !o.acc
  let old := s.matBytes o 3 p.ctl.coff p.bytesC
  let cs := if fresh then List.replicate (128 * p.n) p.zero else unpackCodes (8 * p.accBytes) (128 * p.n) old
  let kept := if p.sparse then (List.range p.n).map (s.keptOf o p) else []
  if p.sparse ∧ kept.any fun l => !p.keptOk l then .error (s.stop cOPERAND 0)
  else if p.rule = .intervals ∧ (as.any (fun x => x.codes.any fun v => !ivCodeOk v) ∨ bs.any (fun x => x.codes.any fun v => !ivCodeOk v)
      ∨ cs.any fun v => !ivCodeOk v) then .error (s.stop cEMPTY 0)
  else
    let av := as.map fun x => (x.codes, x.values p.ctl.af p.ctl.mx)
    let cols := bs.zipIdx.map fun x => (x.1.codes, x.1.values p.ctl.bf p.ctl.mx, kept.getD x.2 [])
    let one := fun (r : List Nat × List XR) (c : List Nat × List XR × List Nat) (old : Nat) =>
      p.accumulate (p.pick r.2 c.2.2) c.2.1 (p.pick r.1 c.2.2) c.1 old
    let out := ((av.flatMap fun r => cols.map fun c => (r, c)).zip cs).flatMap fun x => bytesOfNat p.accBytes (one x.1.1 x.1.2 x.2)
    let errs := if p.ctl.bf = 15 then bs.foldl (fun n x => n + (x.codes.filter (· == 3)).length) 0 else 0
    .ok (out, errs)

/-! ### The engine's turn (R321) -/

/-- The head commands of the cluster's queues, by core and placement order. -/
def State.matHeads (s : State) (cl : Nat) : List MatOp :=
  let mats := (s.cluster cl).mats
  let heads := mats.filter fun o => match mats.find? fun x => x.core == o.core && x.quire == o.quire with
    | some x => x.id == o.id
    | none => false
  let cores := (List.range Config.coresPerCluster).map (cl * Config.coresPerCluster + ·)
  cores.flatMap fun c =>
    let l := heads.filter fun o => o.core == c
    (l.foldl (fun a o => insertNat a o.quire) []).flatMap fun k => l.filter fun o => o.quire == k

/-- The command that the engine serves next. -/
def State.nextMat (s : State) (cl : Nat) : Option MatOp :=
  let l := (s.matHeads cl).filter fun o => s.pageBack o.ctx o.page && (s.ctx o.ctx).st == .active
  let (c, k) := (s.cluster cl).matTurn
  (l.find? fun o => decide (c < o.core) || (c == o.core && decide (k < o.quire))).orElse fun _ => l.head?

def State.putMat (s : State) (cl : Nat) (o : MatOp) : State :=
  s.modCluster cl fun k => { k with mats := k.mats.map fun x => if x.id == o.id then o else x }
def State.dropMat (s : State) (cl : Nat) (o : MatOp) : State :=
  s.modCluster cl fun k => { k with mats := k.mats.filter fun x => x.id != o.id }

/-- The command is cancelled at a step boundary (R338). -/
def State.cancelMat (s : State) (cl : Nat) (o : MatOp) : State :=
  (s.dropMat cl o).finishOp o.ctx o.order 2 o.unit o.seq ⟨2, 0, o.step⟩

/-- The command faults (R337). -/
def State.faultMat (s : State) (cl : Nat) (o : MatOp) (cause addr : Nat) : State :=
  let s := (s.dropMat cl o).log o.ctx { source := 5, cause := cause, core := o.core, grid := o.grid
                                        quire := s.qixOf o.core (some o.quire), handle := handleVal 2 o.unit o.ctx o.seq
                                        addr := BitVec.ofNat 64 addr, aux0 := BitVec.ofNat 64 o.step }
  s.finishOp o.ctx o.order 2 o.unit o.seq ⟨3, cause, o.step⟩

/-- The command stops at a fault or waits for a page (R336); it has touched what the stop says. -/
def State.stopMat (s : State) (cl : Nat) (o : MatOp) (x : Stop) : State :=
  let s := { s with touched := x.read }
  match x with
  | .fault cause addr _ => s.faultMat cl o cause addr
  | _ => (s.askStop o.ctx x).putMat cl { o with page := x.page }

/-- The turn passes to the queue after this one. -/
def State.turnMat (s : State) (cl : Nat) (o : MatOp) : State :=
  s.modCluster cl fun k => { k with matTurn := (o.core, o.quire) }

/-- The command completes (R335). -/
def State.completeMat (s : State) (cl : Nat) (o : MatOp) (p : MatShape) : State :=
  let s := if p.ctl.rve then s.happen o.ctx o.order (.deliver o.core o.quire p.ctl.rvn p.bytesC) else s
  (s.dropMat cl o).finishOp o.ctx o.order 2 o.unit o.seq ⟨1, 0, p.ctl.nstep⟩

/-- Bytes written to the C-buffer of the command's quire; undefined ones where a thread's store has raced (R232). -/
def State.writeTile (s : State) (o : MatOp) (off : Nat) (bs : List Byte) : State :=
  let (bs, s) := s.spoil o.raced bs
  match s.quire? o.core o.quire with
  | some q => s.localWrite o.core 3 (q.base.cb + off) bs
  | none => s

/-- The local bytes that the open step reads: the space, the offset in the quire's reservation, the length. -/
def MatShape.stepReads (p : MatShape) (o : MatOp) : List (Nat × Nat × Nat) :=
  let a := o.a.toNat
  let b := o.b.toNat
  let k := o.step
  let part := fun (space off n : Nat) => (space, off + k * n, n)
  [part 2 a (128 * p.rowA)] ++ (if p.ctl.mx then [part 2 (a + p.scaleA) (128 * (p.ks / 32))] else [])
    ++ (if o.g then [] else
      [part 1 b (p.n * p.colB)]
      ++ if p.sparse then [part 1 (b + p.scaleB) (p.n * p.metaBytes)]
         else if p.ctl.mx then [part 1 (b + p.scaleB) (p.n * (p.ks / 32))]
         else if p.ctl.bf = 14 then [part 1 (b + p.scaleB) (p.n * (p.ks / 64)), (1, b + p.superB + 4 * (k * p.ks / 16384 * p.n), 4 * p.n)]
         else if p.ctl.bf = 15 then [part 1 (b + p.scaleB) (2 * (p.n * (p.ks / 128)))]
         else [])
    ++ if k = 0 ∧ !o.acc then [] else [(3, p.ctl.coff, p.bytesC)]

/-- An uncorrectable soft error lies in an operand or an accumulator of the open step (R337). -/
def State.stepSpoiled (s : State) (o : MatOp) (p : MatShape) : Bool :=
  match s.quire? o.core o.quire with
  | some q => (p.stepReads o).any fun x => x.2.2 != 0 && s.localSpoiled o.core x.1 (q.base.get x.1 + x.2.1) x.2.2
  | none => false

/-- One tile step (R329). The descriptor, once read, stays with the command also where the step stops (R326). -/
def State.stepMat (s : State) (cl : Nat) (resp : Resp) (o : MatOp) (p : MatShape) : State :=
  match (if o.g then s.matDesc resp o p else .ok (o, s)) with
  | .error x => s.stopMat cl o x
  | .ok (o, s) => match s.slabsB resp o p with
    | .error x => s.stopMat cl o x
    | .ok (bs, o, s) => if resp == .ecc ∨ s.stepSpoiled o p then s.faultMat cl o cECC 0 else match s.tile o p bs with
      | .error x => s.stopMat cl o x
      | .ok (out, errs) =>
        let s := (s.writeTile o p.ctl.coff out).modCluster cl fun k => { k with matErr := k.matErr + BitVec.ofNat 64 errs }
        let o := { o with step := o.step + 1, page := none }
        if o.cancel then s.cancelMat cl o
        else if o.step = p.ctl.nstep then s.completeMat cl o p
        else s.putMat cl o

/-- What the step has read is charged to CD (R259), as for a copy. -/
def State.chargeMat (s : State) (cl : Nat) (o : MatOp) (t : State) : State :=
  let need := burstsOf t.touched
  let (paid, s1) := s.payBursts false need o.paid
  if Bursts.covered need paid then
    let (_, t) := { t with touched := [] }.payBursts false need o.paid
    t.modCluster cl fun k => { k with mats := k.mats.map fun x => if x.id == o.id then { x with paid := [] } else x }
  else s1.putMat cl { o with paid := paid }

/-- TILE_STEP (R329). -/
def execTileStep (cl : Nat) (resp : Resp) (s : State) : Host.Outcome State Fault Refusal :=
  match s.nextMat cl with
  | none => disabled "TILE_STEP"
  | some o =>
    match o.kind, MatShape.of o.c.toNat (o.kind == .mmas) o.n with
    | .mzero, _ => disabled "TILE_STEP"
    | _, none => disabled "TILE_STEP"
    | _, some p =>
      let s := s.turnMat cl o
      .next (s.chargeMat cl o (s.stepMat cl resp o p))

/-- MZERO_EXECUTE (R334). -/
def execMzeroExecute (cl : Nat) (s : State) : Host.Outcome State Fault Refusal :=
  match s.nextMat cl with
  | none => disabled "MZERO_EXECUTE"
  | some o =>
    match o.kind with
    | .mzero =>
      let unit := bytesOfNat 8 (if o.iv then 2 ^ 31 else 0)
      let bs := (List.replicate (128 * o.b.toNat) unit).flatten
      let s := (s.turnMat cl o).writeTile o o.a.toNat bs
      .next ((s.dropMat cl o).finishOp o.ctx o.order 2 o.unit o.seq ⟨1, 0, 1⟩)
    | _ => disabled "MZERO_EXECUTE"

end Sys2Proof.Machine
end

