-- ==== Sys2Proof/Machine/Images.lean ====
section
/-!
DEFINITION. Machine/Images.lean: record images (R150 to R153), the check that a restore makes (R154), events for images
in memory (R144, R148).
-/
namespace Sys2Proof.Machine

/-! ### Sections of an image (R152, R153) -/

/-- The stack position of a nest's join entry. -/
def nestPos (st : List StackEntry) (nest : Nat) : Nat := (st.findIdx? fun x => x.join && x.id == nest).getD 0

/-- A path-stack entry (R153). -/
def StackEntry.image (st : List StackEntry) (x : StackEntry) : List Byte :=
  bytesOfNat 1 (if x.join then 1 else 2) ++ bytesOfNat 1 (if x.join then x.count else 0) ++ bytesOfNat 1 x.pidx
    ++ bytesOfNat 1 (nestPos st (if x.join then x.id else x.nest)) ++ bytesOfNat 4 0
    ++ bytesOfNat 8 (if x.join then 0 else x.pc.toNat) ++ bytesOfNat 16 x.mask.toNat

/-- The predicate block: two bits a lane; `free` gives the codes of lanes in no path's mask. -/
def predImage (m : Mask) (p : PredRow) (free : Nat) : List Byte :=
  (List.range 32).map fun i => BitVec.ofNat 8 ((List.range 4).foldl (fun a j =>
    let l := 4 * i + j
    a + (if m.getLsbD l then Tri.code (p[l]?.getD .f) else (Config.freeByte (free + l)).toNat % 4) * 4 ^ j) 0)

/-- A v register: `free` gives the values of lanes in no path's mask. -/
def regImage (m : Mask) (r : Row) (free : Nat) : List Byte :=
  (List.range 128).flatMap fun l => bytesOfNat 8 (if m.getLsbD l then (r[l]?.getD 0) else Config.freeWord (free + l)).toNat

def padImage (n : Nat) (bs : List Byte) : List Byte := bs ++ List.replicate (alignUp bs.length n - bs.length) 0

/-- The sections after the header of a primary record; lv: v registers written. Draws 128 values a register. -/
def Sig.body (g : Sig) (m : Mask) (lv free : Nat) : List Byte :=
  let n := nunif g.s
  let head := ((List.range 8).flatMap fun j => predImage m (g.preg j) (free + 128 * j))
    ++ ((List.range n).flatMap fun i => bytesOfNat 8 (g.sreg i).toNat)
    ++ ((List.range 4).flatMap fun i => let x := g.k[i]?.getD (0, 0); bytesOfNat 8 x.1 ++ bytesOfNat 8 x.2)
    ++ ((List.range 16).flatMap fun i => bytesOfNat 8 (g.hreg i).toNat)
    ++ g.stack.flatMap (StackEntry.image g.stack)
  padImage 64 head ++ (List.range lv).flatMap fun i => regImage m (g.reg i) (free + 1024 + 128 * i)

/-- The images of one signature from an address on: primary first; address and bytes of each, and the address after. -/
def sigImages (g : Sig) (rs : List Record) (base free : Nat) : List (Nat × Nat × List Byte) × Nat :=
  match leastBy' rs with
  | none => ([], base)
  | some r0 =>
    let m := rs.foldl (fun a r => a ||| r.mask) 0
    let lv := rs.foldl (fun a r => max a r.lb) 0
    let main := r0.header g true 0 ++ g.body m lv free
    let next := base + alignUp main.length 64
    (rs.filter fun r => r.pseq != r0.pseq).foldl (fun (a : List (Nat × Nat × List Byte) × Nat) r =>
      (a.1 ++ [(r.pseq, a.2, r.header g false ((base : Int) - a.2))], a.2 + 128)) ([(r0.pseq, base, main)], next)
where
  /-- The record of the lowest path index. -/
  leastBy' : List Record → Option Record
    | [] => none
    | r :: rs => match leastBy' rs with
      | some x => if x.pidx < r.pidx then some x else some r
      | none => some r

/-- The images of a stored quire from an address on, the addresses by PSEQ, and the address after. -/
def StoredQuire.images (q : StoredQuire) (base free : Nat) : List (Nat × List Byte) × AMap Nat × Nat :=
  q.sigs.foldl (fun (a : List (Nat × List Byte) × AMap Nat × Nat) (x : Nat × Sig) =>
    let (l, next) := sigImages x.2 (q.records.filter fun r => r.slot == x.1) a.2.2 (free + 40000 * x.1)
    (a.1 ++ l.map (·.2), l.foldl (fun m i => AMap.set m i.1 i.2.1) a.2.1, next)) ([], [], base)

/-- Free values that the images of a quire may use. -/
def imageDraws : Nat := 40000 * 64

/-! ### Images in memory -/

/-- Bytes of an image in the context's memory, or in HBM by physical address. -/
def State.imageRead (s : State) (ctx : Nat) (phys : Bool) (a n : Nat) : Except AreaErr (List Byte) :=
  (if phys then s.physRead (n / 4096 + 2) a n else s.areaRead ctx a n).map (·.1)

def State.imageWrite (s : State) (ctx : Nat) (phys : Bool) (a : Nat) (bs : List Byte) : Except AreaErr State :=
  if phys then s.physWrite (bs.length / 4096 + 2) a bs else s.areaWrite ctx a bs

/-- What an event changes in a header that lies in memory (R144, R148): STATE, FAULT, RESUME, EVKEY, EVAUX, READYORD. An area that
cannot be reached kills the context (R411). -/
def State.imageReady (s : State) (ctx : Nat) (phys : Bool) (a : Nat) (r : Record) : State :=
  if (s.ctx ctx).st = .killing then s else
  let done : Except AreaErr State := do
    let b ← s.imageRead ctx phys (a + 2) 1
    if b = [2] then .ok s
    else
      let s ← s.imageWrite ctx phys (a + 0x0B) (bytesOfNat 1 r.fault)
      let s ← s.imageWrite ctx phys (a + 0x10) (bytesOfNat 8 r.resume.toNat)
      let s ← s.imageWrite ctx phys (a + 0x40) (bytesOfNat 8 r.evkey.toNat ++ bytesOfNat 8 r.evaux.toNat)
      let s ← s.imageWrite ctx phys (a + 0x78) (bytesOfNat 8 r.readyord)
      s.imageWrite ctx phys (a + 2) (bytesOfNat 1 2)
  match done with
  | .ok s => s
  | .error c => s.areaLost ctx c { source := 2, addr := BitVec.ofNat 64 a }

/-- Events are applied to the images of a context: headers that spilled, images of evicted and of saved records. DESIGN CHOICE
(log entry 65): headers that spilled are looked for at the COVBASE of the moment. -/
def State.settleImages (s : State) (ctx : Nat) : State :=
  let spilled := (s.coresOf ctx).flatMap fun n => (s.core n).records.filterMap fun r =>
    if r.ready && r.inMem then r.spill.map fun i => (false, s.regN ctx rCOVBASE + 128 * i, r) else none
  let ofQuire := fun (q : StoredQuire) => q.records.filterMap fun r =>
    if r.ready then (AMap.get? q.imgs r.pseq).map fun a => (q.phys, a, r) else none
  let x := s.ctx ctx
  let kept := (x.stored.flatMap fun g => g.quires.flatMap ofQuire)
    ++ (match x.saved with | some v => (v.gangs.flatMap fun g => g.quires.flatMap ofQuire) ++ v.waves.flatMap ofQuire | none => [])
  (spilled ++ kept).foldl (fun (s : State) (i : Bool × Nat × Record) => s.imageReady ctx i.1 i.2.1 i.2.2) s

/-! ### The check of R154 -/

/-- EVKEY and EVAUX hold what R141 gives the reason; those of a load that relaunches with EMPTY hold its lanes (R222). -/
def eventOk (reason fault key aux : Nat) : Bool :=
  fault == cEMPTY || (match reason with
    | 0x01 => aux == 0
    | 0x02 => aux == 0
    | 0x03 => key % 2 ^ 18 == 0
    | 0x04 => aux == 0
    | 0x05 => decide (key < Config.nCores) && aux == 0
    | 0x06 => decide (key ≤ 4) && aux == 0
    | 0x07 => decide (key < 24)
    | 0x08 => decide (aux < 2 ^ 32)
    | 0x09 => aux == 0
    | 0x0A => decide (key < 12) && decide (aux < 2)
    | 0x0B => decide (key < 32) && aux == 0
    | 0x0D => decide (key < 16) && aux == 0
    | 0x0F => decide (aux ≤ 248)
    | 0x10 => decide (key < 4) && decide (1 ≤ aux) && decide (aux ≤ 0x1A)
    | _ => key == 0 && aux == 0)

/-- A header is in order: VERSION, reserved fields and codes, ranges, PRIMOFF; LOADDESC is zero unless REASON is LOAD (R151). -/
def headerOk (bs : List Byte) : Bool :=
  let f := field bs
  f 0 2 == 1 && (f 2 1 == 1 || f 2 1 == 2) && decide (1 ≤ f 3 1) && decide (f 3 1 ≤ 0x11) && decide (f 4 1 ≤ 32) && decide (f 5 1 ≤ 64)
    && decide (f 6 2 ≤ 256) && decide (f 8 2 ≤ 256) && decide (f 0xA 1 < 16) && decide (f 0xA 1 % 4 < 3) && decide (f 0xB 1 ≤ 0x1A)
    && decide (f 0xC 2 < Config.nCores) && decide (f 0xE 1 < 4) && (decide (f 0xF 1 < 16) || f 0xF 1 == 0xFF)
    && pcValid (BitVec.ofNat 64 (f 0x10 8)) && decide (f 0x28 2 < 1024) && f 0x2A 2 == 0
    && (f 0xA 1 / 4 % 2 == 0 || f 0x2C 4 == 0) && eventOk (f 3 1) (f 0xB 1) (f 0x40 8) (f 0x48 8)
    && (if f 3 1 == 1 then decide (f 0x62 1 ≤ 4) && decide (f 0x63 1 < 8) && f 0x64 4 == 0 else f 0x60 16 == 0)

/-- A path-stack entry is in order. -/
def entryOk (depth : Nat) (bs : List Byte) : Bool :=
  let f := field bs
  (f 0 1 == 1 || f 0 1 == 2) && (if f 0 1 == 1 then decide (1 ≤ f 1 1) && decide (f 1 1 ≤ 3) && f 8 8 == 0 else f 1 1 == 0)
    && decide (f 2 1 ≤ 2) && decide (f 3 1 < depth) && f 4 4 == 0

/-- The image of a record at an address passes the check; `prim` is where the primary record of its signature lies, which any
other header must reach. -/
def State.imageOk (s : State) (ctx : Nat) (phys : Bool) (prim a : Nat) : Except AreaErr Bool := do
  let hd ← s.imageRead ctx phys a 128
  let primary := field hd 0xA 1 / 4 % 2 == 1
  let off := (BitVec.ofNat 32 (field hd 0x2C 4)).toInt
  let depth := field hd 4 1
  if !(headerOk hd && (if primary then a == prim else (a : Int) + off == (prim : Int))) then .ok false
  else if !primary then .ok true
  else do
    let st ← s.imageRead ctx phys (a + 0x180 + 8 * field hd 5 1 + 192) (32 * depth)
    .ok ((List.range depth).all fun i => entryOk depth ((st.drop (32 * i)).take 32))

/-- Every image of a stored quire passes. -/
def State.quireImagesOk (s : State) (ctx : Nat) (q : StoredQuire) : Except AreaErr Bool :=
  let heads := q.sigs.flatMap fun (x : Nat × Sig) =>
    let rs := q.records.filter fun r => r.slot == x.1
    match (sigImages.leastBy' rs).bind fun r => AMap.get? q.imgs r.pseq with
    | some prim => rs.filterMap fun r => (AMap.get? q.imgs r.pseq).map fun a => (prim, a)
    | none => []
  heads.foldlM (fun ok x => if ok then s.imageOk ctx q.phys x.1 x.2 else .ok false) true

end Sys2Proof.Machine
end

