-- ==== Sys2Proof/Machine/Launch.lean ====
section
/-!
DEFINITION. Machine/Launch.lean: launch blocks (R64 to R66), grids and their retirement (R63), device queues (R168), host
queues (R433, R437).
-/
namespace Sys2Proof.Machine

/-! ### The block (R64, R65) -/

def Role.parse (bs : List Byte) : Role := ⟨field bs 0 8, field bs 8 2, field bs 0xA 1⟩

def Launch.parse (bs : List Byte) : Launch where
  prio := field bs 2 1
  det := field bs 3 1 % 2 == 1
  depth := field bs 4 1
  gang := field bs 5 1
  rvpoints := field bs 7 1
  x := field bs 8 4
  y := field bs 0xC 4
  z := field bs 0x10 4
  size := ⟨field bs 0x14 4, field bs 0x18 4, field bs 0x1C 4, field bs 0x20 4⟩
  param := field bs 0x28 8
  tasktab := field bs 0x30 8
  done := field bs 0x38 8
  roles := (List.range (field bs 6 1)).map fun i => Role.parse ((bs.drop (0x40 + 16 * i)).take 16)
  syncpg := (List.range 8).map fun i => field bs (0x80 + 8 * i) 8

def Launch.quires (b : Launch) : Nat := b.x * b.y * b.z
def Launch.gangs (b : Launch) : Nat := (b.quires + b.gang - 1) / b.gang
/-- Signature-registers and slots of one quire (R68). -/
def Launch.regs (b : Launch) : Nat := b.roles.foldl (fun a r => a + r.regs * r.sigs) 0
def Launch.slots (b : Launch) : Nat := b.roles.foldl (fun a r => a + r.sigs) 0

def bufOk (n most : Nat) : Bool := n % 1024 == 0 && decide (n ≤ most)

/-- The limits of R64 and R65, reserved fields zero, needs within the capacities of R67. -/
def Launch.limitsOk (b : Launch) (bs : List Byte) (host : Bool) : Bool :=
  let n := field bs 6 1
  field bs 0 2 == 1 && decide (b.prio ≤ 3) && decide (field bs 3 1 ≤ 1) && (!host || b.depth == 0)
    && decide (1 ≤ b.gang) && decide (b.gang ≤ 12) && decide (1 ≤ n) && decide (n ≤ 4) && decide (b.rvpoints ≤ 24)
    && decide (1 ≤ b.quires) && decide (b.quires ≤ 2 ^ 40)
    && bufOk b.size.lm 262144 && bufOk b.size.wb 524288 && bufOk b.size.ab 131072 && bufOk b.size.cb 262144
    && field bs 0x24 4 == 0 && b.param % 64 == 0 && b.tasktab % 4096 == 0 && b.done % 8 == 0
    && b.roles.zipIdx.all (fun r => pcValid (BitVec.ofNat 64 r.1.entry) && r.1.regs % 8 == 0 && decide (8 ≤ r.1.regs)
        && decide (r.1.regs ≤ 256) && decide (1 ≤ r.1.sigs) && decide (r.1.sigs ≤ 16) && field bs (0x40 + 16 * r.2 + 0xB) 5 == 0)
    && field bs (0x40 + 16 * n) (16 * (4 - n)) == 0 && decide (b.slots ≤ 16) && decide (b.regs ≤ 1024)
    && b.syncpg.all (fun a => a % 2 ^ 18 == 0) && field bs 0xC0 64 == 0

/-- Pages of SYNCPG are made resident (R64); false where one is no SYNC page or its fill fails. -/
def State.syncPages (s : State) (ctx : Nat) : List Nat → Bool × State
  | [] => (true, s)
  | a :: r =>
    if a = 0 then s.syncPages ctx r
    else match s.walk ctx a with
      | none => (false, s)
      | some l =>
        if !l.sync || decide (2 ^ 54 ≤ a) then (false, s)
        else
          let (resp, s) := if l.res then (Resp.ok [], s) else s.fillResp
          match fillPage s.fillDepth s ctx a resp with
          | .done s => (match s.walk ctx a with
            | some l => if l.sync && l.res then s.syncPages ctx r else (false, s)
            | none => (false, s))
          | .failed s es lost => (false, s.fillFailed ctx es lost)

/-- The checks of R66 on a block; the block when it passes. -/
def State.checkBlock (s : State) (ctx : Nat) (bs : List Byte) (host : Bool) : Option Launch × State :=
  let b := Launch.parse bs
  if !b.limitsOk bs host || b.det != s.det ctx then (none, s)
  else match s.syncPages ctx b.syncpg with
    | (true, s) => (some b, s)
    | (false, s) => (none, s)

/-! ### Launching and refusing -/

/-- The word at DONE (R63): it needs W, and its page is no SYNC page; a non-resident page is filled first. -/
def State.writeDone (s : State) (ctx done : Nat) (word : Nat) : Except AreaErr State :=
  if 2 ^ 54 ≤ done then .error ⟨cACCESS, []⟩ else s.areaPut { w := true, noSync := true } ctx done (bytesOfNat 8 word)

/-- A new grid, whose gangs are pending. `queue`: as fault records name it. -/
def State.addGrid (s : State) (ctx : Nat) (b : Launch) (m : Option QMeta) (hostq : Option Nat) (queue : Nat) : State :=
  let g : Grid := {
    id := (s.ctx ctx).nextGrid, blk := b, parent := m.map (·.parent), child := m.bind (·.child), dorder := (m.map (·.order)).getD []
    hostq := hostq, order := s.launches, started := 0, quiresDone := 0, killed := 0, status := 0, cancelled := false, queue := queue }
  { s.expireGrids ctx with launches := s.launches + 1 }.modCtx ctx fun c => { c with grids := AMap.set c.grids g.id g, nextGrid := c.nextGrid + 1 }

/-- A refused block (R66): its status at DONE, the record, the handle. Nothing where the context has been killed meanwhile
(R411). -/
def State.refuseBlock (s : State) (ctx : Nat) (done addr queue : Nat) (m : Option QMeta) : State :=
  if (s.ctx ctx).st = .killing then s else
  let s := if done = 0 ∨ done % 8 ≠ 0 then s else match s.writeDone ctx done 0xFFFFFFFF with
    | .ok s => s
    | .error e => s.logFills ctx e.fills
  let s := s.log ctx { source := 2, cause := cOPERAND, addr := BitVec.ofNat 64 addr, aux0 := BitVec.ofNat 64 queue }
  match m with
  | some m => match m.child with
    | some q => s.happen ctx m.order (.handle 5 0 q 1 0 0xFFFFFFFF)
    | none => s
  | none => s

/-! ### Device queues (R168) -/

/-- The queue whose turn it is: the first from `devTurn` on that holds a block. -/
def Ctx.nextQueue (x : Ctx) : Option Nat :=
  let holds := fun q => decide (0 < (AMap.getD x.devq q DevQ.init).len)
  ((List.range 16).map fun i => (x.devTurn + i) % 16).find? holds

/-- A block leaves queue q; the oldest block of its overflow enters. -/
def State.advanceQueue (s : State) (ctx q : Nat) : State :=
  let d := AMap.getD (s.ctx ctx).devq q DevQ.init
  let d1 := { d with head := d.head + 1, len := d.len - 1, info := d.info.drop 1 }
  let put := fun (s : State) (d : DevQ) => s.modCtx ctx fun c => { c with devq := AMap.set c.devq q d, devTurn := (q + 1) % 16 }
  if d1.olen = 0 then put s d1
  else match s.areaRead ctx (s.overflowAddr ctx q d1.ohead) 256 with
    | .error c => s.areaLost ctx c { source := 2, addr := BitVec.ofNat 64 (s.overflowAddr ctx q d1.ohead), aux0 := BitVec.ofNat 64 q }
    | .ok (bs, s) => match s.areaWrite ctx (s.queueAddr ctx q (d1.head + d1.len)) bs with
      | .error c => s.areaLost ctx c { source := 2, addr := BitVec.ofNat 64 (s.queueAddr ctx q (d1.head + d1.len)), aux0 := BitVec.ofNat 64 q }
      | .ok s => put s { d1 with len := d1.len + 1, ohead := d1.ohead + 1, olen := d1.olen - 1 }

/-- DEVICE_QUEUE_TAKE (R66, R168). A block whose grid was cancelled in the queue is dropped; its
handle is CANCELLED (R158). -/
def execDeviceQueueTake (ctx q : Nat) (s : State) : Host.Outcome State Fault Refusal :=
  let x := s.ctx ctx
  let d := AMap.getD x.devq q DevQ.init
  if x.st ≠ .active ∨ x.nextQueue ≠ some q then disabled "DEVICE_QUEUE_TAKE"
  else
    let addr := s.queueAddr ctx q d.head
    match s.areaRead ctx addr 256 with
    | .error c => .next (s.areaLost ctx c { source := 2, addr := BitVec.ofNat 64 addr, aux0 := BitVec.ofNat 64 q })
    | .ok (bs, s) =>
      let m := d.info.headD ⟨0, none, [], false⟩
      let s := s.advanceQueue ctx q
      if m.dead then .next (match m.child with
        | some h => s.happen ctx m.order (.handle 5 0 h 2 0 0)
        | none => s)
      else match s.checkBlock ctx bs false with
        | (some b, s) => .next (s.addGrid ctx b (some m) none q)
        | (none, s) => .next (s.refuseBlock ctx (field bs 0x38 8) addr q (some m))

/-! ### Host queues (R433) -/

/-- The block at the read count is read, reported in the head word, checked and handed on. -/
def State.readRing (s : State) (ctx q : Nat) (h : HostQ) : State :=
  let addr := h.ring + 256 * (h.read % h.entries)
  let lost := fun (s : State) (c : AreaErr) (a : Nat) =>
    s.areaLost ctx c { source := 2, addr := BitVec.ofNat 64 a, aux0 := BitVec.ofNat 64 (0x100 + q) }
  match s.areaRead ctx addr 256 with
  | .error c => lost s c addr
  | .ok (bs, s) =>
    let read := (h.read + 1) % 2 ^ 64
    match s.areaWrite ctx h.head (bytesOfNat 8 read) with
    | .error c => lost s c h.head
    | .ok s =>
      let set := fun (s : State) (busy : Bool) =>
        s.modCtx ctx fun c => { c with hostq := AMap.mod c.hostq q fun h => { h with read := read, busy := busy } }
      match s.checkBlock ctx bs true with
      | (some b, s) => (set s true).addGrid ctx b none (some q) (0x100 + q)
      | (none, s) => (set s false).refuseBlock ctx (field bs 0x38 8) addr (0x100 + q) none

/-- The firmware hands on the blocks that are available: in SERIAL mode one at a time. -/
def State.pumpQueue (fuel : Nat) (s : State) (ctx q : Nat) : State :=
  match fuel with
  | 0 => s
  | fuel + 1 =>
    match AMap.get? (s.ctx ctx).hostq q with
    | none => s
    | some h =>
      if (s.ctx ctx).st ≠ .active ∨ h.read = h.tail ∨ h.serial ∧ h.busy then s
      else (s.readRing ctx q h).pumpQueue fuel ctx q

/-- Every host queue of a context. -/
def State.pumpQueues (s : State) (ctx : Nat) : State :=
  (AMap.keys (s.ctx ctx).hostq).foldl (fun (s : State) q => s.pumpQueue 65537 ctx q) s

/-- The ordering lock of a host queue (R437). -/
def queueLock (ctx q : Nat) : Nat := (4 * ctx + q) % 64

/-- A command that has not finished holds an ordering lock (R437). -/
def State.lockBusy (s : State) (lock : Nat) : Bool :=
  s.funcs.any fun (f : Nat × Func) => f.1 % 64 == lock && f.2.busy.isSome

/-- HOST_DOORBELL (R429, R433). A context that is neither ACTIVE nor about to be keeps the tail; a queue that QSET has not set
has no entries. -/
def execHostDoorbell (fn ctx q : Nat) (tail : Word64) (s : State) : Host.Outcome State Fault Refusal :=
  let x := s.ctx ctx
  if 1024 ≤ ctx ∨ 4 ≤ q ∨ s.lockBusy (queueLock ctx q) then disabled "HOST_DOORBELL"
  else if x.owner ≠ fn ∨ x.st = .undefined ∨ x.st = .killing then .next s
  else
    let h := AMap.getD x.hostq q ⟨0, 0, false, 0, 0, 0, false⟩
    let ahead := fun n => (n + 2 ^ 64 - h.read) % 2 ^ 64
    if h.entries < ahead tail.toNat ∨ ahead tail.toNat < ahead h.tail then
      .next (s.log ctx { source := 2, cause := cOPERAND, aux0 := BitVec.ofNat 64 (0x100 + q) })
    else
      .next ((s.modCtx ctx fun c => { c with hostq := AMap.mod c.hostq q fun h => { h with tail := tail.toNat } }).pumpQueue 65537 ctx q)

/-- SERIAL_QUEUE_RETIRE (R433, R437). -/
def execSerialQueueRetire (ctx q : Nat) (s : State) : Host.Outcome State Fault Refusal :=
  match AMap.get? (s.ctx ctx).hostq q with
  | some h =>
    if !s.lockBusy (queueLock ctx q) ∧ (s.ctx ctx).st = .active ∧ h.serial ∧ !h.busy ∧ h.read ≠ h.tail then .next (s.pumpQueue 1 ctx q)
    else disabled "SERIAL_QUEUE_RETIRE"
  | none => disabled "SERIAL_QUEUE_RETIRE"

/-! ### Retirement of quires and grids (R63, R73) -/

/-- The last signature of a quire has exited and no engine operation targets its LM or buffers; of a killed one, none is left
(R73). -/
def State.quireOver (s : State) (core key : Nat) (q : Quire) : Bool :=
  q.slots.all (fun sl => (s.sig? core sl).isNone) && !(if q.killed then s.quireBusy core key else s.quireTargeted core key)

/-- QUIRE_RETIRE (R73); a killed quire has been counted. -/
def execQuireRetire (core key : Nat) (s : State) : Host.Outcome State Fault Refusal :=
  match s.quire? core key, (s.core core).ctx with
  | some q, some ctx =>
    if s.quireOver core key q then
      .next ((s.modCore core fun k => { k with quires := AMap.del k.quires key }).modGrid ctx q.grid fun g =>
        { g with quiresDone := g.quiresDone + (if q.killed then 0 else 1) })
    else disabled "QUIRE_RETIRE"
  | _, _ => disabled "QUIRE_RETIRE"

/-- Grids of the tasks in a core's ring (R162). -/
def State.ringGrids (s : State) (ctx core : Nat) : List Nat :=
  let k := s.core core
  (List.range k.ringLen).filterMap fun i => match s.areaRead ctx (s.ringAddr ctx core (k.ringHead + i) + 8) 8 with
    | .ok (bs, _) => some (natOfBytes bs)
    | .error _ => none

/-- Tasks and task waves of a grid. -/
def State.gridTasks (s : State) (ctx g : Nat) : Bool :=
  (s.coresOf ctx).any (fun n =>
    let k := s.core n
    k.pool.any (fun t => t.grid == g) || (s.ringGrids ctx n).contains g
      || (AMap.vals k.sigs).any fun x => x.quire.isNone && x.grid == g)
    || (s.ctx ctx).events.any fun e => match e.2 with | .task _ t => t.grid == g | _ => false

/-- Engine operations and outstanding accesses of a grid (R63, R280, R289). -/
def State.gridEngines (s : State) (ctx g : Nat) : Bool :=
  let run := fun (r : ARun) => r.ctx == ctx && r.grid == g
  s.clusters.any (fun (e : Nat × Cluster) => e.2.copies.any (fun o => o.ctx == ctx && o.grid == g)
      || e.2.mats.any fun o => o.ctx == ctx && o.grid == g)
    || s.memStacks.any (fun (t : Nat × Stack) =>
      t.2.ctl.any (fun o => match o with
        | .load c x _ _ _ _ => c == ctx && x == g
        | .run _ r => run r
        | .resume _ _ _ _ _ _ => false
        | .drain c x _ _ _ _ => c == ctx && x == g
        | .evict c x _ _ _ => c == ctx && x == g)
      || (match t.2.loading with | some l => l.ctx == ctx && l.grid == g | none => false)
      || t.2.saved.any (fun r => run r.run)
      || (List.range 8).any fun p =>
        let p := t.2.part p
        (match p.act with | some a => run a.run | none => false) || p.queue.any run
          || (match p.drain with | some d => d.seq.isSome && d.ctx == ctx && d.grid == g | none => false))
    || s.memStacks.any (fun (t : Nat × Stack) => t.2.notify.any fun n => n.ctx == ctx && n.grid == g)
    || (s.ctx ctx).events.any (fun e => match e.2 with | .notify x _ _ _ => x == g | _ => false)
    || (s.ctx ctx).rblk.any (fun o => o.grid == g)
    || (s.coresOf ctx).any (fun n => (s.core n).pend.any (fun w => w.grid == g) || (s.core n).flushes.any fun f => f.grid == g)
    || s.scOps.any fun o => o.ctx == ctx && o.grid == g

/-- Children of a grid, live or in a device queue. -/
def State.gridChildren (s : State) (ctx g : Nat) : Bool :=
  (AMap.vals (s.ctx ctx).grids).any (fun x => x.parent == some g)
    || (AMap.vals (s.ctx ctx).devq).any fun d => d.info.any fun m => m.parent == g && !m.dead

/-- Quires of a grid that are placed or stored. -/
def State.gridQuires (s : State) (ctx g : Nat) : Bool :=
  (s.coresOf ctx).any (fun n => (AMap.vals (s.core n).quires).any fun q => q.grid == g)
    || (s.ctx ctx).stored.any fun x => x.grid == g

/-- The grid has no quire, task, wave or child left (R63). -/
def State.gridEmpty (s : State) (ctx : Nat) (x : Grid) : Bool :=
  (if x.cancelled then !s.gridQuires ctx x.id else x.quiresDone == x.blk.quires)
    && !s.gridTasks ctx x.id && !s.gridChildren ctx x.id

/-- Every condition of R63. -/
def State.gridOver (s : State) (ctx : Nat) (x : Grid) : Bool := s.gridEmpty ctx x && !s.gridEngines ctx x.id

/-- Only stores and operations that are on their way keep the grid from its retirement: no NOTIFY of it waits for the serial
phase (R86). -/
def State.gridSpent (s : State) (ctx : Nat) (x : Grid) : Bool :=
  s.gridEmpty ctx x && !(s.ctx ctx).events.any fun e => match e.2 with | .notify g _ _ _ => g == x.id | _ => false

/-- GRID_RETIRE (R63). -/
def execGridRetire (ctx grid : Nat) (s : State) : Host.Outcome State Fault Refusal :=
  match s.grid? ctx grid with
  | none => disabled "GRID_RETIRE"
  | some x =>
    if (s.ctx ctx).st ≠ .active ∨ !s.gridOver ctx x then disabled "GRID_RETIRE"
    else
      let s := if x.blk.done = 0 then s else match s.writeDone ctx x.blk.done (x.status % 2 ^ 32 + x.killed % 2 ^ 32 * 2 ^ 32) with
        | .ok s => s
        | .error e => (s.logFills ctx e.fills).log ctx { source := 2, cause := e.cause, grid := grid, addr := BitVec.ofNat 64 x.blk.done
                                                         aux0 := BitVec.ofNat 64 x.queue }
      let s := s.modCtx ctx fun c => { c with
        grids := AMap.del c.grids grid
        hostq := match x.hostq with
          | some q => AMap.mod c.hostq q fun h => { h with busy := false }
          | none => c.hostq }
      match x.child with
      | some q => .next (s.happen ctx x.dorder (.handle 5 0 q 1 0 x.status))
      | none => .next s

end Sys2Proof.Machine
end

