-- ==== Sys2Proof/Machine/Place.lean ====
section
/-!
DEFINITION. Machine/Place.lean: reservation and placement of gangs (R67 to R73, R228), dormant quires and eviction (R74 to
R77), task waves (R164 to R166).
-/
namespace Sys2Proof.Machine

/-! ### What a core has left (R67) -/

/-- The task waves of a core: their slots and budgets. -/
def Core.wavesOf (k : Core) : List (Nat × Sig) := k.sigs.filter fun (x : Nat × Sig) => x.2.quire.isNone
def Core.usedRegs (k : Core) : Nat :=
  (AMap.vals k.quires).foldl (fun a q => a + q.regs) 0 + k.wavesOf.foldl (fun a x => a + x.2.B) 0
def Core.usedSlots (k : Core) : List Nat := (AMap.vals k.quires).flatMap (·.slots) ++ k.wavesOf.map (·.1)
def Core.usedPoints (k : Core) : Nat := (AMap.vals k.quires).foldl (fun a q => a + q.points.length) 0
def Core.usedBytes (k : Core) (space : Nat) : Nat := (AMap.vals k.quires).foldl (fun a q => a + q.size.get space) 0
/-- Bytes of a space per core. -/
def spaceCap : Nat → Nat
  | 0 => 262144 | 1 => 524288 | 2 => 131072 | _ => 262144

/-- The n lowest free signature slots. -/
def Core.freeSlots (k : Core) (n : Nat) : List Nat := ((List.range 64).filter fun i => !k.usedSlots.contains i).take n

/-- What one quire needs (R68), and the ports whose handler it brings back (R416). -/
structure Needs where
  regs : Nat
  slots : Nat
  points : Nat
  size : Locals
  handlers : List Nat := []

/-- Nothing of the context that the core holds is left on it (R71). -/
def Core.idle (k : Core) : Bool :=
  k.quires.isEmpty && k.sigs.isEmpty && k.records.isEmpty && k.pool.isEmpty && k.ringLen == 0 && k.pend.isEmpty && k.flushes.isEmpty
    && k.outst == 0

/-- The core belongs to the context, or can pass to it. -/
def Core.opens (k : Core) (ctx : Nat) : Bool := k.ctx == some ctx || k.idle

/-- R68 on one core. -/
def Core.fits (k : Core) (ctx : Nat) (n : Needs) : Bool :=
  k.opens ctx && decide (k.usedRegs + n.regs ≤ 1024) && decide (k.usedSlots.length + n.slots ≤ 64)
    && decide (k.usedPoints + n.points ≤ 96) && (List.range 4).all (fun i => decide (k.usedBytes i + n.size.get i ≤ spaceCap i))
    && n.handlers.all fun p => (k.port p).handler.isNone

/-- The core passes to the context: its LM and buffers are zeroed (R71, R228). -/
def State.claim (s : State) (core ctx : Nat) : State :=
  s.modCore core fun k => if k.ctx = some ctx then k else { k with
    ctx := some ctx, home := none, mem := ⟨[], [], [], []⟩, ports := k.ports.map fun p => { p with handler := none, turn := (0, 0, 0) } }

/-! ### Places in a local space -/

/-- Reservations of a space: key, first byte, size. -/
def Core.segments (k : Core) (space : Nat) : List (Nat × Nat × Nat) :=
  (k.quires.map fun (x : Nat × Quire) => (x.1, x.2.base.get space, x.2.size.get space)).filter fun x => x.2.2 != 0

/-- The lowest place for n bytes among reservations. -/
def firstFit (segs : List (Nat × Nat × Nat)) (cap n : Nat) : Option Nat :=
  if n = 0 then some 0
  else
    let at_ := (0 :: segs.map fun x => x.2.1 + x.2.2).filter fun a =>
      decide (a + n ≤ cap) && segs.all fun x => decide (a + n ≤ x.2.1) || decide (x.2.1 + x.2.2 ≤ a)
    at_.foldl (fun b a => match b with | none => some a | some m => some (min m a)) none

def Locals.set (m : Locals) (n x : Nat) : Locals :=
  match n with
  | 0 => { m with lm := x } | 1 => { m with wb := x } | 2 => { m with ab := x } | _ => { m with cb := x }

/-- The stretches between reservations, which are sorted. -/
def gapsOf (cap : Nat) : Nat → List (Nat × Nat) → List (Nat × Nat)
  | a, [] => if a < cap then [(a, cap - a)] else []
  | a, (b, n) :: r => (if a < b then [(a, b - a)] else []) ++ gapsOf cap (b + n) r

/-- Reservations moved together, which no program can see (R225): the bytes of the gaps follow them. -/
def Core.packSpace (k : Core) (space : Nat) : Core :=
  let segs := (k.segments space).mergeSort fun a b => decide (a.2.1 ≤ b.2.1)
  let gaps := gapsOf (spaceCap space) 0 (segs.map (·.2))
  let moved := (segs.map (·.2) ++ gaps).foldl (fun (a : Mem × Nat) g =>
    (a.1 ++ Mem.slice (k.mem.get space) g.1 g.2 a.2, a.2 + g.2)) ([], 0)
  let bases := segs.foldl (fun (a : AMap Nat × Nat) g => (AMap.set a.1 g.1 a.2, a.2 + g.2.2)) ([], 0)
  { k with
    mem := k.mem.set space moved.1
    quires := k.quires.map fun (x : Nat × Quire) => (x.1, { x.2 with base := x.2.base.set space (AMap.getD bases.1 x.1 0) }) }

/-- Room for n bytes of a space, and where. -/
def Core.room (k : Core) (space n : Nat) : Core × Nat :=
  match firstFit (k.segments space) (spaceCap space) n with
  | some a => (k, a)
  | none =>
    let k := k.packSpace space
    (k, (firstFit (k.segments space) (spaceCap space) n).getD 0)

/-- Room in all four spaces. -/
def Core.rooms (k : Core) (size : Locals) : Core × Locals :=
  (List.range 4).foldl (fun (a : Core × Locals) i => let (k, b) := a.1.room i (size.get i); (k, a.2.set i b)) (k, ⟨0, 0, 0, 0⟩)

/-! ### New gangs -/

/-- The needs of a quire of a block. -/
def Launch.needs (b : Launch) : Needs := ⟨b.regs, b.slots, b.rvpoints, b.size, []⟩

/-- The roles of a quire's signatures, in signature order (R61). -/
def Launch.sigRoles (b : Launch) : List (Nat × Role) := b.roles.zipIdx.flatMap fun r => List.replicate r.1.sigs (r.2, r.1)

/-- A signature after allocation (R72, R121, R124). -/
def Sig.fresh (uid ctx grid : Nat) (quire : Option Nat) (qix sigix role wave home budget : Nat) (path : Path) : Sig where
  uid := uid
  rseq := path.rseq
  ctx := ctx
  grid := grid
  quire := quire
  qix := qix
  sigix := sigix
  role := role
  wave := wave
  home := home
  B := budget
  LB := budget
  v := []
  s := Vector.replicate 64 0
  p := Vector.replicate 8 predAllFalse
  k := Vector.replicate 4 (0, 0)
  h := Vector.replicate 16 0
  stack := []
  nextNest := 0
  paths := [path]
  iret := 0
  wdog := 0
  tasks := []
  quantum := 0
  ended := false

def Path.fresh (m : Mask) (pc rseq port : Nat) : Path where
  idx := 0
  mask := m
  pc := BitVec.ofNat 64 pc
  nest := none
  rseq := rseq
  passes := 0
  handler := false
  port := port
  fault := none
  stalled := false
  wdog := none
  held := false

/-- One quire of a new gang on a core. -/
def State.placeQuire (s : State) (core ctx : Nat) (g : Grid) (gang pos gsize first : Nat) : State :=
  let s := s.claim core ctx
  let (k, base) := (s.core core).rooms g.blk.size
  let key := k.nextKey
  let slots := k.freeSlots g.blk.slots
  let qix := gang * g.blk.gang + pos
  let q : Quire := { grid := g.id, ix := qix, gang := gang, pos := pos, gsize := gsize, first := first, base := base, size := g.blk.size
                     regs := g.blk.regs, slots := slots, points := List.replicate g.blk.rvpoints RvPoint.init, spare := 0, fifos := []
                     killed := false }
  let s := s.setCore core { k with quires := AMap.set k.quires key q, nextKey := key + 1 }
  ((slots.zip g.blk.sigRoles).zipIdx).foldl (fun (s : State) (x : (Nat × Nat × Role) × Nat) =>
    let k := s.core core
    let path := Path.fresh (BitVec.allOnes 128) x.1.2.2.entry k.rseq k.bestPort
    let sig := Sig.fresh s.births ctx g.id (some key) qix x.2 x.1.2.1 0 core x.1.2.2.regs path
    { s with births := s.births + 1 }.modCore core fun k => { k with rseq := k.rseq + 1, sigs := AMap.set k.sigs x.1.1 sig }) s

/-- The first core of the cores of one cluster, lowest first, on which the needs of a gang's quires fit, each at its
position (R69). -/
def State.findCores (s : State) (ctx size : Nat) (ns : List (Nat × Needs)) : Option Nat :=
  let per := Config.coresPerCluster
  (List.range Config.nCores).find? fun n =>
    decide (n % per + size ≤ per) && ns.all fun x => (s.core (n + x.1)).fits ctx x.2

/-- Equal needs at every position. -/
def sameNeeds (n : Nat) (x : Needs) : List (Nat × Needs) := (List.range n).map fun i => (i, x)

/-- The next gang of a grid: its size. -/
def Grid.nextSize (g : Grid) : Nat := min g.blk.gang (g.blk.quires - g.started * g.blk.gang)

def State.placeGang (s : State) (ctx : Nat) (g : Grid) : Option State :=
  let n := g.nextSize
  (s.findCores ctx n (sameNeeds n g.blk.needs)).map fun first =>
    ((List.range n).foldl (fun (s : State) i => s.placeQuire (first + i) ctx g g.started i n first) s).modGrid ctx g.id fun g =>
      { g with started := g.started + 1 }

/-! ### Stored gangs (R77, R422) -/

def StoredQuire.needs (q : StoredQuire) : Needs :=
  ⟨q.q.regs, q.q.slots.length, q.q.points.length, q.q.size, (AMap.keys q.windows)⟩

/-- A record on its new core: its slot, its number there; what it brings goes to the new core. -/
def Record.rehome (r : Record) (slot core pseq tick : Nat) : Record :=
  { r with slot := slot, pseq := pseq, first := pseq, core := core, seen := tick, spill := none, inMem := false, barred := false
           wait := match r.wait with
             | .spawn ts => .spawn (ts.map fun t => { t with core := core })
             | w => w }

/-- The record's path runs its port's handler, or has been given it and has not entered it yet (R415, R416). -/
def Record.takesHandler (r : Record) : Bool := r.handler || (r.ready && r.reason == 0x10)

/-- Signatures, records and trap windows of a stored quire or of stored waves on a core, in new slots. Waves formed there later
come after restored ones (R86, R451). -/
def State.putSigs (s : State) (core : Nat) (q : StoredQuire) (key : Option Nat) (slots : List Nat) : State :=
  let slot := fun n => ((q.q.slots.zip slots).find? fun x => x.1 == n).elim n (·.2)
  let s := q.sigs.foldl (fun (s : State) (x : Nat × Sig) =>
    s.modCore core fun k => { k with
      sigs := AMap.set k.sigs (slot x.1) { x.2 with quire := key }
      waves := if key.isNone then max k.waves (x.2.wave + 1) else k.waves }) s
  q.records.foldl (fun (s : State) r =>
    let s := s.modCore core fun k => { k with
      records := k.records ++ [r.rehome (slot r.slot) core k.pseq s.tick], pseq := k.pseq + 1 }
    if r.takesHandler then s.modCore core fun k => k.modPort r.port fun p => { p with
      handler := some (slot r.slot, r.pidx), t := AMap.getD q.windows r.port p.t }
    else s) s

/-- What saved engine operations still name of a quire is cancelled with it (R338, R316). -/
def State.cancelSaved (s : State) (ctx core key : Nat) : State :=
  match (s.ctx ctx).saved with
  | none => s
  | some v =>
    let copy := fun (o : Nat × CopyOp) => o.2.ofQuire core key
    let mat := fun (o : Nat × MatOp) => o.1 == core && o.2.quire == key
    let s := (v.copies.filter copy).foldl (fun (s : State) o => s.endLater ctx o.2.order 1 o.2.unit o.2.seq ⟨2, 0, o.2.written % 2 ^ 32⟩) s
    let s := (v.mats.filter mat).foldl (fun (s : State) o => s.endLater ctx o.2.order 2 o.2.unit o.2.seq ⟨2, 0, o.2.step⟩) s
    s.modCtx ctx fun c => { c with saved := c.saved.map fun v => { v with
      copies := v.copies.filter fun o => !copy o, mats := v.mats.filter fun o => !mat o } }

/-- A saved operation follows its quire or wave to a core; one that pushes a task at its end pushes it there (R161, R422). -/
def CopyOp.rehome (o : CopyOp) (core : Nat) (key : Option Nat) : CopyOp :=
  { o with core := core, qcore := core, quire := key, task := o.task.map fun t => { t with core := core } }

/-- An event that waits for the serial phase follows its quire to a core: a delivery at once, a push of a task where the context is
restored (R161, R422). -/
def DetEvent.rehome (e : DetEvent) (from_ key core new : Nat) (push : Bool) : DetEvent :=
  match e with
  | .deliver c k n b => if c = from_ ∧ k = key then .deliver core new n b else e
  | .task k t => if push ∧ t.core = from_ ∧ k = some key then .task (some new) { t with core := core } else e
  | e => e

/-- A stored quire on its new core; its images are checked first (R154). Images that cannot be reached kill the context
(R411). -/
def State.putQuire (s : State) (core ctx : Nat) (q : StoredQuire) (first : Nat) : State :=
  let ok := s.quireImagesOk ctx q
  let s := s.claim core ctx
  let (k, base) := (s.core core).rooms q.q.size
  let key := k.nextKey
  let slots := k.freeSlots q.q.slots.length
  let mem := (List.range 4).foldl (fun (m : Spaces) i =>
    m.set i (Mem.paste (m.get i) (base.get i) (q.q.size.get i) ((q.mem.get i).map fun c => (c.1 + base.get i, c.2)))) k.mem
  let s := s.setCore core { k with
    quires := AMap.set k.quires key { q.q with base := base, slots := slots, first := first }, nextKey := key + 1, mem := mem }
  let s := s.putSigs core q (some key) slots
  let back := (s.ctx ctx).st == .restoring
  let s := s.modCtx ctx fun c => { c with
    events := c.events.map fun e => (e.1, e.2.rehome q.core q.key core key back)
    saved := c.saved.map fun v => { v with
      copies := v.copies.map fun o => if o.2.ofQuire q.core q.key then (core, o.2.rehome core (some key)) else o
      mats := v.mats.map fun o => if o.1 == q.core && o.2.quire == q.key
        then (core, { o.2 with core := core, quire := key }) else o } }
  let follow := fun (o : CopyOp) => if o.ctx == ctx && o.ofQuire q.core q.key then { o with qcore := core, quire := some key } else o
  let s : State := { s with clusters := AMap.mapVals s.clusters fun k => { k with copies := k.copies.map follow } }
  match ok with
  | .ok true => s
  | .ok false => ((s.log ctx { source := 2, cause := cOPERAND, core := core, grid := q.q.grid, quire := q.q.ix }).killQuire core key
      cOPERAND).cancelSaved ctx core key
  | .error c => s.areaLost ctx c { source := 2, core := core, grid := q.q.grid, quire := q.q.ix }

/-- The gang's size, its quires' needs by position. -/
def StoredGang.size (g : StoredGang) : Nat := g.quires.foldl (fun a q => max a q.q.gsize) 1
def StoredGang.needs (g : StoredGang) : List (Nat × Needs) := g.quires.map fun q => (q.q.pos, q.needs)

/-- A stored gang on the cores that R69 gives. -/
def State.putGang (s : State) (ctx : Nat) (g : StoredGang) : Option State :=
  (s.findCores ctx g.size g.needs).map fun first =>
    g.quires.foldl (fun (s : State) x => s.putQuire (first + x.q.pos) ctx x first) s

/-! ### Dormant gangs (R74) -/

/-- A quire is dormant (R74). -/
def State.dormant (s : State) (core key : Nat) (q : Quire) : Bool :=
  let rs := (s.core core).records.filter fun r => q.slots.contains r.slot
  q.slots.all (fun sl => match s.sig? core sl with | some g => g.paths.isEmpty | none => true)
    && rs.all (fun r => !r.handler && r.reason != 0x10)
    && !s.quireTargeted core key && q.fifos.all (fun f => f.2.isEmpty) && !rs.isEmpty

/-- Its records can be written out: no load and no SC operation of it is outstanding, or waits for the serial phase (R150,
R473). -/
def State.writable (s : State) (core : Nat) (q : Quire) : Bool :=
  ((s.core core).records.filter fun r => q.slots.contains r.slot).all fun r => !r.outstanding && (r.ready || r.late.isEmpty)

/-- A placed gang: its quires as (core, key, quire), in gang order. -/
def State.gangAt (s : State) (ctx grid gang : Nat) : List (Nat × Nat × Quire) :=
  ((s.coresOf ctx).flatMap fun n => (s.core n).quires.filterMap fun (x : Nat × Quire) =>
    if x.2.grid == grid && x.2.gang == gang then some (n, x.1, x.2) else none)

/-- Gangs of a context all of whose quires are dormant: grid, gang number, quires. A gang part of which has retired stays. -/
def State.dormantGangs (s : State) (ctx : Nat) : List (Grid × Nat × List (Nat × Nat × Quire)) :=
  (AMap.vals (s.ctx ctx).grids).flatMap fun g => (List.range g.started).filterMap fun n =>
    let l := s.gangAt ctx g.id n
    if !l.isEmpty && l.all fun x => s.dormant x.1 x.2.1 x.2.2 then some (g, n, l) else none

/-- A quire with all that belongs to it, as it stands on its core. -/
def State.takeQuire (s : State) (core key : Nat) (q : Quire) : StoredQuire :=
  let k := s.core core
  let rs := k.records.filter fun r => q.slots.contains r.slot
  { core := core, key := key, q := q, sigs := k.sigs.filter fun (x : Nat × Sig) => q.slots.contains x.1, records := rs
    mem := (List.range 4).foldl (fun (m : Spaces) i => m.set i (Mem.slice (k.mem.get i) (q.base.get i) (q.size.get i) 0)) ⟨[], [], [], []⟩
    windows := rs.foldl (fun (m : AMap (AMap Row)) r => if r.takesHandler then AMap.set m r.port (k.port r.port).t else m) []
    imgs := [], phys := false }

/-- The quire leaves the core. -/
def State.removeQuire (s : State) (core ctx key : Nat) (q : Quire) : State :=
  let gone := (s.core core).records.filter fun r => q.slots.contains r.slot
  (s.freeSpills ctx core gone).modCore core fun k => { k with
    quires := AMap.del k.quires key
    sigs := k.sigs.filter fun (x : Nat × Sig) => !q.slots.contains x.1
    records := k.records.filter fun r => !q.slots.contains r.slot
    ports := k.ports.map fun p => match p.handler with
      | some (sl, _) => if q.slots.contains sl then { p with handler := none } else p
      | none => p }

/-! ### Eviction (R75, R76) -/

/-- Bytes of rendezvous points in the swap area, whose layout is the device's own. -/
def pointBytes (q : Quire) : List Byte :=
  q.points.flatMap fun p => bytesOfNat 4 p.phase ++ bytesOfNat 2 p.expect ++ bytesOfNat 2 p.arr ++ bytesOfNat 8 p.expb ++ bytesOfNat 8 p.deliv
    ++ bytesOfNat 8 p.poison

/-- The places of the parts of a stored quire from an address on, with the images' places, and the address after. -/
def StoredQuire.layout (q : StoredQuire) (base free : Nat) : List (Nat × List Byte) × StoredQuire × Nat :=
  let (imgs, pos, next) := q.images base free
  let spaces := (List.range 4).foldl (fun (a : List (Nat × List Byte) × Nat) i =>
    (a.1 ++ [(a.2, Mem.readN (q.mem.get i) 0 (q.q.size.get i))], a.2 + q.q.size.get i)) ([], next)
  let pts := pointBytes q.q
  (imgs ++ spaces.1 ++ [(spaces.2, pts)], { q with imgs := pos }, alignUp (spaces.2 + pts.length) 64)

/-- A place in the swap area for n bytes. -/
def State.swapRoom (s : State) (ctx n : Nat) : Option Nat :=
  firstFit ((s.ctx ctx).stored.map fun g => (0, g.off, g.bytes)) (s.regN ctx rSWAPSIZE) n

/-- READYORD of records that are READY when they are written out (R148, R421). -/
def orderReady (order : List Nat) (n : Nat) (r : Record) : Record := { r with readyord := n + 1 + (order.findIdx? (· == r.pseq)).getD 0 }

/-- The READY records of a core, and those that pre-emption parted, in relaunch order, by PSEQ (R146, R422). -/
def Core.readySeq (k : Core) : List Nat :=
  ((k.records.filter fun r => r.ready || r.reason == 0x11).mergeSort fun a b => !listLt (k.readyKey false b) (k.readyKey false a)).map (·.pseq)

/-- READY records of the core take their READYORD from the context's latch counter: all of them at a save (`anew`, R422), else those
that have none. -/
def State.latchReady (s : State) (anew : Bool) (core ctx : Nat) (slots : List Nat) : State :=
  if s.det ctx then s
  else
    let k := s.core core
    let seq := k.readySeq.filter fun p => k.records.any fun r => r.pseq == p && slots.contains r.slot && (anew || r.readyord == 0)
    let n := (s.ctx ctx).latch
    (s.modCore core fun k => { k with
      records := k.records.map fun r => if seq.contains r.pseq then orderReady seq n r else r }).modCtx ctx fun c =>
        { c with latch := n + seq.length }

/-- Everything of a gang written to the swap area and released; none where there is no room or it cannot be written. -/
def State.evict (s : State) (ctx grid gang : Nat) (l : List (Nat × Nat × Quire)) : Option (Except AreaErr State) :=
  let s := l.foldl (fun (s : State) x => s.latchReady false x.1 ctx x.2.2.slots) s
  let parts := l.map fun x => s.takeQuire x.1 x.2.1 x.2.2
  let plan := fun (base : Nat) => parts.foldl (fun (a : List (Nat × List Byte) × List StoredQuire × Nat) q =>
    let (w, q, next) := q.layout a.2.2 (s.free + imageDraws * a.2.1.length)
    (a.1 ++ w, a.2.1 ++ [q], next)) ([], [], base)
  let bytes := (plan 0).2.2
  match s.swapRoom ctx bytes with
  | none => none
  | some off =>
    let (writes, qs, _) := plan (s.regN ctx rSWAPBASE + off)
    let s := { s with free := s.free + imageDraws * parts.length }
    let wrote := writes.foldl (fun (a : Except AreaErr State) w => match a with
      | .ok s => s.areaWrite ctx w.1 w.2
      | .error c => .error c) (.ok s)
    match wrote with
    | .error c => some (.error c)
    | .ok s =>
      let s := l.foldl (fun (s : State) x => s.removeQuire x.1 ctx x.2.1 x.2.2) s
      if (s.ctx ctx).st = .killing then some (.ok s)
      else some (.ok (s.modCtx ctx fun c => { c with stored := c.stored ++ [⟨grid, gang, off, bytes, qs⟩] }))

/-- The core as if some quires had gone. -/
def State.without (s : State) (l : List (Nat × Nat × Quire)) : State :=
  l.foldl (fun (s : State) x => s.modCore x.1 fun k => { k with
    quires := AMap.del k.quires x.2.1
    sigs := k.sigs.filter fun (y : Nat × Sig) => !x.2.2.slots.contains y.1
    records := k.records.filter fun r => !x.2.2.slots.contains r.slot }) s

/-! ### Pending gangs (R70) -/

/-- A gang that waits for a place. -/
inductive Pending where
  | stored (ctx : Nat) (g : StoredGang) (x : Grid) (restoring : Bool)
  | new (ctx : Nat) (x : Grid)

def Pending.ctx : Pending → Nat
  | .stored c _ _ _ => c
  | .new c _ => c
def Pending.grid : Pending → Grid
  | .stored _ _ x _ => x
  | .new _ x => x

/-- The order of R70. -/
def Pending.key (p : Pending) : List Nat :=
  let x := p.grid
  let rest := [3 - min x.blk.prio 3, 255 - min x.blk.depth 255, x.order]
  match p with
  | .stored _ g _ _ => [0] ++ rest ++ [g.gang]
  | .new _ x => [1] ++ rest ++ [x.started]

/-- The gangs that wait, in order. -/
def State.pending (s : State) : List Pending :=
  let all := s.ctxs.flatMap fun (c : Nat × Ctx) =>
    let stored := fun (l : List StoredGang) (re : Bool) => l.filterMap fun g => (AMap.get? c.2.grids g.grid).map fun x => Pending.stored c.1 g x re
    match c.2.st with
    | .active => stored c.2.stored false
        ++ ((AMap.vals c.2.grids).filter fun g => !g.cancelled && decide (g.started < g.blk.gangs)).map fun g => Pending.new c.1 g
    | .restoring => match c.2.saved with
      | some v => stored v.gangs true
      | none => []
    | _ => []
  all.mergeSort fun a b => !listLt b.key a.key

def Pending.size (p : Pending) : Nat :=
  match p with
  | .stored _ g _ _ => g.size
  | .new _ x => x.nextSize
def Pending.needs (p : Pending) : List (Nat × Needs) :=
  match p with
  | .stored _ g _ _ => g.needs
  | .new _ x => sameNeeds x.nextSize x.blk.needs

/-- The gang is placed, when it fits. -/
def State.placePending (s : State) (p : Pending) : Option State :=
  match p with
  | .new ctx x => s.placeGang ctx x
  | .stored ctx g _ re => (s.putGang ctx g).map fun s => s.modCtx ctx fun c =>
      let other := fun (y : StoredGang) => y.grid != g.grid || y.gang != g.gang
      if re then { c with saved := c.saved.map fun v => { v with gangs := v.gangs.filter other } }
      else { c with stored := c.stored.filter other }

/-- The first gang in order that fits; none of a grid passes an earlier one of the grid. -/
def State.placeFirst (s : State) (blocked : List (Nat × Nat)) : List Pending → Option State
  | [] => none
  | p :: r =>
    let g := (p.ctx, p.grid.id)
    if blocked.contains g then s.placeFirst blocked r
    else match s.placePending p with
      | some s => some s
      | none => s.placeFirst (g :: blocked) r

/-- The victims that make room for a gang (R75): taken in order until it fits, less those it does not need. -/
def State.victims (s : State) (p : Pending) : List (Grid × Nat × List (Nat × Nat × Quire)) :=
  let x := p.grid.blk
  let ok := fun (g : Grid) => decide (g.blk.prio < x.prio) || (g.blk.prio == x.prio && decide (g.blk.depth < x.depth))
  let key := fun (v : Grid × Nat × List (Nat × Nat × Quire)) =>
    [v.1.blk.prio, v.1.blk.depth, Config.nCores - (v.2.2.head?.elim 0 (·.1))]
  let all := ((s.dormantGangs p.ctx).filter fun v => ok v.1).mergeSort fun a b => !listLt (key b) (key a)
  let fit := fun (l : List (Grid × Nat × List (Nat × Nat × Quire))) =>
    ((s.without (l.flatMap (·.2.2))).findCores p.ctx p.size p.needs).isSome
  match (List.range (all.length + 1)).find? fun n => fit (all.take n) with
  | none => []
  | some n =>
    let l := all.take n
    (List.range n).foldl (fun l i => match all[i]? with
      | some v =>
        let m := l.filter fun w => w.1.id != v.1.id || w.2.1 != v.2.1
        if fit m then m else l
      | none => l) l

/-- Victims are evicted for a gang; none where there are none, or the swap area has no room. -/
def State.evictFor (s : State) (p : Pending) (vs : List (Grid × Nat × List (Nat × Nat × Quire))) : Option State :=
  match vs with
  | [] => none
  | vs => vs.foldl (fun (a : Option State) v => a.bind fun s => if (s.ctx p.ctx).st = .killing then some s else
    match s.evict p.ctx v.1.id v.2.1 v.2.2 with
    | some (.ok s) => some s
    | some (.error c) => some (s.areaLost p.ctx c { source := 2, grid := v.1.id })
    | none => none) (some s)

/-- Quires are chosen for eviction: none of their records relaunches until the data of their loads are there (R150). -/
def State.markLeaving (s : State) (l : List (Nat × Nat × Quire)) : State :=
  l.foldl (fun (s : State) x => s.modQuire x.1 x.2.1 fun q => { q with leaving := true }) s

/-- No quire is chosen any more. -/
def State.unmark (s : State) : State :=
  { s with cores := AMap.mapVals s.cores fun k => { k with quires := AMap.mapVals k.quires fun q => { q with leaving := false } } }

def State.anyLeaving (s : State) : Bool := s.cores.any fun (c : Nat × Core) => c.2.quires.any fun (q : Nat × Quire) => q.2.leaving

/-- GANG_PLACE (R69, R70, R75). Where a victim's loads are outstanding, the eviction waits for them (R150). -/
def execGangPlace (s : State) : Host.Outcome State Fault Refusal :=
  match s.pending with
  | [] => if s.anyLeaving then .next s.unmark else disabled "GANG_PLACE"
  | p :: r =>
    match s.placePending p with
    | some s => .next s.unmark
    | none =>
      let vs := s.victims p
      let qs := vs.flatMap (·.2.2)
      if qs.any (fun x => !s.writable x.1 x.2.2) && !qs.all (fun x => x.2.2.leaving) then .next (s.unmark.markLeaving qs)
      else match if qs.all (fun x => s.writable x.1 x.2.2) then s.evictFor p vs else none with
      | some s => .next ((s.placePending p).getD s).unmark
      | none => match s.placeFirst [(p.ctx, p.grid.id)] r with
        | some s => .next s
        | none => disabled "GANG_PLACE"

/-! ### Task waves (R164, R165) -/

/-- What reading a task entry comes to (R165). -/
inductive EntryRead where
  | bad
  | absent (s : State)
  | ok (pc regs : Nat) (s : State)

def State.readEntry (s : State) (ctx : Nat) (g : Grid) (entry arg : Nat) : EntryRead :=
  let va := g.blk.tasktab + 16 * entry
  match s.reach ctx { r := true } anyPage [⟨0, BitVec.ofNat 64 va, 16⟩] with
  | .ok [p] =>
    if s.refuses { r := true } p 16 then .bad else
    let (bs, s) := s.readPlace p 16
    let pc := field bs 0 8
    let regs := field bs 8 2
    if pc = 0 ∨ !pcValid (BitVec.ofNat 64 pc) ∨ regs % 8 ≠ 0 ∨ regs < 8 ∨ 256 < regs ∨ regs < arg ∨ field bs 0xA 6 ≠ 0 then .bad
    else .ok pc regs s
  | .absent ls _ => .absent (s.askFills ctx ls)
  | _ => .bad

/-- The wave of some tasks. -/
def State.startWave (s : State) (core ctx : Nat) (g : Grid) (ts : List Task) (pc regs slot : Nat) : State :=
  let k := s.core core
  let row := fun (j : Nat) => (Vector.ofFn fun l : Lane => ((ts[l.val]?.bind fun t => t.payload[j]?)).getD 0 : Row)
  let len := ts.foldl (fun a t => max a t.payload.length) 0
  let sig := { Sig.fresh s.births ctx g.id none 0 0 0 k.waves (k.home.getD core) regs (Path.fresh (BitVec.ofNat 128 (2 ^ ts.length - 1)) pc k.rseq k.bestPort) with
    v := (List.range len).map fun j => (j, row j)
    tasks := ts.zipIdx.map fun t => (t.2, (t.1.word0, BitVec.ofNat 64 t.1.grid)) }
  { s with births := s.births + 1 }.modCore core fun k => { k with
    rseq := k.rseq + 1, waves := k.waves + 1, sigs := AMap.set k.sigs slot sig }

/-- Tasks leave the pool, which is refilled from the ring (R162). -/
def State.takeTasks (s : State) (core ctx : Nat) (ix : List Nat) : State :=
  let s := s.modCore core fun k => { k with pool := (k.pool.zipIdx.filter fun t => !ix.contains t.2).map (·.1) }
  s.refill (s.core core).ringLen ctx core

/-- Tasks of the pool like a first one: up to 32, by place. -/
def Core.alike (k : Core) (t : Task) : List (Task × Nat) :=
  (k.pool.zipIdx.filter fun x => x.1.parked == t.parked && x.1.grid == t.grid && x.1.entry == t.entry).take 32

/-- Tasks whose entry cannot be had: one record, and the mark (R165). -/
def State.park (s : State) (core ctx : Nat) (g : Grid) (l : List (Task × Nat)) : State :=
  match l with
  | [] => s
  | (t, _) :: _ =>
    let mark := fun (x : Task × Nat) => if l.any fun y => y.2 == x.2 then { x.1 with parked := true, asked := false } else x.1
    let s := s.modCore core fun k => { k with pool := k.pool.zipIdx.map mark }
    s.log ctx { source := 2, cause := cENTRY, core := core, grid := t.grid
                addr := BitVec.ofNat 64 (g.blk.tasktab + 16 * t.entry), aux0 := BitVec.ofNat 64 t.entry }

/-- An attempt to form a wave of some tasks: the wave; or a page asked for; or, for tasks not parked, the record and the
mark. None: nothing to be done. -/
def State.tryWave (s : State) (core ctx : Nat) (l : List (Task × Nat)) : Option State :=
  match l with
  | [] => none
  | (t, _) :: _ =>
    match s.grid? ctx t.grid with
    | none => none
    | some g =>
      let arg := l.foldl (fun a x => max a x.1.payload.length) 0
      match s.readEntry ctx g t.entry arg with
      | .bad => if t.parked then none else some (s.park core ctx g l)
      | .absent s' =>
        let ask := fun (x : Task × Nat) => if l.any fun y => y.2 == x.2 then { x.1 with asked := true } else x.1
        if s'.fills.length = s.fills.length ∧ l.all fun x => x.1.asked then none
        else some (s'.modCore core fun k => { k with pool := k.pool.zipIdx.map ask })
      | .ok pc regs s =>
        let k := s.core core
        match k.freeSlots 1 with
        | slot :: _ =>
          if 1024 < k.usedRegs + regs then none
          else some ((s.startWave core ctx g (l.map (·.1)) pc regs slot).takeTasks core ctx (l.map (·.2)))
        | [] => none

/-- A partial wave of a grid is due on the core (R164). -/
def State.partialDue (s : State) (core g : Nat) : Bool :=
  ((List.range 4).any fun p => (s.choose core p).isNone)
    || ((AMap.vals (s.core core).sigs).filter fun x => x.grid == g).all fun x => x.paths.isEmpty

/-- The parked tasks that are retried next (R165): the oldest that has not been retried, with up to 31 more of its grid and
entry; `tried` lists grid and entry of each task that a retry has left in the pool. -/
def Core.parkedNext (k : Core) (tried : List (Nat × Nat)) : List (Task × Nat) :=
  let kind := fun (x : Task × Nat) => (x.1.grid, x.1.entry)
  let all := k.pool.zipIdx.filter fun x => x.1.parked
  let left := all.filter fun x => decide (tried.count (kind x) ≤ (all.filter fun y => decide (y.2 < x.2) && kind y == kind x).length)
  match left.head? with
  | none => []
  | some x => (left.filter fun y => kind y == kind x).take 32

/-- The parked tasks of a core are retried in push order, each once (R165). -/
def State.retryParked (fuel : Nat) (s : State) (core ctx : Nat) (tried : List (Nat × Nat)) : State :=
  match fuel with
  | 0 => s
  | fuel + 1 =>
    match (s.core core).parkedNext tried with
    | [] => s
    | l =>
      let again := tried ++ l.map fun x => (x.1.grid, x.1.entry)
      match s.tryWave core ctx l with
      | none => s.retryParked fuel core ctx again
      | some t =>
        t.retryParked fuel core ctx (if (t.core core).pool.length < (s.core core).pool.length then tried else again)

/-- The task's core waits for a page of these bytes to read the task's entry. -/
def State.askedIn (s : State) (ctx va size : Nat) (t : Task) : Bool :=
  t.asked && (match s.grid? ctx t.grid with
    | some g => let a := g.blk.tasktab + 16 * t.entry; decide (va ≤ a) && decide (a < va + size)
    | none => false)

/-- No task waits for the page any more. -/
def State.unask (s : State) (ctx va size : Nat) : State :=
  (s.coresOf ctx).foldl (fun (s : State) core => s.modCore core fun k => { k with
    pool := k.pool.map fun t => if s.askedIn ctx va size t then { t with asked := false } else t }) s

/-- The fill of the page of a task entry has failed: on each core that has read the entry the tasks that wait for it are parked,
with one record (R165); of tasks that are parked already a failed retry leaves none. -/
def State.parkPage (s : State) (ctx va size : Nat) : State :=
  ((s.coresOf ctx).foldl (fun (s : State) core =>
    let groups := ((s.core core).pool.zipIdx.filter fun x => s.askedIn ctx va size x.1 && !x.1.parked).foldl
      (fun (l : List (Nat × Nat × List (Task × Nat))) x =>
        if l.any fun y => y.1 == x.1.grid && y.2.1 == x.1.entry then
          l.map fun y => if y.1 == x.1.grid && y.2.1 == x.1.entry then (y.1, y.2.1, y.2.2 ++ [x]) else y
        else l ++ [(x.1.grid, x.1.entry, [x])]) []
    groups.foldl (fun (s : State) y => match s.grid? ctx y.1 with
      | none => s
      | some g => s.park core ctx g y.2.2) s) s).unask ctx va size

/-- A wave that may be formed without asking anew for a page that a parked task lacks. -/
def State.waveDue (s : State) (k : Core) : Bool :=
  match k.ctx with
  | none => false
  | some ctx => k.pool.any fun t => !t.parked || (match s.grid? ctx t.grid with
    | some g => (match s.readEntry ctx g t.entry 0 with | .ok _ _ _ => true | _ => false)
    | none => false)

/-- The waves of a core at an event of R164: at a partial-wave event every parked task is retried first (R165); then the entry of
the oldest task that is not parked. -/
def State.nextWave (s : State) (core ctx : Nat) : Option State :=
  let k := s.core core
  let oldest := k.pool.find? fun t => !t.parked
  let due : Bool := match oldest with
    | some t => s.partialDue core t.grid
    | none => match k.pool.head? with | some t => s.partialDue core t.grid | none => false
  let t := if due then s.retryParked (k.pool.length + 1) core ctx [] else s
  let parked := if t = s then none else some t
  let k := t.core core
  match k.pool.find? fun t => !t.parked with
  | none => parked
  | some x =>
    let l := k.alike x
    if l.length = 32 ∨ due then (t.tryWave core ctx l).or parked else parked

/-- WAVE_FORM (R164); in deterministic mode waves form in the serial phase (R86). -/
def execWaveForm (core : Nat) (s : State) : Host.Outcome State Fault Refusal :=
  match (s.core core).ctx with
  | none => disabled "WAVE_FORM"
  | some ctx =>
    if (s.ctx ctx).st ≠ .active ∨ s.det ctx then disabled "WAVE_FORM"
    else match s.nextWave core ctx with
      | some s => .next s
      | none => disabled "WAVE_FORM"

end Sys2Proof.Machine
end

