-- ==== Sys2Proof/Machine/ArrayCtl.lean ====
section
/-!
DEFINITION. Machine/ArrayCtl.lean: CFGLOAD, CFGRUN, CFGDRAIN, CFGEVICT (R402, R403), a stack's configuration controller
(R389, R398, R404), installation (R390, R391), drain-and-switch (R394, R395), cancelling (R399).
-/
namespace Sys2Proof.Machine

/-! ### The instructions (R402, R403) -/

/-- The checks of R403 on the values of a stack, a key and an address that needs an alignment, then what follows. -/
def Env.ctlChecked (e : Env) (stack : Operand) (key : Option Operand) (va : Word64) (align : Nat) (k : Unit → Eff) : Eff :=
  if decide (11 < e.u stack) || (match key with | some x => decide (255 < e.u x) | none => false) then .trap (trapOf cOPERAND)
  else if va.toNat % align ≠ 0 then .trap ⟨cMISALIGN, va, none⟩
  else k ()

/-- An operation joins those of a stack's controller. -/
def State.sendCtl (s : State) (st : Nat) (op : CfgOp) : State := s.modStack st fun t => { t with ctl := t.ctl ++ [op] }

/-- The operation is sent under a new handle. -/
def Env.ctlHandle (e : Env) (d : Operand) (st : Nat) (op : Nat → CfgOp) : Eff :=
  let (seq, s) := e.s.newHandle 3 st e.sig.ctx
  .done (e.writeHandle (s.sendCtl st (op seq)) d (handleVal 3 st e.sig.ctx seq))

/-- CFGLOAD. -/
def execCfgload (h : Hdr) (o : Ops4) : State → Host.Outcome State Fault Refusal :=
  perform h o.list { feats := [3], ok := fun e => e.ops4Ok o hOrZero sPos uPos uPos } noSync fun e =>
    let va := e.uni o.a
    e.ctlChecked o.c (some o.b) va 4096 fun _ => e.released fun _ => e.ctlHandle o.d (e.u o.c) fun seq => .load e.sig.ctx e.sig.grid seq va (e.u o.b) e.orderKey

/-- CFGRUN. -/
def execCfgrun (h : Hdr) (o : Ops4) (m : SlotMod) : State → Host.Outcome State Fault Refusal :=
  perform h o.list { feats := [3], ok := fun e => e.ops4Ok o hOrZero uPos sOrZero uPos } noSync fun e =>
    let b := if o.b == .zero then 0 else e.uni o.b
    e.ctlChecked o.c (some o.a) b 64 fun _ => e.released fun _ => e.ctlHandle o.d (e.u o.c) fun seq =>
      .run m.slot.toNat ⟨e.sig.ctx, e.sig.grid, seq, e.u o.a, b, e.orderKey, none, false,
        (match e.grid with | some g => g.blk.syncpg | none => []), []⟩

/-- CFGRUN.res: it writes no handle. -/
def execCfgrunRes (h : Hdr) (o : Ops4) (m : SlotMod) : State → Host.Outcome State Fault Refusal :=
  perform h o.list { feats := [3], ok := fun e => e.ops4Ok o unused uPos sPos uPos } noSync fun e =>
    let va := e.uni o.b
    e.ctlChecked o.c (some o.a) va 4096 fun _ => e.released fun _ =>
      .done (e.s.sendCtl (e.u o.c) (.resume e.sig.ctx e.sig.grid m.slot.toNat (e.u o.a) va e.orderKey))

/-- CFGDRAIN. -/
def execCfgdrain (h : Hdr) (o : Ops4) (m : SlotMod) : State → Host.Outcome State Fault Refusal :=
  perform h o.list { feats := [3], ok := fun e => e.ops4Ok o hOrZero sPos unused uPos } noSync fun e =>
    let va := e.uni o.a
    e.ctlChecked o.c none va 4096 fun _ => e.ctlHandle o.d (e.u o.c) fun seq => .drain e.sig.ctx e.sig.grid seq m.slot.toNat va e.orderKey

/-- CFGEVICT. -/
def execCfgevict (h : Hdr) (o : Ops4) : State → Host.Outcome State Fault Refusal :=
  perform h o.list { feats := [3], ok := fun e => e.ops4Ok o hOrZero uPos unused uPos } noSync fun e =>
    e.ctlChecked o.c (some o.a) 0 1 fun _ => e.ctlHandle o.d (e.u o.c) fun seq => .evict e.sig.ctx e.sig.grid seq (e.u o.a) e.orderKey

/-! ### The controller (R389) -/

def Stack.image? (t : Stack) (ctx key : Nat) : Option Image := t.images.find? fun m => m.ctx == ctx && m.key == key
/-- Granules that no image takes. -/
def Stack.freeGranules (t : Stack) : Nat := 512 - t.images.foldl (fun n m => n + m.granules) 0
def State.dropCtl (s : State) (st : Nat) : State := s.modStack st fun t => { t with ctl := t.ctl.drop 1 }

/-- An operation ends FAULTED with a record (R404). -/
def State.ctlFault (s : State) (st ctx seq : Nat) (order : List Nat) (r : ARec) : State :=
  (s.arrLog st ctx { r with handle := handleVal 3 st ctx seq }).finishOp ctx order 3 st seq ⟨3, r.cause, 0⟩

/-! ### CFGLOAD (R404) -/

def State.endLoading (s : State) (st : Nat) : State := s.modStack st fun t => { t with loading := none }
def State.putLoading (s : State) (st : Nat) (l : Loading) : State := s.modStack st fun t => { t with loading := some l }

/-- The load in progress faults, or is cancelled. -/
def State.faultLoading (s : State) (st : Nat) (l : Loading) (r : ARec) : State :=
  (s.endLoading st).ctlFault st l.ctx l.seq l.order { r with key := l.key }
def State.cancelLoading (s : State) (st : Nat) (l : Loading) : State :=
  (s.endLoading st).finishOp l.ctx l.order 3 st l.seq ⟨2, 0, 0⟩

/-- A read of the load stops at a fault or waits for a page. -/
def State.stopLoading (s : State) (st : Nat) (l : Loading) (x : Stop) : State :=
  let s := { s with touched := x.read }
  match x with
  | .fault c a _ => s.faultLoading st l { cause := c, va := a }
  | _ => (s.askStop l.ctx x).putLoading st { l with page := x.page }

/-- What a load has read is charged to CD (R259, R404): with every burst issued, the outcome t stands; else t is discarded, and
the load goes on once the periods have let the rest through. -/
def State.chargeLoad (s : State) (st : Nat) (l : Loading) (t : State) : State :=
  let need := burstsOf t.touched
  let (paid, s1) := s.payBursts false need l.paid
  if Bursts.covered need paid then
    let (_, t) := { t with touched := [] }.payBursts false need l.paid
    t.modStack st fun k => { k with loading := k.loading.map fun x => { x with paid := [] } }
  else s1.putLoading st { l with paid := paid }

/-- The header is read and checked. -/
def State.loadHeader (s : State) (st : Nat) (l : Loading) : State :=
  match s.engRead (.ok []) readNeed l.ctx l.va 64 with
  | .error x => s.stopLoading st l x
  | .ok (hd, s) =>
    if !imgHeaderOk hd then s.faultLoading st l { cause := cCFG, detail := 0x20 }
    else
      let n := imgLength hd
      let t := s.stack st
      if t.freeGranules < ceilDiv n 4096 ∨ 64 ≤ t.images.length then s.faultLoading st l { cause := cCFG, detail := 0x22 }
      else s.putLoading st { l with length := n, page := none }

/-- CFGLOAD_PERFORM (R404): the controller takes a load and reads the image's header. -/
def execCfgloadPerform (st : Nat) (s : State) : Host.Outcome State Fault Refusal :=
  let t := s.stack st
  match t.loading, t.ctl with
  | some l, _ =>
    if l.length = 0 ∧ s.pageBack l.ctx l.page then .next (if l.cancel then s.cancelLoading st l else s.chargeLoad st l (s.loadHeader st l))
    else disabled "CFGLOAD_PERFORM"
  | none, .load ctx grid seq va key order :: _ =>
    let s := s.dropCtl st
    if (t.image? ctx key).isSome then .next (s.ctlFault st ctx seq order { cause := cCFG, detail := 0x23, key := key })
    else
      let l : Loading := ⟨ctx, grid, seq, order, va.toNat, key, 0, [], none, false, []⟩
      let s := s.putLoading st l
      .next (s.chargeLoad st l (s.loadHeader st l))
  | _, _ => disabled "CFGLOAD_PERFORM"

/-- CFGLOAD_GRANULE (R404): one granule, and after the last the checks and the entry. -/
def execCfgloadGranule (st : Nat) (s : State) : Host.Outcome State Fault Refusal :=
  match (s.stack st).loading with
  | none => disabled "CFGLOAD_GRANULE"
  | some l =>
    if l.length = 0 ∨ !s.pageBack l.ctx l.page then disabled "CFGLOAD_GRANULE"
    else if l.cancel then .next (s.cancelLoading st l)
    else
      .next (s.chargeLoad st l (match s.engRead (.ok []) readNeed l.ctx (l.va + l.bytes.length) (min 4096 (l.length - l.bytes.length)) with
        | .error x => s.stopLoading st l x
        | .ok (bs, s) =>
          let l := { l with bytes := l.bytes ++ bs, page := none }
          if l.bytes.length < l.length then s.putLoading st l
          else if !imgHeaderOk l.bytes || imgLength l.bytes != l.length || !imgCheckOk l.bytes then
            s.faultLoading st l { cause := cCFG, detail := 0x20 }
          else if !imgSectionsOk l.bytes then s.faultLoading st l { cause := cCFG, detail := 0x21 }
          else
            let m : Image := ⟨l.ctx, l.key, l.bytes, ceilDiv l.length 4096, 0⟩
            ((s.endLoading st).modStack st fun t => { t with images := t.images ++ [m] }).finishOp l.ctx l.order 3 st l.seq ⟨1, 0, 0⟩))

/-! ### CFGRUN (R389, R398) -/

/-- A run joins a slot's queue. -/
def State.queueRun (s : State) (st slot : Nat) (r : ARun) : State := s.modPart st slot fun p => { p with queue := p.queue ++ [r] }

/-- Slot and context agree, and the queue has room; or cause and DETAIL (R389). -/
def State.slotFault (s : State) (st slot ctx : Nat) : Option (Nat × Nat) :=
  let p := s.part st slot
  if !prEn p.reg ∨ prCtx p.reg ≠ ctx then some (cACCESS, 0)
  else if 4 ≤ p.queue.length then some (cCFG, 0x25)
  else none

/-- The checks of R398 on the header of a save area: the saved run. -/
def State.resumeOk (s : State) (st slot ctx : Nat) (hd : List Byte) : Option SavedRun :=
  let t := s.stack st
  let key := field hd 8 4
  let checkOk : Bool := match t.image? ctx key with
    | some m => field m.bytes 0x38 4 == field hd 0xC 4
    | none => false
  if field hd 0 2 = 1 ∧ checkOk ∧ field hd 2 1 = st ∧ field hd 3 1 = slot ∧ field hd 4 1 = bitsOf (s.part st slot).reg.toNat 7 0 then
    t.saved.find? fun r => r.run.ctx == ctx && r.run.key == key && handleVal 3 st ctx r.run.seq == BitVec.ofNat 64 (field hd 0x10 8)
  else none

/-- The controller takes a CFGRUN.res. -/
def State.takeResume (s : State) (st ctx slot : Nat) (va : Word64) (key : Nat) : State :=
  let fail := fun (s : State) (c d : Nat) => s.arrLog st ctx { cause := c, detail := d, slot := slot, key := key }
  match s.slotFault st slot ctx with
  | some (c, d) => fail s c d
  | none => match s.saveRead ctx false va.toNat 0x140 with
    | .error e => fail (s.logFills ctx e.fills) cCFG 0x26
    | .ok (hd, s) => match s.resumeOk st slot ctx hd with
      | none => fail s cCFG 0x26
      | some r =>
        let s := s.modStack st fun t => { t with saved := t.saved.filter fun x => x.run.seq != r.run.seq || x.run.ctx != ctx }
        s.queueRun st slot { r.run with resume := some (false, va.toNat), cancel := false }

/-- CFGRUN_ENQUEUE (R389). -/
def execCfgrunEnqueue (st : Nat) (s : State) : Host.Outcome State Fault Refusal :=
  let t := s.stack st
  match t.loading, t.ctl with
  | none, .run slot r :: _ =>
    let s := s.dropCtl st
    let fault := fun (c d : Nat) => s.ctlFault st r.ctx r.seq r.order { cause := c, detail := d, slot := slot, key := r.key }
    if !prEn (t.part slot).reg ∨ prCtx (t.part slot).reg ≠ r.ctx then .next (fault cACCESS 0)
    else if (t.image? r.ctx r.key).isNone then .next (fault cCFG 0x24)
    else if 4 ≤ (t.part slot).queue.length then .next (fault cCFG 0x25)
    else .next ((s.pinImage st r.ctx r.key true).queueRun st slot r)
  | none, .resume ctx _ slot key va _ :: _ => .next ((s.dropCtl st).takeResume st ctx slot va key)
  | _, _ => disabled "CFGRUN_ENQUEUE"

/-! ### Installation (R390, R391) -/

/-- The run at the head of the queue leaves it. -/
def State.dequeueRun (s : State) (st slot : Nat) : State :=
  s.modPart st slot fun p => { p with queue := p.queue.drop 1, st := .idle, page := none }

/-- The run faults before it has written a tile. -/
def State.faultInstall (s : State) (st slot : Nat) (r : ARun) (x : ARec) : State :=
  let d := (s.part st slot).drain
  let s := (s.dequeueRun st slot).modPart st slot fun p => { p with drain := none }
  let s := (s.pinImage st r.ctx r.key false).ctlFault st r.ctx r.seq r.order { x with slot := slot, key := r.key }
  s.endDrain st d

/-- The parameter words of a run: from B, or from the save area. -/
def State.readParams (s : State) (r : ARun) (n : Nat) : Except Stop (List Word64 × State) :=
  let words := fun (bs : List Byte) => (List.range n).map fun i => BitVec.ofNat 64 (field bs (8 * i) 8)
  match r.resume with
  | some (true, a) => match s.saveRead r.ctx true (a + 0x40) 256 with
    | .ok (bs, s) => .ok (words bs, s)
    | .error e => .error (s.stop e.cause (a + 0x40))
  | some (false, a) => match s.engRead (.ok []) { r := true } r.ctx (a + 0x40) 256 with
    | .ok (bs, s) => .ok (words bs, s)
    | .error x => .error x
  | none =>
    if r.b = 0 then .ok ([], s)
    else match s.engRead (.ok []) { r := true } r.ctx r.b.toNat (8 * n) with
      | .ok (bs, s) => .ok (words bs, s)
      | .error x => .error x

/-- The first port record of an image whose walk touches a SYNC page: its tile, and the first word there (R251, R400). -/
def State.syncPort (s : State) (ctx : Nat) (cfg : Config) (params : List Word64) : Option ((Nat × Nat) × Nat) :=
  cfg.ports.findSome? fun p =>
    let base : Nat := p.resolved params
    let (lo, hi) := walkSpan p.dims
    let first := ((base : Int) + lo).toNat
    (s.leavesIn ctx first (((base : Int) + hi).toNat + 64 - first)).findSome? fun l =>
      if l.sync then (p.firstIn base l.va (l.va + l.size)).map fun a => ((p.row, p.col), a) else none

/-- The S tiles of a partition take the image's port records, with resolved BASE (R356, R391). -/
def State.setWalks (s : State) (st : Nat) (reg : Word64) (cfg : Config) (params : List Word64) : State :=
  s.modStack st fun t => { t with walks := cfg.ports.foldl (fun (m : AMap PortRec) p =>
    AMap.set m (8 * tileKey (6 * prBrow reg + p.row) (6 * prBcol reg + p.col) + p.ctx) { p with base := p.resolved params }) t.walks }

/-- NOTIFY entries of a run that are still in the queue of the notify port (R372). -/
def Stack.sendsOf (t : Stack) (r : ARun) (slot : Nat) : Nat :=
  (t.notify.filter fun n => n.ctx == r.ctx && n.slot == slot && n.seq == r.seq).length

/-- The checks have passed: the tiles are written, a saved state in place of the preloads. -/
def State.install (s : State) (st slot : Nat) (r : ARun) (cfg : Config) (params : List Word64) : State :=
  let (a, empty) := Active.start r cfg params
  let s := s.setWalks st (s.part st slot).reg cfg params
  let a := { a with notifies := (s.stack st).sendsOf r slot }
  let next : PartState := if r.cancel || (s.part st slot).drain.isSome then .draining else .running
  let placed := fun (s : State) (a : Active) => (s.dequeueRun st slot).modPart st slot fun p => { p with
    st := next, act := some a
    drain := if r.cancel && p.drain.isNone then some ⟨none, [], r.ctx, r.grid, none, none, 0⟩ else p.drain }
  match r.resume with
  | none =>
    let s := placed s a
    match empty with
    | some x => s.freeze st slot a { cause := cCFG, detail := 0x10, tile := x }
    | none => s
  | some (phys, addr) => match s.restoreRun a phys addr with
    | .error e => (s.logFills r.ctx e.fills).faultInstall st slot r { cause := e.cause, aux := e.code }
    | .ok (a, s) => placed s a

/-- INSTALL_RUN (R390, R391). A run of a killed context gets no page any more, and is cancelled (R257, R399; log entry 18). -/
def execInstallRun (st slot : Nat) (s : State) : Host.Outcome State Fault Refusal :=
  let p := s.part st slot
  match p.queue with
  | [] => disabled "INSTALL_RUN"
  | r :: _ =>
    if !((p.st == .idle && (s.ctx r.ctx).st == .active) || (p.st == .installing && s.pageBack r.ctx p.page)) then disabled "INSTALL_RUN"
    else if !prEn p.reg || prCtx p.reg != r.ctx then .next (s.faultInstall st slot r { cause := cACCESS })
    else match (s.stack st).image? r.ctx r.key with
      | none => disabled "INSTALL_RUN"
      | some m =>
        let cfg := Config.parse m.bytes
        match s.readParams r cfg.nparam with
        | .error (.fault c a _) => .next (s.faultInstall st slot r { cause := c, va := a })
        | .error (.absent l a x) =>
          if (s.ctx r.ctx).st = .killing then .next ((s.dequeueRun st slot).finishOp r.ctx r.order 3 st r.seq ⟨2, 0, 0⟩) else
          let s := s.askStop r.ctx (.absent l a x)
          .next (s.modPart st slot fun p => { p with st := .installing, page := some a })
        | .error (.away c pages a x) => .next ((s.askStop r.ctx (.away c pages a x)).modPart st slot fun p => { p with st := .installing, page := none })
        | .ok (params, s) =>
          match cfg.firstFault m.bytes p.reg.toNat params (if r.resume.isSome then 1 else r.b.toNat) with
          | some d => .next (s.faultInstall st slot r { cause := cCFG, detail := d })
          | none => match s.syncPort r.ctx cfg params with
            | some (x, va) => .next (s.faultInstall st slot r { cause := cACCESS, tile := x, va := va })
            | none => .next (s.install st slot r cfg params)

/-! ### Drain-and-switch (R394, R395) -/

/-- A drain reaches a partition of its context. -/
def State.startDrain (s : State) (st slot : Nat) (d : Drain) : State :=
  let p := s.part st slot
  let owner := match p.act, p.queue with
    | some a, _ => some a.run.ctx
    | none, r :: _ => if p.st == .installing then some r.ctx else none
    | none, [] => none
  if owner ≠ some d.ctx then s.endDrain st (some d)
  else match p.st with
    | .running =>
      let (t0, s) := s.tickArray st
      s.modPart st slot fun p => { p with st := .draining, drain := some { d with t0 := t0 } }
    | .installing => s.modPart st slot fun p => { p with drain := some d }
    | .frozen => s.modPart st slot fun p => { p with drain := some d }
    | _ => s.endDrain st (some d)

/-- CFGDRAIN_PERFORM (R394): while an earlier drain of the partition is in progress the controller waits. -/
def execCfgdrainPerform (st : Nat) (s : State) : Host.Outcome State Fault Refusal :=
  let t := s.stack st
  match t.loading, t.ctl with
  | none, .drain ctx grid seq slot va order :: _ =>
    if (t.part slot).drain.isSome then disabled "CFGDRAIN_PERFORM"
    else .next ((s.dropCtl st).startDrain st slot ⟨some seq, order, ctx, grid, some va.toNat, none, 0⟩)
  | _, _ => disabled "CFGDRAIN_PERFORM"

/-- The order in which the slots of the M tiles were written stays with a saved run (R345). -/
def Active.aged (a : Active) : ARun := { a.run with ages := AMap.mapVals a.mts (·.ages) }

/-- DRAIN_SAVE (R394 step 4, R399): a drain without a save area, or of a cancelled run, discards the state. A run that is
complete is not saved. -/
def execDrainSave (st slot : Nat) (s : State) : Host.Outcome State Fault Refusal :=
  let p := s.part st slot
  match p.st, p.act, p.drain with
  | .draining, some a, some d =>
    if !s.quiescent st slot || a.complete then disabled "DRAIN_SAVE"
    else
      let target := match d.va, d.phys with
        | some v, _ => some (false, v)
        | none, some v => some (true, v)
        | none, none => none
      match if a.run.cancel then none else target with
      | none => .next (s.endRun st slot a.run 2 0)
      | some (phys, addr) =>
        let (now, s) := s.tickArray st
        let tooLarge := phys && decide (s.regN a.run.ctx rASAVESTRIDE < a.cfg.saveSize)
        let res : Except AreaErr State := if tooLarge then .error ⟨cACCESS, []⟩ else s.saveRun st slot a (now - d.t0) phys addr
        match res with
        | .ok s => .next (s.modPart st slot fun p => { p with st := .saved, act := some { a with run := { a.aged with resume := if phys then some (true, addr) else none } } })
        | .error e =>
          let c := e.cause
          let s := (s.logFills a.run.ctx e.fills).freeze st slot a { cause := c, aux := e.code }
          let s := s.modPart st slot fun p => { p with drain := none }
          .next (match d.seq with
            | some q => s.finishOp d.ctx d.order 3 st q ⟨3, c, 0⟩
            | none => s)
  | _, _, _ => disabled "DRAIN_SAVE"

/-- DRAIN_DONE (R394 step 5): the run stays PENDING and its image pinned. -/
def execDrainDone (st slot : Nat) (s : State) : Host.Outcome State Fault Refusal :=
  let p := s.part st slot
  match p.st with
  | .saved =>
    let s : State := match p.act with
      | some a => s.modStack st fun t => { t with saved := t.saved ++ [⟨a.run, slot⟩] }
      | none => s
    let s := s.modPart st slot fun p => { p with st := .idle, act := none, drain := none }
    .next (s.endDrain st p.drain)
  | _ => disabled "DRAIN_DONE"

/-- DRAIN_TIMEOUT (R395, R399): a run that is being cancelled stops without a record. -/
def execDrainTimeout (st slot : Nat) (s : State) : Host.Outcome State Fault Refusal :=
  let p := s.part st slot
  match p.st, p.act with
  | .draining, some a =>
    if s.quiescent st slot then disabled "DRAIN_TIMEOUT"
    else
      let discards := a.run.cancel || (match p.drain with | some d => d.va.isNone && d.phys.isNone | none => true)
      if discards then .next (s.modPart st slot fun p => { p with st := .frozen })
      else
        let s := (s.freeze st slot a { cause := cDRAINTO }).modPart st slot fun p => { p with drain := none }
        .next (match p.drain with
          | some d => match d.seq with
            | some q => s.finishOp d.ctx d.order 3 st q ⟨3, cDRAINTO, 0⟩
            | none => s
          | none => s)
  | _, _ => disabled "DRAIN_TIMEOUT"

/-! ### CFGEVICT (R404) -/

/-- CFGEVICT_PERFORM. -/
def execCfgevictPerform (st : Nat) (s : State) : Host.Outcome State Fault Refusal :=
  let t := s.stack st
  match t.loading, t.ctl with
  | none, .evict ctx _ seq key order :: _ =>
    let s := s.dropCtl st
    match t.image? ctx key with
    | none => .next (s.finishOp ctx order 3 st seq ⟨1, 0, 0⟩)
    | some m =>
      if m.pins ≠ 0 then .next (s.ctlFault st ctx seq order { cause := cCFG, detail := 0x23, key := key })
      else .next ((s.modStack st fun t => { t with images := t.images.filter fun x => !(x.ctx == ctx && x.key == key) }).finishOp
        ctx order 3 st seq ⟨1, 0, 0⟩)
  | _, _ => disabled "CFGEVICT_PERFORM"

/-! ### HCANCEL of an array operation (R399) -/

def CfgOp.names (o : CfgOp) (ctx seq : Nat) : Bool :=
  match o with
  | .load c _ q _ _ _ => c == ctx && q == seq
  | .run _ r => r.ctx == ctx && r.seq == seq
  | .resume _ _ _ _ _ _ => false
  | .drain c _ q _ _ _ => c == ctx && q == seq
  | .evict c _ q _ _ => c == ctx && q == seq

/-- The run of a partition is to be cancelled: installation finishes, then it drains and is discarded. -/
def State.cancelRun (s : State) (st slot : Nat) : State :=
  let p := s.part st slot
  match p.st, p.act with
  | .running, some a =>
    s.modPart st slot fun p => { p with st := .draining, act := some { a with run := { a.run with cancel := true } }
                                        drain := some ⟨none, [], a.run.ctx, a.run.grid, none, none, 0⟩ }
  | .draining, some a => s.putActive st slot { a with run := { a.run with cancel := true } }
  | .saved, some a => ((s.modPart st slot fun p => { p with act := none }).pinImage st a.run.ctx a.run.key false).finishOp
      a.run.ctx a.run.order 3 st a.run.seq ⟨2, 0, 0⟩
  | _, _ => s

def State.cancelArray (s : State) (st ctx seq : Nat) : State :=
  let t := s.stack st
  let mine := fun (r : ARun) => r.ctx == ctx && r.seq == seq
  if t.ctl.any fun o => o.names ctx seq then
    (s.modStack st fun t => { t with ctl := t.ctl.filter fun o => !o.names ctx seq }).endHandle 3 st ctx seq ⟨2, 0, 0⟩
  else match t.loading, t.saved.find? fun r => mine r.run with
    | some l, none =>
      if l.ctx = ctx ∧ l.seq = seq then s.putLoading st { l with cancel := true } else slots s t mine
    | _, some r => ((s.modStack st fun t => { t with saved := t.saved.filter fun x => !mine x.run }).pinImage st ctx r.run.key false).endHandle
        3 st ctx seq ⟨2, 0, 0⟩
    | none, none => slots s t mine
where
  /-- A run in some partition or its queue. -/
  slots (s : State) (t : Stack) (mine : ARun → Bool) : State :=
    (List.range 8).foldl (fun (s : State) slot =>
      let p := t.part slot
      match p.act with
      | some a => if mine a.run then s.cancelRun st slot else queued s slot p mine
      | none => queued s slot p mine) s
  queued (s : State) (slot : Nat) (p : Part) (mine : ARun → Bool) : State :=
    match p.queue.find? mine with
    | none => s
    | some r =>
      if p.st == .installing && (match p.queue.head? with | some x => mine x | none => false) then
        s.modPart st slot fun p => { p with queue := p.queue.map fun x => if mine x then { x with cancel := true } else x }
      else ((s.modPart st slot fun p => { p with queue := p.queue.filter fun x => !mine x }).pinImage st ctx r.key false).endHandle
        3 st ctx seq ⟨2, 0, 0⟩

end Sys2Proof.Machine
end

