-- ==== Sys2Proof/Machine/Rblk.lean ====
section
/-!
DEFINITION. Machine/Rblk.lean: RBLK (R436): the instruction, the local phases, what arrives from other ranks.
-/
namespace Sys2Proof.Machine

/-! ### The instruction -/

/-- RBLK. -/
def execRblk (h : Hdr) (o : Ops4) : State → Host.Outcome State Fault Refusal :=
  perform h o.list { feats := [5], ok := fun e => e.ops4Ok o hOrZero sPos unused unused } noSync fun e =>
    let va := e.uni o.a
    if va.toNat % 64 ≠ 0 then .trap ⟨cMISALIGN, va, none⟩
    else e.released fun _ =>
      let ctx := e.sig.ctx
      let (seq, s) := e.s.newHandle 4 0 ctx
      let s := e.writeHandle s o.d (handleVal 4 0 ctx seq)
      .done (s.modCtx ctx fun c => { c with rblk := c.rblk ++ [{
        seq := seq, grid := e.sig.grid, order := e.orderKey, desc := va.toNat, group := 0, k := 0, phase := 0, src := 0, dst := 0
        nblk := 0, tag := 0, codes := [], mants := [], got1 := [], got2 := [], page := none }] })

/-! ### Groups and messages -/

def State.modGroup (s : State) (ctx g : Nat) (f : RGroup → RGroup) : State :=
  s.modCtx ctx fun c => { c with groups := AMap.mod c.groups g f }

/-! ### Ends -/

/-- The operation is gone, and with it what has come for it. -/
def State.dropRblk (s : State) (ctx : Nat) (o : RblkOp) : State :=
  let s := s.modCtx ctx fun c => { c with rblk := c.rblk.filter fun x => x.seq != o.seq }
  if o.phase = 0 then s else s.modGroup ctx o.group fun g => { g with early := g.early.filter fun m => m.k != o.k }
def State.putRblk (s : State) (ctx : Nat) (o : RblkOp) : State :=
  s.modCtx ctx fun c => { c with rblk := c.rblk.map fun x => if x.seq == o.seq then o else x }

/-- The operation ends FAULTED with a record of SOURCE 0x07; `abort`: the other members are told. -/
def State.rblkFault (s : State) (ctx : Nat) (o : RblkOp) (cause addr : Nat) (abort : Bool) : State :=
  let s := s.dropRblk ctx o
  let s := if abort then s.sendRblk ctx o (s.group ctx o.group) 3 else s
  let s := s.log ctx { source := 7, cause := cause, grid := o.grid, handle := handleVal 4 0 ctx o.seq, addr := BitVec.ofNat 64 addr }
  s.finishOp ctx o.order 4 0 o.seq ⟨3, cause, 0⟩

/-- The operation ends CANCELLED, and the other members are told. -/
def State.endRblk (s : State) (ctx : Nat) (o : RblkOp) : State :=
  ((s.dropRblk ctx o).sendRblk ctx o (s.group ctx o.group) 3).finishOp ctx o.order 4 0 o.seq ⟨2, 0, 0⟩

/-- The operation is within a phase: it waits for a page, or for bursts. -/
def RblkOp.midPhase (o : RblkOp) : Bool := o.page.isSome || !o.paid.isEmpty

/-- A cancel (R158): between phases it takes effect at once, within a phase at its end; while DST is written the operation
completes. One whose descriptor has not been read ends when it has taken its number in the group (log entry 24). -/
def State.cancelRblk (s : State) (ctx : Nat) (o : RblkOp) : State :=
  if o.phase = 5 then s
  else if o.phase = 0 || o.midPhase then s.putRblk ctx { o with cancel := true }
  else s.endRblk ctx o

/-! ### Arithmetic -/

/-- The 32 elements of block j. -/
def rblkBlock (bs : List Byte) (j : Nat) : List XR :=
  (List.range 32).map fun i => FP32.decode (field bs (128 * j + 4 * i) 4)

/-- code(j). -/
def rblkCode (xs : List XR) : Nat :=
  if xs.any fun x => !x.isFin then 0xFF
  else if xs.all fun x => x.isZero then 0
  else xs.foldl (fun a x => match x with
    | .fin _ m e => if m = 0 then a else max a (min 254 (max 0 (floorLog2 m e + 127))).toNat
    | _ => a) 0

/-- m of phase 2, for E = X(j) - 127; a block that some rank could not code has no mantissas. -/
def rblkMant (x : Nat) (v : XR) : Int :=
  match v with
  | .fin neg m e => if x = 0xFF then 0 else roundInt .rtz neg m (e + 22 - ((x : Int) - 127))
  | _ => 0

/-- The DST element of a sum. -/
def rblkElem (x : Nat) (sum : Int) : Nat :=
  if x = 0xFF then FP32.nan
  else FP32.encode .rne false false (.fin (decide (sum < 0)) sum.natAbs ((x : Int) - 127 - 22))

/-- X(j). -/
def RblkOp.top (o : RblkOp) (j : Nat) : Nat := o.got1.foldl (fun a m => max a (m.2.codes.getD j 0)) 0

/-- DST. -/
def RblkOp.result (o : RblkOp) : List Byte :=
  (List.range (32 * o.nblk)).flatMap fun i =>
    bytesOfNat 4 (rblkElem (o.top (i / 32)) (o.got2.foldl (fun a m => a + m.2.mants.getD i 0) 0))

/-! ### What arrives -/

/-- A message reaches the operation that it belongs to. -/
def State.rblkTake (s : State) (ctx : Nat) (o : RblkOp) (m : RblkMsg) : State :=
  let g := s.group ctx o.group
  let formOk := m.nranks == g.members.length && m.crc == g.crc && decide (m.rank < g.members.length) && m.rank != g.rank
  match m.phase with
  | 1 => if !formOk || m.nblk != o.nblk || m.tag != o.tag then s.rblkFault ctx o cOPERAND 0 false
    else s.putRblk ctx { o with got1 := AMap.set o.got1 m.rank m }
  | 2 => s.putRblk ctx { o with got2 := AMap.set o.got2 m.rank m }
  | 3 => s.rblkFault ctx o cACCESS 0 false
  | _ => s.rblkFault ctx o cACCESS 0 true

/-- The group keeps a message that has come early. -/
def State.keepRblk (s : State) (m : RblkMsg) : State := s.modGroup m.ctx m.group fun g => { g with early := g.early ++ [m] }

/-- The early messages of an operation reach it in their order, as long as it lasts. -/
def State.rblkEarly (s : State) (ctx : Nat) (o : RblkOp) : State :=
  let mine := (s.group ctx o.group).early.filter fun m => m.k == o.k
  let s := s.modGroup ctx o.group fun g => { g with early := g.early.filter fun m => m.k != o.k }
  mine.foldl (fun (s : State) m =>
    match (s.ctx ctx).rblk.find? fun x => x.seq == o.seq with
    | some o => s.rblkTake ctx o m
    | none => s) s

/-- The context that a message from this device refuses: its operation ends with ACCESS and aborts the others (R436). -/
def State.rblkRefuse (s : State) (sender : Nat) (m : RblkMsg) : State :=
  match (s.ctx sender).rblk.find? fun o => o.group == m.group && o.k == m.k && o.phase != 0 with
  | some o => s.rblkFault sender o cACCESS 0 true
  | none => s

/-- The operation has not sent its own phase-1 message, so that it keeps the others' for later: every rank finds a mismatch by
itself (R436). -/
def RblkOp.unsent (o : RblkOp) : Bool := decide (o.phase ≤ 1)

/-- A message reaches a context: its operation, the group's store of early messages, or nothing that waits for it. `sender` is
the sending context where it is one of this device, whose rank is then checked; a message with a wrong rank keeps none. A group
that is not defined refuses the message. -/
def State.rblkReceive (s : State) (sender : Option Nat) (m : RblkMsg) : State :=
  match AMap.get? (s.ctx m.ctx).groups m.group with
  | none => match sender with
    | some c => if m.phase = 3 then s else s.rblkRefuse c m
    | none => s
  | some g =>
    let m := match sender with
      | some c => if m.phase = 3 || g.members[m.rank]? == some (Config.deviceNumber 0, c) then m else { m with rank := g.members.length }
      | none => m
    match (s.ctx m.ctx).rblk.find? fun o => o.group == m.group && o.k == m.k && o.phase != 0 with
    | some o => if o.unsent && m.phase != 3 then s.keepRblk m else s.rblkTake m.ctx o m
    | none => if g.issued ≤ m.k then s.keepRblk m else s

/-- RBLK_MESSAGE: from another context of this device, whose message is on its way, or from a peer. -/
def execRblkMessage (m : RblkMsg) (s : State) : Host.Outcome State Fault Refusal :=
  match s.outbox.find? fun x => x.1 == Config.deviceNumber 0 && x.2.2 == m with
  | some x => .next ({ s with outbox := s.outbox.erase x }.rblkReceive (some x.2.1) m)
  | none => .next (s.rblkReceive none m)

/-- RBLK_ABORT. -/
def execRblkAbort (ctx group k : Nat) (s : State) : Host.Outcome State Fault Refusal :=
  .next (s.rblkReceive none ⟨ctx, group, k, 3, 0, 0, 0, 0, 0, [], []⟩)

/-! ### The local phases -/

/-- A read or write of the operation stops: it faults, or waits for a page. -/
def State.rblkStop (s : State) (ctx : Nat) (o : RblkOp) (x : Stop) : State :=
  let s := { s with touched := x.read }
  match x with
  | .fault c a _ => s.rblkFault ctx o c a false
  | _ => (s.askStop ctx x).putRblk ctx { o with page := x.page }

/-- The descriptor is read and checked; the operation takes its number in the group. -/
def State.rblkOpen (s : State) (ctx : Nat) (o : RblkOp) : State :=
  match s.engRead s.peerResp readNeed ctx o.desc 64 with
  | .error x => s.rblkStop ctx o x
  | .ok (bs, s) =>
    let group := field bs 0x14 1
    match AMap.get? (s.ctx ctx).groups group with
    | none => s.rblkFault ctx o cOPERAND 0 false
    | some g =>
      let o := { o with group := group, k := g.issued, phase := 1, src := field bs 0 8, dst := field bs 8 8, nblk := field bs 0x10 4,
                        tag := BitVec.ofNat 64 (field bs 0x18 8), page := none }
      let s := s.modGroup ctx group fun g => { g with issued := g.issued + 1 }
      if o.cancel then s.endRblk ctx o
      else if o.src % 128 ≠ 0 ∨ o.dst % 128 ≠ 0 then s.rblkFault ctx o cMISALIGN (if o.src % 128 ≠ 0 then o.src else o.dst) true
      else if o.nblk = 0 ∨ 2 ^ 20 < o.nblk ∨ field bs 0x15 3 ≠ 0 ∨ field bs 0x20 32 ≠ 0 then s.rblkFault ctx o cOPERAND 0 true
      else if g.early.any fun m => m.k == o.k && m.phase == 3 then s.rblkFault ctx o cACCESS 0 false
      else s.putRblk ctx o

/-- Phase 1 or 2 of the operation up to its exchange. -/
def State.rblkSend (s : State) (ctx : Nat) (o : RblkOp) (phase : Nat) : State :=
  match s.engRead s.peerResp readNeed ctx o.src (128 * o.nblk) with
  | .error x => s.rblkStop ctx o x
  | .ok (bs, s) =>
    let g := s.group ctx o.group
    if o.cancel then s.endRblk ctx o
    else if phase = 1 then
      let o := { o with codes := (List.range o.nblk).map fun j => rblkCode (rblkBlock bs j), page := none, phase := 2 }
      ((s.putRblk ctx { o with got1 := AMap.set o.got1 g.rank (o.msg g ctx 1) }).sendRblk ctx o g 1).rblkEarly ctx o
    else
      let o := { o with mants := (List.range o.nblk).flatMap fun j => (rblkBlock bs j).map (rblkMant (o.top j)), page := none, phase := 4 }
      (s.putRblk ctx { o with got2 := AMap.set o.got2 g.rank (o.msg g ctx 2) }).sendRblk ctx o g 2

/-- DST is written, and the operation is DONE. -/
def State.rblkStore (s : State) (ctx : Nat) (o : RblkOp) : State :=
  match s.engWrite s.peerResp ctx o.dst o.result with
  | (_, some x, s) => s.rblkStop ctx o x
  | (_, none, s) => (s.dropRblk ctx o).finishOp ctx o.order 4 0 o.seq ⟨1, 0, 0⟩

/-- What a phase has read and written is charged to CD (R259, R436): with every burst issued, the outcome t stands; else t is
discarded, and the operation goes on once the periods have let the rest through. -/
def State.chargeRblk (s : State) (ctx : Nat) (o : RblkOp) (f : State → State) : State :=
  let t := f { s with touched := [] }
  let need := burstsOf t.touched
  let (paid, s1) := s.payBursts false need o.paid
  if Bursts.covered need paid then
    let (_, t) := { t with touched := [] }.payBursts false need o.paid
    t.modCtx ctx fun c => { c with rblk := c.rblk.map fun x => if x.seq == o.seq then { x with paid := [] } else x }
  else s1.putRblk ctx { o with paid := paid }

/-- One move of an operation; none while it waits. -/
def State.rblkMove (s : State) (ctx : Nat) (o : RblkOp) : Option State :=
  let n := (s.group ctx o.group).members.length
  if !s.pageBack ctx o.page then none
  else match o.phase with
    | 0 => if (s.ctx ctx).rblk.any fun x => x.phase == 0 && decide (x.seq < o.seq) then none else some (s.chargeRblk ctx o fun s => s.rblkOpen ctx o)
    | 1 => some (s.chargeRblk ctx o fun s => s.rblkSend ctx o 1)
    | 2 => if o.got1.length = n then some (s.putRblk ctx { o with phase := 3 }) else none
    | 3 => some (s.chargeRblk ctx o fun s => s.rblkSend ctx o 2)
    | 4 => if o.got2.length = n then some (s.putRblk ctx { o with phase := 5 }) else none
    | _ => some (s.chargeRblk ctx o fun s => s.rblkStore ctx o)

/-- Every operation of an ACTIVE context goes as far as it can; pre-emption stops it at the end of a phase (R421). -/
def State.settleRblk (s : State) (ctx : Nat) : State :=
  let saving := (s.ctx ctx).st == .saving
  (s.ctx ctx).rblk.foldl (fun (s : State) o =>
    if !saving then run 6 s ctx o.seq
    else if o.midPhase then run 1 s ctx o.seq
    else s) s
where
  run (fuel : Nat) (s : State) (ctx seq : Nat) : State :=
    match fuel with
    | 0 => s
    | fuel + 1 => match (s.ctx ctx).rblk.find? fun x => x.seq == seq with
      | none => s
      | some o => match s.rblkMove ctx o with
        | some s => run fuel s ctx seq
        | none => s

end Sys2Proof.Machine
end

