-- ==== Sys2Proof/Machine/System.lean ====
section
/-!
DEFINITION. Machine/System.lean: system registers (R411 to R413), SRREG, SWREG, FREC, ICINV (R424 to R428), writes of
registers with limits of their own (R145, R418, R423, R435).
-/
namespace Sys2Proof.Machine

/-! ### Selectors (R413) -/

/-- A selector taken apart. -/
structure Selector where
  num : Nat
  sub : Nat
  stack : Nat
  group : Nat
  deriving DecidableEq, Repr

/-- The register that a selector names; none for a reserved field or a register that its group does not list. -/
def Selector.parse (sel : BitVec 32) : Option Selector :=
  let x := sel.toNat
  let r : Selector := ⟨bitsOf x 7 0, bitsOf x 13 8, bitsOf x 17 14, bitsOf x 21 18⟩
  let top := x / 2 ^ 22 == 0
  let ok := match r.group with
    | 0 => decide (r.num ≤ 0x22) && r.sub == 0 && r.stack == 0
    | 1 => decide (r.num ≤ 0x1C) && decide (r.stack < Config.nStacks)
    | 2 => decide (r.num ≤ 0x0A) && decide (r.stack < Config.nStacks)
    | 3 => decide (r.num ≤ 0x08) && r.sub == 0 && decide (r.stack < Config.nStacks)
    | 4 => decide (r.num ≤ 0x03) && decide (r.sub < 4) && r.stack == 0
    | 5 => r.sub == 0 && r.stack == 0
    | _ => false
  if top && ok then some r else none

/-- The selector of an instruction: (IMM + A[31:0]) mod 2^32 (R424). -/
def Env.selector (e : Env) (a : Operand) (imm : BitVec 32) : Option Selector := Selector.parse (imm + (e.uni a).setWidth 32)

/-! ### Reading -/

/-- Slot k of a stack is an enabled partition of the context. -/
def State.owns (s : State) (ctx st slot : Nat) : Bool :=
  let r := (s.part st slot).reg
  prEn r && prCtx r == ctx

/-- R262: whether the context may read a counter. -/
def State.mayCount (s : State) (ctx st num : Nat) : Bool :=
  (s.reg ctx rMONITOR).getLsbD 0 || num == 0 || (decide (3 ≤ num) && decide (num ≤ 0x0A) && s.owns ctx st (num - 3))
    || (decide (0x0D ≤ num) && decide (num ≤ 0x14) && s.owns ctx st (num - 0x0D))

/-- R262: whether the context may read a budget register. -/
def State.mayBudget (s : State) (ctx st num : Nat) : Bool :=
  (s.reg ctx rMONITOR).getLsbD 0 || (decide (2 ≤ num) && decide (num ≤ 9) && s.owns ctx st (num - 2))

/-- Counters that hold exactly what the model counts: CEB, PB0 to PB7, the refresh counters. CDB and ECCU hold what it counts
and what lines written back and errors that no access of the model meets have added; every other one has advanced by an amount
that is not stated when it is read (R4, R262; log entries 5 and 46). -/
def counted (num : Nat) : Bool := decide (2 ≤ num) && decide (num ≤ 0x0A) || (decide (0x18 ≤ num) && decide (num ≤ 0x1A))

/-- A pseudo-channel counter as it reads. -/
def State.readCounter (s : State) (st ch num : Nat) : Word64 × State :=
  let v := AMap.getD ((s.stack st).chan ch).counters num 0
  if counted num then (v, s)
  else
    let (d, s) := s.drawWord
    (v + d, s.modStack st fun t => t.modChan ch fun c => { c with counters := AMap.set c.counters num (v + d) })

/-- The register's value for a path. -/
def Env.sysRead (e : Env) (r : Selector) : Word64 × State :=
  let ctx := e.sig.ctx
  let cl := e.s.cluster (clusterOf e.sel.core)
  match r.group with
  | 0 => (e.s.reg ctx r.num, e.s)
  | 1 => if e.s.mayCount ctx r.stack r.num then e.s.readCounter r.stack r.sub r.num else (0, e.s)
  | 2 => if e.s.mayBudget ctx r.stack r.num then (BitVec.ofNat 64 (((e.s.stack r.stack).chan r.sub).budget.getD r.num 0), e.s) else (0, e.s)
  | 3 => if r.num = 0 then e.s.tickArray r.stack else ((e.s.part r.stack (r.num - 1)).reg, e.s)
  | 4 => (match r.num with
    | 0 => (e.core.port r.sub).fmtErr
    | 1 => cl.copyErr
    | 2 => cl.matErr
    | _ => BitVec.ofNat 64 e.core.outst, e.s)
  | _ => (AMap.getD (e.s.ctx ctx).windows r.num 0, e.s)

/-- SRREG (R425). -/
def execSrreg (h : Hdr) (o : Ops2) (imm : BitVec 32) : State → Host.Outcome State Fault Refusal :=
  perform h o.list { ok := fun e => e.ops2Ok o { kinds := [.v, .s, .idx] } { kinds := [.s, .zero] } } noSync fun e =>
    e.indexed [(o.d, false)] fun _ =>
      match e.selector o.a imm with
      | none => .trap (trapOf cOPERAND)
      | some r =>
        let (v, s) := e.sysRead r
        .done (e.writeUni s o.d v)

/-! ### Writing (R409, R411, R412) -/

/-- Registers of class S: a trap handler writes them, and the driver. -/
def regS (num : Nat) : Bool := num == rFRTAIL || num == rCOVBASE || num == rCOVSIZE
/-- Registers of class D. -/
def regD (num : Nat) : Bool := !regS num && num != 0 && num != rFPCTL && num != rFRHEAD && num != rFRDROP && !(decide (0x1B ≤ num) && decide (num ≤ 0x1E))
/-- Registers of class D that the driver may write at any time (R409). -/
def regAnyTime (num : Nat) : Bool := regS num || num == rTRAPVEC || num == rTRAPEN || num == rWDOG || num == rMONITOR

/-- The feature words that the device presents (R423). -/
def featDev (n : Nat) : Word64 := if n = 0 then Config.featdev0 else 0

/-- The value keeps the register's limits (R411, R418, R423). -/
def State.regOk (s : State) (ctx num : Nat) (v : Word64) : Bool :=
  let x := v.toNat
  let page := x % 4096 == 0
  let inHbm := (hbmOf x).isSome && page
  match num with
  | 0x01 => decide (x < 8)
  | 0x02 => page && decide (x < 2 ^ 44)
  | 0x03 => x == 0 || pcValid v
  | 0x08 => decide (s.regN ctx rFRTAIL ≤ x) && decide (x ≤ s.regN ctx rFRHEAD)
  | 0x05 => page | 0x06 => page | 0x0A => page
  | 0x0B => page && decide (s.regN ctx rCOVSIZE ≤ x)
  | 0x0C => page
  | 0x0D => x % (192 * 528) == 0
  | 0x0E => x % 2 ^ 20 == 0
  | 0x0F => page | 0x10 => page | 0x11 => page | 0x13 => page
  | 0x15 => x % 2 ^ 16 < 2 && decide (x < 2 ^ 33) && decide (x / 2 ^ 16 ≤ 65536)
      && (x % 2 == 0 || (decide (256 ≤ x / 2 ^ 16) && s.feat ctx 6))
  | 0x16 => x == 0 || (decide (2 ^ 10 ≤ x) && decide (x ≤ 2 ^ 40))
  | 0x17 => decide (x ≤ 1)
  | 0x18 => inHbm | 0x19 => inHbm
  | 0x1A => page
  | 0x1F => v &&& ~~~featDev 0 == 0
  | 0x20 => v == 0 | 0x21 => v == 0 | 0x22 => v == 0
  | _ => true

/-- SWREG (R426). -/
def execSwreg (h : Hdr) (o : Ops2) (imm : BitVec 32) : State → Host.Outcome State Fault Refusal :=
  perform h o.list { ok := fun e => e.ops2Ok o { kinds := [.v, .s, .idx, .zero] } { kinds := [.s, .zero] } } noSync fun e =>
    e.indexed [(o.d, false)] fun _ =>
      match e.selector o.a imm with
      | none => .trap (trapOf cOPERAND)
      | some r =>
        let x := match lowest e.act with | some l => (e.raw o.d)[l] | none => 0
        if r.group ≠ 0 ∨ !(r.num == rFPCTL || (e.path.handler && regS r.num)) then .trap (trapOf cPRIV)
        else if !e.s.regOk e.sig.ctx r.num x then .trap (trapOf cOPERAND)
        else .done (e.s.setReg e.sig.ctx r.num x)

/-- A write that is performed when the value is in order, and has no effect otherwise. -/
def State.regEvent (s : State) (ctx num : Nat) (v : Word64) (any : Bool) : State :=
  if (any || (s.ctx ctx).grids.isEmpty) && s.regOk ctx num v then s.setReg ctx num v else s

/-- FRTAIL_WRITE (R418). -/
def execFrtailWrite (ctx : Nat) (v : Word64) (s : State) : Host.Outcome State Fault Refusal := .next (s.regEvent ctx rFRTAIL v true)
/-- COVSIZE_WRITE (R145). -/
def execCovsizeWrite (ctx : Nat) (v : Word64) (s : State) : Host.Outcome State Fault Refusal := .next (s.regEvent ctx rCOVSIZE v true)
/-- DETCTL_WRITE (R83, R423). -/
def execDetctlWrite (ctx : Nat) (v : Word64) (s : State) : Host.Outcome State Fault Refusal := .next (s.regEvent ctx rDETCTL v false)
/-- FEATACC_WRITE (R423): of word n. -/
def execFeataccWrite (ctx n : Nat) (v : Word64) (s : State) : Host.Outcome State Fault Refusal :=
  if n < 4 then .next (s.regEvent ctx (rFEATACC0 + n) v false) else disabled "FEATACC_WRITE"

/-- A window keeps its reserved bits clear (R435). -/
def windowOk (v : Word64) : Bool := v.toNat / 2 ^ 37 % 2 ^ 26 == 0
def State.setWindow (s : State) (ctx w : Nat) (v : Word64) : State := s.modCtx ctx fun c => { c with windows := AMap.set c.windows w v }

/-- PEER_WINDOW_WRITE (R435). -/
def execPeerWindowWrite (ctx w : Nat) (v : Word64) (s : State) : Host.Outcome State Fault Refusal :=
  if 256 ≤ w then disabled "PEER_WINDOW_WRITE" else .next (if windowOk v then s.setWindow ctx w v else s)

/-! ### FREC and ICINV -/

/-- FREC (R427). -/
def execFrec (h : Hdr) (o : Ops4) : State → Host.Outcome State Fault Refusal :=
  let src : Pos := { kinds := [.s, .imm, .zero] }
  perform h o.list { ok := fun e => e.ops4Ok o { kinds := [.s, .zero] } unused src src } noSync fun e =>
    let r : FRec := { source := 8, cause := 0, core := e.sel.core, port := e.portNo
                      sig := if e.sig.quire.isSome then e.sig.sigix else 0xFF, grid := e.sig.grid
                      quire := if e.sig.quire.isSome then e.sig.qix else 2 ^ 64 - 1, pc := e.path.pc
                      aux0 := e.uni o.b, aux1 := e.uni o.c }
    let (n, s) := e.s.putRecord e.sig.ctx r.bytes
    .done (e.writeSZ s o.d (match n with | some i => BitVec.ofNat 64 i | none => BitVec.allOnes 64))

/-- The instruction caches of a context no longer hold the lines that a range of code touches (R428). -/
def State.dropCode (s : State) (ctx va len : Nat) : State :=
  s.modCtx ctx fun c => { c with
    icache := c.icache.filter fun x => decide (len = 0) || decide (128 * x.1 + 128 ≤ va) || decide (va + len ≤ 128 * x.1) }

/-- ICINV (R428): the range is widened to whole lines; the next fetch of each reads its home slice. -/
def execIcinv (h : Hdr) (o : Ops4) : State → Host.Outcome State Fault Refusal :=
  perform h o.list { ok := fun e => e.ops4Ok o unused sPos uPos unused } noSync fun e =>
    if 2 ^ 36 < e.u o.b then .trap (trapOf cOPERAND) else .done (e.s.dropCode e.sig.ctx (e.uni o.a).toNat (e.u o.b))

end Sys2Proof.Machine
end

