-- ==== Sys2Proof/Machine/Events.lean ====
section
/-!
DEFINITION. Machine/Events.lean: events of a core (R84, R89, R146), fills that end (R255, R256), channel time (R260, R261),
the power stage (R441).
-/
namespace Sys2Proof.Machine

/-! ### A core -/

/-- RECORD_RELAUNCH (R146): records of a context that is not ACTIVE stay. -/
def execRecordRelaunch (core : Nat) (s : State) : Host.Outcome State Fault Refusal :=
  let k := s.core core
  match k.ctx with
  | none => disabled "RECORD_RELAUNCH"
  | some ctx => match k.nextReady (s.det ctx) with
    | none => disabled "RECORD_RELAUNCH"
    | some r =>
      if (s.ctx ctx).st ≠ .active then disabled "RECORD_RELAUNCH"
      else match k.portFor r with
        | some p => .next (s.resume core r p)
        | none => disabled "RECORD_RELAUNCH"

/-- WATCHDOG (R89): after the instruction that brought the count to the budget. -/
def execWatchdog (core slot pidx : Nat) (s : State) : Host.Outcome State Fault Refusal :=
  match s.sig? core slot with
  | none => disabled "WATCHDOG"
  | some g => match g.path? pidx with
    | none => disabled "WATCHDOG"
    | some p => match p.wdog with
      | none => disabled "WATCHDOG"
      | some (w, m, pc) =>
        let s := s.modSig core slot fun g => g.modPath pidx fun p => { p with wdog := none }
        let e : Env := ⟨s, ⟨core, slot, pidx, w, false⟩, g, p, m⟩
        .next (e.take s ⟨cWATCHDOG, pc, 0, w, m, m⟩)

/-- ISSUE_QUANTUM_END (R84). -/
def execIssueQuantumEnd (core slot : Nat) (s : State) : Host.Outcome State Fault Refusal :=
  match s.sig? core slot with
  | some g =>
    if s.det g.ctx ∧ !g.ended ∧ s.detQ g.ctx ≤ g.quantum then .next (s.modSig core slot fun g => { g with ended := true })
    else disabled "ISSUE_QUANTUM_END"
  | none => disabled "ISSUE_QUANTUM_END"

/-! ### Fills -/

/-- A page that something waits for lies in a fill's page. -/
def Fill.covers (f : Fill) (p : Option Nat) : Bool := match p with | some va => decide (f.va ≤ va) && decide (va < f.va + f.size) | none => false

/-- The fill leaves the engine; the next request starts (R255). -/
def State.dropFill (s : State) (ix : Nat) : State := { s with fills := startFills (s.fills.eraseIdx ix) }

/-- Records that wait for the page become READY (R141, R256). -/
def State.wakePage (s : State) (f : Fill) (fault : Nat) : State :=
  s.wakeCtx f.ctx fun r => if r.reason = 3 ∧ f.va ≤ r.evaux.toNat ∧ r.evaux.toNat < f.va + f.size then some fault else none

/-- Why a tile waits for the page: the address of its word, or of the cell or payload of its NOTIFY, and the place in the walk. -/
def Active.waitsFor (a : Active) (f : Fill) (x : Nat × Nat) : Option (Nat × Nat) :=
  match (a.st x).waiting, (a.ct x).page with
  | some va, _ => if f.covers (some va) then some (va, match a.cfg.port? x a.ctxi with
      | some r => r.counters (a.st x).pos
      | none => 0) else none
  | none, some va => if f.covers (some va) then some (va, 0) else none
  | none, none => none

/-- Of the tiles of a run that wait for the page, the one with the lowest row, then the lowest column, freezes it (R256, R392,
R393). -/
def State.failTiles (s : State) (f : Fill) (code st slot : Nat) : State :=
  match (s.part st slot).act with
  | none => s
  | some a =>
    if a.run.ctx ≠ f.ctx ∨ !((s.part st slot).st == .running || (s.part st slot).st == .draining) then s
    else
      let hit := (a.cfg.sTiles ++ a.cfg.tiles.map (·.1)).filterMap fun x => (a.waitsFor f x).map fun w => (x, w)
      let first := hit.foldl (fun (m : Option ((Nat × Nat) × Nat × Nat)) y => match m with
        | none => some y
        | some z => if y.1.1 < z.1.1 ∨ y.1.1 = z.1.1 ∧ y.1.2 < z.1.2 then some y else m) none
      match first with
      | some (x, va, cs) => s.freeze st slot a { cause := cPAGE, tile := x, va := va, counters := cs, aux := code }
      | none => s

/-- Everything of a stack that waits for the page ends with PAGE. -/
def State.failStack (s : State) (f : Fill) (code st : Nat) : State :=
  let s := match (s.stack st).loading with
    | some l => if l.ctx = f.ctx ∧ f.covers l.page then s.faultLoading st l { cause := cPAGE, va := l.va + l.bytes.length, aux := code } else s
    | none => s
  (List.range 8).foldl (fun (s : State) slot =>
    let p := s.part st slot
    match p.st, p.queue with
    | .installing, r :: _ =>
      if r.ctx = f.ctx ∧ f.covers p.page then s.faultInstall st slot r { cause := cPAGE, va := p.page.getD 0, aux := code } else s
    | _, _ => s.failTiles f code st slot) s

/-- Engine operations that wait for the page end FAULTED with PAGE (R256); a completion word that the page was to hold is not
written (R314). -/
def State.failEngines (s : State) (f : Fill) (code : Nat) : State :=
  let s := s.clusters.foldl (fun (s : State) (c : Nat × Cluster) =>
    let s := (c.2.copies.filter fun o => o.ctx == f.ctx && f.covers o.page).foldl (fun (s : State) o => match o.ending with
      | some (_, h) => (s.dropCopy c.1 o).finishOp o.ctx o.order 1 o.unit o.seq h
      | none => s.faultCopy c.1 o cPAGE (o.page.getD 0)) s
    (c.2.mats.filter fun o => o.ctx == f.ctx && f.covers o.page).foldl (fun (s : State) o => s.faultMat c.1 o cPAGE (o.page.getD 0)) s) s
  let s := ((s.ctx f.ctx).rblk.filter fun o => f.covers o.page).foldl (fun (s : State) o => s.rblkFault f.ctx o cPAGE (o.page.getD 0) false) s
  (AMap.keys s.memStacks).foldl (fun (s : State) st => s.failStack f code st) s

/-- What a fill that has ended well has read and written in DRAM: its descriptor and the frame (R255, R259); nothing where the
page was resident already. -/
def State.fillBursts (s t : State) (f : Fill) : Bursts :=
  match s.walk f.ctx f.va, t.walk f.ctx f.va with
  | some l, some l' =>
    if l.res then []
    else
      let b := frameBursts l'.addr l'.size
      match (s.walk f.ctx (s.regN f.ctx rBKBASE + 64 * l.addr)) with
      | some d => if d.res then match hbmOf (d.addr + (s.regN f.ctx rBKBASE + 64 * l.addr) % d.size) with
          | some a => b.one (a / 64) 1
          | none => b
        else b
      | none => b
  | _, _ => []

/-- A fill has ended well: what waits for the page goes on. -/
def State.fillDone (s : State) (ix : Nat) (f : Fill) : State := ((s.dropFill ix).wakePage f 0).unask f.ctx f.va f.size

/-- A fill has failed (R256): the records, then PAGE for what waits for the page; where the backing table cannot be reached,
the kill of R411. -/
def State.fillLost (s : State) (ix : Nat) (f : Fill) (errs : List FillErr) (lost : Bool) : State :=
  let s := s.dropFill ix
  if lost then s.fillFailed f.ctx errs true
  else
    let code := match errs.getLast? with | some e => e.code | none => 0
    (((s.fillFailed f.ctx errs false).wakePage f cPAGE).failEngines f code).parkPage f.ctx f.va f.size

/-- PAGE_FILL_COMPLETE (R255, R256): a fill that has ended well stands once CE has let its bursts through; until then what it has
done is discarded (R259, R260; log entry 46). -/
def execPageFillComplete (ix : Nat) (r : Resp) (s : State) : Host.Outcome State Fault Refusal :=
  match s.fills[ix]? with
  | none => disabled "PAGE_FILL_COMPLETE"
  | some f =>
    if !f.started then disabled "PAGE_FILL_COMPLETE"
    else match fillPage s.fillDepth s f.ctx f.va r with
      | .done t =>
        let need := s.fillBursts t f
        let (paid, s1) := s.payBursts true need f.paid
        if Bursts.covered need paid then .next ((t.payBursts true need f.paid).2.fillDone ix f)
        else .next { s1 with fills := s1.fills.modify ix fun f => { f with paid := paid } }
      | .failed t errs lost => .next (t.fillLost ix f errs lost)

/-! ### Channel time -/

/-- One refresh of a bank is performed and charged to REF. -/
def PChan.refresh (c : PChan) : PChan := { c with left := c.left.set 10 (c.left.getD 10 0 - 4) }.add 0x18 1

/-- Postponed refreshes are performed, oldest first, while units last (R261). -/
def PChan.catchUp : List Nat → PChan → PChan
  | [], c => { c with postponed := [] }
  | b :: r, c => if c.left.getD 10 0 < 4 then { c with postponed := b :: r } else PChan.catchUp r c.refresh

/-- The same of a pseudo-channel that issues: during a forced all-bank refresh it does not. -/
def PChan.caught (c : PChan) : PChan := if c.allBank then c else PChan.catchUp c.postponed c

/-- CHANNEL_PERIOD (R260). -/
def execChannelPeriod (stack pc : Nat) (s : State) : Host.Outcome State Fault Refusal :=
  if Config.nStacks ≤ stack ∨ 64 ≤ pc then disabled "CHANNEL_PERIOD"
  else .next (s.modStack stack fun t => t.modChan pc fun c =>
    let b := c.pending.getD c.budget
    PChan.caught { c with budget := b, pending := none, left := b })

/-- REFRESH_DUE (R261): older refreshes that were postponed come first; during a forced all-bank refresh nothing is issued, and
a refresh that falls due is postponed. -/
def execRefreshDue (stack pc bank : Nat) (s : State) : Host.Outcome State Fault Refusal :=
  if Config.nStacks ≤ stack ∨ 64 ≤ pc ∨ 16 ≤ bank then disabled "REFRESH_DUE"
  else .next (s.modStack stack fun t => t.modChan pc fun c =>
    let c := c.caught
    if 4 ≤ c.left.getD 10 0 ∧ !c.allBank then c.refresh
    else if c.postponed.count bank = 8 then { c with postponed := [], allBank := true }.add 0x1A 1
    else { c with postponed := c.postponed ++ [bank] }.add 0x19 1)

/-- ALL_BANK_REFRESH_END (R261). -/
def execAllBankRefreshEnd (stack pc : Nat) (s : State) : Host.Outcome State Fault Refusal :=
  if ((s.stack stack).chan pc).allBank then .next (s.modStack stack fun t => t.modChan pc fun c => { c with allBank := false }.caught)
  else disabled "ALL_BANK_REFRESH_END"

/-- POWER_LIMIT (R441): only figures in seconds change. -/
def execPowerLimit (lowered : Bool) (s : State) : Host.Outcome State Fault Refusal :=
  .next { s with platform := { s.platform with slow := lowered } }

end Sys2Proof.Machine
end

