-- ==== Sys2Proof/Machine/Cancel.lean ====
section
/-!
DEFINITION. Machine/Cancel.lean: HCANCEL (R158) of each kind of operation (R316, R338, R399, R436), of a child grid.
-/
namespace Sys2Proof.Machine

/-! ### Copy and matrix operations -/

/-- A copy is cancelled at once where it stands at a boundary, else at its next boundary (R316); one that has ended short already
stays as it ended (R315). -/
def State.cancelCopyOp (s : State) (unit ctx seq : Nat) : State :=
  s.clusters.foldl (fun (s : State) (c : Nat × Cluster) =>
    match c.2.copies.find? fun o => o.unit == unit && o.ctx == ctx && o.seq == seq with
    | none => s
    | some o => if o.ending.isSome then s else if o.atBoundary then s.cancelCopy c.1 o else s.putCopy c.1 { o with cancel := true }) s

/-- A matrix command is cancelled between steps (R338). -/
def State.cancelMatOp (s : State) (unit ctx seq : Nat) : State :=
  s.clusters.foldl (fun (s : State) (c : Nat × Cluster) =>
    match c.2.mats.find? fun o => o.unit == unit && o.ctx == ctx && o.seq == seq with
    | none => s
    | some o => s.cancelMat c.1 o) s

/-! ### Child grids -/

/-- The descendants of some grids of a context, with them. -/
def Ctx.descend (x : Ctx) : Nat → List Nat → List Nat
  | 0, l => l
  | n + 1, l => x.descend n (l ++ ((AMap.vals x.grids).filter fun g => !l.contains g.id && (match g.parent with | some p => l.contains p | none => false)).map (·.id))

/-- The tasks in the ring of a core, oldest first (R162). -/
def State.ringTasks (s : State) (ctx core : Nat) : Except AreaErr (List Task × State) :=
  let k := s.core core
  (List.range k.ringLen).foldlM (fun (a : List Task × State) i => do
    let (bs, s) ← a.2.areaRead ctx (a.2.ringAddr ctx core (k.ringHead + i)) 528
    return (a.1 ++ [Task.ofImage bs], s)) ([], s)

/-- The tasks of a core's ring that p keeps, after those of its pool (R162). A ring that cannot be read kills the context
(R411). -/
def State.filterTasks (s : State) (ctx core : Nat) (p : Task → Bool) : State :=
  let k := s.core core
  match s.ringTasks ctx core with
  | .error e => s.areaLost ctx e { source := 2, core := core }
  | .ok (ring, t) =>
    if k.pool.all p && ring.all p then s
    else
      let all := (k.pool ++ ring).filter p
      let s := t.modCore core fun k => { k with pool := all.take 4096, ringLen := 0 }
      (all.drop 4096).foldl (fun (s : State) t => s.pushTask ctx t) s

/-- Every quire and task of some grids is killed (R158); blocks that they queued are dropped when their turn comes. -/
def State.killGrids (s : State) (ctx : Nat) (ids : List Nat) : State :=
  let s := (s.coresOf ctx).foldl (fun (s : State) n =>
    let s := (s.core n).quires.foldl (fun (s : State) (q : Nat × Quire) => if ids.contains q.2.grid then s.killQuire n q.1 0 else s) s
    let s := (s.core n).wavesOf.foldl (fun (s : State) x => if ids.contains x.2.grid then s.killWave n x.1 0 else s) s
    s.filterTasks ctx n fun t => !ids.contains t.grid) s
  let gone := (s.ctx ctx).stored.filter fun g => ids.contains g.grid
  let s := gone.foldl (fun (s : State) g => g.quires.foldl (fun (s : State) q =>
    let s := q.sigs.foldl (fun (s : State) (x : Nat × Sig) => s.breakClasps ctx x.2.uid) s
    s.modGrid ctx g.grid fun x => { x.count 0 with quiresDone := x.quiresDone + 1 }) s) s
  let s := s.cancelEngines false (fun o => o.ctx == ctx && o.quire.isNone && ids.contains o.grid) (fun _ => false)
  s.modCtx ctx fun c => { c with
    events := c.events.filter fun e => match e.2 with | .task _ t => !ids.contains t.grid | _ => true
    stored := c.stored.filter fun g => !ids.contains g.grid
    grids := c.grids.map fun (g : Nat × Grid) => (g.1, if ids.contains g.1 then { g.2 with cancelled := true } else g.2)
    devq := AMap.mapVals c.devq fun d => { d with info := d.info.map fun (m : QMeta) => if ids.contains m.parent then { m with dead := true } else m } }

/-- The grid of a handle is cancelled: live, or still in its device queue (R158). -/
def State.cancelGrid (s : State) (ctx seq : Nat) : State :=
  let x := s.ctx ctx
  let s := match (AMap.vals x.grids).find? fun g => g.child == some seq with
    | some g => s.killGrids ctx (x.descend x.grids.length [g.id])
    | none => s.modCtx ctx fun c => { c with
        devq := AMap.mapVals c.devq fun d => { d with info := d.info.map fun (m : QMeta) => if m.child == some seq then { m with dead := true } else m } }
  s.endHandle 5 0 ctx seq ⟨2, 0, 0⟩

/-! ### HCANCEL -/

/-- The request of HCANCEL: nothing for an operation that has ended. -/
def State.cancelHandle (s : State) (h : Word64) : State :=
  if (s.handleState h).code ≠ 0 then s
  else
    let ctx := hCtx h
    match hKind h with
    | 1 => s.cancelCopyOp (hUnit h) ctx (hSeq h)
    | 2 => s.cancelMatOp (hUnit h) ctx (hSeq h)
    | 3 => s.cancelArray (hUnit h) ctx (hSeq h)
    | 4 => match (s.ctx ctx).rblk.find? fun o => o.seq == hSeq h with
      | some o => s.cancelRblk ctx o
      | none => s
    | _ => s.cancelGrid ctx (hSeq h)

/-- HCANCEL (R158). -/
def execHcancel (h : Hdr) (o : Ops4) : State → Host.Outcome State Fault Refusal :=
  perform h o.list { ok := fun e => e.ops4Ok o unused hPos unused unused } noSync fun e =>
    e.checkedHandle o.a fun x => .done (e.s.cancelHandle x)

end Sys2Proof.Machine
end

