-- ==== Sys2Proof/Machine/Contexts.lean ====
section
/-!
DEFINITION. Machine/Contexts.lean: the states of a context (R408 to R410), pre-emption and restore (R91, R420 to R422),
the commands on contexts (R409, R432 to R434).
-/
namespace Sys2Proof.Machine

/-! ### Commands (R432) -/

/-- Vectors of a function's MSI-X table (R429). -/
def msixVectors (fn : Nat) : Nat := if fn = 0 then 2048 else 32

/-- A vector of the function's MSI-X table is raised; it has no others (R429). -/
def Func.raise (f : Func) (fn vector : Nat) : Func :=
  if vector < msixVectors fn then { f with msix := AMap.set f.msix vector (AMap.getD f.msix vector 0 + 1) } else f

/-- The status of the command at the head of a function's ring, and its interrupt. -/
def State.status (s : State) (fn code : Nat) : State :=
  let f := s.func fn
  let at_ := f.ring + 64 * (f.head % f.entries) + 56
  { s with host := Mem.writeN s.host at_ (bytesOfNat 8 code) }.modFunc fn fun f =>
    { f with head := f.head + 1, busy := none }.raise fn 0

/-- The ring of a function holds a command that has not been performed (R432); log entry 26. -/
def State.hasCommand (s : State) (fn : Nat) : Bool := decide ((s.func fn).head < (s.func fn).tail)

/-- A command of a function: the tail has made it available, and its ordering lock is free (R432, R437). -/
def State.command (s : State) (name : String) (fn : Nat) (k : Unit → State) : Host.Outcome State Fault Refusal :=
  if 64 < fn ∨ s.lockBusy (fn % 64) ∨ !s.hasCommand fn then disabled name else .next (k ())

/-- A command on a context, which its function must own (R429). -/
def State.ctxCommand (s : State) (name : String) (fn ctx : Nat) (k : Unit → State) : Host.Outcome State Fault Refusal :=
  s.command name fn fun _ => if 1024 ≤ ctx ∨ (s.ctx ctx).owner ≠ fn then s.status fn 3 else k ()

/-- The command finishes when the context has left its passing state. -/
def State.busyCtx (s : State) (fn ctx : Nat) : State := s.modFunc fn fun f => { f with busy := some (.ctx ctx) }

def CtxState.passing : CtxState → Bool
  | .saving => true
  | .restoring => true
  | .killing => true
  | _ => false

/-- Contexts that hold an active entry (R408). -/
def State.activeEntries (s : State) : Nat :=
  (s.ctxs.filter fun (c : Nat × Ctx) => c.2.st == .active || c.2.st.passing).length

/-- DEFINE (R408, R409): the context is new, so that its serial numbers begin at 0 (R155). -/
def execCtxDefine (fn ctx : Nat) (s : State) : Host.Outcome State Fault Refusal :=
  s.ctxCommand "DEFINE" fn ctx fun _ =>
    if (s.ctx ctx).st ≠ .undefined ∨ s.platform.life = .decommissioned then s.status fn 2
    else { s with
        ctxs := AMap.set s.ctxs ctx { Ctx.init with st := .defined, owner := fn }
        handles := s.handles.filter fun (h : Nat × HUnit) => h.1 % 1024 != ctx }.status fn 0

/-- UNDEFINE (R408): no core holds anything of the context, nor counts as its own any more (R228). -/
def execCtxUndefine (fn ctx : Nat) (s : State) : Host.Outcome State Fault Refusal :=
  s.ctxCommand "UNDEFINE" fn ctx fun _ =>
    if (s.ctx ctx).st ≠ .defined then s.status fn 2
    else
      let s := (s.coresOf ctx).foldl (fun (s : State) n => s.modCore n fun k => { k with ctx := none }) s
      { s with ctxs := AMap.set s.ctxs ctx { Ctx.init with owner := fn } }.status fn 0

/-- ACTIVATE (R408). -/
def execCtxActivate (fn ctx : Nat) (s : State) : Host.Outcome State Fault Refusal :=
  s.ctxCommand "ACTIVATE" fn ctx fun _ =>
    if 64 ≤ s.activeEntries then s.status fn 2
    else match (s.ctx ctx).st with
      | .defined => ((s.modCtx ctx fun c => { c with st := .active }).pumpQueues ctx).status fn 0
      | .saved => (s.modCtx ctx fun c => { c with st := .restoring }).busyCtx fn ctx
      | _ => s.status fn 2

/-- KILL (R408, R410). -/
def execCtxKill (fn ctx : Nat) (s : State) : Host.Outcome State Fault Refusal :=
  s.ctxCommand "KILL" fn ctx fun _ =>
    match (s.ctx ctx).st with
    | .undefined => s.status fn 2
    | .killing => s.status fn 2
    | .defined => s.status fn 0
    | _ => (s.killCtx ctx).busyCtx fn ctx

/-! ### The end of a kill (R410) -/

/-- Nothing of the context is left in the arrays of a stack. -/
def Stack.clear (t : Stack) (ctx : Nat) : Bool :=
  t.ctl.all (fun o => match o with
    | .load c _ _ _ _ _ => c != ctx
    | .run _ r => r.ctx != ctx
    | .resume c _ _ _ _ _ => c != ctx
    | .drain c _ _ _ _ _ => c != ctx
    | .evict c _ _ _ _ => c != ctx)
    && (match t.loading with | some l => l.ctx != ctx | none => true) && t.notify.all (fun n => n.ctx != ctx)
    && (List.range 8).all fun p =>
      let p := t.part p
      (match p.act with | some a => a.run.ctx != ctx | none => true)
        && !(p.st == .installing && (match p.queue with | r :: _ => r.ctx == ctx | [] => false))

/-- The kill ends when every agent has stopped; then the context's images are evicted, and what waited for its last copies is
released (R73, R257). -/
def State.settleKill (s : State) (ctx : Nat) : State :=
  if s.memStacks.all (fun (t : Nat × Stack) => t.2.clear ctx)
      && s.clusters.all (fun (c : Nat × Cluster) => c.2.copies.all fun o => o.ctx != ctx) then
    let s : State := { s with
      memStacks := AMap.mapVals s.memStacks fun t => { t with images := t.images.filter fun m => m.ctx != ctx }
      fills := startFills (s.fills.filter fun f => f.ctx != ctx) }
    let s := (s.coresOf ctx).foldl (fun (s : State) n => s.modCore n fun k => { k with quires := [] }) s
    s.modCtx ctx fun c => { c with st := .defined }
  else s

/-! ### Pre-emption (R421) -/

/-- WATCHDOG of paths that it is due on is raised before they part: the instruction has retired (R89, R91). -/
def State.flushWdog (s : State) (core : Nat) : State :=
  (s.core core).sigs.foldl (fun (s : State) (g : Nat × Sig) => g.2.paths.foldl (fun (s : State) p =>
    match execWatchdog core g.1 p.idx s with
    | .next t => t
    | _ => s) s) s

/-- Every path of a core parts with reason PREEMPT at its next instruction (R91, R141); a fault that it carries stays with it. -/
def State.haltCore (s : State) (core : Nat) : State :=
  let s := s.flushWdog core
  (s.core core).sigs.foldl (fun (s : State) (g : Nat × Sig) => g.2.paths.foldl (fun (s : State) p =>
    let e : Env := ⟨s, ⟨core, g.1, p.idx, 0, false⟩, g.2, p, p.mask⟩
    match e.part s { reason := 0x11, evkey := 0, evaux := 0, resume := p.pc, wait := .none, counts := false } with
    | .ok s => s.modRecord core ((s.core core).pseq - 1) fun r => { r with
        fault := (match p.fault with | some t => t.cause | none => 0), carried := p.fault }
    | .error _ => s) s) s

/-- Partitions that run or install for the context drain into their save areas (R421 step 4). -/
def State.drainParts (s : State) (ctx : Nat) : State :=
  (AMap.keys s.memStacks).foldl (fun (s : State) st => (List.range 8).foldl (fun (s : State) slot =>
    let p := s.part st slot
    let mine := match p.act, p.queue with
      | some a, _ => a.run.ctx == ctx && p.st == .running
      | none, r :: _ => r.ctx == ctx && p.st == .installing
      | none, [] => false
    let addr := s.regN ctx rASAVEBASE + (8 * st + slot) * s.regN ctx rASAVESTRIDE
    if mine && p.drain.isNone then s.startDrain st slot ⟨none, [], ctx, 0, none, some addr, 0⟩ else s) s) s

/-- PREEMPT (R408, R421): steps 1 and 2, and the drains of step 4; what is left ends in `settlePreempt`. A context that is not
ACTIVE is left alone; one that the halt has killed is not saved (R411). -/
def execCtxPreempt (fn ctx : Nat) (s : State) : Host.Outcome State Fault Refusal :=
  s.ctxCommand "PREEMPT" fn ctx fun _ =>
    if (s.ctx ctx).st ≠ .active then s.status fn 0
    else
      let s := (s.coresOf ctx).foldl (fun (s : State) n => s.haltCore n) s
      if (s.ctx ctx).st ≠ .active then s.busyCtx fn ctx
      else
        let s := (s.coresOf ctx).foldl (fun (s : State) n => s.latchReady true n ctx (List.range 64)) s
        let s := s.modCtx ctx fun c => { c with st := .saving, saved := some ⟨[], [], [], [], [], [], []⟩ }
        (s.drainParts ctx).busyCtx fn ctx

/-! ### The save areas (R420) -/

/-- Everything of the context has come to rest (R421 steps 3 to 5): copies at a chunk boundary, RBLK between phases, nothing
outstanding. -/
def State.atRest (s : State) (ctx : Nat) : Bool :=
  s.memStacks.all (fun (t : Nat × Stack) => t.2.clear ctx)
    && s.clusters.all (fun (c : Nat × Cluster) => c.2.copies.all fun o => o.ctx != ctx || (o.atBoundary && o.ending.isNone))
    && (s.ctx ctx).rblk.all (fun o => !o.midPhase)
    && (s.coresOf ctx).all (fun n =>
      let k := s.core n
      k.outst == 0 && k.pend.isEmpty && k.flushes.isEmpty && k.records.all fun r => !r.outstanding)
    && !(s.scOps.any fun o => o.ctx == ctx)

/-- Engine operations of the context leave the clusters with their positions (R421 step 3). -/
def State.takeEngines (s : State) (ctx : Nat) : State :=
  let copies := s.clusters.flatMap fun (c : Nat × Cluster) => (c.2.copies.filter fun o => o.ctx == ctx).map fun o => (o.core, o)
  let mats := s.clusters.flatMap fun (c : Nat × Cluster) => (c.2.mats.filter fun o => o.ctx == ctx).map fun o => (o.core, o)
  let s := { s with clusters := AMap.mapVals s.clusters fun k => { k with
    copies := k.copies.filter fun o => o.ctx != ctx, mats := k.mats.filter fun o => o.ctx != ctx } }
  s.modCtx ctx fun c => { c with saved := c.saved.map fun (v : SavedCtx) => { v with copies := copies, mats := mats } }

/-- The bytes of a slot header: used, quire count, indices and gang numbers. -/
def slotHeader (qs : List StoredQuire) : List Byte :=
  bytesOfNat 1 1 ++ bytesOfNat 7 qs.length ++ qs.flatMap fun q => bytesOfNat 8 q.q.ix ++ bytesOfNat 8 q.q.gang

/-- The 16 KiB of a port's t registers. -/
def windowImage (t : AMap Row) : List Byte :=
  (List.range 16).flatMap fun i => (AMap.getD t i rowZero).toList.flatMap fun w => bytesOfNat 8 w.toNat

/-- The task waves of a core as one stored body. -/
def State.takeWaves (s : State) (core : Nat) : StoredQuire :=
  let k := s.core core
  let slots := k.wavesOf.map (·.1)
  let q : Quire := { grid := 0, ix := 0, gang := 0, pos := 0, gsize := 1, first := core, base := ⟨0, 0, 0, 0⟩, size := ⟨0, 0, 0, 0⟩
                     regs := k.wavesOf.foldl (fun a x => a + x.2.B) 0, slots := slots, points := [], spare := 0, fifos := [], killed := false }
  s.takeQuire core 0 q

/-- A part of the context save area, by offset; it lies in HBM (R420). -/
def State.saveCells (s : State) (pa size : Nat) (cells : Mem) : Except AreaErr State :=
  if (hbmOf pa).isSome && (hbmOf (pa + size - 1)).isSome then .ok (s.setFrame pa size cells) else .error ⟨cACCESS, []⟩

/-- A part whose layout is the device's own: its bytes are unspecified (R420; log entry 41). -/
def State.saveOwn (s : State) (pa size : Nat) : Except AreaErr State :=
  let (bs, s) := s.drawBytes size
  s.saveCells pa size (cellsOf bs)

/-- One core's slot is written; what it held, for the saved context: its quires, its waves, its tasks. -/
def State.saveSlot (s : State) (ctx core : Nat) : Except AreaErr (List StoredQuire × List StoredQuire × List Task × State) := do
  let k := s.core core
  let base := s.regN ctx rCSAVEBASE + core * 2560 * 1024
  let (ring, s) ← s.ringTasks ctx core
  let parts := k.quires.map fun (x : Nat × Quire) => s.takeQuire core x.1 x.2
  let waves := if k.wavesOf.isEmpty then [] else [s.takeWaves core]
  let laid ← (parts ++ waves).foldlM (fun (a : State × List StoredQuire × Nat) q => do
    let (l, imgs, next) := q.images a.2.2 a.1.free
    let s ← l.foldlM (fun (s : State) i => s.imageWrite ctx true i.1 i.2) { a.1 with free := a.1.free + imageDraws }
    return (s, a.2.1 ++ [{ q with imgs := imgs, phys := true }], next)) (s, [], base + 0x1000)
  let s ← laid.1.imageWrite ctx true base (slotHeader parts)
  let s ← s.saveCells (base + 0x121000) 262144 k.mem.lm
  let s ← s.saveCells (base + 0x161000) 524288 k.mem.wb
  let s ← s.saveCells (base + 0x1E1000) 131072 k.mem.ab
  let s ← s.saveCells (base + 0x201000) 262144 k.mem.cb
  let s ← (List.range 4).foldlM (fun (s : State) p =>
    if (k.port p).handler.isSome then s.saveCells (base + 0x241000 + 16384 * p) 16384 (cellsOf (windowImage (k.port p).t)) else .ok s) s
  let s ← s.saveOwn (base + 0x251000) (188 * 1024)
  return (laid.2.1.take parts.length, laid.2.1.drop parts.length, k.pool ++ ring, s)

/-- A saved quire joins its gang. -/
def joinGang (gs : List StoredGang) (q : StoredQuire) : List StoredGang :=
  if gs.any fun g => g.grid == q.q.grid && g.gang == q.q.gang then
    gs.map fun g => if g.grid == q.q.grid && g.gang == q.q.gang then { g with quires := g.quires ++ [q] } else g
  else gs ++ [⟨q.q.grid, q.q.gang, 0, 0, [q]⟩]

/-- One core's slot is written, what it held joins the saved context, and the core is released. An area that cannot be reached
kills the context (R411). -/
def State.saveCore (s : State) (ctx core : Nat) : State :=
  if (s.ctx ctx).st ≠ .saving then s
  else match s.saveSlot ctx core with
    | .error e => s.areaLost ctx e { source := 2, core := core }
    | .ok (qs, waves, tasks, t) =>
      let t := t.freeSpills ctx core (s.core core).records
      if (t.ctx ctx).st ≠ .saving then t
      else
        let t := t.modCtx ctx fun c => { c with saved := c.saved.map fun v => { v with
          gangs := qs.foldl joinGang v.gangs
          waves := v.waves ++ waves
          homes := match (s.core core).home with | some h => AMap.set v.homes core h | none => v.homes
          tasks := if tasks.isEmpty then v.tasks else AMap.set v.tasks core tasks } }
        t.modCore core fun k => { k with quires := [], sigs := [], records := [], pool := [], ringHead := 0, ringLen := 0
                                         ports := k.ports.map fun p => { p with handler := none } }

/-- The section of a cluster is written, after the slots (R420). -/
def State.saveCluster (s : State) (ctx cl : Nat) : State :=
  if (s.ctx ctx).st ≠ .saving then s
  else match s.saveOwn (s.regN ctx rCSAVEBASE + 480 * 2 ^ 20 + cl * 2 ^ 20) (2 ^ 20) with
    | .error e => s.areaLost ctx e { source := 2 }
    | .ok t => t

/-- Runs of the context: those that were saved for pre-emption, then those that are queued. A run that an earlier restore has queued
and that has not been installed since is still in its save area. -/
def State.takeRuns (s : State) (ctx : Nat) : State :=
  let pre := fun (r : ARun) => r.ctx == ctx && (match r.resume with | some (phys, _) => phys | none => false)
  let s : State := { s with memStacks := AMap.mapVals s.memStacks fun (t : Stack) => { t with
    saved := t.saved ++ (List.range 8).flatMap fun p => ((t.part p).queue.filter pre).map fun r => { run := r, slot := p }
    parts := t.parts.map fun (p : Part) => { p with queue := p.queue.filter fun r => !pre r } } }
  let runs := s.memStacks.flatMap fun (t : Nat × Stack) =>
    ((t.2.saved.filter fun r => pre r.run).map fun r => (t.1, r.slot, r.run))
      ++ (List.range 8).flatMap fun p => ((t.2.part p).queue.filter fun r => r.ctx == ctx).map fun r => (t.1, p, r)
  let s : State := { s with memStacks := AMap.mapVals s.memStacks fun (t : Stack) => { t with
    parts := t.parts.map fun (p : Part) => { p with queue := p.queue.filter fun r => r.ctx != ctx } } }
  s.modCtx ctx fun c => { c with saved := c.saved.map fun v => { v with runs := runs } }

/-- The end of pre-emption (R421 steps 5 and 6). -/
def State.settlePreempt (s : State) (ctx : Nat) : State :=
  if !s.atRest ctx then s
  else
    let cores := s.coresOf ctx
    let s := cores.foldl (fun (s : State) n => s.saveCore ctx n) (s.takeEngines ctx)
    let s := ((cores.map clusterOf).eraseDups).foldl (fun (s : State) cl => s.saveCluster ctx cl) s
    if (s.ctx ctx).st ≠ .saving then s else (s.takeRuns ctx).modCtx ctx fun c => { c with st := .saved }

/-! ### Restore (R422) -/

/-- The core that takes what a saved slot held besides quires: the same one, or the first on which it fits, if there is one
without tasks and waves of its own (log entry 57). -/
def State.coreFor (s : State) (ctx core : Nat) (n : Needs) : Option Nat :=
  let all := (core :: List.range Config.nCores).filter fun x => (s.core x).fits ctx n
  (all.find? fun x => (s.core x).pool.isEmpty && (s.core x).wavesOf.isEmpty).or all.head?

/-- The waves of a saved slot on a core; their images are checked first (R154). -/
def State.restoreWaves (s : State) (ctx dest : Nat) (q : StoredQuire) : State :=
  let ok := s.quireImagesOk ctx q
  let slots := (s.core dest).freeSlots q.q.slots.length
  let s := s.putSigs dest q none slots
  let gridAt := fun (s : State) (sl : Nat) => match s.sig? dest sl with | some g => g.grid | none => 0
  match ok with
  | .ok true => s
  | .ok false => slots.foldl (fun (s : State) sl =>
      (s.log ctx { source := 2, cause := cOPERAND, core := dest, grid := gridAt s sl }).killWave dest sl cOPERAND) s
  | .error e => s.areaLost ctx e { source := 2, core := dest, grid := (q.sigs.head?.map fun x => x.2.grid).getD 0 }

/-- A saved task at its core. -/
def State.restoreTask (s : State) (ctx dest : Nat) (t : Task) : State :=
  let t := { t with core := dest }
  let k := s.core dest
  if (s.ctx ctx).st ≠ .restoring then s
  else if k.ringLen = 0 ∧ k.pool.length < 4096 then s.modCore dest fun k => { k with pool := k.pool ++ [t] } else s.pushTask ctx t

/-- The waves and tasks of one saved slot go to one core; copies that its waves issued follow (R161). -/
def State.restoreSlot (s : State) (ctx core : Nat) (v : SavedCtx) : Option State :=
  let waves := v.waves.filter fun q => q.core == core
  let need : Needs := match waves with
    | q :: _ => q.needs
    | [] => ⟨0, 0, 0, ⟨0, 0, 0, 0⟩, []⟩
  (s.coreFor ctx core need).map fun dest =>
    let s := (s.claim dest ctx).modCore dest fun k => { k with home := let h := AMap.getD v.homes core core; if dest = h then none else some h }
    let s := waves.foldl (fun (s : State) q => s.restoreWaves ctx dest q) s
    let s := (AMap.getD v.tasks core []).foldl (fun (s : State) t => s.restoreTask ctx dest t) s
    s.modCtx ctx fun c => { c with
     events := c.events.map fun e => match e.2 with
      | .task none t => (e.1, .task none (if t.core = core then { t with core := dest } else t))
      | _ => e
     saved := c.saved.map fun v => { v with
      waves := v.waves.filter fun q => q.core != core
      tasks := AMap.del v.tasks core
      copies := v.copies.map fun o => if o.1 == core && o.2.quire.isNone then (dest, o.2.rehome dest none) else o } }

/-- Saved engine operations are requeued at the clusters of their cores, in their saved order (R422). -/
def State.requeue (s : State) (v : SavedCtx) : State :=
  let s := v.copies.foldl (fun (s : State) (o : Nat × CopyOp) => s.modCluster (clusterOf o.2.core) fun k =>
    { k with nextId := k.nextId + 1, copies := k.copies ++ [{ o.2 with id := k.nextId }] }) s
  v.mats.foldl (fun (s : State) (o : Nat × MatOp) => s.modCluster (clusterOf o.2.core) fun k =>
    { k with nextId := k.nextId + 1, mats := k.mats ++ [{ o.2 with id := k.nextId }] }) s

/-- A saved run is resumed as by CFGRUN.res, with its checks (R398); a queued one is queued again (R422). A run whose slot the
context owns no more, or whose save area fails a check, leaves the record of that fault. -/
def State.restoreRunAt (s : State) (ctx : Nat) (x : Nat × Nat × ARun) : State :=
  let (st, slot, r) := x
  let lost : Bool := !prEn (s.part st slot).reg || prCtx (s.part st slot).reg != ctx
  let at_ : ARec := { cause := cACCESS, slot := slot, key := r.key }
  match r.resume with
  | some (true, a) =>
    if lost then s.arrLog st ctx at_
    else match s.saveRead ctx true a 0x140 with
      | .error _ => s.arrLog st ctx { at_ with cause := cCFG, detail := 0x26 }
      | .ok (hd, s) => match s.resumeOk st slot ctx hd with
        | some y => if y.run.seq = r.seq then
            (s.modStack st fun t => { t with saved := t.saved.filter fun z => z.run.seq != r.seq || z.run.ctx != ctx }).queueRun st slot r
          else s.arrLog st ctx { at_ with cause := cCFG, detail := 0x26 }
        | none => s.arrLog st ctx { at_ with cause := cCFG, detail := 0x26 }
  | _ => if lost then (s.pinImage st ctx r.key false).ctlFault st ctx r.seq r.order at_ else s.queueRun st slot r

/-- Records that pre-emption parted are READY, and every READY record relaunches by the READYORD that it has; those that waited
for a page follow (R257, R422). -/
def State.wakeRestored (s : State) (ctx : Nat) : State :=
  let s := (s.coresOf ctx).foldl (fun (s : State) n => s.modCore n fun k => { k with
    records := k.records.map fun r => if r.ready || r.reason == 0x11 then { r with ready := true, seen := s.tick } else r }) s
  s.wakeCtx ctx fun r => if r.reason = 3 then some 0 else none

/-- The steps of R422 that are possible; the gangs are placed by GANG_PLACE. -/
def State.settleRestore (s : State) (ctx : Nat) : State :=
  match (s.ctx ctx).saved with
  | none => s.modCtx ctx fun c => { c with st := .active }
  | some v =>
    if !v.gangs.isEmpty then s
    else match (v.waves.map (·.core) ++ AMap.keys v.tasks).head? with
      | some core => (s.restoreSlot ctx core v).getD s
      | none =>
        let s := v.runs.foldl (fun (s : State) x => s.restoreRunAt ctx x) (s.requeue v)
        let s := s.wakeRestored ctx
        (s.modCtx ctx fun c => { c with st := .active, saved := none }).pumpQueues ctx

/-! ### Page tables (R253, R434) -/

/-- Cached lines of resident pages are written back and dropped (R253). -/
def State.invalLeaves (s : State) (ls : List Leaf) : State :=
  (ls.filter (·.res)).foldl (fun (s : State) l => s.purgeLines fun n => (offsetIn l.addr l.size (n * 128)).isSome) s

/-- A fill is in progress on the range (R434). -/
def State.filling (s : State) (ctx va len : Nat) : Bool :=
  s.fills.any fun f => f.ctx == ctx && f.started && decide (f.va < va + len) && decide (va < f.va + f.size)

/-- V is cleared in every leaf of the range, malformed ones too; then INVAL; then the frames of its resident pages are zeroed
where the command says so (R434). -/
def State.finishUnmap (s : State) (ctx va len : Nat) (wipe : Bool) : State :=
  let es := s.entriesOf ctx va len
  let ls := es.filterMap (·.2)
  let s := es.foldl (fun (s : State) e => s.storeHbm e.1 (bytesOfNat 8 (natOfBytes (Mem.readN s.hbm e.1 8) / 2 * 2))) s
  let s := (s.invalLeaves ls).dropCode ctx va len
  if wipe then (ls.filter (·.res)).foldl (fun (s : State) l => s.setFrame l.addr l.size []) s else s

/-! ### What follows from the state of the device -/

/-- Commands that have finished get their status. -/
def State.settleBusy (s : State) (fn : Nat) : State :=
  match (s.func fn).busy with
  | none => s
  | some (.ctx n) => if (s.ctx n).st.passing then s else s.status fn 0
  | some (.unmap ctx va len wipe) => if s.filling ctx va len then s else (s.finishUnmap ctx va len wipe).status fn 0
  | some (.budget st l) => if l.all fun ch => ((s.stack st).chan ch).pending.isNone then s.status fn 0 else s

/-- Kills, pre-emptions and restores go on; RBLK operations; images of records; commands that are done. -/
def State.settleDevice (s : State) : State :=
  let s := (AMap.keys s.ctxs).foldl (fun (s : State) n =>
    match (s.ctx n).st with
    | .active => (s.settleRblk n).settleImages n
    | .saving => (((s.settleRblk n).settleCtx n false).settlePreempt n).settleImages n
    | .saved => s.settleImages n
    | .restoring => s.settleRestore n
    | .killing => s.settleKill n
    | _ => s) s
  (AMap.keys s.funcs).foldl (fun (s : State) fn => s.settleBusy fn) s

/-! ### Registers, queues, invalidation -/

/-- CTXWRITE (R409, R432, R435). -/
def execCtxwrite (fn ctx : Nat) (sel : BitVec 32) (v : Word64) (s : State) : Host.Outcome State Fault Refusal :=
  s.ctxCommand "CTXWRITE" fn ctx fun _ =>
    if (s.ctx ctx).st = .undefined then s.status fn 2
    else match Selector.parse sel with
      | none => s.status fn 1
      | some r =>
        if r.group = 5 then (if windowOk v then (s.setWindow ctx r.num v).status fn 0 else s.status fn 1)
        else if r.group ≠ 0 ∨ !(regS r.num || regD r.num) ∨ !s.regOk ctx r.num v then s.status fn 1
        else if !regAnyTime r.num ∧ !(s.ctx ctx).grids.isEmpty then s.status fn 2
        else (s.setReg ctx r.num v).status fn 0

/-- n is a power of two from 1 to 65,536. -/
def ringSizeOk (n : Nat) : Bool := (List.range 17).any fun i => n == 2 ^ i

/-- QSET (R433): the blocks of the new queue wait for no grid of the old one. -/
def execQset (fn ctx q : Nat) (ring : Word64) (entries : Nat) (serial : Bool) (head : Word64) (s : State) :
    Host.Outcome State Fault Refusal :=
  s.ctxCommand "QSET" fn ctx fun _ =>
    if (s.ctx ctx).st = .undefined then s.status fn 2
    else if 4 ≤ q ∨ ring.toNat % 256 ≠ 0 ∨ !ringSizeOk entries ∨ head.toNat % 8 ≠ 0 then s.status fn 1
    else (s.modCtx ctx fun c => { c with
      hostq := AMap.set c.hostq q ⟨ring.toNat, entries, serial, head.toNat, 0, 0, false⟩
      grids := AMap.mapVals c.grids fun g => if g.hostq == some q then { g with hostq := none } else g }).status fn 0

/-- INVAL (R253). -/
def execInval (fn ctx : Nat) (va : Word64) (len : Nat) (s : State) : Host.Outcome State Fault Refusal :=
  s.ctxCommand "INVAL" fn ctx fun _ =>
    if (s.ctx ctx).st = .undefined then s.status fn 2
    else ((s.invalLeaves (s.leavesIn ctx va.toNat len)).dropCode ctx va.toNat len).status fn 0

/-- UNMAP (R434): it waits for the fills in progress on the range; later commands of its function wait for it. -/
def execUnmap (fn ctx : Nat) (va : Word64) (len : Nat) (wipe : Bool) (s : State) : Host.Outcome State Fault Refusal :=
  s.ctxCommand "UNMAP" fn ctx fun _ =>
    if (s.ctx ctx).st = .undefined then s.status fn 2
    else if s.filling ctx va.toNat len then s.modFunc fn fun f => { f with busy := some (.unmap ctx va.toNat len wipe) }
    else (s.finishUnmap ctx va.toNat len wipe).status fn 0

end Sys2Proof.Machine
end

