-- ==== Sys2Proof/Machine/Admin.lean ====
section
/-!
DEFINITION. Machine/Admin.lean: commands that do not change a context's state (R260, R365, R432, R436, R439), life cycle,
firmware images and reset (R438 to R440), accesses of peers and of the host (R431, R435).
-/
namespace Sys2Proof.Machine

/-! ### Budgets, partitions, groups, functions -/

/-- The budget registers in their order (R260). -/
def BudgetVals.regs (v : BudgetVals) : List Nat := [v.cd, v.ce] ++ v.parts ++ [v.ref]

/-- What the firmware checks (R260). -/
def BudgetVals.ok (v : BudgetVals) : Bool :=
  v.parts.length == 8 && decide (v.cd + v.parts.foldl (· + ·) 0 + v.ref ≤ 1024) && decide (v.ce ≤ v.cd)

/-- BUDGET (R260, R432): the command finishes when every channel it names runs under the new values. -/
def execBudget (fn stack : Nat) (pcs : BitVec 64) (vals : BudgetVals) (s : State) : Host.Outcome State Fault Refusal :=
  s.command "BUDGET" fn fun _ =>
    if Config.nStacks ≤ stack ∨ !BudgetVals.ok vals then s.status fn 1
    else
      let chans := (List.range 64).filter fun i => pcs.getLsbD i
      let s := chans.foldl (fun (s : State) ch => s.modStack stack fun t => t.modChan ch fun c =>
        { c with pending := some (BudgetVals.regs vals) }) s
      s.modFunc fn fun f => { f with busy := some (.budget stack chans) }

/-- Blocks of a partition register (R364), row and column. -/
def prBlocks (r : Word64) : List (Nat × Nat) :=
  (List.range (prBh r + 1)).flatMap fun i => (List.range (prBw r + 1)).map fun j => (prBrow r + i, prBcol r + j)

/-- PARTSET (R364, R365). Reserved bits read as zero (R7). -/
def execPartset (fn stack slot : Nat) (v : Word64) (s : State) : Host.Outcome State Fault Refusal :=
  s.command "PARTSET" fn fun _ =>
    let v := v &&& 0xFFDFF
    if Config.nStacks ≤ stack ∨ 8 ≤ slot then s.status fn 1
    else if prEn v ∧ (3 < prBrow v + prBh v ∨ 3 < prBcol v + prBw v) then s.status fn 1
    else if prEn v ∧ (List.range 8).any (fun i => i != slot && prEn (s.part stack i).reg
        && (prBlocks (s.part stack i).reg).any (prBlocks v).contains) then s.status fn 1
    else if v ≠ (s.part stack slot).reg ∧ (s.part stack slot).st ≠ .idle then s.status fn 2
    else (s.modPart stack slot fun p => { p with reg := v }).status fn 0

/-- The n members of a list in rank order: two bytes of device and two of context each; log entry 24. -/
def membersOf (bs : List Byte) (n : Nat) : List (Nat × Nat) :=
  (List.range n).map fun i => (field bs (4 * i) 2, field bs (4 * i + 2) 2)

/-- GRPSET (R436): operations are counted from here on. The member list is an area that the driver names (R411). -/
def execGrpset (fn ctx group rank : Nat) (list : MemberList) (s : State) : Host.Outcome State Fault Refusal :=
  s.ctxCommand "GRPSET" fn ctx fun _ =>
    if (s.ctx ctx).st = .undefined then s.status fn 2
    else if 64 ≤ group ∨ list.ranks < 2 ∨ 256 < list.ranks ∨ list.ranks ≤ rank then s.status fn 1
    else match s.areaRead ctx list.va.toNat (4 * list.ranks) with
      | .error c => (s.areaLost ctx c { source := 2, cause := c.cause, addr := list.va }).status fn 2
      | .ok (bs, s) =>
        let members := membersOf bs list.ranks
        if members.any fun m => 256 ≤ m.1 || 1024 ≤ m.2 then s.status fn 1
        else (s.modCtx ctx fun c => { c with groups := AMap.set c.groups group ⟨rank, members, 0, []⟩ }).status fn 0

/-- FNSET (R429, R430, R432). -/
def execFnset (fn target first count : Nat) (haoff : Word64) (s : State) : Host.Outcome State Fault Refusal :=
  s.command "FNSET" fn fun _ =>
    if fn ≠ 0 ∨ 64 < target ∨ 1024 < first + count then s.status fn 1
    else
      let s := (List.range count).foldl (fun (s : State) i => s.modCtx (first + i) fun c => { c with owner := target }) s
      (s.modFunc target fun f => { f with haoff := haoff }).status fn 0

/-! ### Firmware images (R438) -/

def LifeState.code : LifeState → Nat
  | .manufacture => 0
  | .develop => 1
  | .production => 2
  | .rma => 3
  | .decommissioned => 4

/-- The state whose keys sign the images that a state accepts; none: no image is accepted (R440). -/
def LifeState.keys : LifeState → Option Nat
  | .manufacture => some 0
  | .develop => some 1
  | .production => some 2
  | .rma => some 2
  | .decommissioned => none

/-- An image and what its header names: its SVN and its body. The header's fields lie one after the other in the order
of R438, with 4 bytes for each number; log entry 28. -/
structure Firmware where
  svn : Nat
  body : List Byte
  deriving DecidableEq, Repr

/-- Where debugging is allowed (R440). The manual gives a debugger no action on the machine. -/
def LifeState.debug : LifeState → Bool
  | .manufacture => true
  | .develop => true
  | .production => false
  | .rma => true
  | .decommissioned => false

/-- The checks on an image (R438); none where it is refused. In RMA it needs an authorisation too (R440). -/
def Platform.firmware (p : Platform) (image : List Byte) : Option Firmware :=
  let head := image.take 4096
  let svn := field head 8 4
  let body := (image.drop 4096).take (field head 12 4)
  let signed := head.take 64
  let ed := (head.drop 64).take 64
  let ml := (head.drop 128).take 3309
  match LifeState.keys p.life with
  | none => none
  | some k =>
    if field head 0 4 = 0x574D4946 ∧ svn ≤ 127 ∧ p.svnFuse ≤ svn ∧ image.length = 4096 + field head 12 4
      ∧ (Config.sha384 body).toNat = field head 16 48 ∧ (p.life ≠ .rma ∨ Config.rmaAuthorised image)
      ∧ Config.ed25519Ok (Config.fusedKey k false) signed ed ∧ Config.mldsa65Ok (Config.fusedKey k true) signed ml
    then some ⟨svn, body⟩ else none

/-- A measurement register as 48 bytes. -/
def measBytes (m : BitVec 384) : List Byte := bytesOfNat 48 m.toNat

/-- M := SHA-384(M ‖ hash) (R439). -/
def Platform.measure (p : Platform) (i : Nat) (hash : BitVec 384) : Platform :=
  { p with meas := p.meas.modify i fun m => Config.sha384 (measBytes m ++ measBytes hash) }

/-- A load extends a register by the hash of what is loaded. -/
def Platform.extend (p : Platform) (i : Nat) (body : List Byte) : Platform := p.measure i (Config.sha384 body)

/-! ### Reset and life cycle (R438 to R440) -/

/-- Everything that a wipe zeroes (R440): what is left is the host's memory, the fuses, the measurements and the running
firmware, what has left the device, and what belongs to the model. -/
def State.wiped (s : State) : State :=
  { State.reset with host := s.host, platform := s.platform, outbox := s.outbox, requests := s.requests, agenda := s.agenda
                     free := s.free, tick := s.tick }

/-- DEVICE_RESET (R438 to R440): a refused image leaves the running one, of which no load is measured. -/
def execDeviceReset (rom image : List Byte) (s : State) : Host.Outcome State Fault Refusal :=
  let s := s.wiped
  let p := { s.platform with meas := List.replicate 8 0, slow := false }.extend 0 rom
  let p := match Platform.firmware p image with
    | some f => { p.extend 1 f.body with running := image, svn := f.svn }
    | none => p
  .next { s with platform := p }

/-- The states that may come next (R440). -/
def LifeState.nexts : LifeState → List LifeState
  | .manufacture => [.develop]
  | .develop => [.production]
  | .production => [.rma, .decommissioned]
  | .rma => [.decommissioned]
  | .decommissioned => []

/-- LIFECYCLE (R438, R440): the wipe comes before any answer; what the functions have been set to stays. The running image is
kept whether or not the new state would accept it (R438; log entry 28). -/
def execLifecycle (fn : Nat) (target : LifeState) (auth : Bool) (svn : Nat) (s : State) : Host.Outcome State Fault Refusal :=
  s.command "LIFECYCLE" fn fun _ =>
    if !((LifeState.nexts s.platform.life).contains target) then s.status fn 2
    else if !auth ∨ 127 < svn then s.status fn 1
    else
      let p := { s.platform with life := target, svnFuse := max s.platform.svnFuse svn }
      let owners := AMap.mapVals s.ctxs fun (c : Ctx) => { Ctx.init with owner := c.owner }
      { s.wiped with platform := p, funcs := s.funcs, ctxs := owners, waiting := s.waiting }.status fn 0

/-- The report of ATTEST before its signatures (R439). -/
def Platform.report (p : Platform) (nonce : List Byte) : List Byte :=
  nonce ++ p.meas.flatMap measBytes ++ bytesOfNat 1 p.svn ++ bytesOfNat 1 p.svnFuse ++ bytesOfNat 1 (LifeState.code p.life) ++ Config.deviceId 0

/-- ATTEST (R439): the report VA is an area that the driver names (R411). -/
def execAttest (fn ctx : Nat) (nonce : List Byte) (va : Word64) (s : State) : Host.Outcome State Fault Refusal :=
  s.ctxCommand "ATTEST" fn ctx fun _ =>
    if (s.ctx ctx).st = .undefined then s.status fn 2
    else if nonce.length ≠ 32 then s.status fn 1
    else
      let r := s.platform.report nonce
      match s.areaWrite ctx va.toNat (r ++ Config.ed25519Sign r ++ Config.mldsa65Sign r) with
      | .ok s => s.status fn 0
      | .error c => (s.areaLost ctx c { source := 2, cause := c.cause, addr := va }).status fn 2

/-! ### Accesses from outside (R431, R435) -/

def PeerOp.isWrite : PeerOp → Bool
  | .read => false
  | _ => true
def PeerOp.isRead : PeerOp → Bool
  | .write _ => false
  | _ => true
def PeerOp.isAtomic : PeerOp → Bool
  | .atomic _ _ _ _ => true
  | _ => false

/-- What is performed. -/
def PeerOp.access : PeerOp → MemOp
  | .read => .read
  | .write bs => .write bs
  | .atomic opc sg b c => if opc = 7 then .cas b c else .rmw opc.toNat sg b

def PeerOp.sizeOk (n : Nat) : PeerOp → Bool
  | .write bs => bs.length == n
  | _ => true

/-- A request that this device has sent to itself has arrived. -/
def State.dropRequest (s : State) (r : PeerReq) : State := { s with requests := s.requests.erase (Config.deviceNumber 0, r) }

/-- The request is one of this device to itself, and an earlier one of these meets the same bytes (R264, R435). -/
def State.ownEarlier (s : State) (r : PeerReq) : Bool :=
  let mine := s.requests.filter fun x => x.1 == Config.deviceNumber 0
  match mine.findIdx? fun x => x.2 == r with
  | none => false
  | some i => (mine.take i).any fun x => x.2.ctx == r.ctx && decide (x.2.va.toNat < r.va.toNat + r.size) && decide (r.va.toNat < x.2.va.toNat + x.2.size)

/-- PEER_REQUEST (R435): an access that the device refuses changes nothing; one to a page that is not resident asks for
the page and waits; one that reads waits for its line (R260). -/
def execPeerRequest (r : PeerReq) (s : State) : Host.Outcome State Fault Refusal :=
  if !PeerOp.sizeOk r.size r.op || s.ownEarlier r then disabled "PEER_REQUEST"
  else if (s.ctx r.ctx).st ≠ .active then .next (s.dropRequest r)
  else match s.reach r.ctx { r := PeerOp.isRead r.op, w := PeerOp.isWrite r.op, noHost := PeerOp.isAtomic r.op } anyPage [⟨0, r.va, r.size⟩] with
    | .fail _ => .next (s.dropRequest r)
    | .absent pages _ =>
      if pages.all fun l => s.fills.any fun f => f.ctx == r.ctx && f.va == l.va then disabled "PEER_REQUEST"
      else .next (s.askFills r.ctx pages)
    | .ok (p :: _) =>
      let (there, s) := if PeerOp.isRead r.op then s.fetchAt p r.size else (true, s)
      if !there then .next s else
      .next ((s.dropRequest r).performAccess { lane := 0, va := r.va.toNat, size := r.size, place := p, op := PeerOp.access r.op, got := none } 0).2
    | .ok [] => .next (s.dropRequest r)

/-- The bytes from a PA of the striped view on, in runs that end at 4 KiB boundaries. -/
def State.stripedAccess (write : Option (List Byte)) (fuel : Nat) (s : State) (pa n : Nat) : State :=
  match fuel with
  | 0 => s
  | fuel + 1 =>
    if n = 0 then s
    else
      let k := min n (4096 - pa % 4096)
      let s := match hbmOf pa, write with
        | some a, some bs => s.storeHbm a ((bs.take k))
        | some a, none => (s.loadHbm a k).2
        | none, _ => s
      State.stripedAccess (write.map (·.drop k)) fuel s (pa + k) (n - k)

/-- HOST_BAR2_ACCESS (R429, R431). -/
def execHostBar2Access (fn : Nat) (r : Bar2Req) (s : State) : Host.Outcome State Fault Refusal :=
  if 64 < fn ∨ 2 ^ 36 < r.off + r.size ∨ r.write.any (fun bs => bs.length != r.size) then
    disabled "HOST_BAR2_ACCESS"
  else .next (State.stripedAccess r.write (r.size / 4096 + 2) s (0x100 * 2 ^ 32 + (s.func fn).bar2 + r.off) r.size)

end Sys2Proof.Machine
end

