-- ==== Sys2Proof/Machine/Convert.lean ====
section
/-!
DEFINITION. Machine/Convert.lean: the meanings of the conversion and quantisation group (R192 to R197).
-/
namespace Sys2Proof.Machine

/-- Format and group of a control operand (R192). -/
def fgFmt (o : Operand) : Nat := ctlNo o % 16
def fgGroup (o : Operand) : Nat := ctlNo o / 16 % 8

/-- Element i of group g in a register (R47, R192). -/
def groupElem (c g i : Nat) (x : Word64) : Nat := x.toNat / 2 ^ (fmtBits c * (4 * g + i)) % 2 ^ fmtBits c

/-- D with four codes in group g. -/
def groupPut (c g : Nat) (codes : List Nat) (d : Word64) : Word64 :=
  let w := fmtBits c
  let lo := 4 * w * g
  let f := natOf w codes
  BitVec.ofNat 64 (d.toNat % 2 ^ lo + f % 2 ^ (4 * w) * 2 ^ lo + d.toNat / 2 ^ (lo + 4 * w) * 2 ^ (lo + 4 * w))
where
  natOf (w : Nat) : List Nat → Nat
    | [] => 0
    | x :: r => x % 2 ^ w + 2 ^ w * natOf w r

/-- The port's format-error counter (R194, R413 group 4). -/
def Env.countErr (e : Env) (s : State) (n : Nat) : State :=
  e.modPort s fun p => { p with fmtErr := p.fmtErr + BitVec.ofNat 64 n }

/-- A value in a floating or integer lane type (R193). -/
def convertTo (t : Ty) (r : Rnd) (x : XR) : Nat :=
  let w := t.shape.1
  if t.isFloat then t.fmt.encode r.rm r.sat r.ftz x else intCode w (x.toInt r.rm (t.lo w) (t.hi w))

/-- An element read in a lane type. -/
def valueOf (t : Ty) (ftz : Bool) (x : Nat) : XR :=
  if t.isFloat then t.fmt.read ftz x else XR.ofInt (t.int t.shape.1 x)

/-- R193. -/
def execCvtf (h : Hdr) (o : Ops4) (m : AMod) : State → Host.Outcome State Fault Refusal :=
  let t := srcTy o.b
  let a : Pos := { kinds := [.v, .s, .idx, .imm, .zero], fp := t.isFloat }
  perform h o.list { dyn := isDyn m, ok := fun e => e.ops4Ok o dstPos a ctlPos unused } noSync fun e =>
    e.indexed [(o.d, false), (o.a, false)] fun _ =>
      let r := e.rnd m
      .done (e.write e.s o.d (mapRow (fun x =>
        BitVec.ofNat 64 (convertTo m.ty r (valueOf t m.ftz (elemAt t.shape.1 0 x)))) (e.src t o.a)))

/-- The four source values of PACK in a lane (R194). -/
def packSources (t : Ty) (ftz : Bool) (a b : Word64) : List XR :=
  let w := t.shape.1
  let f := t.fmt
  if t == .f32x2 then [f.read ftz (elemAt w 0 a), f.read ftz (elemAt w 1 a), f.read ftz (elemAt w 0 b), f.read ftz (elemAt w 1 b)]
  else (List.range 4).map fun i => f.read ftz (elemAt w i a)

/-- R194. -/
def execPack (h : Hdr) (o : Ops4) (m : AMod) : State → Host.Outcome State Fault Refusal :=
  let b : Pos := if m.ty == .f32x2 then fpPos else unused
  perform h o.list { dyn := isDyn m, ok := fun e => e.ops4Ok o dstPos fpPos b ctlPos } noSync fun e =>
    e.indexed [(o.d, false), (o.a, false), (o.b, false)] fun _ =>
      let c := fgFmt o.c
      let r := e.rnd m
      let x := e.src m.ty o.a
      let y := e.src m.ty o.b
      let d := e.raw o.d
      let errs := (lanesOf e.act).foldl (fun n l => n + ((packSources m.ty m.ftz x[l] y[l]).filter (fmtCounts c)).length) 0
      let s := e.write e.s o.d (Vector.ofFn fun l : Lane =>
        groupPut c (fgGroup o.c) ((packSources m.ty m.ftz x[l] y[l]).map (fmtEncode c r.rm r.sat r.ftz)) d[l])
      .done (e.countErr s errs)

/-- Four values written as two f32x2 registers, or as one packed-16 register; the low register. -/
def spread (t : Ty) (f : Nat → Nat) (hi : Bool) : Word64 :=
  packElems t.shape.1 t.shape.2 fun i => f (if hi then 2 + i else i)

/-- R195. -/
def execUnpack (h : Hdr) (o : Ops4) (m : AMod) : State → Host.Outcome State Fault Refusal :=
  let two := m.ty == .f32x2
  perform h o.list { dyn := isDyn m, ok := fun e => e.ops4Ok o { kinds := [.v, .idx], pair := two } srcPos unused ctlPos } noSync fun e =>
    e.indexed [(o.d, two), (o.a, false)] fun _ =>
      let c := fgFmt o.c
      let r := e.rnd m
      let code := fun (x : Word64) i => m.ty.fmt.encode r.rm r.sat r.ftz (fmtValue c m.ftz (groupElem c (fgGroup o.c) i x))
      let a := e.raw o.a
      let s := e.write e.s o.d (mapRow (fun x => spread m.ty (code x) false) a)
      .done (if two then e.writeHi s o.d (mapRow (fun x => spread m.ty (code x) true) a) else s)

/-- A scaled element of DEQ (R196): code, element, scale word. A TERN2 element 0 under an infinite scale is NaN, as 0 times
infinity is (log entry 60). -/
def deqValue (c x : Nat) (b : Word64) : XR :=
  if c = 14 then q4nValue x (FP32.decode (elemAt 32 0 b)) (b.toNat / 2 ^ 32 % 256)
  else if c = 15 then (fmtValue 15 false x).mul (BF16.decode (elemAt 16 0 b))
  else mxValue c x (elemAt 8 0 b)

/-- The features of the block formats (R423). -/
def blockFeats (c : Nat) : List Nat := if c = 14 ∨ c = 15 then [9] else if 5 ≤ c ∧ c ≤ 10 then [10] else []

/-- R196. DESIGN CHOICE (log entry 66): a kind-3 B gives the raw bits of a Q4N or TERN2 scale. -/
def execDeq (h : Hdr) (o : Ops4) (m : AMod) : State → Host.Outcome State Fault Refusal :=
  let c := fgFmt o.c
  perform h o.list
    { dyn := isDyn m, feats := blockFeats c
      ok := fun e => e.ops4Ok o { kinds := [.v, .idx], pair := true } srcPos srcPos ctlPos } noSync fun e =>
    e.indexed [(o.d, true), (o.a, false), (o.b, false)] fun _ =>
      let r := e.rnd m
      let a := e.raw o.a
      let b := e.raw o.b
      let g := fgGroup o.c
      let code := fun (x y : Word64) i => FP32.encode r.rm false r.ftz (deqValue c (groupElem c g i x) y)
      let errs := if c = 15 then
          (lanesOf e.act).foldl (fun n l => n + ((List.range 4).filter fun i => groupElem c g i a[l] == 3).length) 0
        else 0
      let s := e.write e.s o.d (mapRow2 (fun x y => spread .f32x2 (code x y) false) a b)
      .done (e.countErr (e.writeHi s o.d (mapRow2 (fun x y => spread .f32x2 (code x y) true) a b)) errs)

/-- The members of a quarter, ascending (R197). -/
def Env.quarter (e : Env) (q : Nat) : List Lane := (lanesOf e.act).filter fun l => l.val / 32 == q

/-- QBLK of one quarter into an MX format: what each member gets. -/
def qblkMx (c : Nat) (a : Row) (ms : List Lane) : Lane → Word64 :=
  let s := mxScale c (ms.map fun l => FP32.decode (elemAt 32 0 a[l]))
  fun l =>
    let code := match s.2 with | some e => mxCode c e (FP32.decode (elemAt 32 0 a[l])) | none => 0
    BitVec.ofNat 64 (code + s.1 * 256)

/-- QBLK of one quarter into Q4N. -/
def qblkQ4n (a b : Row) (ms : List Lane) : Lane → Word64 :=
  let el := fun (l : Lane) i => FP32.decode (elemAt 32 i a[l])
  let sc := match ms with | l :: _ => elemAt 32 0 b[l] | [] => 0
  let s1 := if (FP32.decode sc).isZero then FP32.encode .rne false false (.fin false 1 0) else sc
  let xs := ms.flatMap fun l => [el l 0, el l 1]
  let s := FP32.decode s1
  if !s.isFin || xs.any fun x => !x.isFin then fun _ => BitVec.ofNat 64 (7 + 7 * 16 + FP32.nan * 2 ^ 32)
  else
    let k := q4nBlock s (maxAbs xs)
    fun l => BitVec.ofNat 64 (q4nCodeOf s k (el l 0) + q4nCodeOf s k (el l 1) * 16 + k * 256 + s1 * 2 ^ 32)

/-- R197. DESIGN CHOICE (log entry 66): a kind-3 B gives the scale's raw bits. -/
def execQblk (h : Hdr) (o : Ops4) (m : AMod) : State → Host.Outcome State Fault Refusal :=
  let c := fgFmt o.c
  let b : Pos := if c = 14 then srcPos else unused
  perform h o.list { feats := blockFeats c, ok := fun e => e.ops4Ok o dstPos fpPos b ctlPos } noSync fun e =>
    e.indexed [(o.d, false), (o.a, false), (o.b, false)] fun _ =>
      let a := e.src m.ty o.a
      let y := e.raw o.b
      let parts := (List.range 4).map fun q => if c = 14 then qblkQ4n a y (e.quarter q) else qblkMx c a (e.quarter q)
      .done (e.write e.s o.d (Vector.ofFn fun l : Lane => (parts.getD (l.val / 32) fun _ => 0) l))

end Sys2Proof.Machine
end

