-- ==== Sys2Proof/Machine/CrossLane.lean ====
section
/-!
DEFINITION. Machine/CrossLane.lean: the meanings of the cross-lane and predicate group (R109 to R120).
-/
namespace Sys2Proof.Machine

/-! ### Segments (R110) -/

end Sys2Proof.Machine

namespace Sys2Proof

/-- Lanes of a segment. -/
def XMod.size (m : XMod) : Nat := if m.w then 32 else 128
/-- base(L). -/
def XMod.base (m : XMod) (l : Lane) : Nat := l.val - l.val % m.size
/-- i(L). -/
def XMod.place (m : XMod) (l : Lane) : Nat := l.val % m.size

end Sys2Proof

namespace Sys2Proof.Machine

/-- The members of the segment of a lane, ascending. -/
def Env.members (e : Env) (m : XMod) (l : Lane) : List Lane := (lanesOf e.act).filter fun x => m.base x == m.base l

/-- A value for each segment, given to all its lanes. -/
def bySegment {α : Type} [Inhabited α] (m : XMod) (f : Lane → α) : Vector α 128 :=
  let heads := (List.range (128 / m.size)).map fun i => f (Fin.ofNat 128 (i * m.size))
  Vector.ofFn fun l : Lane => heads.getD (l.val / m.size) default

/-- Width of n32, n64, i32, i64 by code (R26). -/
def wideOf (ty : BitVec 4) : Nat := if ty == 8 || ty == 9 then 32 else 64
def cut (w : Nat) (x : Word64) : Nat := x.toNat % 2 ^ w
/-- A lane type by its code. -/
def tyOf (ty : BitVec 4) : Ty :=
  match ty.toNat with
  | 0 => .f64 | 1 => .f32 | 6 => .iv32 | 8 => .i32 | 9 => .n32 | 10 => .i64 | _ => .n64

def vPos : Pos := { kinds := [.v] }
def pPos : Pos := { kinds := [.p] }
def vsPos : Pos := { kinds := [.v, .s] }
/-- A segment-uniform result: v, and s where the segment is the whole signature (R116). -/
def segPos (m : XMod) : Pos := { kinds := if m.w then [.v] else [.v, .s] }

/-! ### Meanings -/

/-- The lane that SHFL reads for a lane, if there is one (R111). -/
def shflFrom (m : XMod) (l : Lane) (b : Nat) : Option Nat :=
  let i := m.place l
  let j : Int := match m.sel.toNat with
    | 0 => b
    | 1 => (i : Int) - b
    | 2 => (i : Int) + b
    | _ => Int.ofNat (Nat.xor i b)
  if 0 ≤ j ∧ j < m.size then some (m.base l + j.toNat) else none

/-- R111. -/
def execShfl (h : Hdr) (o : Ops4) (m : XMod) : State → Host.Outcome State Fault Refusal :=
  perform h o.list
    { ok := fun e => e.ops4Ok o vPos vsPos { kinds := [.v, .s, .imm] } { kinds := [.v, .s, .imm, .zero] } } noSync fun e =>
    let a := e.raw o.a
    let b := e.raw o.b
    let x := e.raw o.c
    let w := wideOf m.ty
    let one := fun (l : Lane) => match shflFrom m l b[l].toNat with
      | some j => if e.act.getLsbD j then a[j]?.getD 0 else x[l]
      | none => x[l]
    .done (e.write e.s o.d (Vector.ofFn fun l : Lane => BitVec.ofNat 64 (cut w (one l))))

/-- The Kleene result of VOTE.all or VOTE.any (R112). -/
def voteTri (any : Bool) (l : List Tri) : Tri :=
  if any then l.foldl Tri.or .f else l.foldl Tri.and .t

/-- R112. -/
def execVote (h : Hdr) (o : Ops4) (m : XMod) : State → Host.Outcome State Fault Refusal :=
  let sel := m.sel.toNat
  let d : Pos := if sel = 3 then (if m.w then vPos else { kinds := [.s] }) else pPos
  let a : Pos := if sel = 2 then vsPos else pPos
  let evenOk := fun (_ : Env) => match o.d with
    | .s n _ _ => sel != 3 || n.toNat % 2 == 0
    | _ => true
  perform h o.list { ok := fun e => e.ops4Ok o d a unused unused && evenOk e } noSync fun e =>
    if sel = 3 then
      let p := e.predSrc o.a
      let want := Tri.ofCode (match m.op.toNat with | 0 => 1 | 1 => 0 | _ => 2)
      let bits := e.act &&& maskOf fun l => p[l] == want
      match o.d with
      | .s n _ _ => .done (e.writeS (e.writeS e.s n.toNat (bits.extractLsb' 0 64)) (n.toNat + 1) (bits.extractLsb' 64 64))
      | _ => .done (e.write e.s o.d (bySegment m fun l => (bits.extractLsb' (m.base l) 32).setWidth 64))
    else if sel = 2 then
      let r := e.raw o.a
      let w := wideOf m.ty
      let uni := fun (l : Lane) => match e.members m l with
        | [] => true
        | x :: xs => xs.all fun y => cut w r[y] == cut w r[x]
      .done (e.writeP e.s (pregNo o.d) (Vector.ofFn fun l : Lane => Tri.ofBool (uni l)))
    else
      let p := e.predSrc o.a
      .done (e.writeP e.s (pregNo o.d) (Vector.ofFn fun l : Lane => voteTri (sel == 1) ((e.members m l).map fun x => p[x])))

/-- The integer operation of REDUX (R113). -/
def reduxOp (op w : Nat) (t : Ty) (a b : Nat) : Nat :=
  match op with
  | 0 => (a + b) % 2 ^ w
  | 1 => if t.int w b < t.int w a then b else a
  | 2 => if t.int w a < t.int w b then b else a
  | 3 => a &&& b
  | 4 => a ||| b
  | _ => a ^^^ b

/-- R113. -/
def execRedux (h : Hdr) (o : Ops4) (m : XMod) : State → Host.Outcome State Fault Refusal :=
  perform h o.list { ok := fun e => e.ops4Ok o (segPos m) vsPos unused unused } noSync fun e =>
    let r := e.raw o.a
    let w := wideOf m.ty
    let val := fun (l : Lane) => match (e.members m l).map fun x => cut w r[x] with
      | [] => 0
      | x :: xs => xs.foldl (reduxOp m.op.toNat w (tyOf m.ty)) x
    .done (e.writeAny e.s o.d (bySegment m fun l => BitVec.ofNat 64 (val l)))

/-- One level of the binary tree of R114. -/
def treeLevel {α : Type} (f : α → α → α) : List (Option α) → List (Option α)
  | [] => []
  | [x] => [x]
  | x :: y :: r =>
    (match x, y with
      | some a, some b => some (f a b)
      | some a, none => some a
      | none, b => b) :: treeLevel f r

/-- The tree over S leaves, S a power of two at most 2^n. -/
def tree {α : Type} (f : α → α → α) : Nat → List (Option α) → Option α
  | 0, l => l.headD none
  | n + 1, l => tree f n (treeLevel f l)

/-- The leaves of a segment (R114). -/
def Env.leaves {α : Type} (e : Env) (m : XMod) (l : Lane) (v : Lane → α) : List (Option α) :=
  (List.range m.size).map fun j =>
    let x : Lane := Fin.ofNat 128 (m.base l + j)
    if e.act.getLsbD x.val then some (v x) else none

/-- The code that a member brings to the tree (R42, R114): a NaN as the canonical NaN, a subnormal number under FTZ as a zero,
also where the member is the segment's only one (log entry 59). -/
def leafCode (f : FFmt) (ftz : Bool) (x : Nat) : Nat := f.encode .rne false false (f.read ftz x)

/-- R114; the features of R423 for iv32. An operand is ill-formed by its bounds after ABS and NEG, as in IVADD (log
entry 12). -/
def execFredux (h : Hdr) (o : Ops4) (m : XMod) : State → Host.Outcome State Fault Refusal :=
  let a : Pos := { kinds := [.v, .s], fp := true }
  perform h o.list { ok := fun e => e.ops4Ok o (segPos m) a unused unused, feats := if m.ty == 6 then [0] else [] } noSync fun e =>
    if m.ty == 6 then
      let x := e.iv .iv32 o.a
      let bad := e.failing fun l => FP32.ivOk x[l]
      if bad ≠ 0 then .trap (emptyTrap bad)
      else
        let val := fun (l : Lane) => match tree FP32.ivAdd 7 (e.leaves m l fun y => x[y]) with
          | some b => image32 (FP32.canon b)
          | none => 0
        .done (e.writeAny e.s o.d (bySegment m val))
    else
      let t := tyOf m.ty
      let f := t.fmt
      let w := t.shape.1
      let x := e.src t o.a
      let ftz := m.op.getLsbD 0
      let rm : Mode := match m.op.toNat / 2 with | 0 => .rne | 1 => .rtz | 2 => .rd | _ => .ru
      let comb := match m.sel.toNat with
        | 0 => f.fadd ⟨rm, false, ftz⟩
        | 1 => f.fmin ftz
        | _ => f.fmax ftz
      let val := fun (l : Lane) => match tree comb 7 (e.leaves m l fun y => leafCode f ftz (cut w x[y])) with
        | some b => BitVec.ofNat 64 b
        | none => 0
      .done (e.writeAny e.s o.d (bySegment m val))

/-- R115. -/
def execMatchOp (h : Hdr) (o : Ops4) (m : XMod) : State → Host.Outcome State Fault Refusal :=
  let d := if m.sel == 0 then pPos else vPos
  perform h o.list { ok := fun e => e.ops4Ok o d vsPos unused unused } noSync fun e =>
    let r := e.raw o.a
    let w := wideOf m.ty
    let same := fun (l : Lane) => (e.members m l).filter fun x => cut w r[x] == cut w r[l]
    match m.sel.toNat with
    | 0 => .done (e.writeP e.s (pregNo o.d) (Vector.ofFn fun l : Lane => Tri.ofBool (decide (1 < (same l).length))))
    | 1 => .done (e.write e.s o.d (Vector.ofFn fun l : Lane => match same l with
        | x :: _ => BitVec.ofNat 64 x.val
        | [] => 0))
    | _ => .done (e.write e.s o.d (Vector.ofFn fun l : Lane => BitVec.ofNat 64 (same l).length))

/-- R117. -/
def execPlop (h : Hdr) (o : Ops4) (m : XMod) : State → Host.Outcome State Fault Refusal :=
  let op := m.op.toNat
  let b : Pos := if op ≤ 2 ∨ op = 4 then pPos else unused
  perform h o.list { ok := fun e => e.ops4Ok o pPos pPos b unused } noSync fun e =>
    let x := e.predSrc o.a
    let y := e.predSrc o.b
    .done (e.writeP e.s (pregNo o.d) (Vector.ofFn fun l : Lane => plopCode op x[l] y[l]))

/-- R118. -/
def execPset (h : Hdr) (o : Ops4) (m : XMod) : State → Host.Outcome State Fault Refusal :=
  let sel := m.sel.toNat
  let a : Pos := if sel = 0 then { kinds := [.v, .s, .imm] } else if sel = 1 then unused else { kinds := [.s] }
  let evenOk := match o.a with
    | .s n _ _ => sel != 2 || n.toNat % 2 == 0
    | _ => true
  perform h o.list { ok := fun e => e.ops4Ok o pPos a unused unused && evenOk } noSync fun e =>
    let r := e.raw o.a
    let bits : Mask := match o.a with
      | .s n _ _ => e.sig.sreg (n.toNat + 1) ++ e.sig.sreg n.toNat
      | _ => 0
    .done (e.writeP e.s (pregNo o.d) (Vector.ofFn fun l : Lane =>
      match sel with
      | 0 => Tri.ofBool (r[l] != 0)
      | 1 => Tri.ofCode m.op.toNat
      | _ => Tri.ofBool (bits.getLsbD l.val)))

/-- R119. -/
def execPmov (h : Hdr) (o : Ops4) (m : XMod) : State → Host.Outcome State Fault Refusal :=
  let _ := m
  let d : Pos := match o.a with
    | .p _ => { kinds := [.p, .v] }
    | _ => pPos
  perform h o.list { ok := fun e => e.ops4Ok o d { kinds := [.p, .v] } unused unused } noSync fun e =>
    let p := e.predSrc o.a
    let r := e.raw o.a
    match o.d, o.a with
    | .p n, .p _ => .done (e.writeP e.s n.toNat p)
    | .p n, _ => .done (e.writeP e.s n.toNat (Vector.ofFn fun l : Lane => Tri.ofCode r[l].toNat))
    | _, _ => .done (e.write e.s o.d (Vector.ofFn fun l : Lane => BitVec.ofNat 64 p[l].code))

/-- R120. -/
def execPcount (h : Hdr) (o : Ops4) (m : XMod) : State → Host.Outcome State Fault Refusal :=
  perform h o.list { ok := fun e => e.ops4Ok o (segPos m) pPos unused unused } noSync fun e =>
    let p := e.predSrc o.a
    let want : Tri := match m.sel.toNat with | 0 => .t | 1 => .f | _ => .u
    let n := fun (l : Lane) => ((e.members m l).filter fun x => p[x] == want).length
    .done (e.writeAny e.s o.d (bySegment m fun l => BitVec.ofNat 64 (n l)))

end Sys2Proof.Machine
end

