-- ==== Sys2Proof/Machine/Registers.lean ====
section
/-!
DEFINITION. Machine/Registers.lean: the special registers (R129) and the meanings of the register group (R130 to R139).
-/
namespace Sys2Proof.Machine

/-- A destination or source kind that a handle form excludes: h. -/
def Operand.kindH : Operand → Bool
  | .h _ => true
  | _ => false
def Operand.kindS : Operand → Bool
  | .s _ _ _ => true
  | _ => false

def uniPos : Pos := { kinds := [.s, .imm, .zero] }

/-- MOV: which positions its fields fit (R131). -/
def movOk (o : Ops4) (x2 : Bool) (e : Env) : Bool :=
  if Operand.kindH o.d then !x2 && e.ops4Ok o { kinds := [.h] } { kinds := [.h, .zero] } unused unused
  else if Operand.kindS o.d then !x2 && e.ops4Ok o { kinds := [.s] } uniPos unused unused
  else if x2 then e.ops4Ok o { kinds := [.v, .idx], pair := true } { kinds := [.v, .idx], pair := true } unused unused
  else e.ops4Ok o dstPos srcPos unused unused

/-- R131. -/
def execMov (h : Hdr) (o : Ops4) (m : X2Mod) : State → Host.Outcome State Fault Refusal :=
  perform h o.list { ok := movOk o m.x2 } noSync fun e =>
    e.indexed [(o.d, m.x2), (o.a, m.x2)] fun _ =>
      match o.d with
      | .h n => .done (e.writeH e.s n.toNat (match o.a with | .h a => e.sig.hreg a.toNat | _ => 0))
      | .s n _ _ => .done (e.writeS e.s n.toNat (e.uni o.a))
      | _ =>
        let s := e.write e.s o.d (e.raw o.a)
        .done (if m.x2 then e.writeHi s o.d (e.rawAt immWord 1 o.a) else s)

/-- The value that MOVI writes over an old one (R132). -/
def moviVal (mode : Nat) (imm : BitVec 32) (old : Word64) : Word64 :=
  match mode with
  | 0 => imm.signExtend 64
  | 1 => imm.setWidth 64
  | 2 => imm ++ old.extractLsb' 0 32
  | _ => old.extractLsb' 32 32 ++ imm

/-- R132. -/
def execMovi (h : Hdr) (o : Ops2) (imm : BitVec 32) (m : MoviMod) : State → Host.Outcome State Fault Refusal :=
  perform h o.list { ok := fun e => e.ops2Ok o { kinds := [.v, .s] } unused } noSync fun e =>
    match o.d with
    | .s n _ _ => .done (e.writeS e.s n.toNat (moviVal m.mode.toNat imm (e.sig.sreg n.toNat)))
    | _ => .done (e.write e.s o.d ((e.raw o.d).map (moviVal m.mode.toNat imm)))

/-- R133. -/
def execSel (h : Hdr) (o : Ops4) (m : SelMod) : State → Host.Outcome State Fault Refusal :=
  let src : Pos := if m.x2 then { kinds := [.v, .idx], pair := true } else srcPos
  perform h o.list { ok := fun e => e.ops4Ok o { kinds := [.v, .idx], pair := m.x2 } src src src } noSync fun e =>
    e.indexed [(o.d, m.x2), (o.a, m.x2), (o.b, m.x2), (o.c, m.x2)] fun _ =>
      let p := e.sig.preg m.pn.toNat
      let pick := fun (add : Nat) =>
        let a := e.rawAt immWord add o.a
        let b := e.rawAt immWord add o.b
        let x := e.rawAt immWord add o.c
        (Vector.ofFn fun l : Lane => match p[l] with | .t => a[l] | .f => b[l] | .u => x[l] : Row)
      let s := e.write e.s o.d (pick 0)
      .done (if m.x2 then e.writeHi s o.d (pick 1) else s)

/-- The special registers that are uniform, by number (R129); none for a number that is not listed. The cycle count has
its own entry in `execSread`. -/
def Env.special (e : Env) (n : Nat) : Option Word64 :=
  let q : (Quire → Nat) → Option Word64 := fun f => some (match e.quire with
    | some q => BitVec.ofNat 64 (f q)
    | none => BitVec.allOnes 64)
  let g : (Grid → Nat) → Option Word64 := fun f => some (match e.grid with
    | some x => BitVec.ofNat 64 (f x)
    | none => 0)
  let dimX := match e.grid with | some x => x.blk.x | none => 1
  let dimY := match e.grid with | some x => x.blk.y | none => 1
  match n with
  | 0x01 => q fun _ => e.sig.sigix
  | 0x02 => q fun _ => e.sig.role
  | 0x03 => q fun q => q.ix
  | 0x04 => q fun q => q.gang
  | 0x05 => q fun q => q.pos
  | 0x06 => q fun q => q.ix % dimX
  | 0x07 => q fun q => q.ix / dimX % dimY
  | 0x08 => q fun q => q.ix / dimX / dimY
  | 0x09 => g fun x => x.blk.x
  | 0x0A => g fun x => x.blk.y
  | 0x0B => g fun x => x.blk.z
  | 0x0C => g fun x => x.blk.depth
  | 0x0D => some (BitVec.ofNat 64 e.sel.core)
  | 0x0E => some (BitVec.ofNat 64 (clusterOf e.sel.core))
  | 0x0F => some (BitVec.ofNat 64 e.portNo)
  | 0x10 => some (BitVec.ofNat 64 e.path.idx)
  | 0x11 => some e.sig.iret
  | 0x12 => some e.sig.iret
  | 0x13 => g fun x => x.blk.param
  | 0x14 => some (BitVec.ofNat 64 e.sig.ctx)
  | 0x15 => some (BitVec.ofNat 64 e.sig.B)
  | 0x16 => some (BitVec.ofNat 64 e.sig.LB)
  | 0x18 => some (e.s.reg e.sig.ctx rFEATACC0)
  | 0x19 => some (e.s.reg e.sig.ctx (rFEATACC0 + 1))
  | 0x1A => some (e.s.reg e.sig.ctx (rFEATACC0 + 2))
  | 0x1B => some (e.s.reg e.sig.ctx (rFEATACC0 + 3))
  | _ => none

/-- The number of a special register operand. -/
def srNo : Operand → Nat
  | .sr n => n.toNat
  | _ => 0

/-- A core's cycle count when it is read: cycles have passed since it was read last, how many is not stated (R4). -/
def State.tickCycles (s : State) (core : Nat) : Word64 × State :=
  let (d, s) := s.drawWord
  let n := (s.core core).cycles + d
  (n, s.modCore core fun k => { k with cycles := n })

/-- R134: a per-lane special register has no s form. -/
def execSread (h : Hdr) (o : Ops4) : State → Host.Outcome State Fault Refusal :=
  perform h o.list
    { ok := fun e => e.ops4Ok o { kinds := if srNo o.a = 0 then [.v] else [.v, .s] } { kinds := [.sr] } unused unused
                     && (srNo o.a == 0 || (e.special (srNo o.a)).isSome) } noSync fun e =>
    if srNo o.a = 0 then .done (e.write e.s o.d (Vector.ofFn fun l : Lane => BitVec.ofNat 64 l.val))
    else if srNo o.a = 0x11 ∧ !e.s.det e.sig.ctx then
      let (n, s) := e.s.tickCycles e.sel.core
      .done (e.writeUni s o.d n)
    else .done (e.writeUni e.s o.d ((e.special (srNo o.a)).getD 0))

/-- R135. -/
def execRgn (h : Hdr) (o : Ops4) (_m : RgnMod) : State → Host.Outcome State Fault Refusal :=
  perform h o.list { ok := fun e => e.ops4Ok o unused { kinds := [.s, .zero] } unused unused } noSync fun e => .done e.s

/-- R136. -/
def execLive (h : Hdr) (o : Ops2) (imm : BitVec 32) : State → Host.Outcome State Fault Refusal :=
  perform h o.list { ok := fun e => e.ops2Ok o unused unused } noSync fun e =>
    if e.sig.B < imm.toNat then .trap (trapOf cOPERAND)
    else .done (e.modSig e.s fun g => { g with LB := imm.toNat })

/-- R137; t2 of the INDEX is the value out of range (log entry 9). -/
def execSetk (h : Hdr) (o : Ops4) (m : SetkMod) : State → Host.Outcome State Fault Refusal :=
  perform h o.list { ok := fun e => e.ops4Ok o unused uniPos uniPos unused } noSync fun e =>
    let a := e.uni o.a
    let b := e.uni o.b
    if b.toNat < a.toNat then .trap ⟨cINDEX, a, none⟩
    else if e.sig.B < b.toNat then .trap ⟨cINDEX, b, none⟩
    else .done (e.modSig e.s fun g => { g with k := g.k.setIfInBounds m.n.toNat (a.toNat, b.toNat) })

def quotaPos : Pos := { kinds := [.s, .imm] }

/-- R138, .give: waiting takes are looked at when the step settles. -/
def execQuotaGive (h : Hdr) (o : Ops4) : State → Host.Outcome State Fault Refusal :=
  perform h o.list { ok := fun e => e.ops4Ok o unused quotaPos unused unused } (fun _ => true) fun e =>
    let n := (e.uni o.a).toNat
    match e.sig.quire with
    | none => .trap (trapOf cQUOTA)
    | some key =>
      if n < 1 ∨ 31 < n ∨ e.now.B < 8 * n + 8 then .trap (trapOf cQUOTA)
      else
        let b := e.now.B - 8 * n
        let s := e.modSig e.s fun g => { g with
          B := b, LB := min g.LB b, v := g.v.filter fun (x : Nat × Row) => decide (x.1 < b) }
        .done (s.modQuire e.sel.core key fun q => { q with spare := q.spare + 8 * n })

/-- R138, .take. -/
def execQuotaTake (h : Hdr) (o : Ops4) : State → Host.Outcome State Fault Refusal :=
  perform h o.list { ok := fun e => e.ops4Ok o unused quotaPos unused unused } (fun _ => true) fun e =>
    let n := (e.uni o.a).toNat
    match e.sig.quire, e.quire with
    | some key, some q =>
      if n < 1 ∨ 31 < n ∨ 256 < e.now.B + 8 * n then .trap (trapOf cQUOTA)
      else if 8 * n ≤ q.spare ∧ (e.s.takes e.sel.core q).isEmpty then
        let s := e.s.modQuire e.sel.core key fun q => { q with spare := q.spare - 8 * n }
        .done (s.grow e.sel.core e.sel.slot (8 * n))
      else .part e.s { reason := 0x0F, evkey := BitVec.ofNat 64 q.ix, evaux := BitVec.ofNat 64 (8 * n), resume := e.next,
                       wait := .take (8 * n) }
    | _, _ => .trap (trapOf cQUOTA)

end Sys2Proof.Machine
end

