-- ==== Sys2Proof/Machine/Det.lean ====
section
/-!
DEFINITION. Machine/Det.lean: the serial phase of deterministic mode (R84 to R86).
-/
namespace Sys2Proof.Machine

/-! ### When the round ends (R84) -/

/-- A record's path takes no further part in the round: it waits for a serial phase, or for its merge (R84, R85, R473). -/
def Record.rests (r : Record) : Bool := roundEnding r.reason r.wait || r.reason == 0x0B || !r.late.isEmpty

/-- A signature has ended its round: it has retired Q instructions, or each of its paths has issued a synchronising operation
or is parted in a wait that this round cannot end (R84, R451; log entry 6). -/
def State.sigEnded (s : State) (core slot : Nat) (g : Sig) : Bool :=
  g.ended || (g.paths.all (·.held) && (s.core core).records.all fun r => r.slot != slot || (!r.ready && r.rests))

/-- The same of the signatures of an evicted quire: a record that a serial phase has made READY takes part in a round again
once it is placed. -/
def StoredQuire.ended (q : StoredQuire) : Bool :=
  q.sigs.all fun x => x.2.ended || q.records.all fun r => r.slot != x.1 || r.rests

/-- Engine operations of a context that have not completed. -/
def State.ctxEngines (s : State) (ctx : Nat) : Bool :=
  s.clusters.any (fun (e : Nat × Cluster) => e.2.copies.any (fun o => o.ctx == ctx) || e.2.mats.any fun o => o.ctx == ctx)
    || s.memStacks.any (fun (t : Nat × Stack) =>
      t.2.ctl.any (fun o => match o with
        | .load c _ _ _ _ _ => c == ctx
        | .run _ r => r.ctx == ctx
        | .resume c _ _ _ _ _ => c == ctx
        | .drain c _ _ _ _ _ => c == ctx
        | .evict c _ _ _ _ => c == ctx)
      || (match t.2.loading with | some l => l.ctx == ctx | none => false)
      || t.2.notify.any (fun n => n.ctx == ctx)
      || (List.range 8).any fun p =>
        let p := t.2.part p
        (match p.act with | some a => a.run.ctx == ctx | none => false) || p.queue.any fun r => r.ctx == ctx)
    || !(s.ctx ctx).rblk.isEmpty

/-- Quires and grids whose last signature has exited retire first, once their stores and operations are performed: their events
belong to this round (R86). -/
def State.retiring (s : State) (ctx : Nat) : Bool :=
  (s.coresOf ctx).any (fun n => (s.core n).quires.any fun (q : Nat × Quire) => s.quireOver n q.1 q.2)
    || (AMap.vals (s.ctx ctx).grids).any fun g => s.gridSpent ctx g

/-- A gang of the context can be placed now (R70): its signatures take part in the round (R84, R88). -/
def State.gangDue (s : State) (ctx : Nat) : Bool :=
  s.pending.any (fun p => p.ctx == ctx) && (match execGangPlace s with | .next _ => true | _ => false)

/-- The round of the context has ended. -/
def State.roundOver (s : State) (ctx : Nat) : Bool :=
  let x := s.ctx ctx
  x.st == .active && s.det ctx && !s.ctxEngines ctx && !s.retiring ctx && !s.gangDue ctx
    && (s.coresOf ctx).all (fun n => (s.core n).sigs.all fun (g : Nat × Sig) => s.sigEnded n g.1 g.2)
    && x.stored.all (fun g => g.quires.all StoredQuire.ended)
    && (!x.events.isEmpty || !x.releases.isEmpty || (s.coresOf ctx).any fun n => !(s.core n).sigs.isEmpty || !(s.core n).pool.isEmpty)

/-! ### The operations of the phase -/

/-- A synchronising operation that waited is performed; any other instruction waits for its round again. -/
def execHeld (i : Instr) (s : State) : Host.Outcome State Fault Refusal :=
  match i with
  | .quotaGive h o => execQuotaGive h o s
  | .quotaTake h o => execQuotaTake h o s
  | .ivbisect h o m => execIvbisect h o m s
  | .atom h o m => execAtom h o m s
  | .red h o m => execRed h o m s
  | .bind h o m => execBind h o m s
  | .acq h o m => execAcq h o m s
  | .rel h o m => execRel h o m s
  | .rvinit h o => execRvinit h o s
  | .rvarr h o => execRvarr h o s
  | .mbinit h o => execMbinit h o s
  | .mbarr h o m => execMbarr h o m s
  | .tspawn h o m => execTspawn h o m s
  | .dlaunch h o m => execDlaunch h o m s
  | _ => disabled "SERIAL_PHASE"

/-- What the phase performs, one after the other. -/
inductive PhaseOp where
  /-- the operation of a path: core, slot, path index -/
  | path (core slot pidx : Nat)
  /-- the release of the clasps of a signature that has exited (R278) -/
  | release (uid : Nat)
  deriving DecidableEq, Repr

/-- The operations of the phase in their order (R86): of paths that wait for it, resident or parted (R473), and the releases of
exits. -/
def State.phaseOps (s : State) (ctx : Nat) : List PhaseOp :=
  let all := (s.coresOf ctx).flatMap fun n => (s.core n).sigs.flatMap fun (g : Nat × Sig) =>
    ((g.2.paths.filter (·.held)).map (·.idx) ++ ((s.core n).records.filter fun r => r.slot == g.1 && !r.late.isEmpty).map (·.pidx)).map
      fun i => (g.2.place ++ [i], PhaseOp.path n g.1 i)
  let exits := (s.ctx ctx).releases.map fun x => (x.1, PhaseOp.release x.2)
  ((all ++ exits).mergeSort fun a b => !keyLt b.1 a.1).map (·.2)

/-- The next event sequence number (R86). -/
def State.nextEvent (s : State) (ctx : Nat) : State := s.modCtx ctx fun c => { c with evseq := c.evseq + 1 }

/-- An access where its page lies now. -/
def State.placed (s : State) (ctx : Nat) (a : Access) : Access :=
  match s.walk ctx a.va with
  | some l => if l.res then { a with place := (s.placeOf ctx (l.addr + a.va % l.size)).getD a.place } else a
  | none => a

/-- The operation of a parted path is performed, and its event makes the record READY (R473). -/
def State.serveLate (s : State) (ctx core slot pidx : Nat) : State :=
  match (s.core core).records.find? (fun r => r.slot == slot && r.pidx == pidx && !r.late.isEmpty), s.sig? core slot with
  | some r, some g =>
    let s := s.nextEvent ctx
    let ord := (s.ctx ctx).evseq
    let (acc, s) := performAll ctx s (r.late.map (s.placed ctx))
    let s := match acc.find? (·.got.isNone), r.wait with
      | some a, _ => s.modRecord core r.pseq fun x => x.wakeWith s.tick ord (trapAt cECC a.va)
      | none, .load d _ sx iv pair _ _ => s.bring core r g d sx iv pair acc ord
      | none, _ => s.modRecord core r.pseq fun x => x.wake s.tick ord 0
    s.markDue ctx
  | _, _ => s

/-- The operation of a resident path is performed as it was issued (R473). -/
def State.serveHeld (s : State) (ctx core slot pidx : Nat) : State :=
  match (s.sig? core slot).bind fun g => g.path? pidx with
  | none => s.serveLate ctx core slot pidx
  | some p =>
    let s := s.modSig core slot fun g => g.modPath pidx fun p => { p with held := false }
    match p.op.map fun o => (o.word, decode o.word) with
    | some (w, .ok i) =>
      let s := s.nextEvent ctx
      match execHeld i { s with sel := some ⟨core, slot, pidx, w, true⟩ } with
      | .next t => ({ t with sel := s.sel }.modSig core slot fun g => g.modPath pidx fun p => { p with op := none }).markDue ctx
      | _ => s
    | _ => s

/-- One operation of the phase. -/
def State.servePhase (s : State) (ctx : Nat) : PhaseOp → State
  | .path core slot pidx => s.serveHeld ctx core slot pidx
  | .release uid => ((s.nextEvent ctx).releaseClasps ctx uid).markDue ctx

/-- Writes of the context's cores are performed and acknowledged before the phase's operations are sent. -/
def State.drainCtx (s : State) (ctx : Nat) : State :=
  (s.coresOf ctx).foldl (fun (s : State) n =>
    (s.drainCore (s.core n).pend.length n).modCore n fun k => { k with pend := k.pend.filter fun w => !w.posted }) s

/-- The events of agents, in their order; a task for which there is no room stays, and with it what its operation does
after the push (R162, R313). -/
def State.serveEvents (s : State) (ctx : Nat) : State :=
  let all := (s.ctx ctx).events.mergeSort fun a b => !keyLt b.1 a.1
  let s := s.modCtx ctx fun c => { c with events := [] }
  all.foldl (fun (s : State) e =>
    let wait := (match e.2 with | .task _ t => !s.taskFits ctx t.core t.grid 1 | _ => false) || (s.ctx ctx).events.any fun x => x.1 == e.1
    if wait then s.modCtx ctx fun c => { c with events := c.events ++ [e] }
    else ((s.nextEvent ctx).applyEvent ctx e.2).markDue ctx) s

/-- Grids that a NOTIFY of this phase was the last to keep retire in it (R86). -/
def State.retireSpent (s : State) (ctx : Nat) : State :=
  ((AMap.keys (s.ctx ctx).grids).foldl (fun (s : State) g => match execGridRetire ctx g s with
    | .next t => t
    | _ => s) s).serveEvents ctx

/-- The waves of a core: full ones, then partial ones (R86, R164). -/
def State.serveWaves (fuel : Nat) (s : State) (core ctx : Nat) (full : Bool) : State :=
  match fuel with
  | 0 => s
  | fuel + 1 =>
    let k := s.core core
    match k.pool.find? fun t => !t.parked with
    | none => s
    | some t =>
      let l := k.alike t
      if full ∧ l.length ≠ 32 then s
      else match s.tryWave core ctx l with
        | some s => s.serveWaves fuel core ctx full
        | none => s

/-- The next round begins (R84). -/
def State.nextRound (s : State) (ctx : Nat) : State :=
  let fresh := fun (g : Sig) => { g with quantum := 0, ended := false }
  let calm := fun (r : Record) => { r with due := none }
  let s := (s.coresOf ctx).foldl (fun (s : State) n => s.modCore n fun k => { k with
    sigs := AMap.mapVals k.sigs fresh, records := k.records.map calm }) s
  s.modCtx ctx fun c => { c with stored := c.stored.map fun g => { g with quires := g.quires.map fun q => { q with
    sigs := AMap.mapVals q.sigs fresh, records := q.records.map calm } } }

/-- The accesses that the parted paths of a context have left for the phase. -/
def State.lateOf (s : State) (ctx : Nat) : List Access :=
  ((s.coresOf ctx).flatMap fun n => (s.core n).records.flatMap (·.late)).map (s.placed ctx)

/-- SERIAL_PHASE (R86), once the lines that its parted operations need are there (R260). -/
def execSerialPhase (ctx : Nat) (s : State) : Host.Outcome State Fault Refusal :=
  if !s.roundOver ctx then disabled "SERIAL_PHASE"
  else
    let (all, s) := s.fetchLines (s.lateOf ctx)
    if !all then .next s else
    let s := (s.drainCtx ctx).markDue ctx
    let ops := s.phaseOps ctx
    let s := ops.foldl (fun (s : State) x => s.servePhase ctx x) (s.modCtx ctx fun c => { c with releases := [] })
    let s := ((s.serveEvents ctx).retireSpent ctx).settleCtx ctx true
    let s := (s.coresOf ctx).foldl (fun (s : State) n => s.serveWaves 4097 n ctx true) s
    let s := (s.coresOf ctx).foldl (fun (s : State) n => (s.retryParked ((s.core n).pool.length + 1) n ctx []).serveWaves 4097 n ctx false) s
    .next (s.nextRound ctx)

end Sys2Proof.Machine
end

