-- ==== Sys2Proof/Machine/Dispatch.lean ====
section
/-! DEFINITION. Machine/Dispatch.lean: one arm for each constructor of Instr. -/

namespace Sys2Proof.Machine

def exec (i : Instr) (s : State) : Host.Outcome State Fault Refusal :=
  match i with
  | .nop h o => Sys2Proof.Machine.execNop h o s
  | .bra h o t u => Sys2Proof.Machine.execBra h o t u s
  | .btri h o t u => Sys2Proof.Machine.execBtri h o t u s
  | .brx h o => Sys2Proof.Machine.execBrx h o s
  | .call h o t u => Sys2Proof.Machine.execCall h o t u s
  | .ret h o => Sys2Proof.Machine.execRet h o s
  | .join h o => Sys2Proof.Machine.execJoin h o s
  | .exit h o => Sys2Proof.Machine.execExit h o s
  | .yield h o => Sys2Proof.Machine.execYield h o s
  | .trap h o imm => Sys2Proof.Machine.execTrap h o imm s
  | .tretRetry h o => Sys2Proof.Machine.execTretRetry h o s
  | .tretSkip h o => Sys2Proof.Machine.execTretSkip h o s
  | .tretKill h o => Sys2Proof.Machine.execTretKill h o s
  | .bpt h o => Sys2Proof.Machine.execBpt h o s
  | .loopd h o t u => Sys2Proof.Machine.execLoopd h o t u s
  | .shfl h o m => Sys2Proof.Machine.execShfl h o m s
  | .vote h o m => Sys2Proof.Machine.execVote h o m s
  | .redux h o m => Sys2Proof.Machine.execRedux h o m s
  | .fredux h o m => Sys2Proof.Machine.execFredux h o m s
  | .matchOp h o m => Sys2Proof.Machine.execMatchOp h o m s
  | .plop h o m => Sys2Proof.Machine.execPlop h o m s
  | .pset h o m => Sys2Proof.Machine.execPset h o m s
  | .pmov h o m => Sys2Proof.Machine.execPmov h o m s
  | .pcount h o m => Sys2Proof.Machine.execPcount h o m s
  | .mov h o m => Sys2Proof.Machine.execMov h o m s
  | .movi h o imm m => Sys2Proof.Machine.execMovi h o imm m s
  | .sel h o m => Sys2Proof.Machine.execSel h o m s
  | .sread h o => Sys2Proof.Machine.execSread h o s
  | .rgn h o m => Sys2Proof.Machine.execRgn h o m s
  | .live h o imm => Sys2Proof.Machine.execLive h o imm s
  | .setk h o m => Sys2Proof.Machine.execSetk h o m s
  | .quotaGive h o => Sys2Proof.Machine.execQuotaGive h o s
  | .quotaTake h o => Sys2Proof.Machine.execQuotaTake h o s
  | .iadd h o m => Sys2Proof.Machine.execIadd h o m s
  | .isub h o m => Sys2Proof.Machine.execIsub h o m s
  | .imul h o m => Sys2Proof.Machine.execImul h o m s
  | .imulh h o m => Sys2Proof.Machine.execImulh h o m s
  | .imad h o m => Sys2Proof.Machine.execImad h o m s
  | .imin h o m => Sys2Proof.Machine.execImin h o m s
  | .imax h o m => Sys2Proof.Machine.execImax h o m s
  | .iabs h o m => Sys2Proof.Machine.execIabs h o m s
  | .lop3 h o m => Sys2Proof.Machine.execLop3 h o m s
  | .shl h o m => Sys2Proof.Machine.execShl h o m s
  | .shr h o m => Sys2Proof.Machine.execShr h o m s
  | .sar h o m => Sys2Proof.Machine.execSar h o m s
  | .rot h o m => Sys2Proof.Machine.execRot h o m s
  | .bfx h o m => Sys2Proof.Machine.execBfx h o m s
  | .bfi h o m => Sys2Proof.Machine.execBfi h o m s
  | .popc h o m => Sys2Proof.Machine.execPopc h o m s
  | .clz h o m => Sys2Proof.Machine.execClz h o m s
  | .brev h o m => Sys2Proof.Machine.execBrev h o m s
  | .icmp h o m => Sys2Proof.Machine.execIcmp h o m s
  | .lea h o m => Sys2Proof.Machine.execLea h o m s
  | .idiv h o m => Sys2Proof.Machine.execIdiv h o m s
  | .cvti h o m => Sys2Proof.Machine.execCvti h o m s
  | .fadd h o m => Sys2Proof.Machine.execFadd h o m s
  | .fmul h o m => Sys2Proof.Machine.execFmul h o m s
  | .ffma h o m => Sys2Proof.Machine.execFfma h o m s
  | .fmin h o m => Sys2Proof.Machine.execFmin h o m s
  | .fmax h o m => Sys2Proof.Machine.execFmax h o m s
  | .fcmp h o m => Sys2Proof.Machine.execFcmp h o m s
  | .fclass h o m => Sys2Proof.Machine.execFclass h o m s
  | .frnd h o m => Sys2Proof.Machine.execFrnd h o m s
  | .frcp h o m => Sys2Proof.Machine.execFrcp h o m s
  | .fsqrt h o m => Sys2Proof.Machine.execFsqrt h o m s
  | .frsq h o m => Sys2Proof.Machine.execFrsq h o m s
  | .fex2 h o m => Sys2Proof.Machine.execFex2 h o m s
  | .flg2 h o m => Sys2Proof.Machine.execFlg2 h o m s
  | .fsin h o m => Sys2Proof.Machine.execFsin h o m s
  | .fcos h o m => Sys2Proof.Machine.execFcos h o m s
  | .fdiv h o m => Sys2Proof.Machine.execFdiv h o m s
  | .ftanh h o m => Sys2Proof.Machine.execFtanh h o m s
  | .fdot h o m => Sys2Proof.Machine.execFdot h o m s
  | .fscale h o m => Sys2Proof.Machine.execFscale h o m s
  | .cvtf h o m => Sys2Proof.Machine.execCvtf h o m s
  | .pack h o m => Sys2Proof.Machine.execPack h o m s
  | .unpack h o m => Sys2Proof.Machine.execUnpack h o m s
  | .deq h o m => Sys2Proof.Machine.execDeq h o m s
  | .qblk h o m => Sys2Proof.Machine.execQblk h o m s
  | .ivmake h o m => Sys2Proof.Machine.execIvmake h o m s
  | .ivbnd h o m => Sys2Proof.Machine.execIvbnd h o m s
  | .ivadd h o m => Sys2Proof.Machine.execIvadd h o m s
  | .ivsub h o m => Sys2Proof.Machine.execIvsub h o m s
  | .ivmul h o m => Sys2Proof.Machine.execIvmul h o m s
  | .ivdiv h o m => Sys2Proof.Machine.execIvdiv h o m s
  | .ivfma h o m => Sys2Proof.Machine.execIvfma h o m s
  | .ivsqr h o m => Sys2Proof.Machine.execIvsqr h o m s
  | .ivsqrt h o m => Sys2Proof.Machine.execIvsqrt h o m s
  | .ivex2 h o m => Sys2Proof.Machine.execIvex2 h o m s
  | .ivlg2 h o m => Sys2Proof.Machine.execIvlg2 h o m s
  | .ivmid h o m => Sys2Proof.Machine.execIvmid h o m s
  | .ivwid h o m => Sys2Proof.Machine.execIvwid h o m s
  | .ivhull h o m => Sys2Proof.Machine.execIvhull h o m s
  | .ivisect h o m => Sys2Proof.Machine.execIvisect h o m s
  | .ivcmp h o m => Sys2Proof.Machine.execIvcmp h o m s
  | .ivbisect h o m => Sys2Proof.Machine.execIvbisect h o m s
  | .ivld h o imm m => Sys2Proof.Machine.execIvld h o imm m s
  | .ivst h o imm m => Sys2Proof.Machine.execIvst h o imm m s
  | .ldl h o imm m => Sys2Proof.Machine.execLdl h o imm m s
  | .stl h o imm m => Sys2Proof.Machine.execStl h o imm m s
  | .atoml h o m => Sys2Proof.Machine.execAtoml h o m s
  | .ldb h o imm m => Sys2Proof.Machine.execLdb h o imm m s
  | .stb h o imm m => Sys2Proof.Machine.execStb h o imm m s
  | .spush h o => Sys2Proof.Machine.execSpush h o s
  | .spop h o => Sys2Proof.Machine.execSpop h o s
  | .ld h o imm m => Sys2Proof.Machine.execLd h o imm m s
  | .st h o imm m => Sys2Proof.Machine.execSt h o imm m s
  | .atom h o m => Sys2Proof.Machine.execAtom h o m s
  | .red h o m => Sys2Proof.Machine.execRed h o m s
  | .cas h o m => Sys2Proof.Machine.execCas h o m s
  | .ldsc h o imm m => Sys2Proof.Machine.execLdsc h o imm m s
  | .stsc h o imm m => Sys2Proof.Machine.execStsc h o imm m s
  | .cflush h o => Sys2Proof.Machine.execCflush h o s
  | .cinv h o => Sys2Proof.Machine.execCinv h o s
  | .pref h o m => Sys2Proof.Machine.execPref h o m s
  | .bind h o m => Sys2Proof.Machine.execBind h o m s
  | .acq h o m => Sys2Proof.Machine.execAcq h o m s
  | .rel h o m => Sys2Proof.Machine.execRel h o m s
  | .fence h o m => Sys2Proof.Machine.execFence h o m s
  | .ocwait h o => Sys2Proof.Machine.execOcwait h o s
  | .rvinit h o => Sys2Proof.Machine.execRvinit h o s
  | .rvarr h o => Sys2Proof.Machine.execRvarr h o s
  | .rvwait h o => Sys2Proof.Machine.execRvwait h o s
  | .mbinit h o => Sys2Proof.Machine.execMbinit h o s
  | .mbarr h o m => Sys2Proof.Machine.execMbarr h o m s
  | .mbwait h o => Sys2Proof.Machine.execMbwait h o s
  | .hwait h o => Sys2Proof.Machine.execHwait h o s
  | .htest h o => Sys2Proof.Machine.execHtest h o s
  | .hcancel h o => Sys2Proof.Machine.execHcancel h o s
  | .hstat h o => Sys2Proof.Machine.execHstat h o s
  | .hmov h o => Sys2Proof.Machine.execHmov h o s
  | .tspawn h o m => Sys2Proof.Machine.execTspawn h o m s
  | .targ h o => Sys2Proof.Machine.execTarg h o s
  | .dlaunch h o m => Sys2Proof.Machine.execDlaunch h o m s
  | .copy h o m => Sys2Proof.Machine.execCopy h o m s
  | .copyx h o m => Sys2Proof.Machine.execCopyx h o m s
  | .mma h o m => Sys2Proof.Machine.execMma h o m s
  | .mmas h o m => Sys2Proof.Machine.execMmas h o m s
  | .mzero h o m => Sys2Proof.Machine.execMzero h o m s
  | .cfgload h o => Sys2Proof.Machine.execCfgload h o s
  | .cfgrun h o m => Sys2Proof.Machine.execCfgrun h o m s
  | .cfgrunRes h o m => Sys2Proof.Machine.execCfgrunRes h o m s
  | .cfgdrain h o m => Sys2Proof.Machine.execCfgdrain h o m s
  | .cfgevict h o => Sys2Proof.Machine.execCfgevict h o s
  | .rblk h o => Sys2Proof.Machine.execRblk h o s
  | .srreg h o imm => Sys2Proof.Machine.execSrreg h o imm s
  | .swreg h o imm => Sys2Proof.Machine.execSwreg h o imm s
  | .frec h o => Sys2Proof.Machine.execFrec h o s
  | .icinv h o => Sys2Proof.Machine.execIcinv h o s
  | .frtailWrite ctx v => Sys2Proof.Machine.execFrtailWrite ctx v s
  | .covsizeWrite ctx v => Sys2Proof.Machine.execCovsizeWrite ctx v s
  | .detctlWrite ctx v => Sys2Proof.Machine.execDetctlWrite ctx v s
  | .feataccWrite ctx n v => Sys2Proof.Machine.execFeataccWrite ctx n v s
  | .peerWindowWrite ctx w v => Sys2Proof.Machine.execPeerWindowWrite ctx w v s
  | .watchdog core slot pidx => Sys2Proof.Machine.execWatchdog core slot pidx s
  | .recordRelaunch core => Sys2Proof.Machine.execRecordRelaunch core s
  | .loadDataArrival core pseq r => Sys2Proof.Machine.execLoadDataArrival core pseq r s
  | .storePerformed core ix r => Sys2Proof.Machine.execStorePerformed core ix r s
  | .flushComplete core ix => Sys2Proof.Machine.execFlushComplete core ix s
  | .apertureWriteAck core ix => Sys2Proof.Machine.execApertureWriteAck core ix s
  | .thimbleVisit => Sys2Proof.Machine.execThimbleVisit s
  | .issueQuantumEnd core slot => Sys2Proof.Machine.execIssueQuantumEnd core slot s
  | .serialPhase ctx => Sys2Proof.Machine.execSerialPhase ctx s
  | .waveForm core => Sys2Proof.Machine.execWaveForm core s
  | .gangPlace => Sys2Proof.Machine.execGangPlace s
  | .quireRetire core key => Sys2Proof.Machine.execQuireRetire core key s
  | .gridRetire ctx grid => Sys2Proof.Machine.execGridRetire ctx grid s
  | .deviceQueueTake ctx q => Sys2Proof.Machine.execDeviceQueueTake ctx q s
  | .hostDoorbell fn ctx q tail => Sys2Proof.Machine.execHostDoorbell fn ctx q tail s
  | .serialQueueRetire ctx q => Sys2Proof.Machine.execSerialQueueRetire ctx q s
  | .pageFillComplete ix r => Sys2Proof.Machine.execPageFillComplete ix r s
  | .channelPeriod stack pc => Sys2Proof.Machine.execChannelPeriod stack pc s
  | .refreshDue stack pc bank => Sys2Proof.Machine.execRefreshDue stack pc bank s
  | .copyChunk cluster r => Sys2Proof.Machine.execCopyChunk cluster r s
  | .copyComplete cluster op => Sys2Proof.Machine.execCopyComplete cluster op s
  | .tileStep cluster r => Sys2Proof.Machine.execTileStep cluster r s
  | .mzeroExecute cluster => Sys2Proof.Machine.execMzeroExecute cluster s
  | .cfgloadPerform stack => Sys2Proof.Machine.execCfgloadPerform stack s
  | .cfgrunEnqueue stack => Sys2Proof.Machine.execCfgrunEnqueue stack s
  | .cfgdrainPerform stack => Sys2Proof.Machine.execCfgdrainPerform stack s
  | .cfgevictPerform stack => Sys2Proof.Machine.execCfgevictPerform stack s
  | .installRun stack slot => Sys2Proof.Machine.execInstallRun stack slot s
  | .tileFire stack slot row col => Sys2Proof.Machine.execTileFire stack slot row col s
  | .mBufferAccept stack slot row col buf => Sys2Proof.Machine.execMBufferAccept stack slot row col buf s
  | .mBufferEmit stack slot row col buf => Sys2Proof.Machine.execMBufferEmit stack slot row col buf s
  | .portReadIssue stack slot row col => Sys2Proof.Machine.execPortReadIssue stack slot row col s
  | .portReadReturn stack slot row col => Sys2Proof.Machine.execPortReadReturn stack slot row col s
  | .portWrite stack slot row col => Sys2Proof.Machine.execPortWrite stack slot row col s
  | .portWriteAck stack slot row col => Sys2Proof.Machine.execPortWriteAck stack slot row col s
  | .contextStep stack slot => Sys2Proof.Machine.execContextStep stack slot s
  | .runComplete stack slot => Sys2Proof.Machine.execRunComplete stack slot s
  | .freezeEnd stack slot => Sys2Proof.Machine.execFreezeEnd stack slot s
  | .drainSave stack slot => Sys2Proof.Machine.execDrainSave stack slot s
  | .drainDone stack slot => Sys2Proof.Machine.execDrainDone stack slot s
  | .drainTimeout stack slot => Sys2Proof.Machine.execDrainTimeout stack slot s
  | .rblkMessage m => Sys2Proof.Machine.execRblkMessage m s
  | .rblkAbort ctx group k => Sys2Proof.Machine.execRblkAbort ctx group k s
  | .peerRequest r => Sys2Proof.Machine.execPeerRequest r s
  | .hostBar2Access fn r => Sys2Proof.Machine.execHostBar2Access fn r s
  | .ctxDefine fn ctx => Sys2Proof.Machine.execCtxDefine fn ctx s
  | .ctxUndefine fn ctx => Sys2Proof.Machine.execCtxUndefine fn ctx s
  | .ctxActivate fn ctx => Sys2Proof.Machine.execCtxActivate fn ctx s
  | .ctxPreempt fn ctx => Sys2Proof.Machine.execCtxPreempt fn ctx s
  | .ctxKill fn ctx => Sys2Proof.Machine.execCtxKill fn ctx s
  | .ctxwrite fn ctx sel v => Sys2Proof.Machine.execCtxwrite fn ctx sel v s
  | .qset fn ctx q ring entries serial head => Sys2Proof.Machine.execQset fn ctx q ring entries serial head s
  | .inval fn ctx va len => Sys2Proof.Machine.execInval fn ctx va len s
  | .unmap fn ctx va len wipe => Sys2Proof.Machine.execUnmap fn ctx va len wipe s
  | .budget fn stack pcs vals => Sys2Proof.Machine.execBudget fn stack pcs vals s
  | .partset fn stack slot v => Sys2Proof.Machine.execPartset fn stack slot v s
  | .grpset fn ctx group rank members => Sys2Proof.Machine.execGrpset fn ctx group rank members s
  | .fnset fn target first count haoff => Sys2Proof.Machine.execFnset fn target first count haoff s
  | .lifecycle fn target auth svn => Sys2Proof.Machine.execLifecycle fn target auth svn s
  | .attest fn ctx nonce va => Sys2Proof.Machine.execAttest fn ctx nonce va s
  | .deviceReset rom image => Sys2Proof.Machine.execDeviceReset rom image s
  | .powerLimit lowered => Sys2Proof.Machine.execPowerLimit lowered s
  | .allBankRefreshEnd stack pc => Sys2Proof.Machine.execAllBankRefreshEnd stack pc s
  | .cfgloadGranule stack => Sys2Proof.Machine.execCfgloadGranule stack s

end Sys2Proof.Machine
end

