-- ==== Sys2Proof/Machine/Moves.lean ====
section
/-!
DEFINITION. Machine/Moves.lean: what a step does when the agenda names it or names nothing (log entry 1), and the state
in which a given word is the next to issue (log entry 8).
-/
namespace Sys2Proof.Machine

/-- What a step is to do. -/
inductive Todo where
  /-- nothing but settle -/
  | rest (s : State)
  /-- perform an instruction or an event -/
  | run (i : Instr) (s : State)
  /-- perform the first of some events that can happen; nothing when none can -/
  | first (is : List Instr) (s : State)

/-- An issue slot as a move. -/
def Issue.todo (x : Issue) (s : State) : Todo :=
  match x with
  | .idle => .rest s
  | .spent t => .rest t
  | .run i t => .run i t

/-! ### Firmware events (R437) -/

/-- The ordering lock of a firmware event: an admin command, a doorbell, a retirement in a SERIAL queue (R437). -/
def lockOf : Instr → Option Nat
  | .ctxDefine fn _ => some (fn % 64)
  | .ctxUndefine fn _ => some (fn % 64)
  | .ctxActivate fn _ => some (fn % 64)
  | .ctxPreempt fn _ => some (fn % 64)
  | .ctxKill fn _ => some (fn % 64)
  | .ctxwrite fn _ _ _ => some (fn % 64)
  | .qset fn _ _ _ _ _ _ => some (fn % 64)
  | .inval fn _ _ _ => some (fn % 64)
  | .unmap fn _ _ _ _ => some (fn % 64)
  | .budget fn _ _ _ => some (fn % 64)
  | .partset fn _ _ _ => some (fn % 64)
  | .grpset fn _ _ _ _ => some (fn % 64)
  | .fnset fn _ _ _ _ => some (fn % 64)
  | .lifecycle fn _ _ _ => some (fn % 64)
  | .attest fn _ _ _ => some (fn % 64)
  | .hostDoorbell _ ctx q _ => some (queueLock ctx q)
  | .serialQueueRetire ctx q => some (queueLock ctx q)
  | _ => none

/-- A firmware event as it is performed. -/
def firmwareTodo (m : Move) (s : State) : Todo :=
  match m with
  | .event i => .first [i] s
  | .unknownCommand fn => .rest (if s.hasCommand fn then s.status fn 1 else s)
  | _ => .rest s

/-- Events that wait for a lock. -/
def State.waitingFor (s : State) (lock : Nat) : List Move := AMap.getD s.waiting lock []

/-- A firmware event is performed when its lock is free, after those that came before it (R437); else it waits. -/
def State.arriveEvent (s : State) (lock : Nat) (m : Move) (now : Todo) : Todo :=
  if s.lockBusy lock || !(s.waitingFor lock).isEmpty then
    .rest { s with waiting := AMap.set s.waiting lock (s.waitingFor lock ++ [m]) }
  else now

/-- The oldest event that waits for a lock is performed when the lock is free. -/
def State.serveLock (s : State) (lock : Nat) : Todo :=
  match s.waitingFor lock with
  | [] => .rest s
  | m :: r =>
    if s.lockBusy lock then .rest s
    else firmwareTodo m { s with waiting := if r.isEmpty then AMap.del s.waiting lock else AMap.set s.waiting lock r }

/-- An event of the agenda. -/
def State.eventTodo (s : State) (i : Instr) : Todo :=
  match lockOf i with
  | some lock => s.arriveEvent lock (.event i) (.run i s)
  | none => .run i s

/-- The contexts of a function, in ascending order. -/
def State.owned (s : State) (fn : Nat) : List Nat := (List.range 1024).filter fun c => (s.ctx c).owner == fn

/-- 8 bytes that the host writes in a function's BAR0 (R429): the tail of the admin ring at offset 0 (R432); in page 1 + j, the
doorbells of the j-th context that the function owns, queue q at 8 q (R433; log entry 26). -/
def State.bar0Todo (s : State) (fn off : Nat) (v : Word64) : Todo :=
  if off = 0 then .rest (s.modFunc fn fun f => { f with tail := v.toNat })
  else if off < 4096 ∨ 32 ≤ off % 4096 ∨ off % 8 ≠ 0 then .rest s
  else match (s.owned fn)[off / 4096 - 1]? with
    | some ctx => s.eventTodo (.hostDoorbell fn ctx (off % 4096 / 8) v)
    | none => .rest s

/-! ### Without an agenda -/

/-- Ports that have a ready path. -/
def State.readyPorts (s : State) : List (Nat × Nat) :=
  s.cores.flatMap fun (c : Nat × Core) => ((List.range 4).filter fun p => (s.choose c.1 p).isSome).map fun p => (c.1, p)

/-- Cores of ACTIVE contexts with a READY record that finds a port. -/
def State.relaunches (s : State) : List Instr :=
  (s.cores.filter fun (c : Nat × Core) => (match c.2.ctx with | some x => (s.ctx x).st == .active | none => false)
    && (match c.2.ctx with | some x => (c.2.nextReady (s.det x)).isSome | none => false)).map fun c => .recordRelaunch c.1

/-- Events of a core that may be due. -/
def Core.due (c : Nat) (k : Core) : List Instr :=
  (k.records.map fun r => .loadDataArrival c r.pseq (.ok []))
    ++ (List.range k.pend.length).flatMap (fun i => [.storePerformed c i (.ok []), .apertureWriteAck c i])
    ++ (List.range k.flushes.length).map (fun i => .flushComplete c i)
    ++ k.sigs.map (fun (x : Nat × Sig) => .issueQuantumEnd c x.1) ++ k.quires.map (fun (x : Nat × Quire) => .quireRetire c x.1)

/-- Events of a context that may be due. -/
def Ctx.due (c : Nat) (k : Ctx) : List Instr :=
  k.grids.map (fun (x : Nat × Grid) => .gridRetire c x.1) ++ k.devq.map (fun (x : Nat × DevQ) => .deviceQueueTake c x.1)
    ++ (k.hostq.filter fun (x : Nat × HostQ) => x.2.serial).map (fun (x : Nat × HostQ) => .serialQueueRetire c x.1)

/-- Events of a cluster's engines that may be due. -/
def Cluster.due (c : Nat) (k : Cluster) : List Instr :=
  (if k.copies.isEmpty then [] else [.copyChunk c (.ok [])]) ++ k.copies.map (fun o => .copyComplete c o.id)
    ++ if k.mats.isEmpty then [] else [.tileStep c (.ok []), .mzeroExecute c]

/-- Events of a partition that may be due. -/
def Part.due (st slot : Nat) (p : Part) : List Instr :=
  match p.act with
  | none => if p.queue.isEmpty then [] else [.installRun st slot]
  | some a =>
    (a.cfg.tiles.map fun x => .tileFire st slot x.1.1 x.1.2)
      ++ (a.cfg.tiles.filter fun x => x.2.1 == 2).flatMap (fun x => (List.range 4).flatMap fun b =>
        [.mBufferAccept st slot x.1.1 x.1.2 b, .mBufferEmit st slot x.1.1 x.1.2 b])
      ++ a.cfg.sTiles.flatMap (fun x => [.portReadIssue st slot x.1 x.2, .portReadReturn st slot x.1 x.2,
        .portWrite st slot x.1 x.2, .portWriteAck st slot x.1 x.2])
      ++ [.contextStep st slot, .runComplete st slot, .freezeEnd st slot, .drainSave st slot, .drainDone st slot]

/-- Events of a base die that may be due. -/
def Stack.due (st : Nat) (t : Stack) : List Instr :=
  (if t.ctl.isEmpty && t.loading.isNone then []
   else [.cfgloadPerform st, .cfgloadGranule st, .cfgrunEnqueue st, .cfgdrainPerform st, .cfgevictPerform st])
    ++ (List.range 8).flatMap (fun p => (t.part p).due st p) ++ (t.chans.filter fun (x : Nat × PChan) => x.2.pending.isSome || x.2.left != x.2.budget).map
      fun (x : Nat × PChan) => .channelPeriod st x.1

/-- Events that come only when nothing else can: the serial phase, and the time-out of a drain. -/
def State.lastEvents (s : State) : List Instr :=
  (AMap.keys s.ctxs).map (fun c => .serialPhase c) ++ (AMap.keys s.memStacks).flatMap fun st => (List.range 8).map fun p => .drainTimeout st p

/-- A size of an admin ring: a power of two from 16 to 4,096 (R432). -/
def adminSizeOk (n : Nat) : Bool := (List.range 9).any fun i => n == 2 ^ (i + 4)

/-- Something waits for the thimble. -/
def State.thimbleDue (s : State) : Bool := !s.scOps.isEmpty || s.memStacks.any fun (t : Nat × Stack) => !t.2.notify.isEmpty

/-- Events of the device itself that may be due, from one after the other on as steps go by. -/
def State.events (s : State) : List Instr :=
  let l : List Instr := s.cores.flatMap (fun (c : Nat × Core) => c.2.due c.1) ++ (s.cores.filter fun (c : Nat × Core) => s.waveDue c.2).map (fun c => .waveForm c.1)
    ++ s.ctxs.flatMap (fun (c : Nat × Ctx) => c.2.due c.1)
    ++ s.clusters.flatMap (fun (c : Nat × Cluster) => c.2.due c.1) ++ s.memStacks.flatMap (fun (c : Nat × Stack) => c.2.due c.1)
    ++ (List.range s.fills.length).map (fun i => .pageFillComplete i (.ok []))
    ++ (s.outbox.filter fun m => m.1 == Config.deviceNumber 0).map (fun m => .rblkMessage m.2.2)
    ++ (s.requests.filter fun r => r.1 == Config.deviceNumber 0).map (fun r => .peerRequest r.2) ++ (if s.thimbleDue then [.thimbleVisit] else []) ++ [.gangPlace]
  let n := s.tick / 2 % l.length
  l.drop n ++ l.take n ++ s.lastEvents

/-- The move of a step without an agenda: a firmware event whose lock is free; a relaunch; else, in turn, an issue slot of a
port that has a ready path, and an event. -/
def State.idleMove (s : State) : Todo :=
  match (AMap.keys s.waiting).find? fun l => !s.lockBusy l with
  | some l => s.serveLock l
  | none => match s.relaunches with
  | r :: rs => .first (r :: rs) s
  | [] =>
    let ps := s.readyPorts
    if ps.isEmpty ∨ s.tick % 2 = 0 ∧ !s.events.isEmpty then .first s.events s
    else match ps[s.tick / 2 % ps.length]? with
      | some (c, p) => (s.issue c p).todo s
      | none => .rest s

/-- Service cores count their cycles (R4). -/
def Platform.serviceTick (p : Platform) (tick : Nat) : Platform :=
  { p with service := p.service.zipIdx.map fun c => c.1 + Config.serviceCycles tick c.2 }

/-- The move of a step. -/
def State.move (s : State) : Todo :=
  let s := { s with tick := s.tick + 1, sel := none, platform := s.platform.serviceTick s.tick }
  match s.agenda with
  | [] => s.idleMove
  | m :: rest =>
    let s := { s with agenda := rest }
    match m with
    | .event i => s.eventTodo i
    | .issue c p => (s.issue c p).todo s
    | .hostWrite bus bs => .rest { s with host := Mem.writeN s.host bus bs }
    | .adminRing fn base n =>
      .rest (if adminSizeOk n then s.modFunc fn fun f => { f with ring := base, entries := n, head := 0, tail := 0 } else s)
    | .softError b on => .rest { s with softErrs := if on then insertNat s.softErrs b else s.softErrs.filter (· != b) }
    | .bar0Write fn off v => s.bar0Todo fn off v
    | .unknownCommand fn => if 64 < fn then .rest s else s.arriveEvent (fn % 64) m (firmwareTodo m s)
    | .serve lock => s.serveLock lock
    | .measure i hash => .rest (if i < 2 then s else { s with platform := s.platform.measure i hash })
    | .bar2Base fn base => .rest (s.modFunc fn fun f => { f with bar2 := base })

/-- Paths that waited for room in an engine's queue or in a counter try again. -/
def State.unstall (s : State) : State :=
  { s with cores := AMap.mapVals s.cores fun k => { k with sigs := AMap.mapVals k.sigs fun g =>
      { g with paths := g.paths.map fun p => { p with stalled := false } } } }

/-- After an instruction or an event: paths that waited for room try again after an event, and every wait is looked at. -/
def State.after (s : State) (event : Bool) : State := ((if event then s.unstall else s).settle).settleDevice

/-! ### A word to issue -/

/-- A grid of one quire for `State.boot`. -/
def bootGrid : Grid where
  id := 1
  blk := { prio := 0, det := false, depth := 0, gang := 1, rvpoints := 24, x := 1, y := 1, z := 1,
           size := ⟨262144, 524288, 131072, 262144⟩, param := 0, tasktab := 0, done := 0, roles := [⟨8, 256, 1⟩],
           syncpg := List.replicate 8 0 }
  parent := none
  child := none
  dorder := []
  hostq := none
  order := 0
  started := 1
  quiresDone := 0
  killed := 0
  status := 0
  cancelled := false

/-- Its quire, on core 0. -/
def bootQuire : Quire where
  grid := 1
  ix := 0
  gang := 0
  pos := 0
  gsize := 1
  first := 0
  base := ⟨0, 0, 0, 0⟩
  size := ⟨262144, 524288, 131072, 262144⟩
  regs := 256
  slots := [0]
  points := List.replicate 24 RvPoint.init
  spare := 0
  fifos := []
  killed := false

/-- Its signature, at PC 8. -/
def bootSig : Sig where
  uid := 0
  rseq := 0
  ctx := 1
  grid := 1
  quire := some 0
  qix := 0
  sigix := 0
  role := 0
  wave := 0
  home := 0
  B := 256
  LB := 256
  v := []
  s := Vector.replicate 64 0
  p := Vector.replicate 8 predAllFalse
  k := Vector.replicate 4 (0, 0)
  h := Vector.replicate 16 0
  stack := []
  nextNest := 0
  paths := [{ idx := 0, mask := BitVec.allOnes 128, pc := 8, nest := none, rseq := 0, passes := 0, handler := false, port := 0,
              fault := none, stalled := false, wdog := none, held := false }]
  iret := 0
  wdog := 0
  tasks := []
  quantum := 0
  ended := false

/-- s with context 1 ACTIVE, its page table mapping virtual page 0 to the frame at 0x40000, one signature of one quire on
core 0, and the word in the slot at PC 8, which port 0 of core 0 issues next (log entry 8). -/
def State.boot (s : State) (w : InstrWord) : State :=
  let hbm := Mem.writeN (Mem.writeN (Mem.writeN (Mem.writeN s.hbm 0x1000 (bytesOfNat 8 0x2005)) 0x2000 (bytesOfNat 8 0x3005))
    0x3000 (bytesOfNat 8 0x4005)) 0x4000 (bytesOfNat 8 0x40077)
  let hbm := Mem.writeN (Mem.writeN hbm 0x40000 (bytesOfNat 8 0)) 0x40008 (bytesOfWord w)
  { s with
    hbm := hbm
    ctxs := AMap.set s.ctxs 1 { Ctx.init with
      st := .active, regs := [(rTROOT, 0x1000), (rFEATACC0, Config.featdev0)], grids := [(1, bootGrid)], nextGrid := 2 }
    cores := AMap.set s.cores 0 { Core.init with
      ctx := some 1, quires := [(0, bootQuire)], sigs := [(0, bootSig)], rseq := 1, nextKey := 1 }
    births := s.births + 1
    agenda := [.issue 0 0] }

end Sys2Proof.Machine
end

