-- ==== Sys2Proof/Machine/Step.lean ====
section
/-!
DEFINITION. Machine/Step.lean: one step of the machine, and the state in which a given word issues next.
-/
namespace Sys2Proof.Machine

/-- The first of some events that can happen; when none can, only the waits are looked at. -/
def firstOf (s : State) : List Instr → Host.Outcome State Fault Refusal
  | [] => .next (s.after false)
  | i :: r => match exec i s with
    | .next t => .next (t.after true)
    | _ => firstOf s r

/-- One step: the move that the agenda names, or the model's own choice. -/
def step (s : State) : Host.Outcome State Fault Refusal :=
  match s.move with
  | .rest t => .next (t.after true)
  | .run i t =>
    match exec i t with
    | .next u => .next (u.after t.sel.isNone)
    | x => x
  | .first is t => firstOf t is

/-- s with a word, as the opcode table numbers its bits, as the next to issue. -/
def State.withFetchWord (s : State) (nbits w : Nat) : State := s.boot (BitVec.ofNat 96 (w % 2 ^ nbits))

end Sys2Proof.Machine
end

