-- ==== Sys2Proof/Safety.lean ====
section
/-!
DEFINITION. Safety.lean: what counts as a safe run (every step answers a next state, and every state keeps the form of
its tables), and the words in which the statements about single instructions are written.
-/
namespace Sys2Proof

/-- The step answers a next state. -/
def Machine.State.goes (s : Machine.State) : Bool :=
  match Machine.step s with
  | .next _ => true
  | _ => false

/-- k steps from s, each answering a next state. -/
def Machine.State.runs (s : Machine.State) (k : Nat) : Prop := ∃ t, Sys2Proof.core.run k s = .next t

/-- The four spaces of a core in canonical form. -/
def Machine.Core.memOk (k : Machine.Core) : Bool :=
  Machine.Mem.wf k.mem.lm && Machine.Mem.wf k.mem.wb && Machine.Mem.wf k.mem.ab && Machine.Mem.wf k.mem.cb

/-- Every memory in canonical form: HBM, the host's, and the spaces of the cores. -/
def Machine.State.memOk (s : Machine.State) : Bool :=
  Machine.Mem.wf s.hbm && Machine.Mem.wf s.host && s.cores.all fun c => c.2.memOk

/-- A safe run of k steps: it goes through, and every state on the way keeps its memories canonical. -/
def Safe (s : Machine.State) (k : Nat) : Prop := ∀ j, j ≤ k → ∃ t, Sys2Proof.core.run j s = .next t ∧ t.memOk = true

namespace Claim
open Machine

/-! ### When an instruction gets to its effect (R31 to R33, R84) -/

/-- In s an instruction with header h and operand fields os issues in environment e: a path is selected, e is its
environment under the guard, a lane is active (R31), and no field names a t register unless the path runs a handler. -/
structure Issues (s : State) (h : Hdr) (os : List Operand) (e : Env) : Prop where
  env : (s.env.map fun e0 => e0.guarded h) = some e
  lane : e.act ≠ 0
  noT : e.path.handler = true ∨ os.any Operand.isT = false

/-- Nothing makes a synchronising operation wait (R84, R86): the context is not in deterministic mode, or the serial
phase performs the operation. -/
def Turn (e : Env) : Prop := e.s.det e.sig.ctx = false ∨ e.sel.serial = true

/-- DYN finds a rounding mode in FPCTL (R25). -/
def RmOk (e : Env) (dyn : Bool) : Prop := dyn = true → e.s.regN e.sig.ctx rFPCTL % 8 ≤ 4

/-- i retires with the state t as its effect, and the path goes on behind it. -/
def Retires (i : Instr) (e : Env) (t : State) : Prop := exec i e.s = .next (e.retire t e.next)

/-- i parts with the state t as its effect: the path becomes the record that p describes, with room for it (R140, R145). -/
def Parts (i : Instr) (e : Env) (t : State) (p : PartSpec) : Prop := ∃ u, e.part t p = .ok u ∧ exec i e.s = .next u

/-- i raises a fault, and the path takes the exception (R33, R415). -/
def Raises (i : Instr) (e : Env) (x : Trap) : Prop := exec i e.s = .next (e.raise x)

/-- i changes nothing; its path stays at it and issues it again later. -/
def Waits (i : Instr) (e : Env) : Prop :=
  exec i e.s = .next (e.modPath e.s fun p => { p with stalled := true, passes := 0, held := false })

/-- i changes nothing; its path waits at it for the serial phase, which performs the operation with the registers of this
moment (R84, R473). -/
def Held (i : Instr) (e : Env) : Prop :=
  exec i e.s = .next (e.modSig e.s fun g => g.modPath e.sel.pidx fun p => { p with held := true, op := some (g.held e.sel.word) })

/-- i retires and has moved its path itself: t is its effect with the path moved. -/
def Moves (i : Instr) (e : Env) (t : State) : Prop := exec i e.s = .next (e.count t)

/-- R95: t is the effect before the branch, `arms` the arms in their order. Empty arms are dropped; one arm moves the
path to its target; two or three split it where the stack has room for what they push (a join entry and the deferred
arms); else PATHOVF. -/
def Branches (i : Instr) (e : Env) (t : State) (arms : List Arm) : Prop :=
  let l := arms.filter fun a => a.mask != 0
  let pushed := if e.sig.stack.isEmpty then l.length - 1 else l.length
  (∀ a, l = [a] → Moves i e (e.modPath t fun p => { p with pc := a.pc })) ∧
  (2 ≤ l.length → e.sig.stack.length + pushed ≤ 32 → Moves i e (e.modSig t fun g => g.split e.path l)) ∧
  (2 ≤ l.length → 32 < e.sig.stack.length + pushed → Raises i e ⟨0x0A, 0, none⟩)

/-- R97: an arm arrives at nest n, whose join entry counts `count` arms. The topmost deferred arms of the nest without lanes
count as arrived, while arms are left. Answers the arms left; the stack without those entries and the join entry; the topmost
deferred arm that is left; the stack without it, its join entry counting the arms left. -/
def arrival (stack : List StackEntry) (n count : Nat) : Nat × List StackEntry × Option StackEntry × List StackEntry :=
  let arms := (stack.filter fun x => !x.join && x.nest == n).reverse
  let dead := (arms.takeWhile fun x => x.mask == 0).take (count - 1)
  let c := count - 1 - dead.length
  let next := (arms.drop dead.length).head?
  let left := stack.filter fun x => !dead.contains x
  (c, left.filter fun x => !(x.join && x.id == n), next,
    (left.filter fun x => some x != next).map fun x => if x.join && x.id == n then { x with count := c } else x)

/-- The path that a deferred arm becomes. -/
def armPath (e : Env) (d : StackEntry) : Path where
  idx := d.pidx
  mask := d.mask
  pc := d.pc
  nest := some d.nest
  rseq := e.sig.rseq
  passes := 0
  handler := e.path.handler
  port := e.path.port
  fault := none
  stalled := false
  wdog := none
  held := false

/-! ### Results lane by lane -/

/-- Element k of a register in a lane type. -/
def elem (t : Ty) (k : Nat) (x : Word64) : Nat := elemAt t.shape.1 k x
/-- Element k of a register as the integer that the type reads it as. -/
def num (t : Ty) (k : Nat) (x : Word64) : Int := t.int t.shape.1 (elem t k x)
/-- An exact integer in a type: clamped under SAT, else modulo 2^w (R174). -/
def narrow (t : Ty) (sat : Bool) (x : Int) : Nat :=
  ((if sat then max (t.lo t.shape.1) (min (t.hi t.shape.1) x) else x) % 2 ^ t.shape.1).toNat
/-- The row holds f's elements in every lane, and zero above them (R26). -/
def Holds (t : Ty) (r : Row) (f : Lane → Nat → Nat) : Prop :=
  ∀ l : Lane, (∀ k, k < t.shape.2 → elem t k r[l] = f l k) ∧ (r[l]).toNat < 2 ^ (t.shape.1 * t.shape.2)
/-- i retires with f's elements in D, in the active lanes. -/
def Gives (i : Instr) (e : Env) (d : Operand) (t : Ty) (f : Lane → Nat → Nat) : Prop :=
  ∃ r, Retires i e (e.write e.s d r) ∧ Holds t r f
/-- i retires with f's values in D, in the active lanes. -/
def GivesRow (i : Instr) (e : Env) (d : Operand) (f : Lane → Word64) : Prop :=
  Retires i e (e.write e.s d (Vector.ofFn f))
/-- i retires with f's codes in the predicate that D names, in the active lanes. -/
def GivesPred (i : Instr) (e : Env) (d : Operand) (f : Lane → Tri) : Prop :=
  Retires i e (e.writeP e.s (pregNo d) (Vector.ofFn f))

/-- i retires with the effect t where ok holds in every active lane; else it raises EMPTY and names the active lanes in
which ok does not hold (R199). -/
def Checked (i : Instr) (e : Env) (ok : Lane → Bool) (t : State) : Prop :=
  ((∀ l : Lane, e.act.getLsbD l.val = true → ok l = true) → Retires i e t) ∧
  ((∃ l : Lane, e.act.getLsbD l.val = true ∧ ok l = false) →
    ∃ m : Mask, Raises i e ⟨cEMPTY, 0, some m⟩ ∧ ∀ l : Lane, m.getLsbD l.val = (e.act.getLsbD l.val && !ok l))
/-- An interval in every active lane. -/
def GivesIv (i : Instr) (e : Env) (t : Ty) (d : Operand) (f : Lane → Option Bounds) : Prop :=
  Checked i e (fun l => (f l).isSome) (e.writeIv e.s t d fun l => (f l).getD ⟨0, 0⟩)
/-- A point in every active lane. -/
def GivesPt (i : Instr) (e : Env) (d : Operand) (f : Lane → Option Nat) : Prop :=
  Checked i e (fun l => (f l).isSome) (e.write e.s d (Vector.ofFn fun l : Lane => BitVec.ofNat 64 ((f l).getD 0)))
/-- A predicate in every active lane. -/
def GivesTri (i : Instr) (e : Env) (d : Operand) (f : Lane → Option Tri) : Prop :=
  Checked i e (fun l => (f l).isSome) (e.writeP e.s (pregNo d) (Vector.ofFn fun l : Lane => (f l).getD .f))

/-! ### Addresses lane by lane (R234, R243) -/

/-- The lane is active. -/
def Active (e : Env) (l : Lane) : Prop := e.act.getLsbD l.val = true
/-- The address of a lane in format I. -/
def addrI (e : Env) (o : Ops2) (imm : BitVec 32) (l : Lane) : Word64 := (e.raw o.a)[l] + imm.signExtend 64
/-- Byte j of what a lane stores: of the register, or of the odd one of the pair. -/
def storeByte (e : Env) (d : Operand) (l : Lane) (j : Nat) : Byte :=
  if j < 8 then (e.raw d)[l].extractLsb' (8 * j) 8 else (e.rawAt immWord 1 d)[l].extractLsb' (8 * (j - 8)) 8
/-- i raises a fault at the address of the lowest active lane that is not ok. -/
def FaultsAt (i : Instr) (e : Env) (cause : Nat) (a : Lane → Word64) (ok : Lane → Prop) : Prop :=
  (∃ l, Active e l ∧ ¬ ok l) →
    ∃ l, Active e l ∧ ¬ ok l ∧ (∀ k : Lane, k < l → Active e k → ok k) ∧ Raises i e ⟨cause, a l, none⟩

/-! ### Global accesses (R252) -/

/-- One access of size n in each active lane, in ascending order. -/
def wants (e : Env) (ea : Lane → Word64) (n : Nat) : List Want := (lanesOf e.act).map fun l => ⟨l.val, ea l, n⟩
/-- Active lane, address and place, in ascending lane order. -/
def reached (e : Env) (ea : Lane → Word64) (ps : List Place) : List (Lane × Nat × Place) :=
  ((lanesOf e.act).zip ps).map fun x => (x.1, (ea x.1).toNat, x.2)
/-- The address of the lowest active lane. -/
def lowAddr (e : Env) (ea : Lane → Word64) : Word64 := match lowest e.act with | some l => ea l | none => 0
/-- What comes before the effect of an access whose pages are to pass `cell`: a check that fails is raised; while a page is
away the path parts with reason PAGE, and every absent page is asked for. -/
def ChecksAt (cell : Leaf → Bool) (i : Instr) (e : Env) (n : Need) (ws : List Want) : Prop :=
  (∀ x, e.s.reach e.sig.ctx n cell ws = .fail x → Raises i e x) ∧
  (∀ pages va, e.s.reach e.sig.ctx n cell ws = .absent pages va →
    let p : PartSpec := { reason := 0x03, evkey := BitVec.ofNat 64 (va / 2 ^ 18 * 2 ^ 18), evaux := BitVec.ofNat 64 va
                          resume := e.path.pc, wait := .none, counts := false }
    let t := e.s.askFills e.sig.ctx pages
    (∃ u, e.part t p = .ok u) → Parts i e t p)
/-- The same of an access that may touch any page. -/
def ChecksFirst (i : Instr) (e : Env) (n : Need) (ws : List Want) : Prop := ChecksAt anyPage i e n ws
/-- The path parts with reason LOAD, waiting for some accesses. -/
def loadPart (e : Env) (d : Operand) (sx interval pair sc : Bool) (ea : Lane → Word64) (acc : List Access) : PartSpec where
  reason := 0x01
  evkey := lowAddr e ea
  resume := e.next
  wait := .load (e.dest d) (Operand.bits d) sx interval pair sc acc
/-- The state with writes on their way from the core, n of them counted. -/
def sent (e : Env) (ws : List PendW) (n : Nat) : State :=
  { e.s with births := e.s.births + 1 }.modCore e.sel.core fun k => { k with pend := k.pend ++ ws, outst := k.outst + n }
/-- The place of the byte at `to`, given the place of the byte at `va`. -/
def placeAt (p : Place) (va to_ : Nat) : Place :=
  match p with
  | .hbm a => .hbm (a + to_ - va)
  | .host a => .host (a + to_ - va)
  | .peer d k a => .peer d k (a + to_ - va)
/-- ws are the writes of a store of n bytes by the active lanes: none belongs to another path, each goes to the place of
an active lane's address, together they hold the bytes of every lane (of two lanes' the higher one's), and no other. -/
structure Stores (e : Env) (d : Operand) (n : Nat) (ea : Lane → Word64) (ps : List Place) (ws : List PendW) : Prop where
  own : ∀ w ∈ ws, w.uid = e.sig.uid ∧ w.grid = e.sig.grid ∧ w.mask = e.path.mask ∧ w.posted = false ∧ w.waiter = none
  place : ∀ w ∈ ws, ∃ x ∈ reached e ea ps, w.acc.place = placeAt x.2.2 x.2.1 w.acc.va
  all : ∀ (l : Lane) (j : Nat), Active e l → j < n →
    (∀ k : Lane, l < k → Active e k → ¬ ((ea k).toNat ≤ (ea l).toNat + j ∧ (ea l).toNat + j < (ea k).toNat + n)) →
    ∃ w ∈ ws, ∃ bs, w.acc.op = .write bs ∧ w.acc.va ≤ (ea l).toNat + j ∧
      bs[(ea l).toNat + j - w.acc.va]? = some (storeByte e d l j)
  only : ∀ w ∈ ws, ∃ bs, w.acc.op = .write bs ∧ w.acc.size = bs.length ∧ ∀ i, i < bs.length →
    ∃ l, Active e l ∧ (ea l).toNat ≤ w.acc.va + i ∧ w.acc.va + i < (ea l).toNat + n

/-! ### Synchronisation cells (R275) -/

/-- a names a cell of a SYNC page of the launch block, resident and in order, and pa is its place. -/
def AtCell (e : Env) (a : Operand) (pa : Nat) : Prop :=
  e.s.reach e.sig.ctx { r := true, w := true } e.syncNamed [⟨0, e.uni a, 64⟩] = .ok [.hbm pa]
/-- Of all memory only the 48 bytes of a cell's fields may differ. -/
def OnlyCell (s t : State) (pa : Nat) : Prop :=
  (∀ a, a < pa ∨ pa + 48 ≤ a → Mem.read t.hbm a = Mem.read s.hbm a) ∧ t.host = s.host
/-- w bits of memory, from bit `bit` of the bytes at an address on (R47). -/
def bitsAt (m : Mem) (a bit w : Nat) : Nat :=
  natOfBytes (Mem.readN m (a + bit / 8) ((bit % 8 + w + 7) / 8)) / 2 ^ (bit % 8) % 2 ^ w
/-- A "u" operand of the ordering group (R290): an s register, or an immediate read as unsigned. -/
def uVal (e : Env) (o : Operand) : Nat :=
  match o with
  | .s n _ _ => (e.sig.sreg n.toNat).toNat
  | .imm i => i.toNat
  | _ => 0
/-- x modulo 2^32 lies behind y by less than 2^31: phase or generation y is complete. -/
def complete (x y : Nat) : Prop := 1 ≤ (x + 2 ^ 32 - y) % 2 ^ 32 ∧ (x + 2 ^ 32 - y) % 2 ^ 32 < 2 ^ 31

/-! ### Operations of agents (R155, R156) -/

/-- The serial number of the next operation of a unit for the path's context. -/
def nextSeq (e : Env) (kind unit : Nat) : Nat := (e.s.hunit kind unit e.sig.ctx).next
/-- The state with that operation PENDING, its handle in D where D is an h register. -/
def started (e : Env) (d : Operand) (kind unit : Nat) : State :=
  let t := (e.s.newHandle kind unit e.sig.ctx).2
  match d with
  | .h n => e.writeH t n.toNat (handleVal kind unit e.sig.ctx (nextSeq e kind unit))
  | _ => t
/-- The path's place in the serial order (R86): the core on which the signature was formed, quire or wave, signature, age
(log entry 57), path, instructions retired. -/
def serialKey (e : Env) : List Nat :=
  [e.sig.home, if e.sig.quire = none then 2 ^ 40 + e.sig.wave else e.sig.qix, e.sig.sigix, e.sig.uid, e.path.idx, e.sig.iret.toNat]
/-- The point that n names is initialised (R281). -/
def PointOk (e : Env) (n : Nat) : Prop := ∃ (key : Nat) (q : Quire) (p : RvPoint), e.sig.quire = some key ∧ e.quire = some q ∧
  q.points[n]? = some p ∧ p.expect ≠ 0

/-! ### Commands of the driver (R432) -/

/-- The function's ring holds a command, and the ordering lock of its commands is free (R432, R437). -/
def Ready (s : State) (fn : Nat) : Prop := fn ≤ 64 ∧ s.lockBusy (fn % 64) = false ∧ (s.func fn).head < (s.func fn).tail
/-- The status of the command at the head of the function's ring, with its interrupt; the head moves on. -/
def answered (s : State) (fn code : Nat) : State :=
  let f := s.func fn
  { s with
    host := Mem.writeN s.host (f.ring + 64 * (f.head % f.entries) + 56) (bytesOfNat 8 code)
    funcs := AMap.set s.funcs fn { f with
      head := f.head + 1, msix := AMap.set f.msix 0 (AMap.getD f.msix 0 0 + 1), busy := none } }
/-- The function is at work on a command until the context leaves its passing state. -/
def working (s : State) (fn ctx : Nat) : State :=
  { s with funcs := AMap.set s.funcs fn { s.func fn with busy := some (.ctx ctx) } }

/-! ### What an instruction leaves unchanged -/

/-- The guard and hints of an instruction; an event has none. -/
def hdrOf : Instr → Option Hdr
  | .nop h _ | .bra h _ _ _ | .btri h _ _ _ | .brx h _ | .call h _ _ _ | .ret h _ | .join h _ | .exit h _ | .yield h _
    | .trap h _ _ | .tretRetry h _ | .tretSkip h _ | .tretKill h _ | .bpt h _ | .loopd h _ _ _ | .shfl h _ _
    | .vote h _ _ | .redux h _ _ | .fredux h _ _ | .matchOp h _ _ | .plop h _ _ | .pset h _ _ | .pmov h _ _
    | .pcount h _ _ | .mov h _ _ | .movi h _ _ _ | .sel h _ _ | .sread h _ | .rgn h _ _ | .live h _ _ | .setk h _ _
    | .quotaGive h _ | .quotaTake h _ | .iadd h _ _ | .isub h _ _ | .imul h _ _ | .imulh h _ _ | .imad h _ _
    | .imin h _ _ | .imax h _ _ | .iabs h _ _ | .lop3 h _ _ | .shl h _ _ | .shr h _ _ | .sar h _ _ | .rot h _ _
    | .bfx h _ _ | .bfi h _ _ | .popc h _ _ | .clz h _ _ | .brev h _ _ | .icmp h _ _ | .lea h _ _ | .idiv h _ _
    | .cvti h _ _ | .fadd h _ _ | .fmul h _ _ | .ffma h _ _ | .fmin h _ _ | .fmax h _ _ | .fcmp h _ _ | .fclass h _ _
    | .frnd h _ _ | .frcp h _ _ | .fsqrt h _ _ | .frsq h _ _ | .fex2 h _ _ | .flg2 h _ _ | .fsin h _ _ | .fcos h _ _
    | .fdiv h _ _ | .ftanh h _ _ | .fdot h _ _ | .fscale h _ _ | .cvtf h _ _ | .pack h _ _ | .unpack h _ _
    | .deq h _ _ | .qblk h _ _ | .ivmake h _ _ | .ivbnd h _ _ | .ivadd h _ _ | .ivsub h _ _ | .ivmul h _ _
    | .ivdiv h _ _ | .ivfma h _ _ | .ivsqr h _ _ | .ivsqrt h _ _ | .ivex2 h _ _ | .ivlg2 h _ _ | .ivmid h _ _
    | .ivwid h _ _ | .ivhull h _ _ | .ivisect h _ _ | .ivcmp h _ _ | .ivbisect h _ _ | .ivld h _ _ _ | .ivst h _ _ _
    | .ldl h _ _ _ | .stl h _ _ _ | .atoml h _ _ | .ldb h _ _ _ | .stb h _ _ _ | .spush h _ | .spop h _ | .ld h _ _ _
    | .st h _ _ _ | .atom h _ _ | .red h _ _ | .cas h _ _ | .ldsc h _ _ _ | .stsc h _ _ _ | .cflush h _ | .cinv h _
    | .pref h _ _ | .bind h _ _ | .acq h _ _ | .rel h _ _ | .fence h _ _ | .ocwait h _ | .rvinit h _ | .rvarr h _
    | .rvwait h _ | .mbinit h _ | .mbarr h _ _ | .mbwait h _ | .hwait h _ | .htest h _ | .hcancel h _ | .hstat h _
    | .hmov h _ | .tspawn h _ _ | .targ h _ | .dlaunch h _ _ | .copy h _ _ | .copyx h _ _ | .mma h _ _ | .mmas h _ _
    | .mzero h _ _ | .cfgload h _ | .cfgrun h _ _ | .cfgrunRes h _ _ | .cfgdrain h _ _ | .cfgevict h _ | .rblk h _
    | .srreg h _ _ | .swreg h _ _ | .frec h _ | .icinv h _ => some h
  | .frtailWrite _ _ | .covsizeWrite _ _ | .detctlWrite _ _ | .feataccWrite _ _ _ | .peerWindowWrite _ _ _
    | .watchdog _ _ _ | .recordRelaunch _ | .loadDataArrival _ _ _ | .storePerformed _ _ _ | .flushComplete _ _
    | .apertureWriteAck _ _ | .thimbleVisit | .issueQuantumEnd _ _ | .serialPhase _ | .waveForm _ | .gangPlace
    | .quireRetire _ _ | .gridRetire _ _ | .deviceQueueTake _ _ | .hostDoorbell _ _ _ _ | .serialQueueRetire _ _
    | .pageFillComplete _ _ | .channelPeriod _ _ | .refreshDue _ _ _ | .copyChunk _ _ | .copyComplete _ _
    | .tileStep _ _ | .mzeroExecute _ | .cfgloadPerform _ | .cfgrunEnqueue _ | .cfgdrainPerform _ | .cfgevictPerform _
    | .installRun _ _ | .tileFire _ _ _ _ | .mBufferAccept _ _ _ _ _ | .mBufferEmit _ _ _ _ _ | .portReadIssue _ _ _ _
    | .portReadReturn _ _ _ _ | .portWrite _ _ _ _ | .portWriteAck _ _ _ _ | .contextStep _ _ | .runComplete _ _
    | .freezeEnd _ _ | .drainSave _ _ | .drainDone _ _ | .drainTimeout _ _ | .rblkMessage _ | .rblkAbort _ _ _
    | .peerRequest _ | .hostBar2Access _ _ | .ctxDefine _ _ | .ctxUndefine _ _ | .ctxActivate _ _ | .ctxPreempt _ _
    | .ctxKill _ _ | .ctxwrite _ _ _ _ | .qset _ _ _ _ _ _ _ | .inval _ _ _ _ | .unmap _ _ _ _ _ | .budget _ _ _ _
    | .partset _ _ _ _ | .grpset _ _ _ _ _ | .fnset _ _ _ _ _ | .lifecycle _ _ _ _ | .attest _ _ _ _
    | .deviceReset _ _ | .powerLimit _ | .allBankRefreshEnd _ _ | .cfgloadGranule _ => none

/-! ### What a word and its path must have (R19 to R22, R32, R33) -/

/-- What an instruction asks for before it has any effect: its operand fields, which must fit their positions; whether its
rounding is DYN; the features it needs; whether it is for handlers only. `index`: the operands whose register number is looked
at first when it is performed (R125), and whether each names a pair; none where other checks of the instruction come before. -/
structure Demand where
  ops : List Operand
  dyn : Bool := false
  feats : List Nat := []
  handler : Bool := false
  fits : Env → Bool
  index : List (Operand × Bool) := []

/-- Four operand fields that fit their positions. -/
def four (o : Ops4) (d a b c : Pos) : Demand := { ops := o.list, fits := fun e => e.ops4Ok o d a b c }
/-- Two operand fields that fit their positions. -/
def two (o : Ops2) (d a : Pos) : Demand := { ops := o.list, fits := fun e => e.ops2Ok o d a }

/-- What each instruction asks for; an event asks for nothing. -/
def demand : Instr → Option Demand
  | .nop _ o | .join _ o | .exit _ o | .yield _ o => some (four o unused unused unused unused)
  | .tretRetry _ o | .tretSkip _ o | .tretKill _ o => some { four o unused unused unused unused with handler := true }
  | .bra _ o _ _ | .trap _ o _ | .live _ o _ => some (two o unused unused)
  | .btri _ o _ _ => some (two o unused { kinds := [.p] })
  | .call _ o _ _ | .loopd _ o _ _ => some (two o { kinds := [.s] } unused)
  | .brx _ o => some (four o unused { kinds := [.s, .v] } unused unused)
  | .ret _ o => some (four o unused { kinds := [.s] } unused unused)
  | .bpt _ o => some (four o unused { kinds := [.zero, .imm] } unused unused)
  | .shfl _ o _ => some (four o vPos vsPos { kinds := [.v, .s, .imm] } { kinds := [.v, .s, .imm, .zero] })
  | .vote _ o m =>
    let ballot := m.sel.toNat = 3
    let d : Pos := if ballot then (if m.w then vPos else { kinds := [.s] }) else pPos
    some { four o d (if m.sel.toNat = 2 then vsPos else pPos) unused unused with
      fits := fun e => e.ops4Ok o d (if m.sel.toNat = 2 then vsPos else pPos) unused unused && (match o.d with
        | .s n _ _ => m.sel.toNat != 3 || n.toNat % 2 == 0
        | _ => true) }
  | .redux _ o m => some (four o (segPos m) vsPos unused unused)
  | .fredux _ o m =>
    some { four o (segPos m) { kinds := [.v, .s], fp := true } unused unused with feats := if m.ty == 6 then [0] else [] }
  | .matchOp _ o m => some (four o (if m.sel == 0 then pPos else vPos) vsPos unused unused)
  | .plop _ o m => some (four o pPos pPos (if m.op.toNat ≤ 2 ∨ m.op.toNat = 4 then pPos else unused) unused)
  | .pset _ o m =>
    let a : Pos := if m.sel.toNat = 0 then { kinds := [.v, .s, .imm] } else if m.sel.toNat = 1 then unused else { kinds := [.s] }
    some { four o pPos a unused unused with
      fits := fun e => e.ops4Ok o pPos a unused unused && (match o.a with
        | .s n _ _ => m.sel.toNat != 2 || n.toNat % 2 == 0
        | _ => true) }
  | .pmov _ o _ =>
    some (four o (match o.a with | .p _ => { kinds := [.p, .v] } | _ => pPos) { kinds := [.p, .v] } unused unused)
  | .pcount _ o m => some (four o (segPos m) pPos unused unused)
  | .mov _ o m => some { four o dstPos srcPos unused unused with fits := movOk o m.x2, index := [(o.d, m.x2), (o.a, m.x2)] }
  | .movi _ o _ _ => some (two o { kinds := [.v, .s] } unused)
  | .sel _ o m =>
    let src : Pos := if m.x2 then { kinds := [.v, .idx], pair := true } else srcPos
    some { four o { kinds := [.v, .idx], pair := m.x2 } src src src with index := [(o.d, m.x2), (o.a, m.x2), (o.b, m.x2), (o.c, m.x2)] }
  | .sread _ o =>
    some { four o unused unused unused unused with
      fits := fun e => e.ops4Ok o { kinds := if srNo o.a = 0 then [.v] else [.v, .s] } { kinds := [.sr] } unused unused
        && (srNo o.a == 0 || (e.special (srNo o.a)).isSome) }
  | .rgn _ o _ => some (four o unused { kinds := [.s, .zero] } unused unused)
  | .setk _ o _ => some (four o unused { kinds := [.s, .imm, .zero] } { kinds := [.s, .imm, .zero] } unused)
  | .quotaGive _ o | .quotaTake _ o => some (four o unused { kinds := [.s, .imm] } unused unused)
  | .iabs _ o _ | .popc _ o _ | .clz _ o _ | .brev _ o _ =>
    some { four o dstPos srcPos unused unused with index := [(o.d, false), (o.a, false)] }
  | .iadd _ o _ | .isub _ o _ | .imul _ o _ | .imulh _ o _ | .imin _ o _ | .imax _ o _ | .shl _ o _ | .shr _ o _
    | .sar _ o _ | .rot _ o _ =>
    some { four o dstPos srcPos srcPos unused with index := [(o.d, false), (o.a, false), (o.b, false)] }
  | .imad _ o _ | .bfx _ o _ | .bfi _ o _ =>
    some { four o dstPos srcPos srcPos srcPos with index := [(o.d, false), (o.a, false), (o.b, false), (o.c, false)] }
  | .lop3 _ o _ | .lea _ o _ | .idiv _ o _ =>
    some { four o dstPos srcPos srcPos ctlPos with index := [(o.d, false), (o.a, false), (o.b, false)] }
  | .icmp _ o _ => some { four o { kinds := [.p] } srcPos srcPos ctlPos with index := [(o.a, false), (o.b, false)] }
  | .cvti _ o _ => some { four o dstPos srcPos ctlPos unused with index := [(o.d, false), (o.a, false)] }
  | .frnd _ o m | .frcp _ o m | .fsqrt _ o m | .frsq _ o m | .fex2 _ o m | .flg2 _ o m | .fsin _ o m | .fcos _ o m
    | .ftanh _ o m =>
    some { four o dstPos fpPos unused unused with dyn := m.rm == .dyn, index := [(o.d, false), (o.a, false)] }
  | .fadd _ o m | .fmul _ o m | .fmin _ o m | .fmax _ o m | .fdiv _ o m =>
    some { four o dstPos fpPos fpPos unused with dyn := m.rm == .dyn, index := [(o.d, false), (o.a, false), (o.b, false)] }
  | .ffma _ o m | .fdot _ o m =>
    some { four o dstPos fpPos fpPos fpPos with dyn := m.rm == .dyn, index := [(o.d, false), (o.a, false), (o.b, false), (o.c, false)] }
  | .fscale _ o m =>
    some { four o dstPos fpPos srcPos unused with dyn := m.rm == .dyn, index := [(o.d, false), (o.a, false), (o.b, false)] }
  | .fcmp _ o _ => some { four o { kinds := [.p] } fpPos fpPos ctlPos with index := [(o.a, false), (o.b, false)] }
  | .fclass _ o _ =>
    some { four o (if o.d.isP then { kinds := [.p] } else dstPos) fpPos unused (if o.d.isP then ctlPos else unused) with index := [(o.d, false), (o.a, false)] }
  | .cvtf _ o m =>
    some { four o dstPos { kinds := [.v, .s, .idx, .imm, .zero], fp := (srcTy o.b).isFloat } ctlPos unused with dyn := m.rm == .dyn, index := [(o.d, false), (o.a, false)] }
  | .pack _ o m =>
    some { four o dstPos fpPos (if m.ty == .f32x2 then fpPos else unused) ctlPos with dyn := m.rm == .dyn, index := [(o.d, false), (o.a, false), (o.b, false)] }
  | .unpack _ o m =>
    some { four o { kinds := [.v, .idx], pair := m.ty == .f32x2 } srcPos unused ctlPos with dyn := m.rm == .dyn, index := [(o.d, m.ty == .f32x2), (o.a, false)] }
  | .deq _ o m =>
    some { four o { kinds := [.v, .idx], pair := true } srcPos srcPos ctlPos with
      dyn := m.rm == .dyn, feats := blockFeats (fgFmt o.c), index := [(o.d, true), (o.a, false), (o.b, false)] }
  | .qblk _ o _ =>
    some { four o dstPos fpPos (if fgFmt o.c = 14 then srcPos else unused) ctlPos with feats := blockFeats (fgFmt o.c), index := [(o.d, false), (o.a, false), (o.b, false)] }
  | .ivmake _ o m =>
    some (if ctlNo o.c = 2 then { four o (ivDst m.ty) (ivPos (otherIv m.ty)) unused ctlPos with
        feats := [0], index := [(o.d, ivWide m.ty), (o.a, ivWide (otherIv m.ty))] }
      else { four o (ivDst m.ty) (ptPos m.ty) (ptPos m.ty) ctlPos with
        feats := [0], index := [(o.d, ivWide m.ty), (o.a, false), (o.b, false)] })
  | .ivbnd _ o m =>
    some (match ctlNo o.c with
      | 0 => { four o (ivDst m.ty) (ptPos m.ty) (ptPos m.ty) ctlPos with
          feats := [0], index := [(o.d, ivWide m.ty), (o.a, false), (o.b, false)] }
      | 3 => { four o { kinds := [.p] } (ivPos m.ty) unused ctlPos with feats := [0], index := [(o.a, ivWide m.ty)] }
      | _ => { four o { kinds := [.v, .idx] } (ivPos m.ty) unused ctlPos with feats := [0], index := [(o.d, false), (o.a, ivWide m.ty)] })
  | .ivsqr _ o m | .ivsqrt _ o m | .ivex2 _ o m | .ivlg2 _ o m =>
    some { four o (ivDst m.ty) (ivPos m.ty) unused unused with feats := [0], index := [(o.d, ivWide m.ty), (o.a, ivWide m.ty)] }
  | .ivmid _ o m | .ivwid _ o m =>
    some { four o { kinds := [.v, .idx] } (ivPos m.ty) unused unused with feats := [0], index := [(o.d, false), (o.a, ivWide m.ty)] }
  | .ivadd _ o m | .ivsub _ o m | .ivmul _ o m | .ivdiv _ o m | .ivhull _ o m =>
    some { four o (ivDst m.ty) (ivPos m.ty) (ivPos m.ty) unused with
      feats := [0], index := [(o.d, ivWide m.ty), (o.a, ivWide m.ty), (o.b, ivWide m.ty)] }
  | .ivisect _ o m =>
    some { four o (ivDst m.ty) (ivPos m.ty) (ivPos m.ty) ctlPos with
      feats := [0], index := [(o.d, ivWide m.ty), (o.a, ivWide m.ty), (o.b, ivWide m.ty)] }
  | .ivfma _ o m =>
    some { four o (ivDst m.ty) (ivPos m.ty) (ivPos m.ty) (ivPos m.ty) with
      feats := [0], index := [(o.d, ivWide m.ty), (o.a, ivWide m.ty), (o.b, ivWide m.ty), (o.c, ivWide m.ty)] }
  | .ivcmp _ o m =>
    some { four o { kinds := [.p] } (ivPos m.ty) (if ctlNo o.c == 5 then ptPos m.ty else ivPos m.ty) ctlPos with
      feats := [0], index := [(o.a, ivWide m.ty), (o.b, ivWide m.ty && !(ctlNo o.c == 5))] }
  | .ivbisect _ o m =>
    some { four o unused unused unused unused with
      feats := [0, 7], fits := fun e => e.ops4Ok o (ivDst m.ty) { kinds := [.p] } { kinds := [.v, .s, .imm] } unused && !Operand.isT o.d }
  | .ldl _ o _ m | .ldb _ o _ m => some { two o (loadPos m.wide) addrPos with index := [(o.d, m.wide)] }
  | .ld _ o _ m => some { two o (loadPos m.wide) addrPos with index := [(o.d, m.wide)] }
  | .stl _ o _ m | .stb _ o _ m => some { two o (storePos m.wide) addrPos with index := [(o.d, m.wide)] }
  | .st _ o _ m => some { two o (storePos m.wide) addrPos with index := [(o.d, m.wide)] }
  | .ldsc _ o _ _ => some { two o (loadPos false) addrPos with index := [(o.d, false)] }
  | .stsc _ o _ _ => some { two o (storePos false) addrPos with index := [(o.d, false)] }
  | .ivld _ o _ m | .ivst _ o _ m =>
    some { two o (ivDst m.ty) { kinds := [.v, .s] } with feats := [0], index := [(o.d, ivWide m.ty)] }
  | .atoml _ o m =>
    some { four o atomDst addrPos (atomB m) (if m.isCas then srcPos else unused) with index := [(o.d, false), (o.b, false), (o.c, false)] }
  | .atom _ o m =>
    some { four o atomDst { kinds := [.v, .s] } (atomB m) unused with index := [(o.d, false), (o.b, false), (o.c, false)] }
  | .red _ o m =>
    some { four o unused { kinds := [.v, .s] } (atomB m) unused with index := [(o.d, false), (o.b, false), (o.c, false)] }
  | .cas _ o _ =>
    some { four o atomDst { kinds := [.v, .s] } srcPos srcPos with index := [(o.d, false), (o.b, false), (o.c, false)] }
  | .spush _ o => some (four o unused srcPos { kinds := [.imm, .s] } unused)
  | .spop _ o => some (four o dstPos { kinds := [.imm, .s] } unused unused)
  | .cflush _ o | .cinv _ o => some (four o unused { kinds := [.s] } { kinds := [.s, .imm] } unused)
  | .pref _ o _ => some (four o unused { kinds := [.v, .s] } { kinds := [.s, .imm] } unused)
  | .bind _ o _ => some (four o unused { kinds := [.s] } { kinds := [.s] } { kinds := [.s, .imm] })
  | .acq _ o _ | .rel _ o _ => some (four o unused { kinds := [.s] } unused unused)
  | .fence _ o _ | .ocwait _ o => some (four o unused unused unused unused)
  | .rvinit _ o | .rvwait _ o => some (four o unused { kinds := [.s, .imm] } { kinds := [.s, .imm] } unused)
  | .rvarr _ o => some (four o { kinds := [.s, .zero] } { kinds := [.s, .imm] } { kinds := [.s, .imm, .zero] } unused)
  | .mbinit _ o | .mbwait _ o | .icinv _ o => some (four o unused { kinds := [.s] } { kinds := [.s, .imm] } unused)
  | .mbarr _ o _ => some (four o { kinds := [.s, .zero] } { kinds := [.s] } { kinds := [.s, .imm, .zero] } unused)
  | .hwait _ o | .hcancel _ o => some (four o unused { kinds := [.h] } unused unused)
  | .htest _ o => some (four o { kinds := [.p] } { kinds := [.h] } unused unused)
  | .hstat _ o => some (four o { kinds := [.v, .s] } { kinds := [.h] } unused unused)
  | .hmov _ o =>
    some { four o unused unused unused unused with
      fits := fun e => if Machine.Operand.isH o.d then e.ops4Ok o { kinds := [.h] } { kinds := [.s] } unused unused
        else e.ops4Ok o { kinds := [.s] } { kinds := [.h] } unused unused }
  | .tspawn _ o _ =>
    some { four o unused dstPos { kinds := [.v, .s, .imm] } { kinds := [.v, .s, .imm, .zero] } with feats := [7] }
  | .targ _ o =>
    some { four o unused unused unused unused with
      feats := [7], index := [(o.d, false)]
      fits := fun e => e.ops4Ok o dstPos { kinds := [.imm] } unused unused && (match o.a with
        | .imm i => decide (i.toNat ≤ 1)
        | _ => false) }
  | .dlaunch _ o _ => some { four o { kinds := [.h, .zero] } { kinds := [.s] } unused unused with feats := [8] }
  | .copy _ o m =>
    some { four o { kinds := [.h, .zero] } { kinds := [.s] } { kinds := [.s] }
        (match m.ck.toNat with | 0 => unused | 1 => { kinds := [.s, .imm] } | _ => { kinds := [.s] }) with
      feats := if m.ck == 2 then [7] else [] }
  | .copyx _ o m =>
    some { four o { kinds := [.h, .zero] } { kinds := [.s] } { kinds := [.s] }
        (match m.ck.toNat with | 0 => unused | 1 => { kinds := [.s, .imm] } | _ => { kinds := [.s] }) with
      feats := [4] ++ (if m.ck == 2 then [7] else []) }
  | .mma _ o _ => some (four o { kinds := [.h, .zero] } { kinds := [.s] } { kinds := [.s] } { kinds := [.s] })
  | .mmas _ o _ =>
    some { four o { kinds := [.h, .zero] } { kinds := [.s] } { kinds := [.s] } { kinds := [.s] } with feats := [2] }
  | .mzero _ o _ => some (four o { kinds := [.h, .zero] } { kinds := [.s] } { kinds := [.s, .imm] } unused)
  | .cfgload _ o =>
    some { four o { kinds := [.h, .zero] } { kinds := [.s] } { kinds := [.s, .imm] } { kinds := [.s, .imm] } with feats := [3] }
  | .cfgrun _ o _ =>
    some { four o { kinds := [.h, .zero] } { kinds := [.s, .imm] } { kinds := [.s, .zero] } { kinds := [.s, .imm] } with feats := [3] }
  | .cfgrunRes _ o _ =>
    some { four o unused { kinds := [.s, .imm] } { kinds := [.s] } { kinds := [.s, .imm] } with feats := [3] }
  | .cfgdrain _ o _ =>
    some { four o { kinds := [.h, .zero] } { kinds := [.s] } unused { kinds := [.s, .imm] } with feats := [3] }
  | .cfgevict _ o =>
    some { four o { kinds := [.h, .zero] } { kinds := [.s, .imm] } unused { kinds := [.s, .imm] } with feats := [3] }
  | .rblk _ o => some { four o { kinds := [.h, .zero] } { kinds := [.s] } unused unused with feats := [5] }
  | .srreg _ o _ => some { two o { kinds := [.v, .s, .idx] } { kinds := [.s, .zero] } with index := [(o.d, false)] }
  | .swreg _ o _ => some { two o { kinds := [.v, .s, .idx, .zero] } { kinds := [.s, .zero] } with index := [(o.d, false)] }
  | .frec _ o => some (four o { kinds := [.s, .zero] } unused { kinds := [.s, .imm, .zero] } { kinds := [.s, .imm, .zero] })
  | .frtailWrite _ _ | .covsizeWrite _ _ | .detctlWrite _ _ | .feataccWrite _ _ _ | .peerWindowWrite _ _ _
    | .watchdog _ _ _ | .recordRelaunch _ | .loadDataArrival _ _ _ | .storePerformed _ _ _ | .flushComplete _ _
    | .apertureWriteAck _ _ | .thimbleVisit | .issueQuantumEnd _ _ | .serialPhase _ | .waveForm _ | .gangPlace
    | .quireRetire _ _ | .gridRetire _ _ | .deviceQueueTake _ _ | .hostDoorbell _ _ _ _ | .serialQueueRetire _ _
    | .pageFillComplete _ _ | .channelPeriod _ _ | .refreshDue _ _ _ | .copyChunk _ _ | .copyComplete _ _
    | .tileStep _ _ | .mzeroExecute _ | .cfgloadPerform _ | .cfgrunEnqueue _ | .cfgdrainPerform _ | .cfgevictPerform _
    | .installRun _ _ | .tileFire _ _ _ _ | .mBufferAccept _ _ _ _ _ | .mBufferEmit _ _ _ _ _ | .portReadIssue _ _ _ _
    | .portReadReturn _ _ _ _ | .portWrite _ _ _ _ | .portWriteAck _ _ _ _ | .contextStep _ _ | .runComplete _ _
    | .freezeEnd _ _ | .drainSave _ _ | .drainDone _ _ | .drainTimeout _ _ | .rblkMessage _ | .rblkAbort _ _ _
    | .peerRequest _ | .hostBar2Access _ _ | .ctxDefine _ _ | .ctxUndefine _ _ | .ctxActivate _ _ | .ctxPreempt _ _
    | .ctxKill _ _ | .ctxwrite _ _ _ _ | .qset _ _ _ _ _ _ _ | .inval _ _ _ _ | .unmap _ _ _ _ _ | .budget _ _ _ _
    | .partset _ _ _ _ | .grpset _ _ _ _ _ | .fnset _ _ _ _ _ | .lifecycle _ _ _ _ | .attest _ _ _ _
    | .deviceReset _ _ | .powerLimit _ | .allBankRefreshEnd _ _ | .cfgloadGranule _ => none

/-- The first of the checks that fails, in the order ILLOP, FEATURE, PRIV, OPERAND (R33). -/
def firstFailure (e : Env) (d : Demand) : Option Nat :=
  if d.dyn = true ∧ 4 < e.s.regN e.sig.ctx rFPCTL % 8 then some 0x01
  else if ∃ b ∈ d.feats, e.s.feat e.sig.ctx b = false then some 0x1A
  else if e.path.handler = false ∧ (d.handler = true ∨ ∃ o ∈ d.ops, Operand.isT o = true) then some 0x19
  else if d.fits e = false then some 0x02
  else none

/-- An s register: a second result goes to the next one. -/
def isS : Operand → Bool
  | .s _ _ _ => true
  | .v _ _ _ | .idx _ _ _ _ | .imm _ | .p _ | .h _ | .t _ _ _ | .sr _ | .zero | .bad _ => false

/-- What an instruction writes that writes nothing but registers: a destination field, and whether it stands for a pair. -/
def writes : Instr → Option (List (Operand × Bool))
  | .nop _ _ | .rgn _ _ _ => some []
  | .shfl _ o _ | .redux _ o _ | .fredux _ o _ | .matchOp _ o _ | .plop _ o _ | .pset _ o _ | .pmov _ o _
    | .pcount _ o _ | .sread _ o | .iadd _ o _ | .isub _ o _ | .imul _ o _ | .imulh _ o _ | .imad _ o _ | .imin _ o _
    | .imax _ o _ | .iabs _ o _ | .lop3 _ o _ | .shl _ o _ | .shr _ o _ | .sar _ o _ | .rot _ o _ | .bfx _ o _
    | .bfi _ o _ | .popc _ o _ | .clz _ o _ | .brev _ o _ | .icmp _ o _ | .lea _ o _ | .idiv _ o _ | .cvti _ o _
    | .fadd _ o _ | .fmul _ o _ | .ffma _ o _ | .fmin _ o _ | .fmax _ o _ | .fcmp _ o _ | .fclass _ o _ | .frnd _ o _
    | .frcp _ o _ | .fsqrt _ o _ | .frsq _ o _ | .fex2 _ o _ | .flg2 _ o _ | .fsin _ o _ | .fcos _ o _ | .fdiv _ o _
    | .ftanh _ o _ | .fdot _ o _ | .fscale _ o _ | .cvtf _ o _ | .pack _ o _ | .qblk _ o _ | .ivmid _ o _
    | .ivwid _ o _ | .ivcmp _ o _ | .htest _ o | .hstat _ o | .hmov _ o | .targ _ o => some [(o.d, false)]
  | .movi _ o _ _ => some [(o.d, false)]
  | .ivmake _ o m | .ivadd _ o m | .ivsub _ o m | .ivmul _ o m | .ivdiv _ o m | .ivfma _ o m | .ivsqr _ o m
    | .ivsqrt _ o m | .ivex2 _ o m | .ivlg2 _ o m | .ivhull _ o m | .ivisect _ o m => some [(o.d, ivWide m.ty)]
  | .vote _ o _ => some [(o.d, isS o.d)]
  | .mov _ o m => some [(o.d, m.x2)]
  | .sel _ o m => some [(o.d, m.x2)]
  | .unpack _ o m => some [(o.d, m.ty == .f32x2)]
  | .deq _ o _ => some [(o.d, true)]
  | .ivbnd _ o m => some [(o.d, ivWide m.ty && ctlNo o.c == 0)]
  | .ldl _ o _ m => some [(o.d, m.wide)]
  | .ldb _ o _ m => some [(o.d, m.wide)]
  | .bra _ _ _ _ | .btri _ _ _ _ | .brx _ _ | .call _ _ _ _ | .ret _ _ | .join _ _ | .exit _ _ | .yield _ _
    | .trap _ _ _ | .tretRetry _ _ | .tretSkip _ _ | .tretKill _ _ | .bpt _ _ | .loopd _ _ _ _ | .live _ _ _
    | .setk _ _ _ | .quotaGive _ _ | .quotaTake _ _ | .ivbisect _ _ _ | .ivld _ _ _ _ | .ivst _ _ _ _ | .stl _ _ _ _
    | .atoml _ _ _ | .stb _ _ _ _ | .spush _ _ | .spop _ _ | .ld _ _ _ _ | .st _ _ _ _ | .atom _ _ _ | .red _ _ _
    | .cas _ _ _ | .ldsc _ _ _ _ | .stsc _ _ _ _ | .cflush _ _ | .cinv _ _ | .pref _ _ _ | .bind _ _ _ | .acq _ _ _
    | .rel _ _ _ | .fence _ _ _ | .ocwait _ _ | .rvinit _ _ | .rvarr _ _ | .rvwait _ _ | .mbinit _ _ | .mbarr _ _ _
    | .mbwait _ _ | .hwait _ _ | .hcancel _ _ | .tspawn _ _ _ | .dlaunch _ _ _ | .copy _ _ _ | .copyx _ _ _
    | .mma _ _ _ | .mmas _ _ _ | .mzero _ _ _ | .cfgload _ _ | .cfgrun _ _ _ | .cfgrunRes _ _ _ | .cfgdrain _ _ _
    | .cfgevict _ _ | .rblk _ _ | .srreg _ _ _ | .swreg _ _ _ | .frec _ _ | .icinv _ _ | .frtailWrite _ _ | .covsizeWrite _ _
    | .detctlWrite _ _ | .feataccWrite _ _ _ | .peerWindowWrite _ _ _ | .watchdog _ _ _ | .recordRelaunch _
    | .loadDataArrival _ _ _ | .storePerformed _ _ _ | .flushComplete _ _ | .apertureWriteAck _ _ | .thimbleVisit
    | .issueQuantumEnd _ _ | .serialPhase _ | .waveForm _ | .gangPlace | .quireRetire _ _ | .gridRetire _ _
    | .deviceQueueTake _ _ | .hostDoorbell _ _ _ _ | .serialQueueRetire _ _ | .pageFillComplete _ _
    | .channelPeriod _ _ | .refreshDue _ _ _ | .copyChunk _ _ | .copyComplete _ _ | .tileStep _ _ | .mzeroExecute _
    | .cfgloadPerform _ | .cfgrunEnqueue _ | .cfgdrainPerform _ | .cfgevictPerform _ | .installRun _ _
    | .tileFire _ _ _ _ | .mBufferAccept _ _ _ _ _ | .mBufferEmit _ _ _ _ _ | .portReadIssue _ _ _ _
    | .portReadReturn _ _ _ _ | .portWrite _ _ _ _ | .portWriteAck _ _ _ _ | .contextStep _ _ | .runComplete _ _
    | .freezeEnd _ _ | .drainSave _ _ | .drainDone _ _ | .drainTimeout _ _ | .rblkMessage _ | .rblkAbort _ _ _
    | .peerRequest _ | .hostBar2Access _ _ | .ctxDefine _ _ | .ctxUndefine _ _ | .ctxActivate _ _ | .ctxPreempt _ _
    | .ctxKill _ _ | .ctxwrite _ _ _ _ | .qset _ _ _ _ _ _ _ | .inval _ _ _ _ | .unmap _ _ _ _ _ | .budget _ _ _ _
    | .partset _ _ _ _ | .grpset _ _ _ _ _ | .fnset _ _ _ _ _ | .lifecycle _ _ _ _ | .attest _ _ _ _
    | .deviceReset _ _ | .powerLimit _ | .allBankRefreshEnd _ _ | .cfgloadGranule _ => none

/-- A v register that such destinations name; a t register; an s, a p, an h register. -/
def namesV (e : Env) (ds : List (Operand × Bool)) (n : Nat) : Prop :=
  ∃ d ∈ ds, ∃ k, e.dest d.1 = .v k ∧ (n = k ∨ d.2 = true ∧ n = k + 1)
@[inherit_doc namesV] def namesT (e : Env) (ds : List (Operand × Bool)) (n : Nat) : Prop :=
  ∃ d ∈ ds, ∃ k, e.dest d.1 = .t k ∧ (n = k ∨ d.2 = true ∧ n = k + 1)
@[inherit_doc namesV] def namesS (ds : List (Operand × Bool)) (n : Nat) : Prop :=
  ∃ d ∈ ds, ∃ k neg abs, d.1 = .s k neg abs ∧ (n = k.toNat ∨ d.2 = true ∧ n = k.toNat + 1)
@[inherit_doc namesV] def namesP (ds : List (Operand × Bool)) (n : Nat) : Prop := ∃ d ∈ ds, ∃ k, d.1 = .p k ∧ n = k.toNat
@[inherit_doc namesV] def namesH (ds : List (Operand × Bool)) (n : Nat) : Prop := ∃ d ∈ ds, ∃ k, d.1 = .h k ∧ n = k.toNat

/-- From e to t nothing changes but the registers that the destinations name, in the active lanes, the path's place and
the counts of retired instructions. A cycle count that is read moves on, and format errors are counted. The signature is
compared as it stood in the state: what an operation of the serial phase reads may be older (R473). -/
structure Keeps (e : Env) (t : State) (ds : List (Operand × Bool)) : Prop where
  device : t = { e.s with cores := t.cores, free := t.free }
  cores : ∀ c, c ≠ e.sel.core → t.core c = e.s.core c
  core : t.core e.sel.core = { e.core with
    sigs := (t.core e.sel.core).sigs, ports := (t.core e.sel.core).ports, cycles := (t.core e.sel.core).cycles }
  ports : ∀ p, p ≠ e.portNo → (t.core e.sel.core).port p = e.core.port p
  port : (t.core e.sel.core).port e.portNo = { e.port with
    t := ((t.core e.sel.core).port e.portNo).t, fmtErr := ((t.core e.sel.core).port e.portNo).fmtErr }
  tregs : ∀ (n : Nat) (l : Lane), ¬ (namesT e ds n ∧ Active e l) →
    (((t.core e.sel.core).port e.portNo).treg n)[l] = (e.port.treg n)[l]
  sigs : ∀ slot, slot ≠ e.sel.slot → t.sig? e.sel.core slot = e.s.sig? e.sel.core slot
  sig : ∃ g0 g, e.s.sig? e.sel.core e.sel.slot = some g0 ∧ t.sig? e.sel.core e.sel.slot = some g ∧
    g = { g0 with v := g.v, s := g.s, p := g.p, h := g.h, paths := g.paths, iret := g.iret, wdog := g.wdog, quantum := g.quantum } ∧
    (∀ (n : Nat) (l : Lane), ¬ (namesV e ds n ∧ Active e l) → (g.reg n)[l] = (g0.reg n)[l]) ∧
    (∀ n, ¬ namesS ds n → g.sreg n = g0.sreg n) ∧
    (∀ (n : Nat) (l : Lane), ¬ (namesP ds n ∧ Active e l) → (g.preg n)[l] = (g0.preg n)[l]) ∧
    (∀ n, ¬ namesH ds n → g.hreg n = g0.hreg n) ∧
    (∀ i, i ≠ e.path.idx → g.path? i = g0.path? i) ∧
    ∃ p, g.path? e.path.idx = some p ∧ p.mask = e.path.mask ∧ p.nest = e.path.nest ∧ p.rseq = e.path.rseq ∧
      p.handler = e.path.handler ∧ p.port = e.path.port

/-- Instructions that leave HBM and host memory alone when they issue: what they store is on its way, or is performed by
an agent. -/
def leavesMemory : Instr → Bool
  | .nop _ _ | .bra _ _ _ _ | .btri _ _ _ _ | .brx _ _ | .call _ _ _ _ | .ret _ _ | .yield _ _ | .tretRetry _ _
    | .tretSkip _ _ | .loopd _ _ _ _ | .shfl _ _ _ | .vote _ _ _ | .redux _ _ _ | .fredux _ _ _ | .matchOp _ _ _
    | .plop _ _ _ | .pset _ _ _ | .pmov _ _ _ | .pcount _ _ _ | .mov _ _ _ | .movi _ _ _ _ | .sel _ _ _ | .sread _ _
    | .rgn _ _ _ | .live _ _ _ | .setk _ _ _ | .quotaGive _ _ | .quotaTake _ _ | .iadd _ _ _ | .isub _ _ _
    | .imul _ _ _ | .imulh _ _ _ | .imad _ _ _ | .imin _ _ _ | .imax _ _ _ | .iabs _ _ _ | .lop3 _ _ _ | .shl _ _ _
    | .shr _ _ _ | .sar _ _ _ | .rot _ _ _ | .bfx _ _ _ | .bfi _ _ _ | .popc _ _ _ | .clz _ _ _ | .brev _ _ _
    | .icmp _ _ _ | .lea _ _ _ | .idiv _ _ _ | .cvti _ _ _ | .fadd _ _ _ | .fmul _ _ _ | .ffma _ _ _ | .fmin _ _ _
    | .fmax _ _ _ | .fcmp _ _ _ | .fclass _ _ _ | .frnd _ _ _ | .frcp _ _ _ | .fsqrt _ _ _ | .frsq _ _ _ | .fex2 _ _ _
    | .flg2 _ _ _ | .fsin _ _ _ | .fcos _ _ _ | .fdiv _ _ _ | .ftanh _ _ _ | .fdot _ _ _ | .fscale _ _ _ | .cvtf _ _ _
    | .pack _ _ _ | .unpack _ _ _ | .deq _ _ _ | .qblk _ _ _ | .ivmake _ _ _ | .ivbnd _ _ _ | .ivadd _ _ _
    | .ivsub _ _ _ | .ivmul _ _ _ | .ivdiv _ _ _ | .ivfma _ _ _ | .ivsqr _ _ _ | .ivsqrt _ _ _ | .ivex2 _ _ _
    | .ivlg2 _ _ _ | .ivmid _ _ _ | .ivwid _ _ _ | .ivhull _ _ _ | .ivisect _ _ _ | .ivcmp _ _ _ | .ivld _ _ _ _
    | .ivst _ _ _ _ | .ldl _ _ _ _ | .stl _ _ _ _ | .atoml _ _ _ | .ldb _ _ _ _ | .stb _ _ _ _ | .spush _ _
    | .spop _ _ | .ld _ _ _ _ | .st _ _ _ _ | .atom _ _ _ | .red _ _ _ | .cas _ _ _ | .ldsc _ _ _ _ | .stsc _ _ _ _
    | .cflush _ _ | .cinv _ _ | .pref _ _ _ | .fence _ _ _ | .ocwait _ _ | .rvinit _ _ | .rvwait _ _ | .mbwait _ _
    | .hwait _ _ | .htest _ _ | .hstat _ _ | .hmov _ _ | .targ _ _ | .copy _ _ _ | .copyx _ _ _ | .mma _ _ _
    | .mmas _ _ _ | .mzero _ _ _ | .cfgload _ _ | .cfgrun _ _ _ | .cfgrunRes _ _ _ | .cfgdrain _ _ _ | .cfgevict _ _
    | .rblk _ _ | .srreg _ _ _ | .swreg _ _ _ | .icinv _ _ => true
  | .join _ _ | .exit _ _ | .trap _ _ _ | .tretKill _ _ | .bpt _ _ | .ivbisect _ _ _ | .bind _ _ _ | .acq _ _ _
    | .rel _ _ _ | .rvarr _ _ | .mbinit _ _ | .mbarr _ _ _ | .hcancel _ _ | .tspawn _ _ _ | .dlaunch _ _ _ | .frec _ _
    | .frtailWrite _ _ | .covsizeWrite _ _ | .detctlWrite _ _ | .feataccWrite _ _ _ | .peerWindowWrite _ _ _
    | .watchdog _ _ _ | .recordRelaunch _ | .loadDataArrival _ _ _ | .storePerformed _ _ _ | .flushComplete _ _
    | .apertureWriteAck _ _ | .thimbleVisit | .issueQuantumEnd _ _ | .serialPhase _ | .waveForm _ | .gangPlace
    | .quireRetire _ _ | .gridRetire _ _ | .deviceQueueTake _ _ | .hostDoorbell _ _ _ _ | .serialQueueRetire _ _
    | .pageFillComplete _ _ | .channelPeriod _ _ | .refreshDue _ _ _ | .copyChunk _ _ | .copyComplete _ _
    | .tileStep _ _ | .mzeroExecute _ | .cfgloadPerform _ | .cfgrunEnqueue _ | .cfgdrainPerform _ | .cfgevictPerform _
    | .installRun _ _ | .tileFire _ _ _ _ | .mBufferAccept _ _ _ _ _ | .mBufferEmit _ _ _ _ _ | .portReadIssue _ _ _ _
    | .portReadReturn _ _ _ _ | .portWrite _ _ _ _ | .portWriteAck _ _ _ _ | .contextStep _ _ | .runComplete _ _
    | .freezeEnd _ _ | .drainSave _ _ | .drainDone _ _ | .drainTimeout _ _ | .rblkMessage _ | .rblkAbort _ _ _
    | .peerRequest _ | .hostBar2Access _ _ | .ctxDefine _ _ | .ctxUndefine _ _ | .ctxActivate _ _ | .ctxPreempt _ _
    | .ctxKill _ _ | .ctxwrite _ _ _ _ | .qset _ _ _ _ _ _ _ | .inval _ _ _ _ | .unmap _ _ _ _ _ | .budget _ _ _ _
    | .partset _ _ _ _ | .grpset _ _ _ _ _ | .fnset _ _ _ _ _ | .lifecycle _ _ _ _ | .attest _ _ _ _
    | .deviceReset _ _ | .powerLimit _ | .allBankRefreshEnd _ _ | .cfgloadGranule _ => false

end Claim
end Sys2Proof
end

