-- ==== Sys2Proof/Certificates/Slice0/Obligations.lean ====
section
/-! DEFINITION. Certificates/Slice0/Obligations.lean: the statements for the provers. -/
open Sys2Proof Sys2Proof.Machine Sys2Proof.Claim

/-- R174, R175: the exact result of integer arithmetic, wrapped to the element, or clamped to the type's range under SAT;
IMULH writes the upper half of the exact product. -/
def Obligations.IntegerArithmetic : Prop :=
  ∀ (s : State) (h : Hdr) (o : Ops4) (m : AMod) (e : Env), Issues s h o.list e →
    let a := fun (l : Lane) k => num m.ty k (e.src m.ty o.a)[l]
    let b := fun (l : Lane) k => num m.ty k (e.src m.ty o.b)[l]
    let c := fun (l : Lane) k => num m.ty k (e.src m.ty o.c)[l]
    (e.ops4Ok o dstPos srcPos unused unused = true → e.indexFault [(o.d, false), (o.a, false)] = none →
      Gives (.iabs h o m) e o.d m.ty fun l k => narrow m.ty m.sat ((a l k).natAbs : Int)) ∧
    (e.ops4Ok o dstPos srcPos srcPos unused = true → e.indexFault [(o.d, false), (o.a, false), (o.b, false)] = none →
      (Gives (.iadd h o m) e o.d m.ty fun l k => narrow m.ty m.sat (a l k + b l k)) ∧
      (Gives (.isub h o m) e o.d m.ty fun l k => narrow m.ty m.sat (a l k - b l k)) ∧
      (Gives (.imul h o m) e o.d m.ty fun l k => narrow m.ty m.sat (a l k * b l k)) ∧
      (Gives (.imulh h o m) e o.d m.ty fun l k => narrow m.ty false (a l k * b l k / 2 ^ m.ty.shape.1)) ∧
      (Gives (.imin h o m) e o.d m.ty fun l k => narrow m.ty false (min (a l k) (b l k))) ∧
      (Gives (.imax h o m) e o.d m.ty fun l k => narrow m.ty false (max (a l k) (b l k)))) ∧
    (e.ops4Ok o dstPos srcPos srcPos srcPos = true →
      e.indexFault [(o.d, false), (o.a, false), (o.b, false), (o.c, false)] = none →
      Gives (.imad h o m) e o.d m.ty fun l k => narrow m.ty m.sat (a l k * b l k + c l k))

/-- R177: the shifts by a count of any size; SAT clamps the exact value of SHL. -/
def Obligations.Shifts : Prop :=
  ∀ (s : State) (h : Hdr) (o : Ops4) (m : AMod) (e : Env), Issues s h o.list e →
    e.ops4Ok o dstPos srcPos srcPos unused = true → e.indexFault [(o.d, false), (o.a, false), (o.b, false)] = none →
    let w := m.ty.shape.1
    let a := fun (l : Lane) k => elem m.ty k (e.src m.ty o.a)[l]
    let n := fun (l : Lane) k => elem m.ty k (e.src m.ty o.b)[l]
    (Gives (.shl h o m) e o.d m.ty fun l k =>
      if m.sat then narrow m.ty true (num m.ty k (e.src m.ty o.a)[l] * 2 ^ n l k)
      else if n l k < w then a l k * 2 ^ n l k % 2 ^ w else 0) ∧
    (Gives (.shr h o m) e o.d m.ty fun l k => if n l k < w then a l k / 2 ^ n l k else 0) ∧
    (Gives (.sar h o m) e o.d m.ty fun l k => (signedOf w (a l k) / 2 ^ n l k % 2 ^ w).toNat) ∧
    (∃ r, Retires (.rot h o m) e (e.write e.s o.d r) ∧ ∀ l : Lane, (r[l]).toNat < 2 ^ (w * m.ty.shape.2) ∧
      ∀ k j : Nat, k < m.ty.shape.2 → j < w → (elem m.ty k r[l]).testBit j = (a l k).testBit ((j + w - n l k % w) % w))

/-- R176, R178, R179: logic by a table, bit fields, counts and the reversal of bits. D is the third input of LOP3 and keeps
the bits around the field of BFI. -/
def Obligations.BitOperations : Prop :=
  ∀ (s : State) (h : Hdr) (o : Ops4) (m : AMod) (e : Env), Issues s h o.list e →
    let w := m.ty.shape.1
    let a := fun (l : Lane) => elem m.ty 0 (e.src m.ty o.a)[l]
    let b := fun (l : Lane) => elem m.ty 0 (e.src m.ty o.b)[l]
    let c := fun (l : Lane) => elem m.ty 0 (e.src m.ty o.c)[l]
    let d := fun (l : Lane) => elem m.ty 0 (e.raw o.d)[l]
    let bit := fun (x j : Nat) => if x.testBit j then 1 else 0
    m.ty.shape.2 = 1 →
    (e.ops4Ok o dstPos srcPos srcPos ctlPos = true → e.indexFault [(o.d, false), (o.a, false), (o.b, false)] = none →
      ∃ r, Retires (.lop3 h o m) e (e.write e.s o.d r) ∧ ∀ l : Lane, (r[l]).toNat < 2 ^ w ∧
        ∀ j, j < w → (elem m.ty 0 r[l]).testBit j = (ctlNo o.c).testBit (4 * bit (a l) j + 2 * bit (b l) j + bit (d l) j)) ∧
    (e.ops4Ok o dstPos srcPos srcPos srcPos = true →
      e.indexFault [(o.d, false), (o.a, false), (o.b, false), (o.c, false)] = none →
      let none_ := fun (l : Lane) => c l % 256 = 0 ∨ w ≤ b l % 256
      let len := fun (l : Lane) => min (c l % 256) (w - b l % 256)
      (∃ r, Retires (.bfx h o m) e (e.write e.s o.d r) ∧ ∀ l : Lane, (r[l]).toNat < 2 ^ w ∧
        (none_ l → elem m.ty 0 r[l] = 0) ∧
        (¬ none_ l → ∀ j, j < w → (elem m.ty 0 r[l]).testBit j =
          if j < len l then (a l).testBit (b l % 256 + j)
          else m.ty.signed && (a l).testBit (b l % 256 + len l - 1))) ∧
      (∃ r, Retires (.bfi h o m) e (e.write e.s o.d r) ∧ ∀ l : Lane, (r[l]).toNat < 2 ^ w ∧
        (none_ l → elem m.ty 0 r[l] = d l) ∧
        (¬ none_ l → ∀ j, j < w → (elem m.ty 0 r[l]).testBit j =
          if b l % 256 ≤ j ∧ j < b l % 256 + len l then (a l).testBit (j - b l % 256) else (d l).testBit j))) ∧
    (e.ops4Ok o dstPos srcPos unused unused = true → e.indexFault [(o.d, false), (o.a, false)] = none →
      (Gives (.popc h o m) e o.d m.ty fun l _ => ((List.range w).filter fun j => (a l).testBit j).length) ∧
      (∃ n : Lane → Nat, (Gives (.clz h o m) e o.d m.ty fun l _ => n l) ∧
        ∀ l, n l ≤ w ∧ a l < 2 ^ (w - n l) ∧ (n l < w → 2 ^ (w - n l - 1) ≤ a l)) ∧
      (∃ r, Retires (.brev h o m) e (e.write e.s o.d r) ∧ ∀ l : Lane, (r[l]).toNat < 2 ^ w ∧
        ∀ j, j < w → (elem m.ty 0 r[l]).testBit j = (a l).testBit (w - 1 - j)))

/-- R180 to R183: comparison, address, quotient and remainder, conversion between integer types. -/
def Obligations.IntegerCompareAddressDivide : Prop :=
  ∀ (s : State) (h : Hdr) (o : Ops4) (m : AMod) (e : Env), Issues s h o.list e → m.ty.shape.2 = 1 →
    let w := m.ty.shape.1
    let a := fun (l : Lane) => num m.ty 0 (e.src m.ty o.a)[l]
    let b := fun (l : Lane) => num m.ty 0 (e.src m.ty o.b)[l]
    (e.ops4Ok o { kinds := [.p] } srcPos srcPos ctlPos = true → e.indexFault [(o.a, false), (o.b, false)] = none →
      ctlNo o.c ≤ 5 →
      GivesPred (.icmp h o m) e o.d fun l =>
        Tri.ofBool (match ctlNo o.c with
          | 0 => decide (a l = b l) | 1 => decide (a l ≠ b l) | 2 => decide (a l < b l)
          | 3 => decide (a l ≤ b l) | 4 => decide (b l < a l) | _ => decide (b l ≤ a l))) ∧
    (e.ops4Ok o dstPos srcPos srcPos ctlPos = true → e.indexFault [(o.d, false), (o.a, false), (o.b, false)] = none →
      (GivesRow (.lea h o m) e o.d fun l => (e.raw o.a)[l] + BitVec.ofInt 64 (b l * 2 ^ ctlNo o.c)) ∧
      (Gives (.idiv h o m) e o.d m.ty fun l _ =>
        if b l = 0 then (if ctlNo o.c = 1 then elem m.ty 0 (e.src m.ty o.a)[l] else 2 ^ w - 1)
        else if ctlNo o.c = 1 then narrow m.ty false ((a l).tmod (b l)) else narrow m.ty m.sat ((a l).tdiv (b l)))) ∧
    (e.ops4Ok o dstPos srcPos ctlPos unused = true → e.indexFault [(o.d, false), (o.a, false)] = none →
      Gives (.cvti h o m) e o.d m.ty fun l _ => narrow m.ty m.sat (num (srcTy o.b) 0 (e.src (srcTy o.b) o.a)[l]))

/-- R185, R186, R189, R191: the floating-point operations with an exact result that is rounded once. DYN with a code other
than 0 to 4 in FPCTL raises ILLOP in every instruction that rounds, whatever else of it is in order (R25, R33). -/
def Obligations.FloatArithmetic : Prop :=
  ∀ (s : State) (h : Hdr) (o : Ops4) (m : AMod) (e : Env), (s.env.map fun e0 => e0.guarded h) = some e →
    (m.rm = .dyn → 4 < e.s.regN e.sig.ctx rFPCTL % 8 →
      ∀ i ∈ [Instr.fadd h o m, .fmul h o m, .ffma h o m, .fdiv h o m, .fsqrt h o m, .frcp h o m, .frnd h o m, .fscale h o m,
        .fdot h o m, .frsq h o m, .fex2 h o m, .flg2 h o m, .fsin h o m, .fcos h o m, .ftanh h o m, .cvtf h o m, .pack h o m,
        .unpack h o m, .deq h o m], Raises i e ⟨0x01, 0, none⟩) ∧
    (Issues s h o.list e → RmOk e (m.rm == .dyn) →
    let f := m.ty.fmt
    let w := m.ty.shape.1
    let a := fun (l : Lane) k => f.read m.ftz (elem m.ty k (e.src m.ty o.a)[l])
    let b := fun (l : Lane) k => f.read m.ftz (elem m.ty k (e.src m.ty o.b)[l])
    let c := fun (l : Lane) k => f.read m.ftz (elem m.ty k (e.src m.ty o.c)[l])
    let rounded := fun (x : XR) => f.encode (e.mode m.rm) m.sat m.ftz x % 2 ^ w
    (e.ops4Ok o dstPos fpPos unused unused = true → e.indexFault [(o.d, false), (o.a, false)] = none →
      (Gives (.fsqrt h o m) e o.d m.ty fun l k => rounded (a l k).sqrt) ∧
      (Gives (.frcp h o m) e o.d m.ty fun l k =>
        rounded ((f.read m.ftz (f.encode .rne false false (.fin false 1 0))).div (a l k))) ∧
      (Gives (.frnd h o m) e o.d m.ty fun l k =>
        f.encode (e.mode m.rm) false m.ftz (match a l k with
          | .fin n x y => .fin n (roundAt (e.mode m.rm) n x y 0) 0
          | y => y) % 2 ^ w)) ∧
    (e.ops4Ok o dstPos fpPos fpPos unused = true → e.indexFault [(o.d, false), (o.a, false), (o.b, false)] = none →
      (Gives (.fadd h o m) e o.d m.ty fun l k => rounded ((a l k).add (e.mode m.rm) (b l k))) ∧
      (Gives (.fmul h o m) e o.d m.ty fun l k => rounded ((a l k).mul (b l k))) ∧
      (Gives (.fdiv h o m) e o.d m.ty fun l k => rounded ((a l k).div (b l k))) ∧
      (m.rm = .rne → m.sat = false →
        (Gives (.fmin h o m) e o.d m.ty fun l k => rounded ((a l k).min2 (b l k))) ∧
        (Gives (.fmax h o m) e o.d m.ty fun l k => rounded ((a l k).max2 (b l k))))) ∧
    (e.ops4Ok o dstPos fpPos srcPos unused = true → e.indexFault [(o.d, false), (o.a, false), (o.b, false)] = none →
      Gives (.fscale h o m) e o.d m.ty fun l k =>
        let bw := if m.ty.shape.2 = 1 then 32 else w
        let n := signedOf bw (elemAt bw k (e.rawAt (fun i => packElems bw m.ty.shape.2 fun _ => intCode bw i.toInt) 0 o.b)[l])
        rounded (match a l k with
          | .fin z x y => if x = 0 then .fin z 0 0 else .fin z x (y + n)
          | y => y)) ∧
    (e.ops4Ok o dstPos fpPos fpPos fpPos = true →
      e.indexFault [(o.d, false), (o.a, false), (o.b, false), (o.c, false)] = none →
      (Gives (.ffma h o m) e o.d m.ty fun l k => rounded (((a l k).mul (b l k)).add (e.mode m.rm) (c l k))) ∧
      (GivesRow (.fdot h o m) e o.d fun l =>
        let terms := FP32.read m.ftz (elemAt 32 0 (e.src .f32 o.c)[l]) ::
          (List.range m.ty.shape.2).map fun k => (a l k).mul (b l k)
        BitVec.ofNat 64 (FP32.encode (e.mode m.rm) m.sat m.ftz (exactSum (e.mode m.rm) terms)))))

/-- R190: the approximate functions convert the operand to f32, evaluate there, and round the result to the type with
RNE. The value in f32 is `ApproxFn.eval`: the special values and the exact cases; elsewhere a value within the bound about the
exact one, which `ApproxFn.exact` gives in fixed point, or the f32 value nearest to that (log entry 10). FEX2 of an integer below
−149 is held to the absolute bound (log entry 66). -/
def Obligations.ApproximateFunctions : Prop :=
  (∀ x : Nat,
    let v := FP32.decode x
    let enc := FP32.encode .rne false false
    (v = .nan → ∀ fn : ApproxFn, fn.eval x = FP32.nan) ∧
    (∀ z, v = .inf z →
      ApproxFn.rsq.eval x = enc (if z then .nan else .fin false 0 0) ∧ ApproxFn.ex2.eval x = enc (if z then .fin false 0 0 else .inf false) ∧
      ApproxFn.lg2.eval x = enc (if z then .nan else .inf false) ∧ ApproxFn.sin.eval x = FP32.nan ∧ ApproxFn.cos.eval x = FP32.nan ∧
      ApproxFn.tanh.eval x = enc (.fin z 1 0)) ∧
    (∀ z n, v = .fin z 0 n →
      ApproxFn.rsq.eval x = enc (.inf z) ∧ ApproxFn.ex2.eval x = enc (.fin false 1 0) ∧ ApproxFn.lg2.eval x = enc (.inf true) ∧
      ApproxFn.sin.eval x = enc v ∧ ApproxFn.cos.eval x = enc (.fin false 1 0) ∧ ApproxFn.tanh.eval x = enc v) ∧
    (∀ k n, v = .fin true k n → k ≠ 0 → ApproxFn.rsq.eval x = FP32.nan ∧ ApproxFn.lg2.eval x = FP32.nan) ∧
    (∀ (j : Nat) n, v = .fin false (2 ^ j) n → ApproxFn.lg2.eval x = enc (XR.ofInt (j + n))) ∧
    (∀ (z : Bool) (k : Nat) (n : Int) (i : Nat), v = .fin z k n → k ≠ 0 → k * 2 ^ n.toNat = i * 2 ^ (-n).toNat →
      (z = true → i ≤ 149 → ApproxFn.ex2.eval x = enc (.fin false 1 (-(i : Int)))) ∧
      (z = false → i < 128 → ApproxFn.ex2.eval x = enc (.fin false 1 i))) ∧
    (∀ (k : Nat) (n : Int), v = .fin false k n → 128 * 2 ^ (-n).toNat ≤ k * 2 ^ n.toNat → ApproxFn.ex2.eval x = enc (.inf false)) ∧
    (∀ (fn : ApproxFn) (z : Bool) (k : Nat) (n : Int), v = .fin z k n → fn.special v = none →
      let y := fn.exact z k n
      let ulp : Int := 2 ^ (max (-126) ((Nat.log2 y.natAbs : Int) - 320) - 23 + 320).toNat
      let bound : Int := match fn with
        | .rsq => ulp
        | .ex2 => if y < 2 ^ (320 - 126) then 2 ^ (320 - 149) else 2 * ulp
        | .lg2 => if (XR.fin false 1 (-1)).le v && v.le (.fin false 1 1) then 2 ^ (320 - 22) else 2 * ulp
        | .sin => 2 ^ (320 - 22)
        | .cos => 2 ^ (320 - 22)
        | .tanh => 2 * ulp
      (∃ rz rk rn, FP32.decode (fn.eval x) = .fin rz rk rn ∧ y - bound ≤ fxOf rz rk rn ∧ fxOf rz rk rn ≤ y + bound) ∨
      fn.eval x = enc (.fin (decide (y < 0)) y.natAbs (-320)))) ∧
  ∀ (s : State) (h : Hdr) (o : Ops4) (m : AMod) (e : Env), Issues s h o.list e → RmOk e (m.rm == .dyn) →
    e.ops4Ok o dstPos fpPos unused unused = true → e.indexFault [(o.d, false), (o.a, false)] = none →
    let f := m.ty.fmt
    let result := fun (fn : ApproxFn) (l : Lane) k =>
      f.encode .rne m.sat m.ftz (FP32.decode (fn.eval (FP32.encode .rne false false
        (f.read m.ftz (elem m.ty k (e.src m.ty o.a)[l]))))) % 2 ^ m.ty.shape.1
    Gives (.frsq h o m) e o.d m.ty (result .rsq) ∧ Gives (.fex2 h o m) e o.d m.ty (result .ex2) ∧
    Gives (.flg2 h o m) e o.d m.ty (result .lg2) ∧ Gives (.fsin h o m) e o.d m.ty (result .sin) ∧
    Gives (.fcos h o m) e o.d m.ty (result .cos) ∧ Gives (.ftanh h o m) e o.d m.ty (result .tanh)

/-- R187, R188: comparison with undecided for unordered operands, and the ten classes, in both forms of FCLASS. -/
def Obligations.FloatCompareAndClass : Prop :=
  ∀ (s : State) (h : Hdr) (o : Ops4) (m : AMod) (e : Env), Issues s h o.list e →
    let f := m.ty.fmt
    let x := fun (l : Lane) => f.read m.ftz (elem m.ty 0 (e.src m.ty o.a)[l])
    let y := fun (l : Lane) => f.read m.ftz (elem m.ty 0 (e.src m.ty o.b)[l])
    let code := fun (l : Lane) => elem m.ty 0 (e.src m.ty o.a)[l]
    let neg := fun (l : Lane) => code l / f.signBit % 2 == 1
    let normal := fun (l : Lane) => decide (2 ^ f.mbits ≤ code l % f.signBit)
    let class_ := fun (l : Lane) => match f.decode (code l) with
      | .inf n => if n then 0 else 7
      | .nan => if code l % 2 ^ f.mbits < 2 ^ (f.mbits - 1) then 8 else 9
      | .fin _ v _ => if v = 0 then (if neg l then 3 else 4)
        else if normal l then (if neg l then 1 else 6) else (if neg l then 2 else 5)
    (e.ops4Ok o { kinds := [.p] } fpPos fpPos ctlPos = true → e.indexFault [(o.a, false), (o.b, false)] = none → ctlNo o.c ≤ 6 →
      GivesPred (.fcmp h o m) e o.d fun l =>
        if (x l).isNan || (y l).isNan then (if ctlNo o.c = 6 then .f else .u)
        else Tri.ofBool (match ctlNo o.c with
          | 0 => (x l).eq (y l) | 1 => !(x l).eq (y l) | 2 => (x l).lt (y l) | 3 => (x l).le (y l)
          | 4 => (y l).lt (x l) | 5 => (y l).le (x l) | _ => true)) ∧
    (m.ty ∈ [Ty.f64, .f32, .f16, .bf16] → e.indexFault [(o.d, false), (o.a, false)] = none →
      (e.ops4Ok o dstPos fpPos unused unused = true →
        GivesRow (.fclass h o m) e o.d fun l => BitVec.ofNat 64 (2 ^ class_ l)) ∧
      (o.d.isP = true → e.ops4Ok o { kinds := [.p] } fpPos unused ctlPos = true →
        GivesPred (.fclass h o m) e o.d fun l => Tri.ofBool ((ctlNo o.c).testBit (class_ l))))

/-- R193 to R197: the conversions between lane types and storage formats, and block quantisation. The codes are those of
the conversions of chapter 02 (`convertTo`, `fmtEncode`, `fmtValue`, `deqValue`, `qblkMx`, `qblkQ4n`). -/
def Obligations.ConversionsAndBlocks : Prop :=
  ∀ (s : State) (h : Hdr) (o : Ops4) (m : AMod) (e : Env), Issues s h o.list e →
    let f := fgFmt o.c
    let g := fgGroup o.c
    let r := e.rnd m
    (RmOk e (m.rm == .dyn) → m.ty.shape.2 = 1 → e.indexFault [(o.d, false), (o.a, false)] = none →
      e.ops4Ok o dstPos { kinds := [.v, .s, .idx, .imm, .zero], fp := (srcTy o.b).isFloat } ctlPos unused = true →
      GivesRow (.cvtf h o m) e o.d fun l =>
        BitVec.ofNat 64 (convertTo m.ty r (valueOf (srcTy o.b) m.ftz (elem (srcTy o.b) 0 (e.src (srcTy o.b) o.a)[l])))) ∧
    (RmOk e (m.rm == .dyn) → e.indexFault [(o.d, false), (o.a, false), (o.b, false)] = none →
      e.ops4Ok o dstPos fpPos (if m.ty == .f32x2 then fpPos else unused) ctlPos = true →
      let x := fun (l : Lane) => packSources m.ty m.ftz (e.src m.ty o.a)[l] (e.src m.ty o.b)[l]
      Retires (.pack h o m) e (e.countErr
        (e.write e.s o.d (Vector.ofFn fun l : Lane => groupPut f g ((x l).map (fmtEncode f r.rm r.sat r.ftz)) (e.raw o.d)[l]))
        ((lanesOf e.act).foldl (fun n l => n + ((x l).filter (fmtCounts f)).length) 0))) ∧
    (RmOk e (m.rm == .dyn) → e.indexFault [(o.d, m.ty == .f32x2), (o.a, false)] = none →
      e.ops4Ok o { kinds := [.v, .idx], pair := m.ty == .f32x2 } srcPos unused ctlPos = true →
      let code := fun (x : Word64) i => m.ty.fmt.encode r.rm r.sat r.ftz (fmtValue f m.ftz (groupElem f g i x))
      let row := fun hi => mapRow (fun x => spread m.ty (code x) hi) (e.raw o.a)
      Retires (.unpack h o m) e
        (if m.ty == .f32x2 then e.writeHi (e.write e.s o.d (row false)) o.d (row true) else e.write e.s o.d (row false))) ∧
    (RmOk e (m.rm == .dyn) → e.indexFault [(o.d, true), (o.a, false), (o.b, false)] = none →
      e.ops4Ok o { kinds := [.v, .idx], pair := true } srcPos srcPos ctlPos = true →
      (∀ b ∈ blockFeats f, e.s.feat e.sig.ctx b = true) →
      let code := fun (x y : Word64) i => FP32.encode r.rm false r.ftz (deqValue f (groupElem f g i x) y)
      let row := fun hi => mapRow2 (fun x y => spread .f32x2 (code x y) hi) (e.raw o.a) (e.raw o.b)
      let errs := if f = 15 then (lanesOf e.act).foldl (fun n l =>
          n + ((List.range 4).filter fun i => groupElem f g i (e.raw o.a)[l] == 3).length) 0 else 0
      Retires (.deq h o m) e (e.countErr (e.writeHi (e.write e.s o.d (row false)) o.d (row true)) errs)) ∧
    (e.indexFault [(o.d, false), (o.a, false), (o.b, false)] = none →
      e.ops4Ok o dstPos fpPos (if f = 14 then srcPos else unused) ctlPos = true →
      (∀ b ∈ blockFeats f, e.s.feat e.sig.ctx b = true) →
      ∃ row, Retires (.qblk h o m) e (e.write e.s o.d row) ∧ ∀ l : Lane, row[l] =
        if f = 14 then qblkQ4n (e.src m.ty o.a) (e.raw o.b) (e.quarter (l.val / 32)) l
        else qblkMx f (e.src m.ty o.a) (e.quarter (l.val / 32)) l)

/-- R203, R208, R213, R214: bounds of interval arithmetic, rounded outward; EMPTY for an operand that is no interval. -/
def Obligations.IntervalArithmetic : Prop :=
  ∀ (s : State) (h : Hdr) (o : Ops4) (m : AMod) (e : Env), Issues s h o.list e → e.s.feat e.sig.ctx 0 = true →
    let f := boundFmt m.ty
    let a := fun (l : Lane) => (e.iv m.ty o.a)[l]
    let b := fun (l : Lane) => (e.iv m.ty o.b)[l]
    let c := fun (l : Lane) => (e.iv m.ty o.c)[l]
    let wide := ivWide m.ty
    let on1 := fun (g : Bounds → Option Bounds) (l : Lane) => if f.ivOk (a l) then g (a l) else none
    let on2 := fun (g : Bounds → Bounds → Option Bounds) (l : Lane) => if f.ivOk (a l) && f.ivOk (b l) then g (a l) (b l) else none
    let on3 := fun (g : Bounds → Bounds → Bounds → Option Bounds) (l : Lane) =>
      if f.ivOk (a l) && f.ivOk (b l) && f.ivOk (c l) then g (a l) (b l) (c l) else none
    (e.ops4Ok o (ivDst m.ty) (ivPos m.ty) unused unused = true → e.indexFault [(o.d, wide), (o.a, wide)] = none →
      (GivesIv (.ivsqr h o m) e m.ty o.d <| on1 fun x => some (f.ivSqr x)) ∧
      (GivesIv (.ivsqrt h o m) e m.ty o.d <| on1 f.ivSqrt) ∧
      (m.ty = .iv32 → (GivesIv (.ivex2 h o m) e m.ty o.d <| on1 fun x => some (ivExp2 x)) ∧
        (GivesIv (.ivlg2 h o m) e m.ty o.d <| on1 ivLog2))) ∧
    (e.ops4Ok o { kinds := [.v, .idx] } (ivPos m.ty) unused unused = true → e.indexFault [(o.d, false), (o.a, wide)] = none →
      (GivesPt (.ivmid h o m) e o.d fun l => if f.ivOk (a l) then some (f.mid (a l)) else none) ∧
      (GivesPt (.ivwid h o m) e o.d fun l => if f.ivOk (a l) then some (f.wid (a l)) else none)) ∧
    (e.ops4Ok o (ivDst m.ty) (ivPos m.ty) (ivPos m.ty) unused = true → e.indexFault [(o.d, wide), (o.a, wide), (o.b, wide)] = none →
      (GivesIv (.ivadd h o m) e m.ty o.d <| on2 fun x y => some <|
        f.outward ((f.decode x.lo).add .rd (f.decode y.lo)) ((f.decode x.hi).add .ru (f.decode y.hi))) ∧
      (GivesIv (.ivsub h o m) e m.ty o.d <| on2 fun x y => some <|
        f.outward ((f.decode x.lo).add .rd (f.decode y.hi).negate) ((f.decode x.hi).add .ru (f.decode y.lo).negate)) ∧
      (GivesIv (.ivmul h o m) e m.ty o.d <| on2 fun x y => some <|
        f.outward (leastXR (f.products x y)) (greatestXR (f.products x y))) ∧
      (GivesIv (.ivdiv h o m) e m.ty o.d <| on2 f.ivDiv) ∧
      (GivesIv (.ivhull h o m) e m.ty o.d <| on2 fun x y => some (f.hull x y))) ∧
    (e.ops4Ok o (ivDst m.ty) (ivPos m.ty) (ivPos m.ty) (ivPos m.ty) = true →
      e.indexFault [(o.d, wide), (o.a, wide), (o.b, wide), (o.c, wide)] = none →
      (GivesIv (.ivfma h o m) e m.ty o.d <| on3 fun x y z => some <|
        f.outward ((leastXR (f.products x y)).add .rd (f.decode z.lo)) ((greatestXR (f.products x y)).add .ru (f.decode z.hi))))

/-- R206, R207, R215, R216: intervals made, taken apart, intersected and compared. -/
def Obligations.IntervalFormsAndTests : Prop :=
  ∀ (s : State) (h : Hdr) (o : Ops4) (m : AMod) (e : Env), Issues s h o.list e → e.s.feat e.sig.ctx 0 = true →
    let t := m.ty
    let f := boundFmt t
    let g := boundFmt (otherIv t)
    let wide := ivWide t
    let a := fun (l : Lane) => (e.iv t o.a)[l]
    let b := fun (l : Lane) => (e.iv t o.b)[l]
    let x := fun (l : Lane) => (e.pt t o.a)[l]
    let y := fun (l : Lane) => (e.pt t o.b)[l]
    let ok := fun (z : Bounds) => f.ivOk z || z == f.ivEmpty
    (e.ops4Ok o (ivDst t) (ptPos t) (ptPos t) ctlPos = true → e.indexFault [(o.d, wide), (o.a, false), (o.b, false)] = none →
      (ctlNo o.c ≤ 1 → GivesIv (.ivmake h o m) e t o.d fun l => f.makeIv (ctlNo o.c == 1) (x l) (y l)) ∧
      (ctlNo o.c = 0 → GivesIv (.ivbnd h o m) e t o.d fun l => some ((f.makeIv false (x l) (y l)).getD f.ivEmpty))) ∧
    (e.ops4Ok o (ivDst t) (ivPos (otherIv t)) unused ctlPos = true → ctlNo o.c = 2 →
      e.indexFault [(o.d, wide), (o.a, ivWide (otherIv t))] = none →
      GivesIv (.ivmake h o m) e t o.d fun l =>
        let z := (e.iv (otherIv t) o.a)[l]
        if g.ivOk z then some (f.outward (g.decode z.lo) (g.decode z.hi)) else none) ∧
    (e.ops4Ok o { kinds := [.v, .idx] } (ivPos t) unused ctlPos = true → e.indexFault [(o.d, false), (o.a, wide)] = none →
      (ctlNo o.c = 1 → GivesPt (.ivbnd h o m) e o.d fun l => some (a l).lo) ∧
      (ctlNo o.c = 2 → GivesPt (.ivbnd h o m) e o.d fun l => some (a l).hi)) ∧
    (e.ops4Ok o { kinds := [.p] } (ivPos t) unused ctlPos = true → e.indexFault [(o.a, wide)] = none → ctlNo o.c = 3 →
      GivesTri (.ivbnd h o m) e o.d fun l => some (Tri.ofBool (!f.ivOk (a l)))) ∧
    (e.ops4Ok o (ivDst t) (ivPos t) (ivPos t) ctlPos = true → e.indexFault [(o.d, wide), (o.a, wide), (o.b, wide)] = none →
      (ctlNo o.c = 0 → GivesIv (.ivisect h o m) e t o.d fun l =>
        if f.ivOk (a l) && f.ivOk (b l) && f.ivOk (f.isect (a l) (b l)) then some (f.isect (a l) (b l)) else none) ∧
      (ctlNo o.c = 1 → GivesIv (.ivisect h o m) e t o.d fun l =>
        if ok (a l) && ok (b l) then
          some (if a l == f.ivEmpty || b l == f.ivEmpty || !f.ivOk (f.isect (a l) (b l)) then f.ivEmpty else f.isect (a l) (b l))
        else none)) ∧
    (e.ops4Ok o { kinds := [.p] } (ivPos t) (ivPos t) ctlPos = true → e.indexFault [(o.a, wide), (o.b, wide)] = none →
      ctlNo o.c ≠ 5 →
      GivesTri (.ivcmp h o m) e o.d fun l => if f.ivOk (a l) && f.ivOk (b l) then some (f.ivCmp (ctlNo o.c) (a l) (b l)) else none) ∧
    (e.ops4Ok o { kinds := [.p] } (ivPos t) (ptPos t) ctlPos = true → e.indexFault [(o.a, wide), (o.b, false)] = none →
      ctlNo o.c = 5 →
      GivesTri (.ivcmp h o m) e o.d fun l =>
        if f.ivOk (a l) then some (Tri.ofBool ((f.decode (a l).lo).le (f.decode (y l)) && (f.decode (y l)).le (f.decode (a l).hi)))
        else none)

/-- R217 to R219: IVBISECT halves the splittable intervals, pushes the upper halves as tasks where there is room, and marks
them undecided where there is not. -/
def Obligations.Bisection : Prop :=
  ∀ (s : State) (h : Hdr) (o : Ops4) (m : AMod) (e : Env) (split : Mask), Issues s h o.list e →
    e.s.feat e.sig.ctx 0 = true → e.s.feat e.sig.ctx 7 = true →
    e.ops4Ok o (ivDst m.ty) { kinds := [.p] } { kinds := [.v, .s, .imm] } unused = true → Operand.isT o.d = false →
    e.bisect o m.ty = .ok split → (split = 0 ∨ Turn e) →
    let mark := fun (t : State) (yes : Tri) =>
      e.writeP t (pregNo o.a) (Vector.ofFn fun l : Lane => if split.getLsbD l.val then yes else .f)
    let d := fun (l : Lane) => (e.ivRaw m.ty o.d)[l]
    (split ≠ 0 → e.s.taskRoom e.sig.ctx e.sel.core (popMask split) = false → Retires (.ivbisect h o m) e (mark e.s .u)) ∧
    ((split = 0 ∨ e.s.taskRoom e.sig.ctx e.sel.core (popMask split) = true) →
      Retires (.ivbisect h o m) e (mark (Env.writeIv { e with act := split }
        ((lanesOf split).foldl (fun (t : State) l => t.pushTask e.sig.ctx (e.upperHalf o m.ty l)) e.s) m.ty o.d fun l =>
          (boundFmt m.ty).canon ⟨(d l).lo, (boundFmt m.ty).mid (d l)⟩) .t))

/-- R110 to R116, R120: moves, votes, reductions and counts over the active lanes of a segment. `mem l` are the members of
the segment of lane l; lanes that are not active are never members. -/
def Obligations.CrossLane : Prop :=
  ∀ (s : State) (h : Hdr) (o : Ops4) (m : XMod) (e : Env), Issues s h o.list e →
    let mem := fun (l : Lane) => (lanesOf e.act).filter fun x => x.val / m.size == l.val / m.size
    let w := wideOf m.ty
    let a := e.raw o.a
    let p := e.predSrc o.a
    let want := Tri.ofCode (match m.op.toNat with | 0 => 1 | 1 => 0 | _ => 2)
    let bits : Mask := e.act &&& maskOf fun l => p[l] == want
    (e.ops4Ok o vPos vsPos { kinds := [.v, .s, .imm] } { kinds := [.v, .s, .imm, .zero] } = true →
      GivesRow (.shfl h o m) e o.d fun l =>
        let b := (e.raw o.b)[l].toNat
        let i := l.val % m.size
        let j : Int := match m.sel.toNat with | 0 => b | 1 => i - b | 2 => i + b | _ => (i ^^^ b : Nat)
        let from_ := l.val / m.size * m.size + j.toNat
        BitVec.ofNat 64 (cut w (if 0 ≤ j ∧ j < m.size ∧ e.act.getLsbD from_ then a[from_]?.getD 0 else (e.raw o.c)[l]))) ∧
    (m.sel.toNat ≤ 1 → e.ops4Ok o pPos pPos unused unused = true →
      GivesPred (.vote h o m) e o.d fun l =>
        if m.sel.toNat = 0 then
          (if (mem l).any (fun x => p[x] == .f) then .f else if (mem l).any (fun x => p[x] == .u) then .u else .t)
        else (if (mem l).any (fun x => p[x] == .t) then .t else if (mem l).any (fun x => p[x] == .u) then .u else .f)) ∧
    (m.sel.toNat = 2 → e.ops4Ok o pPos vsPos unused unused = true →
      GivesPred (.vote h o m) e o.d fun l =>
        Tri.ofBool ((mem l).all fun x => (mem l).all fun y => cut w a[x] == cut w a[y])) ∧
    (m.sel.toNat = 3 → m.w = true → e.ops4Ok o vPos pPos unused unused = true →
      GivesRow (.vote h o m) e o.d fun l => (bits.extractLsb' (l.val / 32 * 32) 32).setWidth 64) ∧
    (∀ n neg abs, m.sel.toNat = 3 → m.w = false → o.d = .s n neg abs → n.toNat % 2 = 0 →
      e.ops4Ok o { kinds := [.s] } pPos unused unused = true →
      Retires (.vote h o m) e (e.writeS (e.writeS e.s n.toNat (bits.extractLsb' 0 64)) (n.toNat + 1) (bits.extractLsb' 64 64))) ∧
    (e.ops4Ok o (segPos m) vsPos unused unused = true →
      ∃ r : Row, Retires (.redux h o m) e (e.writeAny e.s o.d r) ∧ ∀ l : Lane,
        r[l] = BitVec.ofNat 64 (match (mem l).map fun x => cut w a[x] with
          | [] => 0
          | x :: xs => xs.foldl (reduxOp m.op.toNat w (tyOf m.ty)) x)) ∧
    (m.sel.toNat = 0 → e.ops4Ok o pPos vsPos unused unused = true →
      GivesPred (.matchOp h o m) e o.d fun l =>
        Tri.ofBool (decide (1 < ((mem l).filter fun x => cut w a[x] == cut w a[l]).length))) ∧
    (0 < m.sel.toNat → e.ops4Ok o vPos vsPos unused unused = true →
      GivesRow (.matchOp h o m) e o.d fun l =>
        let same := (mem l).filter fun x => cut w a[x] == cut w a[l]
        BitVec.ofNat 64 (if m.sel.toNat = 1 then (match same.head? with | some x => x.val | none => 0) else same.length)) ∧
    (e.ops4Ok o (segPos m) pPos unused unused = true →
      ∃ r : Row, Retires (.pcount h o m) e (e.writeAny e.s o.d r) ∧ ∀ l : Lane,
        r[l] = BitVec.ofNat 64 ((mem l).filter fun x =>
          p[x] == (match m.sel.toNat with | 0 => Tri.t | 1 => .f | _ => .u)).length)

/-- R42, R114: FREDUX combines the members of each segment in a binary tree over the lanes' places. A member's NaN is the
canonical one and, with FTZ, its subnormal number a zero, also where it is the segment's only member (log entry 59). -/
def Obligations.FloatReduction : Prop :=
  ∀ (s : State) (h : Hdr) (o : Ops4) (m : XMod) (e : Env), Issues s h o.list e →
    e.ops4Ok o (segPos m) { kinds := [.v, .s], fp := true } unused unused = true →
    let t := tyOf m.ty
    let w := t.shape.1
    let leaf := fun {α : Type} (x : Lane → α) (l : Lane) => (List.range m.size).map fun j =>
      let y : Lane := Fin.ofNat 128 (l.val / m.size * m.size + j)
      if e.act.getLsbD y.val then some (x y) else none
    let rm : Mode := match m.op.toNat / 2 with | 0 => .rne | 1 => .rtz | 2 => .rd | _ => .ru
    let ftz := m.op.getLsbD 0
    let member := fun (x : Nat) => t.fmt.encode .rne false false (t.fmt.read ftz x)
    let combine := match m.sel.toNat with
      | 0 => t.fmt.fadd ⟨rm, false, ftz⟩
      | 1 => t.fmt.fmin ftz
      | _ => t.fmt.fmax ftz
    (m.ty ≠ 6 →
      ∃ r : Row, Retires (.fredux h o m) e (e.writeAny e.s o.d r) ∧ ∀ l : Lane,
        r[l] = match tree combine 7 (leaf (fun y => member (cut w (e.src t o.a)[y])) l) with
          | some b => BitVec.ofNat 64 b
          | none => 0) ∧
    (m.ty = 6 → e.s.feat e.sig.ctx 0 = true →
      ∃ r : Row, Checked (.fredux h o m) e (fun l => FP32.ivOk (e.iv .iv32 o.a)[l]) (e.writeAny e.s o.d r) ∧ ∀ l : Lane,
        r[l] = match tree FP32.ivAdd 7 (leaf (fun y => (e.iv .iv32 o.a)[y]) l) with
          | some b => image32 (FP32.canon b)
          | none => 0)

/-- R117 to R119: Kleene's logic, setting and moving predicates. -/
def Obligations.PredicateOperations : Prop :=
  ∀ (s : State) (h : Hdr) (o : Ops4) (m : XMod) (e : Env), Issues s h o.list e →
    let p := e.predSrc o.a
    let q := e.predSrc o.b
    let a := e.raw o.a
    let two := decide (m.op.toNat ≤ 2 ∨ m.op.toNat = 4)
    (e.ops4Ok o pPos pPos (if two then pPos else unused) unused = true →
      GivesPred (.plop h o m) e o.d fun l => match m.op.toNat, p[l], q[l] with
        | 0, .f, _ => .f | 0, _, .f => .f | 0, .t, .t => .t | 0, _, _ => .u
        | 1, .t, _ => .t | 1, _, .t => .t | 1, .f, .f => .f | 1, _, _ => .u
        | 2, .u, _ => .u | 2, _, .u => .u | 2, x, y => if x = y then .f else .t
        | 3, .f, _ => .t | 3, .t, _ => .f | 3, .u, _ => .u
        | 4, .f, _ => .f | 4, _, .t => .f | 4, .t, .f => .t | 4, _, _ => .u
        | 5, x, _ => if x = .f then .f else .t
        | 6, x, _ => if x = .t then .t else .f
        | _, x, _ => if x = .u then .t else .f) ∧
    (m.sel.toNat = 0 → e.ops4Ok o pPos { kinds := [.v, .s, .imm] } unused unused = true →
      GivesPred (.pset h o m) e o.d fun l => Tri.ofBool (a[l] != 0)) ∧
    (m.sel.toNat = 1 → e.ops4Ok o pPos unused unused unused = true →
      GivesPred (.pset h o m) e o.d fun _ => match m.op.toNat % 4 with | 0 => .f | 1 => .t | _ => .u) ∧
    (∀ n neg abs, m.sel.toNat = 2 → o.a = .s n neg abs → n.toNat % 2 = 0 → e.ops4Ok o pPos { kinds := [.s] } unused unused = true →
      GivesPred (.pset h o m) e o.d fun l =>
        Tri.ofBool (if l.val < 64 then (e.sig.sreg n.toNat).getLsbD l.val else (e.sig.sreg (n.toNat + 1)).getLsbD (l.val - 64))) ∧
    (∀ n k, o.d = .p n → o.a = .p k → e.ops4Ok o pPos pPos unused unused = true →
      GivesPred (.pmov h o m) e o.d fun l => (e.sig.preg k.toNat)[l]) ∧
    (∀ n, o.d = .p n → o.a.isP = false → e.ops4Ok o pPos vPos unused unused = true →
      GivesPred (.pmov h o m) e o.d fun l => match a[l].toNat % 4 with | 0 => .f | 1 => .t | _ => .u) ∧
    (∀ k, o.a = .p k → o.d.isP = false → e.ops4Ok o vPos pPos unused unused = true →
      GivesRow (.pmov h o m) e o.d fun l => match (e.sig.preg k.toNat)[l] with | .f => 0 | .t => 1 | .u => 2)

/-- R131 to R133: copies, constants and selection, in every form: v, indexed, t, s, h and the .x2 pairs. -/
def Obligations.MovesAndSelection : Prop :=
  ∀ (s : State) (h : Hdr) (o : Ops4) (q : Ops2) (x2 : Bool) (e : Env),
    let pairPos : Pos := { kinds := [.v, .idx], pair := true }
    (Issues s h o.list e →
      (∀ n, o.d = .h n → x2 = false → e.ops4Ok o { kinds := [.h] } { kinds := [.h, .zero] } unused unused = true →
        Retires (.mov h o ⟨x2⟩) e (e.writeH e.s n.toNat (match o.a with | .h k => e.sig.hreg k.toNat | _ => 0))) ∧
      (∀ n neg abs, o.d = .s n neg abs → x2 = false →
        e.ops4Ok o { kinds := [.s] } { kinds := [.s, .imm, .zero] } unused unused = true →
        Retires (.mov h o ⟨x2⟩) e (e.writeS e.s n.toNat (e.uni o.a))) ∧
      (x2 = false → e.ops4Ok o dstPos srcPos unused unused = true → e.indexFault [(o.d, false), (o.a, false)] = none →
        Retires (.mov h o ⟨x2⟩) e (e.write e.s o.d (e.raw o.a))) ∧
      (x2 = true → e.ops4Ok o pairPos pairPos unused unused = true → e.indexFault [(o.d, true), (o.a, true)] = none →
        Retires (.mov h o ⟨x2⟩) e (e.writeHi (e.write e.s o.d (e.raw o.a)) o.d (e.rawAt immWord 1 o.a))) ∧
      (∀ pn : BitVec 3, let src : Pos := if x2 then pairPos else srcPos
        let pick := fun add => (Vector.ofFn fun l : Lane => match (e.sig.preg pn.toNat)[l] with
          | .t => (e.rawAt immWord add o.a)[l]
          | .f => (e.rawAt immWord add o.b)[l]
          | .u => (e.rawAt immWord add o.c)[l] : Row)
        e.ops4Ok o { kinds := [.v, .idx], pair := x2 } src src src = true →
        e.indexFault [(o.d, x2), (o.a, x2), (o.b, x2), (o.c, x2)] = none →
        Retires (.sel h o ⟨pn, x2⟩) e
          (if x2 then e.writeHi (e.write e.s o.d (pick 0)) o.d (pick 1) else e.write e.s o.d (pick 0)))) ∧
    (Issues s h q.list e → e.ops2Ok q { kinds := [.v, .s] } unused = true → ∀ (imm : BitVec 32) (mode : BitVec 2),
      let new := fun (old : Word64) => match mode.toNat with
        | 0 => imm.signExtend 64
        | 1 => imm.setWidth 64
        | 2 => imm ++ old.extractLsb' 0 32
        | _ => old.extractLsb' 32 32 ++ imm
      (∀ n neg abs, q.d = .s n neg abs →
        Retires (.movi h q imm ⟨mode⟩) e (e.writeS e.s n.toNat (new (e.sig.sreg n.toNat)))) ∧
      (Operand.kindS q.d = false → GivesRow (.movi h q imm ⟨mode⟩) e q.d fun l => new (e.raw q.d)[l]))

/-- R129, R134: the special registers, each under its number. The cycle count advances by an amount that is not stated
(log entry 5); in deterministic mode it is the count of retired instructions. -/
def Obligations.SpecialRegisters : Prop :=
  ∀ (s : State) (h : Hdr) (o : Ops4) (n : BitVec 8) (e : Env), Issues s h o.list e → o.a = .sr n →
    let q := fun (f : Quire → Nat) => match e.quire with | some q => BitVec.ofNat 64 (f q) | none => BitVec.allOnes 64
    let x := match e.grid with | some g => g.blk.x | none => 1
    let y := match e.grid with | some g => g.blk.y | none => 1
    let g := fun (f : Launch → Nat) => BitVec.ofNat 64 (match e.grid with | some g => f g.blk | none => 0)
    let nat := fun (k : Nat) => BitVec.ofNat 64 k
    (n.toNat = 0 → e.ops4Ok o { kinds := [.v] } { kinds := [.sr] } unused unused = true →
      GivesRow (.sread h o) e o.d fun l => nat l.val) ∧
    (e.ops4Ok o { kinds := [.v, .s] } { kinds := [.sr] } unused unused = true →
      (n.toNat = 0x11 → e.s.det e.sig.ctx = false →
        Retires (.sread h o) e (e.writeUni (e.s.tickCycles e.sel.core).2 o.d (e.s.tickCycles e.sel.core).1)) ∧
      ∀ v : Word64, (n.toNat, v) ∈ [(0x01, q fun _ => e.sig.sigix), (0x02, q fun _ => e.sig.role), (0x03, q (·.ix)),
          (0x04, q (·.gang)), (0x05, q (·.pos)), (0x06, q fun z => z.ix % x), (0x07, q fun z => z.ix / x % y),
          (0x08, q fun z => z.ix / x / y), (0x09, g (·.x)), (0x0A, g (·.y)), (0x0B, g (·.z)), (0x0C, g (·.depth)),
          (0x0D, nat e.sel.core), (0x0E, nat (e.sel.core / 12)), (0x0F, nat e.path.port), (0x10, nat e.path.idx),
          (0x12, e.sig.iret), (0x13, g (·.param)), (0x14, nat e.sig.ctx), (0x15, nat e.sig.B), (0x16, nat e.sig.LB),
          (0x18, e.s.reg e.sig.ctx 0x1F), (0x19, e.s.reg e.sig.ctx 0x20), (0x1A, e.s.reg e.sig.ctx 0x21),
          (0x1B, e.s.reg e.sig.ctx 0x22)] ++ (if e.s.det e.sig.ctx then [(0x11, e.sig.iret)] else []) →
        Retires (.sread h o) e (e.writeUni e.s o.d v))

/-- R124, R135 to R138: RGN, LIVE, SETK and QUOTA: what they set, and where LIVE, SETK and QUOTA raise their faults. QUOTA goes
by the budget as it stands when it is performed, a take's new registers read 0 in every lane. -/
def Obligations.BoundsAndQuotas : Prop :=
  ∀ (s : State) (h : Hdr) (o : Ops4) (q : Ops2) (imm : BitVec 32) (e : Env),
    let a := e.uni o.a
    let b := e.uni o.b
    let u : Pos := { kinds := [.s, .imm, .zero] }
    (∀ m, Issues s h o.list e → e.ops4Ok o unused { kinds := [.s, .zero] } unused unused = true → Retires (.rgn h o m) e e.s) ∧
    (Issues s h q.list e → e.ops2Ok q unused unused = true →
      (imm.toNat ≤ e.sig.B → Retires (.live h q imm) e (e.modSig e.s fun g => { g with LB := imm.toNat })) ∧
      (e.sig.B < imm.toNat → Raises (.live h q imm) e ⟨0x02, 0, none⟩)) ∧
    (∀ n : BitVec 2, Issues s h o.list e → e.ops4Ok o unused u u unused = true →
      (a.toNat ≤ b.toNat → b.toNat ≤ e.sig.B →
        Retires (.setk h o ⟨n⟩) e (e.modSig e.s fun g => { g with k := g.k.setIfInBounds n.toNat (a.toNat, b.toNat) })) ∧
      (b.toNat < a.toNat ∨ e.sig.B < b.toNat → ∃ t2, Raises (.setk h o ⟨n⟩) e ⟨0x03, t2, none⟩)) ∧
    (Issues s h o.list e → Turn e → e.ops4Ok o unused { kinds := [.s, .imm] } unused unused = true →
      let n := a.toNat
      (e.sig.quire = none → Raises (.quotaGive h o) e ⟨0x10, 0, none⟩ ∧ Raises (.quotaTake h o) e ⟨0x10, 0, none⟩) ∧
      (∀ key, e.sig.quire = some key →
        (n < 1 ∨ 31 < n ∨ e.now.B < 8 * n + 8 → Raises (.quotaGive h o) e ⟨0x10, 0, none⟩) ∧
        (1 ≤ n → n ≤ 31 → 8 * n + 8 ≤ e.now.B →
          Retires (.quotaGive h o) e ((e.modSig e.s fun g => { g with
            B := e.now.B - 8 * n, LB := min g.LB (e.now.B - 8 * n)
            v := g.v.filter fun (x : Nat × Row) => decide (x.1 < e.now.B - 8 * n) }).modQuire e.sel.core key fun z =>
              { z with spare := z.spare + 8 * n })) ∧
        (∀ z, e.quire = some z →
          (n < 1 ∨ 31 < n ∨ 256 < e.now.B + 8 * n → Raises (.quotaTake h o) e ⟨0x10, 0, none⟩) ∧
          (1 ≤ n → n ≤ 31 → e.now.B + 8 * n ≤ 256 → 8 * n ≤ z.spare → e.s.takes e.sel.core z = [] →
            let t := (e.s.modQuire e.sel.core key fun z => { z with spare := z.spare - 8 * n }).grow e.sel.core e.sel.slot (8 * n)
            Retires (.quotaTake h o) e t ∧ ∃ g, t.sig? e.sel.core e.sel.slot = some g ∧ g.B = e.now.B + 8 * n ∧
              ∀ r, g.reg r = if e.now.B ≤ r ∧ r < e.now.B + 8 * n then rowZero else e.now.reg r) ∧
          (1 ≤ n → n ≤ 31 → e.now.B + 8 * n ≤ 256 → (z.spare < 8 * n ∨ e.s.takes e.sel.core z ≠ []) →
            let p : PartSpec := { reason := 0x0F, evkey := BitVec.ofNat 64 z.ix, evaux := BitVec.ofNat 64 (8 * n)
                                  resume := e.next, wait := .take (8 * n) }
            (∃ t, e.part e.s p = .ok t) → Parts (.quotaTake h o) e e.s p))))

/-- R13, R95, R102, R103, R105, R106: the branches to a slot offset. CALL leaves the next PC in its register, LOOPD the
count; a target outside the address space that a lane takes raises ACCESS, and then nothing is written. -/
def Obligations.BranchesToAnOffset : Prop :=
  ∀ (s : State) (h : Hdr) (o : Ops2) (t u : BitVec 21) (e : Env), Issues s h o.list e →
    let slot := fun (x : BitVec 21) => (slotOf e.path.pc : Int) + x.toInt
    let inside := fun (x : BitVec 21) => 0 ≤ slot x ∧ slot x < 2 ^ 47 * 10
    let fall : Arm := ⟨1, e.path.mask &&& ~~~e.act, e.next⟩
    let taken : List Arm := [⟨0, e.act, addrOf (slot t)⟩, fall]
    let outside : Trap := ⟨0x07, addrOf (slot t), none⟩
    (e.ops2Ok o unused unused = true →
      (inside t → Branches (.bra h o t u) e e.s taken) ∧ (¬ inside t → Raises (.bra h o t u) e outside)) ∧
    (∀ n neg abs, o.d = .s n neg abs → e.ops2Ok o { kinds := [.s] } unused = true →
      let c := e.sig.sreg n.toNat - 1
      (inside t → Branches (.call h o t u) e (e.writeS e.s n.toNat e.next) taken) ∧
      (¬ inside t → Raises (.call h o t u) e outside) ∧
      (c = 0 → Retires (.loopd h o t u) e (e.writeS e.s n.toNat 0)) ∧
      (c ≠ 0 → inside t → Branches (.loopd h o t u) e (e.writeS e.s n.toNat c) taken) ∧
      (c ≠ 0 → ¬ inside t → Raises (.loopd h o t u) e outside)) ∧
    (∀ p : BitVec 3, o.a = .p p → e.ops2Ok o unused { kinds := [.p] } = true →
      ∀ at_ au : Mask,
        (∀ l : Lane, at_.getLsbD l.val = (e.act.getLsbD l.val && (e.sig.preg p.toNat)[l] == .t)) →
        (∀ l : Lane, au.getLsbD l.val = (e.act.getLsbD l.val && (e.sig.preg p.toNat)[l] == .u)) →
        ((at_ ≠ 0 → inside t) → (au ≠ 0 → inside u) → Branches (.btri h o t u) e e.s
          [⟨0, at_, addrOf (slot t)⟩, ⟨1, e.path.mask &&& ~~~at_ &&& ~~~au, e.next⟩, ⟨2, au, addrOf (slot u)⟩]) ∧
        (at_ ≠ 0 → ¬ inside t → Raises (.btri h o t u) e outside) ∧
        ((at_ ≠ 0 → inside t) → au ≠ 0 → ¬ inside u → Raises (.btri h o t u) e ⟨0x07, addrOf (slot u), none⟩))

/-- R13, R104: the branches to a target in a register; with a v register one target for each pass, that of the lowest
active lane. -/
def Obligations.BranchesToARegister : Prop :=
  ∀ (s : State) (h : Hdr) (o : Ops4) (e : Env), Issues s h o.list e →
    (∀ n neg abs, o.a = .s n neg abs → e.ops4Ok o unused { kinds := [.s] } unused unused = true →
      let t := e.sig.sreg n.toNat
      let arms : List Arm := [⟨0, e.act, t⟩, ⟨1, e.path.mask &&& ~~~e.act, e.next⟩]
      (pcValid t = true → Branches (.brx h o) e e.s arms ∧ Branches (.ret h o) e e.s arms) ∧
      (pcValid t = false → Raises (.brx h o) e ⟨0x05, t, none⟩ ∧ Raises (.ret h o) e ⟨0x05, t, none⟩)) ∧
    (∀ n neg abs, o.a = .v n neg abs → e.ops4Ok o unused { kinds := [.v] } unused unused = true →
      ∀ (l : Lane) (taken : Mask), lowest e.act = some l →
        let t := (e.sig.reg n.toNat)[l]
        (∀ j : Lane, taken.getLsbD j.val = (e.act.getLsbD j.val && (e.sig.reg n.toNat)[j] == t)) →
        (pcValid t = true → Branches (.brx h o) e e.s [⟨0, taken, t⟩, ⟨1, e.path.mask &&& ~~~taken, e.next⟩]) ∧
        (pcValid t = false → Raises (.brx h o) e ⟨0x05, t, none⟩))

/-- R94, R95: what a split leaves. Undivided: two running paths under the indices of their arms, the join entry with the
whole mask and the count, a third arm deferred on top. Divided: the first arm goes on under the path's index, every other
arm is deferred, the last one lowest. The new paths take the signature's relaunch sequence number. -/
def Obligations.SplitOpensANest : Prop :=
  ∀ (g : Sig) (p : Path) (l : List Arm), 2 ≤ l.length → l.length ≤ 3 →
    let t := g.split p l
    let shape := fun (x : StackEntry) => (x.join, x.mask, x.pidx, if x.join then 0 else x.pc.toNat, if x.join then x.count else 0)
    let deferred := fun (idx : Option Nat) (a : Arm) => (false, a.mask, idx.getD a.no, a.pc.toNat, 0)
    let arm := fun (x : Path) => (x.idx, x.mask, x.pc, x.nest, x.rseq)
    (g.stack = [] → g.paths = [p] →
      t.paths.map arm = (l.take 2).map (fun a => (a.no, a.mask, a.pc, some g.nextNest, g.rseq)) ∧
      t.stack.map shape = (true, p.mask, 0, 0, l.length) :: (l.drop 2).map (deferred none)) ∧
    (g.stack ≠ [] →
      t.paths.map arm = (g.paths.filter fun q => q.idx != p.idx).map arm ++
        (l.take 1).map (fun a => (p.idx, a.mask, a.pc, some g.nextNest, g.rseq)) ∧
      t.stack.map shape = g.stack.map shape ++ (true, p.mask, p.idx, 0, l.length) ::
        (l.drop 1).reverse.map (deferred (some p.idx)))

/-- R96 to R98, R101, R107: NOP, JOIN, EXIT and YIELD. A JOIN with no open nest does nothing. One of a nest E counts its arm,
and with it the topmost deferred arms that have no lane left; while others are to arrive it parts and makes the topmost
deferred arm left a path; the last arm's continues as the merged path. EXIT takes its lanes from the path and from every
entry; a path without lanes arrives at its nest in the same way, and at the enclosing one where the merge has none either.
With the last lane the signature exits: it waits for its stores where it holds clasps (R278), and releases them, in
deterministic mode in the serial phase (R86). -/
def Obligations.JoinExitYield : Prop :=
  ∀ (s : State) (h : Hdr) (o : Ops4) (e : Env), Issues s h o.list e → e.ops4Ok o unused unused unused unused = true →
    Retires (.nop h o) e e.s ∧
    (let p : PartSpec := { reason := 0x0C, evkey := 0, resume := e.next, wait := .none, ready := true }
     (∃ t, e.part e.s p = .ok t) → Parts (.yield h o) e e.s p) ∧
    (e.path.nest = none → Retires (.join h o) e e.s) ∧
    (∀ n j, e.path.nest = some n → (e.sig.stack.map (·.id)).Nodup → e.sig.stack.find? (fun x => x.join && x.id == n) = some j →
      1 ≤ j.count →
      let (c, left, next, rest) := arrival e.sig.stack n j.count
      (0 < c →
        let p : PartSpec := { reason := 0x0B, evkey := BitVec.ofNat 64 (e.sig.position n), resume := e.next, wait := .none
                              arm := next.map (armPath e) }
        let t := e.modSig e.s fun g => { g with stack := rest }
        (∃ u, e.part t p = .ok u) → Parts (.join h o) e t p) ∧
      (c = 0 → j.mask ≠ 0 → Moves (.join h o) e (e.modSig (e.closeNests e.s [n]) fun g => { g with
        stack := left
        paths := (g.paths.filter fun q => q.idx != e.path.idx) ++
          [{ e.path with idx := j.pidx, mask := j.mask, pc := e.next, nest := j.parent }] }))) ∧
    (e.path.handler = false →
      let thin := e.sig.stack.map fun x => { x with mask := x.mask &&& ~~~e.act }
      let ends := fun (w : State) => exec (.exit h o) e.s = .next ((w.freeSpills e.sig.ctx e.sel.core
        ((w.core e.sel.core).records.filter fun r => r.slot == e.sel.slot)).dropSigs e.sel.core e.sig.ctx [e.sel.slot])
      let v := e.modSig e.s fun g => { g with wdog := 0, iret := g.iret + 1, quantum := g.quantum + 1 }
      let gone : Prop := (e.s.claspsOf e.sig.uid = [] → ends v) ∧
        (e.s.claspsOf e.sig.uid ≠ [] →
          (e.s.storesLeft e.sig.uid = true → Waits (.exit h o) e) ∧
          (e.s.storesLeft e.sig.uid = false → e.s.det e.sig.ctx = false → ends (v.releaseClasps e.sig.ctx e.sig.uid)) ∧
          (e.s.storesLeft e.sig.uid = false → e.s.det e.sig.ctx = true →
            ends (v.modCtx e.sig.ctx fun c => { c with releases := c.releases ++ [(e.sig.place ++ [e.path.idx], e.sig.uid)] })))
      (e.path.mask &&& ~~~e.act ≠ 0 → Retires (.exit h o) e (e.modSig e.s fun g =>
        { g with stack := g.stack.map (fun x => { x with mask := x.mask &&& ~~~e.act })
                 paths := (g.paths.map fun q => if q.idx == e.path.idx then { q with mask := e.path.mask &&& ~~~e.act } else q) })) ∧
      (e.path.mask &&& ~~~e.act = 0 → e.path.nest = none → gone) ∧
      (∀ n j, e.path.mask &&& ~~~e.act = 0 → e.path.nest = some n → (e.sig.stack.map (·.id)).Nodup →
        thin.find? (fun x => x.join && x.id == n) = some j → 1 ≤ j.count →
        let (c, left, next, rest) := arrival thin n j.count
        (0 < c → ∃ t, exec (.exit h o) e.s = .next t ∧ t.sig? e.sel.core e.sel.slot =
          (e.s.sig? e.sel.core e.sel.slot).map fun g => { g with
            stack := rest, wdog := 0, iret := g.iret + 1, quantum := g.quantum + 1
            paths := (g.paths.filter fun q => q.idx != e.path.idx) ++ (next.map (armPath e)).toList }) ∧
        (c = 0 → j.mask ≠ 0 → ∃ t, exec (.exit h o) e.s = .next t ∧ t.sig? e.sel.core e.sel.slot =
          ((e.closeNests e.s [n]).sig? e.sel.core e.sel.slot).map fun g => { g with
            stack := left, wdog := 0, iret := g.iret + 1, quantum := g.quantum + 1
            paths := (g.paths.filter fun q => q.idx != e.path.idx) ++ [{ e.path with
              idx := j.pidx, mask := j.mask, pc := e.next, nest := j.parent, passes := 0, held := false, stalled := false
              fault := none, wdog := none }] }) ∧
        (c = 0 → j.mask = 0 → j.parent = none → gone))) ∧
    (e.path.handler = true → Raises (.exit h o) e ⟨0x19, 0, none⟩) ∧
    (∀ (u : State) ctx uid x pa w, u.claspsOf uid = [x] → u.cellNow ctx (x % 2 ^ 54) = some (pa, w) →
      u.releaseClasps ctx uid = w.freeClasp ctx (x % 2 ^ 54) pa)

/-- R108, R416, R417, R425: TRAP and BPT take their exceptions and carry their immediates. TRET returns: the path goes on at
the PC in t1 of its lowest lane, or behind it; the window is released, and the watchdog count is zero; .kill ends the quire
or wave with the cause in t0. Outside a handler, and with a nest open that the handler opened, TRET raises PRIV. -/
def Obligations.TrapsAndReturns : Prop :=
  (∀ (s : State) (h : Hdr) (o : Ops4) (q : Ops2) (imm : BitVec 32) (e : Env),
     (Issues s h q.list e → e.ops2Ok q unused unused = true → Raises (.trap h q imm) e ⟨0x15, imm.setWidth 64, none⟩) ∧
     (Issues s h o.list e → e.ops4Ok o unused { kinds := [.zero, .imm] } unused unused = true →
       Raises (.bpt h o) e ⟨0x16, (match o.a with | .imm i => i.signExtend 64 | _ => 0), none⟩)) ∧
  (∀ (s : State) (h : Hdr) (o : Ops4) (e : Env) (l : Lane), Issues s h o.list e →
     e.ops4Ok o unused unused unused unused = true → lowest e.path.mask = some l →
     let t := fun (n : Nat) => (e.port.treg n)[l]
     let leave := fun (pc : Word64) => e.modSig (e.modPort e.s fun p => { p with handler := none }) fun g =>
       { (g.modPath e.sel.pidx fun p => { p with handler := false, pc := pc }) with wdog := 0 }
     (e.path.handler = false → Raises (.tretRetry h o) e ⟨0x19, 0, none⟩ ∧ Raises (.tretSkip h o) e ⟨0x19, 0, none⟩ ∧
       Raises (.tretKill h o) e ⟨0x19, 0, none⟩) ∧
     (e.path.handler = true → e.handlerNest = true →
       Raises (.tretRetry h o) e ⟨0x19, 0, none⟩ ∧ Raises (.tretSkip h o) e ⟨0x19, 0, none⟩ ∧
       Raises (.tretKill h o) e ⟨0x19, 0, none⟩) ∧
     (e.path.handler = true → e.handlerNest = false →
       (pcValid (t 1) = true → Moves (.tretRetry h o) e (leave (t 1)) ∧ Moves (.tretSkip h o) e (leave (nextPc (t 1)))) ∧
       (pcValid (t 1) = false →
         Raises (.tretRetry h o) e ⟨0x05, t 1, none⟩ ∧ Raises (.tretSkip h o) e ⟨0x05, t 1, none⟩) ∧
       (∃ active failing : Mask,
         (∀ j : Lane, active.getLsbD j.val = ((e.port.treg 3)[j]).getLsbD 0) ∧
         (∀ j : Lane, failing.getLsbD j.val = ((e.port.treg 3)[j]).getLsbD 1) ∧
         exec (.tretKill h o) e.s = .next (e.killWith e.s ⟨(t 0).toNat % 256, t 1, t 2, (t 5).setWidth 32 ++ t 4, active, failing⟩))))

/-- R233, R234: the loads of a local space. n bytes at the lane's address in the reservation, extended to 64 bits; 16 bytes
in a pair. MISALIGN and ACCESS come before any effect, at the lowest lane that fails. R232: a lane whose bytes a pending engine
operation of the quire writes gets an unspecified value; nothing is said of it. -/
def Obligations.LocalLoads : Prop :=
  ∀ (s : State) (h : Hdr) (o : Ops2) (imm : BitVec 32) (m : LMod) (e : Env), Issues s h o.list e → m.size.toNat ≤ 4 →
    let n := 2 ^ m.size.toNat
    let ea := addrI e o imm
    let space := m.space.toNat
    let byte := fun (l : Lane) (j : Nat) => Mem.read (e.core.mem.get space) ((e.reserved space).1 + (ea l).toNat + j)
    let aligned := fun (l : Lane) => (ea l).toNat % n = 0
    let inside := fun (l : Lane) => (ea l).toNat + n ≤ (e.reserved space).2
    let races := fun (l : Lane) => Active e l ∧ ∃ key, e.sig.quire = some key ∧
      (e.s.cluster (e.sel.core / 12)).writes e.sel.core key space (ea l).toNat n = true
    let on := fun (i : Instr) =>
      FaultsAt i e 0x05 ea aligned ∧
      ((∀ l, Active e l → aligned l) → FaultsAt i e 0x07 ea inside) ∧
      ((∀ l, Active e l → aligned l ∧ inside l) → ∃ k : Nat, ((∀ l, ¬ races l) → k = e.s.free) ∧
        (m.size ≠ 4 → ∃ r : Row, Retires i e (e.write { e.s with free := k } o.d r) ∧ ∀ (l : Lane) (j : Nat), ¬ races l → j < 8 →
          (r[l]).extractLsb' (8 * j) 8 =
            if j < n then byte l j else if m.sx && (byte l (n - 1)).msb then 0xFF else 0) ∧
        (m.size = 4 → ∃ r r1 : Row, Retires i e (e.writeHi (e.write { e.s with free := k } o.d r) o.d r1) ∧
          ∀ (l : Lane) (j : Nat), ¬ races l → j < 8 →
            (r[l]).extractLsb' (8 * j) 8 = byte l j ∧ (r1[l]).extractLsb' (8 * j) 8 = byte l (8 + j)))
    e.ops2Ok o { kinds := [.v, .idx], pair := m.size == 4 } { kinds := [.v, .s, .zero] } = true →
    e.indexFault [(o.d, m.size == 4)] = none →
    on (.ldl h o imm m) ∧ on (.ldb h o imm m)

/-- R231, R233, R234: the stores to a local space. Each active lane's n bytes stand at its address in the reservation, of
two lanes' the higher one's; every other byte of the core, of every other space, of HBM and of host memory is unchanged,
and so are all registers and every other core. R232: a lane whose bytes a pending engine operation of the quire reads or writes
leaves undefined bytes there, of which nothing is said, and what such an operation still writes is undefined (`raced`). -/
def Obligations.LocalStores : Prop :=
  ∀ (s : State) (h : Hdr) (o : Ops2) (imm : BitVec 32) (m : LMod) (e : Env), Issues s h o.list e → s.memOk = true → m.size.toNat ≤ 4 →
    let n := 2 ^ m.size.toNat
    let ea := addrI e o imm
    let space := m.space.toNat
    let aligned := fun (l : Lane) => (ea l).toNat % n = 0
    let inside := fun (l : Lane) => (ea l).toNat + n ≤ (e.reserved space).2
    let first := fun (l : Lane) => (e.reserved space).1 + (ea l).toNat
    let within := fun (l : Lane) (a : Nat) => first l ≤ a ∧ a < first l + n
    let races := fun (l : Lane) => Active e l ∧ ∃ key, e.sig.quire = some key ∧
      (e.s.cluster (e.sel.core / 12)).meets e.sel.core key space (ea l).toNat n = true
    let on := fun (i : Instr) =>
      FaultsAt i e 0x05 ea aligned ∧
      ((∀ l, Active e l → aligned l) → FaultsAt i e 0x07 ea inside) ∧
      ((∀ l, Active e l → aligned l ∧ inside l) → ∃ t, Retires i e t ∧
        (∀ a, (∀ l, Active e l → ¬ within l a) →
          Mem.read ((t.core e.sel.core).mem.get space) a = Mem.read (e.core.mem.get space) a) ∧
        (∀ (l : Lane) (j : Nat), Active e l → ¬ races l → j < n → (∀ k : Lane, l < k → Active e k → ¬ within k (first l + j)) →
          Mem.read ((t.core e.sel.core).mem.get space) (first l + j) = storeByte e o.d l j) ∧
        (∀ k, k < 4 → k ≠ space → (t.core e.sel.core).mem.get k = e.core.mem.get k) ∧
        t.core e.sel.core = { e.core with mem := (t.core e.sel.core).mem } ∧
        (∀ c, c ≠ e.sel.core → t.core c = e.s.core c) ∧
        t = { e.s with cores := t.cores, clusters := t.clusters, free := t.free } ∧
        ((∀ l, ¬ races l) → t.clusters = e.s.clusters ∧ t.free = e.s.free) ∧
        ∀ key, e.sig.quire = some key → ∃ rs : List (Nat × Nat), (∀ r, r ∈ rs ↔ ∃ l, races l ∧ r = ((ea l).toNat, n)) ∧
          ∀ c, t.cluster c = if c = e.sel.core / 12 then (e.s.cluster c).race e.sel.core key space rs else e.s.cluster c)
    e.ops2Ok o (if m.size == 4 then { kinds := [.v, .idx, .zero], pair := true } else { kinds := [.v, .s, .idx, .zero] })
      { kinds := [.v, .s, .zero] } = true →
    e.indexFault [(o.d, m.size == 4)] = none →
    on (.stl h o imm m) ∧ on (.stb h o imm m)

/-- R236, R237: ATOML, one event. The active lanes act in ascending order, each on what the lane before it left, and D
takes the old values. R232: of a lane whose bytes a pending engine operation of the quire reads or writes, the old value and the
bytes left are undefined. -/
def Obligations.LocalAtomics : Prop :=
  ∀ (s : State) (h : Hdr) (o : Ops4) (m : AtMod) (e : Env), Issues s h o.list e →
    let n := 2 ^ m.size.toNat
    let w := 8 * n
    let ea := fun (l : Lane) => (e.raw o.a)[l]
    let b := fun (l : Lane) => ((e.src m.ty o.b)[l]).toNat % 2 ^ w
    let c := fun (l : Lane) => ((e.src m.ty o.c)[l]).toNat % 2 ^ w
    let first := fun (l : Lane) => (e.reserved 0).1 + (ea l).toNat
    let less := fun (x y : Nat) => if m.signed then signedOf w x < signedOf w y else x < y
    let new := fun (old : Nat) (l : Lane) => match m.opc.toNat with
      | 0 => (old + b l) % 2 ^ w
      | 1 => if less (b l) old then b l else old
      | 2 => if less old (b l) then b l else old
      | 3 => old &&& b l | 4 => old ||| b l | 5 => old ^^^ b l | 6 => b l
      | 7 => if old = b l then c l else old
      | _ => let f := if n = 4 then FP32 else FP64
        f.encode .rne false false ((f.decode old).add .rne (f.decode (b l)))
    let lanes := lanesOf e.act
    let races := fun (l : Lane) => ∃ key, e.sig.quire = some key ∧
      (e.s.cluster (e.sel.core / 12)).meets e.sel.core key 0 (ea l).toNat n = true
    let cas : Pos := if m.opc = 7 then srcPos else unused
    e.ops4Ok o { kinds := [.v, .idx, .zero] } { kinds := [.v, .s, .zero] }
      { kinds := [.v, .s, .idx, .imm, .zero], fp := m.opc == 8 } cas = true →
    e.indexFault [(o.d, false), (o.b, false), (o.c, false)] = none →
    FaultsAt (.atoml h o m) e 0x05 ea (fun l => (ea l).toNat % n = 0) ∧
    ((∀ l, Active e l → (ea l).toNat % n = 0) → FaultsAt (.atoml h o m) e 0x07 ea fun l => (ea l).toNat + n ≤ (e.reserved 0).2) ∧
    ((∀ l, Active e l → (ea l).toNat % n = 0 ∧ (ea l).toNat + n ≤ (e.reserved 0).2) →
      ∃ (mem : Nat → Mem) (old : Row) (u : State), mem 0 = e.core.mem.lm ∧
        (∀ (i : Nat) (l : Lane), lanes[i]? = some l →
          let x := natOfBytes (Mem.readN (mem i) (first l) n)
          (¬ races l → old[l] = BitVec.ofNat 64 x ∧ mem (i + 1) = Mem.writeN (mem i) (first l) (bytesOfNat n (new x l))) ∧
          (races l → ∃ bs : List Byte, bs.length = n ∧ mem (i + 1) = Mem.writeN (mem i) (first l) bs)) ∧
        u = { e.s with clusters := u.clusters, free := u.free } ∧ ((∀ l, Active e l → ¬ races l) → u = e.s) ∧
        Retires (.atoml h o m) e (e.write
          (u.modCore e.sel.core fun k => { k with mem := { k.mem with lm := mem lanes.length } }) o.d old))

/-- R238 to R241: the streams of a gang. A push leaves an entry at the receiving quire, a pop takes the oldest; either
parts while the stream is blocked for it; a push to a closed stream does nothing, a pop from one raises ACCESS. -/
def Obligations.ClusterStreams : Prop :=
  ∀ (s : State) (h : Hdr) (o : Ops4) (e : Env), Issues s h o.list e →
    let act := fun (r : Row) => (Vector.ofFn fun l : Lane => if e.act.getLsbD l.val then r[l] else 0 : Row)
    let ends := fun (a : Operand) (i : Instr) (next : Quire → Prop) =>
      (11 < (e.uni a).toNat → Raises i e ⟨0x02, 0, none⟩) ∧
      ((e.uni a).toNat ≤ 11 → e.quire = none → Raises i e ⟨0x07, 0, none⟩) ∧
      (∀ q, (e.uni a).toNat ≤ 11 → e.quire = some q →
        ((e.uni a).toNat = q.pos ∨ q.gsize ≤ (e.uni a).toNat → Raises i e ⟨0x07, 0, none⟩) ∧
        ((e.uni a).toNat ≠ q.pos → (e.uni a).toNat < q.gsize → next q))
    (e.ops4Ok o unused srcPos { kinds := [.imm, .s] } unused = true → e.indexFault [(o.a, false)] = none →
      let n := (e.uni o.b).toNat
      let p : PartSpec := { reason := 0x0A, evkey := BitVec.ofNat 64 n, resume := e.next, wait := .push (act (e.raw o.a)) }
      ends o.b (.spush h o) fun q =>
        (e.s.mate e.sig.ctx q n = none → Retires (.spush h o) e e.s) ∧
        (∀ c key r, e.s.mate e.sig.ctx q n = some (c, key) → e.s.quire? c key = some r →
          let fifo := AMap.getD r.fifos q.pos []
          (fifo.length < 4 → e.streamWaits n 0 = false → Retires (.spush h o) e (e.s.modQuire c key fun z =>
            { z with fifos := AMap.set z.fifos q.pos (fifo ++ [act (e.raw o.a)]) })) ∧
          (4 ≤ fifo.length ∨ e.streamWaits n 0 = true → (∃ t, e.part e.s p = .ok t) → Parts (.spush h o) e e.s p))) ∧
    (e.ops4Ok o dstPos { kinds := [.imm, .s] } unused unused = true → e.indexFault [(o.d, false)] = none →
      let n := (e.uni o.a).toNat
      let p : PartSpec := { reason := 0x0A, evkey := BitVec.ofNat 64 n, evaux := 1, resume := e.next, wait := .pop (e.dest o.d) }
      ends o.a (.spop h o) fun q =>
        (AMap.getD q.fifos n [] = [] → e.s.mate e.sig.ctx q n = none → Raises (.spop h o) e ⟨0x07, 0, none⟩) ∧
        (∀ key x rest, AMap.getD q.fifos n [] = x :: rest → e.streamWaits n 1 = false → e.sig.quire = some key →
          Retires (.spop h o) e (e.write (e.s.modQuire e.sel.core key fun z =>
            { z with fifos := AMap.set z.fifos n rest }) o.d x)) ∧
        (AMap.getD q.fifos n [] = [] ∧ e.s.mate e.sig.ctx q n ≠ none ∨ AMap.getD q.fifos n [] ≠ [] ∧ e.streamWaits n 1 = true →
          (∃ t, e.part e.s p = .ok t) → Parts (.spop h o) e e.s p))

/-- R243, R246 to R248, R252, R275: the checks on an access in their order, each over every lane (log entry 53): MISALIGN;
ACCESS for an address outside the space; PAGE for an address that no well-formed leaf maps; ACCESS where the leaf's bits deny
it, or the leaf is a SYNC page that the agent may not touch; CLASP where the page does not suit a cell; ACCESS for an aperture
that is closed to the access; then the pages that are away; ACCESS where no memory stands at the address; then the places. An
operation on a cell raises what they answer, or parts with reason PAGE and asks for the pages; the other accesses do so in
GlobalLoads, GlobalStores, GlobalAtomics and CacheInstructions. -/
def Obligations.AccessChecks : Prop :=
  (∀ (s : State) (ctx : Nat) (n : Need) (cell : Leaf → Bool) (ws : List Want),
    let aligned := fun (w : Want) => w.va.toNat % w.size = 0
    let inside := fun (w : Want) => w.va.toNat + w.size ≤ 2 ^ 54
    let leaf := fun (w : Want) => s.walk ctx w.va.toNat
    let allowed := fun (w : Want) => ∀ l, leaf w = some l → (n.r → l.r = true) ∧ (n.w → l.w = true) ∧ (n.x → l.x = true)
    let open_ := fun (w : Want) => ∀ l, leaf w = some l → n.noSync = true → l.sync = false
    let suits := fun (w : Want) => ∀ l, leaf w = some l → cell l = true
    let window := fun (w : Want) => ∀ l, leaf w = some l → l.res = true →
      (winOf l.addr = .host → n.noHost = false) ∧ (winOf l.addr = .peer → n.noPeer = false)
    let place := fun (w : Want) (p : Place) => ∃ l, leaf w = some l ∧ s.placeOf ctx (l.addr + w.va.toNat % l.size) = some p
    let away := fun (w : Want) => ∃ l, leaf w = some l ∧ l.res = false
    let first := fun (cause : Nat) (ok : Want → Prop) => (∃ w ∈ ws, ¬ ok w) →
      ∃ (a : List Want) (w : Want) (b : List Want), ws = a ++ w :: b ∧ (∀ x ∈ a, ok x) ∧ ¬ ok w ∧
        s.reach ctx n cell ws = .fail ⟨cause, w.va, none⟩
    first 0x05 aligned ∧
    ((∀ w ∈ ws, aligned w) → first 0x07 inside) ∧
    ((∀ w ∈ ws, aligned w ∧ inside w) → first 0x06 fun w => leaf w ≠ none) ∧
    ((∀ w ∈ ws, aligned w ∧ inside w ∧ leaf w ≠ none) → first 0x07 allowed) ∧
    ((∀ w ∈ ws, aligned w ∧ inside w ∧ leaf w ≠ none ∧ allowed w) → first 0x07 open_) ∧
    ((∀ w ∈ ws, aligned w ∧ inside w ∧ leaf w ≠ none ∧ allowed w ∧ open_ w) → first 0x18 suits) ∧
    ((∀ w ∈ ws, aligned w ∧ inside w ∧ leaf w ≠ none ∧ allowed w ∧ open_ w ∧ suits w) → first 0x07 window) ∧
    ((∀ w ∈ ws, aligned w ∧ inside w ∧ leaf w ≠ none ∧ allowed w ∧ open_ w ∧ suits w ∧ window w) →
      ((∃ w ∈ ws, away w) → ∃ pages va, s.reach ctx n cell ws = .absent pages va ∧
        (∀ w ∈ ws, ∀ l, leaf w = some l → l.res = false → (∃ m ∈ pages, m.va = l.va) ∧ va ≤ w.va.toNat) ∧
        ∃ w ∈ ws, w.va.toNat = va ∧ away w) ∧
      ((∀ w ∈ ws, ¬ away w) → first 0x07 fun w => ∃ p, place w p) ∧
      (∀ at_ : Want → Place, (∀ w ∈ ws, ¬ away w ∧ place w (at_ w)) → s.reach ctx n cell ws = .ok (ws.map at_)))) ∧
  (∀ (s : State) (h : Hdr) (o : Ops4) (m : BindMod) (y : SyMod) (e : Env), Issues s h o.list e →
    let checks := fun (i : Instr) => ChecksAt e.syncNamed i e { r := true, w := true } [⟨0, e.uni o.a, 64⟩]
    (Turn e → e.ops4Ok o unused { kinds := [.s] } { kinds := [.s] } { kinds := [.s, .imm] } = true → checks (.bind h o m)) ∧
    (Turn e → e.ops4Ok o unused { kinds := [.s] } unused unused = true → checks (.acq h o y) ∧ checks (.rel h o y)) ∧
    (e.ops4Ok o unused { kinds := [.s] } { kinds := [.s, .imm] } unused = true →
      (Turn e → checks (.mbinit h o)) ∧ checks (.mbwait h o)) ∧
    (Turn e → e.ops4Ok o { kinds := [.s, .zero] } { kinds := [.s] } { kinds := [.s, .imm, .zero] } unused = true → checks (.mbarr h o y)))

/-- R141, R151, R222, R263, R264, R291: LD, IVLD and LDSC. Each checks every active lane first; then the path parts with
reason LOAD, and each active lane's access is on its way; LDSC's go to the thimble, in deterministic mode in the serial phase
(R473). -/
def Obligations.GlobalLoads : Prop :=
  ∀ (s : State) (h : Hdr) (o : Ops2) (imm : BitVec 32) (m : GMod) (am : AMod) (e : Env), Issues s h o.list e →
    let ea := addrI e o imm
    let n := 2 ^ m.size.toNat
    let reads := fun (ps : List Place) (n : Nat) => (reached e ea ps).map fun x => (⟨x.1.val, x.2.1, x.2.2, n, .read, none⟩ : Access)
    let halves := fun (ps : List Place) => (reached e ea ps).flatMap fun x =>
      ([⟨x.1.val, x.2.1, x.2.2, 8, .read, none⟩, ⟨x.1.val, x.2.1 + 8, x.2.2.add 8, 8, .read, none⟩] : List Access)
    let gives := fun (i : Instr) (t : State) (p : PartSpec) => (∃ u, e.part t p = .ok u) → Parts i e t p
    (e.ops2Ok o { kinds := [.v, .idx], pair := m.size == 4 } { kinds := [.v, .s, .zero] } = true →
      e.indexFault [(o.d, m.size == 4)] = none →
      ChecksFirst (.ld h o imm m) e { r := true } (wants e ea n) ∧
      ∀ ps, e.s.reach e.sig.ctx { r := true } anyPage (wants e ea n) = .ok ps →
        gives (.ld h o imm m) e.s
          (loadPart e o.d m.sx false (m.size == 4) false ea (if m.size = 4 then halves ps else reads ps n))) ∧
    (e.s.feat e.sig.ctx 0 = true → e.indexFault [(o.d, am.ty == .iv64)] = none →
      e.ops2Ok o { kinds := [.v, .idx], pair := am.ty == .iv64 } { kinds := [.v, .s] } = true →
      let n := if am.ty = .iv64 then 16 else 8
      ChecksFirst (.ivld h o imm am) e { r := true } (wants e ea n) ∧
      ∀ ps, e.s.reach e.sig.ctx { r := true } anyPage (wants e ea n) = .ok ps →
        gives (.ivld h o imm am) e.s (loadPart e o.d false true (am.ty == .iv64) false ea (reads ps n))) ∧
    (e.indexFault [(o.d, false)] = none →
      e.ops2Ok o { kinds := [.v, .idx] } { kinds := [.v, .s, .zero] } = true →
      let need : Need := { r := true, noHost := true, noPeer := true }
      ChecksFirst (.ldsc h o imm m) e need (wants e ea n) ∧
      ∀ ps, e.s.reach e.sig.ctx need anyPage (wants e ea n) = .ok ps →
        let p := loadPart e o.d m.sx false false true ea (reads ps n)
        (e.s.det e.sig.ctx = false → gives (.ldsc h o imm m)
          ((sent e [] 0).queueSc ((reads ps n).map fun a => e.scOf a (some e.core.pseq) false)) p) ∧
        (e.s.det e.sig.ctx = true → gives (.ldsc h o imm m) e.s { p with late := reads ps n }))

/-- R141, R223, R263, R264, R273, R291: ST, IVST and STSC. Each checks every active lane first. ST and IVST retire, and
their writes are on their way, those of .nm counted as outstanding; STSC parts, and its writes go to the thimble, in
deterministic mode to the serial phase (R473). No byte of memory changes before a write is performed. -/
def Obligations.GlobalStores : Prop :=
  ∀ (s : State) (h : Hdr) (o : Ops2) (imm : BitVec 32) (m : GMod) (am : AMod) (e : Env), Issues s h o.list e →
    let ea := addrI e o imm
    let n := 2 ^ m.size.toNat
    let stored := fun (i : Instr) (n : Nat) (nm : Bool) =>
      ChecksFirst i e { w := true } (wants e ea n) ∧
      ∀ ps, e.s.reach e.sig.ctx { w := true } anyPage (wants e ea n) = .ok ps →
        let c := if nm then ps.length else 0
        let refused := fun (l : Lane) => ∃ x ∈ reached e ea ps, x.1 = l ∧ e.s.refuses { w := true } x.2.2 n = true
        FaultsAt i e 0x07 ea (fun l => ¬ refused l) ∧
        ((∀ l, ¬ refused l) →
          (e.core.outst + c < 2 ^ 32 → ∃ ws, Retires i e (sent e ws c) ∧ Stores e o.d n ea ps ws) ∧
          (2 ^ 32 ≤ e.core.outst + c → nm = true → Waits i e))
    (m.size.toNat ≤ 4 → e.indexFault [(o.d, m.size == 4)] = none →
      e.ops2Ok o (if m.size == 4 then { kinds := [.v, .idx, .zero], pair := true } else { kinds := [.v, .s, .idx, .zero] })
        { kinds := [.v, .s, .zero] } = true →
      stored (.st h o imm m) n m.nm) ∧
    (e.s.feat e.sig.ctx 0 = true → e.indexFault [(o.d, am.ty == .iv64)] = none →
      e.ops2Ok o { kinds := [.v, .idx], pair := am.ty == .iv64 } { kinds := [.v, .s] } = true →
      stored (.ivst h o imm am) (if am.ty = .iv64 then 16 else 8) false) ∧
    (m.size.toNat ≤ 3 → e.indexFault [(o.d, false)] = none →
      e.ops2Ok o { kinds := [.v, .s, .idx, .zero] } { kinds := [.v, .s, .zero] } = true →
      let need : Need := { w := true, noHost := true, noPeer := true }
      ChecksFirst (.stsc h o imm m) e need (wants e ea n) ∧
      ∀ ps, e.s.reach e.sig.ctx need anyPage (wants e ea n) = .ok ps →
        let acc := (reached e ea ps).map fun x =>
          (⟨x.1.val, x.2.1, x.2.2, n, .write ((List.range n).map (storeByte e o.d x.1)), none⟩ : Access)
        let t := (sent e [] 0).queueSc (acc.map fun a => e.scOf a (some e.core.pseq) false)
        let p : PartSpec := { reason := 0x02, evkey := lowAddr e ea, resume := e.next, wait := .scStore acc.length }
        let held := { p with late := acc }
        (e.s.det e.sig.ctx = false → (∃ u, e.part t p = .ok u) → Parts (.stsc h o imm m) e t p) ∧
        (e.s.det e.sig.ctx = true → (∃ u, e.part e.s held = .ok u) → Parts (.stsc h o imm m) e e.s held))

/-- R265, R266, R286: ATOM, RED and CAS. An update with a result parts until each lane's has been
performed; one without is on its way and counted as outstanding; the .sc forms go to the thimble. In deterministic mode an update
with a result parts, and the serial phase performs its accesses (R473); one without waits at its PC for that phase, which
performs it in lane order. -/
def Obligations.GlobalAtomics : Prop :=
  ∀ (s : State) (h : Hdr) (o : Ops4) (m : AtMod) (e : Env), Issues s h o.list e →
    e.indexFault [(o.d, false), (o.b, false), (o.c, false)] = none →
    let n := 2 ^ m.size.toNat
    let ea := fun (l : Lane) => (e.raw o.a)[l]
    let b := e.src m.ty o.b
    let cmp := e.src m.ty o.c
    let need : Need := { r := true, w := true, noHost := true, noPeer := m.sc }
    let rmw := fun (ps : List Place) => (reached e ea ps).map fun x =>
      (⟨x.1.val, x.2.1, x.2.2, n, .rmw m.opc.toNat m.signed b[x.1], none⟩ : Access)
    let cas := fun (ps : List Place) => (reached e ea ps).map fun x =>
      (⟨x.1.val, x.2.1, x.2.2, n, .cas b[x.1] cmp[x.1], none⟩ : Access)
    let reach := fun (ps : List Place) => e.s.reach e.sig.ctx need anyPage (wants e ea n) = .ok ps
    let awaits := fun (i : Instr) (acc : List Access) =>
      let q := some e.core.pseq
      let t := if m.sc then (sent e [] 0).queueSc (acc.map fun a => e.scOf a q false)
        else sent e (acc.map fun a => e.pendOf a 0 q) 0
      let p := loadPart e o.d false false false m.sc ea acc
      (e.s.det e.sig.ctx = false → (∃ u, e.part t p = .ok u) → Parts i e t p) ∧
      (e.s.det e.sig.ctx = true → let p := { p with late := acc }; (∃ u, e.part e.s p = .ok u) → Parts i e e.s p)
    let updates := fun (i : Instr) (ps : List Place) =>
      let acc := rmw ps
      let refused := fun (l : Lane) => ∃ x ∈ reached e ea ps, x.1 = l ∧ e.s.refuses { r := true, w := true, noHost := true } x.2.2 n = true
      (Turn e → FaultsAt i e 0x07 ea fun l => ¬ refused l) ∧
      ((∀ l, ¬ refused l) →
        (e.sel.serial = true → Retires i e (performAll e.sig.ctx e.s acc).2) ∧
        (e.s.det e.sig.ctx = false → e.sel.serial = false →
          (e.core.outst + acc.length < 2 ^ 32 → Retires i e
            (if m.sc then (sent e [] acc.length).queueSc (acc.map fun a => e.scOf a none true)
             else sent e (acc.map fun a => e.pendOf a 1 none) acc.length)) ∧
          (2 ^ 32 ≤ e.core.outst + acc.length → Waits i e)))
    let held := fun (i : Instr) => e.s.det e.sig.ctx = true → e.sel.serial = false → Held i e
    let bPos : Pos := { kinds := [.v, .s, .idx, .imm, .zero], fp := m.opc == 8 }
    (e.ops4Ok o { kinds := [.v, .idx, .zero] } { kinds := [.v, .s] } bPos unused = true →
      (o.d = .zero → held (.atom h o m)) ∧
      (o.d ≠ .zero ∨ Turn e → ChecksFirst (.atom h o m) e need (wants e ea n)) ∧
      ∀ ps, reach ps → (o.d ≠ .zero → awaits (.atom h o m) (rmw ps)) ∧ (o.d = .zero → updates (.atom h o m) ps)) ∧
    (e.ops4Ok o unused { kinds := [.v, .s] } bPos unused = true →
      held (.red h o m) ∧
      (Turn e → ChecksFirst (.red h o m) e need (wants e ea n)) ∧
      ∀ ps, reach ps → updates (.red h o m) ps) ∧
    (e.ops4Ok o { kinds := [.v, .idx, .zero] } { kinds := [.v, .s] } srcPos srcPos = true →
      ChecksFirst (.cas h o m) e need (wants e ea n) ∧ ∀ ps, reach ps → awaits (.cas h o m) (cas ps))

/-- R267, R268, R428: CFLUSH, CINV, PREF and ICINV. A flush or an invalidation of lines is counted as outstanding until it
is complete. Both wait at their PC while writes of the path are unperformed, and for room in the counter: that wait is the
model's choice (log entry 14). A range that leaves the space raises ACCESS; that t2 is its first address outside is the model's
reading (log entry 35). An invalidation of instructions drops the lines that the range touches and nothing else, a prefetch changes no memory,
no core and no register. -/
def Obligations.CacheInstructions : Prop :=
  ∀ (s : State) (h : Hdr) (o : Ops4) (m : PrefMod) (e : Env), Issues s h o.list e →
    let a := (e.uni o.a).toNat
    let n := (e.uni o.b).toNat
    let va := a / 128 * 128
    let len := (a + n + 127) / 128 * 128 - va
    let need : Need := { r := true, noHost := true, noPeer := true }
    let range := fun (i : Instr) (inv : Bool) =>
      (n = 0 → Retires i e e.s) ∧
      (2 ^ 36 < n → Raises i e ⟨0x02, 0, none⟩) ∧
      (0 < n → n ≤ 2 ^ 36 → 2 ^ 54 < va + len → Raises i e ⟨0x07, BitVec.ofNat 64 (max va (2 ^ 54)), none⟩) ∧
      (0 < n → n ≤ 2 ^ 36 → va + len ≤ 2 ^ 54 → ChecksFirst i e need (unitWants va len) ∧
        ∀ ps, e.s.reach e.sig.ctx need anyPage (unitWants va len) = .ok ps →
          let own := ∃ c ∈ e.s.cores, ∃ w ∈ c.2.pend, w.uid = e.sig.uid ∧ w.posted = false ∧ w.mask &&& e.path.mask ≠ 0
          (¬ own → e.core.outst + 1 < 2 ^ 32 → Retires i e (e.s.modCore e.sel.core fun k =>
            { k with flushes := k.flushes ++ [⟨e.sig.ctx, e.sig.grid, inv, va, len, []⟩], outst := k.outst + 1 })) ∧
          (own ∨ 2 ^ 32 ≤ e.core.outst + 1 → Waits i e))
    (e.ops4Ok o unused { kinds := [.s] } { kinds := [.s, .imm] } unused = true →
      range (.cflush h o) false ∧ range (.cinv h o) true ∧
      let k := match o.b with | .imm i => i.toNat | _ => n
      (k ≤ 2 ^ 36 → ∃ t, Retires (.icinv h o) e t ∧ t = { e.s with ctxs := t.ctxs } ∧ ∀ c,
        t.ctx c = { e.s.ctx c with icache := (t.ctx c).icache } ∧
        (c ≠ e.sig.ctx → t.ctx c = e.s.ctx c) ∧
        ∀ x, x ∈ (t.ctx e.sig.ctx).icache ↔ x ∈ (e.s.ctx e.sig.ctx).icache ∧ (k = 0 ∨ 128 * x.1 + 128 ≤ a ∨ a + k ≤ 128 * x.1)) ∧ (2 ^ 36 < k → Raises (.icinv h o) e ⟨0x02, 0, none⟩)) ∧
    (e.ops4Ok o unused { kinds := [.v, .s] } { kinds := [.s, .imm] } unused = true →
      ∃ t, Retires (.pref h o m) e t ∧ t = { e.s with fills := t.fills, l2 := t.l2 })

/-- R275 to R277, R292, R293: BIND, ACQ and REL on a clasp. A cell is known by its virtual address: the clasp is held wherever
its page lies now. A release goes to the signature that has waited longest. REL waits at its PC for the stores that come before
it (the model's choice, log entry 14). -/
def Obligations.Clasps : Prop :=
  ∀ (s : State) (h : Hdr) (o : Ops4) (bm : BindMod) (m : SyMod) (e : Env) (pa : Nat), Issues s h o.list e → Turn e →
    s.memOk = true → AtCell e o.a pa →
    let cell := e.s.cell pa
    let base := (e.uni o.b).toNat
    let len := uVal e o.c
    let va := (e.uni o.a).toNat
    let mine := e.s.holderAt e.sig.ctx pa = some e.sig.uid
    let clasp : Trap := ⟨0x18, 0, none⟩
    (e.ops4Ok o unused { kinds := [.s] } { kinds := [.s] } { kinds := [.s, .imm] } = true →
      (base % 128 ≠ 0 ∨ len % 128 ≠ 0 ∨ 2 ^ 36 < len → Raises (.bind h o bm) e ⟨0x02, 0, none⟩) ∧
      (base % 128 = 0 → len % 128 = 0 → len ≤ 2 ^ 36 → base < 2 ^ 54 → base + len ≤ 2 ^ 54 →
        (bm.kind = true → cell.kind ≠ 2 → Raises (.bind h o bm) e clasp) ∧
        (bm.kind = true → cell.kind = 2 → ∃ t, Retires (.bind h o bm) e t ∧ OnlyCell e.s t pa ∧
          t.cell pa = { cell with rbase := base, rlen := len }) ∧
        (bm.kind = false → 1 < cell.kind ∨ cell.state = 1 → Raises (.bind h o bm) e clasp) ∧
        (bm.kind = false → cell.kind ≤ 1 → cell.state ≠ 1 → ∃ t, Retires (.bind h o bm) e t ∧
          OnlyCell e.s t pa ∧
          t.cell pa = { cell with kind := 1, state := 0, gen := 0, hgrid := 0, hwho := 0, rbase := base, rlen := len }))) ∧
    (e.ops4Ok o unused { kinds := [.s] } unused unused = true →
      (cell.kind ≠ 1 ∨ cell.state = 2 ∨ cell.state = 1 ∧ mine → Raises (.acq h o m) e clasp) ∧
      (cell.kind = 1 → cell.state = 0 → ∃ t, Retires (.acq h o m) e t ∧ OnlyCell e.s t pa ∧
        (t.cell pa).state = 1 ∧ (t.cell pa).gen = (cell.gen + 1) % 2 ^ 32 ∧ (t.cell pa).hgrid = e.sig.grid % 2 ^ 64 ∧
        (t.cell pa).hwho = e.sig.hwho % 2 ^ 64 ∧ t.holders =
          AMap.set (e.s.holders.filter fun x => !e.s.holdsAt e.sig.ctx pa x) (claspKey e.sig.ctx va) e.sig.uid) ∧
      (cell.kind = 1 → cell.state = 1 → ¬ mine →
        let p : PartSpec := { reason := 0x04, evkey := e.uni o.a, resume := e.next, wait := .acq va m.sy }
        (∃ u, e.part e.s p = .ok u) → Parts (.acq h o m) e e.s p) ∧
      (cell.kind ≠ 1 ∨ cell.state ≠ 1 ∨ ¬ mine → Raises (.rel h o m) e clasp) ∧
      (cell.kind = 1 → cell.state = 1 → mine →
        (m.oc = true → e.core.outst ≠ 0 →
          let p : PartSpec := { reason := 0x05, evkey := BitVec.ofNat 64 e.sel.core, resume := e.next, wait := .relOc va e.sig.uid m.sy }
          (∃ u, e.part e.s p = .ok u) → Parts (.rel h o m) e e.s p) ∧
        (m.oc = false ∨ e.core.outst = 0 →
          (e.s.releaseWaits e.sig.uid m.sy = true → Waits (.rel h o m) e) ∧
          (e.s.releaseWaits e.sig.uid m.sy = false →
            let waiters := e.s.waiters e.sig.ctx (e.s.waitsClasp e.sig.ctx pa)
            let t := e.s.freeClasp e.sig.ctx va pa
            Retires (.rel h o m) e t ∧
            (waiters = [] → OnlyCell e.s t pa ∧ t.cell pa = { cell with state := 0, hgrid := 0, hwho := 0 }) ∧
            (∀ w ∈ waiters, (∀ x ∈ waiters, x = w ∨ w.1 < x.1) → t = (e.s.grantTo va pa w.2).wakeCtx e.sig.ctx fun x =>
              if x.born = w.1 ∧ e.s.waitsClasp e.sig.ctx pa x = true then some 0 else none)))))

/-- R141, R294 to R297: FENCE, OCWAIT, RVWAIT and MBWAIT. Each retires where what it waits for has come about, and else
parts with its reason and event key. -/
def Obligations.OrderingWaits : Prop :=
  ∀ (s : State) (h : Hdr) (o : Ops4) (m : FenceMod) (e : Env), Issues s h o.list e →
    let parts := fun (i : Instr) (p : PartSpec) => (∃ u, e.part e.s p = .ok u) → Parts i e e.s p
    (e.ops4Ok o unused unused unused unused = true →
      let sy := m.scope == 4
      (e.s.fenced e.sig.uid e.path.mask sy = true → Retires (.fence h o m) e e.s) ∧
      (e.s.fenced e.sig.uid e.path.mask sy = false → parts (.fence h o m)
        { reason := 0x06, evkey := m.scope.setWidth 64, resume := e.next, wait := .fence e.sig.uid sy }) ∧
      (e.core.outst = 0 → Retires (.ocwait h o) e e.s) ∧
      (e.core.outst ≠ 0 → parts (.ocwait h o)
        { reason := 0x05, evkey := BitVec.ofNat 64 e.sel.core, resume := e.next, wait := .none })) ∧
    (∀ (key : Nat) (q : Quire) (p : RvPoint), e.ops4Ok o unused { kinds := [.s, .imm] } { kinds := [.s, .imm] } unused = true →
      e.sig.quire = some key → e.quire = some q → q.points[uVal e o.a]? = some p →
      let ph := uVal e o.b % 2 ^ 32
      (p.expect = 0 → Raises (.rvwait h o) e ⟨0x02, 0, none⟩) ∧
      (p.expect ≠ 0 → p.poison ≠ 0 → Raises (.rvwait h o) e ⟨p.poison, 0, none⟩) ∧
      (p.expect ≠ 0 → p.poison = 0 → complete p.phase ph → Retires (.rvwait h o) e e.s) ∧
      (p.expect ≠ 0 → p.poison = 0 → ¬ complete p.phase ph → parts (.rvwait h o)
        { reason := 0x07, evkey := BitVec.ofNat 64 (uVal e o.a), evaux := BitVec.ofNat 64 ph, resume := e.next, wait := .none })) ∧
    (∀ pa : Nat, e.ops4Ok o unused { kinds := [.s] } { kinds := [.s, .imm] } unused = true → AtCell e o.a pa →
      let cell := e.s.cell pa
      let g := uVal e o.b % 2 ^ 32
      (cell.kind ≠ 2 → Raises (.mbwait h o) e ⟨0x18, 0, none⟩) ∧
      (cell.kind = 2 → complete cell.gen g → Retires (.mbwait h o) e e.s) ∧
      (cell.kind = 2 → ¬ complete cell.gen g → parts (.mbwait h o)
        { reason := 0x08, evkey := e.uni o.a, evaux := BitVec.ofNat 64 g, resume := e.next, wait := .membar (e.uni o.a).toNat g }))

/-- R281, R282, R296: RVINIT sets a point; RVARR counts an arrival, writes the phase where D is an s register, and the last
arrival of a phase whose bytes have all come opens the next phase. An arrival that overruns the phase, or leaves more bytes
delivered than declared, poisons the point and then raises RVOVR. RVARR waits at its PC while plain stores of the path are
unperformed: that wait is the model's choice (log entry 14). -/
def Obligations.RendezvousPoints : Prop :=
  ∀ (s : State) (h : Hdr) (o : Ops4) (e : Env) (key : Nat) (q : Quire) (p : RvPoint), Issues s h o.list e → Turn e →
    e.sig.quire = some key → e.quire = some q → q.points[uVal e o.a]? = some p →
    let n := uVal e o.a
    let b := uVal e o.b
    let put := fun (x : RvPoint) => e.s.modQuire e.sel.core key fun z => { z with points := z.points.set n x }
    (e.ops4Ok o unused { kinds := [.s, .imm] } { kinds := [.s, .imm] } unused = true →
      (b < 1 ∨ 65535 < b ∨ e.pointAwaited q n = true ∨ e.s.names e.sel.core key (· == n) = true →
        Raises (.rvinit h o) e ⟨0x02, 0, none⟩) ∧
      (1 ≤ b → b ≤ 65535 → e.pointAwaited q n = false → e.s.names e.sel.core key (· == n) = false →
        Retires (.rvinit h o) e (put ⟨0, b, 0, 0, 0, 0⟩))) ∧
    (e.ops4Ok o { kinds := [.s, .zero] } { kinds := [.s, .imm] } { kinds := [.s, .imm, .zero] } unused = true →
      (p.expect = 0 → Raises (.rvarr h o) e ⟨0x02, 0, none⟩) ∧
      (p.expect ≠ 0 → e.storesLeft = true → Waits (.rvarr h o) e) ∧
      (p.expect ≠ 0 → e.storesLeft = false →
        let bytes := (p.expb + b) % 2 ^ 64
        let after := fun (x : RvPoint) => match o.d with
          | .s d _ _ => e.writeS (put x) d.toNat (BitVec.ofNat 64 p.phase)
          | _ => put x
        let gives := fun (x : RvPoint) => Retires (.rvarr h o) e (after x)
        let overrun := fun (x : RvPoint) =>
          exec (.rvarr h o) e.s = .next (Env.raise { e with s := after { x with poison := 0x0C } } ⟨0x0C, 0, none⟩)
        (p.poison ≠ 0 → Raises (.rvarr h o) e ⟨p.poison, 0, none⟩) ∧
        (p.poison = 0 → p.arr = p.expect → overrun p) ∧
        (p.poison = 0 → p.arr ≠ p.expect → p.arr + 1 ≠ p.expect → gives { p with arr := p.arr + 1, expb := bytes }) ∧
        (p.poison = 0 → p.arr + 1 = p.expect → p.deliv < bytes → gives { p with arr := p.expect, expb := bytes }) ∧
        (p.poison = 0 → p.arr + 1 = p.expect → p.deliv = bytes →
          gives { p with phase := (p.phase + 1) % 2 ^ 32, arr := 0, expb := 0, deliv := 0 }) ∧
        (p.poison = 0 → p.arr + 1 = p.expect → bytes < p.deliv → overrun { p with arr := p.expect, expb := bytes })))

/-- R275, R279, R297: MBINIT sets a barrier, and every record that waits on the cell relaunches carrying CLASP; MBARR makes k
arrivals at it, each that brings the count to EXPECT begins the next generation, and writes the generation it found where D is an s
register. It waits at its PC for the path's earlier plain stores, with .sy also for the signature's writes to apertures: that wait
is the model's choice (log entry 14). -/
def Obligations.MemoryBarriers : Prop :=
  ∀ (s : State) (h : Hdr) (o : Ops4) (m : SyMod) (e : Env) (pa : Nat), Issues s h o.list e → Turn e → s.memOk = true →
    AtCell e o.a pa →
    let cell := e.s.cell pa
    let b := uVal e o.b
    (e.ops4Ok o unused { kinds := [.s] } { kinds := [.s, .imm] } unused = true →
      (b < 1 ∨ 2 ^ 32 - 1 < b → Raises (.mbinit h o) e ⟨0x02, 0, none⟩) ∧
      (1 ≤ b → b ≤ 2 ^ 32 - 1 → cell.kind = 1 ∧ cell.state = 1 → Raises (.mbinit h o) e ⟨0x18, 0, none⟩) ∧
      (1 ≤ b → b ≤ 2 ^ 32 - 1 → ¬ (cell.kind = 1 ∧ cell.state = 1) →
        let new : Cell := { cell with kind := 2, state := 0, expect := b, count := 0, gen := 0, rbase := 0, rlen := 0 }
        let t := (e.s.wakeCtx e.sig.ctx fun r => if e.s.waitsCell e.sig.ctx pa r then some 0x18 else none).setCell pa new
        Retires (.mbinit h o) e t ∧ OnlyCell e.s t pa ∧ t.cell pa = new)) ∧
    (e.ops4Ok o { kinds := [.s, .zero] } { kinds := [.s] } { kinds := [.s, .imm, .zero] } unused = true →
      let k := if o.b = .zero then 1 else b
      (cell.kind ≠ 2 → Raises (.mbarr h o m) e ⟨0x18, 0, none⟩) ∧
      (cell.kind = 2 → k < 1 ∨ 65535 < k → Raises (.mbarr h o m) e ⟨0x02, 0, none⟩) ∧
      (cell.kind = 2 → 1 ≤ k → k ≤ 65535 → e.storesLeft = true ∨ m.sy = true ∧ e.s.apertureLeft e.sig.uid = true →
        Waits (.mbarr h o m) e) ∧
      (cell.kind = 2 → 1 ≤ k → k ≤ 65535 → e.storesLeft = false → (m.sy = true → e.s.apertureLeft e.sig.uid = false) →
        ∃ t, Retires (.mbarr h o m) e t ∧ OnlyCell e.s t pa ∧
          (∃ g, t.sig? e.sel.core e.sel.slot = some g ∧ g.s = match o.d with
            | .s d _ _ => e.now.s.setIfInBounds d.toNat (BitVec.ofNat 64 cell.gen)
            | _ => e.now.s) ∧
          t.cell pa = (List.range k).foldl (fun (c : Cell) _ => if (c.count + 1) % 2 ^ 32 = c.expect then
            { c with count := 0, gen := (c.gen + 1) % 2 ^ 32 } else { c with count := (c.count + 1) % 2 ^ 32 }) cell))

/-- R155, R156, R158: handles. A new operation is PENDING, under a serial number of its own; HWAIT, HTEST, HSTAT and HCANCEL
check the handle, HMOV its form. -/
def Obligations.Handles : Prop :=
  (∀ (s : State) (kind unit ctx : Nat), kind < 16 → unit < 256 → ctx < 1024 → (s.hunit kind unit ctx).next < 2 ^ 40 →
    let x := s.newHandle kind unit ctx
    x.1 = (s.hunit kind unit ctx).next ∧ (x.2.hunit kind unit ctx).next = x.1 + 1 ∧
    (x.2.handleState (handleVal kind unit ctx x.1)).code = 0) ∧
  (∀ (s : State) (h : Hdr) (o : Ops4) (e : Env) (n : BitVec 4), Issues s h o.list e →
    let x := e.sig.hreg n.toNat
    let st := e.s.handleState x
    let hp : Pos := { kinds := [.h] }
    let checked := fun (i : Instr) (good : Prop) =>
      (e.s.handleOk e.sig.ctx x = false → Raises i e ⟨0x11, 0, none⟩) ∧ (e.s.handleOk e.sig.ctx x = true → good)
    (o.a = .h n → e.ops4Ok o unused hp unused unused = true →
      let p : PartSpec := { reason := 0x09, evkey := x, resume := e.next, wait := .none }
      checked (.hwait h o) ((st.code ≠ 0 → Retires (.hwait h o) e e.s) ∧
        (st.code = 0 → (∃ u, e.part e.s p = .ok u) → Parts (.hwait h o) e e.s p)) ∧
      checked (.hcancel h o) (Retires (.hcancel h o) e (e.s.cancelHandle x))) ∧
    (o.a = .h n → e.ops4Ok o { kinds := [.p] } hp unused unused = true →
      checked (.htest h o) (GivesPred (.htest h o) e o.d fun _ => if st.code = 0 then .f else .t)) ∧
    (o.a = .h n → e.ops4Ok o { kinds := [.v, .s] } hp unused unused = true →
      checked (.hstat h o) (Retires (.hstat h o) e (e.writeUni e.s o.d (BitVec.ofNat 64
        (st.code + 2 ^ 8 * (if st.code = 3 then st.cause % 2 ^ 8 else 0) + 2 ^ 32 * (st.detail % 2 ^ 32)))))) ∧
    (o.d = .h n → e.ops4Ok o hp { kinds := [.s] } unused unused = true →
      let y := (e.uni o.a).toNat
      let ok := 1 ≤ y / 2 ^ 60 ∧ y / 2 ^ 60 ≤ 5 ∧ y / 2 ^ 40 % 1024 = e.sig.ctx ∧ y / 2 ^ 50 % 4 = 0
      (ok → Retires (.hmov h o) e (e.writeH e.s n.toNat (e.uni o.a))) ∧ (¬ ok → Raises (.hmov h o) e ⟨0x11, 0, none⟩)) ∧
    (∀ d neg abs, o.d = .s d neg abs → o.a = .h n → e.ops4Ok o { kinds := [.s] } hp unused unused = true →
      Retires (.hmov h o) e (e.writeS e.s d.toNat x)))

/-- R159 to R164, R167 to R169: TSPAWN pushes one task for each active lane, in ascending order, where there is room for all
of them, and else parts; TARG reads the lane's task header; DLAUNCH by signature 0 of a quire puts a copy of the launch block
into a device queue that has room, with its depth one more than the grid's, and gives a handle of kind 5 where D names an h
register; where the queue is full and its overflow is not, into the overflow, and parts with reason LAUNCH. DLAUNCH waits at its
PC while plain stores of the path are unperformed: that wait is the model's choice (log entry 14). -/
def Obligations.TasksAndLaunches : Prop :=
  (∀ (s : State) (h : Hdr) (o : Ops4) (m : TspMod) (e : Env) (g : Grid), Issues s h o.list e → e.s.feat e.sig.ctx 7 = true →
     e.grid = some g →
     let n := m.n.toNat + 1
     let entry := fun (l : Lane) => (e.raw o.b)[l]
     let task := fun (l : Lane) =>
       ({ entry := (entry l).toNat, flags := (e.raw o.c)[l].toNat % 256, origin := 0, core := e.sel.core, grid := e.sig.grid
          payload := (List.range n).map fun i => (e.rawAt immWord i o.a)[l], parked := false } : Task)
     let ts := (lanesOf e.act).map task
     (e.ops4Ok o unused dstPos { kinds := [.v, .s, .imm] } { kinds := [.v, .s, .imm, .zero] } = true → Turn e →
       (g.blk.tasktab = 0 → Raises (.tspawn h o m) e ⟨0x02, 0, none⟩) ∧
       (g.blk.tasktab ≠ 0 → e.groupOk o.a n = true → e.indexFault [(o.a, false)] = none →
         ((∃ l, Active e l ∧ 255 < (entry l).toNat) → Raises (.tspawn h o m) e ⟨0x02, 0, none⟩) ∧
         ((∀ l, Active e l → (entry l).toNat ≤ 255) →
           (e.s.taskRoom e.sig.ctx e.sel.core ts.length = true →
             Retires (.tspawn h o m) e (ts.foldl (fun (t : State) x => t.pushTask e.sig.ctx x) e.s)) ∧
           (e.s.taskRoom e.sig.ctx e.sel.core ts.length = false →
             let p : PartSpec := { reason := 0x0E, evkey := 0, resume := e.next, wait := .spawn ts }
             (∃ u, e.part e.s p = .ok u) → Parts (.tspawn h o m) e e.s p)))) ∧
     (∀ i : BitVec 12, o.a = .imm i → i.toNat ≤ 1 → e.ops4Ok o dstPos { kinds := [.imm] } unused unused = true →
       e.indexFault [(o.d, false)] = none →
       GivesRow (.targ h o) e o.d fun l => match AMap.get? e.sig.tasks l.val with
         | some (a, b) => if i = 0 then a else b
         | none => 0)) ∧
  (∀ (s : State) (h : Hdr) (o : Ops4) (m : DlMod) (e : Env) (key : Nat) (g : Grid),
     Issues s h o.list e → Turn e → e.s.feat e.sig.ctx 8 = true →
     e.ops4Ok o { kinds := [.h, .zero] } { kinds := [.s] } unused unused = true →
     e.sig.quire = some key → e.grid = some g →
     let ctx := e.sig.ctx
     let ws : List Want := (List.range 4).map fun i => ⟨0, e.uni o.a + BitVec.ofNat 64 (64 * i), 64⟩
     (e.sig.sigix ≠ 0 → Raises (.dlaunch h o m) e ⟨0x02, 0, none⟩) ∧
     (e.sig.sigix = 0 → g.blk.depth = 10 → Raises (.dlaunch h o m) e ⟨0x12, 0, none⟩) ∧
     (e.sig.sigix = 0 → g.blk.depth ≠ 10 → ChecksFirst (.dlaunch h o m) e { r := true } ws) ∧
     ∀ (ps : List Place) (block : List Byte × State), e.sig.sigix = 0 → g.blk.depth ≠ 10 →
     e.s.reach ctx { r := true } anyPage ws = .ok ps → State.readPlaces 64 e.s ps = some block →
     (e.storesLeft = true → Waits (.dlaunch h o m) e) ∧ (e.storesLeft = false →
     let q := m.q.toNat
     let d := AMap.getD (e.s.ctx ctx).devq q DevQ.init
     let child := (block.2.hunit 5 0 ctx).next
     let hnd := match o.d with
       | .h n => e.writeH (block.2.newHandle 5 0 ctx).2 n.toNat (handleVal 5 0 ctx child)
       | _ => block.2
     let info : QMeta := ⟨e.sig.grid, (match o.d with | .h _ => some child | _ => none), serialKey e, false⟩
     let queued := hnd.modCtx ctx fun c => { c with devq := AMap.set c.devq q { d with info := d.info ++ [info], len := d.len + 1 } }
     (d.len < 256 → ∀ t,
       queued.areaWrite ctx (e.s.regN ctx 0x0E + q * 65536 + 256 * ((d.head + d.len) % 256))
         (setField block.1 4 1 (g.blk.depth + 1)) = .ok t →
       Retires (.dlaunch h o m) e t) ∧
     let blocks := e.s.regN ctx 0x10 / 16 / 256
     let more := hnd.modCtx ctx fun c => { c with devq := AMap.set c.devq q { d with info := d.info ++ [info], olen := d.olen + 1 } }
     (256 ≤ d.len → d.olen < blocks → ∀ t,
       more.areaWrite ctx (e.s.regN ctx 0x0F + q * (e.s.regN ctx 0x10 / 16) + 256 * ((d.ohead + d.olen) % blocks))
         (setField block.1 4 1 (g.blk.depth + 1)) = .ok t →
       let p : PartSpec := { reason := 0x0D, evkey := BitVec.ofNat 64 q, resume := e.next, wait := .launch (d.head + d.len + d.olen) }
       (∃ u, e.part t p = .ok u) → Parts (.dlaunch h o m) e t p) ∧
     (256 ≤ d.len → blocks ≤ d.olen → Raises (.dlaunch h o m) e ⟨0x0E, 0, none⟩)))

/-- R298, R301, R302: COPY and COPYX with each completion: none, a point, a task, a word. The path waits while its core's copy
queue is full; spaces that it may not name raise ACCESS, a point or task table that is not there what R281 and R161 say; else the
operation joins the queue with a new handle. The wait for the path's own plain stores is the model's choice (log entry 14), and so
is t2 = 0 of ACCESS (log entry 35). -/
def Obligations.CopyInstructions : Prop :=
  ∀ (s : State) (h : Hdr) (o : Ops4) (m : CpMod) (e : Env), Issues s h o.list e →
    let cl := e.sel.core / 12
    let ss := m.sspace.toNat
    let ds := m.dspace.toNat
    let ck := m.ck.toNat
    let full := 16 ≤ ((e.s.cluster cl).copies.filter fun x => x.core == e.sel.core).length
    let on := fun (i : Instr) (expand : Bool) =>
      let refused := ss = 2 ∨ ss = 3 ∨ ds = 4 ∨ expand = true ∧ ss ≠ 0 ∨ e.sig.quire = none ∧ (ss ≠ 0 ∨ ds ≠ 0 ∨ ck = 1)
      (full → Waits i e) ∧ (¬ full → refused → Raises i e ⟨0x07, 0, none⟩) ∧
      (¬ full → ¬ refused → ck = 1 → ∀ key q, e.sig.quire = some key → e.quire = some q →
        (q.points.length ≤ uVal e o.c → Raises i e ⟨0x07, 0, none⟩) ∧
        (∀ p, q.points[uVal e o.c]? = some p → p.expect = 0 → Raises i e ⟨0x02, 0, none⟩)) ∧
      (¬ full → ¬ refused → ck = 2 → (∀ g, e.grid = some g → g.blk.tasktab = 0) → Raises i e ⟨0x02, 0, none⟩) ∧
      (¬ full → ¬ refused → (ck = 1 → PointOk e (uVal e o.c)) → (ck = 2 → ∃ g, e.grid = some g ∧ g.blk.tasktab ≠ 0) →
        (e.storesLeft = true → Waits i e) ∧
        (e.storesLeft = false → Retires i e ((started e o.d 1 cl).modCluster cl fun k => { k with
          nextId := k.nextId + 1
          copies := k.copies ++ [{
            id := k.nextId, unit := cl, core := e.sel.core, ctx := e.sig.ctx, grid := e.sig.grid, quire := e.sig.quire
            seq := nextSeq e 1 cl, expand := expand, sspace := ss, dspace := ds, ck := ck, a := e.uni o.a, b := e.uni o.b
            c := if ck = 0 then 0 else if ck = 1 then BitVec.ofNat 64 (uVal e o.c) else e.uni o.c
            order := serialKey e, plan := none, task := none, written := 0, scales := [], supers := [], page := none
            cancel := false }] })))
    (ck = 2 → e.s.feat e.sig.ctx 7 = true) →
    e.ops4Ok o { kinds := [.h, .zero] } { kinds := [.s] } { kinds := [.s] }
      (if ck = 0 then unused else if ck = 1 then { kinds := [.s, .imm] } else { kinds := [.s] }) = true →
    on (.copy h o m) false ∧ (e.s.feat e.sig.ctx 4 = true → on (.copyx h o m) true)

/-- R320, R324 to R328, R334: MMA, MMAS and MZERO. The path waits while its quire's matrix queue is full; a panel or tile that is
not aligned, or leaves the quire's reservations, raises MISALIGN or ACCESS; else the command joins the queue with a new handle. The
address or offset that t2 gives of these faults is the model's reading (log entry 35). -/
def Obligations.MatrixInstructions : Prop :=
  ∀ (s : State) (h : Hdr) (o : Ops4) (m : MmMod) (z : MzMod) (e : Env) (key : Nat), Issues s h o.list e →
    e.sig.quire = some key →
    let cl := e.sel.core / 12
    let queue := (e.s.cluster cl).mats.filter fun x => x.core == e.sel.core && x.quire == key
    let joins := fun (i : Instr) (op : MatOp) => Retires i e ((started e o.d 2 cl).modCluster cl fun k => { k with
      nextId := k.nextId + 1, mats := k.mats ++ [{ op with id := k.nextId }] })
    let blank : MatOp := { MatOp.blank .mma with
      unit := cl, core := e.sel.core, ctx := e.sig.ctx, grid := e.sig.grid, quire := key, seq := nextSeq e 2 cl, order := serialKey e }
    let a := (e.uni o.a).toNat
    let b := (e.uni o.b).toNat
    let c := (e.uni o.c).toNat
    let k := MatCtl.parse c
    let n := 64 * 2 ^ m.nsel.toNat
    let on := fun (i : Instr) (sparse : Bool) =>
      (16 ≤ queue.length → Waits i e) ∧
      (∀ p, queue.length < 16 → MatShape.of c sparse n = some p →
        ((k.af = 2 ∧ k.bf = 2 → e.s.feat e.sig.ctx 1 = true) ∧ (14 ≤ k.af ∨ 14 ≤ k.bf → e.s.feat e.sig.ctx 9 = true) ∧
          (k.mx = true → e.s.feat e.sig.ctx 10 = true)) →
        a < 2 ^ 17 → (m.g = false → b < 2 ^ 19) → c < 2 ^ 51 → (k.rve = false → k.rvn = 0) → k.rvn < 24 → k.nstep ≠ 0 →
        (if sparse then k.nk ≠ 3 ∧ sparseOk k.af k.bf k.mx = true else k.nk = 0) →
        (a % 64 ≠ 0 → Raises i e ⟨0x05, e.uni o.a, none⟩) ∧
        (a % 64 = 0 → b % (if m.g then 128 else 64) ≠ 0 → Raises i e ⟨0x05, e.uni o.b, none⟩) ∧
        (a % 64 = 0 → b % (if m.g then 128 else 64) = 0 → k.coff % 1024 ≠ 0 → Raises i e ⟨0x05, BitVec.ofNat 64 k.coff, none⟩) ∧
        (a % 64 = 0 → b % (if m.g then 128 else 64) = 0 → k.coff % 1024 = 0 →
          ((e.reserved 2).2 < a + p.endA → Raises i e ⟨0x07, e.uni o.a, none⟩) ∧
          (a + p.endA ≤ (e.reserved 2).2 → m.g = false → (e.reserved 1).2 < b + p.endB → Raises i e ⟨0x07, e.uni o.b, none⟩) ∧
          (a + p.endA ≤ (e.reserved 2).2 → (m.g = false → b + p.endB ≤ (e.reserved 1).2) → (e.reserved 3).2 < k.coff + p.bytesC →
            Raises i e ⟨0x07, BitVec.ofNat 64 k.coff, none⟩) ∧
          (a + p.endA ≤ (e.reserved 2).2 → (m.g = false → b + p.endB ≤ (e.reserved 1).2) →
            k.coff + p.bytesC ≤ (e.reserved 3).2 → (k.rve = true → PointOk e k.rvn) →
            joins i { blank with kind := if sparse then .mmas else .mma, n := n, acc := m.acc, g := m.g
                                 a := e.uni o.a, b := e.uni o.b, c := e.uni o.c })))
    (e.ops4Ok o { kinds := [.h, .zero] } { kinds := [.s] } { kinds := [.s] } { kinds := [.s] } = true →
      on (.mma h o m) false ∧ (e.s.feat e.sig.ctx 2 = true → on (.mmas h o m) true)) ∧
    (e.ops4Ok o { kinds := [.h, .zero] } { kinds := [.s] } { kinds := [.s, .imm] } unused = true → queue.length < 16 →
      let len := uVal e o.b
      (len < 1 ∨ 256 < len → Raises (.mzero h o z) e ⟨0x02, 0, none⟩) ∧
      (1 ≤ len → len ≤ 256 → a % 1024 ≠ 0 → Raises (.mzero h o z) e ⟨0x05, e.uni o.a, none⟩) ∧
      (1 ≤ len → len ≤ 256 → a % 1024 = 0 → (e.reserved 3).2 < a + 1024 * len → Raises (.mzero h o z) e ⟨0x07, e.uni o.a, none⟩) ∧
      (1 ≤ len → len ≤ 256 → a % 1024 = 0 → a + 1024 * len ≤ (e.reserved 3).2 →
        joins (.mzero h o z) { blank with kind := .mzero, iv := z.iv, a := e.uni o.a, b := BitVec.ofNat 64 len }))

/-- R402, R403, R389, R436: CFGLOAD, CFGRUN, CFGRUN.res, CFGDRAIN, CFGEVICT and RBLK. Each joins what its agent has to do,
those with a handle under a new one; a stack above 11 or a key above 255 raises OPERAND. CFGLOAD, CFGRUN, CFGRUN.res and RBLK wait at
their PC while plain stores of the path are unperformed: that wait is the model's choice (log entry 14). -/
def Obligations.ArrayAndReductionInstructions : Prop :=
  ∀ (s : State) (h : Hdr) (o : Ops4) (m : SlotMod) (e : Env), Issues s h o.list e →
    let ctx := e.sig.ctx
    let u : Pos := { kinds := [.s, .imm] }
    let hz : Pos := { kinds := [.h, .zero] }
    let st := uVal e o.c
    let seq := nextSeq e 3 st
    let va := e.uni o.a
    let sends := fun (i : Instr) (op : CfgOp) =>
      Retires i e ((started e o.d 3 st).modStack st fun t => { t with ctl := t.ctl ++ [op] })
    (e.s.feat ctx 3 = true → 11 < st →
      let bad := fun (i : Instr) => Raises i e ⟨0x02, 0, none⟩
      (e.ops4Ok o hz { kinds := [.s] } u u = true → bad (.cfgload h o)) ∧
      (e.ops4Ok o hz u { kinds := [.s, .zero] } u = true → bad (.cfgrun h o m)) ∧
      (e.ops4Ok o unused u { kinds := [.s] } u = true → bad (.cfgrunRes h o m)) ∧
      (e.ops4Ok o hz { kinds := [.s] } unused u = true → bad (.cfgdrain h o m)) ∧
      (e.ops4Ok o hz u unused u = true → bad (.cfgevict h o))) ∧
    (e.s.feat ctx 3 = true →
      (e.ops4Ok o hz { kinds := [.s] } u u = true → 255 < uVal e o.b → Raises (.cfgload h o) e ⟨0x02, 0, none⟩) ∧
      (255 < uVal e o.a →
        (e.ops4Ok o hz u { kinds := [.s, .zero] } u = true → Raises (.cfgrun h o m) e ⟨0x02, 0, none⟩) ∧
        (e.ops4Ok o unused u { kinds := [.s] } u = true → Raises (.cfgrunRes h o m) e ⟨0x02, 0, none⟩) ∧
        (e.ops4Ok o hz u unused u = true → Raises (.cfgevict h o) e ⟨0x02, 0, none⟩))) ∧
    (e.s.feat ctx 3 = true → st ≤ 11 →
      (e.ops4Ok o hz { kinds := [.s] } u u = true → uVal e o.b ≤ 255 →
        (va.toNat % 4096 ≠ 0 → Raises (.cfgload h o) e ⟨0x05, va, none⟩) ∧
        (va.toNat % 4096 = 0 → e.storesLeft = true → Waits (.cfgload h o) e) ∧
        (va.toNat % 4096 = 0 → e.storesLeft = false → sends (.cfgload h o) (.load ctx e.sig.grid seq va (uVal e o.b) (serialKey e)))) ∧
      (e.ops4Ok o hz u { kinds := [.s, .zero] } u = true → uVal e o.a ≤ 255 →
        ((e.uni o.b).toNat % 64 ≠ 0 → Raises (.cfgrun h o m) e ⟨0x05, e.uni o.b, none⟩) ∧
        ((e.uni o.b).toNat % 64 = 0 → e.storesLeft = false → sends (.cfgrun h o m)
          (.run m.slot.toNat ⟨ctx, e.sig.grid, seq, uVal e o.a, e.uni o.b, serialKey e, none, false,
            (match e.grid with | some g => g.blk.syncpg | none => []), []⟩))) ∧
      (e.ops4Ok o unused u { kinds := [.s] } u = true → uVal e o.a ≤ 255 →
        ((e.uni o.b).toNat % 4096 ≠ 0 → Raises (.cfgrunRes h o m) e ⟨0x05, e.uni o.b, none⟩) ∧
        ((e.uni o.b).toNat % 4096 = 0 → e.storesLeft = false → Retires (.cfgrunRes h o m) e (e.s.modStack st fun t =>
          { t with ctl := t.ctl ++ [.resume ctx e.sig.grid m.slot.toNat (uVal e o.a) (e.uni o.b) (serialKey e)] }))) ∧
      (e.ops4Ok o hz { kinds := [.s] } unused u = true →
        (va.toNat % 4096 ≠ 0 → Raises (.cfgdrain h o m) e ⟨0x05, va, none⟩) ∧
        (va.toNat % 4096 = 0 → sends (.cfgdrain h o m) (.drain ctx e.sig.grid seq m.slot.toNat va (serialKey e)))) ∧
      (e.ops4Ok o hz u unused u = true → uVal e o.a ≤ 255 →
        sends (.cfgevict h o) (.evict ctx e.sig.grid seq (uVal e o.a) (serialKey e)))) ∧
    (e.s.feat ctx 5 = true → e.ops4Ok o hz { kinds := [.s] } unused unused = true →
      (va.toNat % 64 ≠ 0 → Raises (.rblk h o) e ⟨0x05, va, none⟩) ∧
      (va.toNat % 64 = 0 → e.storesLeft = true → Waits (.rblk h o) e) ∧
      (va.toNat % 64 = 0 → e.storesLeft = false → Retires (.rblk h o) e ((started e o.d 4 0).modCtx ctx fun c =>
        { c with rblk := c.rblk ++ [{ seq := nextSeq e 4 0, grid := e.sig.grid, order := serialKey e, desc := va.toNat
                                      group := 0, k := 0, phase := 0, src := 0, dst := 0, nblk := 0, tag := 0, codes := []
                                      mants := [], got1 := [], got2 := [], page := none }] })))

/-- R411 to R413, R424 to R427: SRREG reads the register that the selector names, of every group: context registers; counters of a
pseudo-channel and budget registers, which read 0 where the context may not read them (R262); array cycles and partition slots; format
errors and the outstanding counter; peer windows. Counters that the model does not count, and array cycles, advance by an amount that is
not stated (log entries 5 and 46). SWREG writes FPCTL, and in a handler FRTAIL, COVBASE and COVSIZE, within their limits; of another
group it raises PRIV. A selector that names nothing raises OPERAND. FREC appends a record of source 8, and writes its index where D is
an s register. -/
def Obligations.SystemRegisters : Prop :=
  ∀ (s : State) (h : Hdr) (o : Ops2) (q : Ops4) (imm : BitVec 32) (e : Env),
    let sel := imm + (e.uni o.a).setWidth 32
    let num := sel.toNat % 256
    let sub_ := sel.toNat / 2 ^ 8 % 64
    let st := sel.toNat / 2 ^ 14 % 16
    let grp := sel.toNat / 2 ^ 18
    let listed := (grp = 1 ∧ num ≤ 0x1C ∧ st < 12) ∨ (grp = 2 ∧ num ≤ 0x0A ∧ st < 12) ∨ (grp = 3 ∧ num ≤ 8 ∧ sub_ = 0 ∧ st < 12) ∨
      (grp = 4 ∧ num ≤ 3 ∧ sub_ < 4 ∧ st = 0) ∨ (grp = 5 ∧ sub_ = 0 ∧ st = 0)
    let owner := fun (slot : Nat) => let r := (e.s.part st slot).reg; r.getLsbD 8 = true ∧ r.toNat / 2 ^ 10 % 1024 = e.sig.ctx
    let monitor := (e.s.reg e.sig.ctx 0x17).getLsbD 0 = true
    (Issues s h o.list e → e.indexFault [(o.d, false)] = none →
      (e.ops2Ok o { kinds := [.v, .s, .idx] } { kinds := [.s, .zero] } = true →
        (sel.toNat ≤ 0x22 → Retires (.srreg h o imm) e (e.writeUni e.s o.d (e.s.reg e.sig.ctx num))) ∧
        (0x23 ≤ sel.toNat → ¬ listed → Raises (.srreg h o imm) e ⟨0x02, 0, none⟩) ∧
        (listed →
          let chan := (e.s.stack st).chan sub_
          let reads := fun (v : Word64) => Retires (.srreg h o imm) e (e.writeUni e.s o.d v)
          let mayCount := monitor ∨ num = 0 ∨ (3 ≤ num ∧ num ≤ 0x0A ∧ owner (num - 3)) ∨ (0x0D ≤ num ∧ num ≤ 0x14 ∧ owner (num - 0x0D))
          let counted := (2 ≤ num ∧ num ≤ 0x0A) ∨ (0x18 ≤ num ∧ num ≤ 0x1A)
          let mayBudget := monitor ∨ (2 ≤ num ∧ num ≤ 9 ∧ owner (num - 2))
          (grp = 1 → ¬ mayCount → reads 0) ∧
          (grp = 1 → mayCount → counted → reads (AMap.getD chan.counters num 0)) ∧
          (grp = 1 → mayCount → ¬ counted → ∃ (d : Word64) (t : State), t = { e.s with memStacks := t.memStacks, free := t.free } ∧
            AMap.getD ((t.stack st).chan sub_).counters num 0 = AMap.getD chan.counters num 0 + d ∧
            Retires (.srreg h o imm) e (e.writeUni t o.d (AMap.getD chan.counters num 0 + d))) ∧
          (grp = 2 → ¬ mayBudget → reads 0) ∧
          (grp = 2 → mayBudget → reads (BitVec.ofNat 64 (chan.budget.getD num 0))) ∧
          (grp = 3 → num ≠ 0 → reads (e.s.part st (num - 1)).reg) ∧
          (grp = 3 → num = 0 → ∃ (d : Word64) (t : State), t = { e.s with memStacks := t.memStacks, free := t.free } ∧
            (t.stack st).acyc = (e.s.stack st).acyc + d ∧ Retires (.srreg h o imm) e (e.writeUni t o.d ((e.s.stack st).acyc + d))) ∧
          (grp = 4 → num = 0 → reads (e.core.port sub_).fmtErr) ∧
          (grp = 4 → num = 1 → reads (e.s.cluster (e.sel.core / 12)).copyErr) ∧
          (grp = 4 → num = 2 → reads (e.s.cluster (e.sel.core / 12)).matErr) ∧
          (grp = 4 → num = 3 → reads (BitVec.ofNat 64 e.core.outst)) ∧
          (grp = 5 → reads (AMap.getD (e.s.ctx e.sig.ctx).windows num 0)))) ∧
      (e.ops2Ok o { kinds := [.v, .s, .idx, .zero] } { kinds := [.s, .zero] } = true → ∀ l, lowest e.act = some l →
        let v := (e.raw o.d)[l]
        let writable := num = 0x01 ∨ e.path.handler = true ∧ (num = 0x08 ∨ num = 0x0A ∨ num = 0x0B)
        (0x23 ≤ sel.toNat → ¬ listed → Raises (.swreg h o imm) e ⟨0x02, 0, none⟩) ∧
        (listed → Raises (.swreg h o imm) e ⟨0x19, 0, none⟩) ∧
        (sel.toNat ≤ 0x22 → ¬ writable → Raises (.swreg h o imm) e ⟨0x19, 0, none⟩) ∧
        (sel.toNat ≤ 0x22 → writable → e.s.regOk e.sig.ctx num v = false → Raises (.swreg h o imm) e ⟨0x02, 0, none⟩) ∧
        (sel.toNat ≤ 0x22 → writable → e.s.regOk e.sig.ctx num v = true →
          Retires (.swreg h o imm) e (e.s.setReg e.sig.ctx num v)))) ∧
    (Issues s h q.list e → e.ops4Ok q { kinds := [.s, .zero] } unused { kinds := [.s, .imm, .zero] } { kinds := [.s, .imm, .zero] } = true →
      let r : FRec := { source := 8, cause := 0, core := e.sel.core, port := e.path.port
                        sig := if e.sig.quire = none then 0xFF else e.sig.sigix, grid := e.sig.grid
                        quire := if e.sig.quire = none then 2 ^ 64 - 1 else e.sig.qix, pc := e.path.pc
                        aux0 := e.uni q.b, aux1 := e.uni q.c }
      let x := e.s.putRecord e.sig.ctx r.bytes
      Retires (.frec h q) e (match q.d with
        | .s d _ _ => e.writeS x.2 d.toNat (match x.1 with | some i => BitVec.ofNat 64 i | none => BitVec.allOnes 64)
        | _ => x.2))

/-- R266, R270, R289: a write or an update on its way is performed: its bytes change at its place, and no other byte of any
memory; the write leaves the core, one to the host when it is acknowledged. Of bytes that a store of another signature, also on its
way, writes too nothing is said (R88; log entry 13). An update waits until its lines are fetched (R260; that it does, and when a line
is charged, is the model's choice: log entry 46). -/
def Obligations.WritesArePerformed : Prop :=
  ∀ (s : State) (core ix : Nat) (w : PendW) (data : List Nat), s.memOk = true → (s.core core).pend[ix]? = some w →
    (w.posted = true → ∃ t, exec (.apertureWriteAck core ix) s = .next t ∧ t.hbm = s.hbm ∧ t.host = s.host ∧
      (t.core core).pend = (s.core core).pend.eraseIdx ix) ∧
    (s.pendReady core ix w = true →
      let done := fun (t : State) => exec (.storePerformed core ix (.ok data)) s = .next t
      let left := (s.core core).pend.eraseIdx ix
      let changed := fun (m m' : Mem) (a : Nat) (bs : List Byte) =>
        ∀ x, Mem.read m' x = if a ≤ x ∧ x < a + bs.length then bs.getD (x - a) 0 else Mem.read m x
      let rival := fun (x : PendW) => x.rival w.uid w.acc = true ∧ ¬ (x.iv = true ∧ w.iv = true)
      let quiet := ∀ c ∈ s.cores, ∀ x ∈ c.2.pend, ¬ rival x
      let stored := fun (m m' : Mem) (a : Nat) (bs : List Byte) => ∀ x,
        (a ≤ x → x < a + bs.length →
          (∀ c ∈ s.cores, ∀ y ∈ c.2.pend, rival y → (w.acc.place.add (x - a)).meets 1 y.acc.place y.acc.size = false) →
          Mem.read m' x = bs.getD (x - a) 0) ∧
        (x < a ∨ a + bs.length ≤ x → Mem.read m' x = Mem.read m x)
      (∀ bs a, w.acc.op = .write bs → w.acc.place = .hbm a → ∃ t, done t ∧ stored s.hbm t.hbm a bs ∧ t.host = s.host ∧
        (quiet → (t.core core).pend = left)) ∧
      (∀ bs a, w.acc.op = .write bs → w.acc.place = .host a → ∃ t, done t ∧ stored s.host t.host a bs ∧ t.hbm = s.hbm ∧
        (quiet → (t.core core).pend = (s.core core).pend.set ix { w with posted := true })) ∧
      (∀ a, w.acc.place = .hbm a → (∀ x ∈ linesOf a w.acc.size, x ∉ s.l2.stale) →
        let n := w.acc.size
        let old := natOfBytes (Mem.readN s.hbm a n)
        let there := (s.fetchLines [w.acc]).1 = true
        let away := (s.fetchLines [w.acc]).1 = false → done (s.fetchLines [w.acc]).2
        (∀ opc sg b, w.acc.op = .rmw opc sg b → away ∧ (there → ∃ t, done t ∧ t.host = s.host ∧ (t.core core).pend = left ∧
          changed s.hbm t.hbm a (bytesOfNat n (rmwNew opc n sg old b.toNat 0)))) ∧
        (∀ b c, w.acc.op = .cas b c → away ∧ (there → ∃ t, done t ∧ t.host = s.host ∧ (t.core core).pend = left ∧
          changed s.hbm t.hbm a (bytesOfNat n (if old = b.toNat % 2 ^ (8 * n) then c.toNat % 2 ^ (8 * n) else old))))))

/-- R138, R140, R141, R222, R264, R266, R291: the data of a load arrive, of LD, IVLD and LDSC, and the results of ATOM and CAS. Each
lane takes what its accesses have brought: a value that the thimble or a home slice has given already, or for a plain read, where no
store races with it, the bytes at its place; a pair takes the 16 bytes in two registers, anything else is extended. Other lanes, other
registers and all memory are unchanged, and the record becomes READY. A destination above the budget is not written, and the record
carries OPERAND; where a lane's interval image is ill-formed nothing is written, and the record carries EMPTY and those lanes. Lines
that are not held are fetched first (log entry 46). -/
def Obligations.LoadDataArrives : Prop :=
  ∀ (s : State) (core pseq : Nat) (r : Record) (g : Sig) (d : Dest) (field : BitVec 16) (sx iv pair sc : Bool) (acc : List Access)
    (data : List Nat),
    (s.core core).records.find? (fun r => r.pseq == pseq && !r.ready && r.late.isEmpty) = some r → s.sig? core r.slot = some g →
    r.wait = .load d field sx iv pair sc acc → s.loadWaits g r sc acc = false → acc ≠ [] →
    (∀ a ∈ acc, a.got = none → a.op = .read ∧ s.racesPend g.uid iv a = false ∧
      ∃ p, a.place = .hbm p ∧ ∀ x ∈ linesOf p a.size, x ∉ s.l2.stale) →
    let arrives := exec (.loadDataArrival core pseq (.ok data)) s
    let value := fun (a : Access) => match a.got, a.place with
      | some v, _ => v
      | none, .hbm p => natOfBytes (Mem.readN s.hbm p a.size)
      | none, _ => 0
    let lane := fun (l : Lane) => (acc.filter fun a => a.lane == l.val).foldr (fun a x => value a + 2 ^ (8 * a.size) * x) 0
    let loaded := fun (l : Lane) => ∃ a ∈ acc, a.lane = l.val
    let bad := fun (l : Lane) => iv = true ∧ loaded l ∧
      (if pair then FP64.ivOk ⟨lane l % 2 ^ 64, lane l / 2 ^ 64⟩ else FP32.ivOk (boundsOf32 (BitVec.ofNat 64 (lane l)))) = false
    let below := ∀ n, d = .v n → n + (if pair then 1 else 0) < g.B
    let wakes := fun (t : State) (fault : Nat) (more : Record → Prop) => arrives = .next t ∧ t.hbm = s.hbm ∧ t.host = s.host ∧
      ∃ x ∈ (t.core core).records, x.pseq = pseq ∧ x.ready = true ∧ x.fault = fault ∧ more x
    let same := fun (t : State) => t.sig? core r.slot = some g ∧ (t.core core).ports = (s.core core).ports
    ((s.fetchLines acc).1 = false → arrives = .next (s.fetchLines acc).2) ∧
    ((s.fetchLines acc).1 = true →
      (¬ below → ∃ t, wakes t 0x02 (fun _ => True) ∧ same t) ∧
      (below → (∃ l, bad l) → ∃ t, same t ∧ wakes t 0x04 fun x => ∀ l : Lane,
        ((x.evaux ++ x.evkey).getLsbD l.val = true ↔ bad l)) ∧
      (below → (∀ l, ¬ bad l) → ∃ t g', wakes t 0 (fun _ => True) ∧ t.sig? core r.slot = some g' ∧
        let word := fun (k : Nat) (l : Lane) => if pair then BitVec.ofNat 64 (lane l / 2 ^ (64 * k)) else
          extend sx ((acc.head?.map (·.size)).getD 8) (lane l)
        let row := fun (k : Nat) (new old : Row) => ∀ l : Lane, (loaded l → new[l] = word k l) ∧ (¬ loaded l → new[l] = old[l])
        let port := fun (u : State) => (u.core core).port r.port
        let top := if pair then 2 else 1
        (∀ n, d = .v n → (port t).t = (port s).t ∧ (∀ k, k < top → row k (g'.reg (n + k)) (g.reg (n + k))) ∧
          ∀ k, k < n ∨ n + top ≤ k → g'.reg k = g.reg k) ∧
        (∀ n, d = .t n → g' = g ∧ (∀ k, k < top → row k ((port t).treg (n + k)) ((port s).treg (n + k))) ∧
          ∀ k, k < n ∨ n + top ≤ k → (port t).treg k = (port s).treg k) ∧
        (d = .none → same t)))

/-- R255, R267, R279, R285: a flush or an invalidation completes and leaves the outstanding counter: a flush writes the lines back
once CD has let their bursts through (log entry 46), an invalidation drops them, and bytes that had not been written back may be
lost. The thimble visits the next of its 76 nodes: the node performs what is queued at it in the order of arrival, each operation
with its effect on its bytes and its value for the record that waits; a notify port then performs the arrivals of its stack: payload
and arrival are one event, in deterministic mode of the serial phase. A page fill leaves the image in the page's frame (zeros, the
host's bytes, or what the expander makes of them) and in the entry RES = 1 and the frame, every other bit kept; it stands once the CE
budget has let its bursts through, and wakes what waits for it; one that fails leaves its records and PAGE. -/
def Obligations.MemoryEvents : Prop :=
  let changed := fun (m m' : Mem) (a : Nat) (bs : List Byte) =>
    ∀ x, Mem.read m' x = if a ≤ x ∧ x < a + bs.length then bs.getD (x - a) 0 else Mem.read m x
  (∀ (s : State) (core ix : Nat) (f : Flush), s.memOk = true → (s.core core).flushes[ix]? = some f →
    let mine := lineIn (s.flushLeaves f) f.va f.len
    let need := s.backBursts mine
    let pay := s.payBursts false need f.paid
    let ends := fun (t : State) => exec (.flushComplete core ix) s = .next t ∧ (t.core core).outst = (s.core core).outst - 1 ∧
      (t.core core).flushes = (s.core core).flushes.eraseIdx ix ∧ t.host = s.host
    (f.inv = true → ∃ t, ends t ∧ (∀ n ∈ t.l2.held, mine n = false) ∧
      ∀ a, mine (a / 128) = false → Mem.read t.hbm a = Mem.read s.hbm a) ∧
    (f.inv = false → Bursts.covered need pay.1 = true → ∃ t, ends t ∧ t.hbm = s.hbm ∧
      t.l2.old = s.l2.old.filter fun p => !mine (p.1 / 128)) ∧
    (f.inv = false → Bursts.covered need pay.1 = false → exec (.flushComplete core ix) s =
      .next (pay.2.modCore core fun k => { k with flushes := k.flushes.modify ix fun f => { f with paid := pay.1 } }))) ∧
  (∀ s : State,
    let n := s.thimble.node
    let ops := AMap.getD s.thimble.queues n []
    let fetched := s.fetchLines ((ops.map (·.acc)).filter fun a => !a.isStore)
    let on := { fetched.2 with thimble := { fetched.2.thimble with node := (n + 1) % 76, queues := AMap.del s.thimble.queues n } }
    let u := ops.foldl State.performSc on
    (fetched.1 = false → exec .thimbleVisit s = .next fetched.2) ∧
    (fetched.1 = true → n < 64 → exec .thimbleVisit s = .next u) ∧
    (fetched.1 = true → 64 ≤ n → ∃ t, exec .thimbleVisit s = .next t ∧ t.thimble.node = (n + 1) % 76 ∧
      ((u.stack (n - 64)).notify = [] → t.hbm = u.hbm) ∧
      ∀ x, (u.stack (n - 64)).notify = [x] → t.hbm = (u.happen x.ctx x.order (.notify x.grid x.cell x.payload x.bytes)).hbm)) ∧
  (∀ (s : State) (o : ScOp) (p : Nat), s.memOk = true → o.acc.place = .hbm p → (∀ x ∈ linesOf p o.acc.size, x ∉ s.l2.stale) →
    let n := o.acc.size
    let old := natOfBytes (Mem.readN s.hbm p n)
    let t := s.performSc o
    let gives := fun (v : Nat) => t.host = s.host ∧ (t.core o.core).outst = (s.core o.core).outst - (if o.counted then 1 else 0) ∧
      ∀ q, o.waiter = some q → ∀ r ∈ (s.core o.core).records, r.pseq = q →
        ∃ x ∈ (t.core o.core).records, x.pseq = q ∧ x.wait = r.wait.gets o.acc.va v o.acc.lane
    (s.eccMeets o.acc = true → t.hbm = s.hbm) ∧
    (s.eccMeets o.acc = false →
      (o.acc.op = .read → gives old ∧ t.hbm = s.hbm) ∧
      (∀ bs, o.acc.op = .write bs → gives 0 ∧ changed s.hbm t.hbm p bs) ∧
      (∀ opc sg b, o.acc.op = .rmw opc sg b → gives old ∧ changed s.hbm t.hbm p (bytesOfNat n (rmwNew opc n sg old b.toNat 0))) ∧
      (∀ b c, o.acc.op = .cas b c → gives old ∧
        changed s.hbm t.hbm p (bytesOfNat n (if old = b.toNat % 2 ^ (8 * n) then c.toNat % 2 ^ (8 * n) else old))))) ∧
  (∀ (s : State) (ctx grid cell payload : Nat) (order : List Nat) (bs : List Byte),
    let t := s.happen ctx order (.notify grid cell payload bs)
    (s.det ctx = true → (s.ctx ctx).st ≠ .killing →
      t = s.modCtx ctx fun c => { c with events := c.events ++ [(order, .notify grid cell payload bs)] }) ∧
    (s.det ctx = false → s.memOk = true → ∃ u : State, changed s.hbm u.hbm payload bs ∧ OnlyCell u t cell ∧ t.host = s.host ∧
      t.cell cell = (let c := u.cell cell
        if (c.count + 1) % 2 ^ 32 = c.expect then { c with count := 0, gen := (c.gen + 1) % 2 ^ 32 }
        else { c with count := (c.count + 1) % 2 ^ 32 }))) ∧
  (∀ (s : State) (ctx va p : Nat) (r : Resp) (l : Leaf) (b : Backing) (image : Nat → Byte), s.memOk = true →
    s.walk ctx va = some l → l.res = false → l.addr < s.regN ctx 0x14 →
    s.reach ctx { r := true } (fun _ => true) [⟨0, BitVec.ofNat 64 (s.regN ctx 0x13 + 64 * l.addr), 64⟩] = .ok [.hbm p] →
    (∀ x ∈ linesOf p 64, x ∉ s.l2.stale) → Backing.parse (Mem.readN s.hbm p 64) l = some b →
    (∀ i, i < 8 → offsetIn b.frame l.size (l.entry + i) = none) →
    ((b.kind = 3 ∧ (l.cmp = true → rgWidth b.xform ≠ none) ∧ image = fun _ => 0) ∨
      (b.kind = 1 ∧ (∃ d, r = .ok d) ∧ ∃ a, s.placeOf ctx b.src = some (.host a) ∧
        ((l.cmp = false ∧ image = fun i => Mem.read s.host (a + i)) ∨
          (l.cmp = true ∧ (b.xform % 2 = 0 → b.srclen = l.size) ∧ ∃ bs, bs.length = l.size ∧ (image = fun i => bs.getD i 0) ∧
            expand (fun i n => if i + n ≤ b.srclen then some (Mem.readN s.host (a + i) n) else none) b.xform l.size l.size = some bs)))) →
    ∃ u, fillPage s.fillDepth s ctx va r = .done u ∧ u.host = s.host ∧
      (∀ i, i < l.size → ∀ x, hbmOf (b.frame + i) = some x → Mem.read u.hbm x = image i) ∧
      let e := natOfBytes (Mem.readN s.hbm l.entry 8)
      natOfBytes (Mem.readN u.hbm l.entry 8) =
        (e % 2 ^ 12 + (if e / 4 % 2 = 1 then 0 else 4) + b.frame / 4096 * 2 ^ 12) % 2 ^ 64) ∧
  (∀ (s u : State) (ix : Nat) (f : Fill) (r : Resp), s.fills[ix]? = some f → f.started = true →
    (fillPage s.fillDepth s f.ctx f.va r = .done u →
      let need := s.fillBursts u f
      let pay := s.payBursts true need f.paid
      (Bursts.covered need pay.1 = true → exec (.pageFillComplete ix r) s =
        .next (((((u.payBursts true need f.paid).2.dropFill ix).wakePage f 0).unask f.ctx f.va f.size))) ∧
      (Bursts.covered need pay.1 = false → exec (.pageFillComplete ix r) s =
        .next { pay.2 with fills := pay.2.fills.modify ix fun f => { f with paid := pay.1 } })) ∧
    (∀ errs, fillPage s.fillDepth s f.ctx f.va r = .failed u errs false → exec (.pageFillComplete ix r) s =
      .next ((((((u.dropFill ix).fillFailed f.ctx errs false).wakePage f 0x06).failEngines f
        ((errs.getLast?.map (·.code)).getD 0)).parkPage f.ctx f.va f.size))) ∧
    (∀ errs, fillPage s.fillDepth s f.ctx f.va r = .failed u errs true → exec (.pageFillComplete ix r) s =
      .next ((u.dropFill ix).fillFailed f.ctx errs true)))

/-- R63, R66, R69, R73, R84, R86, R89, R146, R164, R168, R433: a READY record relaunches; the watchdog falls due; a quantum
ends; the serial phase begins the next round of every signature; a task wave forms; gangs are placed, quires and grids
retire, device queues and host queues hand on their blocks. -/
def Obligations.SchedulingEvents : Prop :=
  ((∀ (s : State) (core ctx port : Nat) (r : Record), (s.core core).ctx = some ctx → (s.ctx ctx).st = .active →
     (s.core core).nextReady (s.det ctx) = some r → (s.core core).portFor r = some port → (∀ i, r.wait ≠ .trap i) →
     ∃ t g g' p, exec (.recordRelaunch core) s = .next t ∧ s.sig? core r.slot = some g ∧ t.sig? core r.slot = some g' ∧
       g'.paths = g.paths ++ [p] ∧ p.idx = r.pidx ∧ p.mask = r.mask ∧ p.pc = r.resume ∧ p.nest = r.nest ∧ p.port = port ∧
       p.rseq = (s.core core).rseq ∧ p.fault = r.trap ∧ (t.core core).rseq = (s.core core).rseq + 1 ∧
       (t.core core).records = ((s.core core).records.filter (fun x => x.pseq != r.pseq)).map fun x =>
         if x.ready && x.slot == r.slot && x.seen == r.seen then { x with first := min x.first r.first } else x) ∧
   (∀ (s : State) (core slot pidx : Nat) (g : Sig) (p : Path) (w : InstrWord) (m : Mask) (pc : Word64),
     s.sig? core slot = some g → g.path? pidx = some p → p.wdog = some (w, m, pc) →
     let t := s.modSig core slot fun g => g.modPath pidx fun p => { p with wdog := none }
     exec (.watchdog core slot pidx) s =
       .next (Env.take ⟨t, ⟨core, slot, pidx, w, false⟩, g, p, m⟩ t ⟨0x0B, pc, 0, w, m, m⟩)) ∧
   (∀ (s : State) (core slot : Nat) (g : Sig), s.sig? core slot = some g → s.det g.ctx = true → g.ended = false →
     s.detQ g.ctx ≤ g.quantum →
     exec (.issueQuantumEnd core slot) s = .next (s.modSig core slot fun g => { g with ended := true })) ∧
   (∀ (s : State) (ctx : Nat), s.roundOver ctx = true →
     let f := s.fetchLines (s.lateOf ctx)
     (f.1 = false → exec (.serialPhase ctx) s = .next f.2) ∧
     (f.1 = true → ∃ t, exec (.serialPhase ctx) s = .next t ∧
       ∀ n ∈ t.coresOf ctx, ∀ x ∈ (t.core n).sigs, x.2.ended = false ∧ x.2.quantum = 0)) ∧
   (∀ (s t : State) (core ctx : Nat), (s.core core).ctx = some ctx → (s.ctx ctx).st = .active → s.det ctx = false →
     s.nextWave core ctx = some t → exec (.waveForm core) s = .next t)) ∧
  ((∀ (s t : State) (p : Pending) (r : List Pending), s.pending = p :: r → s.placePending p = some t → exec .gangPlace s = .next t.unmark) ∧
   (∀ (s : State) (core key ctx : Nat) (q : Quire), s.quire? core key = some q → (s.core core).ctx = some ctx →
     s.quireOver core key q = true →
     exec (.quireRetire core key) s = .next ((s.modCore core fun k => { k with quires := AMap.del k.quires key }).modGrid ctx q.grid
       fun g => { g with quiresDone := g.quiresDone + (if q.killed then 0 else 1) })) ∧
   (∀ (s u : State) (ctx grid : Nat) (x : Grid), s.grid? ctx grid = some x → (s.ctx ctx).st = .active →
     s.gridOver ctx x = true →
     (x.blk.done = 0 ∧ u = s ∨ x.blk.done ≠ 0 ∧
       s.writeDone ctx x.blk.done (x.status % 2 ^ 32 + x.killed % 2 ^ 32 * 2 ^ 32) = .ok u) →
     let v := u.modCtx ctx fun c => { c with
       grids := AMap.del c.grids grid
       hostq := match x.hostq with
         | some q => AMap.mod c.hostq q fun h => { h with busy := false }
         | none => c.hostq }
     exec (.gridRetire ctx grid) s = .next (match x.child with
       | some h => v.happen ctx x.dorder (.handle 5 0 h 1 0 x.status)
       | none => v)) ∧
   (∀ (s u v : State) (ctx q : Nat) (bs : List Byte) (m : QMeta) (b : Launch), (s.ctx ctx).st = .active →
     (s.ctx ctx).nextQueue = some q → s.areaRead ctx (s.queueAddr ctx q (AMap.getD (s.ctx ctx).devq q DevQ.init).head) 256 = .ok (bs, u) →
     (AMap.getD (s.ctx ctx).devq q DevQ.init).info.head? = some m →
     (m.dead = false → (u.advanceQueue ctx q).checkBlock ctx bs false = (some b, v) →
       exec (.deviceQueueTake ctx q) s = .next (v.addGrid ctx b (some m) none q)) ∧
     (m.dead = true → exec (.deviceQueueTake ctx q) s = .next (match m.child with
       | some h => (u.advanceQueue ctx q).happen ctx m.order (.handle 5 0 h 2 0 0)
       | none => u.advanceQueue ctx q))) ∧
   (∀ (s : State) (fn ctx q : Nat) (tail : Word64), ctx < 1024 → q < 4 → s.lockBusy (queueLock ctx q) = false →
     let h := AMap.getD (s.ctx ctx).hostq q ⟨0, 0, false, 0, 0, 0, false⟩
     ((s.ctx ctx).owner ≠ fn → exec (.hostDoorbell fn ctx q tail) s = .next s) ∧
     ((s.ctx ctx).owner = fn → (s.ctx ctx).st ≠ .undefined → (s.ctx ctx).st ≠ .killing →
       let ahead := fun (n : Nat) => (n + 2 ^ 64 - h.read) % 2 ^ 64
       (ahead tail.toNat ≤ h.entries → ahead h.tail ≤ ahead tail.toNat →
         exec (.hostDoorbell fn ctx q tail) s = .next ((s.modCtx ctx fun c => { c with
           hostq := AMap.mod c.hostq q fun h => { h with tail := tail.toNat } }).pumpQueue 65537 ctx q)) ∧
       (h.entries < ahead tail.toNat ∨ ahead tail.toNat < ahead h.tail → exec (.hostDoorbell fn ctx q tail) s =
         .next (s.log ctx { source := 2, cause := 0x02, aux0 := BitVec.ofNat 64 (0x100 + q) })))) ∧
   (∀ (s : State) (ctx q : Nat) (h : HostQ), AMap.get? (s.ctx ctx).hostq q = some h → (s.ctx ctx).st = .active →
     s.lockBusy (queueLock ctx q) = false → h.serial = true → h.busy = false → h.read ≠ h.tail →
     exec (.serialQueueRetire ctx q) s = .next (s.readRing ctx q h)))

/-- R299, R305 to R309, R313, R316, R321, R329 to R334: the copy engine's next chunk and its completion, the matrix engine's next
tile step, and MZERO. Of a copy from LM to a buffer every element of the chunk is stated: of the box element at coordinates b, code
zero where it is padding, else the source element's own bits, or the value converted, or its code in an MX block (R310). Of a step
whose B lies in the W-buffer every accumulator is stated: exact groups into FP32, or the rules of R331, over the elements kept. What
a chunk or a step has read and written stands once the budgets have let its bursts through: how the bursts are charged is the model's
choice (`chargeCopy`, `chargeMat`; log entry 46). -/
def Obligations.EngineEvents : Prop :=
  (∀ (s : State) (cl : Nat) (resp : Resp) (o : CopyOp), s.nextCopy cl = some o →
    let turn := s.modCluster cl fun k => { k with
      copyTurn := (o.core % 12 + 1) % 12, copyLast := AMap.set k.copyLast o.core o.id }
    let ends := fun (t : State) => exec (.copyChunk cl resp) s = .next (turn.chargeCopy cl o t)
    (o.cancel = true → o.atBoundary = true → ends (turn.cancelCopy cl o)) ∧
    ((o.cancel && o.atBoundary) = false →
      (∀ y, o.plan = none → turn.copyPlan resp o = .error y → ends (turn.stopCopy cl o y)) ∧
      (∀ o1 v d w, (o.plan = some (d, w) ∧ o1 = o ∧ v = turn ∨
          o.plan = none ∧ turn.copyPlan resp o = .ok (o1, v) ∧ o1.plan = some (d, w)) →
        let x := v.copyChunk resp { o1 with page := none } d w
        let u := (x.2.2.2.putCopy cl x.2.1).modCluster cl fun k => { k with copyErr := k.copyErr + BitVec.ofNat 64 x.2.2.1 }
        (x.1 = none → ends u) ∧ (∀ y, x.1 = some y → ends (u.stopCopy cl x.2.1 y))))) ∧
  (∀ (s : State) (cl : Nat) (resp : Resp) (o : CopyOp) (d : Desc) (w : Window) (key : Nat) (q : Quire), s.nextCopy cl = some o →
    o.plan = some (d, w) → o.cancel = false → s.touched = [] → o.expand = false → o.raced = false → o.written < w.data →
    o.quire = some key → s.quire? o.core key = some q → o.sspace = 1 → o.dspace = 2 ∨ o.dspace = 3 →
    (∀ a n, s.localSpoiled o.core 0 a n = false) → d.mx = false →
    w.dfmt < 16 → w.start.length = 8 → (∀ i, i < 8 → 1 ≤ w.boxAt i) → w.wd % packGroup w.dfmt = 0 → (w.scl = 2 → w.wd % 32 = 0) →
    (d.sfmt = w.dfmt ∧ w.scl = 0 ∨ d.sfmt ≠ 2 ∧ d.sfmt < 14 ∧ w.dfmt ≠ 2 ∧ w.dfmt < 14) → (w.scl = 2 → 5 ≤ w.dfmt ∧ w.dfmt ≤ 10) →
    let src := (s.core o.core).mem.get 0
    let stop := min w.data ((o.written / 4096 + 1) * 4096)
    let at_ := fun (i : Nat) => q.base.get (o.dspace - 1) + w.dest + i
    ∃ t, exec (.copyChunk cl resp) s = .next t ∧ t.hbm = s.hbm ∧ t.host = s.host ∧
      let dst := (t.core o.core).mem.get (o.dspace - 1)
      (w.scl ≠ 2 → o.scales = [] → o.supers = [] → ∀ y, y < at_ o.written ∨ at_ stop ≤ y →
        Mem.read dst y = Mem.read ((s.core o.core).mem.get (o.dspace - 1)) y) ∧
      ∀ b : Nat → Nat, (∀ i, i < 8 → b i < w.boxAt i) →
        let inner := if w.transpose then 1 else 0
        let n := b inner + w.wd * (b (1 - inner) + w.boxAt (1 - inner) * (b 2 + w.boxAt 2 * (b 3 + w.boxAt 3 * (b 4 + w.boxAt 4 *
          (b 5 + w.boxAt 5 * (b 6 + w.boxAt 6 * b 7))))))
        let bits := fmtBits w.dfmt
        let padding := fun (b : Nat → Nat) => (List.range d.ndim).any fun i => decide (d.ext i ≤ w.start.getD i 0 + b i)
        let element := fun (b : Nat → Nat) =>
          let c := fun i => w.start.getD i 0 + b i
          bitsAt src (q.base.get 0 + d.base + (((List.range d.ndim).drop 1).map fun i => c i * d.str i).sum) (c 0 * fmtBits d.sfmt)
            (fmtBits d.sfmt)
        let value := fun (b : Nat → Nat) =>
          let v := fmtValue d.sfmt false (element b)
          if w.scl = 1 then v.mul (FP32.decode w.tscale.toNat) else v
        let written := bitsAt dst (at_ 0) (n * bits) bits
        o.written ≤ n * bits / 8 → (n * bits + bits + 7) / 8 ≤ stop →
          (padding b = true → w.dfmt ≠ 2 → w.dfmt ≠ 15 → written = if w.dfmt = 14 then 7 else 0) ∧
          (padding b = false →
            (d.sfmt = w.dfmt → w.scl = 0 → written = element b) ∧
            (¬ (d.sfmt = w.dfmt ∧ w.scl = 0) → w.scl ≠ 2 →
              (10 ≤ d.sfmt → 10 ≤ w.dfmt → w.scl = 0 → w.sat = false → written = fmtWrap w.dfmt (value b) % 2 ^ bits) ∧
              (¬ (10 ≤ d.sfmt ∧ 10 ≤ w.dfmt ∧ w.scl = 0 ∧ w.sat = false) →
                written = fmtEncode w.dfmt .rne w.sat false (value b) % 2 ^ bits)) ∧
            (w.scl = 2 →
              let block := ((List.range 32).map fun i x => if x = inner then b inner / 32 * 32 + i else b x).filter fun b => !padding b
              written = match (mxScale w.dfmt (block.map value)).2 with
                | some k => mxCode w.dfmt k (value b) % 2 ^ bits
                | none => 0))) ∧
  (∀ (s : State) (cl op : Nat) (o : CopyOp),
    (s.cluster cl).copies.find? (fun o => o.id == op && (o.ending.isSome || (o.full && !o.cancel && (s.ctx o.ctx).st == .active)) &&
      s.pageBack o.ctx o.page) = some o →
    let ends := fun (t : State) => exec (.copyComplete cl op) s = .next (s.chargeCopy cl o t)
    (∀ st h, o.ending = some (st, h) → ends (s.wordCopy cl o st h)) ∧
    (o.ending = none →
      (∀ u, s.copyNamed o = .ok (some u) → ends ((u.dropCopy cl o).finishOp o.ctx o.order 1 o.unit o.seq ⟨1, 0, o.written % 2 ^ 32⟩)) ∧
      (∀ y, s.copyNamed o = .error y → ends (s.stopCopy cl o y)))) ∧
  (∀ (s : State) (cl : Nat) (o : MatOp), s.nextMat cl = some o →
    (o.kind ≠ .mzero → ∀ p, MatShape.of o.c.toNat (o.kind == .mmas) o.n = some p →
      ∀ resp o0 v bs o1 u,
        (o.g = false ∧ o0 = o ∧ v = s.turnMat cl o ∨ o.g = true ∧ (s.turnMat cl o).matDesc resp o p = .ok (o0, v)) →
        v.slabsB resp o0 p = .ok (bs, o1, u) →
        let ends := fun (t : State) => exec (.tileStep cl resp) s = .next ((s.turnMat cl o).chargeMat cl o t)
        (resp = .ecc ∨ u.stepSpoiled o1 p = true → ends (u.faultMat cl o1 0x08 0)) ∧
        (resp ≠ .ecc → u.stepSpoiled o1 p = false → ∀ out errs, u.tile o1 p bs = .ok (out, errs) →
          let w := (u.writeTile o1 p.ctl.coff out).modCluster cl fun k => { k with matErr := k.matErr + BitVec.ofNat 64 errs }
          let o2 := { o1 with step := o1.step + 1, page := none }
          ends (if o1.cancel then w.cancelMat cl o2 else if o1.step + 1 = p.ctl.nstep then w.completeMat cl o2 p else w.putMat cl o2))) ∧
    (o.kind = .mzero →
      let unit := bytesOfNat 8 (if o.iv then 2 ^ 31 else 0)
      exec (.mzeroExecute cl) s = .next
        ((((s.turnMat cl o).writeTile o o.a.toNat (List.replicate (128 * o.b.toNat) unit).flatten).dropMat cl o).finishOp
          o.ctx o.order 2 o.unit o.seq ⟨1, 0, 1⟩))) ∧
  (∀ (s : State) (cl : Nat) (resp : Resp) (o : MatOp) (p : MatShape) (q : Quire), s.nextMat cl = some o → o.kind ≠ .mzero →
    MatShape.of o.c.toNat (o.kind == .mmas) o.n = some p → (p.sparse = true → sparseOk p.ctl.af p.ctl.bf p.ctl.mx = true) →
    o.g = false → o.raced = false → s.touched = [] → s.quire? o.core o.quire = some q → resp ≠ .ecc → s.stepSpoiled o p = false →
    let mem := (s.core o.core).mem
    let a := q.base.get 2 + o.a.toNat
    let b := q.base.get 1 + o.b.toNat
    let c := q.base.get 3 + p.ctl.coff
    let codeA := fun m k => bitsAt (mem.get 2) (a + (o.step * 128 + m) * p.rowA) (fmtBits p.ctl.af * k) (fmtBits p.ctl.af)
    let valA := fun m k => if p.ctl.mx then
        mxValue p.ctl.af (codeA m k) (Mem.read (mem.get 2) (a + p.scaleA + (o.step * 128 + m) * (p.ks / 32) + k / 32)).toNat
      else fmtValue p.ctl.af false (codeA m k)
    let col := fun n => o.step * p.n + n
    let codeB := fun n i => bitsAt (mem.get 1) (b + col n * p.colB) (fmtBits p.ctl.bf * i) (fmtBits p.ctl.bf)
    let scaleB := fun k n i j => natOfBytes (Mem.readN (mem.get 1) (b + p.scaleB + j * (col n * (p.ks / k) + i / k)) j)
    let valB := fun n i =>
      if p.ctl.mx then mxValue p.ctl.bf (codeB n i) (scaleB 32 n i 1)
      else if p.ctl.bf = 14 then q4nValue (codeB n i)
        (FP32.decode (natOfBytes (Mem.readN (mem.get 1) (b + p.superB + 4 * (o.step * p.ks / 16384 * p.n + n)) 4))) (scaleB 64 n i 1)
      else if p.ctl.bf = 15 then (fmtValue 15 false (codeB n i)).mul (BF16.decode (scaleB 128 n i 2))
      else fmtValue p.ctl.bf false (codeB n i)
    let group := 16 * 2 ^ p.ctl.nk
    let index := fun n i => bitsAt (mem.get 1) (b + p.scaleB + col n * p.metaBytes) (7 * i) 7
    let k := fun n i => if p.sparse then 128 * (i / group) + index n i else i
    let old := fun m n => if o.step = 0 ∧ o.acc = false then (if p.rule = .intervals then 2 ^ 31 else 0)
      else natOfBytes (Mem.readN (mem.get 3) (c + p.accBytes * (m * p.n + n)) p.accBytes)
    let wrongOrder := p.sparse = true ∧ ∃ n i, n < p.n ∧ i + 1 < p.kept ∧ (i + 1) % group ≠ 0 ∧ index n (i + 1) ≤ index n i
    let illFormed := p.rule = .intervals ∧
      ((∃ m k, m < 128 ∧ k < p.ka ∧ ivCodeOk (codeA m k) = false) ∨ (∃ n i, n < p.n ∧ i < p.kept ∧ ivCodeOk (codeB n i) = false) ∨
        ∃ m n, m < 128 ∧ n < p.n ∧ ivCodeOk (old m n) = false)
    let turn := s.turnMat cl o
    let faults := fun cause => exec (.tileStep cl resp) s = .next (turn.chargeMat cl o (turn.faultMat cl o cause 0))
    (wrongOrder → faults 0x02) ∧ (illFormed → faults 0x04) ∧
    (¬ wrongOrder → ¬ illFormed → ∃ t, exec (.tileStep cl resp) s = .next t ∧ t.hbm = s.hbm ∧ t.host = s.host ∧
      let tile := (t.core o.core).mem.get 3
      (∀ y, y < c ∨ c + 128 * p.n * p.accBytes ≤ y → Mem.read tile y = Mem.read (mem.get 3) y) ∧
      ∀ m n, m < 128 → n < p.n →
        let result := natOfBytes (Mem.readN tile (c + p.accBytes * (m * p.n + n)) p.accBytes)
        let product := fun i => (valA m (k n i)).mul (valB n i)
        let rne := FP32.encode .rne false false
        let integer := fun fmt code => if fmt = 10 ∨ fmt = 12 then signedOf (fmtBits fmt) code else (code : Int)
        (∀ g, p.rule = .groups g → result = (List.range ((p.kept + g - 1) / g)).foldl (fun c j =>
          rne ((FP32.decode c).add .rne (FP32.decode (rne (exactSum .rne
            ((List.range (min g (p.kept - g * j))).map fun i => product (g * j + i))))))) (old m n)) ∧
        (p.rule = .fma64 → result = (List.range p.kept).foldl (fun c i =>
          FP64.encode .rne false false (exactSum .rne [product i, FP64.decode c])) (old m n)) ∧
        (p.rule = .ints → result = (BitVec.ofInt 32 ((old m n : Int) +
          ((List.range p.kept).map fun i => integer p.ctl.af (codeA m (k n i)) * integer p.ctl.bf (codeB n i)).sum)).toNat) ∧
        (p.rule = .intervals →
          let bounds := fun (x : Nat) => boundsOf32 (BitVec.ofNat 64 x)
          result = (List.range p.kept).foldl (fun c i =>
            (image32 (FP32.ivFma (bounds (codeA m i)) (bounds (codeB n i)) (bounds c))).toNat) (old m n))))

/-- R366, R369, R372, R373, R389 to R395, R404: the configuration controller of a stack takes its oldest operation; an image
moves in; a run goes through its contexts, and a partition through installation, running, freezing, draining and saving. How a
load's reads are charged is the model's choice (log entry 46), as are the owner check and the SYNC check of an installation
(R251, R365; log entry 61). -/
def Obligations.ArrayControlEvents : Prop :=
  (∀ (s : State) (st : Nat) (rest : List CfgOp), (s.stack st).loading = none →
     let ctl := (s.stack st).ctl
     let taken := s.modStack st fun t => { t with ctl := t.ctl.drop 1 }
     let key? := fun (ctx key : Nat) => (s.stack st).images.find? fun m => m.ctx == ctx && m.key == key
     (∀ ctx grid seq va key order, ctl = .load ctx grid seq va key order :: rest → key? ctx key = none →
       let l : Loading := ⟨ctx, grid, seq, order, va.toNat, key, 0, [], none, false, []⟩
       let u := taken.putLoading st l
       exec (.cfgloadPerform st) s = .next (u.chargeLoad st l (u.loadHeader st l))) ∧
     (∀ ctx grid seq va key order, ctl = .load ctx grid seq va key order :: rest → key? ctx key ≠ none →
       exec (.cfgloadPerform st) s = .next (taken.ctlFault st ctx seq order { cause := 0x13, detail := 0x23, key := key })) ∧
     (∀ ctx grid slot key va order, ctl = .resume ctx grid slot key va order :: rest →
       exec (.cfgrunEnqueue st) s = .next (taken.takeResume st ctx slot va key)) ∧
     (∀ slot r, ctl = .run slot r :: rest →
       let reg := (s.part st slot).reg
       let fault := fun (c d : Nat) => taken.ctlFault st r.ctx r.seq r.order { cause := c, detail := d, slot := slot, key := r.key }
       (reg.getLsbD 8 = false ∨ prCtx reg ≠ r.ctx → exec (.cfgrunEnqueue st) s = .next (fault 0x07 0)) ∧
       (reg.getLsbD 8 = true → prCtx reg = r.ctx →
         (key? r.ctx r.key = none → exec (.cfgrunEnqueue st) s = .next (fault 0x13 0x24)) ∧
         (key? r.ctx r.key ≠ none → 4 ≤ (s.part st slot).queue.length → exec (.cfgrunEnqueue st) s = .next (fault 0x13 0x25)) ∧
         (key? r.ctx r.key ≠ none → (s.part st slot).queue.length < 4 →
           exec (.cfgrunEnqueue st) s = .next ((taken.pinImage st r.ctx r.key true).queueRun st slot r)))) ∧
     (∀ ctx grid seq slot va order, ctl = .drain ctx grid seq slot va order :: rest → (s.part st slot).drain = none →
       exec (.cfgdrainPerform st) s =
         .next (taken.startDrain st slot ⟨some seq, order, ctx, grid, some va.toNat, none, 0⟩)) ∧
     (∀ ctx grid seq key order, ctl = .evict ctx grid seq key order :: rest →
       (key? ctx key = none → exec (.cfgevictPerform st) s = .next (taken.finishOp ctx order 3 st seq ⟨1, 0, 0⟩)) ∧
       (∀ m, key? ctx key = some m → m.pins ≠ 0 → exec (.cfgevictPerform st) s =
         .next (taken.ctlFault st ctx seq order { cause := 0x13, detail := 0x23, key := key })) ∧
       (∀ m, key? ctx key = some m → m.pins = 0 → exec (.cfgevictPerform st) s =
         .next ((taken.modStack st fun t => { t with images := t.images.filter fun x => !(x.ctx == ctx && x.key == key) }).finishOp
           ctx order 3 st seq ⟨1, 0, 0⟩)))) ∧
  (∀ (s : State) (st slot : Nat),
     let p := s.part st slot
     (∀ l, (s.stack st).loading = some l → l.length ≠ 0 → l.cancel = false → s.pageBack l.ctx l.page = true →
       ∀ bs u, s.engRead (.ok []) readNeed l.ctx (l.va + l.bytes.length) (min 4096 (l.length - l.bytes.length)) = .ok (bs, u) →
         let all := l.bytes ++ bs
         let ends := fun (t : State) => exec (.cfgloadGranule st) s = .next (s.chargeLoad st l t)
         (all.length < l.length → ends (u.putLoading st { l with bytes := all, page := none })) ∧
         (l.length ≤ all.length → imgHeaderOk all = true → imgLength all = l.length → imgCheckOk all = true → imgSectionsOk all = true →
           ends (((u.endLoading st).modStack st fun t => { t with
             images := t.images ++ [⟨l.ctx, l.key, all, ceilDiv l.length 4096, 0⟩] }).finishOp l.ctx l.order 3 st l.seq ⟨1, 0, 0⟩))) ∧
     (∀ r rest m params u, p.queue = r :: rest → p.st = .idle → (s.ctx r.ctx).st = .active →
       p.reg.getLsbD 8 = true → prCtx p.reg = r.ctx → (s.stack st).image? r.ctx r.key = some m → s.readParams r (Config.parse m.bytes).nparam = .ok (params, u) →
       (Config.parse m.bytes).firstFault m.bytes p.reg.toNat params (if r.resume.isSome then 1 else r.b.toNat) = none →
       u.syncPort r.ctx (Config.parse m.bytes) params = none →
       exec (.installRun st slot) s = .next (u.install st slot r (Config.parse m.bytes) params)) ∧
     (∀ a, p.act = some a →
       (p.st = .running → a.allDone = true → a.ctxi + 1 < a.cfg.nctx → (a.enter (a.ctxi + 1)).2 = none →
         exec (.contextStep st slot) s = .next (s.putActive st slot (a.enter (a.ctxi + 1)).1)) ∧
       (p.st = .running ∨ p.st = .draining → a.allDone = true → a.ctxi + 1 = a.cfg.nctx → a.notifies = 0 →
         exec (.runComplete st slot) s = .next (s.endRun st slot a.run 1 0)) ∧
       (p.st = .frozen → a.notifies = 0 → (∀ x ∈ a.cfg.sTiles, ∀ r, a.cfg.port? x a.ctxi = some r → r.write = true → (a.st x).flight = []) →
         exec (.freezeEnd st slot) s = .next (s.endRun st slot a.run (if a.cause = 0 then 2 else 3) a.cause)) ∧
       (∀ d, p.st = .draining → p.drain = some d → s.quiescent st slot = true → a.complete = false →
         (a.run.cancel = true ∨ d.va = none ∧ d.phys = none → exec (.drainSave st slot) s = .next (s.endRun st slot a.run 2 0)) ∧
         (∀ phys addr, a.run.cancel = false →
           (phys = false ∧ d.va = some addr ∨ phys = true ∧ d.va = none ∧ d.phys = some addr) →
           let tk := s.tickArray st
           let save := if phys = true ∧ tk.2.regN a.run.ctx rASAVESTRIDE < a.cfg.saveSize then .error ⟨0x07, []⟩
             else tk.2.saveRun st slot a (tk.1 - d.t0) phys addr
           exec (.drainSave st slot) s = .next (match save with
             | .ok u => u.modPart st slot fun p => { p with
                 st := .saved
                 act := some { a with run := { a.aged with resume := if phys then some (true, addr) else none } } }
             | .error x =>
               let u := ((tk.2.logFills a.run.ctx x.fills).freeze st slot a { cause := x.cause, aux := x.code }).modPart st slot
                 fun p => { p with drain := none }
               match d.seq with
               | some q => u.finishOp d.ctx d.order 3 st q ⟨3, x.cause, 0⟩
               | none => u))) ∧
       (∀ d, p.st = .draining → p.drain = some d → s.quiescent st slot = false →
         (a.run.cancel = true ∨ d.va = none ∧ d.phys = none →
           exec (.drainTimeout st slot) s = .next (s.modPart st slot fun p => { p with st := .frozen })) ∧
         (a.run.cancel = false → d.va ≠ none ∨ d.phys ≠ none →
           let u := (s.freeze st slot a { cause := 0x14 }).modPart st slot fun p => { p with drain := none }
           exec (.drainTimeout st slot) s = .next (match d.seq with
             | some q => u.finishOp d.ctx d.order 3 st q ⟨3, 0x14, 0⟩
             | none => u))) ∧
       (p.st = .saved →
         let t := (s.modStack st fun t => { t with saved := t.saved ++ [⟨a.run, slot⟩] }).modPart st slot fun p =>
           { p with st := .idle, act := none, drain := none }
         exec (.drainDone st slot) s = .next (t.endDrain st p.drain))))

/-- R347 to R349, R352, R353, R355, R357 to R361, R363, R370, R384 to R387: a tile fires, a buffer takes or gives a token, a port
reads, returns, writes, and has its write acknowledged. A C tile whose inputs, delay lines and outputs are ready consumes its tokens
and emits the result of its operation, lane by lane as the table of R384 says; the steering, accumulating and quantising operations,
a cell of a systolic array, NULL, END and NOTIFY each have their own case. A port's word goes to its place in the stack's own memory,
and no other byte changes; a read that no write port races with (R405) returns what its place holds; NULL and END at a write port
write nothing. -/
def Obligations.TileAndPortEvents : Prop :=
  ∀ (s : State) (st slot row col : Nat) (a : Active), s.running? st slot = some a →
    let x := (row, col)
    (∀ w, a.word? x = some w → tileKind row col = 1 → (a.ct x).done = false → wInputs w ≠ [] →
      let t := a.ct x
      let opc := wOpc w
      let imm := wImm w
      let ins := wInputs w
      let fires := fun (b : Active) => exec (.tileFire st slot row col) s = .next (s.putActive st slot b)
      let freezes := fun (detail : Nat) =>
        exec (.tileFire st slot row col) s = .next (s.freeze st slot a { cause := 0x13, detail := detail, tile := x })
      let src := fun (k : Nat) => a.source x ((wSrc w).getD k 0)
      let lane := fun (k i : Nat) => (src k).toNat / 2 ^ (32 * i) % 2 ^ 32
      let lanes := fun (v : TokenVal) (r : Nat → Nat) => ∀ i, i < 16 → v.toNat / 2 ^ (32 * i) % 2 ^ 32 = r i
      let num := fun (y : Nat) => FP32.decode y
      let rne := FP32.encode .rne false false
      let sum := fun (y z : Nat) => rne ((num y).add .rne (num z))
      let gives := fun (v : TokenVal) (alt : Token) => a.linesRoom x w = true →
        fires ((((a.pops x ins).emits x w (.data v) alt).setCt x (t.shift w (some v))))
      let ends := fires (((a.pops x ins).emits x w .fin .fin).setCt x { t with done := true, held := none, count := 0 })
      let lasts := fun (v : TokenVal) => fires ((a.emits x w (.data v) .null).setCt x { t with held := none, count := 2 })
      let allData := ∀ i ∈ ins, ∃ v, a.head x i = some (.data v)
      let nullIn := (∀ i ∈ ins, a.head x i = some .null ∨ ∃ v, a.head x i = some (.data v)) ∧ ∃ i ∈ ins, a.head x i = some .null
      let allEnd := ∀ i ∈ ins, a.head x i = some .fin
      let elements := fun (v : TokenVal) => (List.range 16).map fun i => v.toNat / 2 ^ (32 * i) % 2 ^ 32
      let coded := fun (v : TokenVal) (ws : List Nat) => t.x < 256 ∧ v.toNat / 2 ^ (32 * fmtBits imm) = t.x ∧
        ∀ e, e < 32 → v.toNat / 2 ^ (fmtBits imm * e) % 2 ^ fmtBits imm =
          if t.x = 255 ∨ ws.length ≤ e then 0 else mxCode imm ((t.x : Int) - 127) (num (ws.getD e 0)) % 2 ^ fmtBits imm
      (opc ∉ [0x00, 0x3C, 0x3E, 0x40] → (∀ i ∈ ins, a.head x i ≠ none) → (∃ i ∈ ins, a.head x i = some .fin) → ¬ allEnd → freezes 0x11) ∧
      (a.outsOk x w = true → allEnd →
        (opc ∉ [0x00, 0x39, 0x3C, 0x3D, 0x3E, 0x40] → ends) ∧
        (opc = 0x39 → t.count ≠ 2 → lasts t.acc) ∧ (opc = 0x39 → t.count = 2 → ends) ∧
        (opc = 0x3D ∨ opc = 0x3E → t.count ≠ 1 → ends) ∧
        (t.count = 1 → ∀ h, t.held = some h → ∀ v : TokenVal,
          (opc = 0x3D → (lanes v fun i => if i = 0 then (mxScale imm ((elements h).map num)).1 else 0) → lasts v) ∧
          (opc = 0x3E → 5 ≤ imm → imm ≤ 10 → coded v (elements h) → lasts v))) ∧
      (a.linesHold x w = true →
        (opc = 0x39 → allData → ∀ v, (lanes v fun i => sum (t.acc.toNat / 2 ^ (32 * i) % 2 ^ 32) (lane 0 i)) →
          fires ((a.pops x ins).setCt x { t with acc := v })) ∧
        (opc = 0x39 → nullIn → fires ((a.pops x ins).setCt x t)) ∧
        (opc = 0x3D ∨ opc = 0x3E ∧ t.count ≠ 1 → nullIn → freezes 0x14) ∧
        (opc = 0x3D → t.count ≠ 1 → allData →
          ∃ m, fires ((a.pops x ins).setCt x { t with held := some (src 0), count := 1, x := m })) ∧
        (opc = 0x3E → t.count ≠ 1 → allData →
          fires ((a.pops x ins).setCt x { t with held := some (src 0), count := 1, x := lane 1 0 % 256 })) ∧
        (a.outsOk x w = true →
          (opc ∉ [0x00, 0x31, 0x39, 0x3C, 0x3D, 0x3E, 0x40] → nullIn →
            fires (((a.pops x ins).emits x w .null .null).setCt x t)) ∧
          (allData →
            (∀ v, opc ∈ [0x01, 0x02, 0x03, 0x04, 0x05, 0x06, 0x07, 0x10, 0x11, 0x12, 0x13, 0x14, 0x15, 0x16, 0x17, 0x18, 0x20, 0x21,
                0x28, 0x32, 0x38] →
              (lanes v fun i =>
                let f := fun k => num (lane k i)
                let n := fun k => BitVec.ofNat 32 (lane k i)
                match opc with
                | 0x01 => rne ((f 0).add .rne (f 1))
                | 0x02 => rne ((f 0).add .rne (num ((lane 1 i + 2 ^ 31) % 2 ^ 32)))
                | 0x03 => rne ((f 0).mul (f 1))
                | 0x04 => rne (((f 0).mul (f 1)).add .rne (f 2))
                | 0x05 => rne ((f 0).min2 (f 1))
                | 0x06 => rne ((f 0).max2 (f 1))
                | 0x07 => lane 0 i
                | 0x10 => (n 0 + n 1).toNat
                | 0x11 => (n 0 - n 1).toNat
                | 0x12 => (n 0 * n 1).toNat
                | 0x13 => (n 0 &&& n 1).toNat
                | 0x14 => (n 0 ||| n 1).toNat
                | 0x15 => (n 0 ^^^ n 1).toNat
                | 0x16 => (n 0 <<< (imm % 32)).toNat
                | 0x17 => (n 0 >>> (imm % 32)).toNat
                | 0x18 => ((n 0).sshiftRight (imm % 32)).toNat
                | 0x20 => rne (XR.ofInt (n 0).toInt)
                | 0x21 => (BitVec.ofInt 32 ((f 0).toInt .rne (-(2 ^ 31)) (2 ^ 31 - 1))).toNat
                | 0x28 =>
                  let holds := if (f 0).isNan || (f 1).isNan then imm == 1 else
                    match imm with
                    | 0 => (f 0).eq (f 1) | 1 => !(f 0).eq (f 1) | 2 => (f 0).lt (f 1)
                    | 3 => (f 0).le (f 1) | 4 => (f 1).lt (f 0) | _ => (f 1).le (f 0)
                  if holds then 2 ^ 32 - 1 else 0
                | 0x32 => if lane 2 i ≠ 0 then lane 0 i else lane 1 i
                | _ =>
                  let level := fun (g : Nat → Nat) (m : Nat) => sum (g (2 * m)) (g (2 * m + 1))
                  if i = 0 then level (level (level (level (lane 0)))) 0 else 0) →
              gives v .null) ∧
            (opc = 0x30 → (lane 1 0 ≠ 0 → gives (src 0) .null) ∧
              (lane 1 0 = 0 → fires (((a.pops x ins).emits x w .null (.data (src 0))).setCt x (t.shift w none))))) ∧
          (opc = 0x31 → ∀ i j, ins = [i, j] → ((wSrc w).filter fun k => 3 < k) = [] →
            (∀ v, (a.head x i = some (.data v) ∧ a.head x j = some .null ∨ a.head x i = some .null ∧ a.head x j = some (.data v)) →
              gives v .null) ∧
            (a.head x i = some .null → a.head x j = some .null → fires (((a.pops x ins).emits x w .null .null).setCt x t)) ∧
            (allData → freezes 0x13)) ∧
          (opc = 0x3D → t.count = 1 → ∀ h, t.held = some h → allData → a.linesRoom x w = true → ∀ v,
            (lanes v fun i => if i = 0 then (mxScale imm ((elements h ++ elements (src 0)).map num)).1 else 0) →
            fires ((((a.pops x ins).emits x w (.data v) .null).setCt x
              (CTile.shift { t with held := none, count := 0, x := 0 } w (some v))))) ∧
          (opc = 0x3E → t.count = 1 → ∀ h i d, t.held = some h → (wSrc w).headD 0 = i + 1 → i < 3 → a.head x i = some (.data d) →
            a.linesRoom x w = true → 5 ≤ imm → imm ≤ 10 → ∀ v : TokenVal, coded v (elements h ++ elements d) →
            fires ((((a.pop x i).emits x w (.data v) .null).setCt x
              (CTile.shift { t with held := none, count := 0 } w (some v))))) ∧
          (opc = 0x40 → t.count = 1 → ∀ h y z, t.held = some h → wSrc w = [1, 2, 3] → a.head x 0 = some y → a.head x 1 = some z →
            (y = .null ∧ z ≠ .fin ∨ z = .null ∧ y ≠ .fin →
              fires ((((a.pop x 0).pop x 1).emits x w .null .null).setCt x t)) ∧
            (∀ u p, y = .data u → z = .data p → imm = 10 → a.linesRoom x w = true → ∀ v : TokenVal,
              (lanes v fun l => (BitVec.ofInt 32 (signedOf 32 (p.toNat / 2 ^ (32 * l) % 2 ^ 32) + ((List.range 4).map fun j =>
                signedOf 8 (h.toNat / 2 ^ (32 * l + 8 * j) % 2 ^ 8) * signedOf 8 (u.toNat / 2 ^ (8 * j) % 2 ^ 8)).sum)).toNat) →
              fires ((((a.pop x 0).pop x 1).emits x w (.data u) (.data v)).setCt x (t.shift w (some u)))) ∧
            (∀ u p j, y = .data u → z = .data p → (imm, j) ∈ [(1, 1), (3, 2), (5, 4), (6, 4)] → a.linesRoom x w = true → ∀ v : TokenVal,
              let bits := 32 / j
              let product := fun (l k : Nat) => (fmtValue imm false (h.toNat / 2 ^ (32 * l + bits * k) % 2 ^ bits)).mul
                (fmtValue imm false (u.toNat / 2 ^ (bits * k) % 2 ^ bits))
              (lanes v fun l =>
                let ps := (List.range j).map (product l)
                sum (p.toNat / 2 ^ (32 * l) % 2 ^ 32) (rne (ps.foldl (fun c y => c.add .rne y)
                  (XR.fin (ps.all fun y => y.isZero && y.sign) 0 0)))) →
              fires ((((a.pop x 0).pop x 1).emits x w (.data u) (.data v)).setCt x (t.shift w (some u))))))) ∧
      (opc = 0x40 → t.count = 0 → ∀ v, a.head x 2 = some (.data v) →
        fires ((a.pop x 2).setCt x { t with held := some v, count := 1 })) ∧
      (opc = 0x3C → ∀ i, (wSrc w).headD 1 = i + 1 →
        (a.head x i = some .null → fires (a.pop x i)) ∧
        (a.head x i = some .fin → fires ((a.pop x i).setCt x { t with done := true })) ∧
        (∀ v, a.head x i = some (.data v) → a.upstreamDone w = true → s.pageBack a.run.ctx t.page = true →
          let va := fun (k : Nat) => (a.params.getD k 0).toNat
          let cell := va (imm % 32)
          let pay := va (imm / 32 % 32)
          let check := s.notifyCheck a.run.ctx a.run.syncpg
          let stops := fun (va c : Nat) =>
            exec (.tileFire st slot row col) s = .next (s.freeze st slot a { cause := c, tile := x, va := va })
          let holds := fun (va : Nat) (l : Leaf) =>
            exec (.tileFire st slot row col) s = .next ((s.askFill a.run.ctx l).putActive st slot (a.setCt x { t with page := some va }))
          (∀ c, check pay false = .fault c → stops pay c) ∧ (∀ l, check pay false = .absent l → holds pay l) ∧
          (∀ pp, check pay false = .ok pp →
            (∀ c, check cell true = .fault c → stops cell c) ∧ (∀ l, check cell true = .absent l → holds cell l) ∧
            (∀ pc, check cell true = .ok pc → (s.stack st).notify.length < 64 →
              let e : Notify := ⟨a.run.ctx, a.run.grid, slot, a.run.seq, pc, pp, bytesOfNat (notifyBytes imm) v.toNat,
                a.run.order ++ [row, col, s.tick]⟩
              exec (.tileFire st slot row col) s = .next ((s.putActive st slot
                { (a.pop x i).setCt x { t with page := none } with notifies := a.notifies + 1 }).modStack st fun k =>
                  { k with notify := k.notify ++ [e] })))))) ∧
    (∀ va : Nat, ∀ pages cell l,
      let check := s.notifyCheck a.run.ctx pages va cell
      (2 ^ 54 ≤ va → check = .fault 0x07) ∧
      (va < 2 ^ 54 → s.walk a.run.ctx va = none → check = .fault 0x06) ∧
      (va < 2 ^ 54 → s.walk a.run.ctx va = some l →
        ((l.r && l.w) = false → check = .fault 0x07) ∧
        ((l.r && l.w) = true → l.va ≠ 0 →
          ((l.sync && pages.contains l.va) = false → check = .fault 0x18) ∧
          ((l.sync && pages.contains l.va) = true → l.res = false → check = .absent l) ∧
          ((l.sync && pages.contains l.va) = true → l.res = true → ∀ p, hbmOf (l.addr + va % l.size) = some p →
            (cell = true → (s.cell p).kind ≠ 2 → check = .fault 0x18) ∧
            (cell = false ∨ (s.cell p).kind = 2 → check = .ok p))))) ∧
    (∀ j b, tileKind row col = 2 → a.accept x j = .done b → exec (.mBufferAccept st slot row col j) s = .next (s.putActive st slot b)) ∧
    (∀ j b, tileKind row col = 2 → a.emitBuf x j = .done b → exec (.mBufferEmit st slot row col j) s = .next (s.putActive st slot b)) ∧
    (∀ r t at_ u, a.port? x false = some (r, t) → t.done = false →
      ((s.part st slot).st = .running → t.pos < r.total → s.pageBack a.run.ctx t.waiting = true → a.arcsDone x = true →
        t.flight.length + t.held.length < 8 → s.portCheck st a.run.ctx (portChan (s.part st slot).reg x) (r.addr t.base t.pos) r.write = .ok at_ →
        s.spendPart st (portChan (s.part st slot).reg x) slot = some u →
        exec (.portReadIssue st slot row col) s = .next (u.putActive st slot
          (a.setSt x { t with flight := t.flight ++ [at_], pos := t.pos + 1, waiting := none }))) ∧
      (a.room x 0 = true → ∀ pa fs, t.held = [] → t.flight = pa :: fs →
        (∀ i, i < 64 → AMap.get? s.l2.old (pa + i) = none) → s.portRace a x pa = false → ∃ v : State,
        exec (.portReadReturn st slot row col) s = .next (v.putActive st slot
          ((a.emit x 0 (.data (BitVec.ofNat 512 (natOfBytes (Mem.readN s.hbm pa 64))))).setSt x { t with flight := fs })) ∧
        v.hbm = s.hbm ∧ v.host = s.host ∧ v.cores = s.cores) ∧
      (a.room x 0 = true → ∀ v hs, t.held = v :: hs →
        exec (.portReadReturn st slot row col) s = .next (s.putActive st slot ((a.emit x 0 (.data v)).setSt x { t with held := hs }))) ∧
      (a.room x 0 = true → t.held = [] → t.flight = [] → r.total ≤ t.pos →
        exec (.portReadReturn st slot row col) s = .next (s.putActive st slot ((a.emit x 0 .fin).setSt x { t with done := true })))) ∧
    (∀ r t v at_ u, s.memOk = true → a.port? x true = some (r, t) → t.done = false → t.endSeen = false → a.head x 0 = some (.data v) →
      t.pos < r.total → s.pageBack a.run.ctx t.waiting = true →
      s.portCheck st a.run.ctx (portChan (s.part st slot).reg x) (r.addr t.base t.pos) r.write = .ok at_ →
      s.spendPart st (portChan (s.part st slot).reg x) slot = some u →
      ∃ w, exec (.portWrite st slot row col) s = .next w ∧ w.host = s.host ∧
        ∀ y, Mem.read w.hbm y = if at_ ≤ y ∧ y < at_ + 64 then (bytesOfNat 64 v.toNat).getD (y - at_) 0 else Mem.read s.hbm y) ∧
    (∀ r t, a.port? x true = some (r, t) → t.done = false → t.endSeen = false →
      (a.head x 0 = some .null → exec (.portWrite st slot row col) s = .next (s.putActive st slot (a.pop x 0))) ∧
      (a.head x 0 = some .fin → exec (.portWrite st slot row col) s = .next (s.putActive st slot
        ((a.pop x 0).setSt x { t with endSeen := true, done := t.flight.isEmpty, waiting := none }))) ∧
      (∀ v, a.head x 0 = some (.data v) → r.total ≤ t.pos → exec (.portWrite st slot row col) s =
        .next (s.freeze st slot a { cause := 0x02, tile := x, counters := r.counters t.pos }))) ∧
    (∀ r t f fs, a.port? x true = some (r, t) → t.flight = f :: fs →
      exec (.portWriteAck st slot row col) s = .next (s.putActive st slot
        (a.setSt x { t with flight := fs, done := t.done || (t.endSeen && fs.isEmpty) })))

/-- R253, R408 to R411, R421, R429, R432 to R434, R436, R439: the commands on a context: from which state each moves it to which,
and the status that answers: 3 where the function does not own the context, 2 where the state does not allow the command, 1 where
a field is out of its limits, else 0. Which of the two, 1 or 2, answers what is the model's reading (log entry 25); so are the layouts
of the member list of GRPSET (log entry 24) and of the report of ATTEST (log entry 29). -/
def Obligations.ContextCommands : Prop :=
  ∀ (s : State) (fn ctx : Nat), Ready s fn → ctx < 1024 →
    let st := (s.ctx ctx).st
    let answers := fun (i : Instr) (code : Nat) => exec i s = .next (answered s fn code)
    let put := fun (x : CtxState) => s.modCtx ctx fun c => { c with st := x }
    let entries := (s.ctxs.filter fun (c : Nat × Ctx) => c.2.st ∈ [.active, .saving, .restoring, .killing]).length
    ((s.ctx ctx).owner ≠ fn → ∀ i ∈ [Instr.ctxDefine fn ctx, .ctxUndefine fn ctx, .ctxActivate fn ctx, .ctxPreempt fn ctx,
      .ctxKill fn ctx], answers i 3) ∧
    ((s.ctx ctx).owner = fn →
      (st ≠ .undefined ∨ s.platform.life = .decommissioned → answers (.ctxDefine fn ctx) 2) ∧
      (st = .undefined → s.platform.life ≠ .decommissioned → exec (.ctxDefine fn ctx) s = .next (answered { s with
        ctxs := AMap.set s.ctxs ctx { Ctx.init with st := .defined, owner := fn }
        handles := s.handles.filter fun (h : Nat × HUnit) => h.1 % 1024 != ctx } fn 0)) ∧
      (st ≠ .defined → answers (.ctxUndefine fn ctx) 2) ∧
      (st = .defined → ∃ t, exec (.ctxUndefine fn ctx) s = .next t ∧ t.ctx ctx = { Ctx.init with owner := fn }) ∧
      (64 ≤ entries → answers (.ctxActivate fn ctx) 2) ∧
      (entries < 64 → st = .defined → exec (.ctxActivate fn ctx) s = .next (answered ((put .active).pumpQueues ctx) fn 0)) ∧
      (entries < 64 → st = .saved → exec (.ctxActivate fn ctx) s = .next (working (put .restoring) fn ctx)) ∧
      (entries < 64 → st ≠ .defined → st ≠ .saved → answers (.ctxActivate fn ctx) 2) ∧
      (st ≠ .active → answers (.ctxPreempt fn ctx) 0) ∧
      (st = .active →
        let h := (s.coresOf ctx).foldl (fun (s : State) n => s.haltCore n) s
        let l := (h.coresOf ctx).foldl (fun (s : State) n => s.latchReady true n ctx (List.range 64)) h
        let begun := (l.modCtx ctx fun c => { c with st := .saving, saved := some ⟨[], [], [], [], [], [], []⟩ }).drainParts ctx
        ((h.ctx ctx).st = .active → exec (.ctxPreempt fn ctx) s = .next (working begun fn ctx) ∧ (begun.ctx ctx).st = .saving) ∧
        ((h.ctx ctx).st ≠ .active → exec (.ctxPreempt fn ctx) s = .next (working h fn ctx))) ∧
      (st = .undefined ∨ st = .killing → answers (.ctxKill fn ctx) 2) ∧
      (st = .defined → answers (.ctxKill fn ctx) 0) ∧
      (st ∈ [.active, .saving, .saved, .restoring] → exec (.ctxKill fn ctx) s = .next (working (s.killCtx ctx) fn ctx)) ∧
      (st ≠ .undefined →
        (∀ num v,
          let write := Instr.ctxwrite fn ctx (BitVec.ofNat 32 num) v
          let sets := exec write s = .next (answered (s.setReg ctx num v) fn 0)
          let anyTime := num ∈ [0x03, 0x04, 0x08, 0x0A, 0x0B, 0x16, 0x17]
          let idle := num ∈ [0x02, 0x05, 0x06, 0x0C, 0x0D, 0x0E, 0x0F, 0x10, 0x11, 0x12, 0x13, 0x14, 0x15, 0x18, 0x19, 0x1A,
            0x1F, 0x20, 0x21, 0x22]
          (anyTime → s.regOk ctx num v = true → sets) ∧
          (idle → s.regOk ctx num v = true → (s.ctx ctx).grids = [] → sets) ∧
          (idle → s.regOk ctx num v = true → (s.ctx ctx).grids ≠ [] → answers write 2) ∧
          (anyTime ∨ idle → s.regOk ctx num v = false → answers write 1) ∧
          (num ∈ [0x00, 0x01, 0x07, 0x09, 0x1B, 0x1C, 0x1D, 0x1E] → answers write 1)) ∧
        (∀ n v, n < 256 →
          let write := Instr.ctxwrite fn ctx (BitVec.ofNat 32 (5 * 2 ^ 18 + n)) v
          (v.extractLsb' 37 26 = 0 → exec write s =
            .next (answered (s.modCtx ctx fun c => { c with windows := AMap.set c.windows n v }) fn 0)) ∧
          (v.extractLsb' 37 26 ≠ 0 → answers write 1)) ∧
        (∀ sel v, Selector.parse sel = none → answers (.ctxwrite fn ctx sel v) 1) ∧
        (∀ sel v r, Selector.parse sel = some r → r.group ∉ [0, 5] → answers (.ctxwrite fn ctx sel v) 1) ∧
        (∀ q ring entries serial head, q < 4 → ring.toNat % 256 = 0 → ringSizeOk entries = true → head.toNat % 8 = 0 →
          exec (.qset fn ctx q ring entries serial head) s = .next (answered (s.modCtx ctx fun c => { c with
            hostq := AMap.set c.hostq q ⟨ring.toNat, entries, serial, head.toNat, 0, 0, false⟩
            grids := AMap.mapVals c.grids fun g => if g.hostq == some q then { g with hostq := none } else g }) fn 0)) ∧
        (∀ va len, exec (.inval fn ctx va len) s =
          .next (answered ((s.invalLeaves (s.leavesIn ctx va.toNat len)).dropCode ctx va.toNat len) fn 0)) ∧
        (∀ va len wipe,
          (s.filling ctx va.toNat len = false →
            exec (.unmap fn ctx va len wipe) s = .next (answered (s.finishUnmap ctx va.toNat len wipe) fn 0)) ∧
          (s.filling ctx va.toNat len = true → exec (.unmap fn ctx va len wipe) s = .next { s with
            funcs := AMap.set s.funcs fn { s.func fn with busy := some (.unmap ctx va.toNat len wipe) } })) ∧
        (∀ group rank n va,
          let set := Instr.grpset fn ctx group rank ⟨n, va⟩
          (64 ≤ group ∨ n < 2 ∨ 256 < n ∨ n ≤ rank → answers set 1) ∧
          (group < 64 → 2 ≤ n → n ≤ 256 → rank < n →
            (∀ bs u, s.areaRead ctx va.toNat (4 * n) = .ok (bs, u) →
              let members := (List.range n).map fun i => (natOfBytes ((bs.drop (4 * i)).take 2), natOfBytes ((bs.drop (4 * i + 2)).take 2))
              ((∀ m ∈ members, m.1 < 256 ∧ m.2 < 1024) → exec set s = .next (answered (u.modCtx ctx fun c =>
                { c with groups := AMap.set c.groups group ⟨rank, members, 0, []⟩ }) fn 0)) ∧
              (¬ (∀ m ∈ members, m.1 < 256 ∧ m.2 < 1024) → exec set s = .next (answered u fn 1))) ∧
            (∀ c, s.areaRead ctx va.toNat (4 * n) = .error c →
              exec set s = .next (answered (s.areaLost ctx c { source := 2, cause := c.cause, addr := va }) fn 2)))) ∧
        (∀ nonce va u, nonce.length = 32 →
          let r := s.platform.report nonce
          s.areaWrite ctx va.toNat (r ++ Config.ed25519Sign r ++ Config.mldsa65Sign r) = .ok u →
          exec (.attest fn ctx nonce va) s = .next (answered u fn 0))))

/-- R260, R261, R364, R365, R429, R432, R438 to R441: the commands and events on the device as a whole. A reset and a
transition of the life cycle leave every context UNDEFINED and every byte of HBM zero. What an undefined context's registers and
records hold is the model's choice (`Ctx.init`; log entry 2). -/
def Obligations.DeviceCommands : Prop :=
  (∀ (s : State) (fn stack slot : Nat), Ready s fn →
    (∀ pcs vals, BudgetVals.ok vals = false ∨ 12 ≤ stack → exec (.budget fn stack pcs vals) s = .next (answered s fn 1)) ∧
    (∀ pcs vals, stack < 12 → vals.parts.length = 8 → vals.cd + vals.parts.foldl (· + ·) 0 + vals.ref ≤ 1024 → vals.ce ≤ vals.cd →
      ∃ t, exec (.budget fn stack pcs vals) s = .next t ∧ ∀ i, i < 64 → pcs.getLsbD i = true →
        ((t.stack stack).chan i).pending = some ([vals.cd, vals.ce] ++ vals.parts ++ [vals.ref])) ∧
    (∀ v : Word64, stack < 12 → slot < 8 → v &&& ~~~0xFFDFF = 0 →
      let overlap := ∃ i, i < 8 ∧ i ≠ slot ∧ (s.part stack i).reg.getLsbD 8 = true ∧
        ∃ b, b ∈ prBlocks (s.part stack i).reg ∧ b ∈ prBlocks v
      let bad := v.getLsbD 8 = true ∧ (3 < prBrow v + prBh v ∨ 3 < prBcol v + prBw v ∨ overlap)
      let p := s.part stack slot
      (bad → exec (.partset fn stack slot v) s = .next (answered s fn 1)) ∧
      (¬bad → v ≠ p.reg → p.st ≠ .idle → exec (.partset fn stack slot v) s = .next (answered s fn 2)) ∧
      (¬bad → v = p.reg ∨ p.st = .idle →
        exec (.partset fn stack slot v) s = .next (answered (s.modPart stack slot fun p => { p with reg := v }) fn 0))) ∧
    (∀ target first count haoff, fn = 0 → target ≤ 64 → first + count ≤ 1024 →
      ∃ t, exec (.fnset fn target first count haoff) s = .next t ∧ (t.func target).haoff = haoff ∧
        ∀ i, i < count → (t.ctx (first + i)).owner = target) ∧
    (∀ target auth svn,
      (target ∉ LifeState.nexts s.platform.life → exec (.lifecycle fn target auth svn) s = .next (answered s fn 2)) ∧
      (target ∈ LifeState.nexts s.platform.life → auth = true → svn ≤ 127 → ∃ t, exec (.lifecycle fn target auth svn) s = .next t ∧
        t.platform.life = target ∧ t.platform.svnFuse = max s.platform.svnFuse svn ∧ t.hbm = [] ∧ t.cores = [] ∧
        ∀ c, (t.ctx c).st = .undefined))) ∧
  (∀ (s : State) (stack : Nat),
    (∀ rom image, ∃ t, exec (.deviceReset rom image) s = .next t ∧ t.hbm = [] ∧ t.cores = [] ∧ t.host = s.host ∧
      (∀ c, t.ctx c = Ctx.init) ∧ t.platform.life = s.platform.life ∧ t.platform.svnFuse = s.platform.svnFuse ∧
      (Platform.firmware s.platform image = none → t.platform.running = s.platform.running ∧ t.platform.svn = s.platform.svn) ∧
      (∀ f, Platform.firmware s.platform image = some f → t.platform.running = image ∧ t.platform.svn = f.svn)) ∧
    (∀ lowered, exec (.powerLimit lowered) s = .next { s with platform := { s.platform with slow := lowered } }) ∧
    (∀ pc, stack < 12 → pc < 64 → let c := (s.stack stack).chan pc
      (∃ t, exec (.channelPeriod stack pc) s = .next t ∧
        let b := c.pending.getD c.budget
        let d := (t.stack stack).chan pc
        d.budget = b ∧ d.pending = none ∧ d.allBank = c.allBank ∧
        (c.allBank = true → d.left = b ∧ d.postponed = c.postponed) ∧
        (c.allBank = false → b.length = 11 → ∃ k, d.postponed = c.postponed.drop k ∧ k ≤ c.postponed.length ∧
          d.left.getD 10 0 + 4 * k = b.getD 10 0 ∧ (k = c.postponed.length ∨ d.left.getD 10 0 < 4) ∧
          ∀ i, i < 10 → d.left.getD i 0 = b.getD i 0)) ∧
      (∀ bank, bank < 16 → ∃ t, exec (.refreshDue stack pc bank) s = .next t ∧
        let d := (t.stack stack).chan pc
        let c := c.caught
        (4 ≤ c.left.getD 10 0 → c.allBank = false → c.left.length = 11 → d.left.getD 10 0 = c.left.getD 10 0 - 4 ∧ d.postponed = c.postponed) ∧
        (c.left.getD 10 0 < 4 ∨ c.allBank = true → c.postponed.count bank ≠ 8 → d.postponed = c.postponed ++ [bank]) ∧
        (c.left.getD 10 0 < 4 ∨ c.allBank = true → c.postponed.count bank = 8 → d.postponed = [] ∧ d.allBank = true)) ∧
      (c.allBank = true → exec (.allBankRefreshEnd stack pc) s = .next (s.modStack stack fun t => t.modChan pc fun c =>
        PChan.caught { c with allBank := false }))))

/-- R83, R145, R418, R423, R431, R435, R436: accesses from peers and from the host, messages of a reduction, and writes of
registers from outside. A peer's write lands at the place that the context's tables give, the host's in the window of its
function; neither changes another byte. A register value out of its limits, or of a register that is fixed while grids are
live, changes nothing. What a refused access leaves (log entry 31) and how the messages of a reduction are checked, kept and
ordered (log entry 24) are the model's choices. -/
def Obligations.EventsFromOutside : Prop :=
  (∀ s : State, s.memOk = true →
     let changed := fun (t : State) (a : Nat) (bs : List Byte) =>
       ∀ x, Mem.read t.hbm x = if a ≤ x ∧ x < a + bs.length then bs.getD (x - a) 0 else Mem.read s.hbm x
     (∀ ctx va bs a, (s.ctx ctx).st = .active → bs.length ∈ [1, 2, 4, 8, 16, 32, 64, 128] →
       PeerOp.sizeOk bs.length (.write bs) = true → s.ownEarlier ⟨ctx, va, bs.length, .write bs⟩ = false →
       s.reach ctx { w := true } anyPage [⟨0, va, bs.length⟩] = .ok [.hbm a] →
       ∃ t, exec (.peerRequest ⟨ctx, va, bs.length, .write bs⟩) s = .next t ∧ changed t a bs ∧ t.host = s.host ∧ t.cores = s.cores) ∧
     (∀ r, PeerOp.sizeOk r.size r.op = true → s.ownEarlier r = false → (s.ctx r.ctx).st ≠ .active → exec (.peerRequest r) s = .next (s.dropRequest r)) ∧
     (∀ r x, PeerOp.sizeOk r.size r.op = true → s.ownEarlier r = false →
       s.reach r.ctx { r := PeerOp.isRead r.op, w := PeerOp.isWrite r.op, noHost := PeerOp.isAtomic r.op } anyPage [⟨0, r.va, r.size⟩] = .fail x →
       exec (.peerRequest r) s = .next (s.dropRequest r)) ∧
     (∀ fn off bs a, fn ≤ 64 → bs ≠ [] → off + bs.length ≤ 2 ^ 36 →
       let pa := 0x100 * 2 ^ 32 + (s.func fn).bar2 + off
       pa % 4096 + bs.length ≤ 4096 → hbmOf pa = some a →
       ∃ t, exec (.hostBar2Access fn ⟨off, bs.length, some bs⟩) s = .next t ∧ changed t a bs ∧ t.host = s.host ∧ t.cores = s.cores) ∧
     (∀ m : RblkMsg,
       let own := s.outbox.find? fun x => x.1 == Config.deviceNumber 0 && x.2.2 == m
       let group := AMap.get? (s.ctx m.ctx).groups m.group
       let op := (s.ctx m.ctx).rblk.find? fun o => o.group == m.group && o.k == m.k && o.phase != 0
       (own = none →
         (group = none → exec (.rblkMessage m) s = .next s) ∧
         (∀ g, group = some g → op = none → exec (.rblkMessage m) s = .next (if g.issued ≤ m.k then
           s.modGroup m.ctx m.group fun g => { g with early := g.early ++ [m] } else s)) ∧
         (∀ g o, group = some g → op = some o →
           let formed := m.nranks = g.members.length ∧ m.crc = g.crc ∧ m.rank < g.members.length ∧ m.rank ≠ g.rank ∧
             m.nblk = o.nblk ∧ m.tag = o.tag
           (o.phase ≤ 1 → m.phase ≠ 3 → exec (.rblkMessage m) s = .next
             (s.modGroup m.ctx m.group fun g => { g with early := g.early ++ [m] })) ∧
           (1 < o.phase → m.phase = 1 → formed → exec (.rblkMessage m) s = .next (s.putRblk m.ctx { o with got1 := AMap.set o.got1 m.rank m })) ∧
           (1 < o.phase → m.phase = 1 → ¬formed → exec (.rblkMessage m) s = .next (s.rblkFault m.ctx o 0x02 0 false)) ∧
           (1 < o.phase → m.phase = 2 → exec (.rblkMessage m) s = .next (s.putRblk m.ctx { o with got2 := AMap.set o.got2 m.rank m })) ∧
           (m.phase = 3 → exec (.rblkMessage m) s = .next (s.rblkFault m.ctx o 0x07 0 false)))) ∧
       (∀ x, own = some x → group = none →
         let u := { s with outbox := s.outbox.erase x }
         exec (.rblkMessage m) s = .next (if m.phase = 3 then u else u.rblkRefuse x.2.1 m))) ∧
     (∀ ctx group k, AMap.get? (s.ctx ctx).groups group = none → exec (.rblkAbort ctx group k) s = .next s) ∧
     (∀ ctx group k o g, AMap.get? (s.ctx ctx).groups group = some g →
       (s.ctx ctx).rblk.find? (fun o => o.group == group && o.k == k && o.phase != 0) = some o →
       exec (.rblkAbort ctx group k) s = .next (s.rblkTake ctx o
         { ctx := ctx, group := group, k := k, phase := 3, rank := 0, nranks := 0, nblk := 0, tag := 0, crc := 0, codes := [], mants := [] }))) ∧
  (∀ (s : State) (ctx n : Nat) (v : Word64),
     let write := fun (i : Instr) (num : Nat) (any : Bool) =>
       (any = true ∨ (s.ctx ctx).grids = [] → s.regOk ctx num v = true → exec i s = .next (s.setReg ctx num v)) ∧
       (s.regOk ctx num v = false ∨ any = false ∧ (s.ctx ctx).grids ≠ [] → exec i s = .next s)
     write (.frtailWrite ctx v) 0x08 true ∧ write (.covsizeWrite ctx v) 0x0B true ∧ write (.detctlWrite ctx v) 0x15 false ∧
     (n < 4 → write (.feataccWrite ctx n v) (0x1F + n) false) ∧
     (n < 256 →
       (v.extractLsb' 37 26 = 0 → exec (.peerWindowWrite ctx n v) s =
         .next (s.modCtx ctx fun c => { c with windows := AMap.set c.windows n v })) ∧
       (v.extractLsb' 37 26 ≠ 0 → exec (.peerWindowWrite ctx n v) s = .next s)) ∧
     (s.regOk ctx 0x08 v = true ↔ s.regN ctx 0x08 ≤ v.toNat ∧ v.toNat ≤ s.regN ctx 0x07))

/-- R440: reset leaves HBM and every core, cache and base die zero, every context UNDEFINED, and nothing to do. What host
memory and a few registers hold that the manual gives no value for is the model's choice (log entries 2 and 4). -/
def Obligations.ResetState : Prop :=
  let s := State.reset
  s.hbm = [] ∧ s.l2.held = [] ∧ s.l2.old = [] ∧ s.l2.stale = [] ∧ s.l2.half = [] ∧ (∀ c, s.core c = Core.init) ∧ (∀ c, s.cluster c = Cluster.init) ∧
  (∀ c, (s.ctx c).st = .undefined ∧ (s.ctx c).grids = []) ∧
  (∀ n p, ((s.stack n).chan p).budget = [992, 496, 0, 0, 0, 0, 0, 0, 0, 0, 32] ∧ (s.part n p).st = .idle ∧ (s.part n p).reg = 0) ∧
  (∀ c n, n ≠ 0 → n ≠ 0x1B → s.reg c n = 0) ∧ (∀ c, s.reg c 0x1B = 0x7FF) ∧
  s.fills = [] ∧ s.handles = [] ∧ s.scOps = [] ∧ s.sel = none ∧ s.memOk = true

/-- The memories of HBM, of the host and of the cores' spaces keep their canonical form in every step: an instruction's, an
event's, one of the host's. The form is the model's way to hold memory (log entry 4). -/
def Obligations.StepKeepsMemory : Prop :=
  ∀ s t : State, s.memOk = true → step s = .next t → t.memOk = true

/-- R15, R16, R19, R24, R28, R29: of a well-formed instruction the decoder reads what the encoder wrote, and a word that it
reads is the word of what it read, which is well formed. -/
def Obligations.DecodeAndEncode : Prop :=
  (∀ i : Instr, i.wf = true → decode (encode i) = .ok i) ∧ (∀ (w : InstrWord) (i : Instr), decode w = .ok i → encode i = w ∧ i.wf = true)

/-- Words that the manual spells out, after R16, R125, R163, R219, R234, R264, R297, R302 and R330, and words that are none. -/
def Obligations.DecodeWords : Prop :=
  let plain : Hdr := ⟨.always, 0, 0, false, 0⟩
  let v := fun (n : BitVec 8) => Operand.v n false false
  let s := fun (n : BitVec 6) => Operand.s n false false
  decode 0x200000000880160002000000 = .ok (.mov plain ⟨v 2, .idx 0 5 false false, .zero, .zero⟩ ⟨false⟩) ∧
  decode 0xC5000200000010C01E000002 = .ok (.tspawn plain ⟨.zero, v 4, .imm 7, .zero⟩ ⟨2⟩) ∧
  decode 0x9000000014000800_00010030 = .ok (.ldl plain ⟨v 5, v 2⟩ 0x40 ⟨0, 1, true⟩) ∧
  decode 0xA00000000840100000010180 = .ok (.ld plain ⟨v 2, s 4⟩ 0x40 ⟨3, false, false, 0⟩) ∧
  decode 0xBA000200004028402E000000 = .ok (.mbwait plain ⟨.zero, s 10, s 11, .zero⟩) ∧
  decode 0xD00001400840204024C00C14 = .ok (.copy plain ⟨.h 2, s 8, s 9, .imm 3⟩ ⟨0, 1, 1⟩) ∧
  decode 0xD20001400C40504054405980 = .ok (.mma plain ⟨.h 3, s 20, s 21, s 22⟩ ⟨1, true, false⟩) ∧
  decode 0x80000000_09000CC0_16000030 = .ok (.ivbisect plain ⟨v 2, .p 3, .imm 5, .zero⟩ ⟨.rne, .iv32, false, false⟩) ∧
  (∀ w : InstrWord, w.extractLsb' 88 8 = 0 → ∃ x, decode w = .error x) ∧
  (∀ w : InstrWord, w.extractLsb' 88 8 = 0x07 → w.extractLsb' 82 6 ≠ 0 → ∃ x, decode w = .error x)

/-- R10, R11, R14, R32, R428: an issue slot fetches the twelve bytes at the chosen path's PC and runs exactly the instruction that
they decode to, selected for that path; a word that decodes to nothing, or in a line whose header is not zero, raises ILLOP.
The bytes come from a line of code: as it is in memory, or as an instruction cache still holds it (which of the two, where they
differ, is free: log entry 20); a line of a SYNC page is never held (R251). While a line is on its way (log entry 46) the slot passes. The
agenda and the settling of waits after the instruction are the model's (log entry 1). No instruction of a selected path stops the
machine. -/
def Obligations.StepRunsDecoded : Prop :=
  (∀ (s : State) (c port slot : Nat) (rest : List Move) (g : Sig) (p : Path), s.agenda = .issue c port :: rest →
    let s1 := { s with tick := s.tick + 1, sel := none, platform := s.platform.serviceTick s.tick, agenda := rest }
    s1.choose c port = some (slot, g, p) → p.wdog = none → p.fault = none →
    let s2 := (s1.codeReady g.ctx p.pc).2
    ((s1.codeReady g.ctx p.pc).1 = false → step s = .next (s2.after true)) ∧
    ((s1.codeReady g.ctx p.pc).1 = true →
    (∀ w u i, (s2.chosen c port (slot, g, p)).fetch g.ctx p.pc = .word w u → decode w = .ok i →
      (∀ t, exec i { u with sel := some ⟨c, slot, p.idx, w, false⟩ } = .next t → step s = .next (t.after false)) ∧
      (∀ x, exec i { u with sel := some ⟨c, slot, p.idx, w, false⟩ } = .fault x → step s = .fault x) ∧
      (∀ x, exec i { u with sel := some ⟨c, slot, p.idx, w, false⟩ } = .refused x → step s = .refused x)) ∧
    (∀ w u, ((s2.chosen c port (slot, g, p)).fetch g.ctx p.pc = .illegal w u ∨
        (s2.chosen c port (slot, g, p)).fetch g.ctx p.pc = .word w u ∧ ∃ x, decode w = .error x) →
      step s = .next (((u.envWith c slot ((u.sig? c slot).getD g) p w).raise ⟨0x01, 0, none⟩).after true)))) ∧
  (∀ (i : Instr) (h : Hdr) (s : State) (e : Env), hdrOf i = some h → s.env = some e → ∃ t, exec i s = .next t) ∧
  (∀ (s : State) (ctx a : Nat) (pc : Word64), s.reach ctx { x := true } anyPage [⟨0, pc, 4⟩] = .ok [.hbm a] →
    let off := pc.toNat % 128
    let line := a - off
    let now := Mem.readN s.hbm line 128
    let held := AMap.get? (s.ctx ctx).icache (pc.toNat / 128)
    pcValid pc = true → off ≤ a → (∀ x ∈ linesOf line 128, x ∉ s.l2.stale) →
    (held = none ∨ held = some now ∨ (∃ l, s.walk ctx pc.toNat = some l ∧ l.sync = true) →
      (Mem.readN s.hbm line 8 = List.replicate 8 0 → ∃ u, s.fetch ctx pc = .word (wordOfBytes (Mem.readN s.hbm a 12)) u ∧ u.hbm = s.hbm) ∧
      (Mem.readN s.hbm line 8 ≠ List.replicate 8 0 → ∃ u, s.fetch ctx pc = .illegal (wordOfBytes (Mem.readN s.hbm a 12)) u)) ∧
    (∀ old, held = some old → ∃ bs u, (bs = old ∨ bs = now) ∧ u.hbm = s.hbm ∧
      let w := wordOfBytes ((bs.drop off).take 12)
      s.fetch ctx pc = if natOfBytes (bs.take 8) = 0 then .word w u else .illegal w u))

/-- R128, R415: a fault. Not enabled, or in a handler: the quire or wave is killed, with the record. Else, the port's handler
free: the path enters it at TRAPVEC with the window set, its own registers, mask and stack as they were. Else it parts with
reason TRAP and waits for the handler. No memory changes in the last two. -/
def Obligations.ExceptionEntry : Prop :=
  ∀ (s : State) (h : Hdr) (e : Env) (x : Trap) (g0 : Sig), (s.env.map fun e0 => e0.guarded h) = some e → e.path.port < 4 →
    s.sig? e.sel.core e.sel.slot = some g0 →
    let failing := x.failing.getD e.act
    let info : TrapInfo := ⟨x.cause, e.path.pc, x.t2, e.sel.word, e.act, failing⟩
    let t := e.raise x
    let enabled := s.reg e.sig.ctx 0x03 ≠ 0 ∧ (s.reg e.sig.ctx 0x04).getLsbD x.cause = true
    (¬ enabled ∨ e.path.handler = true → t = e.killWith s info) ∧
    (enabled → e.path.handler = false → e.port.handler = none → ∃ g p,
      t.sig? e.sel.core e.sel.slot = some g ∧ g.path? e.sel.pidx = some p ∧
      p.pc = s.reg e.sig.ctx 0x03 ∧ p.handler = true ∧ p.mask = e.path.mask ∧ p.nest = e.path.nest ∧ p.port = e.path.port ∧
      g = { g0 with paths := g.paths } ∧ (∀ i, i ≠ e.sel.pidx → g.path? i = g0.path? i) ∧
      (∀ c, c ≠ e.sel.core → t.core c = s.core c) ∧ t.ctxs = s.ctxs ∧ t.hbm = s.hbm ∧ t.host = s.host ∧
      let q := (t.core e.sel.core).port e.path.port
      q.handler = some (e.sel.slot, e.path.idx) ∧ ∀ l : Lane,
        (q.treg 0)[l] = BitVec.ofNat 64 (x.cause + 256 * e.path.idx) ∧ (q.treg 1)[l] = e.path.pc ∧ (q.treg 2)[l] = x.t2 ∧
        (q.treg 3)[l] = BitVec.ofNat 64 ((e.act.getLsbD l.val).toNat + 2 * (failing.getLsbD l.val).toNat) ∧
        (q.treg 4)[l] = e.sel.word.extractLsb' 0 64 ∧ (q.treg 5)[l] = (e.sel.word.extractLsb' 64 32).setWidth 64 ∧
        (q.treg 6)[l] = BitVec.ofNat 64 (e.path.mask.getLsbD l.val).toNat) ∧
    (enabled → e.path.handler = false → e.port.handler ≠ none → ∃ r,
      (t.core e.sel.core).records = e.core.records ++ [r] ∧ r.reason = 0x10 ∧ r.ready = false ∧ r.wait = .trap info ∧
      r.resume = e.path.pc ∧ r.mask = e.path.mask ∧ r.pidx = e.path.idx ∧ r.slot = e.sel.slot ∧ r.port = e.path.port ∧
      r.iret = g0.iret ∧ t.hbm = s.hbm ∧ t.host = s.host ∧
      (t.sig? e.sel.core e.sel.slot).map (fun g => g.paths) = some (g0.paths.filter fun p => p.idx != e.path.idx))

/-- R19 to R22, R31 to R33, R125, R415: before an instruction has any effect it is checked for DYN with a code of FPCTL that is none,
a feature that is not accepted, a t register outside a handler or an instruction that is for handlers only, an operand field that does
not fit its position: the first that fails is raised, ILLOP, FEATURE, PRIV or OPERAND, whether or not a lane is active. With none of
them and no active lane it retires without effect. With an active lane, an indexed operand whose register lies outside the window of
k, or at or above the budget, raises INDEX with that register's number in t2, where the instruction looks at its indexed operands
first (of several that fail, one of them). A JOIN with a guard decodes to nothing and
raises ILLOP. -/
def Obligations.NoActiveLane : Prop :=
  (∀ (i : Instr) (h : Hdr) (d : Demand) (s : State) (e : Env), hdrOf i = some h → demand i = some d →
    (s.env.map fun e0 => e0.guarded h) = some e →
    (∀ c, firstFailure e d = some c → Raises i e ⟨c, 0, none⟩) ∧
    (firstFailure e d = none →
      (e.act = 0 → Retires i e e.s) ∧
      (e.act ≠ 0 → Turn e → (∃ o ∈ d.index, e.indexFault [o] ≠ none) →
        ∃ o ∈ d.index, ∃ x, e.indexFault [o] = some x ∧ Raises i e x))) ∧
  (∀ (e : Env) (k : BitVec 2) (off : BitVec 8) (neg abs pair : Bool),
    let c := e.sig.k[k.toNat]?.getD (0, 0)
    let n : Int := (c.1 : Int) + off.toInt
    let top : Int := if pair then n + 1 else n
    let fits := 0 ≤ n ∧ top < (c.2 : Int) ∧ top < (e.sig.B : Int) ∧ (pair = true → n % 2 = 0)
    (fits → e.indexFault [(.idx k off neg abs, pair)] = none) ∧
    (¬ fits → e.indexFault [(.idx k off neg abs, pair)] = some ⟨0x03, BitVec.ofInt 64 n, none⟩)) ∧
  (∀ (s u : State) (c slot : Nat) (g : Sig) (p : Path) (w : InstrWord), s.fetch g.ctx p.pc = .word w u → p.wdog = none → p.fault = none →
    w.extractLsb' 88 8 = 0x07 → w.extractLsb' 82 6 ≠ 0 →
    s.issuePath c slot g p = .spent ((u.envWith c slot ((u.sig? c slot).getD g) p w).raise ⟨0x01, 0, none⟩))

/-- R93, R130 and the groups' rules: an instruction that writes only registers changes nothing but its destinations in the
active lanes, its path's place and the counts; or it raises a fault. -/
def Obligations.RegisterFrame : Prop :=
  ∀ (i : Instr) (h : Hdr) (s t : State) (e : Env) (ds : List (Operand × Bool)), hdrOf i = some h → writes i = some ds →
    (s.env.map fun e0 => e0.guarded h) = some e → exec i s = .next t → (∃ x, t = e.raise x) ∨ Keeps e t ds

/-- R234, R264, R266: what an instruction of this list stores to global memory is on its way, or an agent performs it: at its
issue every byte of HBM and of the host is as before. Outside the serial phase, with room in the record store. -/
def Obligations.MemoryFrame : Prop :=
  ∀ (i : Instr) (h : Hdr) (s t : State) (e : Env), hdrOf i = some h → leavesMemory i = true →
    (s.env.map fun e0 => e0.guarded h) = some e → e.sel.serial = false → e.core.storeFull = false → exec i s = .next t →
    (∃ x, t = e.raise x) ∨ t.hbm = s.hbm ∧ t.host = s.host
end

