-- ==== Sys2Proof/Laws/Decode.lean ====
section
/-!
SUPPORT. Laws/Decode.lean: reading back the fields that the encoder lays out: the header, the operand fields, the MOD
fields of each kind.
-/
namespace Sys2Proof

set_option Elab.async false

/-! ### Fields of an appended word -/

theorem bit_append_hi {v w : Nat} {x : BitVec v} {y : BitVec w} {i : Nat} (h : w ≤ i) :
    bit (x ++ y) i = bit x (i - w) := by
  simp [bit, BitVec.getLsbD_append, Nat.not_lt.mpr h]

theorem bit_append_lo {v w : Nat} {x : BitVec v} {y : BitVec w} {i : Nat} (h : i < w) : bit (x ++ y) i = bit y i := by
  simp [bit, BitVec.getLsbD_append, h]

theorem bit_ofBool (b : Bool) : bit (BitVec.ofBool b) 0 = b := by cases b <;> rfl

theorem Cond.ofCode_code (c : Cond) : Cond.ofCode c.code.toNat = some c := by cases c <;> rfl
theorem Rm.ofCode_code (r : Rm) : Rm.ofCode r.code.toNat = some r := by cases r <;> rfl
theorem Ty.ofCode_code (t : Ty) : Ty.ofCode t.code.toNat = some t := by cases t <;> rfl

/-! ### Format R -/

theorem encR_op (op : BitVec 8) (h : Hdr) (o : Ops4) (m : BitVec 10) : (encR op h o m).extractLsb' 88 8 = op := by
  unfold encR Hdr.bits
  repeat first
    | refine (BitVec.extractLsb'_append_eq_of_le (by decide)).trans ?_
    | refine (BitVec.extractLsb'_append_eq_of_add_le (by decide)).trans ?_
  exact BitVec.extractLsb'_eq_self

theorem encR_cond (op : BitVec 8) (h : Hdr) (o : Ops4) (m : BitVec 10) : (encR op h o m).extractLsb' 85 3 = h.cond.code := by
  unfold encR Hdr.bits
  repeat first
    | refine (BitVec.extractLsb'_append_eq_of_le (by decide)).trans ?_
    | refine (BitVec.extractLsb'_append_eq_of_add_le (by decide)).trans ?_
  exact BitVec.extractLsb'_eq_self

theorem encR_pred (op : BitVec 8) (h : Hdr) (o : Ops4) (m : BitVec 10) : (encR op h o m).extractLsb' 82 3 = h.pred := by
  unfold encR Hdr.bits
  repeat first
    | refine (BitVec.extractLsb'_append_eq_of_le (by decide)).trans ?_
    | refine (BitVec.extractLsb'_append_eq_of_add_le (by decide)).trans ?_
  exact BitVec.extractLsb'_eq_self

theorem encR_stall (op : BitVec 8) (h : Hdr) (o : Ops4) (m : BitVec 10) : (encR op h o m).extractLsb' 79 3 = h.stall := by
  unfold encR Hdr.bits
  repeat first
    | refine (BitVec.extractLsb'_append_eq_of_le (by decide)).trans ?_
    | refine (BitVec.extractLsb'_append_eq_of_add_le (by decide)).trans ?_
  exact BitVec.extractLsb'_eq_self

theorem encR_reuse (op : BitVec 8) (h : Hdr) (o : Ops4) (m : BitVec 10) : (encR op h o m).extractLsb' 75 3 = h.reuse := by
  unfold encR Hdr.bits
  repeat first
    | refine (BitVec.extractLsb'_append_eq_of_le (by decide)).trans ?_
    | refine (BitVec.extractLsb'_append_eq_of_add_le (by decide)).trans ?_
  exact BitVec.extractLsb'_eq_self

theorem encR_d (op : BitVec 8) (h : Hdr) (o : Ops4) (m : BitVec 10) : (encR op h o m).extractLsb' 58 16 = o.d.bits := by
  unfold encR Hdr.bits
  repeat first
    | refine (BitVec.extractLsb'_append_eq_of_le (by decide)).trans ?_
    | refine (BitVec.extractLsb'_append_eq_of_add_le (by decide)).trans ?_
  exact BitVec.extractLsb'_eq_self

theorem encR_a (op : BitVec 8) (h : Hdr) (o : Ops4) (m : BitVec 10) : (encR op h o m).extractLsb' 42 16 = o.a.bits := by
  unfold encR Hdr.bits
  repeat first
    | refine (BitVec.extractLsb'_append_eq_of_le (by decide)).trans ?_
    | refine (BitVec.extractLsb'_append_eq_of_add_le (by decide)).trans ?_
  exact BitVec.extractLsb'_eq_self

theorem encR_b (op : BitVec 8) (h : Hdr) (o : Ops4) (m : BitVec 10) : (encR op h o m).extractLsb' 26 16 = o.b.bits := by
  unfold encR Hdr.bits
  repeat first
    | refine (BitVec.extractLsb'_append_eq_of_le (by decide)).trans ?_
    | refine (BitVec.extractLsb'_append_eq_of_add_le (by decide)).trans ?_
  exact BitVec.extractLsb'_eq_self

theorem encR_c (op : BitVec 8) (h : Hdr) (o : Ops4) (m : BitVec 10) : (encR op h o m).extractLsb' 10 16 = o.c.bits := by
  unfold encR Hdr.bits
  repeat first
    | refine (BitVec.extractLsb'_append_eq_of_le (by decide)).trans ?_
    | refine (BitVec.extractLsb'_append_eq_of_add_le (by decide)).trans ?_
  exact BitVec.extractLsb'_eq_self

theorem encR_mod (op : BitVec 8) (h : Hdr) (o : Ops4) (m : BitVec 10) : (encR op h o m).extractLsb' 0 10 = m := by
  unfold encR Hdr.bits
  repeat first
    | refine (BitVec.extractLsb'_append_eq_of_le (by decide)).trans ?_
    | refine (BitVec.extractLsb'_append_eq_of_add_le (by decide)).trans ?_
  exact BitVec.extractLsb'_eq_self

theorem encR_hint0 (op : BitVec 8) (h : Hdr) (o : Ops4) (m : BitVec 10) : bit (encR op h o m) 74 = false := by
  unfold encR Hdr.bits
  repeat first
    | refine (bit_append_hi (by decide)).trans ?_
    | refine (bit_append_lo (by decide)).trans ?_
  exact rfl

theorem encR_yld (op : BitVec 8) (h : Hdr) (o : Ops4) (m : BitVec 10) : bit (encR op h o m) 78 = h.yld := by
  unfold encR Hdr.bits
  repeat first
    | refine (bit_append_hi (by decide)).trans ?_
    | refine (bit_append_lo (by decide)).trans ?_
  exact bit_ofBool _

/-- The header of format R is read back. -/
theorem encR_hdr (op : BitVec 8) (h : Hdr) (o : Ops4) (m : BitVec 10) : Hdr.parse (encR op h o m) = .ok h := by
  unfold Hdr.parse
  rw [encR_hint0, encR_cond, encR_pred, encR_stall, encR_yld, encR_reuse, Cond.ofCode_code]
  rfl

/-! ### Format I -/

theorem encI_op (op : BitVec 8) (h : Hdr) (o : Ops2) (imm : BitVec 32) (m : BitVec 10) : (encI op h o imm m).extractLsb' 88 8 = op := by
  unfold encI Hdr.bits
  repeat first
    | refine (BitVec.extractLsb'_append_eq_of_le (by decide)).trans ?_
    | refine (BitVec.extractLsb'_append_eq_of_add_le (by decide)).trans ?_
  exact BitVec.extractLsb'_eq_self

theorem encI_cond (op : BitVec 8) (h : Hdr) (o : Ops2) (imm : BitVec 32) (m : BitVec 10) : (encI op h o imm m).extractLsb' 85 3 = h.cond.code := by
  unfold encI Hdr.bits
  repeat first
    | refine (BitVec.extractLsb'_append_eq_of_le (by decide)).trans ?_
    | refine (BitVec.extractLsb'_append_eq_of_add_le (by decide)).trans ?_
  exact BitVec.extractLsb'_eq_self

theorem encI_pred (op : BitVec 8) (h : Hdr) (o : Ops2) (imm : BitVec 32) (m : BitVec 10) : (encI op h o imm m).extractLsb' 82 3 = h.pred := by
  unfold encI Hdr.bits
  repeat first
    | refine (BitVec.extractLsb'_append_eq_of_le (by decide)).trans ?_
    | refine (BitVec.extractLsb'_append_eq_of_add_le (by decide)).trans ?_
  exact BitVec.extractLsb'_eq_self

theorem encI_stall (op : BitVec 8) (h : Hdr) (o : Ops2) (imm : BitVec 32) (m : BitVec 10) : (encI op h o imm m).extractLsb' 79 3 = h.stall := by
  unfold encI Hdr.bits
  repeat first
    | refine (BitVec.extractLsb'_append_eq_of_le (by decide)).trans ?_
    | refine (BitVec.extractLsb'_append_eq_of_add_le (by decide)).trans ?_
  exact BitVec.extractLsb'_eq_self

theorem encI_reuse (op : BitVec 8) (h : Hdr) (o : Ops2) (imm : BitVec 32) (m : BitVec 10) : (encI op h o imm m).extractLsb' 75 3 = h.reuse := by
  unfold encI Hdr.bits
  repeat first
    | refine (BitVec.extractLsb'_append_eq_of_le (by decide)).trans ?_
    | refine (BitVec.extractLsb'_append_eq_of_add_le (by decide)).trans ?_
  exact BitVec.extractLsb'_eq_self

theorem encI_d (op : BitVec 8) (h : Hdr) (o : Ops2) (imm : BitVec 32) (m : BitVec 10) : (encI op h o imm m).extractLsb' 58 16 = o.d.bits := by
  unfold encI Hdr.bits
  repeat first
    | refine (BitVec.extractLsb'_append_eq_of_le (by decide)).trans ?_
    | refine (BitVec.extractLsb'_append_eq_of_add_le (by decide)).trans ?_
  exact BitVec.extractLsb'_eq_self

theorem encI_a (op : BitVec 8) (h : Hdr) (o : Ops2) (imm : BitVec 32) (m : BitVec 10) : (encI op h o imm m).extractLsb' 42 16 = o.a.bits := by
  unfold encI Hdr.bits
  repeat first
    | refine (BitVec.extractLsb'_append_eq_of_le (by decide)).trans ?_
    | refine (BitVec.extractLsb'_append_eq_of_add_le (by decide)).trans ?_
  exact BitVec.extractLsb'_eq_self

theorem encI_imm (op : BitVec 8) (h : Hdr) (o : Ops2) (imm : BitVec 32) (m : BitVec 10) : (encI op h o imm m).extractLsb' 10 32 = imm := by
  unfold encI Hdr.bits
  repeat first
    | refine (BitVec.extractLsb'_append_eq_of_le (by decide)).trans ?_
    | refine (BitVec.extractLsb'_append_eq_of_add_le (by decide)).trans ?_
  exact BitVec.extractLsb'_eq_self

theorem encI_mod (op : BitVec 8) (h : Hdr) (o : Ops2) (imm : BitVec 32) (m : BitVec 10) : (encI op h o imm m).extractLsb' 0 10 = m := by
  unfold encI Hdr.bits
  repeat first
    | refine (BitVec.extractLsb'_append_eq_of_le (by decide)).trans ?_
    | refine (BitVec.extractLsb'_append_eq_of_add_le (by decide)).trans ?_
  exact BitVec.extractLsb'_eq_self

theorem encI_hint0 (op : BitVec 8) (h : Hdr) (o : Ops2) (imm : BitVec 32) (m : BitVec 10) : bit (encI op h o imm m) 74 = false := by
  unfold encI Hdr.bits
  repeat first
    | refine (bit_append_hi (by decide)).trans ?_
    | refine (bit_append_lo (by decide)).trans ?_
  exact rfl

theorem encI_yld (op : BitVec 8) (h : Hdr) (o : Ops2) (imm : BitVec 32) (m : BitVec 10) : bit (encI op h o imm m) 78 = h.yld := by
  unfold encI Hdr.bits
  repeat first
    | refine (bit_append_hi (by decide)).trans ?_
    | refine (bit_append_lo (by decide)).trans ?_
  exact bit_ofBool _

/-- The header of format I is read back. -/
theorem encI_hdr (op : BitVec 8) (h : Hdr) (o : Ops2) (imm : BitVec 32) (m : BitVec 10) : Hdr.parse (encI op h o imm m) = .ok h := by
  unfold Hdr.parse
  rw [encI_hint0, encI_cond, encI_pred, encI_stall, encI_yld, encI_reuse, Cond.ofCode_code]
  rfl

/-! ### Format J -/

theorem encJ_op (op : BitVec 8) (h : Hdr) (o : Ops2) (t u : BitVec 21) : (encJ op h o t u).extractLsb' 88 8 = op := by
  unfold encJ Hdr.bits
  repeat first
    | refine (BitVec.extractLsb'_append_eq_of_le (by decide)).trans ?_
    | refine (BitVec.extractLsb'_append_eq_of_add_le (by decide)).trans ?_
  exact BitVec.extractLsb'_eq_self

theorem encJ_cond (op : BitVec 8) (h : Hdr) (o : Ops2) (t u : BitVec 21) : (encJ op h o t u).extractLsb' 85 3 = h.cond.code := by
  unfold encJ Hdr.bits
  repeat first
    | refine (BitVec.extractLsb'_append_eq_of_le (by decide)).trans ?_
    | refine (BitVec.extractLsb'_append_eq_of_add_le (by decide)).trans ?_
  exact BitVec.extractLsb'_eq_self

theorem encJ_pred (op : BitVec 8) (h : Hdr) (o : Ops2) (t u : BitVec 21) : (encJ op h o t u).extractLsb' 82 3 = h.pred := by
  unfold encJ Hdr.bits
  repeat first
    | refine (BitVec.extractLsb'_append_eq_of_le (by decide)).trans ?_
    | refine (BitVec.extractLsb'_append_eq_of_add_le (by decide)).trans ?_
  exact BitVec.extractLsb'_eq_self

theorem encJ_stall (op : BitVec 8) (h : Hdr) (o : Ops2) (t u : BitVec 21) : (encJ op h o t u).extractLsb' 79 3 = h.stall := by
  unfold encJ Hdr.bits
  repeat first
    | refine (BitVec.extractLsb'_append_eq_of_le (by decide)).trans ?_
    | refine (BitVec.extractLsb'_append_eq_of_add_le (by decide)).trans ?_
  exact BitVec.extractLsb'_eq_self

theorem encJ_reuse (op : BitVec 8) (h : Hdr) (o : Ops2) (t u : BitVec 21) : (encJ op h o t u).extractLsb' 75 3 = h.reuse := by
  unfold encJ Hdr.bits
  repeat first
    | refine (BitVec.extractLsb'_append_eq_of_le (by decide)).trans ?_
    | refine (BitVec.extractLsb'_append_eq_of_add_le (by decide)).trans ?_
  exact BitVec.extractLsb'_eq_self

theorem encJ_d (op : BitVec 8) (h : Hdr) (o : Ops2) (t u : BitVec 21) : (encJ op h o t u).extractLsb' 58 16 = o.d.bits := by
  unfold encJ Hdr.bits
  repeat first
    | refine (BitVec.extractLsb'_append_eq_of_le (by decide)).trans ?_
    | refine (BitVec.extractLsb'_append_eq_of_add_le (by decide)).trans ?_
  exact BitVec.extractLsb'_eq_self

theorem encJ_a (op : BitVec 8) (h : Hdr) (o : Ops2) (t u : BitVec 21) : (encJ op h o t u).extractLsb' 42 16 = o.a.bits := by
  unfold encJ Hdr.bits
  repeat first
    | refine (BitVec.extractLsb'_append_eq_of_le (by decide)).trans ?_
    | refine (BitVec.extractLsb'_append_eq_of_add_le (by decide)).trans ?_
  exact BitVec.extractLsb'_eq_self

theorem encJ_t (op : BitVec 8) (h : Hdr) (o : Ops2) (t u : BitVec 21) : (encJ op h o t u).extractLsb' 21 21 = t := by
  unfold encJ Hdr.bits
  repeat first
    | refine (BitVec.extractLsb'_append_eq_of_le (by decide)).trans ?_
    | refine (BitVec.extractLsb'_append_eq_of_add_le (by decide)).trans ?_
  exact BitVec.extractLsb'_eq_self

theorem encJ_u (op : BitVec 8) (h : Hdr) (o : Ops2) (t u : BitVec 21) : (encJ op h o t u).extractLsb' 0 21 = u := by
  unfold encJ Hdr.bits
  repeat first
    | refine (BitVec.extractLsb'_append_eq_of_le (by decide)).trans ?_
    | refine (BitVec.extractLsb'_append_eq_of_add_le (by decide)).trans ?_
  exact BitVec.extractLsb'_eq_self

theorem encJ_hint0 (op : BitVec 8) (h : Hdr) (o : Ops2) (t u : BitVec 21) : bit (encJ op h o t u) 74 = false := by
  unfold encJ Hdr.bits
  repeat first
    | refine (bit_append_hi (by decide)).trans ?_
    | refine (bit_append_lo (by decide)).trans ?_
  exact rfl

theorem encJ_yld (op : BitVec 8) (h : Hdr) (o : Ops2) (t u : BitVec 21) : bit (encJ op h o t u) 78 = h.yld := by
  unfold encJ Hdr.bits
  repeat first
    | refine (bit_append_hi (by decide)).trans ?_
    | refine (bit_append_lo (by decide)).trans ?_
  exact bit_ofBool _

/-- The header of format J is read back. -/
theorem encJ_hdr (op : BitVec 8) (h : Hdr) (o : Ops2) (t u : BitVec 21) : Hdr.parse (encJ op h o t u) = .ok h := by
  unfold Hdr.parse
  rw [encJ_hint0, encJ_cond, encJ_pred, encJ_stall, encJ_yld, encJ_reuse, Cond.ofCode_code]
  rfl

/-! ### Operand fields -/

theorem Operand.bits_v_12_4 (n : BitVec 8) (neg abs : Bool) : (Operand.bits (.v n neg abs)).extractLsb' 12 4 = 0#4 := by
  show (_ ++ _ : BitVec _).extractLsb' 12 4 = _
  repeat first
    | refine (BitVec.extractLsb'_append_eq_of_le (by decide)).trans ?_
    | refine (BitVec.extractLsb'_append_eq_of_add_le (by decide)).trans ?_
  exact BitVec.extractLsb'_eq_self

theorem Operand.bits_v_8_2 (n : BitVec 8) (neg abs : Bool) : (Operand.bits (.v n neg abs)).extractLsb' 8 2 = 0#2 := by
  show (_ ++ _ : BitVec _).extractLsb' 8 2 = _
  repeat first
    | refine (BitVec.extractLsb'_append_eq_of_le (by decide)).trans ?_
    | refine (BitVec.extractLsb'_append_eq_of_add_le (by decide)).trans ?_
  exact BitVec.extractLsb'_eq_self

theorem Operand.bits_v_0_8 (n : BitVec 8) (neg abs : Bool) : (Operand.bits (.v n neg abs)).extractLsb' 0 8 = n := by
  show (_ ++ _ : BitVec _).extractLsb' 0 8 = _
  repeat first
    | refine (BitVec.extractLsb'_append_eq_of_le (by decide)).trans ?_
    | refine (BitVec.extractLsb'_append_eq_of_add_le (by decide)).trans ?_
  exact BitVec.extractLsb'_eq_self

theorem Operand.bits_v_bit11 (n : BitVec 8) (neg abs : Bool) : bit (Operand.bits (.v n neg abs)) 11 = neg := by
  show bit (_ ++ _ : BitVec _) 11 = _
  repeat first
    | refine (bit_append_hi (by decide)).trans ?_
    | refine (bit_append_lo (by decide)).trans ?_
  exact bit_ofBool _

theorem Operand.bits_v_bit10 (n : BitVec 8) (neg abs : Bool) : bit (Operand.bits (.v n neg abs)) 10 = abs := by
  show bit (_ ++ _ : BitVec _) 10 = _
  repeat first
    | refine (bit_append_hi (by decide)).trans ?_
    | refine (bit_append_lo (by decide)).trans ?_
  exact bit_ofBool _

theorem Operand.parse_bits_v (n : BitVec 8) (neg abs : Bool) : Operand.parse (Operand.bits (.v n neg abs)) = .v n neg abs := by
  simp [Operand.parse, Operand.meaningless, Operand.bits_v_12_4, Operand.bits_v_8_2, Operand.bits_v_0_8, Operand.bits_v_bit11, Operand.bits_v_bit10]

theorem Operand.bits_s_12_4 (n : BitVec 6) (neg abs : Bool) : (Operand.bits (.s n neg abs)).extractLsb' 12 4 = 1#4 := by
  show (_ ++ _ : BitVec _).extractLsb' 12 4 = _
  repeat first
    | refine (BitVec.extractLsb'_append_eq_of_le (by decide)).trans ?_
    | refine (BitVec.extractLsb'_append_eq_of_add_le (by decide)).trans ?_
  exact BitVec.extractLsb'_eq_self

theorem Operand.bits_s_6_4 (n : BitVec 6) (neg abs : Bool) : (Operand.bits (.s n neg abs)).extractLsb' 6 4 = 0#4 := by
  show (_ ++ _ : BitVec _).extractLsb' 6 4 = _
  repeat first
    | refine (BitVec.extractLsb'_append_eq_of_le (by decide)).trans ?_
    | refine (BitVec.extractLsb'_append_eq_of_add_le (by decide)).trans ?_
  exact BitVec.extractLsb'_eq_self

theorem Operand.bits_s_0_6 (n : BitVec 6) (neg abs : Bool) : (Operand.bits (.s n neg abs)).extractLsb' 0 6 = n := by
  show (_ ++ _ : BitVec _).extractLsb' 0 6 = _
  repeat first
    | refine (BitVec.extractLsb'_append_eq_of_le (by decide)).trans ?_
    | refine (BitVec.extractLsb'_append_eq_of_add_le (by decide)).trans ?_
  exact BitVec.extractLsb'_eq_self

theorem Operand.bits_s_bit11 (n : BitVec 6) (neg abs : Bool) : bit (Operand.bits (.s n neg abs)) 11 = neg := by
  show bit (_ ++ _ : BitVec _) 11 = _
  repeat first
    | refine (bit_append_hi (by decide)).trans ?_
    | refine (bit_append_lo (by decide)).trans ?_
  exact bit_ofBool _

theorem Operand.bits_s_bit10 (n : BitVec 6) (neg abs : Bool) : bit (Operand.bits (.s n neg abs)) 10 = abs := by
  show bit (_ ++ _ : BitVec _) 10 = _
  repeat first
    | refine (bit_append_hi (by decide)).trans ?_
    | refine (bit_append_lo (by decide)).trans ?_
  exact bit_ofBool _

theorem Operand.parse_bits_s (n : BitVec 6) (neg abs : Bool) : Operand.parse (Operand.bits (.s n neg abs)) = .s n neg abs := by
  simp [Operand.parse, Operand.meaningless, Operand.bits_s_12_4, Operand.bits_s_6_4, Operand.bits_s_0_6, Operand.bits_s_bit11, Operand.bits_s_bit10]

theorem Operand.bits_idx_12_4 (k : BitVec 2) (off : BitVec 8) (neg abs : Bool) : (Operand.bits (.idx k off neg abs)).extractLsb' 12 4 = 2#4 := by
  show (_ ++ _ : BitVec _).extractLsb' 12 4 = _
  repeat first
    | refine (BitVec.extractLsb'_append_eq_of_le (by decide)).trans ?_
    | refine (BitVec.extractLsb'_append_eq_of_add_le (by decide)).trans ?_
  exact BitVec.extractLsb'_eq_self

theorem Operand.bits_idx_8_2 (k : BitVec 2) (off : BitVec 8) (neg abs : Bool) : (Operand.bits (.idx k off neg abs)).extractLsb' 8 2 = k := by
  show (_ ++ _ : BitVec _).extractLsb' 8 2 = _
  repeat first
    | refine (BitVec.extractLsb'_append_eq_of_le (by decide)).trans ?_
    | refine (BitVec.extractLsb'_append_eq_of_add_le (by decide)).trans ?_
  exact BitVec.extractLsb'_eq_self

theorem Operand.bits_idx_0_8 (k : BitVec 2) (off : BitVec 8) (neg abs : Bool) : (Operand.bits (.idx k off neg abs)).extractLsb' 0 8 = off := by
  show (_ ++ _ : BitVec _).extractLsb' 0 8 = _
  repeat first
    | refine (BitVec.extractLsb'_append_eq_of_le (by decide)).trans ?_
    | refine (BitVec.extractLsb'_append_eq_of_add_le (by decide)).trans ?_
  exact BitVec.extractLsb'_eq_self

theorem Operand.bits_idx_bit11 (k : BitVec 2) (off : BitVec 8) (neg abs : Bool) : bit (Operand.bits (.idx k off neg abs)) 11 = neg := by
  show bit (_ ++ _ : BitVec _) 11 = _
  repeat first
    | refine (bit_append_hi (by decide)).trans ?_
    | refine (bit_append_lo (by decide)).trans ?_
  exact bit_ofBool _

theorem Operand.bits_idx_bit10 (k : BitVec 2) (off : BitVec 8) (neg abs : Bool) : bit (Operand.bits (.idx k off neg abs)) 10 = abs := by
  show bit (_ ++ _ : BitVec _) 10 = _
  repeat first
    | refine (bit_append_hi (by decide)).trans ?_
    | refine (bit_append_lo (by decide)).trans ?_
  exact bit_ofBool _

theorem Operand.parse_bits_idx (k : BitVec 2) (off : BitVec 8) (neg abs : Bool) : Operand.parse (Operand.bits (.idx k off neg abs)) = .idx k off neg abs := by
  simp [Operand.parse, Operand.meaningless, Operand.bits_idx_12_4, Operand.bits_idx_8_2, Operand.bits_idx_0_8, Operand.bits_idx_bit11, Operand.bits_idx_bit10]

theorem Operand.bits_imm_12_4 (i : BitVec 12) : (Operand.bits (.imm i)).extractLsb' 12 4 = 3#4 := by
  show (_ ++ _ : BitVec _).extractLsb' 12 4 = _
  repeat first
    | refine (BitVec.extractLsb'_append_eq_of_le (by decide)).trans ?_
    | refine (BitVec.extractLsb'_append_eq_of_add_le (by decide)).trans ?_
  exact BitVec.extractLsb'_eq_self

theorem Operand.bits_imm_0_12 (i : BitVec 12) : (Operand.bits (.imm i)).extractLsb' 0 12 = i := by
  show (_ ++ _ : BitVec _).extractLsb' 0 12 = _
  repeat first
    | refine (BitVec.extractLsb'_append_eq_of_le (by decide)).trans ?_
    | refine (BitVec.extractLsb'_append_eq_of_add_le (by decide)).trans ?_
  exact BitVec.extractLsb'_eq_self

theorem Operand.parse_bits_imm (i : BitVec 12) : Operand.parse (Operand.bits (.imm i)) = .imm i := by
  simp [Operand.parse, Operand.meaningless, Operand.bits_imm_12_4, Operand.bits_imm_0_12]

theorem Operand.bits_p_12_4 (n : BitVec 3) : (Operand.bits (.p n)).extractLsb' 12 4 = 4#4 := by
  show (_ ++ _ : BitVec _).extractLsb' 12 4 = _
  repeat first
    | refine (BitVec.extractLsb'_append_eq_of_le (by decide)).trans ?_
    | refine (BitVec.extractLsb'_append_eq_of_add_le (by decide)).trans ?_
  exact BitVec.extractLsb'_eq_self

theorem Operand.bits_p_3_9 (n : BitVec 3) : (Operand.bits (.p n)).extractLsb' 3 9 = 0#9 := by
  show (_ ++ _ : BitVec _).extractLsb' 3 9 = _
  repeat first
    | refine (BitVec.extractLsb'_append_eq_of_le (by decide)).trans ?_
    | refine (BitVec.extractLsb'_append_eq_of_add_le (by decide)).trans ?_
  exact BitVec.extractLsb'_eq_self

theorem Operand.bits_p_0_3 (n : BitVec 3) : (Operand.bits (.p n)).extractLsb' 0 3 = n := by
  show (_ ++ _ : BitVec _).extractLsb' 0 3 = _
  repeat first
    | refine (BitVec.extractLsb'_append_eq_of_le (by decide)).trans ?_
    | refine (BitVec.extractLsb'_append_eq_of_add_le (by decide)).trans ?_
  exact BitVec.extractLsb'_eq_self

theorem Operand.parse_bits_p (n : BitVec 3) : Operand.parse (Operand.bits (.p n)) = .p n := by
  simp [Operand.parse, Operand.meaningless, Operand.bits_p_12_4, Operand.bits_p_3_9, Operand.bits_p_0_3]

theorem Operand.bits_h_12_4 (n : BitVec 4) : (Operand.bits (.h n)).extractLsb' 12 4 = 5#4 := by
  show (_ ++ _ : BitVec _).extractLsb' 12 4 = _
  repeat first
    | refine (BitVec.extractLsb'_append_eq_of_le (by decide)).trans ?_
    | refine (BitVec.extractLsb'_append_eq_of_add_le (by decide)).trans ?_
  exact BitVec.extractLsb'_eq_self

theorem Operand.bits_h_4_8 (n : BitVec 4) : (Operand.bits (.h n)).extractLsb' 4 8 = 0#8 := by
  show (_ ++ _ : BitVec _).extractLsb' 4 8 = _
  repeat first
    | refine (BitVec.extractLsb'_append_eq_of_le (by decide)).trans ?_
    | refine (BitVec.extractLsb'_append_eq_of_add_le (by decide)).trans ?_
  exact BitVec.extractLsb'_eq_self

theorem Operand.bits_h_0_4 (n : BitVec 4) : (Operand.bits (.h n)).extractLsb' 0 4 = n := by
  show (_ ++ _ : BitVec _).extractLsb' 0 4 = _
  repeat first
    | refine (BitVec.extractLsb'_append_eq_of_le (by decide)).trans ?_
    | refine (BitVec.extractLsb'_append_eq_of_add_le (by decide)).trans ?_
  exact BitVec.extractLsb'_eq_self

theorem Operand.parse_bits_h (n : BitVec 4) : Operand.parse (Operand.bits (.h n)) = .h n := by
  simp [Operand.parse, Operand.meaningless, Operand.bits_h_12_4, Operand.bits_h_4_8, Operand.bits_h_0_4]

theorem Operand.bits_t_12_4 (n : BitVec 4) (neg abs : Bool) : (Operand.bits (.t n neg abs)).extractLsb' 12 4 = 6#4 := by
  show (_ ++ _ : BitVec _).extractLsb' 12 4 = _
  repeat first
    | refine (BitVec.extractLsb'_append_eq_of_le (by decide)).trans ?_
    | refine (BitVec.extractLsb'_append_eq_of_add_le (by decide)).trans ?_
  exact BitVec.extractLsb'_eq_self

theorem Operand.bits_t_4_6 (n : BitVec 4) (neg abs : Bool) : (Operand.bits (.t n neg abs)).extractLsb' 4 6 = 0#6 := by
  show (_ ++ _ : BitVec _).extractLsb' 4 6 = _
  repeat first
    | refine (BitVec.extractLsb'_append_eq_of_le (by decide)).trans ?_
    | refine (BitVec.extractLsb'_append_eq_of_add_le (by decide)).trans ?_
  exact BitVec.extractLsb'_eq_self

theorem Operand.bits_t_0_4 (n : BitVec 4) (neg abs : Bool) : (Operand.bits (.t n neg abs)).extractLsb' 0 4 = n := by
  show (_ ++ _ : BitVec _).extractLsb' 0 4 = _
  repeat first
    | refine (BitVec.extractLsb'_append_eq_of_le (by decide)).trans ?_
    | refine (BitVec.extractLsb'_append_eq_of_add_le (by decide)).trans ?_
  exact BitVec.extractLsb'_eq_self

theorem Operand.bits_t_bit11 (n : BitVec 4) (neg abs : Bool) : bit (Operand.bits (.t n neg abs)) 11 = neg := by
  show bit (_ ++ _ : BitVec _) 11 = _
  repeat first
    | refine (bit_append_hi (by decide)).trans ?_
    | refine (bit_append_lo (by decide)).trans ?_
  exact bit_ofBool _

theorem Operand.bits_t_bit10 (n : BitVec 4) (neg abs : Bool) : bit (Operand.bits (.t n neg abs)) 10 = abs := by
  show bit (_ ++ _ : BitVec _) 10 = _
  repeat first
    | refine (bit_append_hi (by decide)).trans ?_
    | refine (bit_append_lo (by decide)).trans ?_
  exact bit_ofBool _

theorem Operand.parse_bits_t (n : BitVec 4) (neg abs : Bool) : Operand.parse (Operand.bits (.t n neg abs)) = .t n neg abs := by
  simp [Operand.parse, Operand.meaningless, Operand.bits_t_12_4, Operand.bits_t_4_6, Operand.bits_t_0_4, Operand.bits_t_bit11, Operand.bits_t_bit10]

theorem Operand.bits_sr_12_4 (n : BitVec 8) : (Operand.bits (.sr n)).extractLsb' 12 4 = 7#4 := by
  show (_ ++ _ : BitVec _).extractLsb' 12 4 = _
  repeat first
    | refine (BitVec.extractLsb'_append_eq_of_le (by decide)).trans ?_
    | refine (BitVec.extractLsb'_append_eq_of_add_le (by decide)).trans ?_
  exact BitVec.extractLsb'_eq_self

theorem Operand.bits_sr_8_4 (n : BitVec 8) : (Operand.bits (.sr n)).extractLsb' 8 4 = 0#4 := by
  show (_ ++ _ : BitVec _).extractLsb' 8 4 = _
  repeat first
    | refine (BitVec.extractLsb'_append_eq_of_le (by decide)).trans ?_
    | refine (BitVec.extractLsb'_append_eq_of_add_le (by decide)).trans ?_
  exact BitVec.extractLsb'_eq_self

theorem Operand.bits_sr_0_8 (n : BitVec 8) : (Operand.bits (.sr n)).extractLsb' 0 8 = n := by
  show (_ ++ _ : BitVec _).extractLsb' 0 8 = _
  repeat first
    | refine (BitVec.extractLsb'_append_eq_of_le (by decide)).trans ?_
    | refine (BitVec.extractLsb'_append_eq_of_add_le (by decide)).trans ?_
  exact BitVec.extractLsb'_eq_self

theorem Operand.parse_bits_sr (n : BitVec 8) : Operand.parse (Operand.bits (.sr n)) = .sr n := by
  simp [Operand.parse, Operand.meaningless, Operand.bits_sr_12_4, Operand.bits_sr_8_4, Operand.bits_sr_0_8]

/-- A canonical operand field is read back. -/
theorem Operand.parse_bits (o : Operand) (h : o.canon = true) : Operand.parse o.bits = o := by
  cases o with
  | v n neg abs => exact Operand.parse_bits_v n neg abs
  | s n neg abs => exact Operand.parse_bits_s n neg abs
  | idx k off neg abs => exact Operand.parse_bits_idx k off neg abs
  | imm i => exact Operand.parse_bits_imm i
  | p n => exact Operand.parse_bits_p n
  | h n => exact Operand.parse_bits_h n
  | t n neg abs => exact Operand.parse_bits_t n neg abs
  | sr n => exact Operand.parse_bits_sr n
  | zero => decide
  | bad b => simp only [Operand.canon] at h; simp [Operand.parse, Operand.bits, h]

/-- The four operand fields of format R are read back. -/
theorem Ops4.parse_encR (op : BitVec 8) (h : Hdr) (o : Ops4) (m : BitVec 10) (c : o.canon = true) :
    Ops4.parse (encR op h o m) = o := by
  simp only [Ops4.canon, Bool.and_eq_true] at c
  obtain ⟨⟨⟨cd, ca⟩, cb⟩, cc⟩ := c
  simp only [Ops4.parse, encR_d, encR_a, encR_b, encR_c, Operand.parse_bits _ cd, Operand.parse_bits _ ca, Operand.parse_bits _ cb, Operand.parse_bits _ cc]

/-- The two operand fields of format I are read back. -/
theorem Ops2.parse_encI (op : BitVec 8) (h : Hdr) (o : Ops2) (imm : BitVec 32) (m : BitVec 10) (c : o.canon = true) :
    Ops2.parse (encI op h o imm m) = o := by
  simp only [Ops2.canon, Bool.and_eq_true] at c
  simp only [Ops2.parse, encI_d, encI_a, Operand.parse_bits _ c.1, Operand.parse_bits _ c.2]

/-- The two operand fields of format J are read back. -/
theorem Ops2.parse_encJ (op : BitVec 8) (h : Hdr) (o : Ops2) (t u : BitVec 21) (c : o.canon = true) :
    Ops2.parse (encJ op h o t u) = o := by
  simp only [Ops2.canon, Bool.and_eq_true] at c
  simp only [Ops2.parse, encJ_d, encJ_a, Operand.parse_bits _ c.1, Operand.parse_bits _ c.2]

/-! ### MOD fields -/

theorem AMod.parse_bits (m : AMod) : AMod.parse m.bits = some m := by
  obtain ⟨rm, ty, sat, ftz⟩ := m
  cases rm <;> cases ty <;> cases sat <;> cases ftz <;> rfl

theorem XMod.parse_bits (m : XMod) : XMod.parse m.bits = some m := by
  have h : ∀ x : Bool, ∀ y : BitVec 2, ∀ z : BitVec 4, ∀ u : BitVec 3, XMod.parse (XMod.bits ⟨x, y, z, u⟩) = some ⟨x, y, z, u⟩ := by decide
  obtain ⟨x, y, z, u⟩ := m
  exact h x y z u

theorem X2Mod.parse_bits (m : X2Mod) : X2Mod.parse m.bits = some m := by
  have h : ∀ x : Bool, X2Mod.parse (X2Mod.bits ⟨x⟩) = some ⟨x⟩ := by decide
  obtain ⟨x⟩ := m
  exact h x

theorem MoviMod.parse_bits (m : MoviMod) : MoviMod.parse m.bits = some m := by
  have h : ∀ x : BitVec 2, MoviMod.parse (MoviMod.bits ⟨x⟩) = some ⟨x⟩ := by decide
  obtain ⟨x⟩ := m
  exact h x

theorem SelMod.parse_bits (m : SelMod) : SelMod.parse m.bits = some m := by
  have h : ∀ x : BitVec 3, ∀ y : Bool, SelMod.parse (SelMod.bits ⟨x, y⟩) = some ⟨x, y⟩ := by decide
  obtain ⟨x, y⟩ := m
  exact h x y

theorem RgnMod.parse_bits (m : RgnMod) : RgnMod.parse m.bits = some m := by
  have h : ∀ x : BitVec 2, ∀ y : BitVec 2, RgnMod.parse (RgnMod.bits ⟨x, y⟩) = some ⟨x, y⟩ := by decide
  obtain ⟨x, y⟩ := m
  exact h x y

theorem SetkMod.parse_bits (m : SetkMod) : SetkMod.parse m.bits = some m := by
  have h : ∀ x : BitVec 2, SetkMod.parse (SetkMod.bits ⟨x⟩) = some ⟨x⟩ := by decide
  obtain ⟨x⟩ := m
  exact h x

theorem LMod.parse_bits (m : LMod) : LMod.parse m.bits = some m := by
  have h : ∀ x : BitVec 2, ∀ y : BitVec 3, ∀ z : Bool, LMod.parse (LMod.bits ⟨x, y, z⟩) = some ⟨x, y, z⟩ := by decide
  obtain ⟨x, y, z⟩ := m
  exact h x y z

theorem GMod.parse_bits (m : GMod) : GMod.parse m.bits = some m := by
  have h : ∀ x : BitVec 3, ∀ y : Bool, ∀ z : Bool, ∀ u : BitVec 2, GMod.parse (GMod.bits ⟨x, y, z, u⟩) = some ⟨x, y, z, u⟩ := by decide
  obtain ⟨x, y, z, u⟩ := m
  exact h x y z u

theorem PrefMod.parse_bits (m : PrefMod) : PrefMod.parse m.bits = some m := by
  have h : ∀ x : Bool, PrefMod.parse (PrefMod.bits ⟨x⟩) = some ⟨x⟩ := by decide
  obtain ⟨x⟩ := m
  exact h x

theorem BindMod.parse_bits (m : BindMod) : BindMod.parse m.bits = some m := by
  have h : ∀ x : Bool, BindMod.parse (BindMod.bits ⟨x⟩) = some ⟨x⟩ := by decide
  obtain ⟨x⟩ := m
  exact h x

theorem SyMod.parse_bits (m : SyMod) : SyMod.parse m.bits = some m := by
  have h : ∀ x : Bool, ∀ y : Bool, SyMod.parse (SyMod.bits ⟨x, y⟩) = some ⟨x, y⟩ := by decide
  obtain ⟨x, y⟩ := m
  exact h x y

theorem FenceMod.parse_bits (m : FenceMod) : FenceMod.parse m.bits = some m := by
  have h : ∀ x : BitVec 3, FenceMod.parse (FenceMod.bits ⟨x⟩) = some ⟨x⟩ := by decide
  obtain ⟨x⟩ := m
  exact h x

theorem TspMod.parse_bits (m : TspMod) : TspMod.parse m.bits = some m := by
  have h : ∀ x : BitVec 6, TspMod.parse (TspMod.bits ⟨x⟩) = some ⟨x⟩ := by decide
  obtain ⟨x⟩ := m
  exact h x

theorem DlMod.parse_bits (m : DlMod) : DlMod.parse m.bits = some m := by
  have h : ∀ x : BitVec 4, DlMod.parse (DlMod.bits ⟨x⟩) = some ⟨x⟩ := by decide
  obtain ⟨x⟩ := m
  exact h x

theorem CpMod.parse_bits (m : CpMod) : CpMod.parse m.bits = some m := by
  have h : ∀ x : BitVec 3, ∀ y : BitVec 3, ∀ z : BitVec 2, CpMod.parse (CpMod.bits ⟨x, y, z⟩) = some ⟨x, y, z⟩ := by decide
  obtain ⟨x, y, z⟩ := m
  exact h x y z

theorem MmMod.parse_bits (m : MmMod) : MmMod.parse m.bits = some m := by
  have h : ∀ x : BitVec 2, ∀ y : Bool, ∀ z : Bool, MmMod.parse (MmMod.bits ⟨x, y, z⟩) = some ⟨x, y, z⟩ := by decide
  obtain ⟨x, y, z⟩ := m
  exact h x y z

theorem MzMod.parse_bits (m : MzMod) : MzMod.parse m.bits = some m := by
  have h : ∀ x : Bool, MzMod.parse (MzMod.bits ⟨x⟩) = some ⟨x⟩ := by decide
  obtain ⟨x⟩ := m
  exact h x

theorem AtMod.parse_bits (m : AtMod) : AtMod.parse m.bits = some m := by
  have h : ∀ x : BitVec 4, ∀ y : BitVec 2, ∀ z : Bool, ∀ u : Bool, AtMod.parse (AtMod.bits ⟨x, y, z, u⟩) = some ⟨x, y, z, u⟩ := by decide
  obtain ⟨x, y, z, u⟩ := m
  exact h x y z u

end Sys2Proof
end

