-- ==== Sys2Proof/Laws/Mem.lean ====
section
/-!
SUPPORT. Laws/Mem.lean: sparse tables read back what was set, memory reads back what was written, and every operation on
a memory keeps its canonical form.
-/
namespace Sys2Proof

set_option Elab.async false

/-! ### Tables -/

theorem AMap.get?_set_self {α : Type} (m : AMap α) (k : Nat) (a : α) : AMap.get? (AMap.set m k a) k = some a := by
  induction m with
  | nil => simp [AMap.set, AMap.get?]
  | cons p r ih =>
    obtain ⟨x, b⟩ := p
    simp only [AMap.set]
    split
    · simp [AMap.get?]
    · split
      · simp [AMap.get?]
      · have h1 : x ≠ k := by omega
        have h2 : ¬ k < x := by omega
        simp [AMap.get?, h1, h2, ih]

theorem AMap.get?_set_ne {α : Type} (m : AMap α) {k j : Nat} (a : α) (h : j ≠ k) :
    AMap.get? (AMap.set m k a) j = AMap.get? m j := by
  induction m with
  | nil =>
    have h1 : k ≠ j := fun e => h e.symm
    simp [AMap.set, AMap.get?, h1]
  | cons p r ih =>
    obtain ⟨x, b⟩ := p
    have h1 : k ≠ j := fun e => h e.symm
    simp only [AMap.set]
    split
    · rename_i hk
      by_cases hj : j < k
      · have h2 : x ≠ j := by omega
        have h3 : j < x := by omega
        simp [AMap.get?, h1, hj, h2, h3]
      · simp [AMap.get?, h1, hj]
    · split
      · rename_i hx
        subst hx
        simp [AMap.get?, h1]
      · simp [AMap.get?, ih]

theorem AMap.getD_set_self {α : Type} (m : AMap α) (k : Nat) (a d : α) : AMap.getD (AMap.set m k a) k d = a := by
  simp [AMap.getD, AMap.get?_set_self]

theorem AMap.getD_set_ne {α : Type} (m : AMap α) {k j : Nat} (a d : α) (h : j ≠ k) :
    AMap.getD (AMap.set m k a) j d = AMap.getD m j d := by
  simp [AMap.getD, AMap.get?_set_ne m a h]

theorem AMap.get?_mod_self {α : Type} (m : AMap α) (k : Nat) (f : α → α) :
    AMap.get? (AMap.mod m k f) k = (AMap.get? m k).map f := by
  unfold AMap.mod
  split
  · rename_i a h; simp [h, AMap.get?_set_self]
  · rename_i h; simp [h]

theorem AMap.get?_mod_ne {α : Type} (m : AMap α) {k j : Nat} (f : α → α) (h : j ≠ k) :
    AMap.get? (AMap.mod m k f) j = AMap.get? m j := by
  unfold AMap.mod
  split
  · exact AMap.get?_set_ne m _ h
  · rfl

namespace Machine

/-! ### Canonical form -/

/-- Every listed address of the tail lies above x. -/
def Mem.above (x : Nat) (m : Mem) : Prop := ∀ c ∈ m, x < c.1

theorem Mem.wf_cons (x : Nat) (b : Byte) (r : Mem) : Mem.wf ((x, b) :: r) = true ↔ b ≠ 0 ∧ Mem.above x r ∧ Mem.wf r = true := by
  induction r generalizing x b with
  | nil => simp [Mem.wf, Mem.above]
  | cons p r ih =>
    obtain ⟨y, c⟩ := p
    simp only [Mem.wf, Bool.and_eq_true, bne_iff_ne, ne_eq, decide_eq_true_eq]
    constructor
    · rintro ⟨⟨h1, h2⟩, h3⟩
      refine ⟨h1, ?_, h3⟩
      intro d hd
      rcases List.mem_cons.mp hd with rfl | hd
      · exact h2
      · exact Nat.lt_trans h2 (((ih y c).mp h3).2.1 d hd)
    · rintro ⟨h1, h2, h3⟩
      exact ⟨⟨h1, h2 (y, c) (by simp)⟩, h3⟩

theorem Mem.wf_nil : Mem.wf [] = true := rfl

theorem Mem.read_above (m : Mem) (a : Nat) (h : Mem.above a m) : Mem.read m a = 0 := by
  cases m with
  | nil => rfl
  | cons p r =>
    obtain ⟨x, b⟩ := p
    have hx : a < x := h (x, b) (by simp)
    have h1 : x ≠ a := by omega
    simp [Mem.read, h1, hx]

theorem Mem.write_above (m : Mem) (x a : Nat) (b : Byte) (h : Mem.above x m) (hx : x < a) : Mem.above x (Mem.write m a b) := by
  induction m with
  | nil => unfold Mem.write; split <;> simp [Mem.above, hx]
  | cons p r ih =>
    obtain ⟨y, c⟩ := p
    have hy : x < y := h (y, c) (by simp)
    have hr : Mem.above x r := fun d hd => h d (by simp [hd])
    unfold Mem.write
    intro d hd
    split at hd
    · split at hd
      · exact h d hd
      · rcases List.mem_cons.mp hd with rfl | hd
        · exact hx
        · exact h d hd
    · split at hd
      · split at hd
        · exact hr d hd
        · rcases List.mem_cons.mp hd with rfl | hd
          · exact hx
          · exact hr d hd
      · rcases List.mem_cons.mp hd with rfl | hd
        · exact hy
        · exact ih hr d hd

/-- A write keeps the canonical form. -/
theorem Mem.write_wf (m : Mem) (a : Nat) (b : Byte) (h : Mem.wf m = true) : Mem.wf (Mem.write m a b) = true := by
  induction m with
  | nil => unfold Mem.write; split <;> simp_all [Mem.wf]
  | cons p r ih =>
    obtain ⟨x, c⟩ := p
    obtain ⟨hc, ha, hr⟩ := (Mem.wf_cons x c r).mp h
    unfold Mem.write
    split
    · rename_i hax
      split
      · exact h
      · rename_i hb
        refine (Mem.wf_cons _ _ _).mpr ⟨hb, ?_, h⟩
        intro d hd
        rcases List.mem_cons.mp hd with rfl | hd
        · exact hax
        · exact Nat.lt_trans hax (ha d hd)
    · split
      · rename_i hax
        subst hax
        split
        · exact hr
        · rename_i hb
          exact (Mem.wf_cons _ _ _).mpr ⟨hb, ha, hr⟩
      · exact (Mem.wf_cons _ _ _).mpr ⟨hc, Mem.write_above r x a b ha (by omega), ih hr⟩

theorem Mem.writeN_wf (bs : List Byte) (m : Mem) (a : Nat) (h : Mem.wf m = true) : Mem.wf (Mem.writeN m a bs) = true := by
  induction bs generalizing m a with
  | nil => exact h
  | cons b r ih => exact ih _ _ (Mem.write_wf m a b h)

theorem Mem.filter_wf (p : Host.Cell → Bool) (m : Mem) (h : Mem.wf m = true) : Mem.wf (m.filter p) = true := by
  induction m with
  | nil => exact h
  | cons c r ih =>
    obtain ⟨x, b⟩ := c
    obtain ⟨hb, ha, hr⟩ := (Mem.wf_cons x b r).mp h
    simp only [List.filter]
    split
    · refine (Mem.wf_cons _ _ _).mpr ⟨hb, ?_, ih hr⟩
      intro d hd
      exact ha d (List.mem_filter.mp hd).1
    · exact ih hr

theorem Mem.clear_wf (m : Mem) (a n : Nat) (h : Mem.wf m = true) : Mem.wf (Mem.clear m a n) = true := Mem.filter_wf _ m h

theorem Mem.paste_wf (m : Mem) (b n : Nat) (part : Mem) (h : Mem.wf m = true) : Mem.wf (Mem.paste m b n part) = true := by
  unfold Mem.paste
  have hc := Mem.clear_wf m b n h
  generalize Mem.clear m b n = k at hc
  induction part generalizing k with
  | nil => exact hc
  | cons c r ih => exact ih _ (Mem.write_wf k _ _ hc)

theorem Mem.slice_wf (m : Mem) (a n b : Nat) (h : Mem.wf m = true) : Mem.wf (Mem.slice m a n b) = true := by
  unfold Mem.slice
  induction m with
  | nil => rfl
  | cons c r ih =>
    obtain ⟨x, v⟩ := c
    obtain ⟨hv, ha, hr⟩ := (Mem.wf_cons x v r).mp h
    simp only [List.filter]
    split
    · rename_i hp
      simp only [List.map_cons]
      refine (Mem.wf_cons _ _ _).mpr ⟨hv, ?_, ih hr⟩
      intro d hd
      obtain ⟨e, he, rfl⟩ := List.mem_map.mp hd
      obtain ⟨he1, he2⟩ := List.mem_filter.mp he
      have := ha e he1
      simp only [Bool.and_eq_true, decide_eq_true_eq] at hp he2
      show x - a + b < e.1 - a + b
      omega
    · exact ih hr

/-! ### Read after write -/

theorem Mem.read_write_ne (m : Mem) {a a' : Nat} (b : Byte) (h : a' ≠ a) (hw : Mem.wf m = true) :
    Mem.read (Mem.write m a b) a' = Mem.read m a' := by
  induction m with
  | nil =>
    unfold Mem.write
    split
    · rfl
    · have : a ≠ a' := fun e => h e.symm
      simp [Mem.read, this]
  | cons p r ih =>
    obtain ⟨x, c⟩ := p
    obtain ⟨hc, ha, hr⟩ := (Mem.wf_cons x c r).mp hw
    have h1 : a ≠ a' := fun e => h e.symm
    unfold Mem.write
    split
    · split
      · rfl
      · by_cases hj : a' < a
        · have h2 : x ≠ a' := by omega
          have h3 : a' < x := by omega
          simp [Mem.read, h1, hj, h2, h3]
        · simp [Mem.read, h1, hj]
    · split
      · rename_i hx
        subst hx
        split
        · by_cases hj : a' < a
          · simp only [Mem.read, h1, if_false, hj, if_true]
            exact Mem.read_above r a' fun d hd => Nat.lt_trans hj (ha d hd)
          · simp [Mem.read, h1, hj]
        · simp [Mem.read, h1]
      · simp [Mem.read, ih hr]

theorem Mem.read_write_self (m : Mem) (a : Nat) (b : Byte) (hw : Mem.wf m = true) : Mem.read (Mem.write m a b) a = b := by
  induction m with
  | nil => unfold Mem.write; split <;> simp_all [Mem.read]
  | cons p r ih =>
    obtain ⟨x, c⟩ := p
    obtain ⟨hc, ha, hr⟩ := (Mem.wf_cons x c r).mp hw
    unfold Mem.write
    split
    · rename_i hax
      have h2 : x ≠ a := by omega
      split
      · rename_i hb; simp [Mem.read, h2, hax, hb]
      · simp [Mem.read]
    · split
      · rename_i hx
        subst hx
        split
        · rename_i hb
          rw [hb]
          exact Mem.read_above r a ha
        · simp [Mem.read]
      · have h2 : x ≠ a := by omega
        have h3 : ¬ a < x := by omega
        simp [Mem.read, h2, h3, ih hr]

/-- A byte outside [a, a + |bs|) is as before. -/
theorem Mem.read_writeN_out (bs : List Byte) (m : Mem) (a x : Nat) (h : x < a ∨ a + bs.length ≤ x) (hw : Mem.wf m = true) :
    Mem.read (Mem.writeN m a bs) x = Mem.read m x := by
  induction bs generalizing m a with
  | nil => rfl
  | cons b r ih =>
    simp only [List.length_cons] at h
    simp only [Mem.writeN]
    rw [ih _ _ (by omega) (Mem.write_wf m a b hw), Mem.read_write_ne m b (by omega) hw]

/-- The bytes of [a, a + |bs|) are bs. -/
theorem Mem.read_writeN_in (bs : List Byte) (m : Mem) (a i : Nat) (h : i < bs.length) (hw : Mem.wf m = true) :
    Mem.read (Mem.writeN m a bs) (a + i) = bs[i] := by
  induction bs generalizing m a i with
  | nil => simp at h
  | cons b r ih =>
    simp only [Mem.writeN]
    cases i with
    | zero =>
      exact (Mem.read_writeN_out r _ (a + 1) a (Or.inl (by omega)) (Mem.write_wf m a b hw)).trans (Mem.read_write_self m a b hw)
    | succ j =>
      have hj : j < r.length := by simpa using h
      have := ih (Mem.write m a b) (a + 1) j hj (Mem.write_wf m a b hw)
      rw [show a + (j + 1) = a + 1 + j by omega, this]
      rfl

theorem Mem.readN_writeN (bs : List Byte) (m : Mem) (a : Nat) (hw : Mem.wf m = true) :
    Mem.readN (Mem.writeN m a bs) a bs.length = bs := by
  apply List.ext_getElem
  · simp [Mem.readN]
  · intro i h1 h2
    simp only [Mem.readN, List.getElem_map, List.getElem_range]
    exact Mem.read_writeN_in bs m a i h2 hw

/-- Outside the window a cleared memory reads as before, inside it reads 0. -/
theorem Mem.read_filter (p : Nat → Bool) (m : Mem) (x : Nat) (hw : Mem.wf m = true) :
    Mem.read (m.filter fun c => p c.1) x = if p x then Mem.read m x else 0 := by
  induction m with
  | nil => simp [Mem.read]
  | cons c r ih =>
    obtain ⟨y, b⟩ := c
    obtain ⟨_, ha, hr⟩ := (Mem.wf_cons y b r).mp hw
    simp only [List.filter]
    by_cases hy : y = x
    · subst hy
      cases hp : p y with
      | true => simp [Mem.read]
      | false =>
        simp only [Bool.false_eq_true, if_false]
        exact Mem.read_above _ y fun d hd => ha d (List.mem_filter.mp hd).1
    · by_cases hx : x < y
      · cases hp : p y with
        | true => simp [Mem.read, hy, hx]
        | false =>
          rw [Mem.read_above]
          · simp [Mem.read, hy, hx]
          · intro d hd
            exact Nat.lt_trans hx (ha d (List.mem_filter.mp hd).1)
      · cases hp : p y <;> simp [Mem.read, hy, hx, ih hr]

end Machine
end Sys2Proof
end

