-- ==== Sys2Proof/Laws/State.lean ====
section
/-!
SUPPORT. Laws/State.lean: what the named updates of the state leave alone, field by field, and what they set.
-/
namespace Sys2Proof.Machine

set_option Elab.async false

/-! ### State.setCore -/

@[simp] theorem State.setCore_clusters (s : State) (c : Nat) (k : Core) : (s.setCore c k).clusters = s.clusters := rfl
@[simp] theorem State.setCore_memStacks (s : State) (c : Nat) (k : Core) : (s.setCore c k).memStacks = s.memStacks := rfl
@[simp] theorem State.setCore_ctxs (s : State) (c : Nat) (k : Core) : (s.setCore c k).ctxs = s.ctxs := rfl
@[simp] theorem State.setCore_handles (s : State) (c : Nat) (k : Core) : (s.setCore c k).handles = s.handles := rfl
@[simp] theorem State.setCore_hbm (s : State) (c : Nat) (k : Core) : (s.setCore c k).hbm = s.hbm := rfl
@[simp] theorem State.setCore_l2 (s : State) (c : Nat) (k : Core) : (s.setCore c k).l2 = s.l2 := rfl
@[simp] theorem State.setCore_host (s : State) (c : Nat) (k : Core) : (s.setCore c k).host = s.host := rfl
@[simp] theorem State.setCore_fills (s : State) (c : Nat) (k : Core) : (s.setCore c k).fills = s.fills := rfl
@[simp] theorem State.setCore_thimble (s : State) (c : Nat) (k : Core) : (s.setCore c k).thimble = s.thimble := rfl
@[simp] theorem State.setCore_funcs (s : State) (c : Nat) (k : Core) : (s.setCore c k).funcs = s.funcs := rfl
@[simp] theorem State.setCore_platform (s : State) (c : Nat) (k : Core) : (s.setCore c k).platform = s.platform := rfl
@[simp] theorem State.setCore_launches (s : State) (c : Nat) (k : Core) : (s.setCore c k).launches = s.launches := rfl
@[simp] theorem State.setCore_outbox (s : State) (c : Nat) (k : Core) : (s.setCore c k).outbox = s.outbox := rfl
@[simp] theorem State.setCore_requests (s : State) (c : Nat) (k : Core) : (s.setCore c k).requests = s.requests := rfl
@[simp] theorem State.setCore_waiting (s : State) (c : Nat) (k : Core) : (s.setCore c k).waiting = s.waiting := rfl
@[simp] theorem State.setCore_holders (s : State) (c : Nat) (k : Core) : (s.setCore c k).holders = s.holders := rfl
@[simp] theorem State.setCore_softErrs (s : State) (c : Nat) (k : Core) : (s.setCore c k).softErrs = s.softErrs := rfl
@[simp] theorem State.setCore_touched (s : State) (c : Nat) (k : Core) : (s.setCore c k).touched = s.touched := rfl
@[simp] theorem State.setCore_births (s : State) (c : Nat) (k : Core) : (s.setCore c k).births = s.births := rfl
@[simp] theorem State.setCore_agenda (s : State) (c : Nat) (k : Core) : (s.setCore c k).agenda = s.agenda := rfl
@[simp] theorem State.setCore_free (s : State) (c : Nat) (k : Core) : (s.setCore c k).free = s.free := rfl
@[simp] theorem State.setCore_tick (s : State) (c : Nat) (k : Core) : (s.setCore c k).tick = s.tick := rfl
@[simp] theorem State.setCore_sel (s : State) (c : Nat) (k : Core) : (s.setCore c k).sel = s.sel := rfl

/-! ### State.modCore -/

@[simp] theorem State.modCore_clusters (s : State) (c : Nat) (f : Core → Core) : (s.modCore c f).clusters = s.clusters := rfl
@[simp] theorem State.modCore_memStacks (s : State) (c : Nat) (f : Core → Core) : (s.modCore c f).memStacks = s.memStacks := rfl
@[simp] theorem State.modCore_ctxs (s : State) (c : Nat) (f : Core → Core) : (s.modCore c f).ctxs = s.ctxs := rfl
@[simp] theorem State.modCore_handles (s : State) (c : Nat) (f : Core → Core) : (s.modCore c f).handles = s.handles := rfl
@[simp] theorem State.modCore_hbm (s : State) (c : Nat) (f : Core → Core) : (s.modCore c f).hbm = s.hbm := rfl
@[simp] theorem State.modCore_l2 (s : State) (c : Nat) (f : Core → Core) : (s.modCore c f).l2 = s.l2 := rfl
@[simp] theorem State.modCore_host (s : State) (c : Nat) (f : Core → Core) : (s.modCore c f).host = s.host := rfl
@[simp] theorem State.modCore_fills (s : State) (c : Nat) (f : Core → Core) : (s.modCore c f).fills = s.fills := rfl
@[simp] theorem State.modCore_thimble (s : State) (c : Nat) (f : Core → Core) : (s.modCore c f).thimble = s.thimble := rfl
@[simp] theorem State.modCore_funcs (s : State) (c : Nat) (f : Core → Core) : (s.modCore c f).funcs = s.funcs := rfl
@[simp] theorem State.modCore_platform (s : State) (c : Nat) (f : Core → Core) : (s.modCore c f).platform = s.platform := rfl
@[simp] theorem State.modCore_launches (s : State) (c : Nat) (f : Core → Core) : (s.modCore c f).launches = s.launches := rfl
@[simp] theorem State.modCore_outbox (s : State) (c : Nat) (f : Core → Core) : (s.modCore c f).outbox = s.outbox := rfl
@[simp] theorem State.modCore_requests (s : State) (c : Nat) (f : Core → Core) : (s.modCore c f).requests = s.requests := rfl
@[simp] theorem State.modCore_waiting (s : State) (c : Nat) (f : Core → Core) : (s.modCore c f).waiting = s.waiting := rfl
@[simp] theorem State.modCore_holders (s : State) (c : Nat) (f : Core → Core) : (s.modCore c f).holders = s.holders := rfl
@[simp] theorem State.modCore_softErrs (s : State) (c : Nat) (f : Core → Core) : (s.modCore c f).softErrs = s.softErrs := rfl
@[simp] theorem State.modCore_touched (s : State) (c : Nat) (f : Core → Core) : (s.modCore c f).touched = s.touched := rfl
@[simp] theorem State.modCore_births (s : State) (c : Nat) (f : Core → Core) : (s.modCore c f).births = s.births := rfl
@[simp] theorem State.modCore_agenda (s : State) (c : Nat) (f : Core → Core) : (s.modCore c f).agenda = s.agenda := rfl
@[simp] theorem State.modCore_free (s : State) (c : Nat) (f : Core → Core) : (s.modCore c f).free = s.free := rfl
@[simp] theorem State.modCore_tick (s : State) (c : Nat) (f : Core → Core) : (s.modCore c f).tick = s.tick := rfl
@[simp] theorem State.modCore_sel (s : State) (c : Nat) (f : Core → Core) : (s.modCore c f).sel = s.sel := rfl

/-! ### State.modSig -/

@[simp] theorem State.modSig_clusters (s : State) (c slot : Nat) (f : Sig → Sig) : (s.modSig c slot f).clusters = s.clusters := rfl
@[simp] theorem State.modSig_memStacks (s : State) (c slot : Nat) (f : Sig → Sig) : (s.modSig c slot f).memStacks = s.memStacks := rfl
@[simp] theorem State.modSig_ctxs (s : State) (c slot : Nat) (f : Sig → Sig) : (s.modSig c slot f).ctxs = s.ctxs := rfl
@[simp] theorem State.modSig_handles (s : State) (c slot : Nat) (f : Sig → Sig) : (s.modSig c slot f).handles = s.handles := rfl
@[simp] theorem State.modSig_hbm (s : State) (c slot : Nat) (f : Sig → Sig) : (s.modSig c slot f).hbm = s.hbm := rfl
@[simp] theorem State.modSig_l2 (s : State) (c slot : Nat) (f : Sig → Sig) : (s.modSig c slot f).l2 = s.l2 := rfl
@[simp] theorem State.modSig_host (s : State) (c slot : Nat) (f : Sig → Sig) : (s.modSig c slot f).host = s.host := rfl
@[simp] theorem State.modSig_fills (s : State) (c slot : Nat) (f : Sig → Sig) : (s.modSig c slot f).fills = s.fills := rfl
@[simp] theorem State.modSig_thimble (s : State) (c slot : Nat) (f : Sig → Sig) : (s.modSig c slot f).thimble = s.thimble := rfl
@[simp] theorem State.modSig_funcs (s : State) (c slot : Nat) (f : Sig → Sig) : (s.modSig c slot f).funcs = s.funcs := rfl
@[simp] theorem State.modSig_platform (s : State) (c slot : Nat) (f : Sig → Sig) : (s.modSig c slot f).platform = s.platform := rfl
@[simp] theorem State.modSig_launches (s : State) (c slot : Nat) (f : Sig → Sig) : (s.modSig c slot f).launches = s.launches := rfl
@[simp] theorem State.modSig_outbox (s : State) (c slot : Nat) (f : Sig → Sig) : (s.modSig c slot f).outbox = s.outbox := rfl
@[simp] theorem State.modSig_requests (s : State) (c slot : Nat) (f : Sig → Sig) : (s.modSig c slot f).requests = s.requests := rfl
@[simp] theorem State.modSig_waiting (s : State) (c slot : Nat) (f : Sig → Sig) : (s.modSig c slot f).waiting = s.waiting := rfl
@[simp] theorem State.modSig_holders (s : State) (c slot : Nat) (f : Sig → Sig) : (s.modSig c slot f).holders = s.holders := rfl
@[simp] theorem State.modSig_softErrs (s : State) (c slot : Nat) (f : Sig → Sig) : (s.modSig c slot f).softErrs = s.softErrs := rfl
@[simp] theorem State.modSig_touched (s : State) (c slot : Nat) (f : Sig → Sig) : (s.modSig c slot f).touched = s.touched := rfl
@[simp] theorem State.modSig_births (s : State) (c slot : Nat) (f : Sig → Sig) : (s.modSig c slot f).births = s.births := rfl
@[simp] theorem State.modSig_agenda (s : State) (c slot : Nat) (f : Sig → Sig) : (s.modSig c slot f).agenda = s.agenda := rfl
@[simp] theorem State.modSig_free (s : State) (c slot : Nat) (f : Sig → Sig) : (s.modSig c slot f).free = s.free := rfl
@[simp] theorem State.modSig_tick (s : State) (c slot : Nat) (f : Sig → Sig) : (s.modSig c slot f).tick = s.tick := rfl
@[simp] theorem State.modSig_sel (s : State) (c slot : Nat) (f : Sig → Sig) : (s.modSig c slot f).sel = s.sel := rfl

/-! ### State.modQuire -/

@[simp] theorem State.modQuire_clusters (s : State) (c key : Nat) (f : Quire → Quire) : (s.modQuire c key f).clusters = s.clusters := rfl
@[simp] theorem State.modQuire_memStacks (s : State) (c key : Nat) (f : Quire → Quire) : (s.modQuire c key f).memStacks = s.memStacks := rfl
@[simp] theorem State.modQuire_ctxs (s : State) (c key : Nat) (f : Quire → Quire) : (s.modQuire c key f).ctxs = s.ctxs := rfl
@[simp] theorem State.modQuire_handles (s : State) (c key : Nat) (f : Quire → Quire) : (s.modQuire c key f).handles = s.handles := rfl
@[simp] theorem State.modQuire_hbm (s : State) (c key : Nat) (f : Quire → Quire) : (s.modQuire c key f).hbm = s.hbm := rfl
@[simp] theorem State.modQuire_l2 (s : State) (c key : Nat) (f : Quire → Quire) : (s.modQuire c key f).l2 = s.l2 := rfl
@[simp] theorem State.modQuire_host (s : State) (c key : Nat) (f : Quire → Quire) : (s.modQuire c key f).host = s.host := rfl
@[simp] theorem State.modQuire_fills (s : State) (c key : Nat) (f : Quire → Quire) : (s.modQuire c key f).fills = s.fills := rfl
@[simp] theorem State.modQuire_thimble (s : State) (c key : Nat) (f : Quire → Quire) : (s.modQuire c key f).thimble = s.thimble := rfl
@[simp] theorem State.modQuire_funcs (s : State) (c key : Nat) (f : Quire → Quire) : (s.modQuire c key f).funcs = s.funcs := rfl
@[simp] theorem State.modQuire_platform (s : State) (c key : Nat) (f : Quire → Quire) : (s.modQuire c key f).platform = s.platform := rfl
@[simp] theorem State.modQuire_launches (s : State) (c key : Nat) (f : Quire → Quire) : (s.modQuire c key f).launches = s.launches := rfl
@[simp] theorem State.modQuire_outbox (s : State) (c key : Nat) (f : Quire → Quire) : (s.modQuire c key f).outbox = s.outbox := rfl
@[simp] theorem State.modQuire_requests (s : State) (c key : Nat) (f : Quire → Quire) : (s.modQuire c key f).requests = s.requests := rfl
@[simp] theorem State.modQuire_waiting (s : State) (c key : Nat) (f : Quire → Quire) : (s.modQuire c key f).waiting = s.waiting := rfl
@[simp] theorem State.modQuire_holders (s : State) (c key : Nat) (f : Quire → Quire) : (s.modQuire c key f).holders = s.holders := rfl
@[simp] theorem State.modQuire_softErrs (s : State) (c key : Nat) (f : Quire → Quire) : (s.modQuire c key f).softErrs = s.softErrs := rfl
@[simp] theorem State.modQuire_touched (s : State) (c key : Nat) (f : Quire → Quire) : (s.modQuire c key f).touched = s.touched := rfl
@[simp] theorem State.modQuire_births (s : State) (c key : Nat) (f : Quire → Quire) : (s.modQuire c key f).births = s.births := rfl
@[simp] theorem State.modQuire_agenda (s : State) (c key : Nat) (f : Quire → Quire) : (s.modQuire c key f).agenda = s.agenda := rfl
@[simp] theorem State.modQuire_free (s : State) (c key : Nat) (f : Quire → Quire) : (s.modQuire c key f).free = s.free := rfl
@[simp] theorem State.modQuire_tick (s : State) (c key : Nat) (f : Quire → Quire) : (s.modQuire c key f).tick = s.tick := rfl
@[simp] theorem State.modQuire_sel (s : State) (c key : Nat) (f : Quire → Quire) : (s.modQuire c key f).sel = s.sel := rfl

/-! ### State.modCluster -/

@[simp] theorem State.modCluster_cores (s : State) (c : Nat) (f : Cluster → Cluster) : (s.modCluster c f).cores = s.cores := rfl
@[simp] theorem State.modCluster_memStacks (s : State) (c : Nat) (f : Cluster → Cluster) : (s.modCluster c f).memStacks = s.memStacks := rfl
@[simp] theorem State.modCluster_ctxs (s : State) (c : Nat) (f : Cluster → Cluster) : (s.modCluster c f).ctxs = s.ctxs := rfl
@[simp] theorem State.modCluster_handles (s : State) (c : Nat) (f : Cluster → Cluster) : (s.modCluster c f).handles = s.handles := rfl
@[simp] theorem State.modCluster_hbm (s : State) (c : Nat) (f : Cluster → Cluster) : (s.modCluster c f).hbm = s.hbm := rfl
@[simp] theorem State.modCluster_l2 (s : State) (c : Nat) (f : Cluster → Cluster) : (s.modCluster c f).l2 = s.l2 := rfl
@[simp] theorem State.modCluster_host (s : State) (c : Nat) (f : Cluster → Cluster) : (s.modCluster c f).host = s.host := rfl
@[simp] theorem State.modCluster_fills (s : State) (c : Nat) (f : Cluster → Cluster) : (s.modCluster c f).fills = s.fills := rfl
@[simp] theorem State.modCluster_thimble (s : State) (c : Nat) (f : Cluster → Cluster) : (s.modCluster c f).thimble = s.thimble := rfl
@[simp] theorem State.modCluster_funcs (s : State) (c : Nat) (f : Cluster → Cluster) : (s.modCluster c f).funcs = s.funcs := rfl
@[simp] theorem State.modCluster_platform (s : State) (c : Nat) (f : Cluster → Cluster) : (s.modCluster c f).platform = s.platform := rfl
@[simp] theorem State.modCluster_launches (s : State) (c : Nat) (f : Cluster → Cluster) : (s.modCluster c f).launches = s.launches := rfl
@[simp] theorem State.modCluster_outbox (s : State) (c : Nat) (f : Cluster → Cluster) : (s.modCluster c f).outbox = s.outbox := rfl
@[simp] theorem State.modCluster_requests (s : State) (c : Nat) (f : Cluster → Cluster) : (s.modCluster c f).requests = s.requests := rfl
@[simp] theorem State.modCluster_waiting (s : State) (c : Nat) (f : Cluster → Cluster) : (s.modCluster c f).waiting = s.waiting := rfl
@[simp] theorem State.modCluster_holders (s : State) (c : Nat) (f : Cluster → Cluster) : (s.modCluster c f).holders = s.holders := rfl
@[simp] theorem State.modCluster_softErrs (s : State) (c : Nat) (f : Cluster → Cluster) : (s.modCluster c f).softErrs = s.softErrs := rfl
@[simp] theorem State.modCluster_touched (s : State) (c : Nat) (f : Cluster → Cluster) : (s.modCluster c f).touched = s.touched := rfl
@[simp] theorem State.modCluster_births (s : State) (c : Nat) (f : Cluster → Cluster) : (s.modCluster c f).births = s.births := rfl
@[simp] theorem State.modCluster_agenda (s : State) (c : Nat) (f : Cluster → Cluster) : (s.modCluster c f).agenda = s.agenda := rfl
@[simp] theorem State.modCluster_free (s : State) (c : Nat) (f : Cluster → Cluster) : (s.modCluster c f).free = s.free := rfl
@[simp] theorem State.modCluster_tick (s : State) (c : Nat) (f : Cluster → Cluster) : (s.modCluster c f).tick = s.tick := rfl
@[simp] theorem State.modCluster_sel (s : State) (c : Nat) (f : Cluster → Cluster) : (s.modCluster c f).sel = s.sel := rfl

/-! ### State.modStack -/

@[simp] theorem State.modStack_cores (s : State) (n : Nat) (f : Stack → Stack) : (s.modStack n f).cores = s.cores := rfl
@[simp] theorem State.modStack_clusters (s : State) (n : Nat) (f : Stack → Stack) : (s.modStack n f).clusters = s.clusters := rfl
@[simp] theorem State.modStack_ctxs (s : State) (n : Nat) (f : Stack → Stack) : (s.modStack n f).ctxs = s.ctxs := rfl
@[simp] theorem State.modStack_handles (s : State) (n : Nat) (f : Stack → Stack) : (s.modStack n f).handles = s.handles := rfl
@[simp] theorem State.modStack_hbm (s : State) (n : Nat) (f : Stack → Stack) : (s.modStack n f).hbm = s.hbm := rfl
@[simp] theorem State.modStack_l2 (s : State) (n : Nat) (f : Stack → Stack) : (s.modStack n f).l2 = s.l2 := rfl
@[simp] theorem State.modStack_host (s : State) (n : Nat) (f : Stack → Stack) : (s.modStack n f).host = s.host := rfl
@[simp] theorem State.modStack_fills (s : State) (n : Nat) (f : Stack → Stack) : (s.modStack n f).fills = s.fills := rfl
@[simp] theorem State.modStack_thimble (s : State) (n : Nat) (f : Stack → Stack) : (s.modStack n f).thimble = s.thimble := rfl
@[simp] theorem State.modStack_funcs (s : State) (n : Nat) (f : Stack → Stack) : (s.modStack n f).funcs = s.funcs := rfl
@[simp] theorem State.modStack_platform (s : State) (n : Nat) (f : Stack → Stack) : (s.modStack n f).platform = s.platform := rfl
@[simp] theorem State.modStack_launches (s : State) (n : Nat) (f : Stack → Stack) : (s.modStack n f).launches = s.launches := rfl
@[simp] theorem State.modStack_outbox (s : State) (n : Nat) (f : Stack → Stack) : (s.modStack n f).outbox = s.outbox := rfl
@[simp] theorem State.modStack_requests (s : State) (n : Nat) (f : Stack → Stack) : (s.modStack n f).requests = s.requests := rfl
@[simp] theorem State.modStack_waiting (s : State) (n : Nat) (f : Stack → Stack) : (s.modStack n f).waiting = s.waiting := rfl
@[simp] theorem State.modStack_holders (s : State) (n : Nat) (f : Stack → Stack) : (s.modStack n f).holders = s.holders := rfl
@[simp] theorem State.modStack_softErrs (s : State) (n : Nat) (f : Stack → Stack) : (s.modStack n f).softErrs = s.softErrs := rfl
@[simp] theorem State.modStack_touched (s : State) (n : Nat) (f : Stack → Stack) : (s.modStack n f).touched = s.touched := rfl
@[simp] theorem State.modStack_births (s : State) (n : Nat) (f : Stack → Stack) : (s.modStack n f).births = s.births := rfl
@[simp] theorem State.modStack_agenda (s : State) (n : Nat) (f : Stack → Stack) : (s.modStack n f).agenda = s.agenda := rfl
@[simp] theorem State.modStack_free (s : State) (n : Nat) (f : Stack → Stack) : (s.modStack n f).free = s.free := rfl
@[simp] theorem State.modStack_tick (s : State) (n : Nat) (f : Stack → Stack) : (s.modStack n f).tick = s.tick := rfl
@[simp] theorem State.modStack_sel (s : State) (n : Nat) (f : Stack → Stack) : (s.modStack n f).sel = s.sel := rfl

/-! ### State.modCtx -/

@[simp] theorem State.modCtx_cores (s : State) (n : Nat) (f : Ctx → Ctx) : (s.modCtx n f).cores = s.cores := rfl
@[simp] theorem State.modCtx_clusters (s : State) (n : Nat) (f : Ctx → Ctx) : (s.modCtx n f).clusters = s.clusters := rfl
@[simp] theorem State.modCtx_memStacks (s : State) (n : Nat) (f : Ctx → Ctx) : (s.modCtx n f).memStacks = s.memStacks := rfl
@[simp] theorem State.modCtx_handles (s : State) (n : Nat) (f : Ctx → Ctx) : (s.modCtx n f).handles = s.handles := rfl
@[simp] theorem State.modCtx_hbm (s : State) (n : Nat) (f : Ctx → Ctx) : (s.modCtx n f).hbm = s.hbm := rfl
@[simp] theorem State.modCtx_l2 (s : State) (n : Nat) (f : Ctx → Ctx) : (s.modCtx n f).l2 = s.l2 := rfl
@[simp] theorem State.modCtx_host (s : State) (n : Nat) (f : Ctx → Ctx) : (s.modCtx n f).host = s.host := rfl
@[simp] theorem State.modCtx_fills (s : State) (n : Nat) (f : Ctx → Ctx) : (s.modCtx n f).fills = s.fills := rfl
@[simp] theorem State.modCtx_thimble (s : State) (n : Nat) (f : Ctx → Ctx) : (s.modCtx n f).thimble = s.thimble := rfl
@[simp] theorem State.modCtx_funcs (s : State) (n : Nat) (f : Ctx → Ctx) : (s.modCtx n f).funcs = s.funcs := rfl
@[simp] theorem State.modCtx_platform (s : State) (n : Nat) (f : Ctx → Ctx) : (s.modCtx n f).platform = s.platform := rfl
@[simp] theorem State.modCtx_launches (s : State) (n : Nat) (f : Ctx → Ctx) : (s.modCtx n f).launches = s.launches := rfl
@[simp] theorem State.modCtx_outbox (s : State) (n : Nat) (f : Ctx → Ctx) : (s.modCtx n f).outbox = s.outbox := rfl
@[simp] theorem State.modCtx_requests (s : State) (n : Nat) (f : Ctx → Ctx) : (s.modCtx n f).requests = s.requests := rfl
@[simp] theorem State.modCtx_waiting (s : State) (n : Nat) (f : Ctx → Ctx) : (s.modCtx n f).waiting = s.waiting := rfl
@[simp] theorem State.modCtx_holders (s : State) (n : Nat) (f : Ctx → Ctx) : (s.modCtx n f).holders = s.holders := rfl
@[simp] theorem State.modCtx_softErrs (s : State) (n : Nat) (f : Ctx → Ctx) : (s.modCtx n f).softErrs = s.softErrs := rfl
@[simp] theorem State.modCtx_touched (s : State) (n : Nat) (f : Ctx → Ctx) : (s.modCtx n f).touched = s.touched := rfl
@[simp] theorem State.modCtx_births (s : State) (n : Nat) (f : Ctx → Ctx) : (s.modCtx n f).births = s.births := rfl
@[simp] theorem State.modCtx_agenda (s : State) (n : Nat) (f : Ctx → Ctx) : (s.modCtx n f).agenda = s.agenda := rfl
@[simp] theorem State.modCtx_free (s : State) (n : Nat) (f : Ctx → Ctx) : (s.modCtx n f).free = s.free := rfl
@[simp] theorem State.modCtx_tick (s : State) (n : Nat) (f : Ctx → Ctx) : (s.modCtx n f).tick = s.tick := rfl
@[simp] theorem State.modCtx_sel (s : State) (n : Nat) (f : Ctx → Ctx) : (s.modCtx n f).sel = s.sel := rfl

/-! ### State.modGrid -/

@[simp] theorem State.modGrid_cores (s : State) (n g : Nat) (f : Grid → Grid) : (s.modGrid n g f).cores = s.cores := rfl
@[simp] theorem State.modGrid_clusters (s : State) (n g : Nat) (f : Grid → Grid) : (s.modGrid n g f).clusters = s.clusters := rfl
@[simp] theorem State.modGrid_memStacks (s : State) (n g : Nat) (f : Grid → Grid) : (s.modGrid n g f).memStacks = s.memStacks := rfl
@[simp] theorem State.modGrid_handles (s : State) (n g : Nat) (f : Grid → Grid) : (s.modGrid n g f).handles = s.handles := rfl
@[simp] theorem State.modGrid_hbm (s : State) (n g : Nat) (f : Grid → Grid) : (s.modGrid n g f).hbm = s.hbm := rfl
@[simp] theorem State.modGrid_l2 (s : State) (n g : Nat) (f : Grid → Grid) : (s.modGrid n g f).l2 = s.l2 := rfl
@[simp] theorem State.modGrid_host (s : State) (n g : Nat) (f : Grid → Grid) : (s.modGrid n g f).host = s.host := rfl
@[simp] theorem State.modGrid_fills (s : State) (n g : Nat) (f : Grid → Grid) : (s.modGrid n g f).fills = s.fills := rfl
@[simp] theorem State.modGrid_thimble (s : State) (n g : Nat) (f : Grid → Grid) : (s.modGrid n g f).thimble = s.thimble := rfl
@[simp] theorem State.modGrid_funcs (s : State) (n g : Nat) (f : Grid → Grid) : (s.modGrid n g f).funcs = s.funcs := rfl
@[simp] theorem State.modGrid_platform (s : State) (n g : Nat) (f : Grid → Grid) : (s.modGrid n g f).platform = s.platform := rfl
@[simp] theorem State.modGrid_launches (s : State) (n g : Nat) (f : Grid → Grid) : (s.modGrid n g f).launches = s.launches := rfl
@[simp] theorem State.modGrid_outbox (s : State) (n g : Nat) (f : Grid → Grid) : (s.modGrid n g f).outbox = s.outbox := rfl
@[simp] theorem State.modGrid_requests (s : State) (n g : Nat) (f : Grid → Grid) : (s.modGrid n g f).requests = s.requests := rfl
@[simp] theorem State.modGrid_waiting (s : State) (n g : Nat) (f : Grid → Grid) : (s.modGrid n g f).waiting = s.waiting := rfl
@[simp] theorem State.modGrid_holders (s : State) (n g : Nat) (f : Grid → Grid) : (s.modGrid n g f).holders = s.holders := rfl
@[simp] theorem State.modGrid_softErrs (s : State) (n g : Nat) (f : Grid → Grid) : (s.modGrid n g f).softErrs = s.softErrs := rfl
@[simp] theorem State.modGrid_touched (s : State) (n g : Nat) (f : Grid → Grid) : (s.modGrid n g f).touched = s.touched := rfl
@[simp] theorem State.modGrid_births (s : State) (n g : Nat) (f : Grid → Grid) : (s.modGrid n g f).births = s.births := rfl
@[simp] theorem State.modGrid_agenda (s : State) (n g : Nat) (f : Grid → Grid) : (s.modGrid n g f).agenda = s.agenda := rfl
@[simp] theorem State.modGrid_free (s : State) (n g : Nat) (f : Grid → Grid) : (s.modGrid n g f).free = s.free := rfl
@[simp] theorem State.modGrid_tick (s : State) (n g : Nat) (f : Grid → Grid) : (s.modGrid n g f).tick = s.tick := rfl
@[simp] theorem State.modGrid_sel (s : State) (n g : Nat) (f : Grid → Grid) : (s.modGrid n g f).sel = s.sel := rfl

/-! ### State.setReg -/

@[simp] theorem State.setReg_cores (s : State) (n num : Nat) (v : Word64) : (s.setReg n num v).cores = s.cores := rfl
@[simp] theorem State.setReg_clusters (s : State) (n num : Nat) (v : Word64) : (s.setReg n num v).clusters = s.clusters := rfl
@[simp] theorem State.setReg_memStacks (s : State) (n num : Nat) (v : Word64) : (s.setReg n num v).memStacks = s.memStacks := rfl
@[simp] theorem State.setReg_handles (s : State) (n num : Nat) (v : Word64) : (s.setReg n num v).handles = s.handles := rfl
@[simp] theorem State.setReg_hbm (s : State) (n num : Nat) (v : Word64) : (s.setReg n num v).hbm = s.hbm := rfl
@[simp] theorem State.setReg_l2 (s : State) (n num : Nat) (v : Word64) : (s.setReg n num v).l2 = s.l2 := rfl
@[simp] theorem State.setReg_host (s : State) (n num : Nat) (v : Word64) : (s.setReg n num v).host = s.host := rfl
@[simp] theorem State.setReg_fills (s : State) (n num : Nat) (v : Word64) : (s.setReg n num v).fills = s.fills := rfl
@[simp] theorem State.setReg_thimble (s : State) (n num : Nat) (v : Word64) : (s.setReg n num v).thimble = s.thimble := rfl
@[simp] theorem State.setReg_funcs (s : State) (n num : Nat) (v : Word64) : (s.setReg n num v).funcs = s.funcs := rfl
@[simp] theorem State.setReg_platform (s : State) (n num : Nat) (v : Word64) : (s.setReg n num v).platform = s.platform := rfl
@[simp] theorem State.setReg_launches (s : State) (n num : Nat) (v : Word64) : (s.setReg n num v).launches = s.launches := rfl
@[simp] theorem State.setReg_outbox (s : State) (n num : Nat) (v : Word64) : (s.setReg n num v).outbox = s.outbox := rfl
@[simp] theorem State.setReg_requests (s : State) (n num : Nat) (v : Word64) : (s.setReg n num v).requests = s.requests := rfl
@[simp] theorem State.setReg_waiting (s : State) (n num : Nat) (v : Word64) : (s.setReg n num v).waiting = s.waiting := rfl
@[simp] theorem State.setReg_holders (s : State) (n num : Nat) (v : Word64) : (s.setReg n num v).holders = s.holders := rfl
@[simp] theorem State.setReg_softErrs (s : State) (n num : Nat) (v : Word64) : (s.setReg n num v).softErrs = s.softErrs := rfl
@[simp] theorem State.setReg_touched (s : State) (n num : Nat) (v : Word64) : (s.setReg n num v).touched = s.touched := rfl
@[simp] theorem State.setReg_births (s : State) (n num : Nat) (v : Word64) : (s.setReg n num v).births = s.births := rfl
@[simp] theorem State.setReg_agenda (s : State) (n num : Nat) (v : Word64) : (s.setReg n num v).agenda = s.agenda := rfl
@[simp] theorem State.setReg_free (s : State) (n num : Nat) (v : Word64) : (s.setReg n num v).free = s.free := rfl
@[simp] theorem State.setReg_tick (s : State) (n num : Nat) (v : Word64) : (s.setReg n num v).tick = s.tick := rfl
@[simp] theorem State.setReg_sel (s : State) (n num : Nat) (v : Word64) : (s.setReg n num v).sel = s.sel := rfl

/-! ### State.modFunc -/

@[simp] theorem State.modFunc_cores (s : State) (n : Nat) (f : Func → Func) : (s.modFunc n f).cores = s.cores := rfl
@[simp] theorem State.modFunc_clusters (s : State) (n : Nat) (f : Func → Func) : (s.modFunc n f).clusters = s.clusters := rfl
@[simp] theorem State.modFunc_memStacks (s : State) (n : Nat) (f : Func → Func) : (s.modFunc n f).memStacks = s.memStacks := rfl
@[simp] theorem State.modFunc_ctxs (s : State) (n : Nat) (f : Func → Func) : (s.modFunc n f).ctxs = s.ctxs := rfl
@[simp] theorem State.modFunc_handles (s : State) (n : Nat) (f : Func → Func) : (s.modFunc n f).handles = s.handles := rfl
@[simp] theorem State.modFunc_hbm (s : State) (n : Nat) (f : Func → Func) : (s.modFunc n f).hbm = s.hbm := rfl
@[simp] theorem State.modFunc_l2 (s : State) (n : Nat) (f : Func → Func) : (s.modFunc n f).l2 = s.l2 := rfl
@[simp] theorem State.modFunc_host (s : State) (n : Nat) (f : Func → Func) : (s.modFunc n f).host = s.host := rfl
@[simp] theorem State.modFunc_fills (s : State) (n : Nat) (f : Func → Func) : (s.modFunc n f).fills = s.fills := rfl
@[simp] theorem State.modFunc_thimble (s : State) (n : Nat) (f : Func → Func) : (s.modFunc n f).thimble = s.thimble := rfl
@[simp] theorem State.modFunc_platform (s : State) (n : Nat) (f : Func → Func) : (s.modFunc n f).platform = s.platform := rfl
@[simp] theorem State.modFunc_launches (s : State) (n : Nat) (f : Func → Func) : (s.modFunc n f).launches = s.launches := rfl
@[simp] theorem State.modFunc_outbox (s : State) (n : Nat) (f : Func → Func) : (s.modFunc n f).outbox = s.outbox := rfl
@[simp] theorem State.modFunc_requests (s : State) (n : Nat) (f : Func → Func) : (s.modFunc n f).requests = s.requests := rfl
@[simp] theorem State.modFunc_waiting (s : State) (n : Nat) (f : Func → Func) : (s.modFunc n f).waiting = s.waiting := rfl
@[simp] theorem State.modFunc_holders (s : State) (n : Nat) (f : Func → Func) : (s.modFunc n f).holders = s.holders := rfl
@[simp] theorem State.modFunc_softErrs (s : State) (n : Nat) (f : Func → Func) : (s.modFunc n f).softErrs = s.softErrs := rfl
@[simp] theorem State.modFunc_touched (s : State) (n : Nat) (f : Func → Func) : (s.modFunc n f).touched = s.touched := rfl
@[simp] theorem State.modFunc_births (s : State) (n : Nat) (f : Func → Func) : (s.modFunc n f).births = s.births := rfl
@[simp] theorem State.modFunc_agenda (s : State) (n : Nat) (f : Func → Func) : (s.modFunc n f).agenda = s.agenda := rfl
@[simp] theorem State.modFunc_free (s : State) (n : Nat) (f : Func → Func) : (s.modFunc n f).free = s.free := rfl
@[simp] theorem State.modFunc_tick (s : State) (n : Nat) (f : Func → Func) : (s.modFunc n f).tick = s.tick := rfl
@[simp] theorem State.modFunc_sel (s : State) (n : Nat) (f : Func → Func) : (s.modFunc n f).sel = s.sel := rfl

/-! ### State.drawWord -/

@[simp] theorem State.drawWord_cores (s : State) : (s.drawWord.2).cores = s.cores := rfl
@[simp] theorem State.drawWord_clusters (s : State) : (s.drawWord.2).clusters = s.clusters := rfl
@[simp] theorem State.drawWord_memStacks (s : State) : (s.drawWord.2).memStacks = s.memStacks := rfl
@[simp] theorem State.drawWord_ctxs (s : State) : (s.drawWord.2).ctxs = s.ctxs := rfl
@[simp] theorem State.drawWord_handles (s : State) : (s.drawWord.2).handles = s.handles := rfl
@[simp] theorem State.drawWord_hbm (s : State) : (s.drawWord.2).hbm = s.hbm := rfl
@[simp] theorem State.drawWord_l2 (s : State) : (s.drawWord.2).l2 = s.l2 := rfl
@[simp] theorem State.drawWord_host (s : State) : (s.drawWord.2).host = s.host := rfl
@[simp] theorem State.drawWord_fills (s : State) : (s.drawWord.2).fills = s.fills := rfl
@[simp] theorem State.drawWord_thimble (s : State) : (s.drawWord.2).thimble = s.thimble := rfl
@[simp] theorem State.drawWord_funcs (s : State) : (s.drawWord.2).funcs = s.funcs := rfl
@[simp] theorem State.drawWord_platform (s : State) : (s.drawWord.2).platform = s.platform := rfl
@[simp] theorem State.drawWord_launches (s : State) : (s.drawWord.2).launches = s.launches := rfl
@[simp] theorem State.drawWord_outbox (s : State) : (s.drawWord.2).outbox = s.outbox := rfl
@[simp] theorem State.drawWord_requests (s : State) : (s.drawWord.2).requests = s.requests := rfl
@[simp] theorem State.drawWord_waiting (s : State) : (s.drawWord.2).waiting = s.waiting := rfl
@[simp] theorem State.drawWord_holders (s : State) : (s.drawWord.2).holders = s.holders := rfl
@[simp] theorem State.drawWord_softErrs (s : State) : (s.drawWord.2).softErrs = s.softErrs := rfl
@[simp] theorem State.drawWord_touched (s : State) : (s.drawWord.2).touched = s.touched := rfl
@[simp] theorem State.drawWord_births (s : State) : (s.drawWord.2).births = s.births := rfl
@[simp] theorem State.drawWord_agenda (s : State) : (s.drawWord.2).agenda = s.agenda := rfl
@[simp] theorem State.drawWord_tick (s : State) : (s.drawWord.2).tick = s.tick := rfl
@[simp] theorem State.drawWord_sel (s : State) : (s.drawWord.2).sel = s.sel := rfl

/-! ### State.drawBytes -/

@[simp] theorem State.drawBytes_cores (s : State) (n : Nat) : ((s.drawBytes n).2).cores = s.cores := rfl
@[simp] theorem State.drawBytes_clusters (s : State) (n : Nat) : ((s.drawBytes n).2).clusters = s.clusters := rfl
@[simp] theorem State.drawBytes_memStacks (s : State) (n : Nat) : ((s.drawBytes n).2).memStacks = s.memStacks := rfl
@[simp] theorem State.drawBytes_ctxs (s : State) (n : Nat) : ((s.drawBytes n).2).ctxs = s.ctxs := rfl
@[simp] theorem State.drawBytes_handles (s : State) (n : Nat) : ((s.drawBytes n).2).handles = s.handles := rfl
@[simp] theorem State.drawBytes_hbm (s : State) (n : Nat) : ((s.drawBytes n).2).hbm = s.hbm := rfl
@[simp] theorem State.drawBytes_l2 (s : State) (n : Nat) : ((s.drawBytes n).2).l2 = s.l2 := rfl
@[simp] theorem State.drawBytes_host (s : State) (n : Nat) : ((s.drawBytes n).2).host = s.host := rfl
@[simp] theorem State.drawBytes_fills (s : State) (n : Nat) : ((s.drawBytes n).2).fills = s.fills := rfl
@[simp] theorem State.drawBytes_thimble (s : State) (n : Nat) : ((s.drawBytes n).2).thimble = s.thimble := rfl
@[simp] theorem State.drawBytes_funcs (s : State) (n : Nat) : ((s.drawBytes n).2).funcs = s.funcs := rfl
@[simp] theorem State.drawBytes_platform (s : State) (n : Nat) : ((s.drawBytes n).2).platform = s.platform := rfl
@[simp] theorem State.drawBytes_launches (s : State) (n : Nat) : ((s.drawBytes n).2).launches = s.launches := rfl
@[simp] theorem State.drawBytes_outbox (s : State) (n : Nat) : ((s.drawBytes n).2).outbox = s.outbox := rfl
@[simp] theorem State.drawBytes_requests (s : State) (n : Nat) : ((s.drawBytes n).2).requests = s.requests := rfl
@[simp] theorem State.drawBytes_waiting (s : State) (n : Nat) : ((s.drawBytes n).2).waiting = s.waiting := rfl
@[simp] theorem State.drawBytes_holders (s : State) (n : Nat) : ((s.drawBytes n).2).holders = s.holders := rfl
@[simp] theorem State.drawBytes_softErrs (s : State) (n : Nat) : ((s.drawBytes n).2).softErrs = s.softErrs := rfl
@[simp] theorem State.drawBytes_touched (s : State) (n : Nat) : ((s.drawBytes n).2).touched = s.touched := rfl
@[simp] theorem State.drawBytes_births (s : State) (n : Nat) : ((s.drawBytes n).2).births = s.births := rfl
@[simp] theorem State.drawBytes_agenda (s : State) (n : Nat) : ((s.drawBytes n).2).agenda = s.agenda := rfl
@[simp] theorem State.drawBytes_tick (s : State) (n : Nat) : ((s.drawBytes n).2).tick = s.tick := rfl
@[simp] theorem State.drawBytes_sel (s : State) (n : Nat) : ((s.drawBytes n).2).sel = s.sel := rfl

/-! ### State.drawRow -/

@[simp] theorem State.drawRow_cores (s : State) : (s.drawRow.2).cores = s.cores := rfl
@[simp] theorem State.drawRow_clusters (s : State) : (s.drawRow.2).clusters = s.clusters := rfl
@[simp] theorem State.drawRow_memStacks (s : State) : (s.drawRow.2).memStacks = s.memStacks := rfl
@[simp] theorem State.drawRow_ctxs (s : State) : (s.drawRow.2).ctxs = s.ctxs := rfl
@[simp] theorem State.drawRow_handles (s : State) : (s.drawRow.2).handles = s.handles := rfl
@[simp] theorem State.drawRow_hbm (s : State) : (s.drawRow.2).hbm = s.hbm := rfl
@[simp] theorem State.drawRow_l2 (s : State) : (s.drawRow.2).l2 = s.l2 := rfl
@[simp] theorem State.drawRow_host (s : State) : (s.drawRow.2).host = s.host := rfl
@[simp] theorem State.drawRow_fills (s : State) : (s.drawRow.2).fills = s.fills := rfl
@[simp] theorem State.drawRow_thimble (s : State) : (s.drawRow.2).thimble = s.thimble := rfl
@[simp] theorem State.drawRow_funcs (s : State) : (s.drawRow.2).funcs = s.funcs := rfl
@[simp] theorem State.drawRow_platform (s : State) : (s.drawRow.2).platform = s.platform := rfl
@[simp] theorem State.drawRow_launches (s : State) : (s.drawRow.2).launches = s.launches := rfl
@[simp] theorem State.drawRow_outbox (s : State) : (s.drawRow.2).outbox = s.outbox := rfl
@[simp] theorem State.drawRow_requests (s : State) : (s.drawRow.2).requests = s.requests := rfl
@[simp] theorem State.drawRow_waiting (s : State) : (s.drawRow.2).waiting = s.waiting := rfl
@[simp] theorem State.drawRow_holders (s : State) : (s.drawRow.2).holders = s.holders := rfl
@[simp] theorem State.drawRow_softErrs (s : State) : (s.drawRow.2).softErrs = s.softErrs := rfl
@[simp] theorem State.drawRow_touched (s : State) : (s.drawRow.2).touched = s.touched := rfl
@[simp] theorem State.drawRow_births (s : State) : (s.drawRow.2).births = s.births := rfl
@[simp] theorem State.drawRow_agenda (s : State) : (s.drawRow.2).agenda = s.agenda := rfl
@[simp] theorem State.drawRow_tick (s : State) : (s.drawRow.2).tick = s.tick := rfl
@[simp] theorem State.drawRow_sel (s : State) : (s.drawRow.2).sel = s.sel := rfl

/-! ### Env.modSig -/

@[simp] theorem Env.modSig_clusters (e : Env) (s : State) (f : Sig → Sig) : (e.modSig s f).clusters = s.clusters := rfl
@[simp] theorem Env.modSig_memStacks (e : Env) (s : State) (f : Sig → Sig) : (e.modSig s f).memStacks = s.memStacks := rfl
@[simp] theorem Env.modSig_ctxs (e : Env) (s : State) (f : Sig → Sig) : (e.modSig s f).ctxs = s.ctxs := rfl
@[simp] theorem Env.modSig_handles (e : Env) (s : State) (f : Sig → Sig) : (e.modSig s f).handles = s.handles := rfl
@[simp] theorem Env.modSig_hbm (e : Env) (s : State) (f : Sig → Sig) : (e.modSig s f).hbm = s.hbm := rfl
@[simp] theorem Env.modSig_l2 (e : Env) (s : State) (f : Sig → Sig) : (e.modSig s f).l2 = s.l2 := rfl
@[simp] theorem Env.modSig_host (e : Env) (s : State) (f : Sig → Sig) : (e.modSig s f).host = s.host := rfl
@[simp] theorem Env.modSig_fills (e : Env) (s : State) (f : Sig → Sig) : (e.modSig s f).fills = s.fills := rfl
@[simp] theorem Env.modSig_thimble (e : Env) (s : State) (f : Sig → Sig) : (e.modSig s f).thimble = s.thimble := rfl
@[simp] theorem Env.modSig_funcs (e : Env) (s : State) (f : Sig → Sig) : (e.modSig s f).funcs = s.funcs := rfl
@[simp] theorem Env.modSig_platform (e : Env) (s : State) (f : Sig → Sig) : (e.modSig s f).platform = s.platform := rfl
@[simp] theorem Env.modSig_launches (e : Env) (s : State) (f : Sig → Sig) : (e.modSig s f).launches = s.launches := rfl
@[simp] theorem Env.modSig_outbox (e : Env) (s : State) (f : Sig → Sig) : (e.modSig s f).outbox = s.outbox := rfl
@[simp] theorem Env.modSig_requests (e : Env) (s : State) (f : Sig → Sig) : (e.modSig s f).requests = s.requests := rfl
@[simp] theorem Env.modSig_waiting (e : Env) (s : State) (f : Sig → Sig) : (e.modSig s f).waiting = s.waiting := rfl
@[simp] theorem Env.modSig_holders (e : Env) (s : State) (f : Sig → Sig) : (e.modSig s f).holders = s.holders := rfl
@[simp] theorem Env.modSig_softErrs (e : Env) (s : State) (f : Sig → Sig) : (e.modSig s f).softErrs = s.softErrs := rfl
@[simp] theorem Env.modSig_touched (e : Env) (s : State) (f : Sig → Sig) : (e.modSig s f).touched = s.touched := rfl
@[simp] theorem Env.modSig_births (e : Env) (s : State) (f : Sig → Sig) : (e.modSig s f).births = s.births := rfl
@[simp] theorem Env.modSig_agenda (e : Env) (s : State) (f : Sig → Sig) : (e.modSig s f).agenda = s.agenda := rfl
@[simp] theorem Env.modSig_free (e : Env) (s : State) (f : Sig → Sig) : (e.modSig s f).free = s.free := rfl
@[simp] theorem Env.modSig_tick (e : Env) (s : State) (f : Sig → Sig) : (e.modSig s f).tick = s.tick := rfl
@[simp] theorem Env.modSig_sel (e : Env) (s : State) (f : Sig → Sig) : (e.modSig s f).sel = s.sel := rfl

/-! ### Env.modPath -/

@[simp] theorem Env.modPath_clusters (e : Env) (s : State) (f : Path → Path) : (e.modPath s f).clusters = s.clusters := rfl
@[simp] theorem Env.modPath_memStacks (e : Env) (s : State) (f : Path → Path) : (e.modPath s f).memStacks = s.memStacks := rfl
@[simp] theorem Env.modPath_ctxs (e : Env) (s : State) (f : Path → Path) : (e.modPath s f).ctxs = s.ctxs := rfl
@[simp] theorem Env.modPath_handles (e : Env) (s : State) (f : Path → Path) : (e.modPath s f).handles = s.handles := rfl
@[simp] theorem Env.modPath_hbm (e : Env) (s : State) (f : Path → Path) : (e.modPath s f).hbm = s.hbm := rfl
@[simp] theorem Env.modPath_l2 (e : Env) (s : State) (f : Path → Path) : (e.modPath s f).l2 = s.l2 := rfl
@[simp] theorem Env.modPath_host (e : Env) (s : State) (f : Path → Path) : (e.modPath s f).host = s.host := rfl
@[simp] theorem Env.modPath_fills (e : Env) (s : State) (f : Path → Path) : (e.modPath s f).fills = s.fills := rfl
@[simp] theorem Env.modPath_thimble (e : Env) (s : State) (f : Path → Path) : (e.modPath s f).thimble = s.thimble := rfl
@[simp] theorem Env.modPath_funcs (e : Env) (s : State) (f : Path → Path) : (e.modPath s f).funcs = s.funcs := rfl
@[simp] theorem Env.modPath_platform (e : Env) (s : State) (f : Path → Path) : (e.modPath s f).platform = s.platform := rfl
@[simp] theorem Env.modPath_launches (e : Env) (s : State) (f : Path → Path) : (e.modPath s f).launches = s.launches := rfl
@[simp] theorem Env.modPath_outbox (e : Env) (s : State) (f : Path → Path) : (e.modPath s f).outbox = s.outbox := rfl
@[simp] theorem Env.modPath_requests (e : Env) (s : State) (f : Path → Path) : (e.modPath s f).requests = s.requests := rfl
@[simp] theorem Env.modPath_waiting (e : Env) (s : State) (f : Path → Path) : (e.modPath s f).waiting = s.waiting := rfl
@[simp] theorem Env.modPath_holders (e : Env) (s : State) (f : Path → Path) : (e.modPath s f).holders = s.holders := rfl
@[simp] theorem Env.modPath_softErrs (e : Env) (s : State) (f : Path → Path) : (e.modPath s f).softErrs = s.softErrs := rfl
@[simp] theorem Env.modPath_touched (e : Env) (s : State) (f : Path → Path) : (e.modPath s f).touched = s.touched := rfl
@[simp] theorem Env.modPath_births (e : Env) (s : State) (f : Path → Path) : (e.modPath s f).births = s.births := rfl
@[simp] theorem Env.modPath_agenda (e : Env) (s : State) (f : Path → Path) : (e.modPath s f).agenda = s.agenda := rfl
@[simp] theorem Env.modPath_free (e : Env) (s : State) (f : Path → Path) : (e.modPath s f).free = s.free := rfl
@[simp] theorem Env.modPath_tick (e : Env) (s : State) (f : Path → Path) : (e.modPath s f).tick = s.tick := rfl
@[simp] theorem Env.modPath_sel (e : Env) (s : State) (f : Path → Path) : (e.modPath s f).sel = s.sel := rfl

/-! ### Env.modPort -/

@[simp] theorem Env.modPort_clusters (e : Env) (s : State) (f : Port → Port) : (e.modPort s f).clusters = s.clusters := rfl
@[simp] theorem Env.modPort_memStacks (e : Env) (s : State) (f : Port → Port) : (e.modPort s f).memStacks = s.memStacks := rfl
@[simp] theorem Env.modPort_ctxs (e : Env) (s : State) (f : Port → Port) : (e.modPort s f).ctxs = s.ctxs := rfl
@[simp] theorem Env.modPort_handles (e : Env) (s : State) (f : Port → Port) : (e.modPort s f).handles = s.handles := rfl
@[simp] theorem Env.modPort_hbm (e : Env) (s : State) (f : Port → Port) : (e.modPort s f).hbm = s.hbm := rfl
@[simp] theorem Env.modPort_l2 (e : Env) (s : State) (f : Port → Port) : (e.modPort s f).l2 = s.l2 := rfl
@[simp] theorem Env.modPort_host (e : Env) (s : State) (f : Port → Port) : (e.modPort s f).host = s.host := rfl
@[simp] theorem Env.modPort_fills (e : Env) (s : State) (f : Port → Port) : (e.modPort s f).fills = s.fills := rfl
@[simp] theorem Env.modPort_thimble (e : Env) (s : State) (f : Port → Port) : (e.modPort s f).thimble = s.thimble := rfl
@[simp] theorem Env.modPort_funcs (e : Env) (s : State) (f : Port → Port) : (e.modPort s f).funcs = s.funcs := rfl
@[simp] theorem Env.modPort_platform (e : Env) (s : State) (f : Port → Port) : (e.modPort s f).platform = s.platform := rfl
@[simp] theorem Env.modPort_launches (e : Env) (s : State) (f : Port → Port) : (e.modPort s f).launches = s.launches := rfl
@[simp] theorem Env.modPort_outbox (e : Env) (s : State) (f : Port → Port) : (e.modPort s f).outbox = s.outbox := rfl
@[simp] theorem Env.modPort_requests (e : Env) (s : State) (f : Port → Port) : (e.modPort s f).requests = s.requests := rfl
@[simp] theorem Env.modPort_waiting (e : Env) (s : State) (f : Port → Port) : (e.modPort s f).waiting = s.waiting := rfl
@[simp] theorem Env.modPort_holders (e : Env) (s : State) (f : Port → Port) : (e.modPort s f).holders = s.holders := rfl
@[simp] theorem Env.modPort_softErrs (e : Env) (s : State) (f : Port → Port) : (e.modPort s f).softErrs = s.softErrs := rfl
@[simp] theorem Env.modPort_touched (e : Env) (s : State) (f : Port → Port) : (e.modPort s f).touched = s.touched := rfl
@[simp] theorem Env.modPort_births (e : Env) (s : State) (f : Port → Port) : (e.modPort s f).births = s.births := rfl
@[simp] theorem Env.modPort_agenda (e : Env) (s : State) (f : Port → Port) : (e.modPort s f).agenda = s.agenda := rfl
@[simp] theorem Env.modPort_free (e : Env) (s : State) (f : Port → Port) : (e.modPort s f).free = s.free := rfl
@[simp] theorem Env.modPort_tick (e : Env) (s : State) (f : Port → Port) : (e.modPort s f).tick = s.tick := rfl
@[simp] theorem Env.modPort_sel (e : Env) (s : State) (f : Port → Port) : (e.modPort s f).sel = s.sel := rfl

/-! ### Env.writeS -/

@[simp] theorem Env.writeS_clusters (e : Env) (s : State) (n : Nat) (x : Word64) : (e.writeS s n x).clusters = s.clusters := rfl
@[simp] theorem Env.writeS_memStacks (e : Env) (s : State) (n : Nat) (x : Word64) : (e.writeS s n x).memStacks = s.memStacks := rfl
@[simp] theorem Env.writeS_ctxs (e : Env) (s : State) (n : Nat) (x : Word64) : (e.writeS s n x).ctxs = s.ctxs := rfl
@[simp] theorem Env.writeS_handles (e : Env) (s : State) (n : Nat) (x : Word64) : (e.writeS s n x).handles = s.handles := rfl
@[simp] theorem Env.writeS_hbm (e : Env) (s : State) (n : Nat) (x : Word64) : (e.writeS s n x).hbm = s.hbm := rfl
@[simp] theorem Env.writeS_l2 (e : Env) (s : State) (n : Nat) (x : Word64) : (e.writeS s n x).l2 = s.l2 := rfl
@[simp] theorem Env.writeS_host (e : Env) (s : State) (n : Nat) (x : Word64) : (e.writeS s n x).host = s.host := rfl
@[simp] theorem Env.writeS_fills (e : Env) (s : State) (n : Nat) (x : Word64) : (e.writeS s n x).fills = s.fills := rfl
@[simp] theorem Env.writeS_thimble (e : Env) (s : State) (n : Nat) (x : Word64) : (e.writeS s n x).thimble = s.thimble := rfl
@[simp] theorem Env.writeS_funcs (e : Env) (s : State) (n : Nat) (x : Word64) : (e.writeS s n x).funcs = s.funcs := rfl
@[simp] theorem Env.writeS_platform (e : Env) (s : State) (n : Nat) (x : Word64) : (e.writeS s n x).platform = s.platform := rfl
@[simp] theorem Env.writeS_launches (e : Env) (s : State) (n : Nat) (x : Word64) : (e.writeS s n x).launches = s.launches := rfl
@[simp] theorem Env.writeS_outbox (e : Env) (s : State) (n : Nat) (x : Word64) : (e.writeS s n x).outbox = s.outbox := rfl
@[simp] theorem Env.writeS_requests (e : Env) (s : State) (n : Nat) (x : Word64) : (e.writeS s n x).requests = s.requests := rfl
@[simp] theorem Env.writeS_waiting (e : Env) (s : State) (n : Nat) (x : Word64) : (e.writeS s n x).waiting = s.waiting := rfl
@[simp] theorem Env.writeS_holders (e : Env) (s : State) (n : Nat) (x : Word64) : (e.writeS s n x).holders = s.holders := rfl
@[simp] theorem Env.writeS_softErrs (e : Env) (s : State) (n : Nat) (x : Word64) : (e.writeS s n x).softErrs = s.softErrs := rfl
@[simp] theorem Env.writeS_touched (e : Env) (s : State) (n : Nat) (x : Word64) : (e.writeS s n x).touched = s.touched := rfl
@[simp] theorem Env.writeS_births (e : Env) (s : State) (n : Nat) (x : Word64) : (e.writeS s n x).births = s.births := rfl
@[simp] theorem Env.writeS_agenda (e : Env) (s : State) (n : Nat) (x : Word64) : (e.writeS s n x).agenda = s.agenda := rfl
@[simp] theorem Env.writeS_free (e : Env) (s : State) (n : Nat) (x : Word64) : (e.writeS s n x).free = s.free := rfl
@[simp] theorem Env.writeS_tick (e : Env) (s : State) (n : Nat) (x : Word64) : (e.writeS s n x).tick = s.tick := rfl
@[simp] theorem Env.writeS_sel (e : Env) (s : State) (n : Nat) (x : Word64) : (e.writeS s n x).sel = s.sel := rfl

/-! ### Env.writeH -/

@[simp] theorem Env.writeH_clusters (e : Env) (s : State) (n : Nat) (x : Word64) : (e.writeH s n x).clusters = s.clusters := rfl
@[simp] theorem Env.writeH_memStacks (e : Env) (s : State) (n : Nat) (x : Word64) : (e.writeH s n x).memStacks = s.memStacks := rfl
@[simp] theorem Env.writeH_ctxs (e : Env) (s : State) (n : Nat) (x : Word64) : (e.writeH s n x).ctxs = s.ctxs := rfl
@[simp] theorem Env.writeH_handles (e : Env) (s : State) (n : Nat) (x : Word64) : (e.writeH s n x).handles = s.handles := rfl
@[simp] theorem Env.writeH_hbm (e : Env) (s : State) (n : Nat) (x : Word64) : (e.writeH s n x).hbm = s.hbm := rfl
@[simp] theorem Env.writeH_l2 (e : Env) (s : State) (n : Nat) (x : Word64) : (e.writeH s n x).l2 = s.l2 := rfl
@[simp] theorem Env.writeH_host (e : Env) (s : State) (n : Nat) (x : Word64) : (e.writeH s n x).host = s.host := rfl
@[simp] theorem Env.writeH_fills (e : Env) (s : State) (n : Nat) (x : Word64) : (e.writeH s n x).fills = s.fills := rfl
@[simp] theorem Env.writeH_thimble (e : Env) (s : State) (n : Nat) (x : Word64) : (e.writeH s n x).thimble = s.thimble := rfl
@[simp] theorem Env.writeH_funcs (e : Env) (s : State) (n : Nat) (x : Word64) : (e.writeH s n x).funcs = s.funcs := rfl
@[simp] theorem Env.writeH_platform (e : Env) (s : State) (n : Nat) (x : Word64) : (e.writeH s n x).platform = s.platform := rfl
@[simp] theorem Env.writeH_launches (e : Env) (s : State) (n : Nat) (x : Word64) : (e.writeH s n x).launches = s.launches := rfl
@[simp] theorem Env.writeH_outbox (e : Env) (s : State) (n : Nat) (x : Word64) : (e.writeH s n x).outbox = s.outbox := rfl
@[simp] theorem Env.writeH_requests (e : Env) (s : State) (n : Nat) (x : Word64) : (e.writeH s n x).requests = s.requests := rfl
@[simp] theorem Env.writeH_waiting (e : Env) (s : State) (n : Nat) (x : Word64) : (e.writeH s n x).waiting = s.waiting := rfl
@[simp] theorem Env.writeH_holders (e : Env) (s : State) (n : Nat) (x : Word64) : (e.writeH s n x).holders = s.holders := rfl
@[simp] theorem Env.writeH_softErrs (e : Env) (s : State) (n : Nat) (x : Word64) : (e.writeH s n x).softErrs = s.softErrs := rfl
@[simp] theorem Env.writeH_touched (e : Env) (s : State) (n : Nat) (x : Word64) : (e.writeH s n x).touched = s.touched := rfl
@[simp] theorem Env.writeH_births (e : Env) (s : State) (n : Nat) (x : Word64) : (e.writeH s n x).births = s.births := rfl
@[simp] theorem Env.writeH_agenda (e : Env) (s : State) (n : Nat) (x : Word64) : (e.writeH s n x).agenda = s.agenda := rfl
@[simp] theorem Env.writeH_free (e : Env) (s : State) (n : Nat) (x : Word64) : (e.writeH s n x).free = s.free := rfl
@[simp] theorem Env.writeH_tick (e : Env) (s : State) (n : Nat) (x : Word64) : (e.writeH s n x).tick = s.tick := rfl
@[simp] theorem Env.writeH_sel (e : Env) (s : State) (n : Nat) (x : Word64) : (e.writeH s n x).sel = s.sel := rfl

/-! ### Env.writeP -/

@[simp] theorem Env.writeP_clusters (e : Env) (s : State) (n : Nat) (r : PredRow) : (e.writeP s n r).clusters = s.clusters := rfl
@[simp] theorem Env.writeP_memStacks (e : Env) (s : State) (n : Nat) (r : PredRow) : (e.writeP s n r).memStacks = s.memStacks := rfl
@[simp] theorem Env.writeP_ctxs (e : Env) (s : State) (n : Nat) (r : PredRow) : (e.writeP s n r).ctxs = s.ctxs := rfl
@[simp] theorem Env.writeP_handles (e : Env) (s : State) (n : Nat) (r : PredRow) : (e.writeP s n r).handles = s.handles := rfl
@[simp] theorem Env.writeP_hbm (e : Env) (s : State) (n : Nat) (r : PredRow) : (e.writeP s n r).hbm = s.hbm := rfl
@[simp] theorem Env.writeP_l2 (e : Env) (s : State) (n : Nat) (r : PredRow) : (e.writeP s n r).l2 = s.l2 := rfl
@[simp] theorem Env.writeP_host (e : Env) (s : State) (n : Nat) (r : PredRow) : (e.writeP s n r).host = s.host := rfl
@[simp] theorem Env.writeP_fills (e : Env) (s : State) (n : Nat) (r : PredRow) : (e.writeP s n r).fills = s.fills := rfl
@[simp] theorem Env.writeP_thimble (e : Env) (s : State) (n : Nat) (r : PredRow) : (e.writeP s n r).thimble = s.thimble := rfl
@[simp] theorem Env.writeP_funcs (e : Env) (s : State) (n : Nat) (r : PredRow) : (e.writeP s n r).funcs = s.funcs := rfl
@[simp] theorem Env.writeP_platform (e : Env) (s : State) (n : Nat) (r : PredRow) : (e.writeP s n r).platform = s.platform := rfl
@[simp] theorem Env.writeP_launches (e : Env) (s : State) (n : Nat) (r : PredRow) : (e.writeP s n r).launches = s.launches := rfl
@[simp] theorem Env.writeP_outbox (e : Env) (s : State) (n : Nat) (r : PredRow) : (e.writeP s n r).outbox = s.outbox := rfl
@[simp] theorem Env.writeP_requests (e : Env) (s : State) (n : Nat) (r : PredRow) : (e.writeP s n r).requests = s.requests := rfl
@[simp] theorem Env.writeP_waiting (e : Env) (s : State) (n : Nat) (r : PredRow) : (e.writeP s n r).waiting = s.waiting := rfl
@[simp] theorem Env.writeP_holders (e : Env) (s : State) (n : Nat) (r : PredRow) : (e.writeP s n r).holders = s.holders := rfl
@[simp] theorem Env.writeP_softErrs (e : Env) (s : State) (n : Nat) (r : PredRow) : (e.writeP s n r).softErrs = s.softErrs := rfl
@[simp] theorem Env.writeP_touched (e : Env) (s : State) (n : Nat) (r : PredRow) : (e.writeP s n r).touched = s.touched := rfl
@[simp] theorem Env.writeP_births (e : Env) (s : State) (n : Nat) (r : PredRow) : (e.writeP s n r).births = s.births := rfl
@[simp] theorem Env.writeP_agenda (e : Env) (s : State) (n : Nat) (r : PredRow) : (e.writeP s n r).agenda = s.agenda := rfl
@[simp] theorem Env.writeP_free (e : Env) (s : State) (n : Nat) (r : PredRow) : (e.writeP s n r).free = s.free := rfl
@[simp] theorem Env.writeP_tick (e : Env) (s : State) (n : Nat) (r : PredRow) : (e.writeP s n r).tick = s.tick := rfl
@[simp] theorem Env.writeP_sel (e : Env) (s : State) (n : Nat) (r : PredRow) : (e.writeP s n r).sel = s.sel := rfl

/-! ### Env.count -/

@[simp] theorem Env.count_clusters (e : Env) (s : State) : (e.count s).clusters = s.clusters := rfl
@[simp] theorem Env.count_memStacks (e : Env) (s : State) : (e.count s).memStacks = s.memStacks := rfl
@[simp] theorem Env.count_ctxs (e : Env) (s : State) : (e.count s).ctxs = s.ctxs := rfl
@[simp] theorem Env.count_handles (e : Env) (s : State) : (e.count s).handles = s.handles := rfl
@[simp] theorem Env.count_hbm (e : Env) (s : State) : (e.count s).hbm = s.hbm := rfl
@[simp] theorem Env.count_l2 (e : Env) (s : State) : (e.count s).l2 = s.l2 := rfl
@[simp] theorem Env.count_host (e : Env) (s : State) : (e.count s).host = s.host := rfl
@[simp] theorem Env.count_fills (e : Env) (s : State) : (e.count s).fills = s.fills := rfl
@[simp] theorem Env.count_thimble (e : Env) (s : State) : (e.count s).thimble = s.thimble := rfl
@[simp] theorem Env.count_funcs (e : Env) (s : State) : (e.count s).funcs = s.funcs := rfl
@[simp] theorem Env.count_platform (e : Env) (s : State) : (e.count s).platform = s.platform := rfl
@[simp] theorem Env.count_launches (e : Env) (s : State) : (e.count s).launches = s.launches := rfl
@[simp] theorem Env.count_outbox (e : Env) (s : State) : (e.count s).outbox = s.outbox := rfl
@[simp] theorem Env.count_requests (e : Env) (s : State) : (e.count s).requests = s.requests := rfl
@[simp] theorem Env.count_waiting (e : Env) (s : State) : (e.count s).waiting = s.waiting := rfl
@[simp] theorem Env.count_holders (e : Env) (s : State) : (e.count s).holders = s.holders := rfl
@[simp] theorem Env.count_softErrs (e : Env) (s : State) : (e.count s).softErrs = s.softErrs := rfl
@[simp] theorem Env.count_touched (e : Env) (s : State) : (e.count s).touched = s.touched := rfl
@[simp] theorem Env.count_births (e : Env) (s : State) : (e.count s).births = s.births := rfl
@[simp] theorem Env.count_agenda (e : Env) (s : State) : (e.count s).agenda = s.agenda := rfl
@[simp] theorem Env.count_free (e : Env) (s : State) : (e.count s).free = s.free := rfl
@[simp] theorem Env.count_tick (e : Env) (s : State) : (e.count s).tick = s.tick := rfl
@[simp] theorem Env.count_sel (e : Env) (s : State) : (e.count s).sel = s.sel := rfl

/-! ### Env.retire -/

@[simp] theorem Env.retire_clusters (e : Env) (s : State) (pc : Word64) : (e.retire s pc).clusters = s.clusters := rfl
@[simp] theorem Env.retire_memStacks (e : Env) (s : State) (pc : Word64) : (e.retire s pc).memStacks = s.memStacks := rfl
@[simp] theorem Env.retire_ctxs (e : Env) (s : State) (pc : Word64) : (e.retire s pc).ctxs = s.ctxs := rfl
@[simp] theorem Env.retire_handles (e : Env) (s : State) (pc : Word64) : (e.retire s pc).handles = s.handles := rfl
@[simp] theorem Env.retire_hbm (e : Env) (s : State) (pc : Word64) : (e.retire s pc).hbm = s.hbm := rfl
@[simp] theorem Env.retire_l2 (e : Env) (s : State) (pc : Word64) : (e.retire s pc).l2 = s.l2 := rfl
@[simp] theorem Env.retire_host (e : Env) (s : State) (pc : Word64) : (e.retire s pc).host = s.host := rfl
@[simp] theorem Env.retire_fills (e : Env) (s : State) (pc : Word64) : (e.retire s pc).fills = s.fills := rfl
@[simp] theorem Env.retire_thimble (e : Env) (s : State) (pc : Word64) : (e.retire s pc).thimble = s.thimble := rfl
@[simp] theorem Env.retire_funcs (e : Env) (s : State) (pc : Word64) : (e.retire s pc).funcs = s.funcs := rfl
@[simp] theorem Env.retire_platform (e : Env) (s : State) (pc : Word64) : (e.retire s pc).platform = s.platform := rfl
@[simp] theorem Env.retire_launches (e : Env) (s : State) (pc : Word64) : (e.retire s pc).launches = s.launches := rfl
@[simp] theorem Env.retire_outbox (e : Env) (s : State) (pc : Word64) : (e.retire s pc).outbox = s.outbox := rfl
@[simp] theorem Env.retire_requests (e : Env) (s : State) (pc : Word64) : (e.retire s pc).requests = s.requests := rfl
@[simp] theorem Env.retire_waiting (e : Env) (s : State) (pc : Word64) : (e.retire s pc).waiting = s.waiting := rfl
@[simp] theorem Env.retire_holders (e : Env) (s : State) (pc : Word64) : (e.retire s pc).holders = s.holders := rfl
@[simp] theorem Env.retire_softErrs (e : Env) (s : State) (pc : Word64) : (e.retire s pc).softErrs = s.softErrs := rfl
@[simp] theorem Env.retire_touched (e : Env) (s : State) (pc : Word64) : (e.retire s pc).touched = s.touched := rfl
@[simp] theorem Env.retire_births (e : Env) (s : State) (pc : Word64) : (e.retire s pc).births = s.births := rfl
@[simp] theorem Env.retire_agenda (e : Env) (s : State) (pc : Word64) : (e.retire s pc).agenda = s.agenda := rfl
@[simp] theorem Env.retire_free (e : Env) (s : State) (pc : Word64) : (e.retire s pc).free = s.free := rfl
@[simp] theorem Env.retire_tick (e : Env) (s : State) (pc : Word64) : (e.retire s pc).tick = s.tick := rfl
@[simp] theorem Env.retire_sel (e : Env) (s : State) (pc : Word64) : (e.retire s pc).sel = s.sel := rfl

/-! ### Env.leaveHandler -/

@[simp] theorem Env.leaveHandler_clusters (e : Env) (s : State) (pc : Word64) : (e.leaveHandler s pc).clusters = s.clusters := rfl
@[simp] theorem Env.leaveHandler_memStacks (e : Env) (s : State) (pc : Word64) : (e.leaveHandler s pc).memStacks = s.memStacks := rfl
@[simp] theorem Env.leaveHandler_ctxs (e : Env) (s : State) (pc : Word64) : (e.leaveHandler s pc).ctxs = s.ctxs := rfl
@[simp] theorem Env.leaveHandler_handles (e : Env) (s : State) (pc : Word64) : (e.leaveHandler s pc).handles = s.handles := rfl
@[simp] theorem Env.leaveHandler_hbm (e : Env) (s : State) (pc : Word64) : (e.leaveHandler s pc).hbm = s.hbm := rfl
@[simp] theorem Env.leaveHandler_l2 (e : Env) (s : State) (pc : Word64) : (e.leaveHandler s pc).l2 = s.l2 := rfl
@[simp] theorem Env.leaveHandler_host (e : Env) (s : State) (pc : Word64) : (e.leaveHandler s pc).host = s.host := rfl
@[simp] theorem Env.leaveHandler_fills (e : Env) (s : State) (pc : Word64) : (e.leaveHandler s pc).fills = s.fills := rfl
@[simp] theorem Env.leaveHandler_thimble (e : Env) (s : State) (pc : Word64) : (e.leaveHandler s pc).thimble = s.thimble := rfl
@[simp] theorem Env.leaveHandler_funcs (e : Env) (s : State) (pc : Word64) : (e.leaveHandler s pc).funcs = s.funcs := rfl
@[simp] theorem Env.leaveHandler_platform (e : Env) (s : State) (pc : Word64) : (e.leaveHandler s pc).platform = s.platform := rfl
@[simp] theorem Env.leaveHandler_launches (e : Env) (s : State) (pc : Word64) : (e.leaveHandler s pc).launches = s.launches := rfl
@[simp] theorem Env.leaveHandler_outbox (e : Env) (s : State) (pc : Word64) : (e.leaveHandler s pc).outbox = s.outbox := rfl
@[simp] theorem Env.leaveHandler_requests (e : Env) (s : State) (pc : Word64) : (e.leaveHandler s pc).requests = s.requests := rfl
@[simp] theorem Env.leaveHandler_waiting (e : Env) (s : State) (pc : Word64) : (e.leaveHandler s pc).waiting = s.waiting := rfl
@[simp] theorem Env.leaveHandler_holders (e : Env) (s : State) (pc : Word64) : (e.leaveHandler s pc).holders = s.holders := rfl
@[simp] theorem Env.leaveHandler_softErrs (e : Env) (s : State) (pc : Word64) : (e.leaveHandler s pc).softErrs = s.softErrs := rfl
@[simp] theorem Env.leaveHandler_touched (e : Env) (s : State) (pc : Word64) : (e.leaveHandler s pc).touched = s.touched := rfl
@[simp] theorem Env.leaveHandler_births (e : Env) (s : State) (pc : Word64) : (e.leaveHandler s pc).births = s.births := rfl
@[simp] theorem Env.leaveHandler_agenda (e : Env) (s : State) (pc : Word64) : (e.leaveHandler s pc).agenda = s.agenda := rfl
@[simp] theorem Env.leaveHandler_free (e : Env) (s : State) (pc : Word64) : (e.leaveHandler s pc).free = s.free := rfl
@[simp] theorem Env.leaveHandler_tick (e : Env) (s : State) (pc : Word64) : (e.leaveHandler s pc).tick = s.tick := rfl
@[simp] theorem Env.leaveHandler_sel (e : Env) (s : State) (pc : Word64) : (e.leaveHandler s pc).sel = s.sel := rfl

/-! ### writeDest -/

@[simp] theorem writeDest_clusters (s : State) (core slot port : Nat) (m : Mask) (add : Nat) (d : Dest) (r : Row) : (writeDest s core slot port m add d r).clusters = s.clusters := by cases d <;> rfl
@[simp] theorem writeDest_memStacks (s : State) (core slot port : Nat) (m : Mask) (add : Nat) (d : Dest) (r : Row) : (writeDest s core slot port m add d r).memStacks = s.memStacks := by cases d <;> rfl
@[simp] theorem writeDest_ctxs (s : State) (core slot port : Nat) (m : Mask) (add : Nat) (d : Dest) (r : Row) : (writeDest s core slot port m add d r).ctxs = s.ctxs := by cases d <;> rfl
@[simp] theorem writeDest_handles (s : State) (core slot port : Nat) (m : Mask) (add : Nat) (d : Dest) (r : Row) : (writeDest s core slot port m add d r).handles = s.handles := by cases d <;> rfl
@[simp] theorem writeDest_hbm (s : State) (core slot port : Nat) (m : Mask) (add : Nat) (d : Dest) (r : Row) : (writeDest s core slot port m add d r).hbm = s.hbm := by cases d <;> rfl
@[simp] theorem writeDest_l2 (s : State) (core slot port : Nat) (m : Mask) (add : Nat) (d : Dest) (r : Row) : (writeDest s core slot port m add d r).l2 = s.l2 := by cases d <;> rfl
@[simp] theorem writeDest_host (s : State) (core slot port : Nat) (m : Mask) (add : Nat) (d : Dest) (r : Row) : (writeDest s core slot port m add d r).host = s.host := by cases d <;> rfl
@[simp] theorem writeDest_fills (s : State) (core slot port : Nat) (m : Mask) (add : Nat) (d : Dest) (r : Row) : (writeDest s core slot port m add d r).fills = s.fills := by cases d <;> rfl
@[simp] theorem writeDest_thimble (s : State) (core slot port : Nat) (m : Mask) (add : Nat) (d : Dest) (r : Row) : (writeDest s core slot port m add d r).thimble = s.thimble := by cases d <;> rfl
@[simp] theorem writeDest_funcs (s : State) (core slot port : Nat) (m : Mask) (add : Nat) (d : Dest) (r : Row) : (writeDest s core slot port m add d r).funcs = s.funcs := by cases d <;> rfl
@[simp] theorem writeDest_platform (s : State) (core slot port : Nat) (m : Mask) (add : Nat) (d : Dest) (r : Row) : (writeDest s core slot port m add d r).platform = s.platform := by cases d <;> rfl
@[simp] theorem writeDest_launches (s : State) (core slot port : Nat) (m : Mask) (add : Nat) (d : Dest) (r : Row) : (writeDest s core slot port m add d r).launches = s.launches := by cases d <;> rfl
@[simp] theorem writeDest_outbox (s : State) (core slot port : Nat) (m : Mask) (add : Nat) (d : Dest) (r : Row) : (writeDest s core slot port m add d r).outbox = s.outbox := by cases d <;> rfl
@[simp] theorem writeDest_requests (s : State) (core slot port : Nat) (m : Mask) (add : Nat) (d : Dest) (r : Row) : (writeDest s core slot port m add d r).requests = s.requests := by cases d <;> rfl
@[simp] theorem writeDest_waiting (s : State) (core slot port : Nat) (m : Mask) (add : Nat) (d : Dest) (r : Row) : (writeDest s core slot port m add d r).waiting = s.waiting := by cases d <;> rfl
@[simp] theorem writeDest_holders (s : State) (core slot port : Nat) (m : Mask) (add : Nat) (d : Dest) (r : Row) : (writeDest s core slot port m add d r).holders = s.holders := by cases d <;> rfl
@[simp] theorem writeDest_softErrs (s : State) (core slot port : Nat) (m : Mask) (add : Nat) (d : Dest) (r : Row) : (writeDest s core slot port m add d r).softErrs = s.softErrs := by cases d <;> rfl
@[simp] theorem writeDest_touched (s : State) (core slot port : Nat) (m : Mask) (add : Nat) (d : Dest) (r : Row) : (writeDest s core slot port m add d r).touched = s.touched := by cases d <;> rfl
@[simp] theorem writeDest_births (s : State) (core slot port : Nat) (m : Mask) (add : Nat) (d : Dest) (r : Row) : (writeDest s core slot port m add d r).births = s.births := by cases d <;> rfl
@[simp] theorem writeDest_agenda (s : State) (core slot port : Nat) (m : Mask) (add : Nat) (d : Dest) (r : Row) : (writeDest s core slot port m add d r).agenda = s.agenda := by cases d <;> rfl
@[simp] theorem writeDest_free (s : State) (core slot port : Nat) (m : Mask) (add : Nat) (d : Dest) (r : Row) : (writeDest s core slot port m add d r).free = s.free := by cases d <;> rfl
@[simp] theorem writeDest_tick (s : State) (core slot port : Nat) (m : Mask) (add : Nat) (d : Dest) (r : Row) : (writeDest s core slot port m add d r).tick = s.tick := by cases d <;> rfl
@[simp] theorem writeDest_sel (s : State) (core slot port : Nat) (m : Mask) (add : Nat) (d : Dest) (r : Row) : (writeDest s core slot port m add d r).sel = s.sel := by cases d <;> rfl

/-! ### Env.write -/

@[simp] theorem Env.write_clusters (e : Env) (s : State) (o : Operand) (r : Row) : (e.write s o r).clusters = s.clusters := by unfold Env.write; simp
@[simp] theorem Env.write_memStacks (e : Env) (s : State) (o : Operand) (r : Row) : (e.write s o r).memStacks = s.memStacks := by unfold Env.write; simp
@[simp] theorem Env.write_ctxs (e : Env) (s : State) (o : Operand) (r : Row) : (e.write s o r).ctxs = s.ctxs := by unfold Env.write; simp
@[simp] theorem Env.write_handles (e : Env) (s : State) (o : Operand) (r : Row) : (e.write s o r).handles = s.handles := by unfold Env.write; simp
@[simp] theorem Env.write_hbm (e : Env) (s : State) (o : Operand) (r : Row) : (e.write s o r).hbm = s.hbm := by unfold Env.write; simp
@[simp] theorem Env.write_l2 (e : Env) (s : State) (o : Operand) (r : Row) : (e.write s o r).l2 = s.l2 := by unfold Env.write; simp
@[simp] theorem Env.write_host (e : Env) (s : State) (o : Operand) (r : Row) : (e.write s o r).host = s.host := by unfold Env.write; simp
@[simp] theorem Env.write_fills (e : Env) (s : State) (o : Operand) (r : Row) : (e.write s o r).fills = s.fills := by unfold Env.write; simp
@[simp] theorem Env.write_thimble (e : Env) (s : State) (o : Operand) (r : Row) : (e.write s o r).thimble = s.thimble := by unfold Env.write; simp
@[simp] theorem Env.write_funcs (e : Env) (s : State) (o : Operand) (r : Row) : (e.write s o r).funcs = s.funcs := by unfold Env.write; simp
@[simp] theorem Env.write_platform (e : Env) (s : State) (o : Operand) (r : Row) : (e.write s o r).platform = s.platform := by unfold Env.write; simp
@[simp] theorem Env.write_launches (e : Env) (s : State) (o : Operand) (r : Row) : (e.write s o r).launches = s.launches := by unfold Env.write; simp
@[simp] theorem Env.write_outbox (e : Env) (s : State) (o : Operand) (r : Row) : (e.write s o r).outbox = s.outbox := by unfold Env.write; simp
@[simp] theorem Env.write_requests (e : Env) (s : State) (o : Operand) (r : Row) : (e.write s o r).requests = s.requests := by unfold Env.write; simp
@[simp] theorem Env.write_waiting (e : Env) (s : State) (o : Operand) (r : Row) : (e.write s o r).waiting = s.waiting := by unfold Env.write; simp
@[simp] theorem Env.write_holders (e : Env) (s : State) (o : Operand) (r : Row) : (e.write s o r).holders = s.holders := by unfold Env.write; simp
@[simp] theorem Env.write_softErrs (e : Env) (s : State) (o : Operand) (r : Row) : (e.write s o r).softErrs = s.softErrs := by unfold Env.write; simp
@[simp] theorem Env.write_touched (e : Env) (s : State) (o : Operand) (r : Row) : (e.write s o r).touched = s.touched := by unfold Env.write; simp
@[simp] theorem Env.write_births (e : Env) (s : State) (o : Operand) (r : Row) : (e.write s o r).births = s.births := by unfold Env.write; simp
@[simp] theorem Env.write_agenda (e : Env) (s : State) (o : Operand) (r : Row) : (e.write s o r).agenda = s.agenda := by unfold Env.write; simp
@[simp] theorem Env.write_free (e : Env) (s : State) (o : Operand) (r : Row) : (e.write s o r).free = s.free := by unfold Env.write; simp
@[simp] theorem Env.write_tick (e : Env) (s : State) (o : Operand) (r : Row) : (e.write s o r).tick = s.tick := by unfold Env.write; simp
@[simp] theorem Env.write_sel (e : Env) (s : State) (o : Operand) (r : Row) : (e.write s o r).sel = s.sel := by unfold Env.write; simp

/-! ### Env.writeHi -/

@[simp] theorem Env.writeHi_clusters (e : Env) (s : State) (o : Operand) (r : Row) : (e.writeHi s o r).clusters = s.clusters := by unfold Env.writeHi; simp
@[simp] theorem Env.writeHi_memStacks (e : Env) (s : State) (o : Operand) (r : Row) : (e.writeHi s o r).memStacks = s.memStacks := by unfold Env.writeHi; simp
@[simp] theorem Env.writeHi_ctxs (e : Env) (s : State) (o : Operand) (r : Row) : (e.writeHi s o r).ctxs = s.ctxs := by unfold Env.writeHi; simp
@[simp] theorem Env.writeHi_handles (e : Env) (s : State) (o : Operand) (r : Row) : (e.writeHi s o r).handles = s.handles := by unfold Env.writeHi; simp
@[simp] theorem Env.writeHi_hbm (e : Env) (s : State) (o : Operand) (r : Row) : (e.writeHi s o r).hbm = s.hbm := by unfold Env.writeHi; simp
@[simp] theorem Env.writeHi_l2 (e : Env) (s : State) (o : Operand) (r : Row) : (e.writeHi s o r).l2 = s.l2 := by unfold Env.writeHi; simp
@[simp] theorem Env.writeHi_host (e : Env) (s : State) (o : Operand) (r : Row) : (e.writeHi s o r).host = s.host := by unfold Env.writeHi; simp
@[simp] theorem Env.writeHi_fills (e : Env) (s : State) (o : Operand) (r : Row) : (e.writeHi s o r).fills = s.fills := by unfold Env.writeHi; simp
@[simp] theorem Env.writeHi_thimble (e : Env) (s : State) (o : Operand) (r : Row) : (e.writeHi s o r).thimble = s.thimble := by unfold Env.writeHi; simp
@[simp] theorem Env.writeHi_funcs (e : Env) (s : State) (o : Operand) (r : Row) : (e.writeHi s o r).funcs = s.funcs := by unfold Env.writeHi; simp
@[simp] theorem Env.writeHi_platform (e : Env) (s : State) (o : Operand) (r : Row) : (e.writeHi s o r).platform = s.platform := by unfold Env.writeHi; simp
@[simp] theorem Env.writeHi_launches (e : Env) (s : State) (o : Operand) (r : Row) : (e.writeHi s o r).launches = s.launches := by unfold Env.writeHi; simp
@[simp] theorem Env.writeHi_outbox (e : Env) (s : State) (o : Operand) (r : Row) : (e.writeHi s o r).outbox = s.outbox := by unfold Env.writeHi; simp
@[simp] theorem Env.writeHi_requests (e : Env) (s : State) (o : Operand) (r : Row) : (e.writeHi s o r).requests = s.requests := by unfold Env.writeHi; simp
@[simp] theorem Env.writeHi_waiting (e : Env) (s : State) (o : Operand) (r : Row) : (e.writeHi s o r).waiting = s.waiting := by unfold Env.writeHi; simp
@[simp] theorem Env.writeHi_holders (e : Env) (s : State) (o : Operand) (r : Row) : (e.writeHi s o r).holders = s.holders := by unfold Env.writeHi; simp
@[simp] theorem Env.writeHi_softErrs (e : Env) (s : State) (o : Operand) (r : Row) : (e.writeHi s o r).softErrs = s.softErrs := by unfold Env.writeHi; simp
@[simp] theorem Env.writeHi_touched (e : Env) (s : State) (o : Operand) (r : Row) : (e.writeHi s o r).touched = s.touched := by unfold Env.writeHi; simp
@[simp] theorem Env.writeHi_births (e : Env) (s : State) (o : Operand) (r : Row) : (e.writeHi s o r).births = s.births := by unfold Env.writeHi; simp
@[simp] theorem Env.writeHi_agenda (e : Env) (s : State) (o : Operand) (r : Row) : (e.writeHi s o r).agenda = s.agenda := by unfold Env.writeHi; simp
@[simp] theorem Env.writeHi_free (e : Env) (s : State) (o : Operand) (r : Row) : (e.writeHi s o r).free = s.free := by unfold Env.writeHi; simp
@[simp] theorem Env.writeHi_tick (e : Env) (s : State) (o : Operand) (r : Row) : (e.writeHi s o r).tick = s.tick := by unfold Env.writeHi; simp
@[simp] theorem Env.writeHi_sel (e : Env) (s : State) (o : Operand) (r : Row) : (e.writeHi s o r).sel = s.sel := by unfold Env.writeHi; simp

/-! ### Env.writeUni -/

@[simp] theorem Env.writeUni_clusters (e : Env) (s : State) (o : Operand) (x : Word64) : (e.writeUni s o x).clusters = s.clusters := by unfold Env.writeUni; split <;> simp
@[simp] theorem Env.writeUni_memStacks (e : Env) (s : State) (o : Operand) (x : Word64) : (e.writeUni s o x).memStacks = s.memStacks := by unfold Env.writeUni; split <;> simp
@[simp] theorem Env.writeUni_ctxs (e : Env) (s : State) (o : Operand) (x : Word64) : (e.writeUni s o x).ctxs = s.ctxs := by unfold Env.writeUni; split <;> simp
@[simp] theorem Env.writeUni_handles (e : Env) (s : State) (o : Operand) (x : Word64) : (e.writeUni s o x).handles = s.handles := by unfold Env.writeUni; split <;> simp
@[simp] theorem Env.writeUni_hbm (e : Env) (s : State) (o : Operand) (x : Word64) : (e.writeUni s o x).hbm = s.hbm := by unfold Env.writeUni; split <;> simp
@[simp] theorem Env.writeUni_l2 (e : Env) (s : State) (o : Operand) (x : Word64) : (e.writeUni s o x).l2 = s.l2 := by unfold Env.writeUni; split <;> simp
@[simp] theorem Env.writeUni_host (e : Env) (s : State) (o : Operand) (x : Word64) : (e.writeUni s o x).host = s.host := by unfold Env.writeUni; split <;> simp
@[simp] theorem Env.writeUni_fills (e : Env) (s : State) (o : Operand) (x : Word64) : (e.writeUni s o x).fills = s.fills := by unfold Env.writeUni; split <;> simp
@[simp] theorem Env.writeUni_thimble (e : Env) (s : State) (o : Operand) (x : Word64) : (e.writeUni s o x).thimble = s.thimble := by unfold Env.writeUni; split <;> simp
@[simp] theorem Env.writeUni_funcs (e : Env) (s : State) (o : Operand) (x : Word64) : (e.writeUni s o x).funcs = s.funcs := by unfold Env.writeUni; split <;> simp
@[simp] theorem Env.writeUni_platform (e : Env) (s : State) (o : Operand) (x : Word64) : (e.writeUni s o x).platform = s.platform := by unfold Env.writeUni; split <;> simp
@[simp] theorem Env.writeUni_launches (e : Env) (s : State) (o : Operand) (x : Word64) : (e.writeUni s o x).launches = s.launches := by unfold Env.writeUni; split <;> simp
@[simp] theorem Env.writeUni_outbox (e : Env) (s : State) (o : Operand) (x : Word64) : (e.writeUni s o x).outbox = s.outbox := by unfold Env.writeUni; split <;> simp
@[simp] theorem Env.writeUni_requests (e : Env) (s : State) (o : Operand) (x : Word64) : (e.writeUni s o x).requests = s.requests := by unfold Env.writeUni; split <;> simp
@[simp] theorem Env.writeUni_waiting (e : Env) (s : State) (o : Operand) (x : Word64) : (e.writeUni s o x).waiting = s.waiting := by unfold Env.writeUni; split <;> simp
@[simp] theorem Env.writeUni_holders (e : Env) (s : State) (o : Operand) (x : Word64) : (e.writeUni s o x).holders = s.holders := by unfold Env.writeUni; split <;> simp
@[simp] theorem Env.writeUni_softErrs (e : Env) (s : State) (o : Operand) (x : Word64) : (e.writeUni s o x).softErrs = s.softErrs := by unfold Env.writeUni; split <;> simp
@[simp] theorem Env.writeUni_touched (e : Env) (s : State) (o : Operand) (x : Word64) : (e.writeUni s o x).touched = s.touched := by unfold Env.writeUni; split <;> simp
@[simp] theorem Env.writeUni_births (e : Env) (s : State) (o : Operand) (x : Word64) : (e.writeUni s o x).births = s.births := by unfold Env.writeUni; split <;> simp
@[simp] theorem Env.writeUni_agenda (e : Env) (s : State) (o : Operand) (x : Word64) : (e.writeUni s o x).agenda = s.agenda := by unfold Env.writeUni; split <;> simp
@[simp] theorem Env.writeUni_free (e : Env) (s : State) (o : Operand) (x : Word64) : (e.writeUni s o x).free = s.free := by unfold Env.writeUni; split <;> simp
@[simp] theorem Env.writeUni_tick (e : Env) (s : State) (o : Operand) (x : Word64) : (e.writeUni s o x).tick = s.tick := by unfold Env.writeUni; split <;> simp
@[simp] theorem Env.writeUni_sel (e : Env) (s : State) (o : Operand) (x : Word64) : (e.writeUni s o x).sel = s.sel := by unfold Env.writeUni; split <;> simp

/-! ### Env.writeAny -/

@[simp] theorem Env.writeAny_clusters (e : Env) (s : State) (o : Operand) (r : Row) : (e.writeAny s o r).clusters = s.clusters := by unfold Env.writeAny; split <;> simp
@[simp] theorem Env.writeAny_memStacks (e : Env) (s : State) (o : Operand) (r : Row) : (e.writeAny s o r).memStacks = s.memStacks := by unfold Env.writeAny; split <;> simp
@[simp] theorem Env.writeAny_ctxs (e : Env) (s : State) (o : Operand) (r : Row) : (e.writeAny s o r).ctxs = s.ctxs := by unfold Env.writeAny; split <;> simp
@[simp] theorem Env.writeAny_handles (e : Env) (s : State) (o : Operand) (r : Row) : (e.writeAny s o r).handles = s.handles := by unfold Env.writeAny; split <;> simp
@[simp] theorem Env.writeAny_hbm (e : Env) (s : State) (o : Operand) (r : Row) : (e.writeAny s o r).hbm = s.hbm := by unfold Env.writeAny; split <;> simp
@[simp] theorem Env.writeAny_l2 (e : Env) (s : State) (o : Operand) (r : Row) : (e.writeAny s o r).l2 = s.l2 := by unfold Env.writeAny; split <;> simp
@[simp] theorem Env.writeAny_host (e : Env) (s : State) (o : Operand) (r : Row) : (e.writeAny s o r).host = s.host := by unfold Env.writeAny; split <;> simp
@[simp] theorem Env.writeAny_fills (e : Env) (s : State) (o : Operand) (r : Row) : (e.writeAny s o r).fills = s.fills := by unfold Env.writeAny; split <;> simp
@[simp] theorem Env.writeAny_thimble (e : Env) (s : State) (o : Operand) (r : Row) : (e.writeAny s o r).thimble = s.thimble := by unfold Env.writeAny; split <;> simp
@[simp] theorem Env.writeAny_funcs (e : Env) (s : State) (o : Operand) (r : Row) : (e.writeAny s o r).funcs = s.funcs := by unfold Env.writeAny; split <;> simp
@[simp] theorem Env.writeAny_platform (e : Env) (s : State) (o : Operand) (r : Row) : (e.writeAny s o r).platform = s.platform := by unfold Env.writeAny; split <;> simp
@[simp] theorem Env.writeAny_launches (e : Env) (s : State) (o : Operand) (r : Row) : (e.writeAny s o r).launches = s.launches := by unfold Env.writeAny; split <;> simp
@[simp] theorem Env.writeAny_outbox (e : Env) (s : State) (o : Operand) (r : Row) : (e.writeAny s o r).outbox = s.outbox := by unfold Env.writeAny; split <;> simp
@[simp] theorem Env.writeAny_requests (e : Env) (s : State) (o : Operand) (r : Row) : (e.writeAny s o r).requests = s.requests := by unfold Env.writeAny; split <;> simp
@[simp] theorem Env.writeAny_waiting (e : Env) (s : State) (o : Operand) (r : Row) : (e.writeAny s o r).waiting = s.waiting := by unfold Env.writeAny; split <;> simp
@[simp] theorem Env.writeAny_holders (e : Env) (s : State) (o : Operand) (r : Row) : (e.writeAny s o r).holders = s.holders := by unfold Env.writeAny; split <;> simp
@[simp] theorem Env.writeAny_softErrs (e : Env) (s : State) (o : Operand) (r : Row) : (e.writeAny s o r).softErrs = s.softErrs := by unfold Env.writeAny; split <;> simp
@[simp] theorem Env.writeAny_touched (e : Env) (s : State) (o : Operand) (r : Row) : (e.writeAny s o r).touched = s.touched := by unfold Env.writeAny; split <;> simp
@[simp] theorem Env.writeAny_births (e : Env) (s : State) (o : Operand) (r : Row) : (e.writeAny s o r).births = s.births := by unfold Env.writeAny; split <;> simp
@[simp] theorem Env.writeAny_agenda (e : Env) (s : State) (o : Operand) (r : Row) : (e.writeAny s o r).agenda = s.agenda := by unfold Env.writeAny; split <;> simp
@[simp] theorem Env.writeAny_free (e : Env) (s : State) (o : Operand) (r : Row) : (e.writeAny s o r).free = s.free := by unfold Env.writeAny; split <;> simp
@[simp] theorem Env.writeAny_tick (e : Env) (s : State) (o : Operand) (r : Row) : (e.writeAny s o r).tick = s.tick := by unfold Env.writeAny; split <;> simp
@[simp] theorem Env.writeAny_sel (e : Env) (s : State) (o : Operand) (r : Row) : (e.writeAny s o r).sel = s.sel := by unfold Env.writeAny; split <;> simp

end Sys2Proof.Machine
end

