-- ==== Sys2Proof/Laws/Ops.lean ====
section
/-!
SUPPORT. Laws/Ops.lean: what the shared operations can do: reading back parts of the state, the frame of an instruction
(`perform`), its front, and the words of the statements (`Claim`).
-/
namespace Sys2Proof.Machine

set_option Elab.async false

/-! ### Parts of the state read back -/

@[simp] theorem State.core_setCore_self (s : State) (c : Nat) (k : Core) : (s.setCore c k).core c = k :=
  AMap.getD_set_self _ _ _ _
theorem State.core_setCore_ne (s : State) {c d : Nat} (k : Core) (h : d ≠ c) : (s.setCore c k).core d = s.core d :=
  AMap.getD_set_ne _ _ _ h
@[simp] theorem State.core_modCore_self (s : State) (c : Nat) (f : Core → Core) : (s.modCore c f).core c = f (s.core c) :=
  AMap.getD_set_self _ _ _ _
theorem State.core_modCore_ne (s : State) {c d : Nat} (f : Core → Core) (h : d ≠ c) : (s.modCore c f).core d = s.core d :=
  AMap.getD_set_ne _ _ _ h
@[simp] theorem State.ctx_modCtx_self (s : State) (n : Nat) (f : Ctx → Ctx) : (s.modCtx n f).ctx n = f (s.ctx n) :=
  AMap.getD_set_self _ _ _ _
theorem State.ctx_modCtx_ne (s : State) {n m : Nat} (f : Ctx → Ctx) (h : m ≠ n) : (s.modCtx n f).ctx m = s.ctx m :=
  AMap.getD_set_ne _ _ _ h
@[simp] theorem State.func_modFunc_self (s : State) (n : Nat) (f : Func → Func) : (s.modFunc n f).func n = f (s.func n) :=
  AMap.getD_set_self _ _ _ _
@[simp] theorem State.stack_modStack_self (s : State) (n : Nat) (f : Stack → Stack) : (s.modStack n f).stack n = f (s.stack n) :=
  AMap.getD_set_self _ _ _ _
@[simp] theorem State.cluster_modCluster_self (s : State) (n : Nat) (f : Cluster → Cluster) :
    (s.modCluster n f).cluster n = f (s.cluster n) :=
  AMap.getD_set_self _ _ _ _
@[simp] theorem State.sig?_modSig_self (s : State) (c slot : Nat) (f : Sig → Sig) :
    (s.modSig c slot f).sig? c slot = (s.sig? c slot).map f := by
  simp [State.sig?, State.modSig, AMap.get?_mod_self]
theorem State.sig?_modSig_ne (s : State) {c slot x : Nat} (f : Sig → Sig) (h : x ≠ slot) :
    (s.modSig c slot f).sig? c x = s.sig? c x := by
  simp [State.sig?, State.modSig, AMap.get?_mod_ne _ f h]
@[simp] theorem State.quire?_modSig (s : State) (c slot d key : Nat) (f : Sig → Sig) :
    (s.modSig c slot f).quire? d key = s.quire? d key := by
  unfold State.quire? State.modSig
  by_cases h : d = c
  · subst h; simp
  · simp [State.core_modCore_ne s _ h]
/-- A context register reads back what was set; every other one is as before. -/
theorem State.reg_setReg (s : State) (c num n : Nat) (v : Word64) :
    (s.setReg c num v).reg c n = if n = num then v else s.reg c n := by
  unfold State.reg State.setReg
  by_cases h : n = num
  · subst h; simp [AMap.getD_set_self]
  · simp [AMap.getD_set_ne _ _ _ h, h]

@[simp] theorem Sig.reg_setReg_self (g : Sig) (n : Nat) (r : Row) : (g.setReg n r).reg n = r := AMap.getD_set_self _ _ _ _
theorem Sig.reg_setReg_ne (g : Sig) {n m : Nat} (r : Row) (h : m ≠ n) : (g.setReg n r).reg m = g.reg m :=
  AMap.getD_set_ne _ _ _ h
@[simp] theorem Port.treg_setT_self (p : Port) (n : Nat) (r : Row) : (p.setT n r).treg n = r := AMap.getD_set_self _ _ _ _
theorem Port.treg_setT_ne (p : Port) {n m : Nat} (r : Row) (h : m ≠ n) : (p.setT n r).treg m = p.treg m :=
  AMap.getD_set_ne _ _ _ h

/-- A merged row holds the new value in the lanes of the mask, the old one elsewhere. -/
theorem mergeRow_getElem (m : Mask) (old new : Row) (l : Lane) :
    (mergeRow m old new)[l] = if m.getLsbD l.val then new[l] else old[l] := by
  simp [mergeRow]

/-! ### The environment -/

theorem State.env_s {s : State} {e : Env} (h : s.env = some e) : e.s = s := by
  unfold State.env at h
  split at h
  · cases h
  · split at h
    · cases h
    · obtain ⟨p, _, rfl⟩ := Option.map_eq_some_iff.mp h
      rfl

/-- A signature as a held operation reads it differs from the signature in registers alone (R473). -/
@[simp] theorem Sig.asIssued_paths (g : Sig) (o : Option HeldOp) : (g.asIssued o).paths = g.paths := by cases o <;> rfl
@[simp] theorem Sig.asIssued_stack (g : Sig) (o : Option HeldOp) : (g.asIssued o).stack = g.stack := by cases o <;> rfl
@[simp] theorem Sig.asIssued_quire (g : Sig) (o : Option HeldOp) : (g.asIssued o).quire = g.quire := by cases o <;> rfl
@[simp] theorem Sig.asIssued_ctx (g : Sig) (o : Option HeldOp) : (g.asIssued o).ctx = g.ctx := by cases o <;> rfl
@[simp] theorem Sig.asIssued_grid (g : Sig) (o : Option HeldOp) : (g.asIssued o).grid = g.grid := by cases o <;> rfl
@[simp] theorem Sig.asIssued_uid (g : Sig) (o : Option HeldOp) : (g.asIssued o).uid = g.uid := by cases o <;> rfl
@[simp] theorem Sig.asIssued_none (g : Sig) : g.asIssued none = g := rfl

/-- What an environment is: the selection, its signature and its path, with all the path's lanes. Outside the serial phase the
signature is the one that stands in the state. -/
theorem State.env_some {s : State} {e : Env} (h : s.env = some e) :
    s.sel = some e.sel ∧ e.sig.path? e.sel.pidx = some e.path ∧ e.act = e.path.mask ∧
      ∃ g, s.sig? e.sel.core e.sel.slot = some g ∧ e.sig = if e.sel.serial then g.asIssued e.path.op else g := by
  unfold State.env at h
  split at h
  · cases h
  · rename_i x hx
    split at h
    · cases h
    · rename_i g hg
      obtain ⟨p, hp, rfl⟩ := Option.map_eq_some_iff.mp h
      refine ⟨hx, ?_, rfl, g, hg, rfl⟩
      dsimp only
      split <;> simpa [Sig.path?] using hp

/-! ### The front and the frame of an instruction -/

/-- An instruction passes its front when none of the conditions of R33 holds. -/
theorem Env.front_none {e : Env} {f : Front} {os : List Operand}
    (hd : f.dyn = true → e.s.regN e.sig.ctx rFPCTL % 8 ≤ 4)
    (hf : ∀ b ∈ f.feats, e.s.feat e.sig.ctx b = true)
    (ht : e.path.handler = true ∨ os.any Operand.isT = false)
    (hp : f.priv e = false) (ho : f.ok e = true) : e.front f os = none := by
  unfold Env.front
  have h1 : ¬ (f.dyn = true ∧ 4 < e.s.regN e.sig.ctx rFPCTL % 8) := fun h => by have := hd h.1; omega
  have h2 : f.feats.any (fun b => !e.s.feat e.sig.ctx b) = false := by
    rw [List.any_eq_false]; intro b hb; simp [hf b hb]
  have h3 : ¬ ((!e.path.handler) = true ∧ os.any Operand.isT = true ∨ f.priv e = true) := by
    rcases ht with h | h <;> simp [h, hp]
  rw [if_neg h1, if_neg (by simp [h2]), if_neg h3]
  simp [ho]

/-- The instruction whose front is passed, with an active lane, that does not wait for the serial phase: its body. -/
theorem perform_body {h : Hdr} {os : List Operand} {f : Front} {sync : Env → Bool} {body : Env → Eff} {s : State} {e : Env}
    (he : (s.env.map fun e0 => e0.guarded h) = some e) (hf : e.front f os = none) (ha : e.act ≠ 0)
    (hs : sync e = false ∨ e.s.det e.sig.ctx = false ∨ e.sel.serial = true) :
    perform h os f sync body s = .next (e.finish (body e)) := by
  obtain ⟨e0, h0, rfl⟩ := Option.map_eq_some_iff.mp he
  have hes : e0.s = s := State.env_s h0
  have hw : ¬ (s.det (e0.guarded h).sig.ctx = true ∧ (!(e0.guarded h).sel.serial) = true ∧ sync (e0.guarded h) = true) := by
    have hsx : (e0.guarded h).s = s := hes
    rw [hsx] at hs
    rcases hs with h1 | h1 | h1 <;> simp [h1]
  unfold perform
  rw [h0]
  simp only [hf, if_neg ha, if_neg hw]

/-- Everything that an instruction can do: no path is selected; its front raises a fault; no lane is active; it waits for
the serial phase; its body. -/
theorem perform_cases {h : Hdr} {os : List Operand} {f : Front} {sync : Env → Bool} {body : Env → Eff} {s t : State}
    (ht : perform h os f sync body s = .next t) :
    ∃ e, (s.env.map fun e0 => e0.guarded h) = some e ∧
      ((∃ x, e.front f os = some x ∧ t = e.raise x) ∨
       (e.front f os = none ∧ e.act = 0 ∧ t = e.retire e.s e.next) ∨
       (e.front f os = none ∧ e.act ≠ 0 ∧ s.det e.sig.ctx = true ∧ e.sel.serial = false ∧ sync e = true ∧
          t = e.modSig e.s fun g => g.modPath e.sel.pidx fun p => { p with held := true, op := some (g.held e.sel.word) }) ∨
       (e.front f os = none ∧ e.act ≠ 0 ∧ t = e.finish (body e))) := by
  unfold perform at ht
  split at ht
  · cases ht
  · rename_i e0 h0
    refine ⟨e0.guarded h, by simp [h0], ?_⟩
    dsimp only at ht
    split at ht
    · rename_i x hx
      injection ht with ht
      exact Or.inl ⟨x, hx, ht.symm⟩
    · rename_i hn
      split at ht
      · rename_i ha
        injection ht with ht
        exact Or.inr (Or.inl ⟨hn, ha, ht.symm⟩)
      · rename_i ha
        split at ht
        · rename_i hw
          injection ht with ht
          refine Or.inr (Or.inr (Or.inl ⟨hn, ha, hw.1, ?_, hw.2.2, ht.symm⟩))
          simpa using hw.2.1
        · injection ht with ht
          exact Or.inr (Or.inr (Or.inr ⟨hn, ha, ht.symm⟩))

/-- INDEX is looked at once, before the rest of the body. -/
theorem Env.indexed_none {e : Env} {os : List (Operand × Bool)} (h : e.indexFault os = none) (k : Unit → Eff) :
    e.indexed os k = k () := by
  simp [Env.indexed, h]

end Sys2Proof.Machine

namespace Sys2Proof.Claim
open Machine

theorem Issues.s_eq {s : State} {h : Hdr} {os : List Operand} {e : Env} (i : Issues s h os e) : e.s = s := by
  obtain ⟨e0, h0, rfl⟩ := Option.map_eq_some_iff.mp i.env
  show e0.s = s
  exact State.env_s h0

/-- The frame of an instruction, in the words of the statements. -/
theorem Issues.perform {s : State} {h : Hdr} {os : List Operand} {e : Env} (i : Issues s h os e)
    {f : Front} {sync : Env → Bool} {body : Env → Eff}
    (hd : RmOk e f.dyn) (hf : ∀ b ∈ f.feats, e.s.feat e.sig.ctx b = true) (hp : f.priv e = false) (ho : f.ok e = true)
    (hs : sync e = false ∨ Turn e) :
    Machine.perform h os f sync body e.s = .next (e.finish (body e)) := by
  rw [i.s_eq]
  exact perform_body i.env (Env.front_none hd hf i.noT hp ho) i.lane hs

/-- An instruction whose body is done with t retires with it. -/
theorem retires_of {s t : State} {h : Hdr} {os : List Operand} {e : Env} (I : Issues s h os e) {i : Instr}
    {f : Front} {sync : Env → Bool} {body : Env → Eff}
    (hd : RmOk e f.dyn) (hf : ∀ b ∈ f.feats, e.s.feat e.sig.ctx b = true) (hp : f.priv e = false) (ho : f.ok e = true)
    (hs : sync e = false ∨ Turn e) (hb : body e = .done t)
    (hi : exec i e.s = Machine.perform h os f sync body e.s) : Retires i e t := by
  unfold Retires
  rw [hi, I.perform hd hf hp ho hs, hb]
  rfl

/-- An instruction whose body raises a fault raises it. -/
theorem raises_of {s : State} {h : Hdr} {os : List Operand} {e : Env} (I : Issues s h os e) {i : Instr} {x : Trap}
    {f : Front} {sync : Env → Bool} {body : Env → Eff}
    (hd : RmOk e f.dyn) (hf : ∀ b ∈ f.feats, e.s.feat e.sig.ctx b = true) (hp : f.priv e = false) (ho : f.ok e = true)
    (hs : sync e = false ∨ Turn e) (hb : body e = .trap x)
    (hi : exec i e.s = Machine.perform h os f sync body e.s) : Raises i e x := by
  unfold Raises
  rw [hi, I.perform hd hf hp ho hs, hb]
  rfl

/-- An instruction whose body parts, with room for its record, parts. -/
theorem parts_of {s t u : State} {h : Hdr} {os : List Operand} {e : Env} (I : Issues s h os e) {i : Instr} {p : PartSpec}
    {f : Front} {sync : Env → Bool} {body : Env → Eff}
    (hd : RmOk e f.dyn) (hf : ∀ b ∈ f.feats, e.s.feat e.sig.ctx b = true) (hp : f.priv e = false) (ho : f.ok e = true)
    (hs : sync e = false ∨ Turn e) (hb : body e = .part t p) (hu : e.part t p = .ok u)
    (hi : exec i e.s = Machine.perform h os f sync body e.s) : Parts i e t p := by
  refine ⟨u, hu, ?_⟩
  rw [hi, I.perform hd hf hp ho hs, hb]
  simp only [Env.finish, hu]

end Sys2Proof.Claim
end

