-- ==== Sys2Proof/Laws/Front.lean ====
section
/-!
SUPPORT. Laws/Front.lean: every instruction is `perform` under the front that `Claim.demand` names: its checks come first, in the
order of R33, whether or not a lane is active (R31, R32).
-/
namespace Sys2Proof.Claim
open Machine

set_option Elab.async false

/-- The front that a demand stands for. -/
def Demand.front (d : Demand) : Front := ⟨d.dyn, d.feats, fun e => d.handler && !e.path.handler, d.fits⟩

/-- The instruction is `perform` under the front of its demand; where the demand names indexed operands, its body looks at them
first. -/
def Performs (i : Instr) (h : Hdr) (d : Demand) : Prop :=
  ∃ sync body, exec i = perform h d.ops d.front sync body ∧ (d.index ≠ [] → ∀ e, ∃ k, body e = e.indexed d.index k)

theorem Performs.plain {i : Instr} {h : Hdr} {d : Demand} {f : State → Host.Outcome State Fault Refusal} {sync : Env → Bool}
    {body : Env → Eff} (hi : exec i = f) (hf : f = perform h d.ops d.front sync body) (hx : d.index = []) : Performs i h d :=
  ⟨sync, body, hi.trans hf, fun hne => (hne hx).elim⟩

theorem Performs.indexed {i : Instr} {h : Hdr} {d : Demand} {f : State → Host.Outcome State Fault Refusal} {sync : Env → Bool}
    {body : Env → Eff} (hi : exec i = f) (hf : f = perform h d.ops d.front sync body)
    (hx : ∀ e, ∃ k, body e = e.indexed d.index k) : Performs i h d :=
  ⟨sync, body, hi.trans hf, fun _ => hx⟩

theorem performs_nop (h : Hdr) (o : Ops4) (d : Demand) (hd : demand (.nop h o) = some d) :
    Performs (.nop h o) h d := by
  cases hd; exact .plain (f := execNop h o) rfl rfl rfl
theorem performs_bra (h : Hdr) (o : Ops2) (t u : BitVec 21) (d : Demand) (hd : demand (.bra h o t u) = some d) :
    Performs (.bra h o t u) h d := by
  cases hd; exact .plain (f := execBra h o t u) rfl rfl rfl
theorem performs_btri (h : Hdr) (o : Ops2) (t u : BitVec 21) (d : Demand) (hd : demand (.btri h o t u) = some d) :
    Performs (.btri h o t u) h d := by
  cases hd; exact .plain (f := execBtri h o t u) rfl rfl rfl
theorem performs_brx (h : Hdr) (o : Ops4) (d : Demand) (hd : demand (.brx h o) = some d) :
    Performs (.brx h o) h d := by
  cases hd; exact .plain (f := execBrx h o) rfl rfl rfl
theorem performs_call (h : Hdr) (o : Ops2) (t u : BitVec 21) (d : Demand) (hd : demand (.call h o t u) = some d) :
    Performs (.call h o t u) h d := by
  cases hd; exact .plain (f := execCall h o t u) rfl rfl rfl
theorem performs_ret (h : Hdr) (o : Ops4) (d : Demand) (hd : demand (.ret h o) = some d) :
    Performs (.ret h o) h d := by
  cases hd; exact .plain (f := execRet h o) rfl rfl rfl
theorem performs_join (h : Hdr) (o : Ops4) (d : Demand) (hd : demand (.join h o) = some d) :
    Performs (.join h o) h d := by
  cases hd; exact .plain (f := execJoin h o) rfl rfl rfl
theorem performs_exit (h : Hdr) (o : Ops4) (d : Demand) (hd : demand (.exit h o) = some d) :
    Performs (.exit h o) h d := by
  cases hd; exact .plain (f := execExit h o) rfl rfl rfl
theorem performs_yield (h : Hdr) (o : Ops4) (d : Demand) (hd : demand (.yield h o) = some d) :
    Performs (.yield h o) h d := by
  cases hd; exact .plain (f := execYield h o) rfl rfl rfl
theorem performs_trap (h : Hdr) (o : Ops2) (imm : BitVec 32) (d : Demand) (hd : demand (.trap h o imm) = some d) :
    Performs (.trap h o imm) h d := by
  cases hd; exact .plain (f := execTrap h o imm) rfl rfl rfl
theorem performs_tretRetry (h : Hdr) (o : Ops4) (d : Demand) (hd : demand (.tretRetry h o) = some d) :
    Performs (.tretRetry h o) h d := by
  cases hd; exact .plain (f := execTretRetry h o) rfl rfl rfl
theorem performs_tretSkip (h : Hdr) (o : Ops4) (d : Demand) (hd : demand (.tretSkip h o) = some d) :
    Performs (.tretSkip h o) h d := by
  cases hd; exact .plain (f := execTretSkip h o) rfl rfl rfl
theorem performs_tretKill (h : Hdr) (o : Ops4) (d : Demand) (hd : demand (.tretKill h o) = some d) :
    Performs (.tretKill h o) h d := by
  cases hd; exact .plain (f := execTretKill h o) rfl rfl rfl
theorem performs_bpt (h : Hdr) (o : Ops4) (d : Demand) (hd : demand (.bpt h o) = some d) :
    Performs (.bpt h o) h d := by
  cases hd; exact .plain (f := execBpt h o) rfl rfl rfl
theorem performs_loopd (h : Hdr) (o : Ops2) (t u : BitVec 21) (d : Demand) (hd : demand (.loopd h o t u) = some d) :
    Performs (.loopd h o t u) h d := by
  cases hd; exact .plain (f := execLoopd h o t u) rfl rfl rfl
theorem performs_shfl (h : Hdr) (o : Ops4) (m : XMod) (d : Demand) (hd : demand (.shfl h o m) = some d) :
    Performs (.shfl h o m) h d := by
  cases hd; exact .plain (f := execShfl h o m) rfl rfl rfl
theorem performs_vote (h : Hdr) (o : Ops4) (m : XMod) (d : Demand) (hd : demand (.vote h o m) = some d) :
    Performs (.vote h o m) h d := by
  cases hd; exact .plain (f := execVote h o m) rfl (by unfold execVote; exact rfl) rfl
theorem performs_redux (h : Hdr) (o : Ops4) (m : XMod) (d : Demand) (hd : demand (.redux h o m) = some d) :
    Performs (.redux h o m) h d := by
  cases hd; exact .plain (f := execRedux h o m) rfl rfl rfl
theorem performs_fredux (h : Hdr) (o : Ops4) (m : XMod) (d : Demand) (hd : demand (.fredux h o m) = some d) :
    Performs (.fredux h o m) h d := by
  cases hd; exact .plain (f := execFredux h o m) rfl (by unfold execFredux; exact rfl) rfl
theorem performs_matchOp (h : Hdr) (o : Ops4) (m : XMod) (d : Demand) (hd : demand (.matchOp h o m) = some d) :
    Performs (.matchOp h o m) h d := by
  cases hd; exact .plain (f := execMatchOp h o m) rfl (by unfold execMatchOp; exact rfl) rfl
theorem performs_plop (h : Hdr) (o : Ops4) (m : XMod) (d : Demand) (hd : demand (.plop h o m) = some d) :
    Performs (.plop h o m) h d := by
  cases hd; exact .plain (f := execPlop h o m) rfl (by unfold execPlop; exact rfl) rfl
theorem performs_pset (h : Hdr) (o : Ops4) (m : XMod) (d : Demand) (hd : demand (.pset h o m) = some d) :
    Performs (.pset h o m) h d := by
  cases hd; exact .plain (f := execPset h o m) rfl (by unfold execPset; exact rfl) rfl
theorem performs_pmov (h : Hdr) (o : Ops4) (m : XMod) (d : Demand) (hd : demand (.pmov h o m) = some d) :
    Performs (.pmov h o m) h d := by
  cases hd; exact .plain (f := execPmov h o m) rfl (by unfold execPmov; exact rfl) rfl
theorem performs_pcount (h : Hdr) (o : Ops4) (m : XMod) (d : Demand) (hd : demand (.pcount h o m) = some d) :
    Performs (.pcount h o m) h d := by
  cases hd; exact .plain (f := execPcount h o m) rfl rfl rfl
theorem performs_mov (h : Hdr) (o : Ops4) (m : X2Mod) (d : Demand) (hd : demand (.mov h o m) = some d) :
    Performs (.mov h o m) h d := by
  cases hd; exact .indexed (f := execMov h o m) rfl rfl fun _ => ⟨_, rfl⟩
theorem performs_movi (h : Hdr) (o : Ops2) (imm : BitVec 32) (m : MoviMod) (d : Demand) (hd : demand (.movi h o imm m) = some d) :
    Performs (.movi h o imm m) h d := by
  cases hd; exact .plain (f := execMovi h o imm m) rfl rfl rfl
theorem performs_sel (h : Hdr) (o : Ops4) (m : SelMod) (d : Demand) (hd : demand (.sel h o m) = some d) :
    Performs (.sel h o m) h d := by
  cases hd; exact .indexed (f := execSel h o m) rfl (by unfold execSel; exact rfl) fun _ => ⟨_, rfl⟩
theorem performs_sread (h : Hdr) (o : Ops4) (d : Demand) (hd : demand (.sread h o) = some d) :
    Performs (.sread h o) h d := by
  cases hd; exact .plain (f := execSread h o) rfl rfl rfl
theorem performs_rgn (h : Hdr) (o : Ops4) (m : RgnMod) (d : Demand) (hd : demand (.rgn h o m) = some d) :
    Performs (.rgn h o m) h d := by
  cases hd; exact .plain (f := execRgn h o m) rfl rfl rfl
theorem performs_live (h : Hdr) (o : Ops2) (imm : BitVec 32) (d : Demand) (hd : demand (.live h o imm) = some d) :
    Performs (.live h o imm) h d := by
  cases hd; exact .plain (f := execLive h o imm) rfl rfl rfl
theorem performs_setk (h : Hdr) (o : Ops4) (m : SetkMod) (d : Demand) (hd : demand (.setk h o m) = some d) :
    Performs (.setk h o m) h d := by
  cases hd; exact .plain (f := execSetk h o m) rfl rfl rfl
theorem performs_quotaGive (h : Hdr) (o : Ops4) (d : Demand) (hd : demand (.quotaGive h o) = some d) :
    Performs (.quotaGive h o) h d := by
  cases hd; exact .plain (f := execQuotaGive h o) rfl rfl rfl
theorem performs_quotaTake (h : Hdr) (o : Ops4) (d : Demand) (hd : demand (.quotaTake h o) = some d) :
    Performs (.quotaTake h o) h d := by
  cases hd; exact .plain (f := execQuotaTake h o) rfl rfl rfl
theorem performs_iadd (h : Hdr) (o : Ops4) (m : AMod) (d : Demand) (hd : demand (.iadd h o m) = some d) :
    Performs (.iadd h o m) h d := by
  cases hd; exact .indexed (f := execIadd h o m) rfl rfl fun _ => ⟨_, rfl⟩
theorem performs_isub (h : Hdr) (o : Ops4) (m : AMod) (d : Demand) (hd : demand (.isub h o m) = some d) :
    Performs (.isub h o m) h d := by
  cases hd; exact .indexed (f := execIsub h o m) rfl rfl fun _ => ⟨_, rfl⟩
theorem performs_imul (h : Hdr) (o : Ops4) (m : AMod) (d : Demand) (hd : demand (.imul h o m) = some d) :
    Performs (.imul h o m) h d := by
  cases hd; exact .indexed (f := execImul h o m) rfl rfl fun _ => ⟨_, rfl⟩
theorem performs_imulh (h : Hdr) (o : Ops4) (m : AMod) (d : Demand) (hd : demand (.imulh h o m) = some d) :
    Performs (.imulh h o m) h d := by
  cases hd; exact .indexed (f := execImulh h o m) rfl rfl fun _ => ⟨_, rfl⟩
theorem performs_imad (h : Hdr) (o : Ops4) (m : AMod) (d : Demand) (hd : demand (.imad h o m) = some d) :
    Performs (.imad h o m) h d := by
  cases hd; exact .indexed (f := execImad h o m) rfl rfl fun _ => ⟨_, rfl⟩
theorem performs_imin (h : Hdr) (o : Ops4) (m : AMod) (d : Demand) (hd : demand (.imin h o m) = some d) :
    Performs (.imin h o m) h d := by
  cases hd; exact .indexed (f := execImin h o m) rfl rfl fun _ => ⟨_, rfl⟩
theorem performs_imax (h : Hdr) (o : Ops4) (m : AMod) (d : Demand) (hd : demand (.imax h o m) = some d) :
    Performs (.imax h o m) h d := by
  cases hd; exact .indexed (f := execImax h o m) rfl rfl fun _ => ⟨_, rfl⟩
theorem performs_iabs (h : Hdr) (o : Ops4) (m : AMod) (d : Demand) (hd : demand (.iabs h o m) = some d) :
    Performs (.iabs h o m) h d := by
  cases hd; exact .indexed (f := execIabs h o m) rfl rfl fun _ => ⟨_, rfl⟩
theorem performs_lop3 (h : Hdr) (o : Ops4) (m : AMod) (d : Demand) (hd : demand (.lop3 h o m) = some d) :
    Performs (.lop3 h o m) h d := by
  cases hd; exact .indexed (f := execLop3 h o m) rfl rfl fun _ => ⟨_, rfl⟩
theorem performs_shl (h : Hdr) (o : Ops4) (m : AMod) (d : Demand) (hd : demand (.shl h o m) = some d) :
    Performs (.shl h o m) h d := by
  cases hd; exact .indexed (f := execShl h o m) rfl rfl fun _ => ⟨_, rfl⟩
theorem performs_shr (h : Hdr) (o : Ops4) (m : AMod) (d : Demand) (hd : demand (.shr h o m) = some d) :
    Performs (.shr h o m) h d := by
  cases hd; exact .indexed (f := execShr h o m) rfl rfl fun _ => ⟨_, rfl⟩
theorem performs_sar (h : Hdr) (o : Ops4) (m : AMod) (d : Demand) (hd : demand (.sar h o m) = some d) :
    Performs (.sar h o m) h d := by
  cases hd; exact .indexed (f := execSar h o m) rfl rfl fun _ => ⟨_, rfl⟩
theorem performs_rot (h : Hdr) (o : Ops4) (m : AMod) (d : Demand) (hd : demand (.rot h o m) = some d) :
    Performs (.rot h o m) h d := by
  cases hd; exact .indexed (f := execRot h o m) rfl rfl fun _ => ⟨_, rfl⟩
theorem performs_bfx (h : Hdr) (o : Ops4) (m : AMod) (d : Demand) (hd : demand (.bfx h o m) = some d) :
    Performs (.bfx h o m) h d := by
  cases hd; exact .indexed (f := execBfx h o m) rfl rfl fun _ => ⟨_, rfl⟩
theorem performs_bfi (h : Hdr) (o : Ops4) (m : AMod) (d : Demand) (hd : demand (.bfi h o m) = some d) :
    Performs (.bfi h o m) h d := by
  cases hd; exact .indexed (f := execBfi h o m) rfl rfl fun _ => ⟨_, rfl⟩
theorem performs_popc (h : Hdr) (o : Ops4) (m : AMod) (d : Demand) (hd : demand (.popc h o m) = some d) :
    Performs (.popc h o m) h d := by
  cases hd; exact .indexed (f := execPopc h o m) rfl rfl fun _ => ⟨_, rfl⟩
theorem performs_clz (h : Hdr) (o : Ops4) (m : AMod) (d : Demand) (hd : demand (.clz h o m) = some d) :
    Performs (.clz h o m) h d := by
  cases hd; exact .indexed (f := execClz h o m) rfl rfl fun _ => ⟨_, rfl⟩
theorem performs_brev (h : Hdr) (o : Ops4) (m : AMod) (d : Demand) (hd : demand (.brev h o m) = some d) :
    Performs (.brev h o m) h d := by
  cases hd; exact .indexed (f := execBrev h o m) rfl rfl fun _ => ⟨_, rfl⟩
theorem performs_icmp (h : Hdr) (o : Ops4) (m : AMod) (d : Demand) (hd : demand (.icmp h o m) = some d) :
    Performs (.icmp h o m) h d := by
  cases hd; exact .indexed (f := execIcmp h o m) rfl rfl fun _ => ⟨_, rfl⟩
theorem performs_lea (h : Hdr) (o : Ops4) (m : AMod) (d : Demand) (hd : demand (.lea h o m) = some d) :
    Performs (.lea h o m) h d := by
  cases hd; exact .indexed (f := execLea h o m) rfl rfl fun _ => ⟨_, rfl⟩
theorem performs_idiv (h : Hdr) (o : Ops4) (m : AMod) (d : Demand) (hd : demand (.idiv h o m) = some d) :
    Performs (.idiv h o m) h d := by
  cases hd; exact .indexed (f := execIdiv h o m) rfl rfl fun _ => ⟨_, rfl⟩
theorem performs_cvti (h : Hdr) (o : Ops4) (m : AMod) (d : Demand) (hd : demand (.cvti h o m) = some d) :
    Performs (.cvti h o m) h d := by
  cases hd; exact .indexed (f := execCvti h o m) rfl rfl fun _ => ⟨_, rfl⟩
theorem performs_fadd (h : Hdr) (o : Ops4) (m : AMod) (d : Demand) (hd : demand (.fadd h o m) = some d) :
    Performs (.fadd h o m) h d := by
  cases hd; exact .indexed (f := execFadd h o m) rfl rfl fun _ => ⟨_, rfl⟩
theorem performs_fmul (h : Hdr) (o : Ops4) (m : AMod) (d : Demand) (hd : demand (.fmul h o m) = some d) :
    Performs (.fmul h o m) h d := by
  cases hd; exact .indexed (f := execFmul h o m) rfl rfl fun _ => ⟨_, rfl⟩
theorem performs_ffma (h : Hdr) (o : Ops4) (m : AMod) (d : Demand) (hd : demand (.ffma h o m) = some d) :
    Performs (.ffma h o m) h d := by
  cases hd; exact .indexed (f := execFfma h o m) rfl rfl fun _ => ⟨_, rfl⟩
theorem performs_fmin (h : Hdr) (o : Ops4) (m : AMod) (d : Demand) (hd : demand (.fmin h o m) = some d) :
    Performs (.fmin h o m) h d := by
  cases hd; exact .indexed (f := execFmin h o m) rfl rfl fun _ => ⟨_, rfl⟩
theorem performs_fmax (h : Hdr) (o : Ops4) (m : AMod) (d : Demand) (hd : demand (.fmax h o m) = some d) :
    Performs (.fmax h o m) h d := by
  cases hd; exact .indexed (f := execFmax h o m) rfl rfl fun _ => ⟨_, rfl⟩
theorem performs_fcmp (h : Hdr) (o : Ops4) (m : AMod) (d : Demand) (hd : demand (.fcmp h o m) = some d) :
    Performs (.fcmp h o m) h d := by
  cases hd; exact .indexed (f := execFcmp h o m) rfl rfl fun _ => ⟨_, rfl⟩
theorem performs_fclass (h : Hdr) (o : Ops4) (m : AMod) (d : Demand) (hd : demand (.fclass h o m) = some d) :
    Performs (.fclass h o m) h d := by
  cases hd; exact .indexed (f := execFclass h o m) rfl (by unfold execFclass; exact rfl) fun _ => ⟨_, rfl⟩
theorem performs_frnd (h : Hdr) (o : Ops4) (m : AMod) (d : Demand) (hd : demand (.frnd h o m) = some d) :
    Performs (.frnd h o m) h d := by
  cases hd; exact .indexed (f := execFrnd h o m) rfl rfl fun _ => ⟨_, rfl⟩
theorem performs_frcp (h : Hdr) (o : Ops4) (m : AMod) (d : Demand) (hd : demand (.frcp h o m) = some d) :
    Performs (.frcp h o m) h d := by
  cases hd; exact .indexed (f := execFrcp h o m) rfl rfl fun _ => ⟨_, rfl⟩
theorem performs_fsqrt (h : Hdr) (o : Ops4) (m : AMod) (d : Demand) (hd : demand (.fsqrt h o m) = some d) :
    Performs (.fsqrt h o m) h d := by
  cases hd; exact .indexed (f := execFsqrt h o m) rfl rfl fun _ => ⟨_, rfl⟩
theorem performs_frsq (h : Hdr) (o : Ops4) (m : AMod) (d : Demand) (hd : demand (.frsq h o m) = some d) :
    Performs (.frsq h o m) h d := by
  cases hd; exact .indexed (f := execFrsq h o m) (body := lane1 o m.ty _) rfl rfl fun _ => ⟨_, rfl⟩
theorem performs_fex2 (h : Hdr) (o : Ops4) (m : AMod) (d : Demand) (hd : demand (.fex2 h o m) = some d) :
    Performs (.fex2 h o m) h d := by
  cases hd; exact .indexed (f := execFex2 h o m) (body := lane1 o m.ty _) rfl rfl fun _ => ⟨_, rfl⟩
theorem performs_flg2 (h : Hdr) (o : Ops4) (m : AMod) (d : Demand) (hd : demand (.flg2 h o m) = some d) :
    Performs (.flg2 h o m) h d := by
  cases hd; exact .indexed (f := execFlg2 h o m) (body := lane1 o m.ty _) rfl rfl fun _ => ⟨_, rfl⟩
theorem performs_fsin (h : Hdr) (o : Ops4) (m : AMod) (d : Demand) (hd : demand (.fsin h o m) = some d) :
    Performs (.fsin h o m) h d := by
  cases hd; exact .indexed (f := execFsin h o m) (body := lane1 o m.ty _) rfl rfl fun _ => ⟨_, rfl⟩
theorem performs_fcos (h : Hdr) (o : Ops4) (m : AMod) (d : Demand) (hd : demand (.fcos h o m) = some d) :
    Performs (.fcos h o m) h d := by
  cases hd; exact .indexed (f := execFcos h o m) (body := lane1 o m.ty _) rfl rfl fun _ => ⟨_, rfl⟩
theorem performs_fdiv (h : Hdr) (o : Ops4) (m : AMod) (d : Demand) (hd : demand (.fdiv h o m) = some d) :
    Performs (.fdiv h o m) h d := by
  cases hd; exact .indexed (f := execFdiv h o m) rfl rfl fun _ => ⟨_, rfl⟩
theorem performs_ftanh (h : Hdr) (o : Ops4) (m : AMod) (d : Demand) (hd : demand (.ftanh h o m) = some d) :
    Performs (.ftanh h o m) h d := by
  cases hd; exact .indexed (f := execFtanh h o m) (body := lane1 o m.ty _) rfl rfl fun _ => ⟨_, rfl⟩
theorem performs_fdot (h : Hdr) (o : Ops4) (m : AMod) (d : Demand) (hd : demand (.fdot h o m) = some d) :
    Performs (.fdot h o m) h d := by
  cases hd; exact .indexed (f := execFdot h o m) rfl rfl fun _ => ⟨_, rfl⟩
theorem performs_fscale (h : Hdr) (o : Ops4) (m : AMod) (d : Demand) (hd : demand (.fscale h o m) = some d) :
    Performs (.fscale h o m) h d := by
  cases hd; exact .indexed (f := execFscale h o m) rfl rfl fun _ => ⟨_, rfl⟩
theorem performs_cvtf (h : Hdr) (o : Ops4) (m : AMod) (d : Demand) (hd : demand (.cvtf h o m) = some d) :
    Performs (.cvtf h o m) h d := by
  cases hd; exact .indexed (f := execCvtf h o m) rfl (by unfold execCvtf; exact rfl) fun _ => ⟨_, rfl⟩
theorem performs_pack (h : Hdr) (o : Ops4) (m : AMod) (d : Demand) (hd : demand (.pack h o m) = some d) :
    Performs (.pack h o m) h d := by
  cases hd; exact .indexed (f := execPack h o m) rfl (by unfold execPack; exact rfl) fun _ => ⟨_, rfl⟩
theorem performs_unpack (h : Hdr) (o : Ops4) (m : AMod) (d : Demand) (hd : demand (.unpack h o m) = some d) :
    Performs (.unpack h o m) h d := by
  cases hd; exact .indexed (f := execUnpack h o m) rfl (by unfold execUnpack; exact rfl) fun _ => ⟨_, rfl⟩
theorem performs_deq (h : Hdr) (o : Ops4) (m : AMod) (d : Demand) (hd : demand (.deq h o m) = some d) :
    Performs (.deq h o m) h d := by
  cases hd; exact .indexed (f := execDeq h o m) rfl (by unfold execDeq; exact rfl) fun _ => ⟨_, rfl⟩
theorem performs_qblk (h : Hdr) (o : Ops4) (m : AMod) (d : Demand) (hd : demand (.qblk h o m) = some d) :
    Performs (.qblk h o m) h d := by
  cases hd; exact .indexed (f := execQblk h o m) rfl (by unfold execQblk; exact rfl) fun _ => ⟨_, rfl⟩
theorem performs_ivmake (h : Hdr) (o : Ops4) (m : AMod) (d : Demand) (hd : demand (.ivmake h o m) = some d) :
    Performs (.ivmake h o m) h d := by
  cases hd
  by_cases k : ctlNo o.c = 2
  · rw [if_pos k]; exact .indexed (f := execIvmake h o m) rfl (by unfold execIvmake; rw [if_pos k]; rfl) fun e => ⟨_, rfl⟩
  · rw [if_neg k]; exact .indexed (f := execIvmake h o m) rfl (by unfold execIvmake; rw [if_neg k]; rfl) fun e => ⟨_, rfl⟩
theorem performs_ivbnd (h : Hdr) (o : Ops4) (m : AMod) (d : Demand) (hd : demand (.ivbnd h o m) = some d) :
    Performs (.ivbnd h o m) h d := by
  cases hd
  rcases k : ctlNo o.c with _ | _ | _ | _ | n
  · exact .indexed (f := execIvbnd h o m) rfl (by unfold execIvbnd; rw [k]; exact rfl) fun e => ⟨_, rfl⟩
  · exact .indexed (f := execIvbnd h o m) rfl (by unfold execIvbnd; rw [k]; exact rfl) fun e => ⟨_, rfl⟩
  · exact .indexed (f := execIvbnd h o m) rfl (by unfold execIvbnd; rw [k]; exact rfl) fun e => ⟨_, rfl⟩
  · exact .indexed (f := execIvbnd h o m) rfl (by unfold execIvbnd; rw [k]; exact rfl) fun e => ⟨_, rfl⟩
  · exact .indexed (f := execIvbnd h o m) rfl (by unfold execIvbnd; rw [k]; exact rfl) fun e => ⟨_, rfl⟩
theorem performs_ivadd (h : Hdr) (o : Ops4) (m : AMod) (d : Demand) (hd : demand (.ivadd h o m) = some d) :
    Performs (.ivadd h o m) h d := by
  cases hd; exact .indexed (f := execIvadd h o m) rfl rfl fun _ => ⟨_, rfl⟩
theorem performs_ivsub (h : Hdr) (o : Ops4) (m : AMod) (d : Demand) (hd : demand (.ivsub h o m) = some d) :
    Performs (.ivsub h o m) h d := by
  cases hd; exact .indexed (f := execIvsub h o m) rfl rfl fun _ => ⟨_, rfl⟩
theorem performs_ivmul (h : Hdr) (o : Ops4) (m : AMod) (d : Demand) (hd : demand (.ivmul h o m) = some d) :
    Performs (.ivmul h o m) h d := by
  cases hd; exact .indexed (f := execIvmul h o m) rfl rfl fun _ => ⟨_, rfl⟩
theorem performs_ivdiv (h : Hdr) (o : Ops4) (m : AMod) (d : Demand) (hd : demand (.ivdiv h o m) = some d) :
    Performs (.ivdiv h o m) h d := by
  cases hd; exact .indexed (f := execIvdiv h o m) rfl rfl fun _ => ⟨_, rfl⟩
theorem performs_ivfma (h : Hdr) (o : Ops4) (m : AMod) (d : Demand) (hd : demand (.ivfma h o m) = some d) :
    Performs (.ivfma h o m) h d := by
  cases hd; exact .indexed (f := execIvfma h o m) rfl rfl fun _ => ⟨_, rfl⟩
theorem performs_ivsqr (h : Hdr) (o : Ops4) (m : AMod) (d : Demand) (hd : demand (.ivsqr h o m) = some d) :
    Performs (.ivsqr h o m) h d := by
  cases hd; exact .indexed (f := execIvsqr h o m) rfl rfl fun _ => ⟨_, rfl⟩
theorem performs_ivsqrt (h : Hdr) (o : Ops4) (m : AMod) (d : Demand) (hd : demand (.ivsqrt h o m) = some d) :
    Performs (.ivsqrt h o m) h d := by
  cases hd; exact .indexed (f := execIvsqrt h o m) rfl rfl fun _ => ⟨_, rfl⟩
theorem performs_ivex2 (h : Hdr) (o : Ops4) (m : AMod) (d : Demand) (hd : demand (.ivex2 h o m) = some d) :
    Performs (.ivex2 h o m) h d := by
  cases hd; exact .indexed (f := execIvex2 h o m) rfl rfl fun _ => ⟨_, rfl⟩
theorem performs_ivlg2 (h : Hdr) (o : Ops4) (m : AMod) (d : Demand) (hd : demand (.ivlg2 h o m) = some d) :
    Performs (.ivlg2 h o m) h d := by
  cases hd; exact .indexed (f := execIvlg2 h o m) rfl rfl fun _ => ⟨_, rfl⟩
theorem performs_ivmid (h : Hdr) (o : Ops4) (m : AMod) (d : Demand) (hd : demand (.ivmid h o m) = some d) :
    Performs (.ivmid h o m) h d := by
  cases hd; exact .indexed (f := execIvmid h o m) rfl rfl fun _ => ⟨_, rfl⟩
theorem performs_ivwid (h : Hdr) (o : Ops4) (m : AMod) (d : Demand) (hd : demand (.ivwid h o m) = some d) :
    Performs (.ivwid h o m) h d := by
  cases hd; exact .indexed (f := execIvwid h o m) rfl rfl fun _ => ⟨_, rfl⟩
theorem performs_ivhull (h : Hdr) (o : Ops4) (m : AMod) (d : Demand) (hd : demand (.ivhull h o m) = some d) :
    Performs (.ivhull h o m) h d := by
  cases hd; exact .indexed (f := execIvhull h o m) rfl rfl fun _ => ⟨_, rfl⟩
theorem performs_ivisect (h : Hdr) (o : Ops4) (m : AMod) (d : Demand) (hd : demand (.ivisect h o m) = some d) :
    Performs (.ivisect h o m) h d := by
  cases hd
  refine .indexed (f := execIvisect h o m) rfl (by unfold execIvisect; exact rfl) ?_
  intro e
  by_cases k : ctlNo o.c = 0
  · exact ⟨_, if_pos k⟩
  · exact ⟨_, if_neg k⟩
theorem performs_ivcmp (h : Hdr) (o : Ops4) (m : AMod) (d : Demand) (hd : demand (.ivcmp h o m) = some d) :
    Performs (.ivcmp h o m) h d := by
  cases hd; exact .indexed (f := execIvcmp h o m) rfl (by unfold execIvcmp; exact rfl) fun _ => ⟨_, rfl⟩
theorem performs_ivbisect (h : Hdr) (o : Ops4) (m : AMod) (d : Demand) (hd : demand (.ivbisect h o m) = some d) :
    Performs (.ivbisect h o m) h d := by
  cases hd; exact .plain (f := execIvbisect h o m) rfl (by unfold execIvbisect; exact rfl) rfl
theorem performs_ivld (h : Hdr) (o : Ops2) (imm : BitVec 32) (m : AMod) (d : Demand) (hd : demand (.ivld h o imm m) = some d) :
    Performs (.ivld h o imm m) h d := by
  cases hd; exact .indexed (f := execIvld h o imm m) rfl rfl fun _ => ⟨_, rfl⟩
theorem performs_ivst (h : Hdr) (o : Ops2) (imm : BitVec 32) (m : AMod) (d : Demand) (hd : demand (.ivst h o imm m) = some d) :
    Performs (.ivst h o imm m) h d := by
  cases hd; exact .indexed (f := execIvst h o imm m) rfl rfl fun _ => ⟨_, rfl⟩
theorem performs_ldl (h : Hdr) (o : Ops2) (imm : BitVec 32) (m : LMod) (d : Demand) (hd : demand (.ldl h o imm m) = some d) :
    Performs (.ldl h o imm m) h d := by
  cases hd; exact .indexed (f := execLdl h o imm m) rfl rfl fun _ => ⟨_, rfl⟩
theorem performs_stl (h : Hdr) (o : Ops2) (imm : BitVec 32) (m : LMod) (d : Demand) (hd : demand (.stl h o imm m) = some d) :
    Performs (.stl h o imm m) h d := by
  cases hd; exact .indexed (f := execStl h o imm m) rfl rfl fun _ => ⟨_, rfl⟩
theorem performs_atoml (h : Hdr) (o : Ops4) (m : AtMod) (d : Demand) (hd : demand (.atoml h o m) = some d) :
    Performs (.atoml h o m) h d := by
  cases hd; exact .indexed (f := execAtoml h o m) rfl (by unfold execAtoml; exact rfl) fun _ => ⟨_, rfl⟩
theorem performs_ldb (h : Hdr) (o : Ops2) (imm : BitVec 32) (m : LMod) (d : Demand) (hd : demand (.ldb h o imm m) = some d) :
    Performs (.ldb h o imm m) h d := by
  cases hd; exact .indexed (f := execLdb h o imm m) rfl rfl fun _ => ⟨_, rfl⟩
theorem performs_stb (h : Hdr) (o : Ops2) (imm : BitVec 32) (m : LMod) (d : Demand) (hd : demand (.stb h o imm m) = some d) :
    Performs (.stb h o imm m) h d := by
  cases hd; exact .indexed (f := execStb h o imm m) rfl rfl fun _ => ⟨_, rfl⟩
theorem performs_spush (h : Hdr) (o : Ops4) (d : Demand) (hd : demand (.spush h o) = some d) :
    Performs (.spush h o) h d := by
  cases hd; exact .plain (f := execSpush h o) rfl rfl rfl
theorem performs_spop (h : Hdr) (o : Ops4) (d : Demand) (hd : demand (.spop h o) = some d) :
    Performs (.spop h o) h d := by
  cases hd; exact .plain (f := execSpop h o) rfl rfl rfl
theorem performs_ld (h : Hdr) (o : Ops2) (imm : BitVec 32) (m : GMod) (d : Demand) (hd : demand (.ld h o imm m) = some d) :
    Performs (.ld h o imm m) h d := by
  cases hd; exact .indexed (f := execLd h o imm m) rfl rfl fun _ => ⟨_, rfl⟩
theorem performs_st (h : Hdr) (o : Ops2) (imm : BitVec 32) (m : GMod) (d : Demand) (hd : demand (.st h o imm m) = some d) :
    Performs (.st h o imm m) h d := by
  cases hd; exact .indexed (f := execSt h o imm m) rfl rfl fun _ => ⟨_, rfl⟩
theorem performs_atom (h : Hdr) (o : Ops4) (m : AtMod) (d : Demand) (hd : demand (.atom h o m) = some d) :
    Performs (.atom h o m) h d := by
  cases hd; exact .indexed (f := execAtom h o m) rfl rfl fun _ => ⟨_, rfl⟩
theorem performs_red (h : Hdr) (o : Ops4) (m : AtMod) (d : Demand) (hd : demand (.red h o m) = some d) :
    Performs (.red h o m) h d := by
  cases hd; exact .indexed (f := execRed h o m) rfl rfl fun _ => ⟨_, rfl⟩
theorem performs_cas (h : Hdr) (o : Ops4) (m : AtMod) (d : Demand) (hd : demand (.cas h o m) = some d) :
    Performs (.cas h o m) h d := by
  cases hd; exact .indexed (f := execCas h o m) rfl rfl fun _ => ⟨_, rfl⟩
theorem performs_ldsc (h : Hdr) (o : Ops2) (imm : BitVec 32) (m : GMod) (d : Demand) (hd : demand (.ldsc h o imm m) = some d) :
    Performs (.ldsc h o imm m) h d := by
  cases hd; exact .indexed (f := execLdsc h o imm m) rfl rfl fun _ => ⟨_, rfl⟩
theorem performs_stsc (h : Hdr) (o : Ops2) (imm : BitVec 32) (m : GMod) (d : Demand) (hd : demand (.stsc h o imm m) = some d) :
    Performs (.stsc h o imm m) h d := by
  cases hd; exact .indexed (f := execStsc h o imm m) rfl rfl fun _ => ⟨_, rfl⟩
theorem performs_cflush (h : Hdr) (o : Ops4) (d : Demand) (hd : demand (.cflush h o) = some d) :
    Performs (.cflush h o) h d := by
  cases hd; exact .plain (f := execCflush h o) rfl rfl rfl
theorem performs_cinv (h : Hdr) (o : Ops4) (d : Demand) (hd : demand (.cinv h o) = some d) :
    Performs (.cinv h o) h d := by
  cases hd; exact .plain (f := execCinv h o) rfl rfl rfl
theorem performs_pref (h : Hdr) (o : Ops4) (m : PrefMod) (d : Demand) (hd : demand (.pref h o m) = some d) :
    Performs (.pref h o m) h d := by
  cases hd; exact .plain (f := execPref h o m) rfl rfl rfl
theorem performs_bind (h : Hdr) (o : Ops4) (m : BindMod) (d : Demand) (hd : demand (.bind h o m) = some d) :
    Performs (.bind h o m) h d := by
  cases hd; exact .plain (f := execBind h o m) rfl rfl rfl
theorem performs_acq (h : Hdr) (o : Ops4) (m : SyMod) (d : Demand) (hd : demand (.acq h o m) = some d) :
    Performs (.acq h o m) h d := by
  cases hd; exact .plain (f := execAcq h o m) rfl rfl rfl
theorem performs_rel (h : Hdr) (o : Ops4) (m : SyMod) (d : Demand) (hd : demand (.rel h o m) = some d) :
    Performs (.rel h o m) h d := by
  cases hd; exact .plain (f := execRel h o m) rfl rfl rfl
theorem performs_fence (h : Hdr) (o : Ops4) (m : FenceMod) (d : Demand) (hd : demand (.fence h o m) = some d) :
    Performs (.fence h o m) h d := by
  cases hd; exact .plain (f := execFence h o m) rfl rfl rfl
theorem performs_ocwait (h : Hdr) (o : Ops4) (d : Demand) (hd : demand (.ocwait h o) = some d) :
    Performs (.ocwait h o) h d := by
  cases hd; exact .plain (f := execOcwait h o) rfl rfl rfl
theorem performs_rvinit (h : Hdr) (o : Ops4) (d : Demand) (hd : demand (.rvinit h o) = some d) :
    Performs (.rvinit h o) h d := by
  cases hd; exact .plain (f := execRvinit h o) rfl rfl rfl
theorem performs_rvarr (h : Hdr) (o : Ops4) (d : Demand) (hd : demand (.rvarr h o) = some d) :
    Performs (.rvarr h o) h d := by
  cases hd; exact .plain (f := execRvarr h o) rfl rfl rfl
theorem performs_rvwait (h : Hdr) (o : Ops4) (d : Demand) (hd : demand (.rvwait h o) = some d) :
    Performs (.rvwait h o) h d := by
  cases hd; exact .plain (f := execRvwait h o) rfl rfl rfl
theorem performs_mbinit (h : Hdr) (o : Ops4) (d : Demand) (hd : demand (.mbinit h o) = some d) :
    Performs (.mbinit h o) h d := by
  cases hd; exact .plain (f := execMbinit h o) rfl rfl rfl
theorem performs_mbarr (h : Hdr) (o : Ops4) (m : SyMod) (d : Demand) (hd : demand (.mbarr h o m) = some d) :
    Performs (.mbarr h o m) h d := by
  cases hd; exact .plain (f := execMbarr h o m) rfl rfl rfl
theorem performs_mbwait (h : Hdr) (o : Ops4) (d : Demand) (hd : demand (.mbwait h o) = some d) :
    Performs (.mbwait h o) h d := by
  cases hd; exact .plain (f := execMbwait h o) rfl rfl rfl
theorem performs_hwait (h : Hdr) (o : Ops4) (d : Demand) (hd : demand (.hwait h o) = some d) :
    Performs (.hwait h o) h d := by
  cases hd; exact .plain (f := execHwait h o) rfl rfl rfl
theorem performs_htest (h : Hdr) (o : Ops4) (d : Demand) (hd : demand (.htest h o) = some d) :
    Performs (.htest h o) h d := by
  cases hd; exact .plain (f := execHtest h o) rfl rfl rfl
theorem performs_hcancel (h : Hdr) (o : Ops4) (d : Demand) (hd : demand (.hcancel h o) = some d) :
    Performs (.hcancel h o) h d := by
  cases hd; exact .plain (f := execHcancel h o) rfl rfl rfl
theorem performs_hstat (h : Hdr) (o : Ops4) (d : Demand) (hd : demand (.hstat h o) = some d) :
    Performs (.hstat h o) h d := by
  cases hd; exact .plain (f := execHstat h o) rfl rfl rfl
theorem performs_hmov (h : Hdr) (o : Ops4) (d : Demand) (hd : demand (.hmov h o) = some d) :
    Performs (.hmov h o) h d := by
  cases hd; exact .plain (f := execHmov h o) rfl rfl rfl
theorem performs_tspawn (h : Hdr) (o : Ops4) (m : TspMod) (d : Demand) (hd : demand (.tspawn h o m) = some d) :
    Performs (.tspawn h o m) h d := by
  cases hd; exact .plain (f := execTspawn h o m) rfl (by unfold execTspawn; exact rfl) rfl
theorem performs_targ (h : Hdr) (o : Ops4) (d : Demand) (hd : demand (.targ h o) = some d) :
    Performs (.targ h o) h d := by
  cases hd; exact .indexed (f := execTarg h o) rfl (by unfold execTarg; exact rfl) fun _ => ⟨_, rfl⟩
theorem performs_dlaunch (h : Hdr) (o : Ops4) (m : DlMod) (d : Demand) (hd : demand (.dlaunch h o m) = some d) :
    Performs (.dlaunch h o m) h d := by
  cases hd; exact .plain (f := execDlaunch h o m) rfl (by unfold execDlaunch; exact rfl) rfl
theorem performs_copy (h : Hdr) (o : Ops4) (m : CpMod) (d : Demand) (hd : demand (.copy h o m) = some d) :
    Performs (.copy h o m) h d := by
  cases hd; exact .plain (f := execCopy h o m) rfl rfl rfl
theorem performs_copyx (h : Hdr) (o : Ops4) (m : CpMod) (d : Demand) (hd : demand (.copyx h o m) = some d) :
    Performs (.copyx h o m) h d := by
  cases hd; exact .plain (f := execCopyx h o m) rfl rfl rfl
theorem performs_mma (h : Hdr) (o : Ops4) (m : MmMod) (d : Demand) (hd : demand (.mma h o m) = some d) :
    Performs (.mma h o m) h d := by
  cases hd; exact .plain (f := execMma h o m) rfl rfl rfl
theorem performs_mmas (h : Hdr) (o : Ops4) (m : MmMod) (d : Demand) (hd : demand (.mmas h o m) = some d) :
    Performs (.mmas h o m) h d := by
  cases hd; exact .plain (f := execMmas h o m) rfl rfl rfl
theorem performs_mzero (h : Hdr) (o : Ops4) (m : MzMod) (d : Demand) (hd : demand (.mzero h o m) = some d) :
    Performs (.mzero h o m) h d := by
  cases hd; exact .plain (f := execMzero h o m) rfl rfl rfl
theorem performs_cfgload (h : Hdr) (o : Ops4) (d : Demand) (hd : demand (.cfgload h o) = some d) :
    Performs (.cfgload h o) h d := by
  cases hd; exact .plain (f := execCfgload h o) rfl rfl rfl
theorem performs_cfgrun (h : Hdr) (o : Ops4) (m : SlotMod) (d : Demand) (hd : demand (.cfgrun h o m) = some d) :
    Performs (.cfgrun h o m) h d := by
  cases hd; exact .plain (f := execCfgrun h o m) rfl rfl rfl
theorem performs_cfgrunRes (h : Hdr) (o : Ops4) (m : SlotMod) (d : Demand) (hd : demand (.cfgrunRes h o m) = some d) :
    Performs (.cfgrunRes h o m) h d := by
  cases hd; exact .plain (f := execCfgrunRes h o m) rfl rfl rfl
theorem performs_cfgdrain (h : Hdr) (o : Ops4) (m : SlotMod) (d : Demand) (hd : demand (.cfgdrain h o m) = some d) :
    Performs (.cfgdrain h o m) h d := by
  cases hd; exact .plain (f := execCfgdrain h o m) rfl rfl rfl
theorem performs_cfgevict (h : Hdr) (o : Ops4) (d : Demand) (hd : demand (.cfgevict h o) = some d) :
    Performs (.cfgevict h o) h d := by
  cases hd; exact .plain (f := execCfgevict h o) rfl rfl rfl
theorem performs_rblk (h : Hdr) (o : Ops4) (d : Demand) (hd : demand (.rblk h o) = some d) :
    Performs (.rblk h o) h d := by
  cases hd; exact .plain (f := execRblk h o) rfl rfl rfl
theorem performs_srreg (h : Hdr) (o : Ops2) (imm : BitVec 32) (d : Demand) (hd : demand (.srreg h o imm) = some d) :
    Performs (.srreg h o imm) h d := by
  cases hd; exact .indexed (f := execSrreg h o imm) rfl rfl fun _ => ⟨_, rfl⟩
theorem performs_swreg (h : Hdr) (o : Ops2) (imm : BitVec 32) (d : Demand) (hd : demand (.swreg h o imm) = some d) :
    Performs (.swreg h o imm) h d := by
  cases hd; exact .indexed (f := execSwreg h o imm) rfl rfl fun _ => ⟨_, rfl⟩
theorem performs_frec (h : Hdr) (o : Ops4) (d : Demand) (hd : demand (.frec h o) = some d) :
    Performs (.frec h o) h d := by
  cases hd; exact .plain (f := execFrec h o) rfl (by unfold execFrec; exact rfl) rfl
theorem performs_icinv (h : Hdr) (o : Ops4) (d : Demand) (hd : demand (.icinv h o) = some d) :
    Performs (.icinv h o) h d := by
  cases hd; exact .plain (f := execIcinv h o) rfl rfl rfl

/-- Every instruction is `perform` under the front of its demand. -/
theorem performs {i : Instr} {h : Hdr} {d : Demand} (hh : hdrOf i = some h) (hd : demand i = some d) : Performs i h d := by
  cases i with
  | nop => cases hh; exact performs_nop _ _ _ hd
  | bra => cases hh; exact performs_bra _ _ _ _ _ hd
  | btri => cases hh; exact performs_btri _ _ _ _ _ hd
  | brx => cases hh; exact performs_brx _ _ _ hd
  | call => cases hh; exact performs_call _ _ _ _ _ hd
  | ret => cases hh; exact performs_ret _ _ _ hd
  | join => cases hh; exact performs_join _ _ _ hd
  | exit => cases hh; exact performs_exit _ _ _ hd
  | yield => cases hh; exact performs_yield _ _ _ hd
  | trap => cases hh; exact performs_trap _ _ _ _ hd
  | tretRetry => cases hh; exact performs_tretRetry _ _ _ hd
  | tretSkip => cases hh; exact performs_tretSkip _ _ _ hd
  | tretKill => cases hh; exact performs_tretKill _ _ _ hd
  | bpt => cases hh; exact performs_bpt _ _ _ hd
  | loopd => cases hh; exact performs_loopd _ _ _ _ _ hd
  | shfl => cases hh; exact performs_shfl _ _ _ _ hd
  | vote => cases hh; exact performs_vote _ _ _ _ hd
  | redux => cases hh; exact performs_redux _ _ _ _ hd
  | fredux => cases hh; exact performs_fredux _ _ _ _ hd
  | matchOp => cases hh; exact performs_matchOp _ _ _ _ hd
  | plop => cases hh; exact performs_plop _ _ _ _ hd
  | pset => cases hh; exact performs_pset _ _ _ _ hd
  | pmov => cases hh; exact performs_pmov _ _ _ _ hd
  | pcount => cases hh; exact performs_pcount _ _ _ _ hd
  | mov => cases hh; exact performs_mov _ _ _ _ hd
  | movi => cases hh; exact performs_movi _ _ _ _ _ hd
  | sel => cases hh; exact performs_sel _ _ _ _ hd
  | sread => cases hh; exact performs_sread _ _ _ hd
  | rgn => cases hh; exact performs_rgn _ _ _ _ hd
  | live => cases hh; exact performs_live _ _ _ _ hd
  | setk => cases hh; exact performs_setk _ _ _ _ hd
  | quotaGive => cases hh; exact performs_quotaGive _ _ _ hd
  | quotaTake => cases hh; exact performs_quotaTake _ _ _ hd
  | iadd => cases hh; exact performs_iadd _ _ _ _ hd
  | isub => cases hh; exact performs_isub _ _ _ _ hd
  | imul => cases hh; exact performs_imul _ _ _ _ hd
  | imulh => cases hh; exact performs_imulh _ _ _ _ hd
  | imad => cases hh; exact performs_imad _ _ _ _ hd
  | imin => cases hh; exact performs_imin _ _ _ _ hd
  | imax => cases hh; exact performs_imax _ _ _ _ hd
  | iabs => cases hh; exact performs_iabs _ _ _ _ hd
  | lop3 => cases hh; exact performs_lop3 _ _ _ _ hd
  | shl => cases hh; exact performs_shl _ _ _ _ hd
  | shr => cases hh; exact performs_shr _ _ _ _ hd
  | sar => cases hh; exact performs_sar _ _ _ _ hd
  | rot => cases hh; exact performs_rot _ _ _ _ hd
  | bfx => cases hh; exact performs_bfx _ _ _ _ hd
  | bfi => cases hh; exact performs_bfi _ _ _ _ hd
  | popc => cases hh; exact performs_popc _ _ _ _ hd
  | clz => cases hh; exact performs_clz _ _ _ _ hd
  | brev => cases hh; exact performs_brev _ _ _ _ hd
  | icmp => cases hh; exact performs_icmp _ _ _ _ hd
  | lea => cases hh; exact performs_lea _ _ _ _ hd
  | idiv => cases hh; exact performs_idiv _ _ _ _ hd
  | cvti => cases hh; exact performs_cvti _ _ _ _ hd
  | fadd => cases hh; exact performs_fadd _ _ _ _ hd
  | fmul => cases hh; exact performs_fmul _ _ _ _ hd
  | ffma => cases hh; exact performs_ffma _ _ _ _ hd
  | fmin => cases hh; exact performs_fmin _ _ _ _ hd
  | fmax => cases hh; exact performs_fmax _ _ _ _ hd
  | fcmp => cases hh; exact performs_fcmp _ _ _ _ hd
  | fclass => cases hh; exact performs_fclass _ _ _ _ hd
  | frnd => cases hh; exact performs_frnd _ _ _ _ hd
  | frcp => cases hh; exact performs_frcp _ _ _ _ hd
  | fsqrt => cases hh; exact performs_fsqrt _ _ _ _ hd
  | frsq => cases hh; exact performs_frsq _ _ _ _ hd
  | fex2 => cases hh; exact performs_fex2 _ _ _ _ hd
  | flg2 => cases hh; exact performs_flg2 _ _ _ _ hd
  | fsin => cases hh; exact performs_fsin _ _ _ _ hd
  | fcos => cases hh; exact performs_fcos _ _ _ _ hd
  | fdiv => cases hh; exact performs_fdiv _ _ _ _ hd
  | ftanh => cases hh; exact performs_ftanh _ _ _ _ hd
  | fdot => cases hh; exact performs_fdot _ _ _ _ hd
  | fscale => cases hh; exact performs_fscale _ _ _ _ hd
  | cvtf => cases hh; exact performs_cvtf _ _ _ _ hd
  | pack => cases hh; exact performs_pack _ _ _ _ hd
  | unpack => cases hh; exact performs_unpack _ _ _ _ hd
  | deq => cases hh; exact performs_deq _ _ _ _ hd
  | qblk => cases hh; exact performs_qblk _ _ _ _ hd
  | ivmake => cases hh; exact performs_ivmake _ _ _ _ hd
  | ivbnd => cases hh; exact performs_ivbnd _ _ _ _ hd
  | ivadd => cases hh; exact performs_ivadd _ _ _ _ hd
  | ivsub => cases hh; exact performs_ivsub _ _ _ _ hd
  | ivmul => cases hh; exact performs_ivmul _ _ _ _ hd
  | ivdiv => cases hh; exact performs_ivdiv _ _ _ _ hd
  | ivfma => cases hh; exact performs_ivfma _ _ _ _ hd
  | ivsqr => cases hh; exact performs_ivsqr _ _ _ _ hd
  | ivsqrt => cases hh; exact performs_ivsqrt _ _ _ _ hd
  | ivex2 => cases hh; exact performs_ivex2 _ _ _ _ hd
  | ivlg2 => cases hh; exact performs_ivlg2 _ _ _ _ hd
  | ivmid => cases hh; exact performs_ivmid _ _ _ _ hd
  | ivwid => cases hh; exact performs_ivwid _ _ _ _ hd
  | ivhull => cases hh; exact performs_ivhull _ _ _ _ hd
  | ivisect => cases hh; exact performs_ivisect _ _ _ _ hd
  | ivcmp => cases hh; exact performs_ivcmp _ _ _ _ hd
  | ivbisect => cases hh; exact performs_ivbisect _ _ _ _ hd
  | ivld => cases hh; exact performs_ivld _ _ _ _ _ hd
  | ivst => cases hh; exact performs_ivst _ _ _ _ _ hd
  | ldl => cases hh; exact performs_ldl _ _ _ _ _ hd
  | stl => cases hh; exact performs_stl _ _ _ _ _ hd
  | atoml => cases hh; exact performs_atoml _ _ _ _ hd
  | ldb => cases hh; exact performs_ldb _ _ _ _ _ hd
  | stb => cases hh; exact performs_stb _ _ _ _ _ hd
  | spush => cases hh; exact performs_spush _ _ _ hd
  | spop => cases hh; exact performs_spop _ _ _ hd
  | ld => cases hh; exact performs_ld _ _ _ _ _ hd
  | st => cases hh; exact performs_st _ _ _ _ _ hd
  | atom => cases hh; exact performs_atom _ _ _ _ hd
  | red => cases hh; exact performs_red _ _ _ _ hd
  | cas => cases hh; exact performs_cas _ _ _ _ hd
  | ldsc => cases hh; exact performs_ldsc _ _ _ _ _ hd
  | stsc => cases hh; exact performs_stsc _ _ _ _ _ hd
  | cflush => cases hh; exact performs_cflush _ _ _ hd
  | cinv => cases hh; exact performs_cinv _ _ _ hd
  | pref => cases hh; exact performs_pref _ _ _ _ hd
  | bind => cases hh; exact performs_bind _ _ _ _ hd
  | acq => cases hh; exact performs_acq _ _ _ _ hd
  | rel => cases hh; exact performs_rel _ _ _ _ hd
  | fence => cases hh; exact performs_fence _ _ _ _ hd
  | ocwait => cases hh; exact performs_ocwait _ _ _ hd
  | rvinit => cases hh; exact performs_rvinit _ _ _ hd
  | rvarr => cases hh; exact performs_rvarr _ _ _ hd
  | rvwait => cases hh; exact performs_rvwait _ _ _ hd
  | mbinit => cases hh; exact performs_mbinit _ _ _ hd
  | mbarr => cases hh; exact performs_mbarr _ _ _ _ hd
  | mbwait => cases hh; exact performs_mbwait _ _ _ hd
  | hwait => cases hh; exact performs_hwait _ _ _ hd
  | htest => cases hh; exact performs_htest _ _ _ hd
  | hcancel => cases hh; exact performs_hcancel _ _ _ hd
  | hstat => cases hh; exact performs_hstat _ _ _ hd
  | hmov => cases hh; exact performs_hmov _ _ _ hd
  | tspawn => cases hh; exact performs_tspawn _ _ _ _ hd
  | targ => cases hh; exact performs_targ _ _ _ hd
  | dlaunch => cases hh; exact performs_dlaunch _ _ _ _ hd
  | copy => cases hh; exact performs_copy _ _ _ _ hd
  | copyx => cases hh; exact performs_copyx _ _ _ _ hd
  | mma => cases hh; exact performs_mma _ _ _ _ hd
  | mmas => cases hh; exact performs_mmas _ _ _ _ hd
  | mzero => cases hh; exact performs_mzero _ _ _ _ hd
  | cfgload => cases hh; exact performs_cfgload _ _ _ hd
  | cfgrun => cases hh; exact performs_cfgrun _ _ _ _ hd
  | cfgrunRes => cases hh; exact performs_cfgrunRes _ _ _ _ hd
  | cfgdrain => cases hh; exact performs_cfgdrain _ _ _ _ hd
  | cfgevict => cases hh; exact performs_cfgevict _ _ _ hd
  | rblk => cases hh; exact performs_rblk _ _ _ hd
  | srreg => cases hh; exact performs_srreg _ _ _ _ hd
  | swreg => cases hh; exact performs_swreg _ _ _ _ hd
  | frec => cases hh; exact performs_frec _ _ _ hd
  | icinv => cases hh; exact performs_icinv _ _ _ hd
  | _ => cases hh

end Sys2Proof.Claim
end

