-- ==== Sys2Proof/Laws/Lanes.lean ====
section
/-!
SUPPORT. Laws/Lanes.lean: the elements of a register (R26): what `packElems` puts in is what `elemAt` reads, and so the
lane-wise instructions give the elements that their rules name.
-/
namespace Sys2Proof.Machine

set_option Elab.async false

/-- The sum behind `packElems`. -/
def packSum (w n : Nat) (f : Nat → Nat) : Nat := (List.range n).foldl (fun a i => a + f i % 2 ^ w * 2 ^ (w * i)) 0

theorem packSum_succ (w n : Nat) (f : Nat → Nat) : packSum w (n + 1) f = packSum w n f + f n % 2 ^ w * 2 ^ (w * n) := by
  simp [packSum, List.range_succ, List.foldl_append]

theorem packSum_lt (w n : Nat) (f : Nat → Nat) : packSum w n f < 2 ^ (w * n) := by
  induction n with
  | zero => simp [packSum]
  | succ n ih =>
    rw [packSum_succ]
    have h1 : f n % 2 ^ w ≤ 2 ^ w - 1 := by have := Nat.mod_lt (f n) (Nat.two_pow_pos w); omega
    have h2 : f n % 2 ^ w * 2 ^ (w * n) ≤ (2 ^ w - 1) * 2 ^ (w * n) := Nat.mul_le_mul_right _ h1
    have h3 : 2 ^ (w * (n + 1)) = 2 ^ w * 2 ^ (w * n) := by rw [← Nat.pow_add]; congr 1; ring
    have h4 : (2 ^ w - 1) * 2 ^ (w * n) + 2 ^ (w * n) = 2 ^ w * 2 ^ (w * n) := by
      rw [Nat.sub_mul, Nat.one_mul]
      exact Nat.sub_add_cancel (Nat.le_mul_of_pos_left _ (Nat.two_pow_pos w))
    omega

theorem packSum_elem (w n : Nat) (f : Nat → Nat) (k : Nat) (h : k < n) : packSum w n f / 2 ^ (w * k) % 2 ^ w = f k % 2 ^ w := by
  induction n with
  | zero => omega
  | succ n ih =>
    rw [packSum_succ]
    by_cases hk : k = n
    · subst hk
      rw [Nat.add_mul_div_right _ _ (Nat.two_pow_pos _), Nat.div_eq_of_lt (packSum_lt w k f)]
      simp
    · have hlt : k < n := by omega
      have e : f n % 2 ^ w * 2 ^ (w * n) = (f n % 2 ^ w * 2 ^ (w * (n - k - 1))) * 2 ^ w * 2 ^ (w * k) := by
        rw [Nat.mul_assoc, Nat.mul_assoc, ← Nat.pow_add, ← Nat.pow_add]
        congr 2
        have : n = (n - k - 1) + 1 + k := by omega
        calc w * n = w * ((n - k - 1) + 1 + k) := by rw [← this]
          _ = w * (n - k - 1) + (w + w * k) := by ring
      rw [e, Nat.add_mul_div_right _ _ (Nat.two_pow_pos _), Nat.add_mul_mod_self_right, ih hlt]

/-- The lane types fit a register. -/
theorem Ty.shape_fits (t : Ty) : t.shape.1 * t.shape.2 ≤ 64 := by cases t <;> decide

theorem packElems_toNat (w n : Nat) (f : Nat → Nat) (h : w * n ≤ 64) : (packElems w n f).toNat = packSum w n f := by
  show (BitVec.ofNat 64 (packSum w n f)).toNat = _
  rw [BitVec.toNat_ofNat]
  exact Nat.mod_eq_of_lt (Nat.lt_of_lt_of_le (packSum_lt w n f) (Nat.pow_le_pow_right (by omega) h))

theorem elemAt_packElems (w n : Nat) (f : Nat → Nat) (k : Nat) (h : w * n ≤ 64) (hk : k < n) :
    elemAt w k (packElems w n f) = f k % 2 ^ w := by
  unfold elemAt
  rw [packElems_toNat w n f h]
  exact packSum_elem w n f k hk

theorem packElems_lt (w n : Nat) (f : Nat → Nat) (h : w * n ≤ 64) : (packElems w n f).toNat < 2 ^ (w * n) := by
  rw [packElems_toNat w n f h]
  exact packSum_lt w n f

@[simp] theorem mapRow_getElem (f : Word64 → Word64) (a : Row) (l : Lane) : (mapRow f a)[l] = f a[l] := by simp [mapRow]
@[simp] theorem mapRow2_getElem (f : Word64 → Word64 → Word64) (a b : Row) (l : Lane) : (mapRow2 f a b)[l] = f a[l] b[l] := by
  simp [mapRow2]
@[simp] theorem mapRow3_getElem (f : Word64 → Word64 → Word64 → Word64) (a b x : Row) (l : Lane) :
    (mapRow3 f a b x)[l] = f a[l] b[l] x[l] := by
  simp [mapRow3]

/-- The number behind `maskOf`. -/
theorem maskOf_foldl (f : Lane → Bool) :
    (List.finRange 128).foldl (fun a l => if f l then a + 2 ^ l.val else a) 0
      = packSum 1 128 (fun i => if h : i < 128 then (if f ⟨i, h⟩ then 1 else 0) else 0) := by
  have key : ∀ n (hn : n ≤ 128), ((List.finRange 128).take n).foldl (fun a l => if f l then a + 2 ^ l.val else a) 0
      = packSum 1 n (fun i => if h : i < 128 then (if f ⟨i, h⟩ then 1 else 0) else 0) := by
    intro n
    induction n with
    | zero => intro _; rfl
    | succ n ih =>
      intro hn
      have hlt : n < (List.finRange 128).length := by simp; omega
      rw [List.take_succ_eq_append_getElem hlt, List.foldl_append, ih (by omega), packSum_succ]
      have hn' : n < 128 := by omega
      simp only [List.foldl_cons, List.foldl_nil, List.getElem_finRange, hn', dif_pos, Nat.one_mul]
      by_cases hf : f ⟨n, hn'⟩ = true
      · simp [hf]
      · simp [hf]
  have := key 128 (le_refl _)
  rwa [List.take_of_length_le (by simp)] at this

/-- Bit L of the mask of a test is the test of lane L. -/
@[simp] theorem maskOf_getLsbD (f : Lane → Bool) (l : Lane) : (maskOf f).getLsbD l.val = f l := by
  have hlt : l.val < 128 := l.isLt
  have h1 := packSum_elem 1 128 (fun i => if h : i < 128 then (if f ⟨i, h⟩ then 1 else 0) else 0) l.val hlt
  unfold maskOf
  rw [maskOf_foldl, BitVec.getLsbD_ofNat, Nat.testBit_eq_decide_div_mod_eq]
  simp only [Nat.one_mul, pow_one] at h1
  rw [h1]
  simp only [hlt, decide_true, Bool.true_and, dif_pos]
  cases f l <;> simp

/-- No active lane fails a test when the mask of failing lanes is empty. -/
theorem Env.failing_getLsbD (e : Env) (ok : Lane → Bool) (l : Lane) :
    (e.failing ok).getLsbD l.val = (e.act.getLsbD l.val && !ok l) := by
  unfold Env.failing
  rw [BitVec.getLsbD_and, maskOf_getLsbD]

theorem Env.failing_zero (e : Env) (ok : Lane → Bool) :
    e.failing ok = 0 ↔ ∀ l : Lane, e.act.getLsbD l.val = true → ok l = true := by
  constructor
  · intro h l hl
    have := Env.failing_getLsbD e ok l
    rw [h, hl] at this
    simpa using this
  · intro h
    apply BitVec.eq_of_getLsbD_eq
    intro i hi
    have := Env.failing_getLsbD e ok ⟨i, hi⟩
    simp only at this
    rw [this]
    have hz : (0 : Mask).getLsbD i = false := by simp
    rw [hz]
    cases ha : e.act.getLsbD i with
    | false => rfl
    | true => simp [h ⟨i, hi⟩ ha]

end Sys2Proof.Machine

namespace Sys2Proof.Claim
open Machine

/-- A row of packed elements holds them. -/
theorem holds_pack {t : Ty} {r : Row} {f : Lane → Nat → Nat} (g : Lane → Nat → Nat)
    (hr : ∀ l : Lane, r[l] = packElems t.shape.1 t.shape.2 (g l)) (hg : ∀ l k, k < t.shape.2 → g l k % 2 ^ t.shape.1 = f l k) :
    Holds t r f := by
  intro l
  rw [hr l]
  refine ⟨fun k hk => ?_, packElems_lt _ _ _ (Ty.shape_fits t)⟩
  unfold elem
  rw [elemAt_packElems _ _ _ _ (Ty.shape_fits t) hk, hg l k hk]

theorem wrap_eq (t : Ty) (sat : Bool) (x : Int) : Ty.wrap t sat t.shape.1 x = narrow t sat x := by
  simp only [Ty.wrap, narrow, intCode]

theorem narrow_mod (t : Ty) (sat : Bool) (x : Int) : narrow t sat x % 2 ^ t.shape.1 = narrow t sat x := by
  apply Nat.mod_eq_of_lt
  unfold narrow
  generalize (if sat = true then _ else x) = y
  have hp : (0:Int) < 2 ^ t.shape.1 := by positivity
  have := Int.emod_lt_of_pos y hp
  have := Int.emod_nonneg y (ne_of_gt hp)
  zify
  omega

/-- What the one-, two- and three-source forms put into D, element by element. -/
theorem gives_lane1 {i : Instr} {e : Env} {o : Ops4} {t : Ty} {g : Nat → Nat} {f : Lane → Nat → Nat}
    (hx : exec i e.s = .next (e.finish (lane1 o t (t.map1 g) e))) (hi : e.indexFault [(o.d, false), (o.a, false)] = none)
    (hf : ∀ (l : Lane) (k : Nat), k < t.shape.2 → g (elem t k (e.src t o.a)[l]) % 2 ^ t.shape.1 = f l k) : Gives i e o.d t f := by
  refine ⟨mapRow (t.map1 g) (e.src t o.a), ?_, ?_⟩
  · unfold Retires
    rw [hx, show lane1 o t (t.map1 g) e = _ from Env.indexed_none hi _]
    rfl
  · exact holds_pack _ (fun l => by rw [mapRow_getElem]; rfl) hf

theorem gives_lane2 {i : Instr} {e : Env} {o : Ops4} {t : Ty} {g : Nat → Nat → Nat} {f : Lane → Nat → Nat}
    (hx : exec i e.s = .next (e.finish (lane2 o t (t.map2 g) e)))
    (hi : e.indexFault [(o.d, false), (o.a, false), (o.b, false)] = none)
    (hf : ∀ (l : Lane) (k : Nat), k < t.shape.2 →
      g (elem t k (e.src t o.a)[l]) (elem t k (e.src t o.b)[l]) % 2 ^ t.shape.1 = f l k) : Gives i e o.d t f := by
  refine ⟨mapRow2 (t.map2 g) (e.src t o.a) (e.src t o.b), ?_, ?_⟩
  · unfold Retires
    rw [hx, show lane2 o t (t.map2 g) e = _ from Env.indexed_none hi _]
    rfl
  · exact holds_pack _ (fun l => by rw [mapRow2_getElem]; rfl) hf

theorem gives_lane3 {i : Instr} {e : Env} {o : Ops4} {t : Ty} {g : Nat → Nat → Nat → Nat} {f : Lane → Nat → Nat}
    (hx : exec i e.s = .next (e.finish (lane3 o t (t.map3 g) e)))
    (hi : e.indexFault [(o.d, false), (o.a, false), (o.b, false), (o.c, false)] = none)
    (hf : ∀ (l : Lane) (k : Nat), k < t.shape.2 →
      g (elem t k (e.src t o.a)[l]) (elem t k (e.src t o.b)[l]) (elem t k (e.src t o.c)[l]) % 2 ^ t.shape.1 = f l k) :
    Gives i e o.d t f := by
  refine ⟨mapRow3 (t.map3 g) (e.src t o.a) (e.src t o.b) (e.src t o.c), ?_, ?_⟩
  · unfold Retires
    rw [hx, show lane3 o t (t.map3 g) e = _ from Env.indexed_none hi _]
    rfl
  · exact holds_pack _ (fun l => by rw [mapRow3_getElem]; rfl) hf

/-- A result that is checked in every active lane. -/
theorem checked_of {i : Instr} {e : Env} {ok : Lane → Bool} {t : State}
    (hx : exec i e.s = .next (e.finish (if e.failing ok ≠ 0 then .trap (emptyTrap (e.failing ok)) else .done t))) :
    Checked i e ok t := by
  constructor
  · intro h
    have hz := (Env.failing_zero e ok).mpr h
    unfold Retires
    rw [hx, if_neg (by simp [hz])]
    rfl
  · rintro ⟨l, ha, hl⟩
    have hz : e.failing ok ≠ 0 := by
      intro h
      have := (Env.failing_zero e ok).mp h l ha
      rw [hl] at this
      cases this
    refine ⟨e.failing ok, ?_, Env.failing_getLsbD e ok⟩
    unfold Raises
    rw [hx, if_pos hz]
    rfl

end Sys2Proof.Claim
end

