-- ==== Sys2Proof/Laws/PerInstr.lean ====
section
/-!
SUPPORT. Laws/PerInstr.lean: the family HeaderKept: the word of an instruction holds its guard and hints where R15 puts
them. An event has no word.
-/
namespace Sys2Proof.Laws.HeaderKept

set_option Elab.async false

/-- The header of an instruction is read back from its word. -/
def Statement (i : Instr) : Prop := ∀ x, Claim.hdrOf i = some x → Hdr.parse (encode i) = .ok x

theorem nop (h : Hdr) (o : Ops4) : Statement (.nop h o) := fun _ e => Option.some.inj e ▸ encR_hdr ..
theorem bra (h : Hdr) (o : Ops2) (t u : BitVec 21) : Statement (.bra h o t u) := fun _ e => Option.some.inj e ▸ encJ_hdr ..
theorem btri (h : Hdr) (o : Ops2) (t u : BitVec 21) : Statement (.btri h o t u) := fun _ e => Option.some.inj e ▸ encJ_hdr ..
theorem brx (h : Hdr) (o : Ops4) : Statement (.brx h o) := fun _ e => Option.some.inj e ▸ encR_hdr ..
theorem call (h : Hdr) (o : Ops2) (t u : BitVec 21) : Statement (.call h o t u) := fun _ e => Option.some.inj e ▸ encJ_hdr ..
theorem ret (h : Hdr) (o : Ops4) : Statement (.ret h o) := fun _ e => Option.some.inj e ▸ encR_hdr ..
theorem join (h : Hdr) (o : Ops4) : Statement (.join h o) := fun _ e => Option.some.inj e ▸ encR_hdr ..
theorem exit (h : Hdr) (o : Ops4) : Statement (.exit h o) := fun _ e => Option.some.inj e ▸ encR_hdr ..
theorem yield (h : Hdr) (o : Ops4) : Statement (.yield h o) := fun _ e => Option.some.inj e ▸ encR_hdr ..
theorem trap (h : Hdr) (o : Ops2) (imm : BitVec 32) : Statement (.trap h o imm) := fun _ e => Option.some.inj e ▸ encI_hdr ..
theorem tretRetry (h : Hdr) (o : Ops4) : Statement (.tretRetry h o) := fun _ e => Option.some.inj e ▸ encR_hdr ..
theorem tretSkip (h : Hdr) (o : Ops4) : Statement (.tretSkip h o) := fun _ e => Option.some.inj e ▸ encR_hdr ..
theorem tretKill (h : Hdr) (o : Ops4) : Statement (.tretKill h o) := fun _ e => Option.some.inj e ▸ encR_hdr ..
theorem bpt (h : Hdr) (o : Ops4) : Statement (.bpt h o) := fun _ e => Option.some.inj e ▸ encR_hdr ..
theorem loopd (h : Hdr) (o : Ops2) (t u : BitVec 21) : Statement (.loopd h o t u) := fun _ e => Option.some.inj e ▸ encJ_hdr ..
theorem shfl (h : Hdr) (o : Ops4) (m : XMod) : Statement (.shfl h o m) := fun _ e => Option.some.inj e ▸ encR_hdr ..
theorem vote (h : Hdr) (o : Ops4) (m : XMod) : Statement (.vote h o m) := fun _ e => Option.some.inj e ▸ encR_hdr ..
theorem redux (h : Hdr) (o : Ops4) (m : XMod) : Statement (.redux h o m) := fun _ e => Option.some.inj e ▸ encR_hdr ..
theorem fredux (h : Hdr) (o : Ops4) (m : XMod) : Statement (.fredux h o m) := fun _ e => Option.some.inj e ▸ encR_hdr ..
theorem matchOp (h : Hdr) (o : Ops4) (m : XMod) : Statement (.matchOp h o m) := fun _ e => Option.some.inj e ▸ encR_hdr ..
theorem plop (h : Hdr) (o : Ops4) (m : XMod) : Statement (.plop h o m) := fun _ e => Option.some.inj e ▸ encR_hdr ..
theorem pset (h : Hdr) (o : Ops4) (m : XMod) : Statement (.pset h o m) := fun _ e => Option.some.inj e ▸ encR_hdr ..
theorem pmov (h : Hdr) (o : Ops4) (m : XMod) : Statement (.pmov h o m) := fun _ e => Option.some.inj e ▸ encR_hdr ..
theorem pcount (h : Hdr) (o : Ops4) (m : XMod) : Statement (.pcount h o m) := fun _ e => Option.some.inj e ▸ encR_hdr ..
theorem mov (h : Hdr) (o : Ops4) (m : X2Mod) : Statement (.mov h o m) := fun _ e => Option.some.inj e ▸ encR_hdr ..
theorem movi (h : Hdr) (o : Ops2) (imm : BitVec 32) (m : MoviMod) : Statement (.movi h o imm m) := fun _ e => Option.some.inj e ▸ encI_hdr ..
theorem sel (h : Hdr) (o : Ops4) (m : SelMod) : Statement (.sel h o m) := fun _ e => Option.some.inj e ▸ encR_hdr ..
theorem sread (h : Hdr) (o : Ops4) : Statement (.sread h o) := fun _ e => Option.some.inj e ▸ encR_hdr ..
theorem rgn (h : Hdr) (o : Ops4) (m : RgnMod) : Statement (.rgn h o m) := fun _ e => Option.some.inj e ▸ encR_hdr ..
theorem live (h : Hdr) (o : Ops2) (imm : BitVec 32) : Statement (.live h o imm) := fun _ e => Option.some.inj e ▸ encI_hdr ..
theorem setk (h : Hdr) (o : Ops4) (m : SetkMod) : Statement (.setk h o m) := fun _ e => Option.some.inj e ▸ encR_hdr ..
theorem quotaGive (h : Hdr) (o : Ops4) : Statement (.quotaGive h o) := fun _ e => Option.some.inj e ▸ encR_hdr ..
theorem quotaTake (h : Hdr) (o : Ops4) : Statement (.quotaTake h o) := fun _ e => Option.some.inj e ▸ encR_hdr ..
theorem iadd (h : Hdr) (o : Ops4) (m : AMod) : Statement (.iadd h o m) := fun _ e => Option.some.inj e ▸ encR_hdr ..
theorem isub (h : Hdr) (o : Ops4) (m : AMod) : Statement (.isub h o m) := fun _ e => Option.some.inj e ▸ encR_hdr ..
theorem imul (h : Hdr) (o : Ops4) (m : AMod) : Statement (.imul h o m) := fun _ e => Option.some.inj e ▸ encR_hdr ..
theorem imulh (h : Hdr) (o : Ops4) (m : AMod) : Statement (.imulh h o m) := fun _ e => Option.some.inj e ▸ encR_hdr ..
theorem imad (h : Hdr) (o : Ops4) (m : AMod) : Statement (.imad h o m) := fun _ e => Option.some.inj e ▸ encR_hdr ..
theorem imin (h : Hdr) (o : Ops4) (m : AMod) : Statement (.imin h o m) := fun _ e => Option.some.inj e ▸ encR_hdr ..
theorem imax (h : Hdr) (o : Ops4) (m : AMod) : Statement (.imax h o m) := fun _ e => Option.some.inj e ▸ encR_hdr ..
theorem iabs (h : Hdr) (o : Ops4) (m : AMod) : Statement (.iabs h o m) := fun _ e => Option.some.inj e ▸ encR_hdr ..
theorem lop3 (h : Hdr) (o : Ops4) (m : AMod) : Statement (.lop3 h o m) := fun _ e => Option.some.inj e ▸ encR_hdr ..
theorem shl (h : Hdr) (o : Ops4) (m : AMod) : Statement (.shl h o m) := fun _ e => Option.some.inj e ▸ encR_hdr ..
theorem shr (h : Hdr) (o : Ops4) (m : AMod) : Statement (.shr h o m) := fun _ e => Option.some.inj e ▸ encR_hdr ..
theorem sar (h : Hdr) (o : Ops4) (m : AMod) : Statement (.sar h o m) := fun _ e => Option.some.inj e ▸ encR_hdr ..
theorem rot (h : Hdr) (o : Ops4) (m : AMod) : Statement (.rot h o m) := fun _ e => Option.some.inj e ▸ encR_hdr ..
theorem bfx (h : Hdr) (o : Ops4) (m : AMod) : Statement (.bfx h o m) := fun _ e => Option.some.inj e ▸ encR_hdr ..
theorem bfi (h : Hdr) (o : Ops4) (m : AMod) : Statement (.bfi h o m) := fun _ e => Option.some.inj e ▸ encR_hdr ..
theorem popc (h : Hdr) (o : Ops4) (m : AMod) : Statement (.popc h o m) := fun _ e => Option.some.inj e ▸ encR_hdr ..
theorem clz (h : Hdr) (o : Ops4) (m : AMod) : Statement (.clz h o m) := fun _ e => Option.some.inj e ▸ encR_hdr ..
theorem brev (h : Hdr) (o : Ops4) (m : AMod) : Statement (.brev h o m) := fun _ e => Option.some.inj e ▸ encR_hdr ..
theorem icmp (h : Hdr) (o : Ops4) (m : AMod) : Statement (.icmp h o m) := fun _ e => Option.some.inj e ▸ encR_hdr ..
theorem lea (h : Hdr) (o : Ops4) (m : AMod) : Statement (.lea h o m) := fun _ e => Option.some.inj e ▸ encR_hdr ..
theorem idiv (h : Hdr) (o : Ops4) (m : AMod) : Statement (.idiv h o m) := fun _ e => Option.some.inj e ▸ encR_hdr ..
theorem cvti (h : Hdr) (o : Ops4) (m : AMod) : Statement (.cvti h o m) := fun _ e => Option.some.inj e ▸ encR_hdr ..
theorem fadd (h : Hdr) (o : Ops4) (m : AMod) : Statement (.fadd h o m) := fun _ e => Option.some.inj e ▸ encR_hdr ..
theorem fmul (h : Hdr) (o : Ops4) (m : AMod) : Statement (.fmul h o m) := fun _ e => Option.some.inj e ▸ encR_hdr ..
theorem ffma (h : Hdr) (o : Ops4) (m : AMod) : Statement (.ffma h o m) := fun _ e => Option.some.inj e ▸ encR_hdr ..
theorem fmin (h : Hdr) (o : Ops4) (m : AMod) : Statement (.fmin h o m) := fun _ e => Option.some.inj e ▸ encR_hdr ..
theorem fmax (h : Hdr) (o : Ops4) (m : AMod) : Statement (.fmax h o m) := fun _ e => Option.some.inj e ▸ encR_hdr ..
theorem fcmp (h : Hdr) (o : Ops4) (m : AMod) : Statement (.fcmp h o m) := fun _ e => Option.some.inj e ▸ encR_hdr ..
theorem fclass (h : Hdr) (o : Ops4) (m : AMod) : Statement (.fclass h o m) := fun _ e => Option.some.inj e ▸ encR_hdr ..
theorem frnd (h : Hdr) (o : Ops4) (m : AMod) : Statement (.frnd h o m) := fun _ e => Option.some.inj e ▸ encR_hdr ..
theorem frcp (h : Hdr) (o : Ops4) (m : AMod) : Statement (.frcp h o m) := fun _ e => Option.some.inj e ▸ encR_hdr ..
theorem fsqrt (h : Hdr) (o : Ops4) (m : AMod) : Statement (.fsqrt h o m) := fun _ e => Option.some.inj e ▸ encR_hdr ..
theorem frsq (h : Hdr) (o : Ops4) (m : AMod) : Statement (.frsq h o m) := fun _ e => Option.some.inj e ▸ encR_hdr ..
theorem fex2 (h : Hdr) (o : Ops4) (m : AMod) : Statement (.fex2 h o m) := fun _ e => Option.some.inj e ▸ encR_hdr ..
theorem flg2 (h : Hdr) (o : Ops4) (m : AMod) : Statement (.flg2 h o m) := fun _ e => Option.some.inj e ▸ encR_hdr ..
theorem fsin (h : Hdr) (o : Ops4) (m : AMod) : Statement (.fsin h o m) := fun _ e => Option.some.inj e ▸ encR_hdr ..
theorem fcos (h : Hdr) (o : Ops4) (m : AMod) : Statement (.fcos h o m) := fun _ e => Option.some.inj e ▸ encR_hdr ..
theorem fdiv (h : Hdr) (o : Ops4) (m : AMod) : Statement (.fdiv h o m) := fun _ e => Option.some.inj e ▸ encR_hdr ..
theorem ftanh (h : Hdr) (o : Ops4) (m : AMod) : Statement (.ftanh h o m) := fun _ e => Option.some.inj e ▸ encR_hdr ..
theorem fdot (h : Hdr) (o : Ops4) (m : AMod) : Statement (.fdot h o m) := fun _ e => Option.some.inj e ▸ encR_hdr ..
theorem fscale (h : Hdr) (o : Ops4) (m : AMod) : Statement (.fscale h o m) := fun _ e => Option.some.inj e ▸ encR_hdr ..
theorem cvtf (h : Hdr) (o : Ops4) (m : AMod) : Statement (.cvtf h o m) := fun _ e => Option.some.inj e ▸ encR_hdr ..
theorem pack (h : Hdr) (o : Ops4) (m : AMod) : Statement (.pack h o m) := fun _ e => Option.some.inj e ▸ encR_hdr ..
theorem unpack (h : Hdr) (o : Ops4) (m : AMod) : Statement (.unpack h o m) := fun _ e => Option.some.inj e ▸ encR_hdr ..
theorem deq (h : Hdr) (o : Ops4) (m : AMod) : Statement (.deq h o m) := fun _ e => Option.some.inj e ▸ encR_hdr ..
theorem qblk (h : Hdr) (o : Ops4) (m : AMod) : Statement (.qblk h o m) := fun _ e => Option.some.inj e ▸ encR_hdr ..
theorem ivmake (h : Hdr) (o : Ops4) (m : AMod) : Statement (.ivmake h o m) := fun _ e => Option.some.inj e ▸ encR_hdr ..
theorem ivbnd (h : Hdr) (o : Ops4) (m : AMod) : Statement (.ivbnd h o m) := fun _ e => Option.some.inj e ▸ encR_hdr ..
theorem ivadd (h : Hdr) (o : Ops4) (m : AMod) : Statement (.ivadd h o m) := fun _ e => Option.some.inj e ▸ encR_hdr ..
theorem ivsub (h : Hdr) (o : Ops4) (m : AMod) : Statement (.ivsub h o m) := fun _ e => Option.some.inj e ▸ encR_hdr ..
theorem ivmul (h : Hdr) (o : Ops4) (m : AMod) : Statement (.ivmul h o m) := fun _ e => Option.some.inj e ▸ encR_hdr ..
theorem ivdiv (h : Hdr) (o : Ops4) (m : AMod) : Statement (.ivdiv h o m) := fun _ e => Option.some.inj e ▸ encR_hdr ..
theorem ivfma (h : Hdr) (o : Ops4) (m : AMod) : Statement (.ivfma h o m) := fun _ e => Option.some.inj e ▸ encR_hdr ..
theorem ivsqr (h : Hdr) (o : Ops4) (m : AMod) : Statement (.ivsqr h o m) := fun _ e => Option.some.inj e ▸ encR_hdr ..
theorem ivsqrt (h : Hdr) (o : Ops4) (m : AMod) : Statement (.ivsqrt h o m) := fun _ e => Option.some.inj e ▸ encR_hdr ..
theorem ivex2 (h : Hdr) (o : Ops4) (m : AMod) : Statement (.ivex2 h o m) := fun _ e => Option.some.inj e ▸ encR_hdr ..
theorem ivlg2 (h : Hdr) (o : Ops4) (m : AMod) : Statement (.ivlg2 h o m) := fun _ e => Option.some.inj e ▸ encR_hdr ..
theorem ivmid (h : Hdr) (o : Ops4) (m : AMod) : Statement (.ivmid h o m) := fun _ e => Option.some.inj e ▸ encR_hdr ..
theorem ivwid (h : Hdr) (o : Ops4) (m : AMod) : Statement (.ivwid h o m) := fun _ e => Option.some.inj e ▸ encR_hdr ..
theorem ivhull (h : Hdr) (o : Ops4) (m : AMod) : Statement (.ivhull h o m) := fun _ e => Option.some.inj e ▸ encR_hdr ..
theorem ivisect (h : Hdr) (o : Ops4) (m : AMod) : Statement (.ivisect h o m) := fun _ e => Option.some.inj e ▸ encR_hdr ..
theorem ivcmp (h : Hdr) (o : Ops4) (m : AMod) : Statement (.ivcmp h o m) := fun _ e => Option.some.inj e ▸ encR_hdr ..
theorem ivbisect (h : Hdr) (o : Ops4) (m : AMod) : Statement (.ivbisect h o m) := fun _ e => Option.some.inj e ▸ encR_hdr ..
theorem ivld (h : Hdr) (o : Ops2) (imm : BitVec 32) (m : AMod) : Statement (.ivld h o imm m) := fun _ e => Option.some.inj e ▸ encI_hdr ..
theorem ivst (h : Hdr) (o : Ops2) (imm : BitVec 32) (m : AMod) : Statement (.ivst h o imm m) := fun _ e => Option.some.inj e ▸ encI_hdr ..
theorem ldl (h : Hdr) (o : Ops2) (imm : BitVec 32) (m : LMod) : Statement (.ldl h o imm m) := fun _ e => Option.some.inj e ▸ encI_hdr ..
theorem stl (h : Hdr) (o : Ops2) (imm : BitVec 32) (m : LMod) : Statement (.stl h o imm m) := fun _ e => Option.some.inj e ▸ encI_hdr ..
theorem atoml (h : Hdr) (o : Ops4) (m : AtMod) : Statement (.atoml h o m) := fun _ e => Option.some.inj e ▸ encR_hdr ..
theorem ldb (h : Hdr) (o : Ops2) (imm : BitVec 32) (m : LMod) : Statement (.ldb h o imm m) := fun _ e => Option.some.inj e ▸ encI_hdr ..
theorem stb (h : Hdr) (o : Ops2) (imm : BitVec 32) (m : LMod) : Statement (.stb h o imm m) := fun _ e => Option.some.inj e ▸ encI_hdr ..
theorem spush (h : Hdr) (o : Ops4) : Statement (.spush h o) := fun _ e => Option.some.inj e ▸ encR_hdr ..
theorem spop (h : Hdr) (o : Ops4) : Statement (.spop h o) := fun _ e => Option.some.inj e ▸ encR_hdr ..
theorem ld (h : Hdr) (o : Ops2) (imm : BitVec 32) (m : GMod) : Statement (.ld h o imm m) := fun _ e => Option.some.inj e ▸ encI_hdr ..
theorem st (h : Hdr) (o : Ops2) (imm : BitVec 32) (m : GMod) : Statement (.st h o imm m) := fun _ e => Option.some.inj e ▸ encI_hdr ..
theorem atom (h : Hdr) (o : Ops4) (m : AtMod) : Statement (.atom h o m) := fun _ e => Option.some.inj e ▸ encR_hdr ..
theorem red (h : Hdr) (o : Ops4) (m : AtMod) : Statement (.red h o m) := fun _ e => Option.some.inj e ▸ encR_hdr ..
theorem cas (h : Hdr) (o : Ops4) (m : AtMod) : Statement (.cas h o m) := fun _ e => Option.some.inj e ▸ encR_hdr ..
theorem ldsc (h : Hdr) (o : Ops2) (imm : BitVec 32) (m : GMod) : Statement (.ldsc h o imm m) := fun _ e => Option.some.inj e ▸ encI_hdr ..
theorem stsc (h : Hdr) (o : Ops2) (imm : BitVec 32) (m : GMod) : Statement (.stsc h o imm m) := fun _ e => Option.some.inj e ▸ encI_hdr ..
theorem cflush (h : Hdr) (o : Ops4) : Statement (.cflush h o) := fun _ e => Option.some.inj e ▸ encR_hdr ..
theorem cinv (h : Hdr) (o : Ops4) : Statement (.cinv h o) := fun _ e => Option.some.inj e ▸ encR_hdr ..
theorem pref (h : Hdr) (o : Ops4) (m : PrefMod) : Statement (.pref h o m) := fun _ e => Option.some.inj e ▸ encR_hdr ..
theorem bind (h : Hdr) (o : Ops4) (m : BindMod) : Statement (.bind h o m) := fun _ e => Option.some.inj e ▸ encR_hdr ..
theorem acq (h : Hdr) (o : Ops4) (m : SyMod) : Statement (.acq h o m) := fun _ e => Option.some.inj e ▸ encR_hdr ..
theorem rel (h : Hdr) (o : Ops4) (m : SyMod) : Statement (.rel h o m) := fun _ e => Option.some.inj e ▸ encR_hdr ..
theorem fence (h : Hdr) (o : Ops4) (m : FenceMod) : Statement (.fence h o m) := fun _ e => Option.some.inj e ▸ encR_hdr ..
theorem ocwait (h : Hdr) (o : Ops4) : Statement (.ocwait h o) := fun _ e => Option.some.inj e ▸ encR_hdr ..
theorem rvinit (h : Hdr) (o : Ops4) : Statement (.rvinit h o) := fun _ e => Option.some.inj e ▸ encR_hdr ..
theorem rvarr (h : Hdr) (o : Ops4) : Statement (.rvarr h o) := fun _ e => Option.some.inj e ▸ encR_hdr ..
theorem rvwait (h : Hdr) (o : Ops4) : Statement (.rvwait h o) := fun _ e => Option.some.inj e ▸ encR_hdr ..
theorem mbinit (h : Hdr) (o : Ops4) : Statement (.mbinit h o) := fun _ e => Option.some.inj e ▸ encR_hdr ..
theorem mbarr (h : Hdr) (o : Ops4) (m : SyMod) : Statement (.mbarr h o m) := fun _ e => Option.some.inj e ▸ encR_hdr ..
theorem mbwait (h : Hdr) (o : Ops4) : Statement (.mbwait h o) := fun _ e => Option.some.inj e ▸ encR_hdr ..
theorem hwait (h : Hdr) (o : Ops4) : Statement (.hwait h o) := fun _ e => Option.some.inj e ▸ encR_hdr ..
theorem htest (h : Hdr) (o : Ops4) : Statement (.htest h o) := fun _ e => Option.some.inj e ▸ encR_hdr ..
theorem hcancel (h : Hdr) (o : Ops4) : Statement (.hcancel h o) := fun _ e => Option.some.inj e ▸ encR_hdr ..
theorem hstat (h : Hdr) (o : Ops4) : Statement (.hstat h o) := fun _ e => Option.some.inj e ▸ encR_hdr ..
theorem hmov (h : Hdr) (o : Ops4) : Statement (.hmov h o) := fun _ e => Option.some.inj e ▸ encR_hdr ..
theorem tspawn (h : Hdr) (o : Ops4) (m : TspMod) : Statement (.tspawn h o m) := fun _ e => Option.some.inj e ▸ encR_hdr ..
theorem targ (h : Hdr) (o : Ops4) : Statement (.targ h o) := fun _ e => Option.some.inj e ▸ encR_hdr ..
theorem dlaunch (h : Hdr) (o : Ops4) (m : DlMod) : Statement (.dlaunch h o m) := fun _ e => Option.some.inj e ▸ encR_hdr ..
theorem copy (h : Hdr) (o : Ops4) (m : CpMod) : Statement (.copy h o m) := fun _ e => Option.some.inj e ▸ encR_hdr ..
theorem copyx (h : Hdr) (o : Ops4) (m : CpMod) : Statement (.copyx h o m) := fun _ e => Option.some.inj e ▸ encR_hdr ..
theorem mma (h : Hdr) (o : Ops4) (m : MmMod) : Statement (.mma h o m) := fun _ e => Option.some.inj e ▸ encR_hdr ..
theorem mmas (h : Hdr) (o : Ops4) (m : MmMod) : Statement (.mmas h o m) := fun _ e => Option.some.inj e ▸ encR_hdr ..
theorem mzero (h : Hdr) (o : Ops4) (m : MzMod) : Statement (.mzero h o m) := fun _ e => Option.some.inj e ▸ encR_hdr ..
theorem cfgload (h : Hdr) (o : Ops4) : Statement (.cfgload h o) := fun _ e => Option.some.inj e ▸ encR_hdr ..
theorem cfgrun (h : Hdr) (o : Ops4) (m : SlotMod) : Statement (.cfgrun h o m) := fun _ e => Option.some.inj e ▸ encR_hdr ..
theorem cfgrunRes (h : Hdr) (o : Ops4) (m : SlotMod) : Statement (.cfgrunRes h o m) := fun _ e => Option.some.inj e ▸ encR_hdr ..
theorem cfgdrain (h : Hdr) (o : Ops4) (m : SlotMod) : Statement (.cfgdrain h o m) := fun _ e => Option.some.inj e ▸ encR_hdr ..
theorem cfgevict (h : Hdr) (o : Ops4) : Statement (.cfgevict h o) := fun _ e => Option.some.inj e ▸ encR_hdr ..
theorem rblk (h : Hdr) (o : Ops4) : Statement (.rblk h o) := fun _ e => Option.some.inj e ▸ encR_hdr ..
theorem srreg (h : Hdr) (o : Ops2) (imm : BitVec 32) : Statement (.srreg h o imm) := fun _ e => Option.some.inj e ▸ encI_hdr ..
theorem swreg (h : Hdr) (o : Ops2) (imm : BitVec 32) : Statement (.swreg h o imm) := fun _ e => Option.some.inj e ▸ encI_hdr ..
theorem frec (h : Hdr) (o : Ops4) : Statement (.frec h o) := fun _ e => Option.some.inj e ▸ encR_hdr ..
theorem icinv (h : Hdr) (o : Ops4) : Statement (.icinv h o) := fun _ e => Option.some.inj e ▸ encR_hdr ..
theorem frtailWrite (ctx : Nat) (v : Word64) : Statement (.frtailWrite ctx v) := fun _ e => nomatch e
theorem covsizeWrite (ctx : Nat) (v : Word64) : Statement (.covsizeWrite ctx v) := fun _ e => nomatch e
theorem detctlWrite (ctx : Nat) (v : Word64) : Statement (.detctlWrite ctx v) := fun _ e => nomatch e
theorem feataccWrite (ctx n : Nat) (v : Word64) : Statement (.feataccWrite ctx n v) := fun _ e => nomatch e
theorem peerWindowWrite (ctx w : Nat) (v : Word64) : Statement (.peerWindowWrite ctx w v) := fun _ e => nomatch e
theorem watchdog (core slot pidx : Nat) : Statement (.watchdog core slot pidx) := fun _ e => nomatch e
theorem recordRelaunch (core : Nat) : Statement (.recordRelaunch core) := fun _ e => nomatch e
theorem loadDataArrival (core pseq : Nat) (r : Resp) : Statement (.loadDataArrival core pseq r) := fun _ e => nomatch e
theorem storePerformed (core ix : Nat) (r : Resp) : Statement (.storePerformed core ix r) := fun _ e => nomatch e
theorem flushComplete (core ix : Nat) : Statement (.flushComplete core ix) := fun _ e => nomatch e
theorem apertureWriteAck (core ix : Nat) : Statement (.apertureWriteAck core ix) := fun _ e => nomatch e
theorem thimbleVisit : Statement .thimbleVisit := fun _ e => nomatch e
theorem issueQuantumEnd (core slot : Nat) : Statement (.issueQuantumEnd core slot) := fun _ e => nomatch e
theorem serialPhase (ctx : Nat) : Statement (.serialPhase ctx) := fun _ e => nomatch e
theorem waveForm (core : Nat) : Statement (.waveForm core) := fun _ e => nomatch e
theorem gangPlace : Statement .gangPlace := fun _ e => nomatch e
theorem quireRetire (core key : Nat) : Statement (.quireRetire core key) := fun _ e => nomatch e
theorem gridRetire (ctx grid : Nat) : Statement (.gridRetire ctx grid) := fun _ e => nomatch e
theorem deviceQueueTake (ctx q : Nat) : Statement (.deviceQueueTake ctx q) := fun _ e => nomatch e
theorem hostDoorbell (fn ctx q : Nat) (tail : Word64) : Statement (.hostDoorbell fn ctx q tail) := fun _ e => nomatch e
theorem serialQueueRetire (ctx q : Nat) : Statement (.serialQueueRetire ctx q) := fun _ e => nomatch e
theorem pageFillComplete (ix : Nat) (r : Resp) : Statement (.pageFillComplete ix r) := fun _ e => nomatch e
theorem channelPeriod (stack pc : Nat) : Statement (.channelPeriod stack pc) := fun _ e => nomatch e
theorem refreshDue (stack pc bank : Nat) : Statement (.refreshDue stack pc bank) := fun _ e => nomatch e
theorem copyChunk (cluster : Nat) (r : Resp) : Statement (.copyChunk cluster r) := fun _ e => nomatch e
theorem copyComplete (cluster op : Nat) : Statement (.copyComplete cluster op) := fun _ e => nomatch e
theorem tileStep (cluster : Nat) (r : Resp) : Statement (.tileStep cluster r) := fun _ e => nomatch e
theorem mzeroExecute (cluster : Nat) : Statement (.mzeroExecute cluster) := fun _ e => nomatch e
theorem cfgloadPerform (stack : Nat) : Statement (.cfgloadPerform stack) := fun _ e => nomatch e
theorem cfgrunEnqueue (stack : Nat) : Statement (.cfgrunEnqueue stack) := fun _ e => nomatch e
theorem cfgdrainPerform (stack : Nat) : Statement (.cfgdrainPerform stack) := fun _ e => nomatch e
theorem cfgevictPerform (stack : Nat) : Statement (.cfgevictPerform stack) := fun _ e => nomatch e
theorem installRun (stack slot : Nat) : Statement (.installRun stack slot) := fun _ e => nomatch e
theorem tileFire (stack slot row col : Nat) : Statement (.tileFire stack slot row col) := fun _ e => nomatch e
theorem mBufferAccept (stack slot row col buf : Nat) : Statement (.mBufferAccept stack slot row col buf) := fun _ e => nomatch e
theorem mBufferEmit (stack slot row col buf : Nat) : Statement (.mBufferEmit stack slot row col buf) := fun _ e => nomatch e
theorem portReadIssue (stack slot row col : Nat) : Statement (.portReadIssue stack slot row col) := fun _ e => nomatch e
theorem portReadReturn (stack slot row col : Nat) : Statement (.portReadReturn stack slot row col) := fun _ e => nomatch e
theorem portWrite (stack slot row col : Nat) : Statement (.portWrite stack slot row col) := fun _ e => nomatch e
theorem portWriteAck (stack slot row col : Nat) : Statement (.portWriteAck stack slot row col) := fun _ e => nomatch e
theorem contextStep (stack slot : Nat) : Statement (.contextStep stack slot) := fun _ e => nomatch e
theorem runComplete (stack slot : Nat) : Statement (.runComplete stack slot) := fun _ e => nomatch e
theorem freezeEnd (stack slot : Nat) : Statement (.freezeEnd stack slot) := fun _ e => nomatch e
theorem drainSave (stack slot : Nat) : Statement (.drainSave stack slot) := fun _ e => nomatch e
theorem drainDone (stack slot : Nat) : Statement (.drainDone stack slot) := fun _ e => nomatch e
theorem drainTimeout (stack slot : Nat) : Statement (.drainTimeout stack slot) := fun _ e => nomatch e
theorem rblkMessage (m : RblkMsg) : Statement (.rblkMessage m) := fun _ e => nomatch e
theorem rblkAbort (ctx group k : Nat) : Statement (.rblkAbort ctx group k) := fun _ e => nomatch e
theorem peerRequest (r : PeerReq) : Statement (.peerRequest r) := fun _ e => nomatch e
theorem hostBar2Access (fn : Nat) (r : Bar2Req) : Statement (.hostBar2Access fn r) := fun _ e => nomatch e
theorem ctxDefine (fn ctx : Nat) : Statement (.ctxDefine fn ctx) := fun _ e => nomatch e
theorem ctxUndefine (fn ctx : Nat) : Statement (.ctxUndefine fn ctx) := fun _ e => nomatch e
theorem ctxActivate (fn ctx : Nat) : Statement (.ctxActivate fn ctx) := fun _ e => nomatch e
theorem ctxPreempt (fn ctx : Nat) : Statement (.ctxPreempt fn ctx) := fun _ e => nomatch e
theorem ctxKill (fn ctx : Nat) : Statement (.ctxKill fn ctx) := fun _ e => nomatch e
theorem ctxwrite (fn ctx : Nat) (sel : BitVec 32) (v : Word64) : Statement (.ctxwrite fn ctx sel v) := fun _ e => nomatch e
theorem qset (fn ctx q : Nat) (ring : Word64) (entries : Nat) (serial : Bool) (head : Word64) : Statement (.qset fn ctx q ring entries serial head) := fun _ e => nomatch e
theorem inval (fn ctx : Nat) (va : Word64) (len : Nat) : Statement (.inval fn ctx va len) := fun _ e => nomatch e
theorem unmap (fn ctx : Nat) (va : Word64) (len : Nat) (wipe : Bool) : Statement (.unmap fn ctx va len wipe) := fun _ e => nomatch e
theorem budget (fn stack : Nat) (pcs : BitVec 64) (vals : BudgetVals) : Statement (.budget fn stack pcs vals) := fun _ e => nomatch e
theorem partset (fn stack slot : Nat) (v : Word64) : Statement (.partset fn stack slot v) := fun _ e => nomatch e
theorem grpset (fn ctx group rank : Nat) (members : MemberList) : Statement (.grpset fn ctx group rank members) := fun _ e => nomatch e
theorem fnset (fn target first count : Nat) (haoff : Word64) : Statement (.fnset fn target first count haoff) := fun _ e => nomatch e
theorem lifecycle (fn : Nat) (target : LifeState) (auth : Bool) (svn : Nat) : Statement (.lifecycle fn target auth svn) := fun _ e => nomatch e
theorem attest (fn ctx : Nat) (nonce : List Byte) (va : Word64) : Statement (.attest fn ctx nonce va) := fun _ e => nomatch e
theorem deviceReset (rom image : List Byte) : Statement (.deviceReset rom image) := fun _ e => nomatch e
theorem powerLimit (lowered : Bool) : Statement (.powerLimit lowered) := fun _ e => nomatch e
theorem allBankRefreshEnd (stack pc : Nat) : Statement (.allBankRefreshEnd stack pc) := fun _ e => nomatch e
theorem cfgloadGranule (stack : Nat) : Statement (.cfgloadGranule stack) := fun _ e => nomatch e

end Sys2Proof.Laws.HeaderKept
end

