-- ==== Sys2Proof/Tests/Slice0.lean ====
section
/-!
SUPPORT. Tests/Slice0.lean: the model's own checks. Words written out from the manual's encodings and what they decode to;
terms that WellFormed refuses; single steps with results taken from the manual; and, for the statements, states and operands
that meet their hypotheses.
-/
namespace Sys2Proof.Tests
set_option Elab.async false
open Machine Claim

/-! ### States to test on -/

def hdr0 : Hdr := ⟨.always, 0, 0, false, 0⟩
def v (n : BitVec 8) : Operand := .v n false false
def s (n : BitVec 6) : Operand := .s n false false
def k (i : BitVec 12) : Operand := .imm i
def z : Operand := .zero
def here : Sel := ⟨0, 0, 0, 0, false⟩
def path0 : Path where
  idx := 0
  mask := BitVec.allOnes 128
  pc := 8
  nest := none
  rseq := 0
  passes := 0
  handler := false
  port := 0
  fault := none
  stalled := false
  wdog := none
  held := false
/-- The state of `State.boot`: one signature of one quire on core 0. -/
def base : State := State.reset.boot 0
/-- b with g as the one signature of core 0, its path 0 selected. -/
def mk (b : State) (g : Sig) : State :=
  { b with sel := some here, cores := AMap.set b.cores 0 { b.core 0 with sigs := [(0, g)] } }
/-- The environment of that selection. -/
def env (b : State) (g : Sig) (p : Path) : Env := ⟨mk b g, here, g, p, p.mask⟩
def sig (p : Path) : Sig := { bootSig with paths := [p] }
def E : Env := env base (sig path0) path0
def S : State := E.s

theorem mk_core (b : State) (g : Sig) : (mk b g).core 0 = { b.core 0 with sigs := [(0, g)] } := AMap.getD_set_self _ _ _ _
theorem mk_env (b : State) (g : Sig) (p : Path) (h : g.path? 0 = some p) : (mk b g).env = some (env b g p) := by
  have h2 : (mk b g).sig? here.core here.slot = some g := by
    simp [State.sig?, here, mk_core, AMap.get?]
  have h1 : (mk b g).sel = some here := rfl
  have h3 : g.path? here.pidx = some p := h
  unfold State.env
  rw [h1]
  dsimp only
  rw [h2]
  dsimp only
  rw [h3]
  rfl
/-- Such a state issues an instruction without a guard. -/
theorem issues (b : State) (g : Sig) (p : Path) (os : List Operand) (h : g.path? 0 = some p) (hm : p.mask ≠ 0)
    (ht : p.handler = true ∨ os.any Operand.isT = false) : Issues (mk b g) hdr0 os (env b g p) :=
  ⟨by rw [mk_env b g p h]; rfl, hm, ht⟩
theorem issuesE (os : List Operand) (ht : os.any Operand.isT = false) : Issues S hdr0 os E :=
  issues base (sig path0) path0 os rfl (by decide) (.inr ht)

/-! ### Hypotheses of the statements about arithmetic -/

/-- D v255, the last register of a budget of 256; A s63; B and C immediates of either sign. -/
def oR : Ops4 := ⟨v 255, s 63, k (-2048), k 2047⟩
def oR2 : Ops4 := ⟨v 255, .idx 3 0 false false, k 2047, z⟩
def oR1 : Ops4 := ⟨v 0, v 255, z, z⟩
/-- A signature whose k3 spans all 256 registers. -/
def gK : Sig := { sig path0 with k := Vector.replicate 4 (255, 256) }
def EK : Env := env base gK path0
theorem issuesK (os : List Operand) (ht : os.any Operand.isT = false) : Issues (mk base gK) hdr0 os EK :=
  issues base gK path0 os rfl (by decide) (.inr ht)

theorem test_hyps_three_sources : Issues S hdr0 oR.list E ∧ E.ops4Ok oR dstPos srcPos srcPos srcPos = true ∧
    E.indexFault [(oR.d, false), (oR.a, false), (oR.b, false), (oR.c, false)] = none :=
  ⟨issuesE _ (by decide), by decide, by decide⟩
theorem test_hyps_two_sources : Issues (mk base gK) hdr0 oR2.list EK ∧ EK.ops4Ok oR2 dstPos srcPos srcPos unused = true ∧
    EK.indexFault [(oR2.d, false), (oR2.a, false), (oR2.b, false)] = none := ⟨issuesK _ (by decide), by decide, by decide⟩
theorem test_hyps_one_source : Issues S hdr0 oR1.list E ∧ E.ops4Ok oR1 dstPos srcPos unused unused = true ∧
    E.indexFault [(oR1.d, false), (oR1.a, false)] = none ∧ Ty.n64.shape.2 = 1 := ⟨issuesE _ (by decide), by decide, by decide, rfl⟩
/-- LOP3, LEA and IDIV: C is a control value. -/
theorem test_hyps_control : Issues S hdr0 (⟨v 255, s 63, v 254, k 255⟩ : Ops4).list E ∧
    E.ops4Ok ⟨v 255, s 63, v 254, k 255⟩ dstPos srcPos srcPos ctlPos = true ∧
    E.indexFault [(v 255, false), (s 63, false), (v 254, false)] = none := ⟨issuesE _ (by decide), by decide, by decide⟩
/-- ICMP, with the last condition; CVTI from n64. -/
theorem test_hyps_icmp_cvti : Issues S hdr0 (⟨.p 7, s 63, v 255, k 5⟩ : Ops4).list E ∧
    E.ops4Ok ⟨.p 7, s 63, v 255, k 5⟩ { kinds := [.p] } srcPos srcPos ctlPos = true ∧ ctlNo (k 5) ≤ 5 ∧
    E.indexFault [(s 63, false), (v 255, false)] = none ∧
    Issues S hdr0 (⟨v 255, s 63, k 11, z⟩ : Ops4).list E ∧ E.ops4Ok ⟨v 255, s 63, k 11, z⟩ dstPos srcPos ctlPos unused = true ∧
    E.indexFault [(v 255, false), (s 63, false)] = none :=
  ⟨issuesE _ (by decide), by decide, by decide, by decide, issuesE _ (by decide), by decide, by decide⟩

/-- FPCTL is RNE after creation, so that DYN has a mode; with FPCTL 4 it is the last one. -/
theorem test_hyps_dyn : RmOk E true ∧ RmOk (env (base.setReg 1 rFPCTL 4) (sig path0) path0) true :=
  ⟨fun _ => by decide, fun _ => by decide⟩
theorem test_hyps_float : ∀ o ∈ ([⟨v 255, .v 1 true true, z, z⟩, ⟨v 255, .v 1 true true, .s 63 true false, z⟩,
      ⟨v 255, .v 1 true true, .s 63 true false, .v 254 false true⟩] : List Ops4),
    Issues S hdr0 o.list E ∧ E.indexFault [(o.d, false), (o.a, false), (o.b, false), (o.c, false)] = none ∧
    (E.ops4Ok o dstPos fpPos unused unused || E.ops4Ok o dstPos fpPos fpPos unused || E.ops4Ok o dstPos fpPos fpPos fpPos) = true := by
  intro o h
  simp only [List.mem_cons, List.not_mem_nil, or_false] at h
  rcases h with rfl | rfl | rfl <;> exact ⟨issuesE _ (by decide), by decide, by decide⟩
theorem test_hyps_fscale : Issues S hdr0 (⟨v 255, .v 1 true true, k (-2048), z⟩ : Ops4).list E ∧
    E.ops4Ok ⟨v 255, .v 1 true true, k (-2048), z⟩ dstPos fpPos srcPos unused = true := ⟨issuesE _ (by decide), by decide⟩
/-- FCMP with the last condition, and both forms of FCLASS. -/
theorem test_hyps_fcmp_fclass : Issues S hdr0 (⟨.p 0, .v 0 true false, .v 255 false true, k 6⟩ : Ops4).list E ∧
    E.ops4Ok ⟨.p 0, .v 0 true false, .v 255 false true, k 6⟩ { kinds := [.p] } fpPos fpPos ctlPos = true ∧ ctlNo (k 6) ≤ 6 ∧
    E.ops4Ok ⟨v 0, v 255, z, z⟩ dstPos fpPos unused unused = true ∧ (Operand.p 7).isP = true ∧
    E.ops4Ok ⟨.p 7, v 255, z, k 1023⟩ { kinds := [.p] } fpPos unused ctlPos = true ∧ Ty.bf16 ∈ [Ty.f64, .f32, .f16, .bf16] :=
  ⟨issuesE _ (by decide), by decide, by decide, by decide, rfl, by decide, by decide⟩

/-- CVTF, PACK from f32x2, UNPACK and DEQ into the pair v254 and v255, QBLK into Q4N. -/
theorem test_hyps_conversions :
    E.ops4Ok ⟨v 255, s 63, k 1, z⟩ dstPos { kinds := [.v, .s, .idx, .imm, .zero], fp := (srcTy (k 1)).isFloat } ctlPos unused = true ∧
    E.ops4Ok ⟨v 255, v 0, v 1, k 0x15⟩ dstPos fpPos fpPos ctlPos = true ∧
    E.ops4Ok ⟨v 254, v 0, z, k 0x15⟩ { kinds := [.v, .idx], pair := true } srcPos unused ctlPos = true ∧
    E.ops4Ok ⟨v 254, v 0, v 1, k 0x0E⟩ { kinds := [.v, .idx], pair := true } srcPos srcPos ctlPos = true ∧
    E.ops4Ok ⟨v 255, v 0, v 1, k 0x0E⟩ dstPos fpPos srcPos ctlPos = true ∧ fgFmt (k 0x0E) = 14 ∧
    (∀ b ∈ blockFeats 14, E.s.feat E.sig.ctx b = true) ∧ (∀ b ∈ blockFeats 5, E.s.feat E.sig.ctx b = true) ∧
    Issues S hdr0 [v 254, v 0, v 1, k 0x0E] E ∧ E.indexFault [(v 254, true), (v 0, false), (v 1, false)] = none :=
  ⟨by decide, by decide, by decide, by decide, by decide, by decide, by decide, by decide, issuesE _ (by decide), by decide⟩

/-! ### Hypotheses of the statements about intervals -/

/-- Interval operands: of iv32 in single registers, of iv64 in even pairs, the last one v254. -/
theorem test_hyps_intervals : Issues S hdr0 [v 254, v 0, v 2, v 4] E ∧ E.s.feat E.sig.ctx 0 = true ∧
    E.ops4Ok ⟨v 254, v 0, z, z⟩ (ivDst .iv64) (ivPos .iv64) unused unused = true ∧
    E.ops4Ok ⟨v 255, v 0, v 2, z⟩ (ivDst .iv32) (ivPos .iv32) (ivPos .iv32) unused = true ∧
    E.ops4Ok ⟨v 254, v 0, v 2, v 4⟩ (ivDst .iv64) (ivPos .iv64) (ivPos .iv64) (ivPos .iv64) = true ∧
    E.ops4Ok ⟨v 255, v 0, z, z⟩ { kinds := [.v, .idx] } (ivPos .iv64) unused unused = true ∧
    E.indexFault [(v 254, true), (v 0, true), (v 2, true), (v 4, true)] = none :=
  ⟨issuesE _ (by decide), by decide, by decide, by decide, by decide, by decide, by decide⟩
theorem test_hyps_interval_forms :
    E.ops4Ok ⟨v 254, v 0, v 1, k 1⟩ (ivDst .iv64) (ptPos .iv64) (ptPos .iv64) ctlPos = true ∧ ctlNo (k 1) ≤ 1 ∧
    E.ops4Ok ⟨v 254, v 0, z, k 2⟩ (ivDst .iv64) (ivPos (otherIv .iv64)) unused ctlPos = true ∧
    E.ops4Ok ⟨v 255, v 0, z, k 2⟩ { kinds := [.v, .idx] } (ivPos .iv64) unused ctlPos = true ∧
    E.ops4Ok ⟨.p 7, v 0, z, k 3⟩ { kinds := [.p] } (ivPos .iv64) unused ctlPos = true ∧
    E.ops4Ok ⟨v 254, v 0, v 2, k 1⟩ (ivDst .iv64) (ivPos .iv64) (ivPos .iv64) ctlPos = true ∧
    E.ops4Ok ⟨.p 7, v 0, v 2, k 6⟩ { kinds := [.p] } (ivPos .iv64) (ivPos .iv64) ctlPos = true ∧
    E.ops4Ok ⟨.p 7, v 0, v 1, k 5⟩ { kinds := [.p] } (ivPos .iv64) (ptPos .iv64) ctlPos = true ∧
    Issues S hdr0 [.p 7, v 0, v 1, k 5] E :=
  ⟨by decide, by decide, by decide, by decide, by decide, by decide, by decide, by decide, issuesE _ (by decide)⟩
/-! ### Hypotheses of the statements about lanes, predicates, registers and branches -/

/-- The whole signature as the segment, and quarters. -/
def mx (w : Bool) (sel : BitVec 2) (ty : BitVec 4) (op : BitVec 3) : XMod := ⟨w, sel, ty, op⟩
theorem test_hyps_crosslane : Issues S hdr0 [v 255, s 63, k (-1), z] E ∧
    E.ops4Ok ⟨v 255, s 63, k (-1), z⟩ vPos vsPos { kinds := [.v, .s, .imm] } { kinds := [.v, .s, .imm, .zero] } = true ∧
    E.ops4Ok ⟨.p 7, .p 0, z, z⟩ pPos pPos unused unused = true ∧ (mx true 1 0 0).sel.toNat ≤ 1 ∧
    E.ops4Ok ⟨.p 7, s 63, z, z⟩ pPos vsPos unused unused = true ∧ (mx true 2 11 0).sel.toNat = 2 ∧
    E.ops4Ok ⟨v 255, .p 7, z, z⟩ vPos pPos unused unused = true ∧ (mx true 3 0 2).sel.toNat = 3 ∧
    E.ops4Ok ⟨s 62, .p 7, z, z⟩ { kinds := [.s] } pPos unused unused = true ∧ (62 : BitVec 6).toNat % 2 = 0 ∧
    E.ops4Ok ⟨s 63, v 255, z, z⟩ (segPos (mx false 0 8 5)) vsPos unused unused = true ∧
    E.ops4Ok ⟨v 255, v 0, z, z⟩ vPos vsPos unused unused = true ∧ 0 < (mx false 2 9 0).sel.toNat ∧
    E.ops4Ok ⟨s 63, .p 7, z, z⟩ (segPos (mx false 2 0 0)) pPos unused unused = true :=
  ⟨issuesE _ (by decide), by decide, by decide, by decide, by decide, by decide, by decide, by decide, by decide, by decide,
    by decide, by decide, by decide, by decide⟩
theorem test_hyps_fredux : Issues S hdr0 [s 63, .v 255 true true, z, z] E ∧ E.s.feat E.sig.ctx 0 = true ∧
    E.ops4Ok ⟨s 63, .v 255 true true, z, z⟩ (segPos (mx false 0 1 7)) { kinds := [.v, .s], fp := true } unused unused = true ∧
    (mx false 0 1 7).ty ≠ 6 := ⟨issuesE _ (by decide), by decide, by decide, by decide⟩
theorem test_hyps_predicates : Issues S hdr0 [.p 7, .p 0, .p 6, z] E ∧
    E.ops4Ok ⟨.p 7, .p 0, .p 6, z⟩ pPos pPos pPos unused = true ∧ E.ops4Ok ⟨.p 7, .p 0, z, z⟩ pPos pPos unused unused = true ∧
    E.ops4Ok ⟨.p 7, k (-2048), z, z⟩ pPos { kinds := [.v, .s, .imm] } unused unused = true ∧
    E.ops4Ok ⟨.p 7, z, z, z⟩ pPos unused unused unused = true ∧
    E.ops4Ok ⟨.p 7, s 62, z, z⟩ pPos { kinds := [.s] } unused unused = true ∧
    E.ops4Ok ⟨.p 7, v 255, z, z⟩ pPos vPos unused unused = true ∧ (v 255).isP = false ∧
    E.ops4Ok ⟨v 255, .p 7, z, z⟩ vPos pPos unused unused = true :=
  ⟨issuesE _ (by decide), by decide, by decide, by decide, by decide, by decide, by decide, by decide, by decide⟩
/-- MOV to h15, s63, v255 and the pair v254; SEL and its pair; MOVI to s63 and v255. -/
theorem test_hyps_moves : Issues S hdr0 [.h 15, .h 0, z, z] E ∧
    E.ops4Ok ⟨.h 15, .h 0, z, z⟩ { kinds := [.h] } { kinds := [.h, .zero] } unused unused = true ∧
    E.ops4Ok ⟨s 63, k (-1), z, z⟩ { kinds := [.s] } { kinds := [.s, .imm, .zero] } unused unused = true ∧
    E.ops4Ok ⟨v 254, v 0, z, z⟩ { kinds := [.v, .idx], pair := true } { kinds := [.v, .idx], pair := true } unused unused = true ∧
    E.ops4Ok ⟨v 255, s 63, k 2047, z⟩ { kinds := [.v, .idx] } srcPos srcPos srcPos = true ∧
    E.indexFault [(v 254, true), (v 0, true), (v 2, true), (v 4, true)] = none ∧
    E.ops2Ok ⟨s 63, z⟩ { kinds := [.v, .s] } unused = true ∧ E.ops2Ok ⟨v 255, z⟩ { kinds := [.v, .s] } unused = true ∧
    Operand.kindS (v 255) = false :=
  ⟨issuesE _ (by decide), by decide, by decide, by decide, by decide, by decide, by decide, by decide, by decide⟩
/-- SREAD of the first, the last and the cycle register. -/
theorem test_hyps_sread : Issues S hdr0 [s 63, .sr 0x1B, z, z] E ∧ E.s.det E.sig.ctx = false ∧
    E.ops4Ok ⟨v 255, .sr 0, z, z⟩ { kinds := [.v] } { kinds := [.sr] } unused unused = true ∧
    E.ops4Ok ⟨s 63, .sr 0x1B, z, z⟩ { kinds := [.v, .s] } { kinds := [.sr] } unused unused = true ∧
    E.ops4Ok ⟨s 63, .sr 0x11, z, z⟩ { kinds := [.v, .s] } { kinds := [.sr] } unused unused = true :=
  ⟨issuesE _ (by decide), by decide, by decide, by decide, by decide⟩

/-- RGN, LIVE at B and above it, SETK at B and above it. -/
theorem test_hyps_bounds : Issues S hdr0 [z, s 63, z, z] E ∧
    E.ops4Ok ⟨z, s 63, z, z⟩ unused { kinds := [.s, .zero] } unused unused = true ∧ E.ops2Ok ⟨z, z⟩ unused unused = true ∧
    (256 : BitVec 32).toNat ≤ E.sig.B ∧ E.sig.B < (257 : BitVec 32).toNat ∧
    E.ops4Ok ⟨z, k 256, k 256, z⟩ unused { kinds := [.s, .imm, .zero] } { kinds := [.s, .imm, .zero] } unused = true ∧
    (E.uni (k 256)).toNat ≤ (E.uni (k 256)).toNat ∧ (E.uni (k 256)).toNat ≤ E.sig.B ∧ (E.uni (k 0)).toNat < (E.uni (k 1)).toNat ∧
    E.sig.B < (E.uni (k 257)).toNat :=
  ⟨issuesE _ (by decide), by decide, by decide, by decide, by decide, by decide, by decide, by decide, by decide, by decide⟩
/-- QUOTA: 31 units given to leave the least budget of 8; taken by a signature of 8 with 248 spare; none spare; and in a
task wave, which has no quire. -/
def gLow : Sig := { sig path0 with B := 8, LB := 8 }
def bSpare (n : Nat) : State := base.modQuire 0 0 fun q => { q with spare := n }
theorem test_hyps_quota : Issues S hdr0 [z, k 31, z, z] E ∧ Turn E ∧
    E.ops4Ok ⟨z, k 31, z, z⟩ unused { kinds := [.s, .imm] } unused unused = true ∧ E.sig.quire = some 0 ∧
    8 * (E.uni (k 31)).toNat + 8 ≤ E.sig.B ∧ (E.uni (k 0)).toNat < 1 ∧ 31 < (E.uni (k 32)).toNat ∧
    (let e := env (bSpare 248) gLow path0
     e.quire.map (·.spare) = some 248 ∧ e.sig.B + 8 * (e.uni (k 31)).toNat ≤ 256 ∧ e.quire.map (e.s.takes 0) = some []) ∧
    (let e := env (bSpare 247) gLow path0
     e.quire.map (·.spare) = some 247 ∧ (e.part e.s { reason := 0x0F, evkey := 0, evaux := 248, resume := e.next, wait := .take 248 }).isOk = true) ∧
    ({ sig path0 with quire := none }).quire = none :=
  ⟨issuesE _ (by decide), .inl (by decide), by decide, rfl, by decide, by decide, by decide,
    ⟨by decide, by decide, by decide⟩, ⟨by decide, by decide⟩, rfl⟩

/-! ### Branches -/

/-- At PC 8, slot 0, in the first line: an offset of 2^20 - 1 lies inside the address space, one of -1 outside. -/
theorem test_hyps_branches : Issues S hdr0 [z, z] E ∧ E.ops2Ok ⟨z, z⟩ unused unused = true ∧
    E.ops2Ok ⟨s 63, z⟩ { kinds := [.s] } unused = true ∧ E.ops2Ok ⟨z, .p 7⟩ unused { kinds := [.p] } = true ∧
    (slotOf E.path.pc : Int) + (0xFFFFF : BitVec 21).toInt < 2 ^ 47 * 10 ∧ (slotOf E.path.pc : Int) + (0x1FFFFF : BitVec 21).toInt = -1 ∧
    E.sig.sreg 63 - 1 ≠ 0 ∧ ({ sig path0 with s := (sig path0).s.set 63 1 } : Sig).sreg 63 - 1 = 0 :=
  ⟨issuesE _ (by decide), by decide, by decide, by decide, by decide, by decide, by decide, by decide⟩
/-- Lanes that take each arm of BTRI: none is undecided, all are false, where every predicate is false. -/
theorem test_hyps_btri : (∀ l : Lane, (0 : Mask).getLsbD l.val = (E.act.getLsbD l.val && (E.sig.preg 7)[l] == .t)) ∧
    (∀ l : Lane, (0 : Mask).getLsbD l.val = (E.act.getLsbD l.val && (E.sig.preg 7)[l] == .u)) := by
  constructor <;> decide
theorem test_hyps_brx : Issues S hdr0 [z, s 63, z, z] E ∧ E.ops4Ok ⟨z, s 63, z, z⟩ unused { kinds := [.s] } unused unused = true ∧
    E.ops4Ok ⟨z, v 255, z, z⟩ unused { kinds := [.v] } unused unused = true ∧ lowest E.act = some 0 ∧
    pcValid (E.sig.sreg 63) = false ∧ pcValid (BitVec.ofNat 64 (2 ^ 54 - 12)) = true ∧
    (∀ j : Lane, E.act.getLsbD j.val = (E.act.getLsbD j.val && (E.sig.reg 255)[j] == (E.sig.reg 255)[(0 : Lane)])) :=
  ⟨issuesE _ (by decide), by decide, by decide, by decide, by decide, by decide, by decide⟩
/-- Two and three arms, in an undivided and in a divided signature. -/
def arms3 : List Arm := [⟨0, 1, 20⟩, ⟨1, 2, 32⟩, ⟨2, 4, 44⟩]
def gOpen : Sig := (sig path0).split path0 arms3
theorem test_hyps_split : 2 ≤ arms3.length ∧ arms3.length ≤ 3 ∧ (sig path0).stack = [] ∧ (sig path0).paths = [path0] ∧
    gOpen.stack ≠ [] ∧ gOpen.paths.length = 2 := by decide
/-- JOIN with no nest; in a nest with other arms left; as the last arm. -/
def pNest (n : Nat) : Path := { path0 with nest := some n }
def gNest (count : Nat) : Sig := { sig (pNest 0) with
  stack := [{ join := true, id := 0, nest := 0, mask := BitVec.allOnes 128, orig := BitVec.allOnes 128, pc := 0, count := count, pidx := 0,
              parent := none, byHandler := true }] }
theorem test_hyps_join : Issues S hdr0 [z, z, z, z] E ∧ E.ops4Ok ⟨z, z, z, z⟩ unused unused unused unused = true ∧ E.path.nest = none ∧
    (∀ c, ((gNest c).stack.find? (fun x => x.join && x.id == 0)).map (·.count) = some c) ∧
    (∀ c, ∀ x ∈ (gNest c).stack, x.join = false → x.nest ≠ 0) ∧ (gNest 2).path? 0 = some (pNest 0) ∧
    (E.part E.s { reason := 0x0C, evkey := 0, resume := E.next, wait := .none, ready := true }).isOk = true ∧
    E.path.mask &&& ~~~E.act = 0 ∧ E.s.claspsOf E.sig.uid = [] ∧ E.path.mask &&& ~~~(1 : Mask) ≠ 0 := by
  refine ⟨issuesE _ (by decide), by decide, rfl, fun _ => rfl, ?_, rfl, by decide, by decide, by decide, by decide⟩
  intro c x hx
  simp only [gNest, List.mem_cons, List.not_mem_nil, or_false] at hx
  subst hx; simp
/-- TRAP and BPT; TRET in a handler at a valid PC and at one that is none, with a nest open, and outside a handler. -/
def pTrap : Path := { path0 with handler := true }
def bTrap (pc : Word64) : State := base.modCore 0 fun c => c.modPort 0 fun p => { p with handler := some (0, 0), t := [(1, rowOf pc)] }
theorem test_hyps_traps : E.ops2Ok ⟨z, z⟩ unused unused = true ∧ E.ops4Ok ⟨z, k (-2048), z, z⟩ unused { kinds := [.zero, .imm] } unused unused = true ∧
    Issues S hdr0 [z, z, z, z] E ∧ E.path.handler = false ∧
    Issues (mk (bTrap 8) (sig pTrap)) hdr0 [z, z, z, z] (env (bTrap 8) (sig pTrap) pTrap) ∧
    (env (bTrap 8) (sig pTrap) pTrap).handlerNest = false ∧
    pcValid (((env (bTrap 8) (sig pTrap) pTrap).port.treg 1)[(0 : Lane)]) = true ∧
    pcValid (((env (bTrap 9) (sig pTrap) pTrap).port.treg 1)[(0 : Lane)]) = false ∧
    lowest (env (bTrap 8) (sig pTrap) pTrap).path.mask = some 0 ∧
    (env (bTrap 8) (gNest 1) { pNest 0 with handler := true }).handlerNest = true ∧
    (∀ m : Mask, m = 0 → ∀ j : Lane, m.getLsbD j.val = ((env (bTrap 8) (sig pTrap) pTrap).port.treg 3)[j].getLsbD 0) :=
  ⟨by decide, by decide, issuesE _ (by decide), rfl, issues _ _ _ _ rfl (by decide) (.inl rfl), by decide, by decide, by decide, by decide, by decide,
    by rintro m rfl; decide⟩

/-! ### Hypotheses of the statements about local memory, streams and global accesses -/

/-- A grid with a task table at 0x10000 and the SYNC page 0x40000, a second quire of the gang on core 1. -/
def grid1 : Grid := { bootGrid with blk := { bootGrid.blk with tasktab := 0x10000, gang := 2, syncpg := 0x40000 :: List.replicate 7 0 } }
/-- Page 1 is a SYNC page at frame 0x80000, page 2 is away (backing descriptor 0); TOVSIZE has room for no task. -/
def bPages : State :=
  let b := { base with hbm := Mem.writeN (Mem.writeN base.hbm 0x4008 (bytesOfNat 8 0x800B7)) 0x4010 (bytesOfNat 8 0x33) }
  b.modCtx 1 fun c => { c with grids := [(1, grid1)] }
/-- Two lanes; s1 points to the SYNC page, s2 to the page that is away, s3 to one that no entry maps. -/
def pathA : Path := { path0 with mask := 3 }
def gAddr : Sig := { sig pathA with s := (((sig path0).s.set 1 0x40000).set 2 0x80000).set 3 0xC0000 }
def EA : Env := env bPages gAddr pathA
theorem issuesA (os : List Operand) (ht : os.any Operand.isT = false) : Issues (mk bPages gAddr) hdr0 os EA :=
  issues bPages gAddr pathA os rfl (by decide) (.inr ht)

/-- IVBISECT where every lane of v2 splits, with room and without, and where none does. -/
def gBisect (x : Word64) : Sig := { gAddr with LB := 8, v := [(2, rowOf x)] }
def oBisect : Ops4 := ⟨v 2, .p 3, k 5, z⟩
theorem test_hyps_bisect : (env bPages (gBisect 0x400000003F800000) pathA).bisect oBisect .iv32 = .ok 3 ∧
    (env bPages (gBisect 0x3F8000003F800000) pathA).bisect oBisect .iv32 = .ok 0 ∧
    Issues (mk bPages (gBisect 0x400000003F800000)) hdr0 oBisect.list (env bPages (gBisect 0x400000003F800000) pathA) ∧
    (env bPages (gBisect 0x400000003F800000) pathA).ops4Ok oBisect (ivDst .iv32) { kinds := [.p] } { kinds := [.v, .s, .imm] } unused = true ∧
    (mk bPages gAddr).taskRoom 1 0 128 = true ∧ (mk bPages gAddr).taskRoom 1 0 4097 = false ∧ Turn EA ∧
    EA.s.feat EA.sig.ctx 7 = true ∧ Operand.isT oBisect.d = false :=
  ⟨by decide +kernel, by decide +kernel, issues _ _ _ _ rfl (by decide) (.inr (by decide)), by decide, by decide, by decide, .inl (by decide),
    by decide, by decide⟩

/-- Local accesses of 16 bytes at the end of the 256 KiB of LM: aligned and inside; one byte off; 16 bytes further. -/
def gLocal (x : Word64) : Sig := { sig path0 with s := (sig path0).s.set 4 x }
def o2 (d a : Operand) : Ops2 := ⟨d, a⟩
def wideL : LMod := ⟨0, 4, false⟩
theorem test_hyps_local : Issues (mk base (gLocal 0x3FFF0)) hdr0 (o2 (v 254) (s 4)).list (env base (gLocal 0x3FFF0) path0) ∧
    wideL.size.toNat ≤ 4 ∧
    (env base (gLocal 0x3FFF0) path0).ops2Ok (o2 (v 254) (s 4)) { kinds := [.v, .idx], pair := true } { kinds := [.v, .s, .zero] } = true ∧
    (env base (gLocal 0x3FFF0) path0).ops2Ok (o2 (v 254) (s 4)) { kinds := [.v, .idx, .zero], pair := true } { kinds := [.v, .s, .zero] } = true ∧
    (env base (gLocal 0x3FFF0) path0).indexFault [(v 254, true)] = none ∧ (mk base (gLocal 0x3FFF0)).memOk = true ∧
    ((∀ l : Lane, (addrI (env base (gLocal 0x3FFF0) path0) (o2 (v 254) (s 4)) 0 l).toNat % 16 = 0 ∧
      (addrI (env base (gLocal 0x3FFF0) path0) (o2 (v 254) (s 4)) 0 l).toNat + 16 ≤ ((env base (gLocal 0x3FFF0) path0).reserved 0).2) ∧
     ¬ (addrI (env base (gLocal 0x3FFF0) path0) (o2 (v 254) (s 4)) 1 0).toNat % 16 = 0 ∧
     ¬ (addrI (env base (gLocal 0x3FFF0) path0) (o2 (v 254) (s 4)) 16 0).toNat + 16 ≤ ((env base (gLocal 0x3FFF0) path0).reserved 0).2) :=
  ⟨issues _ _ _ _ rfl (by decide) (.inr (by decide)), by decide, by decide, by decide, by decide, by decide, by decide, by decide, by decide⟩
theorem test_hyps_atoml : E.ops4Ok ⟨v 255, v 0, s 63, z⟩ { kinds := [.v, .idx, .zero] } { kinds := [.v, .s, .zero] }
      { kinds := [.v, .s, .idx, .imm, .zero], fp := true } unused = true ∧
    E.ops4Ok ⟨z, v 0, s 63, k 2047⟩ { kinds := [.v, .idx, .zero] } { kinds := [.v, .s, .zero] }
      { kinds := [.v, .s, .idx, .imm, .zero], fp := false } srcPos = true ∧
    E.indexFault [(v 255, false), (s 63, false), (z, false)] = none ∧ Issues S hdr0 [v 255, v 0, s 63, z] E ∧
    (∀ l : Lane, ((E.raw (v 0))[l]).toNat % 8 = 0 ∧ ((E.raw (v 0))[l]).toNat + 8 ≤ (E.reserved 0).2) :=
  ⟨by decide, by decide, by decide, issuesE _ (by decide), by decide⟩

/-- A gang of two quires: quire 1 on core 1 has n entries from quire 0, and quire 0 has n from it. -/
def quire (pos n : Nat) : Quire := { bootQuire with gsize := 2, pos := pos, ix := pos, first := 0, slots := [0], fifos := [(1 - pos, List.replicate n rowZero)] }
def bGang (n : Nat) : State :=
  { bPages with cores := [(0, { Core.init with ctx := some 1, quires := [(0, quire 0 n)] }), (1, { Core.init with ctx := some 1, quires := [(0, quire 1 n)], sigs := [(0, bootSig)] })] }
def EG (n : Nat) : Env := env (bGang n) (sig path0) path0
theorem test_hyps_streams : (EG 3).ops4Ok ⟨z, s 63, k 1, z⟩ unused srcPos { kinds := [.imm, .s] } unused = true ∧
    (EG 3).ops4Ok ⟨v 255, k 1, z, z⟩ dstPos { kinds := [.imm, .s] } unused unused = true ∧
    (EG 3).quire.map (·.pos) = some 0 ∧ (EG 3).quire.map (fun q => (EG 3).s.mate 1 q 1) = some (some (1, 0)) ∧
    (EG 3).streamWaits 1 0 = false ∧ ((EG 4).s.quire? 1 0).map (fun r => (AMap.getD r.fifos 0 []).length) = some 4 ∧
    (EG 0).quire.map (fun q => AMap.getD q.fifos 1 []) = some [] ∧
    ((EG 4).part (EG 4).s { reason := 0x0A, evkey := 1, resume := 20, wait := .push rowZero }).isOk = true ∧
    11 < ((EG 0).uni (k 12)).toNat ∧ E.quire.map (·.gsize) = some 1 ∧ Issues (mk (bGang 3) (sig path0)) hdr0 [z, s 63, k 1, z] (EG 3) :=
  ⟨by decide, by decide, by decide, by decide, by decide, by decide, by decide, by decide, by decide, by decide,
    issues _ _ _ _ rfl (by decide) (.inr (by decide))⟩

/-- The checks of an access: all passed at 0; MISALIGN at 1; outside the space; unmapped; not executable; away. -/
def want (va : Word64) (n : Nat) : Want := ⟨0, va, n⟩
theorem test_hyps_access : EA.s.reach 1 { r := true } anyPage [want 0 16] = .ok [.hbm 0x40000] ∧
    EA.s.placeOf 1 0x40000 = some (.hbm 0x40000) ∧
    ¬ (want 1 16).va.toNat % 16 = 0 ∧ ¬ (want (BitVec.ofNat 64 (2 ^ 54)) 16).va.toNat + 16 ≤ 2 ^ 54 ∧
    EA.s.walk 1 0xC0000 = none ∧ (EA.s.walk 1 0x40000).map (fun l => (l.x, l.res)) = some (false, true) ∧
    (EA.s.walk 1 0x80000).map (fun l => (l.r, l.res)) = some (true, false) := by decide

def half : GMod := ⟨4, false, true, 0⟩
theorem test_hyps_loads : EA.ops2Ok ⟨v 254, z⟩ { kinds := [.v, .idx], pair := true } { kinds := [.v, .s, .zero] } = true ∧
    EA.ops2Ok ⟨v 254, s 0⟩ { kinds := [.v, .idx], pair := true } { kinds := [.v, .s] } = true ∧
    EA.ops2Ok ⟨v 254, z⟩ { kinds := [.v, .idx, .zero], pair := true } { kinds := [.v, .s, .zero] } = true ∧
    EA.ops2Ok ⟨v 255, z⟩ { kinds := [.v, .idx] } { kinds := [.v, .s, .zero] } = true ∧
    EA.ops2Ok ⟨s 63, z⟩ { kinds := [.v, .s, .idx, .zero] } { kinds := [.v, .s, .zero] } = true ∧
    EA.indexFault [(v 254, true)] = none ∧ EA.s.det EA.sig.ctx = false ∧ EA.sel.serial = false ∧ EA.s.feat EA.sig.ctx 0 = true ∧
    EA.core.outst + 128 < 2 ^ 32 ∧ Issues (mk bPages gAddr) hdr0 [v 254, z] EA ∧
    EA.s.reach 1 { r := true } anyPage (wants EA (addrI EA ⟨v 254, z⟩ 0) 16) = .ok (List.replicate 2 (.hbm 0x40000)) ∧
    EA.s.reach 1 { w := true, noHost := true, noPeer := true } anyPage (wants EA (addrI EA ⟨s 63, z⟩ 8) 8) =
      .ok (List.replicate 2 (.hbm 0x40008)) ∧ (∀ p ∈ List.replicate 2 (Place.hbm 0x40000), p.isPeer = false) ∧
    (EA.part EA.s { reason := 0x01, evkey := 0, resume := 20, wait := .none }).isOk = true :=
  ⟨by decide, by decide, by decide, by decide, by decide, by decide, by decide, by decide, by decide, by decide,
    issuesA _ (by decide), by decide +kernel, by decide +kernel, fun _ h => by rw [List.eq_of_mem_replicate h]; rfl, by decide⟩
/-- In deterministic mode a load and a store part with their accesses held back. -/
def ED : Env := env (bPages.setReg 1 0x15 (1 + 256 * 2 ^ 16)) gAddr pathA
def heldAccess : List Access := [⟨0, 8, .hbm 0x40008, 8, .read, none⟩]
theorem test_hyps_held : ED.s.det ED.sig.ctx = true ∧
    (ED.part ED.s { loadPart ED (v 255) false false false true (fun _ => 8) heldAccess with late := heldAccess }).isOk = true ∧
    (ED.part ED.s { reason := 0x02, evkey := 8, resume := ED.next, wait := .scStore 1, late := heldAccess }).isOk = true := by decide +kernel
/-- The outstanding counter one short of its end. -/
theorem test_hyps_outstanding : 2 ^ 32 ≤ (env (bPages.modCore 0 fun c => { c with outst := 2 ^ 32 - 1 }) gAddr pathA).core.outst + 1 := by decide
theorem test_hyps_atomics : EA.ops4Ok ⟨v 255, s 0, k (-1), z⟩ { kinds := [.v, .idx, .zero] } { kinds := [.v, .s] }
      { kinds := [.v, .s, .idx, .imm, .zero], fp := false } unused = true ∧
    EA.ops4Ok ⟨z, s 0, .v 255 true true, z⟩ unused { kinds := [.v, .s] } { kinds := [.v, .s, .idx, .imm, .zero], fp := true } unused = true ∧
    EA.ops4Ok ⟨z, s 0, v 255, k 2047⟩ { kinds := [.v, .idx, .zero] } { kinds := [.v, .s] } srcPos srcPos = true ∧
    EA.s.reach 1 { r := true, w := true, noHost := true, noPeer := true } anyPage (wants EA (fun l => (EA.raw (s 0))[l]) 8) =
      .ok (List.replicate 2 (.hbm 0x40000)) ∧ v 255 ≠ .zero ∧ Issues (mk bPages gAddr) hdr0 [z, s 0, v 255, k 2047] EA :=
  ⟨by decide, by decide, by decide, by decide +kernel, by decide, issuesA _ (by decide)⟩
/-- CFLUSH of 2^36 bytes at 0 would leave the mapped pages; of 128 bytes it does not. A write of the path is on its way. -/
def bPend : State := bPages.modCore 0 fun c => { c with pend := [⟨1, 0, BitVec.allOnes 128, ⟨0, 0, .hbm 0x40000, 8, .write (bytesOfNat 8 7), none⟩, 0, false, 0, none, [], false⟩] }
theorem test_hyps_cache : EA.ops4Ok ⟨z, s 0, s 5, z⟩ unused { kinds := [.s] } { kinds := [.s, .imm] } unused = true ∧
    EA.ops4Ok ⟨z, v 255, k 2047, z⟩ unused { kinds := [.v, .s] } { kinds := [.s, .imm] } unused = true ∧
    (EA.uni (s 5)).toNat = 0 ∧ 2 ^ 36 < (EA.uni (k (-1))).toNat ∧ 0 < (EA.uni (k 1)).toNat ∧
    EA.s.reach 1 { r := true, noHost := true, noPeer := true } anyPage (unitWants 0 128) = .ok [.hbm 0x40000] ∧
    EA.core.pend = [] ∧ (env bPend gAddr pathA).core.pend.length = 1 ∧ Issues (mk bPages gAddr) hdr0 [z, s 0, s 5, z] EA :=
  ⟨by decide, by decide, by decide, by decide, by decide, by decide, by decide, by decide, issuesA _ (by decide)⟩

/-! ### Hypotheses of the statements about synchronisation, handles and engines -/

/-- The cell at the start of the SYNC page: a free clasp; one held; one that was overflowed; a barrier. -/
def cell (kind state expect count : Nat) : Cell := ⟨kind, state, expect, count, 0, 0, 0, 0, 0⟩
def bCell (c : Cell) : State := bPages.setCell 0x80000 c
def EC (c : Cell) : Env := env (bCell c) gAddr pathA
theorem issuesC (c : Cell) (os : List Operand) (ht : os.any Operand.isT = false) : Issues (mk (bCell c) gAddr) hdr0 os (EC c) :=
  issues _ gAddr pathA os rfl (by decide) (.inr ht)
/-- The same with the clasp held by the signature that is selected. -/
def bMine : State := { bCell (cell 1 1 0 0) with holders := [(claspKey 1 0x40000, (sig pathA).uid)] }
theorem test_hyps_cells : AtCell (EC (cell 1 0 0 0)) (s 1) 0x80000 ∧ (EC (cell 1 0 0 0)).s.memOk = true ∧ Turn (EC (cell 1 0 0 0)) ∧
    (EC (cell 1 0 0 0)).s.cell 0x80000 = cell 1 0 0 0 ∧ (EC (cell 2 0 65535 65534)).s.cell 0x80000 = cell 2 0 65535 65534 ∧
    Issues (mk (bCell (cell 1 0 0 0)) gAddr) hdr0 [z, s 1, s 5, k 0] (EC (cell 1 0 0 0)) :=
  ⟨by unfold AtCell; decide +kernel, by decide +kernel, .inl (by decide), by decide +kernel, by decide +kernel, issuesC _ _ (by decide)⟩
theorem test_hyps_bind : EA.ops4Ok ⟨z, s 1, s 5, k 0x80⟩ unused { kinds := [.s] } { kinds := [.s] } { kinds := [.s, .imm] } = true ∧
    (EA.uni (s 5)).toNat % 128 = 0 ∧ uVal EA (k 0x80) % 128 = 0 ∧ uVal EA (k 0xFFF) % 128 ≠ 0 ∧
    2 ^ 36 < uVal (env bPages { gAddr with s := gAddr.s.set 6 (BitVec.ofNat 64 (2 ^ 36 + 128)) } pathA) (s 6) ∧
    (EA.uni (s 5)).toNat + uVal EA (k 0x80) ≤ 2 ^ 54 := by decide
theorem test_hyps_acq_rel : EA.ops4Ok ⟨z, s 1, z, z⟩ unused { kinds := [.s] } unused unused = true ∧
    AMap.get? (env bMine gAddr pathA).s.holders (claspKey 1 0x40000) = some (env bMine gAddr pathA).sig.uid ∧
    AMap.get? (EC (cell 1 1 0 0)).s.holders (claspKey 1 0x40000) ≠ some (EC (cell 1 1 0 0)).sig.uid ∧
    ((EC (cell 1 1 0 0)).part (EC (cell 1 1 0 0)).s
      { reason := 0x04, evkey := 0x40000, resume := 20, wait := .acq 0x40000 false }).isOk = true ∧
    (env bMine gAddr pathA).core.outst = 0 ∧ (env (bPend.modCore 0 fun c => { c with outst := 1 }) gAddr pathA).core.outst ≠ 0 ∧
    (env bMine gAddr pathA).s.releaseWaits (sig pathA).uid false = false ∧
    (env bPend gAddr pathA).s.releaseWaits (sig pathA).uid false = true ∧
    (env bMine gAddr pathA).s.waiters 1 ((env bMine gAddr pathA).s.waitsClasp 1 0x80000) = [] :=
  ⟨by decide, by decide +kernel, by decide +kernel, by decide +kernel, by decide, by decide, by decide +kernel, by decide +kernel,
    by decide +kernel⟩

/-- FENCE over nothing and over a write on its way; points 0 to 2 of the quire: not initialised, at its start, poisoned. -/
def bPoint (p : RvPoint) : State := bPages.modQuire 0 0 fun q => { q with points := [p, ⟨0, 0, 0, 0, 0, 0⟩, ⟨0, 65535, 0, 0, 0, 0x0F⟩] }
def EP (p : RvPoint) : Env := env (bPoint p) gAddr pathA
def full : RvPoint := ⟨0xFFFFFFFF, 65535, 65534, 256, 256, 0⟩
theorem test_hyps_waits : EA.ops4Ok ⟨z, z, z, z⟩ unused unused unused unused = true ∧
    EA.ops4Ok ⟨z, s 63, k 0, z⟩ unused { kinds := [.s, .imm] } { kinds := [.s, .imm] } unused = true ∧
    EA.ops4Ok ⟨z, s 1, k 0, z⟩ unused { kinds := [.s] } { kinds := [.s, .imm] } unused = true ∧
    EA.s.fenced EA.sig.uid EA.path.mask true = true ∧ (env bPend gAddr pathA).s.fenced (sig pathA).uid pathA.mask false = false ∧
    (EA.part EA.s { reason := 0x06, evkey := 4, resume := EA.next, wait := .fence 0 true }).isOk = true := by
  refine ⟨by decide, by decide, by decide, by decide +kernel, by decide +kernel, by decide +kernel⟩
theorem test_hyps_points : (EP full).sig.quire = some 0 ∧ (EP full).quire.map (fun q => q.points.map (·.expect)) = some [65535, 0, 65535] ∧
    complete 0 0xFFFFFFFF ∧ ¬ complete 0 0 ∧ ¬ complete 0 0x80000000 ∧ complete 0x7FFFFFFF 0 ∧
    (EP full).quire.map (fun q => (EP full).pointAwaited q 0) = some false ∧ (EP full).s.names 0 0 (· == 0) = false ∧
    uVal (EP full) (k 0xFFF) = 4095 ∧
    (EP full).ops4Ok ⟨s 62, k 0, z, z⟩ { kinds := [.s, .zero] } { kinds := [.s, .imm] } { kinds := [.s, .imm, .zero] } unused = true ∧
    (EP full).storesLeft = false ∧ full.arr + 1 = full.expect ∧ full.deliv = (full.expb + uVal (EP full) z) % 2 ^ 64 := by
  unfold complete
  decide +kernel
theorem test_hyps_barriers : EA.ops4Ok ⟨s 62, s 1, z, z⟩ { kinds := [.s, .zero] } { kinds := [.s] } { kinds := [.s, .imm, .zero] } unused = true ∧
    uVal EA (k 0) < 1 ∧ uVal EA (k 1) = 1 ∧ EA.storesLeft = false ∧ EA.core.pend = [] ∧
    ((cell 2 0 65535 65534).count + 1) % 2 ^ 32 = (cell 2 0 65535 65534).expect ∧ (env bPend gAddr pathA).storesLeft = true ∧
    EA.s.apertureLeft EA.sig.uid = false := by decide

/-- A unit with one operation PENDING, and a signature that holds its handle in h3. -/
def bHandle (code : Nat) : State := { bPages with handles := [((1 * 256 + 0) * 1024 + 1, ⟨1, [(0, ⟨code, 0x13, 0x26⟩)]⟩)] }
def gHandle : Sig := { gAddr with h := gAddr.h.set 3 (handleVal 1 0 1 0) }
def EH (code : Nat) : Env := env (bHandle code) gHandle pathA
theorem test_hyps_handles : (EH 3).s.handleOk (EH 3).sig.ctx ((EH 3).sig.hreg 3) = true ∧ (EH 3).s.handleState ((EH 3).sig.hreg 3) = ⟨3, 0x13, 0x26⟩ ∧
    (EH 0).s.handleState ((EH 0).sig.hreg 3) = ⟨0, 0, 0⟩ ∧ (EH 3).s.handleOk (EH 3).sig.ctx ((EH 3).sig.hreg 4) = false ∧
    ((EH 0).s.hunit 1 255 1).next < 2 ^ 40 ∧
    ((EH 0).part (EH 0).s { reason := 0x09, evkey := (EH 0).sig.hreg 3, resume := 20, wait := .none }).isOk = true ∧
    (EH 3).ops4Ok ⟨z, .h 3, z, z⟩ unused { kinds := [.h] } unused unused = true ∧
    (EH 3).ops4Ok ⟨.p 7, .h 3, z, z⟩ { kinds := [.p] } { kinds := [.h] } unused unused = true ∧
    (EH 3).ops4Ok ⟨s 63, .h 3, z, z⟩ { kinds := [.v, .s] } { kinds := [.h] } unused unused = true ∧
    (EH 3).ops4Ok ⟨.h 15, s 63, z, z⟩ { kinds := [.h] } { kinds := [.s] } unused unused = true ∧
    ¬ 1 ≤ ((EH 3).uni (s 5)).toNat / 2 ^ 60 ∧ (handleVal 5 0 1 0).toNat / 2 ^ 60 = 5 ∧
    (handleVal 5 0 1 0).toNat / 2 ^ 40 % 1024 = (EH 3).sig.ctx := by decide +kernel
theorem test_hyps_handles_issue (c : Nat) : Issues (mk (bHandle c) gHandle) hdr0 [z, .h 3, z, z] (EH c) :=
  issues _ _ _ _ rfl (by decide) (.inr (by decide))

/-- TSPAWN of the greatest payload, with room and without, of a task number in and out of range; DLAUNCH of
the block at 0 (zeros) by signature 0. -/
theorem test_hyps_tasks : EA.s.feat EA.sig.ctx 7 = true ∧ EA.grid = some grid1 ∧ grid1.blk.tasktab ≠ 0 ∧ EA.groupOk (v 248) 8 = true ∧
    EA.ops4Ok ⟨z, v 0, k 255, z⟩ unused dstPos { kinds := [.v, .s, .imm] } { kinds := [.v, .s, .imm, .zero] } = true ∧
    EA.groupOk (v 0) 8 = true ∧ EA.indexFault [(v 0, false)] = none ∧ (∀ l : Lane, (EA.raw (k 255))[l].toNat ≤ 255) ∧
    255 < (EA.raw (k 256))[(0 : Lane)].toNat ∧ EA.s.taskRoom 1 0 2 = true ∧
    (EA.part EA.s { reason := 0x0E, evkey := 0, resume := 20, wait := .spawn [] }).isOk = true ∧
    EA.ops4Ok ⟨v 255, k 1, z, z⟩ dstPos { kinds := [.imm] } unused unused = true := by decide +kernel
def wantsL : List Want := (List.range 4).map fun i => ⟨0, EA.uni (s 0) + BitVec.ofNat 64 (64 * i), 64⟩
theorem test_hyps_dlaunch : EA.s.feat EA.sig.ctx 8 = true ∧ EA.sig.quire = some 0 ∧ EA.sig.sigix = 0 ∧ grid1.blk.depth ≠ 10 ∧
    EA.ops4Ok ⟨.h 15, s 0, z, z⟩ { kinds := [.h, .zero] } { kinds := [.s] } unused unused = true ∧
    EA.s.reach 1 { r := true } anyPage wantsL = .ok [.hbm 0x40000, .hbm 0x40040, .hbm 0x40080, .hbm 0x400C0] ∧
    (AMap.getD (EA.s.ctx 1).devq 3 DevQ.init).len < 256 ∧ (EA.s.areaWrite 1 (EA.s.regN 1 0x0E) (List.replicate 256 1)).isOk = true ∧
    EA.storesLeft = false := by
  refine ⟨?_, ?_, ?_, ?_, ?_, ?_, ?_, ?_, ?_⟩ <;> decide +kernel
/-- A grid at the greatest depth. -/
def gridDeep : Grid := { grid1 with blk := { grid1.blk with depth := 10 } }
theorem test_hyps_depth : (env (bPages.modCtx 1 fun c => { c with grids := [(1, gridDeep)] }) gAddr pathA).grid.map (·.blk.depth) = some 10 := by
  decide +kernel

/-- COPY that completes to point 1, and that completes to memory; a queue of 16; spaces that a task wave may not name. -/
def gCopy : Sig := gAddr
def bPoint1 : State := bPages.modQuire 0 0 fun q => { q with points := q.points.set 1 full }
def ECp : Env := env bPoint1 gCopy pathA
theorem test_hyps_copies : ECp.ops4Ok ⟨.h 15, s 0, s 1, k 1⟩ { kinds := [.h, .zero] } { kinds := [.s] } { kinds := [.s] } { kinds := [.s, .imm] } = true ∧
    ECp.ops4Ok ⟨z, s 0, s 1, z⟩ { kinds := [.h, .zero] } { kinds := [.s] } { kinds := [.s] } unused = true ∧
    ECp.ops4Ok ⟨z, s 0, s 1, s 2⟩ { kinds := [.h, .zero] } { kinds := [.s] } { kinds := [.s] } { kinds := [.s] } = true ∧
    ((ECp.s.cluster 0).copies.filter fun x => x.core == 0) = [] ∧ uVal ECp (k 1) = 1 ∧ ECp.sig.quire = some 0 ∧
    ECp.quire.map (fun q => q.points[1]?) = some (some full) ∧ ECp.s.feat 1 4 = true ∧ ECp.s.feat 1 7 = true ∧
    ECp.grid = some grid1 ∧ grid1.blk.tasktab ≠ 0 ∧ ECp.storesLeft = false ∧ (env bPend gAddr pathA).storesLeft = true ∧
    (CpMod.mk 0 1 1).ck.toNat ≤ 2 ∧ (CpMod.mk 2 1 1).sspace.toNat = 2 := by decide +kernel
theorem test_hyps_copies_issue : Issues (mk bPoint1 gCopy) hdr0 [.h 15, s 0, s 1, k 1] ECp :=
  issues _ _ _ _ rfl (by decide) (.inr (by decide))

/-- MMA of format 3 by format 3 in one step, with the panels at 0 and the tile at the start of the C-buffer. -/
def ctl33 : Nat := 3 * 2 ^ 18 + 3 * 2 ^ 22 + 2 ^ 33
def gMat : Sig := { gAddr with s := (gAddr.s.set 10 (BitVec.ofNat 64 ctl33)).set 11 64 }
def EM : Env := env bPages gMat pathA
theorem test_hyps_matrix : EM.ops4Ok ⟨.h 15, s 0, s 0, s 10⟩ { kinds := [.h, .zero] } { kinds := [.s] } { kinds := [.s] } { kinds := [.s] } = true ∧
    EM.sig.quire = some 0 ∧ ((EM.s.cluster 0).mats.filter fun x => x.core == 0 && x.quire == 0) = [] ∧
    (MatShape.of (EM.uni (s 10)).toNat true 512).map (fun p =>
      decide (p.endA ≤ (EM.reserved 2).2) && decide (p.endB ≤ (EM.reserved 1).2) && decide (p.ctl.coff + p.bytesC ≤ (EM.reserved 3).2) &&
      decide (p.ctl.nk ≠ 3) && sparseOk p.ctl.af p.ctl.bf p.ctl.mx && decide (p.ctl.nstep = 1)) = some true ∧
    (MatShape.of (EM.uni (s 10)).toNat false 64).map (fun p => decide (p.endA ≤ (EM.reserved 2).2) && decide (p.ctl.nk = 0)) = some true ∧
    (EM.uni (s 11)).toNat % 64 = 0 ∧ (EM.uni (s 10)).toNat < 2 ^ 51 ∧ EM.s.feat 1 2 = true ∧
    EM.ops4Ok ⟨z, s 0, k 256, z⟩ { kinds := [.h, .zero] } { kinds := [.s] } { kinds := [.s, .imm] } unused = true ∧
    uVal EM (k 256) = 256 ∧ 0 + 1024 * 256 ≤ (EM.reserved 3).2 ∧ (EM.reserved 3).2 < 1024 + 1024 * 256 := by
  refine ⟨?_, ?_, ?_, ?_, ?_, ?_, ?_, ?_, ?_, ?_, ?_, ?_⟩ <;> decide +kernel
theorem test_hyps_matrix_issue : Issues (mk bPages gMat) hdr0 [.h 15, s 0, s 0, s 10] EM :=
  issues _ _ _ _ rfl (by decide) (.inr (by decide))

/-- CFGLOAD, CFGRUN, its resumption, CFGDRAIN, CFGEVICT and RBLK on stack 11. -/
theorem test_hyps_array : EA.s.feat 1 3 = true ∧ EA.s.feat 1 5 = true ∧ uVal EA (k 11) = 11 ∧ uVal EA (k 255) = 255 ∧
    EA.ops4Ok ⟨.h 15, s 0, k 255, k 11⟩ { kinds := [.h, .zero] } { kinds := [.s] } { kinds := [.s, .imm] } { kinds := [.s, .imm] } = true ∧
    EA.ops4Ok ⟨z, k 255, z, k 11⟩ { kinds := [.h, .zero] } { kinds := [.s, .imm] } { kinds := [.s, .zero] } { kinds := [.s, .imm] } = true ∧
    EA.ops4Ok ⟨z, k 255, s 1, k 11⟩ unused { kinds := [.s, .imm] } { kinds := [.s] } { kinds := [.s, .imm] } = true ∧
    EA.ops4Ok ⟨z, s 1, z, k 11⟩ { kinds := [.h, .zero] } { kinds := [.s] } unused { kinds := [.s, .imm] } = true ∧
    EA.ops4Ok ⟨z, k 255, z, k 11⟩ { kinds := [.h, .zero] } { kinds := [.s, .imm] } unused { kinds := [.s, .imm] } = true ∧
    EA.ops4Ok ⟨.h 0, s 2, z, z⟩ { kinds := [.h, .zero] } { kinds := [.s] } unused unused = true ∧
    (EA.uni (s 1)).toNat % 4096 = 0 ∧ EA.storesLeft = false := by decide +kernel

/-- SRREG of the first and the last register and of one too high; SWREG of FPCTL, and of FRTAIL in a handler. -/
theorem test_hyps_registers : EA.ops2Ok ⟨v 255, z⟩ { kinds := [.v, .s, .idx] } { kinds := [.s, .zero] } = true ∧
    EA.ops2Ok ⟨s 63, s 5⟩ { kinds := [.v, .s, .idx, .zero] } { kinds := [.s, .zero] } = true ∧
    EA.indexFault [(v 255, false)] = none ∧ ((0x22 : BitVec 32) + (EA.uni z).setWidth 32).toNat ≤ 0x22 ∧
    0x23 ≤ ((0x23 : BitVec 32) + (EA.uni z).setWidth 32).toNat ∧ lowest EA.act = some 0 ∧
    EA.s.regOk 1 0x01 0 = true ∧ EA.s.regOk 1 0x08 1 = false ∧ EA.s.regOk 1 0x08 0 = true ∧
    EA.ops4Ok ⟨s 63, z, k 1, z⟩ { kinds := [.s, .zero] } unused { kinds := [.s, .imm, .zero] } { kinds := [.s, .imm, .zero] } = true ∧
    Issues (mk bPages gAddr) hdr0 [v 255, z] EA :=
  ⟨by decide, by decide, by decide, by decide, by decide, by decide, by decide, by decide, by decide, by decide, issuesA _ (by decide)⟩
/-! ### Hypotheses of the statements about events -/

def got (x : Except Trap State) : State := match x with | .ok s => s | .error _ => State.reset

/-- A write of 8 bytes to HBM that is on its way, and one to the host that is performed and not acknowledged. -/
def bPosted : State := bPages.modCore 0 fun c => { c with
  pend := [⟨1, 0, BitVec.allOnes 128, ⟨0, 0, .host 0x1000, 8, .write (bytesOfNat 8 7), none⟩, 0, true, 0, none, [], false⟩] }
theorem test_hyps_aperture : (env bPosted gAddr pathA).storesLeft = false ∧
    (env bPosted gAddr pathA).s.apertureLeft (env bPosted gAddr pathA).sig.uid = true := by decide
theorem test_hyps_writes : bPend.memOk = true ∧ ((bPend.core 0).pend[0]?).map (fun w => (bPend.pendReady 0 0 w, w.acc.place, w.acc.op)) =
      some (true, .hbm 0x40000, .write (bytesOfNat 8 7)) ∧
    ((bPosted.core 0).pend[0]?).map (·.posted) = some true ∧ bPend.l2.stale = [] := by decide +kernel
/-- An update on its way, whose line CD lets through, and one whose line it does not. -/
def atom1 : Access := ⟨0, 0, .hbm 0x40000, 8, .rmw 0 false 1, none⟩
def noCd (b : State) : State := { b with memStacks := [(0, { Stack.init with chans := (List.range 64).map fun i =>
  (i, { PChan.init with left := [0, 0, 0, 0, 0, 0, 0, 0, 0, 0, 32] }) })] }
theorem test_hyps_lines : (bPages.fetchLines [atom1]).1 = true ∧ ((noCd bPages).fetchLines [atom1]).1 = false := by decide +kernel
/-- The path of two lanes has parted with a load of 8 bytes for v255. -/
def load2 : List Access := [⟨0, 8, .hbm 0x40008, 8, .read, none⟩, ⟨1, 0x40000, .hbm 0x80000, 8, .read, none⟩]
def bLoad : State := got (EA.part EA.s (loadPart EA (v 255) false false false false (fun _ => 8) load2))
theorem test_hyps_load : ((bLoad.core 0).records.find? fun r => r.pseq == 0 && !r.ready && r.late.isEmpty).map (fun r => (r.wait, (bLoad.sig? 0 r.slot).map fun g =>
      (bLoad.loadWaits g r false load2, g.B))) =
      some (.load (.v 255) (Operand.bits (v 255)) false false false false load2, some (false, 256)) ∧
    load2 ≠ [] ∧ bLoad.l2.stale = [] ∧ load2.Pairwise (fun a b => a.lane ≠ b.lane) ∧ (∀ a ∈ load2, bLoad.racesPend 0 false a = false) ∧
    (bLoad.fetchLines load2).1 = true ∧ ((noCd bLoad).fetchLines load2).1 = false := by decide +kernel
/-- A flush and an invalidation in progress; a fill of a page that the tables do not map, which is done at once, and one of a
page whose backing table is not mapped. -/
def bFlush : State := { bPages.modCore 0 (fun c => { c with flushes := [⟨1, 1, false, 0, 128, []⟩, ⟨1, 1, true, 0, 128, []⟩], outst := 2 }) with
  fills := [⟨1, 0xC0000, 2 ^ 18, 0x4018, true, []⟩, ⟨1, 0x80000, 2 ^ 18, 0x4010, true, []⟩] }
def bBacking : State := (bFlush.setReg 1 0x13 (BitVec.ofNat 64 (2 ^ 30))).setReg 1 0x14 1
/-- A fill of zeros into the frame 0xC0000: its bursts, charged to CE. -/
def fill1 : Fill := ⟨1, 0x80000, 2 ^ 18, 0x4010, true, []⟩
def bZero : State := ({ bFlush with hbm := Mem.writeN bFlush.hbm 0x40200 (bytesOfNat 8 0xC0000 ++ bytesOfNat 9 (3 * 2 ^ 64)) }.setReg 1 0x13 0x200).setReg 1 0x14 1
def paidFor (b : State) : Option Bool := match fillPage b.fillDepth b 1 0x80000 (.ok []) with
  | .done u => let need := b.fillBursts u fill1; some (Bursts.covered need (b.payBursts true need []).1)
  | .failed _ _ _ => none
theorem test_hyps_fill : paidFor bZero = some true ∧ paidFor (noCd bZero) = some false ∧ (bZero.fills[1]?) = some fill1 := by decide +kernel
theorem test_hyps_memory_events : ((bFlush.core 0).flushes[0]?).map (·.inv) = some false ∧ ((bFlush.core 0).flushes[1]?).map (·.inv) = some true ∧
    (bFlush.fills[0]?).map (·.started) = some true ∧ (match fillPage bFlush.fillDepth bFlush 1 0xC0000 (.ok []) with | .done u => decide (u = bFlush) | .failed _ _ _ => false) = true ∧
    (match fillPage bFlush.fillDepth bFlush 1 0x80000 (.ok []) with | .failed _ _ lost => !lost | .done _ => false) = true ∧
    (match fillPage bBacking.fillDepth bBacking 1 0x80000 (.ok []) with | .failed _ _ lost => lost | .done _ => false) = true ∧
    bFlush.thimble.node < 64 ∧
    AMap.get? bFlush.thimble.queues bFlush.thimble.node = none := by decide +kernel

/-- A path that yielded is READY; a path whose watchdog is due; a quantum of 256 in deterministic mode, and its round over;
32 tasks whose entry is that of slot 8; a second gang; a quire whose signature has exited, and its grid. -/
def bReady : State := got (E.part E.s { reason := 0x0C, evkey := 0, resume := 20, wait := .none, ready := true })
theorem test_hyps_relaunch : (bReady.core 0).ctx = some 1 ∧ (bReady.ctx 1).st = .active ∧
    (((bReady.core 0).nextReady false).map fun r => (r.wait, r.slot, (bReady.core 0).portFor r)) = some (.none, 0, some 0) ∧
    (bReady.sig? 0 0).isSome = true := by decide +kernel
def pWd : Path := { path0 with wdog := some (0, BitVec.allOnes 128, 20) }
def bDet (on : Bool) : State := base.setReg 1 0x15 (if on then 1 + 256 * 2 ^ 16 else 0)
theorem test_hyps_quantum : ((sig pWd).path? 0).map (·.wdog) = some (some (0, BitVec.allOnes 128, 20)) ∧ (bDet true).det 1 = true ∧
    (mk (bDet true) { sig path0 with quantum := 256 }).sig? 0 0 = some { sig path0 with quantum := 256 } ∧
    (bDet true).detQ 1 ≤ 256 ∧ (mk (bDet true) { sig path0 with quantum := 256, ended := true }).roundOver 1 = true := by decide +kernel
def task1 : Task := { entry := 0, flags := 0, origin := 0, core := 0, grid := 1, payload := [5], parked := false }
def bTasks : State := { (bPages.modCore 0 fun c => { c with pool := List.replicate 32 task1 }) with
  hbm := Mem.writeN (Mem.writeN bPages.hbm 0x50000 (bytesOfNat 8 8)) 0x50008 (bytesOfNat 8 16) }
theorem test_hyps_wave : (bTasks.core 0).ctx = some 1 ∧ bTasks.det 1 = false ∧ (bTasks.nextWave 0 1).isSome = true := by decide +kernel
def bMore : State := bPages.modCtx 1 fun c => { c with grids := [(1, { bootGrid with blk := { bootGrid.blk with x := 2 } })] }
theorem test_hyps_gang : (bMore.pending.head?.map fun p => (bMore.placePending p).isSome) = some true := by decide +kernel
def bOver : State := bPages.modCore 0 fun c => { c with sigs := [] }
def bDone : State := { bPages.modCtx 1 (fun c => { c with grids := [(1, { bootGrid with quiresDone := 1 })] }) with cores := [] }
theorem test_hyps_retire : (bOver.quire? 0 0).map (fun q => bOver.quireOver 0 0 q) = some true ∧
    (bDone.grid? 1 1).map (fun x => (bDone.gridOver 1 x, x.child, x.blk.done)) = some (true, none, 0) ∧ (bDone.ctx 1).st = .active ∧
    (match bDone.writeDone 1 0x30 7 with | .ok _ => true | .error _ => false) = true := by decide +kernel
/-- A block of one quire of one signature of 8 registers at PC 8, in device queue 3 and in a ring. -/
def block : List Byte := bytesOfNat 8 0x0001_01_00_00_00_0001 ++ bytesOfNat 8 0x0000_0001_0000_0001 ++ bytesOfNat 48 1 ++
  bytesOfNat 8 8 ++ bytesOfNat 8 0x01_0008 ++ bytesOfNat 176 0
def bQueue : State := { bPages.modCtx 1 (fun c => { c with
    regs := AMap.set c.regs 0x0E 0, devq := [(3, ⟨0, 1, 0, 0, [⟨1, none, [], false⟩]⟩)], hostq := [(0, ⟨0x20000, 16, true, 0x200, 0, 1, false⟩)] }) with
  hbm := Mem.writeN (Mem.writeN bPages.hbm (0x40000 + 3 * 65536) block) 0x60000 block }
theorem test_hyps_queues : (bQueue.ctx 1).nextQueue = some 3 ∧
    (match bQueue.areaRead 1 (bQueue.queueAddr 1 3 0) 256 with
      | .ok (bs, u) => decide (bs = block) && ((u.advanceQueue 1 3).checkBlock 1 bs false).1.isSome
      | .error _ => false) = true ∧
    (bQueue.ctx 1).owner = 0 ∧ ((AMap.get? (bQueue.ctx 1).hostq 0).map fun h => (h.serial, h.busy, h.read, h.tail, h.entries)) = some (true, false, 0, 1, 16) := by
  decide +kernel
/-- A copy of 4 bytes, before and after its four bytes are written; a command of two steps and an MZERO, in cluster 0. -/
def win4 : Window := ⟨[0], [4], 0, 0, false, false, 0, 0, 0⟩
def desc0 : Desc := ⟨0, 0, 1, false, 0, 0, 0, List.replicate 8 4, List.replicate 8 1⟩
def copyOp (written : Nat) (cancel : Bool) : CopyOp where
  id := 1
  unit := 0
  core := 0
  ctx := 1
  grid := 1
  quire := some 0
  seq := 0
  expand := false
  sspace := 0
  dspace := 1
  ck := 0
  a := 0
  b := 0
  c := 0
  order := []
  plan := some (desc0, win4)
  task := none
  written := written
  scales := []
  supers := []
  page := none
  cancel := cancel
def matOp (kind : MatKind) (steps : Nat) : MatOp :=
  { MatOp.blank kind with id := 1, ctx := 1, grid := 1, n := 64, c := BitVec.ofNat 64 (3 * 2 ^ 18 + 3 * 2 ^ 22 + steps * 2 ^ 33), b := 1 }
def bEng (o : CopyOp) (m : MatOp) : State := { bPages with clusters := [(0, { Cluster.init with copies := [o], mats := [m], nextId := 2 })] }
theorem test_hyps_copy_events : (bEng (copyOp 0 false) (matOp .mma 2)).nextCopy 0 = some (copyOp 0 false) ∧
    (bEng (copyOp 0 true) (matOp .mma 2)).nextCopy 0 = some (copyOp 0 true) ∧ (copyOp 0 true).atBoundary = true ∧
    (let b := bEng (copyOp win4.total false) (matOp .mma 2)
     let o := copyOp win4.total false
     (b.cluster 0).copies.find? (fun o => o.id == 1 && (o.ending.isSome || (o.full && !o.cancel && (b.ctx o.ctx).st == .active)) &&
       b.pageBack o.ctx o.page) = some o ∧
       (match b.copyNamed o with | .ok (some _) => true | _ => false) = true) := by decide +kernel
/-- A copy whose descriptor and window, of four bytes of format 0, stand at 0x800 and 0x880, and one whose descriptor no entry
maps; an end that waits to be written; a completion word that cannot be written; a cancel that is not at a boundary; a local
load whose bytes an operation writes. -/
def newCopy (a : Word64) : CopyOp := { copyOp 0 false with plan := none, a := a, b := 0x880 }
def bCopy (a : Word64) : State := { bEng (newCopy a) (matOp .mma 2) with
  hbm := Mem.writeN (Mem.writeN bPages.hbm 0x40800 (bytesOfNat 9 0x400 ++ bytesOfNat 23 1 ++ bytesOfNat 4 4))
    0x408A0 ([4, 0, 1, 0, 1, 0, 1, 0, 1, 0, 1, 0, 1, 0, 1, 0] : List Byte) }
theorem test_hyps_copy_plan : (bCopy 0x800).nextCopy 0 = some (newCopy 0x800) ∧ (bCopy 0xC0000).nextCopy 0 = some (newCopy 0xC0000) ∧
    (match (bCopy 0x800).copyPlan (.ok []) (newCopy 0x800) with | .ok (o, _) => o.plan.isSome | .error _ => false) = true ∧
    (match (bCopy 0xC0000).copyPlan (.ok []) (newCopy 0xC0000) with | .ok _ => false | .error _ => true) = true := by decide +kernel
def endingCopy : CopyOp := { copyOp 0 false with ck := 3, c := 0x900, ending := some (7, ⟨3, 7, 0⟩) }
def badWord : CopyOp := { copyOp win4.total false with ck := 3, c := 0xC0000 }
theorem test_hyps_copy_ends : ((bEng endingCopy (matOp .mma 2)).cluster 0).copies.find? (fun o => o.id == 1 && o.ending.isSome) = some endingCopy ∧
    (match (bEng badWord (matOp .mma 2)).copyNamed badWord with | .error _ => true | .ok _ => false) = true ∧
    (let o := { copyOp 0 true with written := 1 }; o.cancel && o.atBoundary) = false ∧
    ((bEng (copyOp 0 false) (matOp .mma 2)).cluster 0).writes 0 0 0 0 8 = true ∧
    ((bEng (copyOp 0 false) (matOp .mma 2)).cluster 0).writes 0 0 0 2048 8 = false ∧
    ((bEng (copyOp 0 false) (matOp .mma 2)).cluster 0).meets 0 0 2 0 8 = true ∧
    ((bEng (copyOp 0 false) (matOp .mma 2)).cluster 0).meets 0 0 2 0x10000 8 = false := by decide +kernel
theorem test_hyps_matrix_events : (bEng (copyOp 0 false) (matOp .mma 2)).nextMat 0 = some (matOp .mma 2) ∧
    (bEng (copyOp 0 false) (matOp .mzero 0)).nextMat 0 = some (matOp .mzero 0) ∧
    ∃ p, MatShape.of (matOp .mma 2).c.toNat false 64 = some p ∧ p.ctl.nstep = 2 ∧ p.sparse = false ∧ p.rule ≠ .intervals ∧
      ∀ u : State, ∃ bs o1 v, u.slabsB (.ok []) (matOp .mma 2) p = .ok (bs, o1, v) ∧ o1 = matOp .mma 2 ∧ (v.tile o1 p bs).isOk = true := by
  refine ⟨by decide +kernel, by decide +kernel, _, rfl, by decide +kernel, by decide +kernel, by decide +kernel, fun u => ⟨_, _, _, rfl, rfl, ?_⟩⟩
  have h2 : ∀ p, MatShape.of (matOp .mma 2).c.toNat false 64 = some p → p.rule ≠ .intervals := by
    intro p h; cases h; decide +kernel
  replace h2 := h2 _ rfl
  unfold State.tile
  simp only [h2, false_and, Bool.false_eq_true, if_false]
  rfl

/-- Of one run: a read port at (0, 0), a C tile at (0, 1) that adds nothing to its input, a write port at (0, 5), a buffer of
two slots in the M tile at (1, 0). -/
def cfg1 : Machine.Config where
  nctx := 2
  shape := 0
  drain := 0
  nparam := 0
  check := 0
  tiles := [((0, 1), 1, [(0, 0x00100107), (1, 0x00100107)]), ((1, 0), 2, [(0, BitVec.ofNat 128 (2 ^ 10 + 2 ^ 21)), (1, 0)])]
  links := [⟨0, 0, 0, [((0, 1), (0, [1]))]⟩, ⟨0, 1, 0, [((0, 5), (0, [1, 1, 1, 1]))]⟩, ⟨1, 0, 0, [((0, 2), (0, [1, 1, 0]))]⟩,
    ⟨0, 3, 0, [((1, 0), (0, [2, 3, 3, 3]))]⟩]
  consts := []
  delays := []
  ports := [⟨0, 0, 0, 0, 0, [4, 1, 1, 1], [1, 0, 0, 0], false⟩, ⟨0, 5, 0, 0, 1024, [4, 1, 1, 1], [1, 0, 0, 0], true⟩]
  arcs := []
def act1 : Active where
  run := ⟨1, 1, 0, 5, 0, [], none, false, [], []⟩
  cfg := cfg1
  params := []
  ctxi := 0
  cts := []
  mts := [(tileKey 1 0, ⟨[(0, .data 3)], [⟨[0], 1, 0, 0, 0⟩, MBuf.init, MBuf.init, MBuf.init], [], 0⟩)]
  sts := [(tileKey 0 0, { STile.init with active := true, done := false, flight := [0x40000], pos := 1 }),
    (tileKey 0 5, { STile.init with active := true, done := false, base := 1024, flight := [0x40400], pos := 1 })]
  fifos := [(0, [.data 7]), (4, [.data 9]), (12, [.data 11])]
  notifies := 0
  cause := 0
def part1 (st : PartState) (act : Option Active) : Part := ⟨0x500, st, act, [], none, none⟩
def spent : PChan := { PChan.init with left := [992, 496, 1, 0, 0, 0, 0, 0, 0, 0, 32] }
def bArr (p : Part) : State := { bPages with memStacks := [(0, { Stack.init with parts := Stack.init.parts.set 0 p, chans := [(0, spent), (2, spent)] })] }
def placed (x : PortCheck) : Option Nat := match x with | .ok a => some a | _ => none
def bRun : State := bArr (part1 .running (some act1))
theorem test_hyps_tiles : bRun.running? 0 0 = some act1 ∧ act1.word? (0, 1) = some 0x00100107 ∧ wOpc 0x00100107 ≠ 0x3C ∧ tileKind 0 1 = 1 ∧
    (match act1.fireC (0, 1) with | .done _ => true | _ => false) = true ∧ tileKind 1 0 = 2 ∧
    (match act1.accept (1, 0) 0 with | .done _ => true | _ => false) = true ∧
    (match act1.emitBuf (1, 0) 0 with | .done _ => true | _ => false) = true := by decide +kernel
theorem test_hyps_ports : (act1.port? (0, 0) false).map (fun x => (x.2.done, x.2.pos, x.1.total, x.2.flight, x.2.held)) = some (false, 1, 4, [0x40000], []) ∧
    (bRun.part 0 0).st = .running ∧ act1.arcsDone (0, 0) = true ∧ act1.room (0, 0) 0 = true ∧ bRun.l2.old = [] ∧
    placed (bRun.portCheck 0 1 (portChan (bRun.part 0 0).reg (0, 0)) 64 false) = some 0x40040 ∧
    (bRun.spendPart 0 (portChan (bRun.part 0 0).reg (0, 0)) 0).isSome = true ∧
    (act1.port? (0, 5) true).map (fun x => (x.2.done, x.2.endSeen, x.2.pos, x.1.total, x.2.flight)) = some (false, false, 1, 4, [0x40400]) ∧
    act1.head (0, 5) 0 = some (.data 9) ∧ placed (bRun.portCheck 0 1 (portChan (bRun.part 0 0).reg (0, 5)) 1088 true) = some 0x40440 ∧
    (bRun.spendPart 0 (portChan (bRun.part 0 0).reg (0, 5)) 0).isSome = true ∧ bRun.memOk = true ∧ bRun.pageBack 1 none = true := by
  refine ⟨?_, ?_, ?_, ?_, ?_, ?_, ?_, ?_, ?_, ?_, ?_, ?_, ?_⟩ <;> decide +kernel

/-- The controller of stack 0 with one operation at its head; an image of no sections, under key 5. -/
def image1 : List Byte := bytesOfNat 4 imageMagic ++ bytesOfNat 2 1 ++ bytesOfNat 2 1 ++ bytesOfNat 4 64 ++ bytesOfNat 4 1 ++ bytesOfNat 16 0 ++
  (List.replicate 6 (bytesOfNat 4 0x40)).flatten ++ bytesOfNat 8 0
def bCtl (ops : List CfgOp) (pins : Nat) (queue : List ARun) (act : Option Active) (st : PartState) : State :=
  { bPages with memStacks := [(0, { Stack.init with ctl := ops, images := [⟨1, 5, image1, 1, pins⟩]
                                                    parts := Stack.init.parts.set 0 { part1 st act with queue := queue } })] }
def run1 : ARun := act1.run
def ctl1 (ops : List CfgOp) : State := bCtl ops 0 [] none .idle
theorem test_hyps_controller : ((ctl1 [.load 1 1 0 0 6 []]).stack 0).loading = none ∧
    ((ctl1 []).stack 0).images.find? (fun m => m.ctx == 1 && m.key == 6) = none ∧
    ((ctl1 []).stack 0).images.find? (fun m => m.ctx == 1 && m.key == 5) = some ⟨1, 5, image1, 1, 0⟩ ∧
    ((bCtl [.evict 1 1 0 5 []] 1 [] none .idle).stack 0).images.map (·.pins) = [1] ∧
    ((ctl1 []).part 0 0).reg.getLsbD 8 = true ∧ prCtx ((ctl1 []).part 0 0).reg = 1 ∧ ((ctl1 []).part 0 1).reg.getLsbD 8 = false ∧
    ((bCtl [] 0 (List.replicate 4 run1) none .idle).part 0 0).queue.length = 4 ∧ ((ctl1 []).part 0 0).drain = none := by decide +kernel
def bLoading (l : Loading) : State := { bPages with memStacks := [(0, { Stack.init with loading := some l })] }
theorem test_hyps_granule : (match (bLoading ⟨1, 1, 0, [], 0, 5, 8192, [], none, false, []⟩).engRead (.ok []) readNeed 1 0 4096 with
      | .ok (bs, _) => decide (bs.length = 4096) | .error _ => false) = true ∧
    (bLoading ⟨1, 1, 0, [], 0, 5, 8192, [], none, false, []⟩).pageBack 1 none = true ∧
    imgHeaderOk image1 = true ∧ imgLength image1 = 64 ∧ image1.length = 64 ∧ imgSectionsOk image1 = true := by decide +kernel
theorem test_hyps_install : ((bCtl [] 1 [run1] none .idle).part 0 0).st = .idle ∧
    (((bCtl [] 1 [run1] none .idle).stack 0).image? 1 5).map (·.bytes) = some image1 ∧
    (match (bCtl [] 1 [run1] none .idle).readParams run1 (Config.parse image1).nparam with | .ok (ps, _) => decide (ps = []) | .error _ => false) = true ∧
    (Config.parse image1).firstFault image1 0x500 [] 0 = none ∧ (bCtl [] 1 [run1] none .idle).syncPort 1 (Config.parse image1) [] = none ∧
    ((bCtl [] 1 [run1] none .idle).part 0 0).reg.getLsbD 8 = true ∧ prCtx ((bCtl [] 1 [run1] none .idle).part 0 0).reg = 1 := by decide +kernel
/-- The run with every tile done, in each state of its partition. -/
def ended : Active := { act1 with
  cts := [(tileKey 0 1, { CTile.init with done := true })]
  mts := [(tileKey 1 0, ⟨[], List.replicate 4 ⟨[], 0, 0, 0, 2⟩, [], 0⟩)]
  sts := [] }
def bPart (st : PartState) (a : Active) : State :=
  bArr { part1 st (some a) with drain := some ⟨none, [], 1, 1, none, none, 0⟩ }
/-- Drains that save, by an address of the context and by a physical one; one that ends in time-out. -/
def bDrain (d : Drain) (a : Active) : State := bArr { part1 .draining (some a) with drain := some d }
theorem test_hyps_drain_saves : (let a := { ended with fifos := [] }
     (bDrain ⟨some 0, [], 1, 1, some 0x1000, none, 0⟩ a).quiescent 0 0 = true ∧ a.complete = false ∧ a.run.cancel = false) ∧
    (bDrain ⟨none, [], 1, 1, none, some 0x100000, 0⟩ { ended with fifos := [] }).quiescent 0 0 = true ∧
    (bDrain ⟨some 0, [], 1, 1, some 0x1000, none, 0⟩ act1).quiescent 0 0 = false ∧ act1.run.cancel = false := by decide +kernel
/-- A read port whose place no write port of the run reaches, one that has a word from a save, one that is at its end. -/
theorem test_hyps_port_reads : bRun.portRace act1 (0, 0) 0x40000 = false ∧ (∀ x ∈ cfg1.sTiles, ∀ r, cfg1.port? x 0 = some r → r.write = true →
      ({ ended with ctxi := 0 }.st x).flight = []) ∧
    (let a := { act1 with sts := [(tileKey 0 0, { STile.init with active := true, done := false, held := [7], pos := 1 })] }
     (a.port? (0, 0) false).map (·.2.held) = some [7]) ∧
    (let a := { act1 with sts := [(tileKey 0 0, { STile.init with active := true, done := false, pos := 4 })] }
     (a.port? (0, 0) false).map (fun x => (x.2.held, x.2.flight, x.1.total, x.2.pos)) = some ([], [], 4, 4)) := by decide +kernel
theorem test_hyps_run_ends : ended.allDone = true ∧ ended.ctxi + 1 < ended.cfg.nctx ∧ (ended.enter 1).2 = none ∧
    ({ ended with ctxi := 1 }).allDone = true ∧ ({ ended with ctxi := 1 }).ctxi + 1 = cfg1.nctx ∧ ended.notifies = 0 ∧
    (∀ x ∈ ended.cfg.sTiles, (ended.st x).flight = []) ∧
    (let a := { act1 with run := { act1.run with cancel := true } }
     (bPart .draining a).quiescent 0 0 = false ∧ ((bPart .draining a).part 0 0).drain.isSome = true) ∧
    (let a := { ended with run := { act1.run with cancel := true }, fifos := [] }
     (bPart .draining a).quiescent 0 0 = true ∧ a.complete = false) ∧ ((bPart .saved ended).part 0 0).st = .saved := by decide +kernel
/-! ### Hypotheses of the statements about commands and about what comes from outside -/

def bSt (x : CtxState) : State := bPages.modCtx 1 fun c => { c with st := x }
def idle : State := { bPages with cores := [] }
/-- A ring whose command is its first, of function 0 and of the PF. -/
def bRing : State := { bPages with funcs := [(0, { Func.init with tail := 1 }), (64, { Func.init with tail := 1 })] }
theorem test_hyps_commands : Ready bRing 0 ∧ (bRing.ctx 1).owner = 0 ∧ (bRing.ctx 1).owner ≠ 64 ∧ Ready bRing 64 ∧
    ((bSt .defined).ctx 1).st = .defined ∧ ((bSt .defined).ctx 1).hostq = [] ∧ ((bSt .saved).ctx 1).st = .saved ∧
    (bPages.ctx 1023).st = .undefined ∧ bPages.platform.life ≠ .decommissioned ∧
    (idle.ctx 1).st = .active ∧ idle.coresOf 1 = [] ∧ idle.clusters = [] ∧ idle.memStacks = [] ∧
    bPages.regOk 1 0x16 (BitVec.ofNat 64 (2 ^ 40)) = true ∧ ringSizeOk 65536 = true ∧
    bPages.fills = [] ∧ bPages.leavesIn 1 0xC0000 (2 ^ 18) = [] := by
  refine ⟨⟨?_, ?_⟩, ?_, ?_, ⟨?_, ?_⟩, ?_, ?_, ?_, ?_, ?_, ?_, ?_, ?_, ?_, ?_, ?_, ?_, ?_⟩ <;> decide +kernel
/-- A fill in progress on the range of an UNMAP, and none. -/
theorem test_hyps_unmap : bFlush.filling 1 0xC0000 1 = true ∧ bFlush.filling 1 0 4096 = false := by decide
/-- Pre-emption: the halt leaves the context ACTIVE; it kills it where a WATCHDOG that is due kills the quire and the record of
that finds no fault-record area. -/
def bDying : State := ((mk bPages (sig { path0 with wdog := some (0, 1, 0) })).setReg 1 rFRBASE 0xC0000).setReg 1 rFRSIZE 0x1000
theorem test_hyps_preempt_kills : (((bDying.coresOf 1).foldl (fun (s : State) n => s.haltCore n) bDying).ctx 1).st = .killing := by
  decide +kernel
theorem test_hyps_preempt : ((((bPages.coresOf 1).foldl (fun (s : State) n => s.haltCore n) bPages).ctx 1).st = .active) ∧ bPages.coresOf 1 = [0] := by
  decide +kernel
def busyAll : State := { bPages with ctxs := (List.range 64).map fun i => (i, { Ctx.init with st := .killing }) }
theorem test_hyps_commands_full :
    (busyAll.ctxs.filter fun (c : Nat × Ctx) => c.2.st ∈ [CtxState.active, .saving, .restoring, .killing]).length = 64 := by decide +kernel
/-- An area can be written wherever a page is mapped: the place of the report, whose last 3375 bytes are signatures. -/
theorem test_hyps_attest (bs : List Byte) (h : bs = List.replicate 128 0) : (bPages.areaWrite 1 0x1000 bs).isOk = true ∧ bs.length = 128 := by
  subst h; decide +kernel

/-- Budgets whose sum is at its limit; a partition that is idle; transitions of the life cycle. -/
theorem test_hyps_device : (∃ vals : BudgetVals, vals.parts.length = 8 ∧ vals.cd + vals.parts.foldl (· + ·) 0 + vals.ref = 1024 ∧ vals.ce ≤ vals.cd) ∧
    (0xFFCFF : Word64) &&& ~~~0xFFDFF = 0 ∧ (0xFFCFF : Word64).getLsbD 8 = false ∧ (bPages.part 11 7).st = .idle ∧
    LifeState.nexts bPages.platform.life ≠ [] ∧ bPages.platform.life ∉ LifeState.nexts bPages.platform.life ∧
    ((bPages.stack 11).chan 63).postponed = [] ∧ ((bPages.stack 11).chan 63).left.getD 10 0 = 32 ∧ ((bPages.stack 11).chan 63).left.length = 11 := by
  refine ⟨⟨⟨992, 992, [0, 0, 0, 0, 0, 0, 0, 0], 32⟩, ?_⟩, ?_⟩ <;> decide +kernel
/-- PARTSET of blocks that another partition has, beyond the grid, and of free ones; of a partition that runs. -/
def bSlots : State := { bPages with memStacks := [(0, { Stack.init with parts := (Stack.init.parts.set 0 (part1 .running (some act1))).set 1 { part1 .idle none with reg := 0 } })] }
theorem test_hyps_partset : (0x500 : Word64).getLsbD 8 = true ∧ (bSlots.part 0 0).reg.getLsbD 8 = true ∧
    (0, 0) ∈ prBlocks (bSlots.part 0 0).reg ∧ (0, 0) ∈ prBlocks 0x500 ∧ 3 < prBrow 0x513 + prBh 0x513 ∧ 3 < prBcol 0x54C + prBw 0x54C ∧
    (∀ b ∈ prBlocks 0x50F, b ∉ prBlocks (bSlots.part 0 0).reg) ∧ prBrow 0x50F + prBh 0x50F ≤ 3 ∧ prBcol 0x50F + prBw 0x50F ≤ 3 ∧
    (bSlots.part 0 0).st ≠ .idle ∧ (bSlots.part 0 1).st = .idle ∧ BudgetVals.ok ⟨992, 993, [0, 0, 0, 0, 0, 0, 0, 0], 32⟩ = false := by decide
/-- No image is accepted that does not name its magic. -/
theorem test_hyps_image : Platform.firmware bPages.platform [] = none := by decide
def chanLow (n : Nat) : PChan := { PChan.init with left := [992, 496, 0, 0, 0, 0, 0, 0, 0, 0, 3], postponed := List.replicate n 15, allBank := n == 8 }
theorem test_hyps_refresh : (chanLow 7).left.getD 10 0 < 4 ∧ (chanLow 7).postponed.count 15 = 7 ∧ (chanLow 8).postponed.count 15 = 8 ∧
    (chanLow 8).allBank = true := by decide

/-- A peer's write of 128 bytes in the page; the host's at the end of a function's window; a message for a group that is not
set; an RBLK in progress; a register out of its limits, and live grids. -/
def rop : RblkOp := ⟨0, 1, [], 0, 7, 0, 2, 0, 0, 1, 0, [], [], [], [], none, false, []⟩
def bGroup : State := bPages.modCtx 1 fun c => { c with groups := [(7, ⟨0, [(0, 1), (1, 1)], 1, []⟩)], rblk := [rop] }
theorem test_hyps_outside : bPages.memOk = true ∧ (bPages.ctx 1).st = .active ∧ PeerOp.sizeOk 128 (.write (List.replicate 128 1)) = true ∧
    bPages.reach 1 { w := true } anyPage [⟨0, 0, 128⟩] = .ok [.hbm 0x40000] ∧ (bPages.ctx 2).st ≠ .active ∧
    (hbmOf (0x100 * 2 ^ 32 + (bPages.func 64).bar2 + (2 ^ 36 - 64))).isSome = true ∧ (2 ^ 36 - 64) % 4096 + 64 = 4096 ∧ (2 ^ 36 - 64) + (List.replicate 64 (0 : Byte)).length ≤ 2 ^ 36 ∧
    AMap.get? (bPages.ctx 1).groups 7 = none ∧ (AMap.get? (bGroup.ctx 1).groups 7).isSome = true ∧
    (bGroup.ctx 1).rblk.find? (fun o => o.group == 7 && o.k == 0 && o.phase != 0) = some rop := by
  refine ⟨?_, ?_, ?_, ?_, ?_, ?_, ?_, ?_, ?_, ?_, ?_⟩ <;> decide +kernel
/-- Messages of group 7: well formed and not, of phases 1 to 3; one that is early; one from a context of this device. -/
def rmsg (phase nblk : Nat) : RblkMsg := { ctx := 1, group := 7, k := 0, phase := phase, rank := 1, nranks := 2, nblk := nblk, tag := 0, crc := (bGroup.group 1 7).crc, codes := [], mants := [] }
theorem test_hyps_messages : bGroup.outbox = [] ∧ (rmsg 1 1).nranks = (bGroup.group 1 7).members.length ∧ (rmsg 1 1).rank < (bGroup.group 1 7).members.length ∧
    (rmsg 1 1).rank ≠ (bGroup.group 1 7).rank ∧ (rmsg 1 1).nblk = rop.nblk ∧ (rmsg 1 2).nblk ≠ rop.nblk ∧ (bGroup.group 1 7).issued ≤ 1 ∧
    (({ bPages with outbox := [(Config.deviceNumber 0, 2, rmsg 1 1)] } : State).outbox.find? fun x => x.1 == Config.deviceNumber 0 && x.2.2 == rmsg 1 1) =
      some (Config.deviceNumber 0, 2, rmsg 1 1) := by
  refine ⟨by decide, by decide, by decide, by decide, by decide, by decide, by decide, ?_⟩
  simp
theorem test_hyps_register_writes : (bPages.ctx 1).grids ≠ [] ∧ (bPages.ctx 2).grids = [] ∧ bPages.regOk 1 0x0B 4096 = true ∧
    bPages.regOk 1 0x0B 4095 = false ∧ bPages.regOk 2 0x15 (1 + 65536 * 2 ^ 16) = bPages.feat 2 6 ∧
    (BitVec.ofNat 64 (2 ^ 26 - 1)).extractLsb' 37 26 = 0 ∧ (BitVec.ofNat 64 (2 ^ 62)).extractLsb' 37 26 ≠ 0 := by
  refine ⟨?_, ?_, ?_, ?_, ?_, ?_, ?_⟩ <;> decide +kernel

/-! ### Hypotheses of the statements about the machine -/

/-- Of a move that issues: the port chooses the path, and the line at PC 8 holds a word. -/
def bNop : State := State.reset.withFetchWord 96 0
def bNop1 : State := { bNop with tick := bNop.tick + 1, sel := none, platform := bNop.platform.serviceTick bNop.tick, agenda := [] }
theorem test_hyps_step : bNop.agenda = [.issue 0 0] ∧
    (bNop1.choose 0 0).map (fun x => x.2.2.pc == 8 && x.2.2.wdog.isNone && x.2.2.fault.isNone) = some true ∧
    bNop.reach 1 { x := true } anyPage [⟨0, 8, 4⟩] = .ok [.hbm 0x40008] ∧
    Mem.readN bNop.hbm 0x40000 8 = List.replicate 8 0 ∧ bNop.l2.stale = [] ∧ pcValid 8 = true ∧ (bNop.ctx 1).icache = [] := by
  refine ⟨?_, ?_, ?_, ?_, ?_, ?_, ?_⟩ <;> decide +kernel
/-- A context with a trap vector and cause 0x02 enabled, and its port's handler free or taken. -/
def bVec : State := (base.setReg 1 0x03 1024).setReg 1 0x04 (BitVec.allOnes 64)
theorem test_hyps_exception : ((mk bVec (sig path0)).env.map fun e0 => e0.guarded hdr0) = some (env bVec (sig path0) path0) ∧
    bVec.reg 1 0x03 ≠ 0 ∧ (bVec.reg 1 0x04).getLsbD 0x02 = true ∧ (env bVec (sig path0) path0).port.handler = none ∧
    (env (bTrap 8) (sig path0) path0).port.handler = some (0, 0) ∧ base.reg 1 0x03 = 0 :=
  ⟨by rw [mk_env _ _ _ rfl]; rfl, by decide +kernel, by decide +kernel, by decide +kernel, by decide +kernel, by decide +kernel⟩
/-- A guard that no lane passes; a JOIN with a guard (R106). -/
theorem test_hyps_no_lane : (S.env.map fun e0 => e0.guarded { hdr0 with cond := .t }).map (·.act) = some 0 ∧
    (0x07_04_0000_0000_0000_0000_0000 : InstrWord).extractLsb' 88 8 = 0x07 ∧ (0x07_04_0000_0000_0000_0000_0000 : InstrWord).extractLsb' 82 6 ≠ 0 := by
  refine ⟨?_, by decide, by decide⟩
  rw [show S.env = some E from mk_env _ _ _ rfl]
  decide +kernel
/-- An instruction that writes registers, and one that stores. -/
theorem test_hyps_frames : writes (.imad hdr0 oR ⟨.rne, .i64, false, false⟩) = some [(v 255, false)] ∧
    hdrOf (.imad hdr0 oR ⟨.rne, .i64, false, false⟩) = some hdr0 ∧
    leavesMemory (.st hdr0 ⟨v 0, s 0⟩ 0 ⟨4, false, false, 0⟩) = true ∧ E.sel.serial = false ∧ E.core.storeFull = false ∧
    (S.env.map fun e0 => e0.guarded hdr0) = some E ∧ S.memOk = true ∧ State.reset.memOk = true :=
  ⟨by decide, by decide, by decide, by decide, by decide, by rw [show S.env = some E from mk_env _ _ _ rfl]; rfl, by decide +kernel, by decide⟩
/-! ### Further hypotheses: DYN without a mode, special values, arms, checks on cells, held updates -/

/-- FPCTL code 5; an f32 that is a NaN, an infinity, a zero, negative, a power of two, −149, 127, 128, and one that is none of these. -/
theorem test_hyps_float_cases : 4 < (env (base.setReg 1 rFPCTL 5) (sig path0) path0).s.regN 1 rFPCTL % 8 ∧ FP32.decode 0x7FC00000 = .nan ∧
    FP32.decode 0xFF800000 = .inf true ∧ (∃ n, FP32.decode 0x80000000 = .fin true 0 n) ∧ (∃ k n, FP32.decode 0xBF800000 = .fin true k n ∧ k ≠ 0) ∧
    (∃ n, FP32.decode 0x40000000 = .fin false (2 ^ 23) n) ∧
    (∃ n, FP32.decode 0xC3150000 = .fin true 0x950000 n ∧ 0x950000 * 2 ^ n.toNat = 149 * 2 ^ (-n).toNat) ∧
    (∃ n, FP32.decode 0x42FE0000 = .fin false 0xFE0000 n ∧ 0xFE0000 * 2 ^ n.toNat = 127 * 2 ^ (-n).toNat) ∧
    (∃ n, FP32.decode 0x43000000 = .fin false 0x800000 n ∧ 128 * 2 ^ (-n).toNat ≤ 0x800000 * 2 ^ n.toNat) ∧
    (∀ fn ∈ [ApproxFn.rsq, .ex2, .lg2, .sin, .cos, .tanh], fn.special (FP32.decode 0x3F400000) = none) := by
  refine ⟨by decide, by decide, by decide, ⟨_, rfl⟩, ⟨_, _, rfl, by decide⟩, ⟨_, rfl⟩, ⟨_, rfl, by decide⟩, ⟨_, rfl, by decide⟩, ⟨_, rfl, by decide⟩, by decide⟩

/-- A nest of three arms: two are deferred, the upper one of no lane, the lower one of one lane or none. -/
def gArms (m : Mask) : Sig := { sig { path0 with nest := some 0, mask := 12 } with stack :=
  [⟨0, true, 0, 15, 15, 0, 3, 0, none, false⟩, ⟨1, false, 0, m, m, 44, 0, 2, none, false⟩, ⟨2, false, 0, 0, 0, 32, 0, 1, none, false⟩] }
theorem test_hyps_arms : ((gArms 1).stack.map (·.id)).Nodup ∧ (gArms 1).stack.find? (fun x => x.join && x.id == 0) = (gArms 1).stack.head? ∧
    (arrival (gArms 1).stack 0 3).1 = 1 ∧ (arrival (gArms 1).stack 0 3).2.2.1.map (·.pidx) = some 2 ∧ (arrival (gArms 0).stack 0 3).1 = 0 ∧
    (gArms 0).stack.head?.map (·.mask) = some 15 ∧ (12 : Mask) &&& ~~~(12 : Mask) = 0 ∧
    (let e := env base (gArms 1) { path0 with nest := some 0, mask := 12 }
     let p : PartSpec := { reason := 0x0B, evkey := 1, resume := e.next, wait := .none, arm := (arrival e.sig.stack 0 3).2.2.1.map (armPath e) }
     (e.part (e.modSig e.s fun g => { g with stack := (arrival g.stack 0 3).2.2.2 }) p).isOk) = true := by decide +kernel
/-- EXIT of a signature that holds a clasp, with and without a store on its way, in both modes. -/
def bHolds (b : State) : State := { (b.setCell 0x80000 (cell 1 1 0 0)) with holders := [(claspKey 1 0x40000, (sig pathA).uid)] }
theorem test_hyps_exit_clasps : (bHolds bPages).claspsOf (sig pathA).uid = [claspKey 1 0x40000] ∧
    (bHolds bPages).storesLeft (sig pathA).uid = false ∧ (bHolds bPend).storesLeft (sig pathA).uid = true ∧
    (bHolds (bPages.setReg 1 0x15 (1 + 256 * 2 ^ 16))).det 1 = true ∧ ((bHolds bPages).cellNow 1 (claspKey 1 0x40000 % 2 ^ 54)).isSome = true := by
  decide +kernel

/-- Page 2 is a SYNC page that the grid names and that is away; the first page lies in the host's aperture. -/
def bAway : State := { bPages with hbm := Mem.writeN bPages.hbm 0x4010 (bytesOfNat 8 0xB3) }.modCtx 1 fun c => { c with
  grids := [(1, { grid1 with blk := { grid1.blk with syncpg := 0x40000 :: 0x80000 :: List.replicate 6 0 } })] }
def answersOf (b : State) (n : Need) (va : Word64) : Nat × List Nat :=
  let e := env b gAddr pathA
  match e.s.reach 1 n e.syncNamed [⟨0, va, 64⟩] with
  | .fail x => (x.cause, [])
  | .absent pages _ => (0, pages.map (·.va))
  | .ok ps => (0, ps.map fun _ => 0)
theorem test_hyps_cell_checks : answersOf bPages { r := true, w := true } 0 = (0x18, []) ∧ answersOf bPages { r := true, w := true } 1 = (0x05, []) ∧
    answersOf bPages { r := true, w := true } 0xC0000 = (0x06, []) ∧ answersOf bPages { r := true, w := true } 0x80000 = (0x18, []) ∧
    answersOf bAway { r := true, w := true } 0x80000 = (0, [0x80000]) ∧ answersOf bPages { r := true, w := true } 0x40000 = (0, [0]) ∧
    bPages.reach 1 { r := true, noSync := true } anyPage [⟨0, 0x40000, 64⟩] = .fail ⟨0x07, 0x40000, none⟩ := by decide +kernel
/-- RED and ATOM without a result, held for the serial phase. -/
theorem test_hyps_held_updates : ED.s.det ED.sig.ctx = true ∧ ED.sel.serial = false ∧ Issues (mk (bPages.setReg 1 0x15 (1 + 256 * 2 ^ 16)) gAddr) hdr0 [z, s 0, v 255, z] ED ∧
    ED.ops4Ok ⟨z, s 0, v 255, z⟩ { kinds := [.v, .idx, .zero] } { kinds := [.v, .s] } { kinds := [.v, .s, .idx, .imm, .zero], fp := false } unused = true ∧
    ED.ops4Ok ⟨z, s 0, v 255, z⟩ unused { kinds := [.v, .s] } { kinds := [.v, .s, .idx, .imm, .zero], fp := false } unused = true :=
  ⟨by decide, by decide, issues _ _ _ _ rfl (by decide) (.inr (by decide)), by decide, by decide⟩
/-- A range of lines that ends behind the address space. -/
theorem test_hyps_past_the_end : let a := 2 ^ 54 - 64; let va := a / 128 * 128; (0 < 128) ∧ 128 ≤ 2 ^ 36 ∧ 2 ^ 54 < va + ((a + 128 + 127) / 128 * 128 - va) := by
  decide
/-- Points at which an arrival is one too many, leaves bytes to come, completes a phase, or finds more bytes than declared. -/
theorem test_hyps_arrivals : (EP full).ops4Ok ⟨z, k 0, z, z⟩ { kinds := [.s, .zero] } { kinds := [.s, .imm] } { kinds := [.s, .imm, .zero] } unused = true ∧
    (∀ x ∈ [((⟨0, 4, 4, 0, 0, 0⟩ : RvPoint), 0), (⟨0, 4, 3, 0, 0, 0⟩, 0), (⟨0, 4, 3, 8, 9, 0⟩, 2), (⟨0, 4, 3, 9, 8, 0⟩, 1), (⟨0, 4, 2, 0, 9, 0⟩, 3)],
      x.1.expect ≠ 0 ∧ x.1.poison = 0 ∧ (EP x.1).quire.map (fun q => q.points[0]?) = some (some x.1) ∧
      (match x.2 with
        | 0 => decide (x.1.arr = x.1.expect) || decide (x.1.arr + 1 = x.1.expect ∧ x.1.deliv = (x.1.expb + 0) % 2 ^ 64)
        | 1 => decide (x.1.arr + 1 = x.1.expect ∧ x.1.deliv < x.1.expb)
        | 2 => decide (x.1.arr + 1 = x.1.expect ∧ x.1.expb < x.1.deliv)
        | _ => decide (x.1.arr ≠ x.1.expect ∧ x.1.arr + 1 ≠ x.1.expect)) = true) := by decide +kernel
/-- MBARR of two arrivals, with no register; MBINIT where a record waits for a generation of the cell. -/
def bWaits : State := got ((EC (cell 2 0 4 3)).part (EC (cell 2 0 4 3)).s
  { reason := 0x08, evkey := 0x40000, evaux := 5, resume := 20, wait := .membar 0x40000 5 })
theorem test_hyps_two_arrivals : (EC (cell 2 0 4 3)).ops4Ok ⟨z, s 1, k 2, z⟩ { kinds := [.s, .zero] } { kinds := [.s] } { kinds := [.s, .imm, .zero] } unused = true ∧
    uVal (EC (cell 2 0 4 3)) (k 2) = 2 ∧ ((bWaits.core 0).records.map fun r => bWaits.waitsCell 1 0x80000 r) = [true] := by decide +kernel

/-- A queue of 256 entries, with room in its overflow and without. -/
def bFull (olen : Nat) : State := (((bPages.setReg 1 0x0E 0).setReg 1 0x0F 0x8000).setReg 1 0x10 0x1000).modCtx 1 fun c => { c with
  devq := [(3, { DevQ.init with len := 256, olen := olen })] }
theorem test_hyps_overflow : (AMap.getD ((bFull 0).ctx 1).devq 3 DevQ.init).len = 256 ∧ (bFull 0).regN 1 0x10 / 16 / 256 = 1 ∧
    (AMap.getD ((bFull 0).ctx 1).devq 3 DevQ.init).olen = 0 ∧ (bFull 1).regN 1 0x10 / 16 / 256 ≤ (AMap.getD ((bFull 1).ctx 1).devq 3 DevQ.init).olen := by
  decide +kernel
theorem test_hyps_overflow_area : ((bFull 0).areaWrite 1 ((bFull 0).regN 1 0x0F + 3 * ((bFull 0).regN 1 0x10 / 16)) (List.replicate 256 1)).isOk = true ∧
    ((env (bFull 0) gAddr pathA).part (env (bFull 0) gAddr pathA).s
      { reason := 0x0D, evkey := 3, resume := 20, wait := .launch 256 }).isOk = true := by decide +kernel
/-- COPY with a word; with a task and no table; to a point that is not there, and one that is not set; from a space that is none. -/
theorem test_hyps_copy_faults : (CpMod.mk 0 1 3).ck.toNat = 3 ∧ (CpMod.mk 0 1 2).ck.toNat = 2 ∧ E.grid.map (·.blk.tasktab) = some 0 ∧
    ECp.quire.map (fun q => decide (q.points.length ≤ uVal ECp (k 24))) = some true ∧
    ECp.quire.map (fun q => q.points[0]?.map (·.expect)) = some (some 0) ∧
    ECp.ops4Ok ⟨z, s 0, s 1, s 2⟩ { kinds := [.h, .zero] } { kinds := [.s] } { kinds := [.s] } { kinds := [.s] } = true := by decide +kernel
/-- Offsets of B and C that are not aligned; a stack and a key that are none. -/
theorem test_hyps_engine_faults : (64 : Nat) % 64 = 0 ∧ (32 : Nat) % 64 ≠ 0 ∧ (64 : Nat) % 128 ≠ 0 ∧ (MatCtl.parse (ctl33 + 512)).coff % 1024 ≠ 0 ∧
    11 < uVal EA (k 12) ∧ 255 < uVal EA (k 256) ∧ EA.ops4Ok ⟨z, s 0, k 1, k 12⟩ { kinds := [.h, .zero] } { kinds := [.s] } { kinds := [.s, .imm] } { kinds := [.s, .imm] } = true := by
  decide +kernel

/-! ### Further hypotheses: selectors, arrivals, rivals, the thimble and page fills -/

/-- Selectors of the groups 1 to 5 and of nothing; a context that owns a slot, with and without the right to monitor. -/
def monitors (b : Bool) : State := (bArr (part1 .idle none)).setReg 1 0x17 (if b then 1 else 0)
theorem test_hyps_selectors : (∀ x ∈ [(0x40000, some 1), (0x5701C, some 1), (0x80000, some 2), (0xC0000, some 3), (0xC0008, some 3),
      (0x100303, some 4), (0x140000 + 255, some 5), (0x23, none), (0x4001D, none), (0x180000, none)],
      (Selector.parse (BitVec.ofNat 32 x.1)).map (·.group) = x.2) ∧
    ((monitors true).reg 1 0x17).getLsbD 0 = true ∧ ((monitors false).reg 1 0x17).getLsbD 0 = false ∧
    ((monitors false).part 0 0).reg.getLsbD 8 = true ∧ ((monitors false).part 0 0).reg.toNat / 2 ^ 10 % 1024 = 1 ∧ ((monitors false).part 0 1).reg.getLsbD 8 = false := by
  decide +kernel

/-- Loads of a pair, of two interval images of which the second has its bounds in the wrong order, of a destination above the budget,
and one whose value has come. -/
def pair2 : List Access := [⟨0, 0, .hbm 0x40000, 8, .read, none⟩, ⟨0, 8, .hbm 0x40008, 8, .read, none⟩,
  ⟨1, 0x10000, .hbm 0x50000, 8, .read, none⟩, ⟨1, 0x10008, .hbm 0x50008, 8, .read, none⟩]
def bLoads (d : Operand) (iv pair : Bool) (acc : List Access) : State :=
  let e := { EA with s := { EA.s with hbm := Mem.writeN (Mem.writeN EA.s.hbm 0x40008 (bytesOfNat 8 9)) 0x50000 (bytesOfNat 8 0x3FF0000000000000) } }
  got (e.part e.s (loadPart e d false iv pair false (fun _ => 0) acc))
def arrivalHyps (s : State) : Option (Wait × Bool × Nat) :=
  ((s.core 0).records.find? fun r => r.pseq == 0 && !r.ready && r.late.isEmpty).bind fun r => (s.sig? 0 r.slot).map fun g =>
    (r.wait, (match r.wait with | .load _ _ _ _ _ sc acc => s.loadWaits g r sc acc || acc.any fun a => s.racesPend g.uid r.wait.interval a | _ => true), g.B)
theorem test_hyps_arrival : arrivalHyps (bLoads (v 254) false true pair2) = some (.load (.v 254) (Operand.bits (v 254)) false false true false pair2, false, 256) ∧
    arrivalHyps (bLoads (v 254) true true pair2) = some (.load (.v 254) (Operand.bits (v 254)) false true true false pair2, false, 256) ∧
    ((bLoads (v 254) false true pair2).fetchLines pair2).1 = true ∧ FP64.ivOk ⟨0, 9⟩ = true ∧ FP64.ivOk ⟨0x3FF0000000000000, 0⟩ = false := by
  decide +kernel
theorem test_hyps_arrival_given : (let acc : List Access := [⟨0, 0, .hbm 0x40000, 8, .rmw 0 false 1, some 5⟩]
     arrivalHyps (bLoads (v 7) false false acc) = some (.load (.v 7) (Operand.bits (v 7)) false false false false acc, false, 256)) ∧
    (let s := (bLoads (v 254) false true pair2).modSig 0 0 fun g => { g with B := 255 }
     arrivalHyps s = some (.load (.v 254) (Operand.bits (v 254)) false false true false pair2, false, 255) ∧ ¬ 254 + 1 < 255) := by decide +kernel
/-- Another signature's store to the upper half of a write on its way. -/
def bRival : State := bPend.modCore 0 fun c => { c with pend := c.pend ++
  [⟨1, 9, 1, ⟨0, 4, .hbm 0x40004, 4, .write (bytesOfNat 4 7), none⟩, 0, false, 1, none, [], false⟩] }
theorem test_hyps_rivals : ((bRival.core 0).pend.map fun w => (bRival.core 0).pend.map fun x => x.rival w.uid w.acc) = [[false, true], [true, false]] ∧
    ((Place.hbm 0x40000).add 3).meets 1 (.hbm 0x40004) 4 = false ∧ ((Place.hbm 0x40000).add 4).meets 1 (.hbm 0x40004) 4 = true := by decide +kernel

/-- The thimble at node 2 with a read and an update, and at a notify port with one arrival. -/
def scAt (op : MemOp) (w : Option Nat) : ScOp := ⟨0, 1, 1, 0, 0, 1, w, ⟨0, 8, .hbm 0x40008, 8, op, none⟩, w.isNone, [], 2⟩
def bThimble (n : Nat) : State := { bPages with
  thimble := ⟨n, [(2, [scAt .read (some 0), scAt (.rmw 0 false 5) none])], [], 2⟩
  memStacks := [(0, { Stack.init with notify := [⟨1, 1, 0, 0, 0x80000, 0x40400, bytesOfNat 8 6, []⟩] })] }
theorem test_hyps_thimble : (AMap.getD (bThimble 2).thimble.queues 2 []).length = 2 ∧
    ((bThimble 2).fetchLines [⟨0, 8, .hbm 0x40008, 8, .read, none⟩]).1 = true ∧ (bThimble 2).eccMeets (scAt .read none).acc = false ∧
    ((bThimble 64).stack 0).notify.length = 1 ∧ (bThimble 64).memOk = true ∧ (bThimble 2).l2.stale = [] ∧ (bThimble 64).det 1 = false := by decide +kernel
/-- Fills of page 2 into the frame 0xC0000, of zeros and of the host's bytes. -/
def backing (kind : Nat) : List Byte := bytesOfNat 8 0xC0000 ++ bytesOfNat 8 (2 ^ 42) ++ bytesOfNat 8 kind ++ bytesOfNat 8 (2 ^ 18)
@[inherit_doc backing] def bKind (kind : Nat) : State :=
  ({ bPages with hbm := Mem.writeN bPages.hbm 0x40200 (backing kind) }.setReg 1 0x13 0x200).setReg 1 0x14 1
theorem test_hyps_fill_image : (∀ kind ∈ [1, 3], let b := bKind kind
    (b.walk 1 0x80000).map (fun l => (l.res, l.addr, l.size, l.entry, l.cmp)) = some (false, 0, 2 ^ 18, 0x4010, false) ∧ b.regN 1 0x14 = 1 ∧ b.memOk = true ∧
    b.reach 1 { r := true } (fun _ => true) [⟨0, BitVec.ofNat 64 (b.regN 1 0x13), 64⟩] = .ok [.hbm 0x40200] ∧ b.l2.stale = [] ∧
    ((b.walk 1 0x80000).bind fun l => (Backing.parse (Mem.readN b.hbm 0x40200 64) l).map fun x => (x.kind, x.frame)) = some (kind, 0xC0000)) ∧
    (∀ i, i < 8 → offsetIn 0xC0000 (2 ^ 18) (0x4010 + i) = none) ∧ (bKind 1).placeOf 1 (2 ^ 42) = some (.host 0) := by
  refine ⟨?_, ?_, ?_⟩ <;> decide +kernel

/-! ### Further hypotheses: engines, tiles, commands and checks before an effect -/

/-- A copy from LM to the A-buffer: FP16 to E4M3 with padding, and to MX blocks; a box of 32 by 2 elements. -/
def toBuf (dfmt scl : Nat) : CopyOp := { copyOp 0 false with
  sspace := 1, dspace := 2
  plan := some (⟨0, 4, 2, false, 0, 0, 0, [30, 2], [0, 64]⟩, ⟨List.replicate 8 0, [32, 2, 1, 1, 1, 1, 1, 1], 64, dfmt, false, false, scl, 0, 0⟩) }
theorem test_hyps_copy_chunk : (∀ x ∈ [(5, 0), (9, 2)], let b := bEng (toBuf x.1 x.2) (matOp .mma 2)
    b.nextCopy 0 = some (toBuf x.1 x.2) ∧ b.touched = [] ∧ b.softErrs = [] ∧ (b.quire? 0 0).isSome = true ∧
    (match (toBuf x.1 x.2).plan with
      | some (d, w) => decide (0 < w.data) && (List.range 8).all (fun i => decide (1 ≤ w.boxAt i)) && w.wd == 32 && w.wd % packGroup w.dfmt == 0 && d.sfmt == 4 &&
        decide (w.scl = 2 → 5 ≤ w.dfmt ∧ w.dfmt ≤ 10) && decide (w.start.length = 8) && decide (d.ext 0 ≤ w.start.getD 0 0 + 31)
      | none => false) = true) := by decide +kernel
/-- Tile steps: of BF16 panels; of a sparse B whose indices are all 0; of intervals, with an A that holds a NaN. -/
def bMat (kind : MatKind) (af : Nat) (a : Mem) : State :=
  let o := { matOp kind 1 with c := BitVec.ofNat 64 (af * 2 ^ 18 + af * 2 ^ 22 + 2 ^ 33) }
  ({ bPages with clusters := [(0, { Cluster.init with mats := [o], nextId := 2 })] }).modCore 0 fun k => { k with mem := k.mem.set 2 a }
theorem test_hyps_tile_step : ([(MatKind.mma, 3), (.mmas, 3), (.mma, 2)].all fun x => (bMat x.1 x.2 []).touched.isEmpty && (((bMat x.1 x.2 []).nextMat 0).map fun o =>
      (o.kind == x.1 && !o.g && !o.raced && o.quire == 0, (MatShape.of o.c.toNat (o.kind == .mmas) o.n).map fun p =>
        ((bMat x.1 x.2 []).stepSpoiled o p, p.sparse && !sparseOk p.ctl.af p.ctl.bf p.ctl.mx, decide (1 < p.kept), p.rule == .intervals))) ==
      some (true, some (false, false, true, x.2 == 2))) = true ∧
    ivCodeOk (bitsAt (((bMat .mma 2 [(6, 0xF8), (7, 0x7F)]).core 0).mem.get 2) 0 0 64) = false ∧ ivCodeOk 0 = true ∧
    bitsAt (((bMat .mmas 3 []).core 0).mem.get 1) 0 7 7 ≤ bitsAt (((bMat .mmas 3 []).core 0).mem.get 1) 0 0 7 := by decide +kernel

/-- A C tile at (0, 1) with three inputs, under a word; its context word from its fields. -/
def wordOf (opc a b c imm : Nat) : BitVec 128 := BitVec.ofNat 128 (opc + a * 2 ^ 8 + b * 2 ^ 12 + c * 2 ^ 16 + 2 ^ 20 + 2 ^ 23 + imm * 2 ^ 32)
def actC (w : BitVec 128) (heads : List (List Token)) (t : CTile) : Active := { act1 with
  cfg := { cfg1 with
    tiles := [((0, 1), 1, [(0, w), (1, w)])]
    links := [⟨0, 0, 0, [((0, 1), (0, [1]))]⟩, ⟨1, 0, 0, [((0, 1), (1, [1]))]⟩, ⟨2, 1, 0, [((0, 1), (2, [1]))]⟩, ⟨0, 1, 0, [((0, 5), (0, [1, 1]))]⟩] }
  cts := [(tileKey 0 1, t)], mts := [], sts := [(tileKey 0 0, { STile.init with done := true }), (tileKey 0 5, { STile.init with done := true })]
  fifos := [(0, heads.getD 0 []), (4, heads.getD 1 []), (8, heads.getD 2 [])] }
def ready (w : BitVec 128) (heads : List (List Token)) (t : CTile) : Option (List (Option Token) × Bool × Bool × Bool × Nat) :=
  let a := actC w heads t
  let s := bArr (part1 .running (some a))
  if s.running? 0 0 = some a ∧ a.word? (0, 1) = some w ∧ (a.ct (0, 1)).done = false ∧ wInputs w ≠ [] then
    some ((wInputs w).map (a.head (0, 1)), a.outsOk (0, 1) w, a.linesHold (0, 1) w, a.linesRoom (0, 1) w, (a.ct (0, 1)).count) else none
def t1 : CTile := { CTile.init with count := 1, held := some 9, x := 100 }
/-- FADD on DATA, NULL, END and a mismatch; BRANCH, MERGE, ACC; QMAX, QCVT and CELL with what they hold, and before; NOTIFY. -/
theorem test_hyps_c_tile : (([(0x01, [[Token.data 7], [.data 8]], CTile.init), (0x01, [[.null], [.data 8]], CTile.init), (0x01, [[.fin], [.fin]], CTile.init),
      (0x01, [[.fin], [.data 8]], CTile.init), (0x30, [[.data 7], [.data 0]], CTile.init), (0x30, [[.data 7], [.data 1]], CTile.init),
      (0x31, [[.data 7], [.null]], CTile.init), (0x31, [[.null], [.null]], CTile.init), (0x3E, [[.data 7], [.data 8]], CTile.init),
      (0x3E, [[.data 7], [.data 8]], t1), (0x3E, [[.fin], [.fin]], t1)] : List (Nat × List (List Token) × CTile)).all fun x =>
      ready (wordOf x.1 1 2 0 5) x.2.1 x.2.2 == some (x.2.1.map List.head?, true, true, true, x.2.2.count)) = true ∧
    (([(0x39, [[Token.data 7]], CTile.init), (0x39, [[.null]], CTile.init), (0x39, [[.fin]], { CTile.init with count := 2 }), (0x3D, [[.null]], CTile.init),
      (0x3D, [[.data 7]], CTile.init), (0x3D, [[.data 7]], t1), (0x3D, [[.fin]], t1), (0x3C, [[.data 7]], CTile.init), (0x3C, [[.fin]], CTile.init)] : List (Nat × List (List Token) × CTile)).all fun x =>
      ready (wordOf x.1 1 0 0 5) x.2.1 x.2.2 == some (x.2.1.map List.head?, true, true, true, x.2.2.count)) = true ∧
    (([([[Token.data 7], [.data 8], []], t1), ([[.null], [.data 8], []], t1), ([[], [], [.data 8]], CTile.init)] : List (List (List Token) × CTile)).all fun x =>
      ready (wordOf 0x40 1 2 3 10) x.1 x.2 == some (x.1.map List.head?, true, true, true, x.2.count)) = true := by decide +kernel
/-- NOTIFY's places: not in the space, unmapped, no SYNC page that the run names, away, no barrier, and good ones. -/
def bNotify (c : Cell) : State := bAway.setCell 0x80000 c
theorem test_hyps_notify_places : (let check := fun (b : State) va cell => match b.notifyCheck 1 [0x40000, 0x80000] va cell with
        | .fault c => (c, [])
        | .absent l => (0, [l.va])
        | .ok p => (0, [p])
     check (bNotify (cell 2 0 4 0)) (2 ^ 54) true = (0x07, []) ∧ check (bNotify (cell 2 0 4 0)) 0xC0000 true = (0x06, []) ∧
     check (bNotify (cell 2 0 4 0)) 0x80000 true = (0, [0x80000]) ∧ check (bNotify (cell 2 0 4 0)) 0x40000 true = (0, [0x80000]) ∧
     check (bNotify (cell 1 0 4 0)) 0x40000 true = (0x18, []) ∧ check (bNotify (cell 1 0 4 0)) 0x40000 false = (0, [0x80000])) ∧
    (actC (wordOf 0x3C 1 0 0 0) [[.data 7]] CTile.init).upstreamDone (wordOf 0x3C 1 0 0 0) = true ∧ bPages.pageBack 1 none = true := by decide +kernel
/-- A write port at NULL, at END, and at a word beyond its walk. -/
def atPort (tok : Token) (pos : Nat) : Active := { act1 with fifos := [(4, [tok])]
                                                             sts := [(tileKey 0 5, { STile.init with active := true, done := false, pos := pos })] }
theorem test_hyps_port_ends : (∀ x ∈ [(Token.null, 1), (.fin, 1), (.data 7, 4)], let a := atPort x.1 x.2
    (bArr (part1 .running (some a))).running? 0 0 = some a ∧ a.head (0, 5) 0 = some x.1 ∧
    (a.port? (0, 5) true).map (fun y => (y.2.done, y.2.endSeen, y.2.pos, y.1.total)) = some (false, false, x.2, 4)) := by decide +kernel

/-- Registers in and out of their limits; selectors of nothing and of another group; member lists in a page, with a good device and a bad one. -/
theorem test_hyps_ctxwrite : ([(0x03, 1032), (0x04, 1), (0x0B, 4096), (0x16, 2 ^ 40), (0x17, 1), (0x05, 0x100000), (0x13, 0x1000), (0x14, 4)].map fun x =>
      bPages.regOk 1 x.1 (BitVec.ofNat 64 x.2)) = List.replicate 8 true ∧ bPages.regOk 1 0x0B 4095 = false ∧ bPages.regOk 1 0x13 1 = false ∧
    (Selector.parse 0x23) = none ∧ (Selector.parse 0x40000).map (·.group) = some 1 ∧ (bPages.ctx 1).grids ≠ [] ∧ (bPages.ctx 1).owner = 0 ∧
    (((bSt .defined).modCtx 1 fun c => { c with grids := [] }).ctx 1).st ≠ .undefined := by decide +kernel
def bList (dev : Nat) : State := { bPages with hbm := Mem.writeN bPages.hbm 0x41000 (bytesOfNat 2 1 ++ bytesOfNat 2 7 ++ bytesOfNat 2 dev ++ bytesOfNat 2 1) }
theorem test_hyps_members : ([2, 300].all fun dev => match (bList dev).areaRead 1 0x1000 8 with
      | .ok (bs, _) => ((List.range 2).map fun i => (natOfBytes ((bs.drop (4 * i)).take 2), natOfBytes ((bs.drop (4 * i + 2)).take 2))) == [(1, 7), (dev, 1)]
      | .error _ => false) = true ∧ (match bPages.areaRead 1 0xC0000 8 with | .ok _ => false | .error _ => true) = true := by decide +kernel
/-- No earlier request of the device's own; an operation that has not sent its phase 1; a message that names a bad rank. -/
theorem test_hyps_messages_kept : bPages.ownEarlier ⟨1, 0, 128, .write (List.replicate 128 1)⟩ = false ∧
    (let b := bPages.modCtx 1 fun c => { c with groups := [(7, ⟨0, [(0, 1), (1, 1)], 1, []⟩)], rblk := [{ rop with phase := 1 }] }
     (b.ctx 1).rblk.find? (fun o => o.group == 7 && o.k == 0 && o.phase != 0) = some { rop with phase := 1 }) ∧
    ¬ ({ rmsg 1 1 with rank := 2 } : RblkMsg).rank < (bGroup.group 1 7).members.length := by decide +kernel

/-- The line of code is there, or is on its way. -/
theorem test_hyps_code_line : (bNop1.codeReady 1 8).1 = true ∧ ((noCd bNop1).codeReady 1 8).1 = false := by decide +kernel
/-- Each check before an effect fails for some state; where none does, no lane need be active, and an index may lie outside its window. -/
def dem (i : Instr) : Demand := (demand i).getD { ops := [], fits := fun _ => true }
def failsAt (i : Instr) (e : Env) : Option Nat := firstFailure e (dem i)
def gWin : Sig := { sig path0 with k := Vector.replicate 4 (8, 16), B := 12 }
theorem test_hyps_checks :
    failsAt (.fadd hdr0 ⟨v 1, v 2, v 3, z⟩ ⟨.dyn, .f32, false, false⟩) (env (base.setReg 1 rFPCTL 5) (sig path0) path0) = some 0x01 ∧
    failsAt (.ivadd hdr0 ⟨v 0, v 2, v 4, z⟩ ⟨.rne, .iv32, false, false⟩) (env (base.setReg 1 0x1F 0) (sig path0) path0) = some 0x1A ∧
    failsAt (.mov hdr0 ⟨v 0, .t 1 false false, z, z⟩ ⟨false⟩) E = some 0x19 ∧ failsAt (.tretRetry hdr0 ⟨z, z, z, z⟩) E = some 0x19 ∧
    failsAt (.mov hdr0 ⟨v 0, .p 1, z, z⟩ ⟨false⟩) E = some 0x02 ∧ failsAt (.mov hdr0 ⟨v 0, v 1, z, z⟩ ⟨false⟩) { E with act := 0 } = none ∧
    (let i : Instr := .mov hdr0 ⟨v 0, .idx 0 4 false false, z, z⟩ ⟨false⟩
     let e := env base gWin path0
     failsAt i e = none ∧ Turn e ∧ (dem i).index.map (fun o => (e.indexFault [o]).map (·.t2)) = [none, some 12]) ∧
    (env base gWin path0).indexFault [(.idx 0 3 false false, false)] = none ∧ (env base gWin path0).indexFault [(.idx 0 3 false false, true)] ≠ none ∧
    (env base gWin path0).indexFault [(.idx 0 (-8) false false, true)] = none ∧ (env base gWin path0).indexFault [(.idx 0 (-9) false false, false)] ≠ none := by
  refine ⟨by decide, by decide, by decide, by decide, by decide, by decide, ⟨by decide, .inl (by decide), by decide⟩, by decide, by decide, by decide, by decide⟩

/-! ### Words of every instruction, with the codes and fields of the manual's tables (R15, R16, R19) -/

/-- Formats R, I and J, by their fields from bit 95 down, without a guard. -/
def wR (op : BitVec 8) (d a b c : BitVec 16) (m : BitVec 10) : InstrWord := op ++ 0#14 ++ d ++ a ++ b ++ c ++ m
@[inherit_doc wR] def wI (op : BitVec 8) (d a : BitVec 16) (imm : BitVec 32) (m : BitVec 10) : InstrWord := op ++ 0#14 ++ d ++ a ++ imm ++ m
@[inherit_doc wR] def wJ (op : BitVec 8) (d a : BitVec 16) (t u : BitVec 21) : InstrWord := op ++ 0#14 ++ d ++ a ++ t ++ u

theorem test_decode_control : ∀ x ∈ ([
    (wR 0x01 0x8000 0x8000 0x8000 0x8000 0x000, .nop hdr0 ⟨z, z, z, z⟩),
    (wJ 0x02 0x8000 0x8000 0x1FFFEB 0x0, .bra hdr0 ⟨z, z⟩ 0x1FFFEB 0x0),
    (wJ 0x03 0x8000 0x4001 0x4 0x9, .btri hdr0 ⟨z, .p 1⟩ 0x4 0x9),
    (wR 0x04 0x8000 0x0003 0x8000 0x8000 0x000, .brx hdr0 ⟨z, v 3, z, z⟩),
    (wJ 0x05 0x1007 0x8000 0x1 0x0, .call hdr0 ⟨s 7, z⟩ 0x1 0x0),
    (wR 0x06 0x8000 0x1007 0x8000 0x8000 0x000, .ret hdr0 ⟨z, s 7, z, z⟩),
    (wR 0x07 0x8000 0x8000 0x8000 0x8000 0x000, .join hdr0 ⟨z, z, z, z⟩),
    (wR 0x08 0x8000 0x8000 0x8000 0x8000 0x000, .exit hdr0 ⟨z, z, z, z⟩),
    (wR 0x09 0x8000 0x8000 0x8000 0x8000 0x000, .yield hdr0 ⟨z, z, z, z⟩),
    (wI 0x0A 0x8000 0x8000 0x00000005 0x000, .trap hdr0 ⟨z, z⟩ 0x5),
    (wR 0x0B 0x8000 0x8000 0x8000 0x8000 0x000, .tretRetry hdr0 ⟨z, z, z, z⟩),
    (wR 0x0B 0x8000 0x8000 0x8000 0x8000 0x001, .tretSkip hdr0 ⟨z, z, z, z⟩),
    (wR 0x0B 0x8000 0x8000 0x8000 0x8000 0x002, .tretKill hdr0 ⟨z, z, z, z⟩),
    (wR 0x0C 0x8000 0x3009 0x8000 0x8000 0x000, .bpt hdr0 ⟨z, k 9, z, z⟩),
    (wJ 0x0D 0x1002 0x8000 0x1FFFEE 0x0, .loopd hdr0 ⟨s 2, z⟩ 0x1FFFEE 0x0)] : List (InstrWord × Instr)), decode x.1 = .ok x.2 := by decide
theorem test_decode_cross_lane : ∀ x ∈ ([
    (wR 0x10 0x0001 0x0002 0x3003 0x8000 0x1D8, .shfl hdr0 ⟨v 1, v 2, k 3, z⟩ ⟨false, 3, 11, 0⟩),
    (wR 0x11 0x1002 0x4001 0x8000 0x8000 0x181, .vote hdr0 ⟨s 2, .p 1, z, z⟩ ⟨false, 3, 0, 1⟩),
    (wR 0x12 0x1001 0x0000 0x8000 0x8000 0x05C, .redux hdr0 ⟨s 1, v 0, z, z⟩ ⟨false, 0, 11, 4⟩),
    (wR 0x13 0x0009 0x0008 0x8000 0x8000 0x208, .fredux hdr0 ⟨v 9, v 8, z, z⟩ ⟨true, 0, 1, 0⟩),
    (wR 0x14 0x4002 0x0008 0x8000 0x8000 0x048, .matchOp hdr0 ⟨.p 2, v 8, z, z⟩ ⟨false, 0, 9, 0⟩),
    (wR 0x15 0x4001 0x4001 0x8000 0x8000 0x005, .plop hdr0 ⟨.p 1, .p 1, z, z⟩ ⟨false, 0, 0, 5⟩),
    (wR 0x16 0x4001 0x8000 0x8000 0x8000 0x082, .pset hdr0 ⟨.p 1, z, z, z⟩ ⟨false, 1, 0, 2⟩),
    (wR 0x17 0x0001 0x4007 0x8000 0x8000 0x000, .pmov hdr0 ⟨v 1, .p 7, z, z⟩ ⟨false, 0, 0, 0⟩),
    (wR 0x18 0x0001 0x4007 0x8000 0x8000 0x300, .pcount hdr0 ⟨v 1, .p 7, z, z⟩ ⟨true, 2, 0, 0⟩)] : List (InstrWord × Instr)), decode x.1 = .ok x.2 := by decide
theorem test_decode_registers : ∀ x ∈ ([
    (wR 0x20 0x0002 0x2005 0x8000 0x8000 0x000, .mov hdr0 ⟨v 2, .idx 0 5 false false, z, z⟩ ⟨false⟩),
    (wI 0x21 0x1003 0x8000 0xFFFFFFFE 0x002, .movi hdr0 ⟨s 3, z⟩ 0xFFFFFFFE ⟨2⟩),
    (wR 0x22 0x0004 0x0006 0x0008 0x000A 0x00F, .sel hdr0 ⟨v 4, v 6, v 8, v 10⟩ ⟨7, true⟩),
    (wR 0x23 0x0006 0x7011 0x8000 0x8000 0x000, .sread hdr0 ⟨v 6, .sr 17, z, z⟩),
    (wR 0x24 0x8000 0x1001 0x8000 0x8000 0x240, .rgn hdr0 ⟨z, s 1, z, z⟩ ⟨2, 1⟩),
    (wI 0x25 0x8000 0x8000 0x00000010 0x000, .live hdr0 ⟨z, z⟩ 0x10),
    (wR 0x26 0x8000 0x3010 0x3018 0x8000 0x003, .setk hdr0 ⟨z, k 16, k 24, z⟩ ⟨3⟩),
    (wR 0x27 0x8000 0x3006 0x8000 0x8000 0x000, .quotaGive hdr0 ⟨z, k 6, z, z⟩),
    (wR 0x27 0x8000 0x3006 0x8000 0x8000 0x001, .quotaTake hdr0 ⟨z, k 6, z, z⟩)] : List (InstrWord × Instr)), decode x.1 = .ok x.2 := by decide
theorem test_decode_integer : ∀ x ∈ ([
    (wR 0x30 0x0001 0x0002 0x3FFF 0x8000 0x044, .iadd hdr0 ⟨v 1, v 2, k (-1), z⟩ ⟨.rne, .i32, true, false⟩),
    (wR 0x31 0x0001 0x0002 0x0003 0x8000 0x048, .isub hdr0 ⟨v 1, v 2, v 3, z⟩ ⟨.rne, .n32, false, false⟩),
    (wR 0x32 0x0001 0x0002 0x0003 0x8000 0x068, .imul hdr0 ⟨v 1, v 2, v 3, z⟩ ⟨.rne, .i8x8, false, false⟩),
    (wR 0x33 0x0001 0x0002 0x0003 0x8000 0x058, .imulh hdr0 ⟨v 1, v 2, v 3, z⟩ ⟨.rne, .n64, false, false⟩),
    (wR 0x34 0x0001 0x0002 0x0003 0x1004 0x050, .imad hdr0 ⟨v 1, v 2, v 3, s 4⟩ ⟨.rne, .i64, false, false⟩),
    (wR 0x35 0x0001 0x0002 0x0003 0x8000 0x060, .imin hdr0 ⟨v 1, v 2, v 3, z⟩ ⟨.rne, .i16x4, false, false⟩),
    (wR 0x36 0x0001 0x0002 0x0003 0x8000 0x040, .imax hdr0 ⟨v 1, v 2, v 3, z⟩ ⟨.rne, .i32, false, false⟩),
    (wR 0x37 0x0001 0x0002 0x8000 0x8000 0x044, .iabs hdr0 ⟨v 1, v 2, z, z⟩ ⟨.rne, .i32, true, false⟩),
    (wR 0x38 0x0001 0x0002 0x0003 0x3096 0x058, .lop3 hdr0 ⟨v 1, v 2, v 3, k 150⟩ ⟨.rne, .n64, false, false⟩),
    (wR 0x39 0x0001 0x0002 0x301F 0x8000 0x044, .shl hdr0 ⟨v 1, v 2, k 31, z⟩ ⟨.rne, .i32, true, false⟩),
    (wR 0x3A 0x0001 0x0002 0x301F 0x8000 0x048, .shr hdr0 ⟨v 1, v 2, k 31, z⟩ ⟨.rne, .n32, false, false⟩),
    (wR 0x3B 0x0001 0x0002 0x301F 0x8000 0x040, .sar hdr0 ⟨v 1, v 2, k 31, z⟩ ⟨.rne, .i32, false, false⟩),
    (wR 0x3C 0x0001 0x0002 0x301F 0x8000 0x048, .rot hdr0 ⟨v 1, v 2, k 31, z⟩ ⟨.rne, .n32, false, false⟩),
    (wR 0x3D 0x0001 0x0002 0x3004 0x3008 0x050, .bfx hdr0 ⟨v 1, v 2, k 4, k 8⟩ ⟨.rne, .i64, false, false⟩),
    (wR 0x3E 0x0001 0x0002 0x3004 0x3008 0x058, .bfi hdr0 ⟨v 1, v 2, k 4, k 8⟩ ⟨.rne, .n64, false, false⟩),
    (wR 0x3F 0x0001 0x0002 0x8000 0x8000 0x058, .popc hdr0 ⟨v 1, v 2, z, z⟩ ⟨.rne, .n64, false, false⟩),
    (wR 0x40 0x0001 0x0002 0x8000 0x8000 0x058, .clz hdr0 ⟨v 1, v 2, z, z⟩ ⟨.rne, .n64, false, false⟩),
    (wR 0x41 0x0001 0x0002 0x8000 0x8000 0x048, .brev hdr0 ⟨v 1, v 2, z, z⟩ ⟨.rne, .n32, false, false⟩),
    (wR 0x42 0x4001 0x0002 0x0003 0x3005 0x040, .icmp hdr0 ⟨.p 1, v 2, v 3, k 5⟩ ⟨.rne, .i32, false, false⟩),
    (wR 0x43 0x0001 0x0002 0x0003 0x303F 0x058, .lea hdr0 ⟨v 1, v 2, v 3, k 63⟩ ⟨.rne, .n64, false, false⟩),
    (wR 0x44 0x0001 0x0002 0x0003 0x3001 0x044, .idiv hdr0 ⟨v 1, v 2, v 3, k 1⟩ ⟨.rne, .i32, true, false⟩),
    (wR 0x45 0x0001 0x0002 0x300A 0x8000 0x044, .cvti hdr0 ⟨v 1, v 2, k 10, z⟩ ⟨.rne, .i32, true, false⟩)] : List (InstrWord × Instr)), decode x.1 = .ok x.2 := by decide
theorem test_decode_float : ∀ x ∈ ([
    (wR 0x50 0x0001 0x0002 0x0003 0x8000 0x18A, .fadd hdr0 ⟨v 1, v 2, v 3, z⟩ ⟨.ru, .f32, false, true⟩),
    (wR 0x51 0x0001 0x0002 0x0003 0x8000 0x182, .fmul hdr0 ⟨v 1, v 2, v 3, z⟩ ⟨.ru, .f64, false, true⟩),
    (wR 0x52 0x0001 0x0002 0x0003 0x0004 0x1A2, .ffma hdr0 ⟨v 1, v 2, v 3, v 4⟩ ⟨.ru, .f16x4, false, true⟩),
    (wR 0x53 0x0001 0x0002 0x0003 0x8000 0x00A, .fmin hdr0 ⟨v 1, v 2, v 3, z⟩ ⟨.rne, .f32, false, true⟩),
    (wR 0x54 0x0001 0x0002 0x0003 0x8000 0x01A, .fmax hdr0 ⟨v 1, v 2, v 3, z⟩ ⟨.rne, .bf16, false, true⟩),
    (wR 0x57 0x0001 0x0002 0x8000 0x8000 0x18A, .frnd hdr0 ⟨v 1, v 2, z, z⟩ ⟨.ru, .f32, false, true⟩),
    (wR 0x58 0x0001 0x0002 0x8000 0x8000 0x00A, .frcp hdr0 ⟨v 1, v 2, z, z⟩ ⟨.rne, .f32, false, true⟩),
    (wR 0x59 0x0001 0x0002 0x8000 0x8000 0x002, .fsqrt hdr0 ⟨v 1, v 2, z, z⟩ ⟨.rne, .f64, false, true⟩),
    (wR 0x5A 0x0001 0x0002 0x8000 0x8000 0x00A, .frsq hdr0 ⟨v 1, v 2, z, z⟩ ⟨.rne, .f32, false, true⟩),
    (wR 0x5B 0x0001 0x0002 0x8000 0x8000 0x00A, .fex2 hdr0 ⟨v 1, v 2, z, z⟩ ⟨.rne, .f32, false, true⟩),
    (wR 0x5C 0x0001 0x0002 0x8000 0x8000 0x00A, .flg2 hdr0 ⟨v 1, v 2, z, z⟩ ⟨.rne, .f32, false, true⟩),
    (wR 0x5D 0x0001 0x0002 0x8000 0x8000 0x00A, .fsin hdr0 ⟨v 1, v 2, z, z⟩ ⟨.rne, .f32, false, true⟩),
    (wR 0x5E 0x0001 0x0002 0x8000 0x8000 0x00A, .fcos hdr0 ⟨v 1, v 2, z, z⟩ ⟨.rne, .f32, false, true⟩),
    (wR 0x5F 0x0001 0x0002 0x0003 0x8000 0x182, .fdiv hdr0 ⟨v 1, v 2, v 3, z⟩ ⟨.ru, .f64, false, true⟩),
    (wR 0x60 0x0001 0x0002 0x8000 0x8000 0x00A, .ftanh hdr0 ⟨v 1, v 2, z, z⟩ ⟨.rne, .f32, false, true⟩),
    (wR 0x61 0x0001 0x0002 0x0003 0x0004 0x072, .fdot hdr0 ⟨v 1, v 2, v 3, v 4⟩ ⟨.rne, .f32x2, false, true⟩),
    (wR 0x62 0x0001 0x0002 0x0003 0x8000 0x00A, .fscale hdr0 ⟨v 1, v 2, v 3, z⟩ ⟨.rne, .f32, false, true⟩),
    (wR 0x55 0x4001 0x0002 0x0003 0x3006 0x00A, .fcmp hdr0 ⟨.p 1, v 2, v 3, k 6⟩ ⟨.rne, .f32, false, true⟩),
    (wR 0x56 0x4001 0x0002 0x8000 0x33FF 0x000, .fclass hdr0 ⟨.p 1, v 2, z, k 1023⟩ ⟨.rne, .f64, false, false⟩)] : List (InstrWord × Instr)), decode x.1 = .ok x.2 := by decide
theorem test_decode_conversion : ∀ x ∈ ([
    (wR 0x68 0x0001 0x0002 0x3001 0x8000 0x142, .cvtf hdr0 ⟨v 1, v 2, k 1, z⟩ ⟨.rd, .i32, false, true⟩),
    (wR 0x69 0x0001 0x0002 0x0003 0x3015 0x074, .pack hdr0 ⟨v 1, v 2, v 3, k 21⟩ ⟨.rne, .f32x2, true, false⟩),
    (wR 0x6A 0x0002 0x0001 0x8000 0x3015 0x070, .unpack hdr0 ⟨v 2, v 1, z, k 21⟩ ⟨.rne, .f32x2, false, false⟩),
    (wR 0x6B 0x0002 0x0001 0x0003 0x300E 0x070, .deq hdr0 ⟨v 2, v 1, v 3, k 14⟩ ⟨.rne, .f32x2, false, false⟩),
    (wR 0x6C 0x0002 0x0001 0x0003 0x300E 0x070, .qblk hdr0 ⟨v 2, v 1, v 3, k 14⟩ ⟨.rne, .f32x2, false, false⟩)] : List (InstrWord × Instr)), decode x.1 = .ok x.2 := by decide
theorem test_decode_interval : ∀ x ∈ ([
    (wR 0x70 0x0002 0x0004 0x0006 0x3001 0x038, .ivmake hdr0 ⟨v 2, v 4, v 6, k 1⟩ ⟨.rne, .iv64, false, false⟩),
    (wR 0x71 0x4001 0x0004 0x8000 0x3003 0x030, .ivbnd hdr0 ⟨.p 1, v 4, z, k 3⟩ ⟨.rne, .iv32, false, false⟩),
    (wR 0x72 0x0002 0x0004 0x0006 0x8000 0x038, .ivadd hdr0 ⟨v 2, v 4, v 6, z⟩ ⟨.rne, .iv64, false, false⟩),
    (wR 0x73 0x0002 0x0004 0x0006 0x8000 0x038, .ivsub hdr0 ⟨v 2, v 4, v 6, z⟩ ⟨.rne, .iv64, false, false⟩),
    (wR 0x74 0x0002 0x0004 0x0006 0x8000 0x038, .ivmul hdr0 ⟨v 2, v 4, v 6, z⟩ ⟨.rne, .iv64, false, false⟩),
    (wR 0x75 0x0002 0x0004 0x0006 0x8000 0x038, .ivdiv hdr0 ⟨v 2, v 4, v 6, z⟩ ⟨.rne, .iv64, false, false⟩),
    (wR 0x76 0x0002 0x0004 0x0006 0x0008 0x038, .ivfma hdr0 ⟨v 2, v 4, v 6, v 8⟩ ⟨.rne, .iv64, false, false⟩),
    (wR 0x77 0x0002 0x0004 0x8000 0x8000 0x038, .ivsqr hdr0 ⟨v 2, v 4, z, z⟩ ⟨.rne, .iv64, false, false⟩),
    (wR 0x78 0x0002 0x0004 0x8000 0x8000 0x038, .ivsqrt hdr0 ⟨v 2, v 4, z, z⟩ ⟨.rne, .iv64, false, false⟩),
    (wR 0x79 0x0002 0x0004 0x8000 0x8000 0x030, .ivex2 hdr0 ⟨v 2, v 4, z, z⟩ ⟨.rne, .iv32, false, false⟩),
    (wR 0x7A 0x0002 0x0004 0x8000 0x8000 0x030, .ivlg2 hdr0 ⟨v 2, v 4, z, z⟩ ⟨.rne, .iv32, false, false⟩),
    (wR 0x7B 0x0002 0x0004 0x8000 0x8000 0x038, .ivmid hdr0 ⟨v 2, v 4, z, z⟩ ⟨.rne, .iv64, false, false⟩),
    (wR 0x7C 0x0002 0x0004 0x8000 0x8000 0x038, .ivwid hdr0 ⟨v 2, v 4, z, z⟩ ⟨.rne, .iv64, false, false⟩),
    (wR 0x7D 0x0002 0x0004 0x0006 0x8000 0x038, .ivhull hdr0 ⟨v 2, v 4, v 6, z⟩ ⟨.rne, .iv64, false, false⟩),
    (wR 0x7E 0x0002 0x0004 0x0006 0x3001 0x030, .ivisect hdr0 ⟨v 2, v 4, v 6, k 1⟩ ⟨.rne, .iv32, false, false⟩),
    (wR 0x7F 0x4002 0x0004 0x0006 0x3006 0x030, .ivcmp hdr0 ⟨.p 2, v 4, v 6, k 6⟩ ⟨.rne, .iv32, false, false⟩),
    (wR 0x80 0x0000 0x4003 0x3000 0x8000 0x030, .ivbisect hdr0 ⟨v 0, .p 3, k 0, z⟩ ⟨.rne, .iv32, false, false⟩),
    (wI 0x81 0x0002 0x1003 0x00000040 0x038, .ivld hdr0 ⟨v 2, s 3⟩ 0x40 ⟨.rne, .iv64, false, false⟩),
    (wI 0x82 0x0002 0x1003 0xFFFFFFF0 0x038, .ivst hdr0 ⟨v 2, s 3⟩ 0xFFFFFFF0 ⟨.rne, .iv64, false, false⟩)] : List (InstrWord × Instr)), decode x.1 = .ok x.2 := by decide
theorem test_decode_local_memory : ∀ x ∈ ([
    (wI 0x90 0x0005 0x0002 0x00000040 0x030, .ldl hdr0 ⟨v 5, v 2⟩ 0x40 ⟨0, 1, true⟩),
    (wI 0x91 0x0004 0x8000 0x00000200 0x080, .stl hdr0 ⟨v 4, z⟩ 0x200 ⟨0, 4, false⟩),
    (wI 0x93 0x0005 0x0002 0x00000040 0x160, .ldb hdr0 ⟨v 5, v 2⟩ 0x40 ⟨1, 3, false⟩),
    (wI 0x94 0x0005 0x0002 0x00000040 0x340, .stb hdr0 ⟨v 5, v 2⟩ 0x40 ⟨3, 2, false⟩),
    (wR 0x95 0x8000 0x0001 0x300B 0x8000 0x000, .spush hdr0 ⟨z, v 1, k 11, z⟩),
    (wR 0x96 0x0001 0x1002 0x8000 0x8000 0x000, .spop hdr0 ⟨v 1, s 2, z, z⟩),
    (wR 0x92 0x0001 0x0002 0x0003 0x8000 0x0B8, .atoml hdr0 ⟨v 1, v 2, v 3, z⟩ ⟨2, 3, true, false⟩)] : List (InstrWord × Instr)), decode x.1 = .ok x.2 := by decide
theorem test_decode_global_memory : ∀ x ∈ ([
    (wI 0xA0 0x0002 0x1004 0x00000040 0x180, .ld hdr0 ⟨v 2, s 4⟩ 0x40 ⟨3, false, false, 0⟩),
    (wI 0xA1 0x0002 0x1004 0x00000040 0x130, .st hdr0 ⟨v 2, s 4⟩ 0x40 ⟨2, false, true, 2⟩),
    (wR 0xA2 0x0001 0x0002 0x0003 0x8000 0x034, .atom hdr0 ⟨v 1, v 2, v 3, z⟩ ⟨0, 3, false, true⟩),
    (wR 0xA3 0x8000 0x1001 0x0003 0x8000 0x020, .red hdr0 ⟨z, s 1, v 3, z⟩ ⟨0, 2, false, false⟩),
    (wR 0xA4 0x0004 0x1000 0x0002 0x0003 0x034, .cas hdr0 ⟨v 4, s 0, v 2, v 3⟩ ⟨0, 3, false, true⟩),
    (wR 0xA7 0x8000 0x1001 0x3000 0x8000 0x000, .cflush hdr0 ⟨z, s 1, k 0, z⟩),
    (wR 0xA8 0x8000 0x1001 0x1002 0x8000 0x000, .cinv hdr0 ⟨z, s 1, s 2, z⟩),
    (wR 0xA9 0x8000 0x0001 0x1002 0x8000 0x001, .pref hdr0 ⟨z, v 1, s 2, z⟩ ⟨true⟩)] : List (InstrWord × Instr)), decode x.1 = .ok x.2 := by decide
theorem test_decode_ordering : ∀ x ∈ ([
    (wI 0xA5 0x0002 0x1004 0x00000040 0x140, .ldsc hdr0 ⟨v 2, s 4⟩ 0x40 ⟨2, true, false, 0⟩),
    (wI 0xA6 0x0006 0x0000 0x00000040 0x180, .stsc hdr0 ⟨v 6, v 0⟩ 0x40 ⟨3, false, false, 0⟩),
    (wR 0xB0 0x8000 0x1001 0x1002 0x1003 0x001, .bind hdr0 ⟨z, s 1, s 2, s 3⟩ ⟨true⟩),
    (wR 0xB1 0x8000 0x1001 0x8000 0x8000 0x002, .acq hdr0 ⟨z, s 1, z, z⟩ ⟨false, true⟩),
    (wR 0xB2 0x8000 0x1001 0x8000 0x8000 0x001, .rel hdr0 ⟨z, s 1, z, z⟩ ⟨true, false⟩),
    (wR 0xB3 0x8000 0x8000 0x8000 0x8000 0x004, .fence hdr0 ⟨z, z, z, z⟩ ⟨4⟩),
    (wR 0xB4 0x8000 0x8000 0x8000 0x8000 0x000, .ocwait hdr0 ⟨z, z, z, z⟩),
    (wR 0xB5 0x8000 0x3001 0x3002 0x8000 0x000, .rvinit hdr0 ⟨z, k 1, k 2, z⟩),
    (wR 0xB6 0x100D 0x3000 0x100B 0x8000 0x000, .rvarr hdr0 ⟨s 13, k 0, s 11, z⟩),
    (wR 0xB7 0x8000 0x3000 0x3000 0x8000 0x000, .rvwait hdr0 ⟨z, k 0, k 0, z⟩),
    (wR 0xB8 0x8000 0x1001 0x3001 0x8000 0x000, .mbinit hdr0 ⟨z, s 1, k 1, z⟩),
    (wR 0xB9 0x1002 0x1001 0x8000 0x8000 0x002, .mbarr hdr0 ⟨s 2, s 1, z, z⟩ ⟨false, true⟩),
    (wR 0xBA 0x8000 0x100A 0x100B 0x8000 0x000, .mbwait hdr0 ⟨z, s 10, s 11, z⟩)] : List (InstrWord × Instr)), decode x.1 = .ok x.2 := by decide
theorem test_decode_handles : ∀ x ∈ ([
    (wR 0xC0 0x8000 0x5002 0x8000 0x8000 0x000, .hwait hdr0 ⟨z, .h 2, z, z⟩),
    (wR 0xC1 0x4001 0x5002 0x8000 0x8000 0x000, .htest hdr0 ⟨.p 1, .h 2, z, z⟩),
    (wR 0xC2 0x8000 0x5002 0x8000 0x8000 0x000, .hcancel hdr0 ⟨z, .h 2, z, z⟩),
    (wR 0xC3 0x1001 0x5002 0x8000 0x8000 0x000, .hstat hdr0 ⟨s 1, .h 2, z, z⟩),
    (wR 0xC4 0x5002 0x1001 0x8000 0x8000 0x000, .hmov hdr0 ⟨.h 2, s 1, z, z⟩),
    (wR 0xC5 0x8000 0x0004 0x3007 0x8000 0x002, .tspawn hdr0 ⟨z, v 4, k 7, z⟩ ⟨2⟩),
    (wR 0xC6 0x0001 0x3001 0x8000 0x8000 0x000, .targ hdr0 ⟨v 1, k 1, z, z⟩),
    (wR 0xC7 0x5001 0x1002 0x8000 0x8000 0x00F, .dlaunch hdr0 ⟨.h 1, s 2, z, z⟩ ⟨15⟩)] : List (InstrWord × Instr)), decode x.1 = .ok x.2 := by decide
theorem test_decode_engines : ∀ x ∈ ([
    (wR 0xD0 0x5002 0x1008 0x1009 0x3003 0x014, .copy hdr0 ⟨.h 2, s 8, s 9, k 3⟩ ⟨0, 1, 1⟩),
    (wR 0xD1 0x8000 0x1008 0x1009 0x1003 0x038, .copyx hdr0 ⟨z, s 8, s 9, s 3⟩ ⟨0, 3, 2⟩),
    (wR 0xD2 0x5003 0x1014 0x1015 0x1016 0x180, .mma hdr0 ⟨.h 3, s 20, s 21, s 22⟩ ⟨1, true, false⟩),
    (wR 0xD3 0x8000 0x1014 0x1015 0x1016 0x200, .mmas hdr0 ⟨z, s 20, s 21, s 22⟩ ⟨2, false, false⟩),
    (wR 0xD4 0x5000 0x1001 0x3100 0x8000 0x001, .mzero hdr0 ⟨.h 0, s 1, k 256, z⟩ ⟨true⟩),
    (wR 0xD5 0x5000 0x1001 0x3005 0x1002 0x000, .cfgload hdr0 ⟨.h 0, s 1, k 5, s 2⟩),
    (wR 0xD6 0x5001 0x3007 0x1000 0x1005 0x000, .cfgrun hdr0 ⟨.h 1, k 7, s 0, s 5⟩ ⟨0⟩),
    (wR 0xD6 0x8000 0x3007 0x1000 0x1005 0x00B, .cfgrunRes hdr0 ⟨z, k 7, s 0, s 5⟩ ⟨3⟩),
    (wR 0xD7 0x5001 0x1001 0x8000 0x300B 0x007, .cfgdrain hdr0 ⟨.h 1, s 1, z, k 11⟩ ⟨7⟩),
    (wR 0xD8 0x5001 0x3007 0x8000 0x300B 0x000, .cfgevict hdr0 ⟨.h 1, k 7, z, k 11⟩),
    (wR 0xD9 0x5006 0x100E 0x8000 0x8000 0x000, .rblk hdr0 ⟨.h 6, s 14, z, z⟩)] : List (InstrWord × Instr)), decode x.1 = .ok x.2 := by decide
theorem test_decode_system : ∀ x ∈ ([
    (wI 0xE0 0x1001 0x8000 0x00000022 0x000, .srreg hdr0 ⟨s 1, z⟩ 0x22),
    (wI 0xE1 0x6009 0x8000 0x0000000B 0x000, .swreg hdr0 ⟨.t 9 false false, z⟩ 0xB),
    (wR 0xE2 0x1001 0x8000 0x3005 0x1002 0x000, .frec hdr0 ⟨s 1, z, k 5, s 2⟩),
    (wR 0xE3 0x8000 0x1001 0x1002 0x8000 0x000, .icinv hdr0 ⟨z, s 1, s 2, z⟩)] : List (InstrWord × Instr)), decode x.1 = .ok x.2 := by decide

/-! ### Words that are none, and terms that stand for none (R16, R17, R19, R20, R24, R32) -/

/-- OP 0x00 and 0xFF; a set HINT.ZERO; guard code 111; "always" with a predicate; U of a BRA; a set zero bit of MOD; an h
register outside its groups; TYPE 0xF; a TRET code; a size of 32 bytes. -/
theorem test_illegal_words : ([wR 0x00 0x8000 0x8000 0x8000 0x8000 0, wR 0xFF 0x8000 0x8000 0x8000 0x8000 0,
    wR 0x01 0x8000 0x8000 0x8000 0x8000 0 ||| 0x400_0000_0000_0000_0000, wR 0x01 0x8000 0x8000 0x8000 0x8000 0 ||| 0xE0_0000_0000_0000_0000_0000,
    wR 0x01 0x8000 0x8000 0x8000 0x8000 0 ||| 0x04_0000_0000_0000_0000_0000, wJ 0x02 0x8000 0x8000 0 1, wR 0x20 0x0001 0x0002 0x8000 0x8000 2,
    wR 0x30 0x5001 0x0002 0x0003 0x8000 0x048, wR 0x30 0x0001 0x0002 0x0003 0x8000 0x078, wR 0x0B 0x8000 0x8000 0x8000 0x8000 3,
    wI 0x90 0x0001 0x0002 0 0x0A0] : List InstrWord).all (fun w => (decode w).toOption.isNone) = true := by decide
/-- A guard "always" that names p1; U of a LOOPD; an h register and a `bad` field whose bits R19 gives a meaning; a MOD of a
type, rounding, saturation or flush that the instruction does not list; a control value out of range; a guard on JOIN; and an
event. -/
theorem test_ill_formed : ∀ i ∈ ([.nop { hdr0 with pred := 1 } ⟨z, z, z, z⟩, .loopd hdr0 ⟨s 2, z⟩ 0 1, .nop hdr0 ⟨.h 1, z, z, z⟩,
    .mov hdr0 ⟨.bad 0x0001, z, z, z⟩ ⟨false⟩, .iadd hdr0 ⟨v 1, v 2, v 3, z⟩ ⟨.rne, .f32, false, false⟩,
    .iadd hdr0 ⟨v 1, v 2, v 3, z⟩ ⟨.ru, .i32, false, false⟩, .imin hdr0 ⟨v 1, v 2, v 3, z⟩ ⟨.rne, .i32, true, false⟩,
    .iadd hdr0 ⟨v 1, v 2, v 3, z⟩ ⟨.rne, .i32, false, true⟩, .icmp hdr0 ⟨.p 1, v 2, v 3, k 6⟩ ⟨.rne, .i32, false, false⟩,
    .cvtf hdr0 ⟨v 1, v 2, k 1, z⟩ ⟨.rne, .i32, true, false⟩, .pack hdr0 ⟨v 1, v 2, v 3, k 0x35⟩ ⟨.rne, .f32x2, false, false⟩,
    .ivadd hdr0 ⟨v 2, v 4, v 6, z⟩ ⟨.rne, .f32, false, false⟩, .join { hdr0 with cond := .t } ⟨z, z, z, z⟩,
    .ldb hdr0 ⟨v 1, z⟩ 0 ⟨0, 3, false⟩, .ld hdr0 ⟨v 1, z⟩ 0 ⟨3, true, false, 0⟩, .red hdr0 ⟨z, s 1, v 2, z⟩ ⟨0, 2, false, true⟩,
    .fence hdr0 ⟨z, z, z, z⟩ ⟨5⟩, .mma hdr0 ⟨z, s 1, s 2, s 3⟩ ⟨3, false, false⟩, .thimbleVisit] : List Instr), i.wf = false := by decide

/-! ### Single steps, with the results that the manual works out -/

/-- The signature of core 0 after an instruction. -/
def after (i : Instr) (s : State) : Option Sig :=
  match exec i s with
  | .next t => t.sig? 0 0
  | _ => none
/-- The cause that the path's handler is told, with causes enabled and the vector set. -/
def causeOf (i : Instr) (s : State) : Option Nat :=
  match exec i s with
  | .next t => some (((t.core 0).port 0).treg 0)[(0 : Lane)].toNat
  | _ => none
def lanes (f : Nat → Word64) : Row := Vector.ofFn fun l : Lane => f l.val
/-- Registers in a signature of four active lanes. -/
def regs (v : AMap Row) : State := mk bVec { sig { path0 with mask := 15 } with v := v }
def reg0 (i : Instr) (s : State) (n : Nat) : Option Word64 := (after i s).map fun g => (g.reg n)[(0 : Lane)]

/-- The tree of R114 gives 1 + 2^-23 from 1, 0, 2^-24, 2^-24 (example after R120). -/
theorem test_fredux : reg0 (.fredux hdr0 ⟨v 9, v 8, z, z⟩ ⟨true, 0, 1, 0⟩)
    (regs [(8, lanes fun l => [0x3F800000, 0, 0x33800000, 0x33800000].getD l 0)]) 9 = some 0x3F800001 := by decide +kernel
/-- IABS of the least i32, without and with SAT (R174). -/
theorem test_iabs : reg0 (.iabs hdr0 ⟨v 1, v 0, z, z⟩ ⟨.rne, .i32, false, false⟩) (regs [(0, lanes fun _ => 0x80000000)]) 1 = some 0x80000000 ∧
    reg0 (.iabs hdr0 ⟨v 1, v 0, z, z⟩ ⟨.rne, .i32, true, false⟩) (regs [(0, lanes fun _ => 0x80000000)]) 1 = some 0x7FFFFFFF := by
  decide +kernel
/-- Example after R191. -/
theorem test_fdot : reg0 (.fdot hdr0 ⟨v 3, v 0, v 1, z⟩ ⟨.rne, .bf16x4, false, false⟩)
    (regs [(0, lanes fun _ => 0x0000338033803F80), (1, lanes fun _ => 0x3F803F803F803F80)]) 3 = some 0x3F800001 := by decide +kernel
/-- Example after R194, with and without SAT. -/
theorem test_pack (sat : Bool) : reg0 (.pack hdr0 ⟨v 2, v 0, v 1, k 0x15⟩ ⟨.rne, .f32x2, sat, false⟩)
    (regs [(0, lanes fun _ => 0xC020000043960000), (1, lanes fun _ => 0x3A80000043FA0000), (2, lanes fun _ => 0xFFFFFFFF11223344)]) 2 =
    some (if sat then 0x007EC27911223344 else 0x007FC27911223344) := by cases sat <;> decide +kernel
/-- Example after R196: the low f32 of the pair. -/
theorem test_deq : (reg0 (.deq hdr0 ⟨v 2, v 0, v 1, k 0x0E⟩ ⟨.rne, .f32x2, false, false⟩)
    (regs [(0, lanes fun _ => 0xB), (1, lanes fun _ => 0x0000003F40000000)]) 2).map (·.setWidth 32) = some (0x3E380000 : BitVec 32) := by
  decide +kernel
/-- Example after R218: the lane keeps the lower half, its predicate says so, the task takes the upper half. -/
theorem test_ivbisect : (match exec (.ivbisect hdr0 oBisect ⟨.rne, .iv32, false, false⟩) (mk bPages (gBisect 0x400000003F800000)) with
    | .next t => (t.sig? 0 0).map fun g => ((g.reg 2)[(0 : Lane)], (g.preg 3)[(0 : Lane)], (t.core 0).pool.map fun x => (x.entry, x.payload.length, x.payload.getD 2 0))
    | _ => none) = some (0x3FC000003F800000, .t, List.replicate 2 (5, 8, 0x400000003FC00000)) := by decide +kernel
/-- Example after R233: sign extension from 16 bits; a lane past the end of the reservation raises ACCESS. -/
def bLocal : State := bVec.modCore 0 fun c => { c with mem := { c.mem with lm := [(0x140, 0xFE), (0x141, 0xFF)] } }
def lds16 : Instr := .ldl hdr0 ⟨v 5, v 2⟩ 0x40 ⟨0, 1, true⟩
theorem test_ldl : reg0 lds16 (mk bLocal { sig path0 with v := [(2, lanes fun _ => 0x100)] }) 5 = some 0xFFFFFFFFFFFFFFFE ∧
    causeOf lds16 (mk bLocal { sig path0 with v := [(2, lanes fun l => if l = 9 then 0x3FFC0 else 0)] }) = some 0x07 := by decide +kernel
/-- Example after R29: BTRI at PC 0x1074 with T = +3 and U = -2; lane 0 true, lane 1 false, lane 2 undecided. -/
theorem test_btri : (after (.btri hdr0 ⟨z, .p 1⟩ 3 0x1FFFFE) (mk base { sig { path0 with pc := 0x1074, mask := 7 } with
      p := (sig path0).p.set 1 (Vector.ofFn fun l : Lane => if l.val = 0 then .t else if l.val = 1 then .f else .u) })).map
    (fun g => ((g.paths.map fun p => (p.mask, p.pc)) ++ (g.stack.filterMap fun x => if x.join then none else some (x.mask, x.pc)))) =
    some [(1, 0x10A0), (2, 0x1088), (4, 0x105C)] := by decide +kernel
/-- Example after R163: one task for each active lane, in ascending order, with the payload of v4 to v6. -/
theorem test_tspawn : (match exec (.tspawn hdr0 ⟨z, v 4, k 7, z⟩ ⟨2⟩) (mk bPages { gAddr with v := [(4, lanes fun l => BitVec.ofNat 64 l), (6, lanes fun _ => 9)] }) with
    | .next t => (t.core 0).pool.map fun x => (x.entry, x.payload)
    | _ => []) = [(7, [0, 0, 9]), (7, [1, 0, 9])] := by decide +kernel
/-- Example after R137: a bound above B raises INDEX. -/
theorem test_setk : causeOf (.setk hdr0 ⟨z, k 16, k 24, z⟩ ⟨0⟩) (mk bVec { sig path0 with B := 16, LB := 16 }) = some 0x03 := by decide +kernel
/-- Example after R341: tile (9, 11) is bound to pseudo-channel 23. -/
theorem test_port_channel : portChan 0 (9, 11) = 23 := by decide
/-- R236, R237: two lanes add 1 to one word, in ascending order; each gets what the one before it left. -/
theorem test_atoml : (match exec (.atoml hdr0 ⟨v 3, z, k 1, z⟩ ⟨0, 2, false, false⟩)
      (mk (bVec.modCore 0 fun c => { c with mem := { c.mem with lm := [(0, 0xFF)] } }) (sig { path0 with mask := 3 })) with
    | .next t => ((t.core 0).mem.lm, (t.sig? 0 0).map fun g => ((g.reg 3)[(0 : Lane)], (g.reg 3)[(1 : Lane)]))
    | _ => ([], none)) = ([(0, 0x01), (1, 0x01)], some (0xFF, 0x100)) := by decide +kernel
end Sys2Proof.Tests
end

