-- ==== Sys2Proof/Proofs/WordOfInstr.lean ====
section
/-!
Laws of the encoder and the decoder in the other direction: the fields that the decoder reads are all the bits of a word, so
that a word is the word of what it is read as (R15, R16, R19, R24).
-/
namespace Sys2Proof

set_option Elab.async false

/-! ### Fields put together again -/

/-- Two neighbouring fields of a word are one field. -/
theorem extractLsb'_append_neighbour {n : Nat} (x : BitVec n) (lo len top more : Nat) (h : top = lo + len) :
    x.extractLsb' top more ++ x.extractLsb' lo len = x.extractLsb' lo (more + len) := by
  apply BitVec.eq_of_getLsbD_eq
  intro i hi
  simp only [BitVec.getLsbD_append, BitVec.getLsbD_extractLsb', h]
  by_cases hl : i < len
  · simp [hl, hi]
  · have hm : i - len < more := by omega
    have he : lo + len + (i - len) = lo + i := by omega
    simp [hl, hi, hm, he]

/-- A bit is a field of one bit. -/
theorem ofBool_bit {n : Nat} (x : BitVec n) (j : Nat) : BitVec.ofBool (bit x j) = x.extractLsb' j 1 := by
  rw [bit, BitVec.getLsbD_eq_extractLsb']
  generalize x.extractLsb' j 1 = y
  revert y
  decide

theorem extractLsb'_of_bit_eq_false {n : Nat} {x : BitVec n} {j : Nat} (h : bit x j = false) : x.extractLsb' j 1 = 0#1 := by
  rw [← ofBool_bit, h]
  rfl

theorem Cond.code_of_ofCode {c : BitVec 3} {d : Cond} (h : Cond.ofCode c.toNat = some d) : d.code = c := by
  have key : ∀ (x : BitVec 3) (y : Cond), Cond.ofCode x.toNat = some y → y.code = x := by
    intro x y
    revert x
    cases y <;> decide
  exact key c d h

theorem Rm.code_of_ofCode {c : BitVec 3} {d : Rm} (h : Rm.ofCode c.toNat = some d) : d.code = c := by
  have key : ∀ (x : BitVec 3) (y : Rm), Rm.ofCode x.toNat = some y → y.code = x := by
    intro x y
    revert x
    cases y <;> decide
  exact key c d h

theorem Ty.code_of_ofCode {c : BitVec 4} {d : Ty} (h : Ty.ofCode c.toNat = some d) : d.code = c := by
  have key : ∀ (x : BitVec 4) (y : Ty), Ty.ofCode x.toNat = some y → y.code = x := by
    intro x y
    revert x
    cases y <;> decide
  exact key c d h

/-! ### Operand fields -/

theorem eq_zero_of_bne_eq_false {n : Nat} {x : BitVec n} (h : (x != 0) = false) : x = 0#n := by simpa using h

/-- The kind of an operand field, as a number and as bits. -/
theorem Operand.kind_eq {b : BitVec 16} {k : Nat} (hk : (b.extractLsb' 12 4).toNat = k) : BitVec.ofNat 4 k = b.extractLsb' 12 4 := by
  rw [← hk, BitVec.ofNat_toNat, BitVec.setWidth_eq]

/-- What an operand field is read as has the bits of the field: R19 gives every bit of it a meaning, or wants it 0. -/
theorem Operand.bits_parse (b : BitVec 16) : (Operand.parse b).bits = b := by
  unfold Operand.parse
  split
  next => rfl
  next hm =>
    simp only [Bool.not_eq_true, Operand.meaningless] at hm
    have whole : b.extractLsb' 0 16 = b := BitVec.extractLsb'_eq_self
    split at hm
    case h_3 hk | h_4 hk =>
      simp only [hk, Operand.bits, ofBool_bit, Operand.kind_eq hk]
      simpa (disch := decide) only [extractLsb'_append_neighbour] using whole
    case h_10 => simp at hm
    case h_1 hk | h_2 hk | h_5 hk | h_6 hk | h_7 hk | h_8 hk | h_9 hk =>
      simp only [hk, Operand.bits, ofBool_bit]
      rw [Operand.kind_eq hk, ← eq_zero_of_bne_eq_false hm]
      simpa (disch := decide) only [extractLsb'_append_neighbour] using whole

theorem Operand.canon_parse (b : BitVec 16) : (Operand.parse b).canon = true := by
  unfold Operand.parse
  split
  · assumption
  · split <;> rfl

theorem Ops4.canon_parse (w : InstrWord) : (Ops4.parse w).canon = true := by
  simp [Ops4.canon, Ops4.parse, Operand.canon_parse]

theorem Ops2.canon_parse (w : InstrWord) : (Ops2.parse w).canon = true := by
  simp [Ops2.canon, Ops2.parse, Operand.canon_parse]

/-! ### The header and the three formats -/

theorem Hdr.bits_of_parse {w : InstrWord} {h : Hdr} (hp : Hdr.parse w = .ok h) :
    h.bits (w.extractLsb' 88 8) = w.extractLsb' 74 22 := by
  unfold Hdr.parse at hp
  split at hp
  · cases hp
  · rename_i hz
    split at hp
    · cases hp
    · rename_i c hc
      cases hp
      have h0 : w.extractLsb' 74 1 = 0#1 := extractLsb'_of_bit_eq_false (by simpa using hz)
      simp only [Hdr.bits, Cond.code_of_ofCode hc, ofBool_bit, ← h0]
      iterate 6 rw [extractLsb'_append_neighbour _ _ _ _ _ (by norm_num)]

theorem encR_parse {w : InstrWord} {h : Hdr} (hp : Hdr.parse w = .ok h) :
    encR (w.extractLsb' 88 8) h (Ops4.parse w) (w.extractLsb' 0 10) = w := by
  simp only [encR, Hdr.bits_of_parse hp, Ops4.parse, Operand.bits_parse]
  iterate 5 rw [extractLsb'_append_neighbour _ _ _ _ _ (by norm_num)]
  exact BitVec.extractLsb'_eq_self

theorem encI_parse {w : InstrWord} {h : Hdr} (hp : Hdr.parse w = .ok h) :
    encI (w.extractLsb' 88 8) h (Ops2.parse w) (w.extractLsb' 10 32) (w.extractLsb' 0 10) = w := by
  simp only [encI, Hdr.bits_of_parse hp, Ops2.parse, Operand.bits_parse]
  iterate 4 rw [extractLsb'_append_neighbour _ _ _ _ _ (by norm_num)]
  exact BitVec.extractLsb'_eq_self

theorem encJ_parse {w : InstrWord} {h : Hdr} (hp : Hdr.parse w = .ok h) :
    encJ (w.extractLsb' 88 8) h (Ops2.parse w) (w.extractLsb' 21 21) (w.extractLsb' 0 21) = w := by
  simp only [encJ, Hdr.bits_of_parse hp, Ops2.parse, Operand.bits_parse]
  iterate 4 rw [extractLsb'_append_neighbour _ _ _ _ _ (by norm_num)]
  exact BitVec.extractLsb'_eq_self

/-! ### MOD fields -/

/-- A MOD kind with one field of zero bits: what is read has that field 0. -/
theorem eq_zero_of_zeroField {n : Nat} {α : Type} {x : BitVec n} {a b : α} (h : (if x != 0 then none else some a) = some b) :
    x = 0#n ∧ a = b := by
  split at h
  · cases h
  next hz => exact ⟨eq_zero_of_bne_eq_false (by simpa using hz), Option.some.inj h⟩

theorem zeroMod_eq_zero {b : BitVec 10} {u : Unit} (h : zeroMod b = some u) : 0#10 = b := by
  unfold zeroMod at h
  split at h
  next hz => exact (eq_of_beq hz).symm
  · cases h

theorem AMod.bits_of_parse {b : BitVec 10} {m : AMod} (h : AMod.parse b = some m) : m.bits = b := by
  unfold AMod.parse at h
  split at h
  next rm ty hrm hty =>
    split at h
    · cases h
    next hz =>
      cases h
      have hz : b.extractLsb' 0 1 = 0#1 := extractLsb'_of_bit_eq_false (by simpa using hz)
      simpa (disch := decide) only [AMod.bits, Rm.code_of_ofCode hrm, Ty.code_of_ofCode hty, ofBool_bit, ← hz, extractLsb'_append_neighbour]
        using BitVec.extractLsb'_eq_self
  · cases h

theorem XMod.bits_of_parse {b : BitVec 10} {m : XMod} (h : XMod.parse b = some m) : m.bits = b := by
  cases h
  simpa (disch := decide) only [XMod.bits, ofBool_bit, extractLsb'_append_neighbour] using BitVec.extractLsb'_eq_self

theorem X2Mod.bits_of_parse {b : BitVec 10} {m : X2Mod} (h : X2Mod.parse b = some m) : m.bits = b := by
  obtain ⟨hz, rfl⟩ := eq_zero_of_zeroField h
  simpa (disch := decide) only [X2Mod.bits, ofBool_bit, ← hz, extractLsb'_append_neighbour] using BitVec.extractLsb'_eq_self

theorem MoviMod.bits_of_parse {b : BitVec 10} {m : MoviMod} (h : MoviMod.parse b = some m) : m.bits = b := by
  obtain ⟨hz, rfl⟩ := eq_zero_of_zeroField h
  simpa (disch := decide) only [MoviMod.bits, ofBool_bit, ← hz, extractLsb'_append_neighbour] using BitVec.extractLsb'_eq_self

theorem SelMod.bits_of_parse {b : BitVec 10} {m : SelMod} (h : SelMod.parse b = some m) : m.bits = b := by
  obtain ⟨hz, rfl⟩ := eq_zero_of_zeroField h
  simpa (disch := decide) only [SelMod.bits, ofBool_bit, ← hz, extractLsb'_append_neighbour] using BitVec.extractLsb'_eq_self

theorem RgnMod.bits_of_parse {b : BitVec 10} {m : RgnMod} (h : RgnMod.parse b = some m) : m.bits = b := by
  obtain ⟨hz, rfl⟩ := eq_zero_of_zeroField h
  simpa (disch := decide) only [RgnMod.bits, ofBool_bit, ← hz, extractLsb'_append_neighbour] using BitVec.extractLsb'_eq_self

theorem SetkMod.bits_of_parse {b : BitVec 10} {m : SetkMod} (h : SetkMod.parse b = some m) : m.bits = b := by
  obtain ⟨hz, rfl⟩ := eq_zero_of_zeroField h
  simpa (disch := decide) only [SetkMod.bits, ofBool_bit, ← hz, extractLsb'_append_neighbour] using BitVec.extractLsb'_eq_self

theorem LMod.bits_of_parse {b : BitVec 10} {m : LMod} (h : LMod.parse b = some m) : m.bits = b := by
  obtain ⟨hz, rfl⟩ := eq_zero_of_zeroField h
  simpa (disch := decide) only [LMod.bits, ofBool_bit, ← hz, extractLsb'_append_neighbour] using BitVec.extractLsb'_eq_self

theorem GMod.bits_of_parse {b : BitVec 10} {m : GMod} (h : GMod.parse b = some m) : m.bits = b := by
  obtain ⟨hz, rfl⟩ := eq_zero_of_zeroField h
  simpa (disch := decide) only [GMod.bits, ofBool_bit, ← hz, extractLsb'_append_neighbour] using BitVec.extractLsb'_eq_self

theorem PrefMod.bits_of_parse {b : BitVec 10} {m : PrefMod} (h : PrefMod.parse b = some m) : m.bits = b := by
  obtain ⟨hz, rfl⟩ := eq_zero_of_zeroField h
  simpa (disch := decide) only [PrefMod.bits, ofBool_bit, ← hz, extractLsb'_append_neighbour] using BitVec.extractLsb'_eq_self

theorem BindMod.bits_of_parse {b : BitVec 10} {m : BindMod} (h : BindMod.parse b = some m) : m.bits = b := by
  obtain ⟨hz, rfl⟩ := eq_zero_of_zeroField h
  simpa (disch := decide) only [BindMod.bits, ofBool_bit, ← hz, extractLsb'_append_neighbour] using BitVec.extractLsb'_eq_self

theorem SyMod.bits_of_parse {b : BitVec 10} {m : SyMod} (h : SyMod.parse b = some m) : m.bits = b := by
  obtain ⟨hz, rfl⟩ := eq_zero_of_zeroField h
  simpa (disch := decide) only [SyMod.bits, ofBool_bit, ← hz, extractLsb'_append_neighbour] using BitVec.extractLsb'_eq_self

theorem FenceMod.bits_of_parse {b : BitVec 10} {m : FenceMod} (h : FenceMod.parse b = some m) : m.bits = b := by
  obtain ⟨hz, rfl⟩ := eq_zero_of_zeroField h
  simpa (disch := decide) only [FenceMod.bits, ofBool_bit, ← hz, extractLsb'_append_neighbour] using BitVec.extractLsb'_eq_self

theorem TspMod.bits_of_parse {b : BitVec 10} {m : TspMod} (h : TspMod.parse b = some m) : m.bits = b := by
  obtain ⟨hz, rfl⟩ := eq_zero_of_zeroField h
  simpa (disch := decide) only [TspMod.bits, ofBool_bit, ← hz, extractLsb'_append_neighbour] using BitVec.extractLsb'_eq_self

theorem DlMod.bits_of_parse {b : BitVec 10} {m : DlMod} (h : DlMod.parse b = some m) : m.bits = b := by
  obtain ⟨hz, rfl⟩ := eq_zero_of_zeroField h
  simpa (disch := decide) only [DlMod.bits, ofBool_bit, ← hz, extractLsb'_append_neighbour] using BitVec.extractLsb'_eq_self

theorem CpMod.bits_of_parse {b : BitVec 10} {m : CpMod} (h : CpMod.parse b = some m) : m.bits = b := by
  obtain ⟨hz, rfl⟩ := eq_zero_of_zeroField h
  simpa (disch := decide) only [CpMod.bits, ofBool_bit, ← hz, extractLsb'_append_neighbour] using BitVec.extractLsb'_eq_self

theorem MmMod.bits_of_parse {b : BitVec 10} {m : MmMod} (h : MmMod.parse b = some m) : m.bits = b := by
  obtain ⟨hz, rfl⟩ := eq_zero_of_zeroField h
  simpa (disch := decide) only [MmMod.bits, ofBool_bit, ← hz, extractLsb'_append_neighbour] using BitVec.extractLsb'_eq_self

theorem MzMod.bits_of_parse {b : BitVec 10} {m : MzMod} (h : MzMod.parse b = some m) : m.bits = b := by
  obtain ⟨hz, rfl⟩ := eq_zero_of_zeroField h
  simpa (disch := decide) only [MzMod.bits, ofBool_bit, ← hz, extractLsb'_append_neighbour] using BitVec.extractLsb'_eq_self

theorem AtMod.bits_of_parse {b : BitVec 10} {m : AtMod} (h : AtMod.parse b = some m) : m.bits = b := by
  obtain ⟨hz, rfl⟩ := eq_zero_of_zeroField h
  simpa (disch := decide) only [AtMod.bits, ofBool_bit, ← hz, extractLsb'_append_neighbour] using BitVec.extractLsb'_eq_self

/-! ### The opcode table -/

/-- What a row of the opcode table answers: MOD read as a kind, and the instruction of what was read. -/
def needMod {α : Type} (x : Option α) (f : α → Instr) : Except Reject Instr :=
  match x with
  | some a => .ok (f a)
  | none => .error .mod

theorem needMod_ok {α : Type} {x : Option α} {f : α → Instr} {i : Instr} (h : needMod x f = .ok i) : ∃ a, x = some a ∧ f a = i := by
  cases x with
  | none => cases h
  | some a => exact ⟨a, rfl, Except.ok.inj h⟩

/-- An instruction of format R whose fields are those of a word has the word. -/
theorem encode_eq_of_formatR {w : InstrWord} {h : Hdr} {n : Nat} {i : Instr} {b : BitVec 10} (hh : Hdr.parse w = .ok h)
    (hop : (w.extractLsb' 88 8).toNat = n) (henc : encode i = encR (BitVec.ofNat 8 n) h (Ops4.parse w) b)
    (hcanon : i.canon = (Ops4.parse w).canon) (hb : b = w.extractLsb' 0 10) : encode i = w ∧ i.canon = true := by
  have hop' : BitVec.ofNat 8 n = w.extractLsb' 88 8 := by rw [← hop, BitVec.ofNat_toNat, BitVec.setWidth_eq]
  rw [henc, hcanon, hb, hop', encR_parse hh, Ops4.canon_parse]
  exact ⟨rfl, rfl⟩

/-- A row of format R. -/
theorem encode_eq_of_rowR {α : Type} {w : InstrWord} {h : Hdr} {n : Nat} {i : Instr} {f : α → Instr} {parse : BitVec 10 → Option α}
    {bits : α → BitVec 10} (hh : Hdr.parse w = .ok h) (hop : (w.extractLsb' 88 8).toNat = n)
    (hp : needMod (parse (w.extractLsb' 0 10)) f = .ok i) (hbits : ∀ {b a}, parse b = some a → bits a = b)
    (henc : ∀ a, encode (f a) = encR (BitVec.ofNat 8 n) h (Ops4.parse w) (bits a))
    (hcanon : ∀ a, (f a).canon = (Ops4.parse w).canon) : encode i = w ∧ i.canon = true := by
  obtain ⟨a, ha, rfl⟩ := needMod_ok hp
  exact encode_eq_of_formatR hh hop (henc a) (hcanon a) (hbits ha)

theorem encode_eq_of_formatI {w : InstrWord} {h : Hdr} {n : Nat} {i : Instr} {b : BitVec 10} (hh : Hdr.parse w = .ok h)
    (hop : (w.extractLsb' 88 8).toNat = n) (henc : encode i = encI (BitVec.ofNat 8 n) h (Ops2.parse w) (w.extractLsb' 10 32) b)
    (hcanon : i.canon = (Ops2.parse w).canon) (hb : b = w.extractLsb' 0 10) : encode i = w ∧ i.canon = true := by
  have hop' : BitVec.ofNat 8 n = w.extractLsb' 88 8 := by rw [← hop, BitVec.ofNat_toNat, BitVec.setWidth_eq]
  rw [henc, hcanon, hb, hop', encI_parse hh, Ops2.canon_parse]
  exact ⟨rfl, rfl⟩

/-- A row of format I. -/
theorem encode_eq_of_rowI {α : Type} {w : InstrWord} {h : Hdr} {n : Nat} {i : Instr} {f : α → Instr} {parse : BitVec 10 → Option α}
    {bits : α → BitVec 10} (hh : Hdr.parse w = .ok h) (hop : (w.extractLsb' 88 8).toNat = n)
    (hp : needMod (parse (w.extractLsb' 0 10)) f = .ok i) (hbits : ∀ {b a}, parse b = some a → bits a = b)
    (henc : ∀ a, encode (f a) = encI (BitVec.ofNat 8 n) h (Ops2.parse w) (w.extractLsb' 10 32) (bits a))
    (hcanon : ∀ a, (f a).canon = (Ops2.parse w).canon) : encode i = w ∧ i.canon = true := by
  obtain ⟨a, ha, rfl⟩ := needMod_ok hp
  exact encode_eq_of_formatI hh hop (henc a) (hcanon a) (hbits ha)

/-- A row of format J. -/
theorem encode_eq_of_rowJ {w : InstrWord} {h : Hdr} {n : Nat} {i j : Instr} (hh : Hdr.parse w = .ok h)
    (hop : (w.extractLsb' 88 8).toNat = n) (hp : Except.ok (ε := Reject) j = .ok i)
    (henc : encode j = encJ (BitVec.ofNat 8 n) h (Ops2.parse w) (w.extractLsb' 21 21) (w.extractLsb' 0 21))
    (hcanon : j.canon = (Ops2.parse w).canon) : encode i = w ∧ i.canon = true := by
  cases hp
  have hop' : BitVec.ofNat 8 n = w.extractLsb' 88 8 := by rw [← hop, BitVec.ofNat_toNat, BitVec.setWidth_eq]
  rw [henc, hcanon, hop', encJ_parse hh, Ops2.canon_parse]
  exact ⟨rfl, rfl⟩

theorem tretMod_eq_some {b : BitVec 10} {x : Fin 3} (h : tretMod b.toNat = some x) : BitVec.ofNat 10 x.val = b := by
  have code : ∀ n : Nat, tretMod n = some x → x.val = n := by
    intro n hn
    unfold tretMod at hn
    split at hn <;> cases hn <;> rfl
  rw [code _ h, BitVec.ofNat_toNat, BitVec.setWidth_eq]

section
variable {w : InstrWord} {h : Hdr} {i : Instr} (hh : Hdr.parse w = .ok h)
include hh

/-- The row of TRET: MOD says which of the three. -/
theorem encode_eq_of_tret (hop : (w.extractLsb' 88 8).toNat = 0x0B)
    (hp : needMod (tretMod (w.extractLsb' 0 10).toNat) (fun x => if x = 0 then .tretRetry h (Ops4.parse w)
      else if x = 1 then .tretSkip h (Ops4.parse w) else .tretKill h (Ops4.parse w)) = .ok i) :
    encode i = w ∧ i.canon = true := by
  obtain ⟨x, hx, rfl⟩ := needMod_ok hp
  have hb := tretMod_eq_some hx
  match x with
  | 0 => exact encode_eq_of_formatR hh hop rfl rfl hb
  | 1 => exact encode_eq_of_formatR hh hop rfl rfl hb
  | 2 => exact encode_eq_of_formatR hh hop rfl rfl hb

/-- The row of QUOTA: MOD 0 gives, MOD 1 takes. -/
theorem encode_eq_of_quota (hop : (w.extractLsb' 88 8).toNat = 0x27)
    (hp : (if w.extractLsb' 0 10 == 0 then .ok (.quotaGive h (Ops4.parse w))
      else if w.extractLsb' 0 10 == 1 then .ok (.quotaTake h (Ops4.parse w)) else .error .mod) = Except.ok (ε := Reject) i) :
    encode i = w ∧ i.canon = true := by
  split at hp
  next hm =>
    cases hp
    exact encode_eq_of_formatR hh hop rfl rfl (eq_of_beq hm).symm
  next =>
    split at hp
    next hm =>
      cases hp
      exact encode_eq_of_formatR hh hop rfl rfl (eq_of_beq hm).symm
    · cases hp

/-- The row of CFGRUN and CFGRUN.res: MOD is a zero field, the flag RES and the slot. -/
theorem encode_eq_of_cfgrun (hop : (w.extractLsb' 88 8).toNat = 0xD6)
    (hp : (if (w.extractLsb' 0 10).extractLsb' 4 6 != 0 then .error .mod
      else if bit (w.extractLsb' 0 10) 3 then .ok (.cfgrunRes h (Ops4.parse w) ⟨(w.extractLsb' 0 10).extractLsb' 0 3⟩)
      else .ok (.cfgrun h (Ops4.parse w) ⟨(w.extractLsb' 0 10).extractLsb' 0 3⟩)) = Except.ok (ε := Reject) i) :
    encode i = w ∧ i.canon = true := by
  generalize hb : w.extractLsb' 0 10 = b at hp
  split at hp
  · cases hp
  next hz =>
    have whole : 0#6 ++ BitVec.ofBool (bit b 3) ++ b.extractLsb' 0 3 = b := by
      rw [← eq_zero_of_bne_eq_false (Bool.not_eq_true _ ▸ hz), ofBool_bit]
      simpa (disch := decide) only [extractLsb'_append_neighbour] using BitVec.extractLsb'_eq_self
    split at hp
    next hres =>
      cases hp
      rw [hres] at whole
      exact encode_eq_of_formatR hh hop rfl rfl (whole.trans hb.symm)
    next hres =>
      cases hp
      rw [Bool.eq_false_iff.mpr hres, show 0#6 ++ BitVec.ofBool false = 0#7 from rfl] at whole
      exact encode_eq_of_formatR hh hop rfl rfl (whole.trans hb.symm)

/-- The row of CFGDRAIN: MOD is a zero field and the slot. -/
theorem encode_eq_of_cfgdrain (hop : (w.extractLsb' 88 8).toNat = 0xD7)
    (hp : (if (w.extractLsb' 0 10).extractLsb' 3 7 != 0 then .error .mod
      else .ok (.cfgdrain h (Ops4.parse w) ⟨(w.extractLsb' 0 10).extractLsb' 0 3⟩)) = Except.ok (ε := Reject) i) :
    encode i = w ∧ i.canon = true := by
  generalize hb : w.extractLsb' 0 10 = b at hp
  split at hp
  · cases hp
  next hz =>
    cases hp
    have whole : 0#7 ++ b.extractLsb' 0 3 = b := by
      rw [← eq_zero_of_bne_eq_false (Bool.not_eq_true _ ▸ hz)]
      simpa (disch := decide) only [extractLsb'_append_neighbour] using BitVec.extractLsb'_eq_self
    exact encode_eq_of_formatR hh hop rfl rfl (whole.trans hb.symm)

end

/-- A word that the opcode table reads is the word of what it reads, with canonical operand fields. -/
theorem encode_eq_of_parseWord {w : InstrWord} {h : Hdr} {i : Instr} (hh : Hdr.parse w = .ok h) (hp : parseWord w h = .ok i) :
    encode i = w ∧ i.canon = true := by
  unfold parseWord at hp
  split at hp
  case h_1 hop | h_4 hop | h_6 hop | h_7 hop | h_8 hop | h_9 hop | h_12 hop | h_26 hop | h_101 hop | h_102 hop | h_110 hop |
        h_111 hop | h_117 hop | h_118 hop | h_119 hop | h_120 hop | h_121 hop | h_123 hop | h_124 hop | h_125 hop | h_126 hop |
        h_127 hop | h_128 hop | h_130 hop | h_137 hop | h_140 hop | h_141 hop | h_144 hop | h_145 hop =>
    exact encode_eq_of_rowR (parse := zeroMod) (bits := fun _ => 0#10) hh hop hp zeroMod_eq_zero (fun _ => rfl) (fun _ => rfl)
  case h_2 hop | h_3 hop | h_5 hop | h_13 hop =>
    exact encode_eq_of_rowJ hh hop hp rfl rfl
  case h_10 hop | h_28 hop | h_142 hop | h_143 hop =>
    exact encode_eq_of_rowI (parse := zeroMod) (bits := fun _ => 0#10) hh hop hp zeroMod_eq_zero (fun _ => rfl) (fun _ => rfl)
  case h_14 hop | h_15 hop | h_16 hop | h_17 hop | h_18 hop | h_19 hop | h_20 hop | h_21 hop | h_22 hop =>
    exact encode_eq_of_rowR (parse := XMod.parse) hh hop hp XMod.bits_of_parse (fun _ => rfl) (fun _ => rfl)
  case h_23 hop =>
    exact encode_eq_of_rowR (parse := X2Mod.parse) hh hop hp X2Mod.bits_of_parse (fun _ => rfl) (fun _ => rfl)
  case h_24 hop =>
    exact encode_eq_of_rowI (parse := MoviMod.parse) hh hop hp MoviMod.bits_of_parse (fun _ => rfl) (fun _ => rfl)
  case h_25 hop =>
    exact encode_eq_of_rowR (parse := SelMod.parse) hh hop hp SelMod.bits_of_parse (fun _ => rfl) (fun _ => rfl)
  case h_27 hop =>
    exact encode_eq_of_rowR (parse := RgnMod.parse) hh hop hp RgnMod.bits_of_parse (fun _ => rfl) (fun _ => rfl)
  case h_29 hop =>
    exact encode_eq_of_rowR (parse := SetkMod.parse) hh hop hp SetkMod.bits_of_parse (fun _ => rfl) (fun _ => rfl)
  case h_31 hop | h_32 hop | h_33 hop | h_34 hop | h_35 hop | h_36 hop | h_37 hop | h_38 hop | h_39 hop | h_40 hop | h_41 hop |
        h_42 hop | h_43 hop | h_44 hop | h_45 hop | h_46 hop | h_47 hop | h_48 hop | h_49 hop | h_50 hop | h_51 hop | h_52 hop |
        h_53 hop | h_54 hop | h_55 hop | h_56 hop | h_57 hop | h_58 hop | h_59 hop | h_60 hop | h_61 hop | h_62 hop | h_63 hop |
        h_64 hop | h_65 hop | h_66 hop | h_67 hop | h_68 hop | h_69 hop | h_70 hop | h_71 hop | h_72 hop | h_73 hop | h_74 hop |
        h_75 hop | h_76 hop | h_77 hop | h_78 hop | h_79 hop | h_80 hop | h_81 hop | h_82 hop | h_83 hop | h_84 hop | h_85 hop |
        h_86 hop | h_87 hop | h_88 hop | h_89 hop | h_90 hop | h_91 hop | h_92 hop | h_93 hop =>
    exact encode_eq_of_rowR (parse := AMod.parse) hh hop hp AMod.bits_of_parse (fun _ => rfl) (fun _ => rfl)
  case h_94 hop | h_95 hop =>
    exact encode_eq_of_rowI (parse := AMod.parse) hh hop hp AMod.bits_of_parse (fun _ => rfl) (fun _ => rfl)
  case h_96 hop | h_97 hop | h_99 hop | h_100 hop =>
    exact encode_eq_of_rowI (parse := LMod.parse) hh hop hp LMod.bits_of_parse (fun _ => rfl) (fun _ => rfl)
  case h_98 hop | h_105 hop | h_106 hop | h_107 hop =>
    exact encode_eq_of_rowR (parse := AtMod.parse) hh hop hp AtMod.bits_of_parse (fun _ => rfl) (fun _ => rfl)
  case h_103 hop | h_104 hop | h_108 hop | h_109 hop =>
    exact encode_eq_of_rowI (parse := GMod.parse) hh hop hp GMod.bits_of_parse (fun _ => rfl) (fun _ => rfl)
  case h_112 hop =>
    exact encode_eq_of_rowR (parse := PrefMod.parse) hh hop hp PrefMod.bits_of_parse (fun _ => rfl) (fun _ => rfl)
  case h_113 hop =>
    exact encode_eq_of_rowR (parse := BindMod.parse) hh hop hp BindMod.bits_of_parse (fun _ => rfl) (fun _ => rfl)
  case h_114 hop | h_115 hop | h_122 hop =>
    exact encode_eq_of_rowR (parse := SyMod.parse) hh hop hp SyMod.bits_of_parse (fun _ => rfl) (fun _ => rfl)
  case h_116 hop =>
    exact encode_eq_of_rowR (parse := FenceMod.parse) hh hop hp FenceMod.bits_of_parse (fun _ => rfl) (fun _ => rfl)
  case h_129 hop =>
    exact encode_eq_of_rowR (parse := TspMod.parse) hh hop hp TspMod.bits_of_parse (fun _ => rfl) (fun _ => rfl)
  case h_131 hop =>
    exact encode_eq_of_rowR (parse := DlMod.parse) hh hop hp DlMod.bits_of_parse (fun _ => rfl) (fun _ => rfl)
  case h_132 hop | h_133 hop =>
    exact encode_eq_of_rowR (parse := CpMod.parse) hh hop hp CpMod.bits_of_parse (fun _ => rfl) (fun _ => rfl)
  case h_134 hop | h_135 hop =>
    exact encode_eq_of_rowR (parse := MmMod.parse) hh hop hp MmMod.bits_of_parse (fun _ => rfl) (fun _ => rfl)
  case h_136 hop =>
    exact encode_eq_of_rowR (parse := MzMod.parse) hh hop hp MzMod.bits_of_parse (fun _ => rfl) (fun _ => rfl)
  case h_11 hop => exact encode_eq_of_tret hh hop hp
  case h_30 hop => exact encode_eq_of_quota hh hop hp
  case h_138 hop => exact encode_eq_of_cfgrun hh hop hp
  case h_139 hop => exact encode_eq_of_cfgdrain hh hop hp
  case h_146 => cases hp

end Sys2Proof
end

