-- ==== Sys2Proof/Proofs/DecodeEncode.lean ====
section
/-!
The decoder on the words that the encoder writes, and O54: decoding and encoding agree (R15 to R19, R24 to R29).
-/
namespace Sys2Proof

set_option Elab.async false

/-! ### The word of an instruction is read as the instruction -/

theorem decode_of_parseWord {w : InstrWord} {h : Hdr} {i : Instr} (hh : Hdr.parse w = .ok h) (hp : parseWord w h = .ok i)
    (hl : i.legal = true) : decode w = .ok i := by
  simp only [decode, hh, hp, hl, if_true]

theorem decode_eq_ok {w : InstrWord} {i : Instr} (hd : decode w = .ok i) :
    ∃ h, Hdr.parse w = .ok h ∧ parseWord w h = .ok i ∧ i.legal = true := by
  unfold decode at hd
  split at hd
  · cases hd
  next h hh =>
    split at hd
    · cases hd
    next j hj =>
      split at hd
      next hl =>
        cases hd
        exact ⟨h, hh, hj, hl⟩
      · cases hd

/-- A word of format R is read as the instruction that the table has for its opcode, its operand fields and its MOD. -/
theorem decode_encR {n : Nat} {h : Hdr} {o : Ops4} {b : BitVec 10} {i : Instr}
    (hrow : ∀ w : InstrWord, (w.extractLsb' 88 8).toNat = n → Ops4.parse w = o → w.extractLsb' 0 10 = b → parseWord w h = .ok i)
    (hn : n < 256) (hc : o.canon = true) (hl : i.legal = true) : decode (encR (BitVec.ofNat 8 n) h o b) = .ok i :=
  decode_of_parseWord (encR_hdr ..)
    (hrow _ (by rw [encR_op, BitVec.toNat_ofNat, Nat.mod_eq_of_lt hn]) (Ops4.parse_encR _ _ _ _ hc) (encR_mod ..)) hl

theorem decode_encR_of_row {α : Type} {n : Nat} {h : Hdr} {o : Ops4} {a : α} {f : Ops4 → α → Instr} {parse : BitVec 10 → Option α}
    {bits : α → BitVec 10}
    (hrow : ∀ w : InstrWord, (w.extractLsb' 88 8).toNat = n → parseWord w h = needMod (parse (w.extractLsb' 0 10)) (f (Ops4.parse w)))
    (hparse : ∀ x, parse (bits x) = some x) (hn : n < 256) (hc : o.canon = true) (hl : (f o a).legal = true) :
    decode (encR (BitVec.ofNat 8 n) h o (bits a)) = .ok (f o a) :=
  decode_encR (fun w e eo em => by rw [hrow w e, em, eo, hparse]; rfl) hn hc hl

theorem decode_encR_of_rowZero {n : Nat} {h : Hdr} {o : Ops4} {f : Ops4 → Instr}
    (hrow : ∀ w : InstrWord, (w.extractLsb' 88 8).toNat = n →
      parseWord w h = needMod (zeroMod (w.extractLsb' 0 10)) fun _ => f (Ops4.parse w))
    (hn : n < 256) (hc : o.canon = true) (hl : (f o).legal = true) : decode (encR (BitVec.ofNat 8 n) h o 0#10) = .ok (f o) :=
  decode_encR_of_row (a := ()) (f := fun o _ => f o) (bits := fun _ => 0#10) hrow (fun _ => rfl) hn hc hl

theorem decode_encI_of_row {α : Type} {n : Nat} {h : Hdr} {o : Ops2} {imm : BitVec 32} {a : α} {f : Ops2 → BitVec 32 → α → Instr}
    {parse : BitVec 10 → Option α} {bits : α → BitVec 10}
    (hrow : ∀ w : InstrWord, (w.extractLsb' 88 8).toNat = n →
      parseWord w h = needMod (parse (w.extractLsb' 0 10)) (f (Ops2.parse w) (w.extractLsb' 10 32)))
    (hparse : ∀ x, parse (bits x) = some x) (hn : n < 256) (hc : o.canon = true) (hl : (f o imm a).legal = true) :
    decode (encI (BitVec.ofNat 8 n) h o imm (bits a)) = .ok (f o imm a) := by
  refine decode_of_parseWord (encI_hdr ..) ?_ hl
  rw [hrow _ (by rw [encI_op, BitVec.toNat_ofNat, Nat.mod_eq_of_lt hn]), encI_mod, encI_imm, Ops2.parse_encI _ _ _ _ _ hc, hparse]
  rfl

theorem decode_encI_of_rowZero {n : Nat} {h : Hdr} {o : Ops2} {imm : BitVec 32} {f : Ops2 → BitVec 32 → Instr}
    (hrow : ∀ w : InstrWord, (w.extractLsb' 88 8).toNat = n →
      parseWord w h = needMod (zeroMod (w.extractLsb' 0 10)) fun _ => f (Ops2.parse w) (w.extractLsb' 10 32))
    (hn : n < 256) (hc : o.canon = true) (hl : (f o imm).legal = true) :
    decode (encI (BitVec.ofNat 8 n) h o imm 0#10) = .ok (f o imm) :=
  decode_encI_of_row (a := ()) (f := fun o imm _ => f o imm) (bits := fun _ => 0#10) hrow (fun _ => rfl) hn hc hl

theorem decode_encJ_of_row {n : Nat} {h : Hdr} {o : Ops2} {t u : BitVec 21} {f : Ops2 → BitVec 21 → BitVec 21 → Instr}
    (hrow : ∀ w : InstrWord, (w.extractLsb' 88 8).toNat = n →
      parseWord w h = .ok (f (Ops2.parse w) (w.extractLsb' 21 21) (w.extractLsb' 0 21)))
    (hn : n < 256) (hc : o.canon = true) (hl : (f o t u).legal = true) :
    decode (encJ (BitVec.ofNat 8 n) h o t u) = .ok (f o t u) := by
  refine decode_of_parseWord (encJ_hdr ..) ?_ hl
  rw [hrow _ (by rw [encJ_op, BitVec.toNat_ofNat, Nat.mod_eq_of_lt hn]), encJ_t, encJ_u, Ops2.parse_encJ _ _ _ _ _ hc]

set_option maxRecDepth 10000

section
variable {w : InstrWord} {h : Hdr}

theorem parseWord_tret (e : (w.extractLsb' 88 8).toNat = 0x0B) : parseWord w h =
    needMod (tretMod (w.extractLsb' 0 10).toNat) fun x => if x = 0 then .tretRetry h (Ops4.parse w)
      else if x = 1 then .tretSkip h (Ops4.parse w) else .tretKill h (Ops4.parse w) := by
  unfold parseWord; rw [e]; rfl

theorem parseWord_quota (e : (w.extractLsb' 88 8).toNat = 0x27) : parseWord w h =
    if w.extractLsb' 0 10 == 0 then .ok (.quotaGive h (Ops4.parse w))
    else if w.extractLsb' 0 10 == 1 then .ok (.quotaTake h (Ops4.parse w)) else .error .mod := by
  unfold parseWord; rw [e]; rfl

theorem parseWord_cfgrun (e : (w.extractLsb' 88 8).toNat = 0xD6) : parseWord w h =
    if (w.extractLsb' 0 10).extractLsb' 4 6 != 0 then .error .mod
    else if bit (w.extractLsb' 0 10) 3 then .ok (.cfgrunRes h (Ops4.parse w) ⟨(w.extractLsb' 0 10).extractLsb' 0 3⟩)
    else .ok (.cfgrun h (Ops4.parse w) ⟨(w.extractLsb' 0 10).extractLsb' 0 3⟩) := by
  unfold parseWord; rw [e]; rfl

theorem parseWord_cfgdrain (e : (w.extractLsb' 88 8).toNat = 0xD7) : parseWord w h =
    if (w.extractLsb' 0 10).extractLsb' 3 7 != 0 then .error .mod
    else .ok (.cfgdrain h (Ops4.parse w) ⟨(w.extractLsb' 0 10).extractLsb' 0 3⟩) := by
  unfold parseWord; rw [e]; rfl

end

/-- MOD of CFGRUN, CFGRUN.res and CFGDRAIN is read back, for each slot. -/
theorem slotMod_fields (slot : BitVec 3) :
    ((0#7 ++ slot).extractLsb' 4 6 = 0 ∧ bit (0#7 ++ slot) 3 = false ∧ (0#7 ++ slot).extractLsb' 3 7 = 0 ∧
      (0#7 ++ slot).extractLsb' 0 3 = slot) ∧
    (1#7 ++ slot).extractLsb' 4 6 = 0 ∧ bit (1#7 ++ slot) 3 = true ∧ (1#7 ++ slot).extractLsb' 0 3 = slot := by
  revert slot
  decide

/-- R15, R16: of a well-formed instruction the decoder reads what the encoder wrote. -/
theorem decode_encode (i : Instr) (hwf : i.wf = true) : decode (encode i) = .ok i := by
  obtain ⟨hl, hc⟩ := (Bool.and_eq_true _ _).mp hwf
  cases i with
  | nop h o | brx h o | ret h o | join h o | exit h o | yield h o | bpt h o | sread h o | spush h o | spop h o | cflush h o | cinv h o
    | ocwait h o | rvinit h o | rvarr h o | rvwait h o | mbinit h o | mbwait h o | hwait h o | htest h o | hcancel h o | hstat h o
    | hmov h o | targ h o | cfgload h o | cfgevict h o | rblk h o | frec h o | icinv h o =>
    exact decode_encR_of_rowZero (fun w e => by unfold parseWord; rw [e]; rfl) (by decide) hc hl
  | bra h o t u | btri h o t u | call h o t u | loopd h o t u =>
    exact decode_encJ_of_row (fun w e => by unfold parseWord; rw [e]; rfl) (by decide) hc hl
  | trap h o imm | live h o imm | srreg h o imm | swreg h o imm =>
    exact decode_encI_of_rowZero (fun w e => by unfold parseWord; rw [e]; rfl) (by decide) hc hl
  | shfl h o m | vote h o m | redux h o m | fredux h o m | matchOp h o m | plop h o m | pset h o m | pmov h o m | pcount h o m =>
    exact decode_encR_of_row (bits := XMod.bits) (fun w e => by unfold parseWord; rw [e]; rfl) XMod.parse_bits (by decide) hc hl
  | mov h o m =>
    exact decode_encR_of_row (bits := X2Mod.bits) (fun w e => by unfold parseWord; rw [e]; rfl) X2Mod.parse_bits (by decide) hc hl
  | movi h o imm m =>
    exact decode_encI_of_row (bits := MoviMod.bits) (fun w e => by unfold parseWord; rw [e]; rfl) MoviMod.parse_bits (by decide) hc hl
  | sel h o m =>
    exact decode_encR_of_row (bits := SelMod.bits) (fun w e => by unfold parseWord; rw [e]; rfl) SelMod.parse_bits (by decide) hc hl
  | rgn h o m =>
    exact decode_encR_of_row (bits := RgnMod.bits) (fun w e => by unfold parseWord; rw [e]; rfl) RgnMod.parse_bits (by decide) hc hl
  | setk h o m =>
    exact decode_encR_of_row (bits := SetkMod.bits) (fun w e => by unfold parseWord; rw [e]; rfl) SetkMod.parse_bits (by decide) hc hl
  | iadd h o m | isub h o m | imul h o m | imulh h o m | imad h o m | imin h o m | imax h o m | iabs h o m | lop3 h o m | shl h o m
    | shr h o m | sar h o m | rot h o m | bfx h o m | bfi h o m | popc h o m | clz h o m | brev h o m | icmp h o m | lea h o m
    | idiv h o m | cvti h o m | fadd h o m | fmul h o m | ffma h o m | fmin h o m | fmax h o m | fcmp h o m | fclass h o m | frnd h o m
    | frcp h o m | fsqrt h o m | frsq h o m | fex2 h o m | flg2 h o m | fsin h o m | fcos h o m | fdiv h o m | ftanh h o m | fdot h o m
    | fscale h o m | cvtf h o m | pack h o m | unpack h o m | deq h o m | qblk h o m | ivmake h o m | ivbnd h o m | ivadd h o m
    | ivsub h o m | ivmul h o m | ivdiv h o m | ivfma h o m | ivsqr h o m | ivsqrt h o m | ivex2 h o m | ivlg2 h o m | ivmid h o m
    | ivwid h o m | ivhull h o m | ivisect h o m | ivcmp h o m | ivbisect h o m =>
    exact decode_encR_of_row (bits := AMod.bits) (fun w e => by unfold parseWord; rw [e]; rfl) AMod.parse_bits (by decide) hc hl
  | ivld h o imm m | ivst h o imm m =>
    exact decode_encI_of_row (bits := AMod.bits) (fun w e => by unfold parseWord; rw [e]; rfl) AMod.parse_bits (by decide) hc hl
  | ldl h o imm m | stl h o imm m | ldb h o imm m | stb h o imm m =>
    exact decode_encI_of_row (bits := LMod.bits) (fun w e => by unfold parseWord; rw [e]; rfl) LMod.parse_bits (by decide) hc hl
  | atoml h o m | atom h o m | red h o m | cas h o m =>
    exact decode_encR_of_row (bits := AtMod.bits) (fun w e => by unfold parseWord; rw [e]; rfl) AtMod.parse_bits (by decide) hc hl
  | ld h o imm m | st h o imm m | ldsc h o imm m | stsc h o imm m =>
    exact decode_encI_of_row (bits := GMod.bits) (fun w e => by unfold parseWord; rw [e]; rfl) GMod.parse_bits (by decide) hc hl
  | pref h o m =>
    exact decode_encR_of_row (bits := PrefMod.bits) (fun w e => by unfold parseWord; rw [e]; rfl) PrefMod.parse_bits (by decide) hc hl
  | bind h o m =>
    exact decode_encR_of_row (bits := BindMod.bits) (fun w e => by unfold parseWord; rw [e]; rfl) BindMod.parse_bits (by decide) hc hl
  | acq h o m | rel h o m | mbarr h o m =>
    exact decode_encR_of_row (bits := SyMod.bits) (fun w e => by unfold parseWord; rw [e]; rfl) SyMod.parse_bits (by decide) hc hl
  | fence h o m =>
    exact decode_encR_of_row (bits := FenceMod.bits) (fun w e => by unfold parseWord; rw [e]; rfl) FenceMod.parse_bits (by decide) hc hl
  | tspawn h o m =>
    exact decode_encR_of_row (bits := TspMod.bits) (fun w e => by unfold parseWord; rw [e]; rfl) TspMod.parse_bits (by decide) hc hl
  | dlaunch h o m =>
    exact decode_encR_of_row (bits := DlMod.bits) (fun w e => by unfold parseWord; rw [e]; rfl) DlMod.parse_bits (by decide) hc hl
  | copy h o m | copyx h o m =>
    exact decode_encR_of_row (bits := CpMod.bits) (fun w e => by unfold parseWord; rw [e]; rfl) CpMod.parse_bits (by decide) hc hl
  | mma h o m | mmas h o m =>
    exact decode_encR_of_row (bits := MmMod.bits) (fun w e => by unfold parseWord; rw [e]; rfl) MmMod.parse_bits (by decide) hc hl
  | mzero h o m =>
    exact decode_encR_of_row (bits := MzMod.bits) (fun w e => by unfold parseWord; rw [e]; rfl) MzMod.parse_bits (by decide) hc hl
  | tretRetry h o | tretSkip h o | tretKill h o =>
    exact decode_encR (fun w e eo em => by rw [parseWord_tret e, em, eo]; rfl) (by decide) hc hl
  | quotaGive h o | quotaTake h o =>
    exact decode_encR (fun w e eo em => by rw [parseWord_quota e, em, eo]; rfl) (by decide) hc hl
  | cfgrun h o m | cfgrunRes h o m =>
    exact decode_encR (fun w e eo em => by rw [parseWord_cfgrun e, em, eo]; simp [slotMod_fields]) (by decide) hc hl
  | cfgdrain h o m =>
    exact decode_encR (fun w e eo em => by rw [parseWord_cfgdrain e, em, eo]; simp [slotMod_fields]) (by decide) hc hl
  | frtailWrite | covsizeWrite | detctlWrite | feataccWrite | peerWindowWrite | watchdog | recordRelaunch | loadDataArrival
    | storePerformed | flushComplete | apertureWriteAck | thimbleVisit | issueQuantumEnd | serialPhase | waveForm | gangPlace
    | quireRetire | gridRetire | deviceQueueTake | hostDoorbell | serialQueueRetire | pageFillComplete | channelPeriod | refreshDue
    | copyChunk | copyComplete | tileStep | mzeroExecute | cfgloadPerform | cfgrunEnqueue | cfgdrainPerform | cfgevictPerform
    | installRun | tileFire | mBufferAccept | mBufferEmit | portReadIssue | portReadReturn | portWrite | portWriteAck | contextStep
    | runComplete | freezeEnd | drainSave | drainDone | drainTimeout | rblkMessage | rblkAbort | peerRequest | hostBar2Access
    | ctxDefine | ctxUndefine | ctxActivate | ctxPreempt | ctxKill | ctxwrite | qset | inval | unmap | budget | partset | grpset | fnset
    | lifecycle | attest | deviceReset | powerLimit | allBankRefreshEnd | cfgloadGranule => cases hl

/-- Settles O54. One direction by the instruction's format and MOD kind; the other because the decoder reads every bit of the
word, and reads only what is legal. -/
theorem decodeAndEncode : Obligations.DecodeAndEncode := by
  refine ⟨decode_encode, fun w i hd => ?_⟩
  obtain ⟨h, hh, hp, hl⟩ := decode_eq_ok hd
  obtain ⟨henc, hcanon⟩ := encode_eq_of_parseWord hh hp
  exact ⟨henc, (Bool.and_eq_true _ _).mpr ⟨hl, hcanon⟩⟩

end Sys2Proof
end

