-- ==== Sys2Proof/Proofs/DecodeWords.lean ====
section
/-!
O55: the words that the manual spells out, and words that are none (R16, R31, R32).
-/
namespace Sys2Proof

set_option Elab.async false
set_option maxRecDepth 10000

/-- The word of a well-formed instruction is read as the instruction. -/
theorem decode_of_encode {w : InstrWord} {i : Instr} (hw : encode i = w) (hwf : i.wf = true) : decode w = .ok i :=
  hw ▸ decode_encode i hwf

/-- R32: no instruction has opcode 0. -/
theorem decode_error_of_opcode_zero {w : InstrWord} (hop : w.extractLsb' 88 8 = 0) : ∃ x, decode w = .error x := by
  cases hd : decode w with
  | error x => exact ⟨x, rfl⟩
  | ok i =>
    obtain ⟨h, -, hp, -⟩ := decode_eq_ok hd
    have none : parseWord w h = .error .opcode := by unfold parseWord; rw [hop]; rfl
    rw [none] at hp
    cases hp

theorem Hdr.guard_of_parse {w : InstrWord} {h : Hdr} (hh : Hdr.parse w = .ok h) :
    h.cond.code = w.extractLsb' 85 3 ∧ h.pred = w.extractLsb' 82 3 := by
  unfold Hdr.parse at hh
  split at hh
  · cases hh
  · split at hh
    · cases hh
    next c hc =>
      cases hh
      exact ⟨Cond.code_of_ofCode hc, rfl⟩

/-- R31: a JOIN has no guard, so a word with its opcode and a guard is no instruction. -/
theorem decode_error_of_guarded_join {w : InstrWord} (hop : w.extractLsb' 88 8 = 0x07) (hg : w.extractLsb' 82 6 ≠ 0) :
    ∃ x, decode w = .error x := by
  cases hd : decode w with
  | error x => exact ⟨x, rfl⟩
  | ok i =>
    obtain ⟨h, hh, hp, hl⟩ := decode_eq_ok hd
    have row : parseWord w h = needMod (zeroMod (w.extractLsb' 0 10)) fun _ => .join h (Ops4.parse w) := by
      unfold parseWord; rw [hop]; rfl
    obtain ⟨-, -, rfl⟩ := needMod_ok (row ▸ hp)
    simp only [Instr.legal, Hdr.ok, Bool.and_eq_true, Bool.or_eq_true, bne_iff_ne, beq_iff_eq] at hl
    obtain ⟨⟨hguard, -⟩, halways⟩ := hl
    have hpred := hguard.resolve_left (fun ne => ne halways)
    have whole : h.cond.code ++ h.pred = w.extractLsb' 82 6 := by
      obtain ⟨hcond, hp'⟩ := Hdr.guard_of_parse hh
      rw [hcond, hp']
      exact extractLsb'_append_neighbour w 82 3 85 3 rfl
    rw [halways, hpred] at whole
    exact absurd whole.symm hg

/-- Settles O55. Each word is the encoding of the instruction that the manual gives for it. -/
theorem decodeWords : Obligations.DecodeWords := by
  refine ⟨?_, ?_, ?_, ?_, ?_, ?_, ?_, ?_, fun _ => decode_error_of_opcode_zero, fun _ => decode_error_of_guarded_join⟩ <;>
    exact decode_of_encode (by decide) (by decide)

end Sys2Proof
end

