-- ==== Sys2Proof/Proofs/Checks.lean ====
section
/-!
The checks that stand before every instruction (R31 to R33), and O58.
-/
namespace Sys2Proof.Machine

set_option Elab.async false

section
variable {h : Hdr} {os : List Operand} {f : Front} {sync : Env → Bool} {body : Env → Eff} {s : State} {e : Env}
  (he : (s.env.map fun e0 => e0.guarded h) = some e)
include he

theorem perform_of_front_some {x : Trap} (hf : e.front f os = some x) : perform h os f sync body s = .next (e.raise x) := by
  obtain ⟨e0, h0, rfl⟩ := Option.map_eq_some_iff.mp he
  simp only [perform, h0, hf]

theorem perform_of_no_lane (hf : e.front f os = none) (ha : e.act = 0) :
    perform h os f sync body s = .next (e.retire e.s e.next) := by
  obtain ⟨e0, h0, rfl⟩ := Option.map_eq_some_iff.mp he
  simp only [perform, h0, hf, ha, if_true]

theorem State.env_guarded_s : e.s = s := by
  obtain ⟨e0, h0, rfl⟩ := Option.map_eq_some_iff.mp he
  show e0.s = s
  exact State.env_s h0

end

theorem Env.indexed_some {e : Env} {os : List (Operand × Bool)} {x : Trap} (h : e.indexFault os = some x) (k : Unit → Eff) :
    e.indexed os k = .trap x := by
  simp [Env.indexed, h]

theorem Env.indexFault_singleton (e : Env) (o : Operand × Bool) : e.indexFault [o] = e.indexFault1 o.1 o.2 := by
  unfold Env.indexFault
  cases hx : e.indexFault1 o.1 o.2 <;> simp [hx]

/-- The fault of several operands is the fault of one of them. -/
theorem Env.indexFault_eq_some_of_mem {e : Env} {os : List (Operand × Bool)} {o : Operand × Bool} (ho : o ∈ os)
    (hx : e.indexFault [o] ≠ none) : ∃ o' ∈ os, ∃ x, e.indexFault [o'] = some x ∧ e.indexFault os = some x := by
  rw [Env.indexFault_singleton] at hx
  cases hf : e.indexFault os with
  | none => exact absurd (List.findSome?_eq_none_iff.mp hf o ho) hx
  | some x =>
    obtain ⟨o', ho', hx'⟩ := List.exists_of_findSome?_eq_some hf
    exact ⟨o', ho', x, by rw [Env.indexFault_singleton, hx'], rfl⟩

/-- The register that an indexed operand names lies in the window of k and below the budget; both of a pair, from an even one on. -/
theorem Env.indexFault1_idx (e : Env) (k : BitVec 2) (off : BitVec 8) (neg abs pair : Bool) {n lim : Int} (hn : e.idxReg k off = n)
    (hlim : (((e.sig.k[k.toNat]?.getD (0, 0)).2 : Nat) : Int) = lim) :
    e.indexFault1 (.idx k off neg abs) pair =
      if 0 ≤ n ∧ (if pair then n + 1 else n) < lim ∧ (if pair then n + 1 else n) < (e.sig.B : Int) ∧ (pair = true → n % 2 = 0) then none
      else some ⟨cINDEX, BitVec.ofInt 64 n, none⟩ := by
  have unfit : (n < 0 ∨ lim ≤ n ∨ (e.sig.B : Int) ≤ n ∨ (pair = true ∧ (n % 2 ≠ 0 ∨ lim ≤ n + 1 ∨ (e.sig.B : Int) ≤ n + 1))) ↔
      ¬ (0 ≤ n ∧ (if pair then n + 1 else n) < lim ∧ (if pair then n + 1 else n) < (e.sig.B : Int) ∧ (pair = true → n % 2 = 0)) := by
    cases pair with
    | false =>
      simp only [Bool.false_eq_true, if_false, false_and, or_false, false_implies, and_true]
      omega
    | true =>
      simp only [if_true, true_and, forall_const]
      omega
  simp only [Env.indexFault1, hn, hlim, unfit, ite_not]

/-- The ILLOP of a word that decodes to nothing (R32). -/
theorem State.issuePath_of_decode_error {s u : State} {c slot : Nat} {g : Sig} {p : Path} {w : InstrWord}
    (hf : s.fetch g.ctx p.pc = .word w u) (hw : p.wdog = none) (hp : p.fault = none) (hd : ∃ x, decode w = .error x) :
    s.issuePath c slot g p = .spent ((u.envWith c slot ((u.sig? c slot).getD g) p w).raise (trapOf cILLOP)) := by
  obtain ⟨x, hx⟩ := hd
  simp [State.issuePath, hf, hw, hp, hx]

end Sys2Proof.Machine

namespace Sys2Proof.Claim
open Machine

/-- The front of an instruction raises what the first failing check names. -/
theorem front_eq_firstFailure (e : Env) (d : Demand) : e.front d.front d.ops = (firstFailure e d).map trapOf := by
  have feats : (d.feats.any fun b => !e.s.feat e.sig.ctx b) = true ↔ ∃ b ∈ d.feats, e.s.feat e.sig.ctx b = false := by simp
  have priv : ((!e.path.handler) = true ∧ d.ops.any Operand.isT = true ∨ (d.handler && !e.path.handler) = true) ↔
      e.path.handler = false ∧ (d.handler = true ∨ ∃ o ∈ d.ops, Operand.isT o = true) := by
    cases e.path.handler <;> cases d.handler <;> simp
  have fits : (!d.fits e) = true ↔ d.fits e = false := by simp
  simp only [Env.front, Demand.front, firstFailure, feats, priv, fits]
  split
  · rfl
  · split
    · rfl
    · split
      · rfl
      · split <;> rfl

section
variable {i : Instr} {h : Hdr} {d : Demand} {s : State} {e : Env} (hh : hdrOf i = some h) (hd : demand i = some d)
  (he : (s.env.map fun e0 => e0.guarded h) = some e)
include hh hd he

theorem raises_of_firstFailure {c : Nat} (hc : firstFailure e d = some c) : Raises i e ⟨c, 0, none⟩ := by
  obtain ⟨sync, body, hx, -⟩ := performs hh hd
  unfold Raises
  rw [hx, State.env_guarded_s he]
  exact perform_of_front_some he (by rw [front_eq_firstFailure, hc]; rfl)

theorem retires_of_no_lane (hc : firstFailure e d = none) (ha : e.act = 0) : Retires i e e.s := by
  obtain ⟨sync, body, hx, -⟩ := performs hh hd
  unfold Retires
  rw [hx, State.env_guarded_s he, perform_of_no_lane he (by rw [front_eq_firstFailure, hc]; rfl) ha, State.env_guarded_s he]

theorem raises_of_index {o : Operand × Bool} (hc : firstFailure e d = none) (ha : e.act ≠ 0) (ht : Turn e) (ho : o ∈ d.index)
    (hf : e.indexFault [o] ≠ none) : ∃ o' ∈ d.index, ∃ x, e.indexFault [o'] = some x ∧ Raises i e x := by
  obtain ⟨sync, body, hx, hbody⟩ := performs hh hd
  obtain ⟨k, hk⟩ := hbody (List.ne_nil_of_mem ho) e
  obtain ⟨o', ho', x, hx1, hxs⟩ := Env.indexFault_eq_some_of_mem ho hf
  refine ⟨o', ho', x, hx1, ?_⟩
  unfold Raises
  rw [hx, State.env_guarded_s he, perform_body he (by rw [front_eq_firstFailure, hc]; rfl) ha (Or.inr ht), hk,
    Env.indexed_some hxs]
  rfl

end

/-- Settles O58, from the front that every instruction has. -/
theorem noActiveLane : Obligations.NoActiveLane := by
  refine ⟨fun i h d s e hh hd he => ⟨fun c hc => raises_of_firstFailure hh hd he hc, fun hc =>
      ⟨retires_of_no_lane hh hd he hc, fun ha ht ⟨o, ho, hf⟩ => raises_of_index hh hd he hc ha ht ho hf⟩⟩,
    fun e k off neg abs pair => ?_,
    fun s u c slot g p w hf hw hp hop hg => State.issuePath_of_decode_error hf hw hp (decode_error_of_guarded_join hop hg)⟩
  simp only [Env.indexFault_singleton, Env.indexFault1_idx e k off neg abs pair rfl rfl]
  exact ⟨fun fits => if_pos fits, fun fits => if_neg fits⟩

end Sys2Proof.Claim
end

