-- ==== Sys2Proof/Proofs/FloatArithmetic.lean ====
section
/-!
The exactly rounded instructions of the floating-point group (R185, R186, R189, R191), and O5.
-/
namespace Sys2Proof.Claim
open Machine

set_option Elab.async false

/-- R25: DYN with a code of FPCTL that is no rounding mode. -/
theorem raises_of_dyn {i : Instr} {h : Hdr} {d : Demand} {s : State} {e : Env} (hh : hdrOf i = some h) (hd : demand i = some d)
    (he : (s.env.map fun e0 => e0.guarded h) = some e) (hdyn : d.dyn = true) (hr : 4 < e.s.regN e.sig.ctx rFPCTL % 8) :
    Raises i e ⟨0x01, 0, none⟩ :=
  raises_of_firstFailure hh hd he (if_pos ⟨hdyn, hr⟩)

section
variable {s : State} {h : Hdr} {o : Ops4} {m : AMod} {e : Env} (I : Issues s h o.list e) (hr : RmOk e (m.rm == .dyn))
include I hr

/-- The frame of a floating-point instruction whose fields fit. -/
theorem exec_float (i : Instr) (f : State → Host.Outcome State Fault Refusal) {d a b c : Pos} {body : Env → Eff}
    (hi : exec i = f) (hf : f = perform h o.list { dyn := isDyn m, ok := fun e => e.ops4Ok o d a b c } noSync body)
    (hok : e.ops4Ok o d a b c = true) :
    exec i e.s = .next (e.finish (body e)) := by
  rw [hi, hf]
  exact I.perform hr (fun _ hb => absurd hb List.not_mem_nil) rfl hok (Or.inl rfl)

theorem float_one_source (hok : e.ops4Ok o dstPos fpPos unused unused = true) (hi : e.indexFault [(o.d, false), (o.a, false)] = none) :
    let f := m.ty.fmt
    let a := fun (l : Lane) k => f.read m.ftz (elem m.ty k (e.src m.ty o.a)[l])
    let rounded := fun (x : XR) => f.encode (e.mode m.rm) m.sat m.ftz x % 2 ^ m.ty.shape.1
    (Gives (.fsqrt h o m) e o.d m.ty fun l k => rounded (a l k).sqrt) ∧
    (Gives (.frcp h o m) e o.d m.ty fun l k => rounded ((f.read m.ftz (f.encode .rne false false (.fin false 1 0))).div (a l k))) ∧
    (Gives (.frnd h o m) e o.d m.ty fun l k =>
      f.encode (e.mode m.rm) false m.ftz (match a l k with
        | .fin n x y => .fin n (roundAt (e.mode m.rm) n x y 0) 0
        | y => y) % 2 ^ m.ty.shape.1) :=
  ⟨gives_lane1 (exec_float I hr (.fsqrt h o m) (execFsqrt h o m) rfl rfl hok :) hi fun _ _ _ => rfl, gives_lane1 (exec_float I hr (.frcp h o m) (execFrcp h o m) rfl rfl hok :) hi fun _ _ _ => rfl,
    gives_lane1 (exec_float I hr (.frnd h o m) (execFrnd h o m) rfl rfl hok :) hi fun _ _ _ => rfl⟩

theorem float_two_sources (hok : e.ops4Ok o dstPos fpPos fpPos unused = true)
    (hi : e.indexFault [(o.d, false), (o.a, false), (o.b, false)] = none) :
    let f := m.ty.fmt
    let a := fun (l : Lane) k => f.read m.ftz (elem m.ty k (e.src m.ty o.a)[l])
    let b := fun (l : Lane) k => f.read m.ftz (elem m.ty k (e.src m.ty o.b)[l])
    let rounded := fun (x : XR) => f.encode (e.mode m.rm) m.sat m.ftz x % 2 ^ m.ty.shape.1
    (Gives (.fadd h o m) e o.d m.ty fun l k => rounded ((a l k).add (e.mode m.rm) (b l k))) ∧
    (Gives (.fmul h o m) e o.d m.ty fun l k => rounded ((a l k).mul (b l k))) ∧
    (Gives (.fdiv h o m) e o.d m.ty fun l k => rounded ((a l k).div (b l k))) ∧
    (m.rm = .rne → m.sat = false →
      (Gives (.fmin h o m) e o.d m.ty fun l k => rounded ((a l k).min2 (b l k))) ∧
      (Gives (.fmax h o m) e o.d m.ty fun l k => rounded ((a l k).max2 (b l k)))) := by
  refine ⟨gives_lane2 (exec_float I hr (.fadd h o m) (execFadd h o m) rfl rfl hok :) hi fun _ _ _ => rfl, gives_lane2 (exec_float I hr (.fmul h o m) (execFmul h o m) rfl rfl hok :) hi fun _ _ _ => rfl,
    gives_lane2 (exec_float I hr (.fdiv h o m) (execFdiv h o m) rfl rfl hok :) hi fun _ _ _ => rfl, fun hrm hsat => ?_⟩
  have exact_mode : e.mode m.rm = .rne := by rw [hrm]; rfl
  rw [exact_mode, hsat]
  exact ⟨gives_lane2 (exec_float I hr (.fmin h o m) (execFmin h o m) rfl rfl hok :) hi fun _ _ _ => rfl, gives_lane2 (exec_float I hr (.fmax h o m) (execFmax h o m) rfl rfl hok :) hi fun _ _ _ => rfl⟩

theorem float_scale (hok : e.ops4Ok o dstPos fpPos srcPos unused = true)
    (hi : e.indexFault [(o.d, false), (o.a, false), (o.b, false)] = none) :
    Gives (.fscale h o m) e o.d m.ty fun l k =>
      let bw := if m.ty.shape.2 = 1 then 32 else m.ty.shape.1
      let n := signedOf bw (elemAt bw k (e.rawAt (fun i => packElems bw m.ty.shape.2 fun _ => intCode bw i.toInt) 0 o.b)[l])
      m.ty.fmt.encode (e.mode m.rm) m.sat m.ftz (match m.ty.fmt.read m.ftz (elem m.ty k (e.src m.ty o.a)[l]) with
        | .fin z x y => if x = 0 then .fin z 0 0 else .fin z x (y + n)
        | y => y) % 2 ^ m.ty.shape.1 := by
  have hx := exec_float I hr (.fscale h o m) (execFscale h o m) rfl rfl hok
  rw [Env.indexed_none hi] at hx
  exact ⟨_, hx, holds_pack _ (fun l => mapRow2_getElem _ _ _ l) fun _ _ _ => rfl⟩

theorem float_three_sources (hok : e.ops4Ok o dstPos fpPos fpPos fpPos = true)
    (hi : e.indexFault [(o.d, false), (o.a, false), (o.b, false), (o.c, false)] = none) :
    let f := m.ty.fmt
    let a := fun (l : Lane) k => f.read m.ftz (elem m.ty k (e.src m.ty o.a)[l])
    let b := fun (l : Lane) k => f.read m.ftz (elem m.ty k (e.src m.ty o.b)[l])
    let c := fun (l : Lane) k => f.read m.ftz (elem m.ty k (e.src m.ty o.c)[l])
    (Gives (.ffma h o m) e o.d m.ty fun l k =>
      f.encode (e.mode m.rm) m.sat m.ftz (((a l k).mul (b l k)).add (e.mode m.rm) (c l k)) % 2 ^ m.ty.shape.1) ∧
    (GivesRow (.fdot h o m) e o.d fun l =>
      let terms := FP32.read m.ftz (elemAt 32 0 (e.src .f32 o.c)[l]) ::
        (List.range m.ty.shape.2).map fun k => (a l k).mul (b l k)
      BitVec.ofNat 64 (FP32.encode (e.mode m.rm) m.sat m.ftz (exactSum (e.mode m.rm) terms))) := by
  refine ⟨gives_lane3 (exec_float I hr (.ffma h o m) (execFfma h o m) rfl rfl hok :) hi fun _ _ _ => rfl, ?_⟩
  unfold GivesRow Retires
  rw [exec_float I hr (.fdot h o m) (execFdot h o m) rfl rfl hok, Env.indexed_none hi]
  rfl

end

/-- Settles O5. The frame gives the body; the lanes' lemmas read its elements, which are exact values encoded once. -/
theorem floatArithmetic : Obligations.FloatArithmetic := by
  intro s h o m e he
  refine ⟨fun hdyn hr i hi => ?_, fun I hr => ⟨float_one_source I hr, float_two_sources I hr, float_scale I hr, float_three_sources I hr⟩⟩
  have dyn : (m.rm == .dyn) = true := by rw [hdyn]; rfl
  fin_cases hi <;> exact raises_of_dyn rfl rfl he dyn hr

end Sys2Proof.Claim
end

