-- ==== Sys2Proof/Proofs/RegisterBranches.lean ====
section
/-!
Branches to a target in a register (R13, R95, R104), and O19.
-/
namespace Sys2Proof.Machine

set_option Elab.async false

theorem rowOf_getElem (w : Word64) (l : Lane) : (rowOf w)[l] = w := by simp [rowOf]

/-- A mask with a lane has a lowest one. -/
theorem exists_lowest_of_ne_zero {m : Mask} (h : m ≠ 0) : ∃ l, lowest m = some l := by
  unfold lowest
  cases hl : lanesOf m with
  | cons l r => exact ⟨l, rfl⟩
  | nil =>
    refine absurd (BitVec.eq_of_getLsbD_eq fun i hi => ?_) h
    have := List.filter_eq_nil_iff.mp hl ⟨i, hi⟩ (List.mem_finRange _)
    simpa using this

/-- The active lanes that pass a test, lane by lane. -/
theorem Env.act_and_maskOf {e : Env} {f : Lane → Bool} {m : Mask} (h : ∀ l : Lane, m.getLsbD l.val = (e.act.getLsbD l.val && f l)) :
    e.act &&& maskOf f = m := by
  apply BitVec.eq_of_getLsbD_eq
  intro i hi
  rw [BitVec.getLsbD_and, maskOf_getLsbD f ⟨i, hi⟩, h ⟨i, hi⟩]

/-- A target that is a valid PC is branched to by the lanes that have it. -/
theorem Env.branchTo_of_valid {e : Env} {a : Operand} {l : Lane} {t : Word64} {taken : Mask} (hl : lowest e.act = some l)
    (ht : (e.raw a)[l] = t) (hv : pcValid t = true)
    (htaken : ∀ j : Lane, taken.getLsbD j.val = (e.act.getLsbD j.val && (e.raw a)[j] == t)) :
    e.branchTo a = e.branch e.s [⟨0, taken, t⟩, ⟨1, e.path.mask &&& ~~~taken, e.next⟩] := by
  simp only [Env.branchTo, hl, ht, hv, Env.act_and_maskOf htaken]
  rfl

theorem Env.branchTo_of_invalid {e : Env} {a : Operand} {l : Lane} {t : Word64} (hl : lowest e.act = some l)
    (ht : (e.raw a)[l] = t) (hv : pcValid t = false) : e.branchTo a = .trap ⟨cMISALIGN, t, none⟩ := by
  simp only [Env.branchTo, hl, ht, hv]
  rfl

end Sys2Proof.Machine

namespace Sys2Proof.Claim
open Machine

/-- R95: what a branch does with its arms. -/
theorem branches_of {i : Instr} {e : Env} {b : Eff} {t : State} {arms : List Arm} (hx : exec i e.s = .next (e.finish b))
    (hb : b = e.branch t arms) : Branches i e t arms := by
  subst hb
  dsimp only [Branches]
  unfold Env.branch Sig.pushes at hx
  generalize arms.filter (fun a => a.mask != 0) = l at hx ⊢
  refine ⟨?_, ?_, ?_⟩
  · rintro a rfl
    exact hx
  · intro h2 room
    match l, h2 with
    | a :: b :: r, _ =>
      simp only [if_neg (Nat.not_lt.mpr room)] at hx
      exact hx
  · intro h2 full
    match l, h2 with
    | a :: b :: r, _ =>
      simp only [if_pos full] at hx
      exact hx

theorem raises_of_finish {i : Instr} {e : Env} {b : Eff} {x : Trap} (hx : exec i e.s = .next (e.finish b)) (hb : b = .trap x) :
    Raises i e x := by
  subst hb
  exact hx

section
variable {s : State} {h : Hdr} {o : Ops4} {e : Env} (I : Issues s h o.list e)
include I

/-- BRX and RET look at nothing but their operand fields before they branch. -/
theorem exec_brx (hok : e.ops4Ok o unused { kinds := [.s, .v] } unused unused = true) :
    exec (.brx h o) e.s = .next (e.finish (e.branchTo o.a)) :=
  I.perform (f := { ok := fun e => e.ops4Ok o unused { kinds := [.s, .v] } unused unused }) (sync := noSync)
    (body := fun e => e.branchTo o.a)
    (fun hf => absurd hf Bool.false_ne_true) (fun _ hb => absurd hb List.not_mem_nil) rfl hok (Or.inl rfl)

theorem exec_ret (hok : e.ops4Ok o unused { kinds := [.s] } unused unused = true) :
    exec (.ret h o) e.s = .next (e.finish (e.branchTo o.a)) :=
  I.perform (f := { ok := fun e => e.ops4Ok o unused { kinds := [.s] } unused unused }) (sync := noSync)
    (body := fun e => e.branchTo o.a)
    (fun hf => absurd hf Bool.false_ne_true) (fun _ hb => absurd hb List.not_mem_nil) rfl hok (Or.inl rfl)

end

/-- Settles O19. -/
theorem branchesToARegister : Obligations.BranchesToARegister := by
  intro s h o e I
  refine ⟨fun n neg abs ha hok => ?_, fun n neg abs ha hok l taken hl => ?_⟩
  · have hbrx : e.ops4Ok o unused { kinds := [.s, .v] } unused unused = true := by
      simpa [Env.ops4Ok, ha, Env.fieldOk] using hok
    obtain ⟨l, hl⟩ := exists_lowest_of_ne_zero I.lane
    have uniform : ∀ j : Lane, (e.raw o.a)[j] = e.sig.sreg n.toNat := by
      intro j
      rw [ha]
      exact rowOf_getElem _ j
    refine ⟨fun hv => ?_, fun hv => ?_⟩
    · have all : ∀ j : Lane, e.act.getLsbD j.val = (e.act.getLsbD j.val && (e.raw o.a)[j] == e.sig.sreg n.toNat) := by
        simp [uniform]
      have body := Env.branchTo_of_valid hl (uniform l) hv all
      exact ⟨branches_of (exec_brx I hbrx) body, branches_of (exec_ret I hok) body⟩
    · have body := Env.branchTo_of_invalid hl (uniform l) hv
      exact ⟨raises_of_finish (exec_brx I hbrx) body, raises_of_finish (exec_ret I hok) body⟩
  · have hbrx : e.ops4Ok o unused { kinds := [.s, .v] } unused unused = true := by
      simpa [Env.ops4Ok, ha, Env.fieldOk] using hok
    have row : e.raw o.a = e.sig.reg n.toNat := by
      rw [ha]
      rfl
    intro t htaken
    refine ⟨fun hv => ?_, fun hv => ?_⟩
    · have body := Env.branchTo_of_valid (a := o.a) hl (by rw [row]) hv (by rw [row]; exact htaken)
      exact branches_of (exec_brx I hbrx) body
    · have body := Env.branchTo_of_invalid (a := o.a) hl (by rw [row]) hv
      exact raises_of_finish (exec_brx I hbrx) body

end Sys2Proof.Claim
end

