-- ==== Sys2Proof/Proofs/ExceptionEntry.lean ====
section
/-!
Paths of a signature and ports of a core read back after an update, and O57: taking an exception (R128, R415).
-/
namespace Sys2Proof.Machine

set_option Elab.async false

/-! ### Paths and ports read back -/

theorem Sig.path?_idx {g : Sig} {i : Nat} {p : Path} (h : g.path? i = some p) : p.idx = i := by
  simpa using List.find?_some h

/-- An update of path i that keeps its index: what every index names afterwards. -/
theorem Sig.path?_modPath (g : Sig) (i j : Nat) {f : Path → Path} (hf : ∀ p, (f p).idx = p.idx) :
    (g.modPath i f).path? j = (g.path? j).map fun p => if p.idx == i then f p else p := by
  simp only [Sig.path?, Sig.modPath, List.find?_map]
  congr 2
  funext p
  simp only [Function.comp_apply]
  split <;> simp [hf]

theorem Sig.path?_modPath_self {g : Sig} {i : Nat} {p : Path} {f : Path → Path} (hf : ∀ p, (f p).idx = p.idx)
    (h : g.path? i = some p) : (g.modPath i f).path? i = some (f p) := by
  rw [Sig.path?_modPath g i i hf, h, Option.map_some, Sig.path?_idx h, beq_self_eq_true, if_pos rfl]

theorem Sig.path?_modPath_ne (g : Sig) {i j : Nat} {f : Path → Path} (hf : ∀ p, (f p).idx = p.idx) (h : j ≠ i) :
    (g.modPath i f).path? j = g.path? j := by
  rw [Sig.path?_modPath g i j hf]
  cases hp : g.path? j with
  | none => rfl
  | some p => rw [Option.map_some, Sig.path?_idx hp, if_neg (by simpa using h)]

theorem Core.port_modPort_self (k : Core) {p : Nat} (f : Port → Port) (h : p < 4) : (k.modPort p f).port p = f (k.port p) := by
  simp [Core.port, Core.modPort, Core.setPort, h]

theorem Core.port_modPort_ne (k : Core) {p q : Nat} (f : Port → Port) (h : q ≠ p) : (k.modPort p f).port q = k.port q := by
  simp [Core.port, Core.modPort, Core.setPort, Ne.symm h]

section
variable (e : Env) (s : State)

theorem Env.core_modPort_self (f : Port → Port) : (e.modPort s f).core e.sel.core = (s.core e.sel.core).modPort e.portNo f :=
  State.core_modCore_self ..

theorem Env.core_modPort_ne (f : Port → Port) {c : Nat} (h : c ≠ e.sel.core) : (e.modPort s f).core c = s.core c :=
  State.core_modCore_ne s _ h

theorem Env.sig?_modPort (f : Port → Port) (x : Nat) : (e.modPort s f).sig? e.sel.core x = s.sig? e.sel.core x := by
  simp only [State.sig?, Env.core_modPort_self]
  rfl

theorem Env.sig?_modSig (f : Sig → Sig) : (e.modSig s f).sig? e.sel.core e.sel.slot = (s.sig? e.sel.core e.sel.slot).map f :=
  State.sig?_modSig_self ..

theorem Env.core_modSig_ne (f : Sig → Sig) {c : Nat} (h : c ≠ e.sel.core) : (e.modSig s f).core c = s.core c :=
  State.core_modCore_ne s _ h

theorem Env.port_modSig (f : Sig → Sig) (p : Nat) : ((e.modSig s f).core e.sel.core).port p = (s.core e.sel.core).port p := by
  rw [Env.modSig, State.modSig, State.core_modCore_self]
  rfl

theorem Env.core_modSig_self (f : Sig → Sig) :
    (e.modSig s f).core e.sel.core = { s.core e.sel.core with sigs := AMap.mod (s.core e.sel.core).sigs e.sel.slot f } :=
  State.core_modCore_self ..

end

/-! ### Entering a handler -/

/-- Drawn rows follow what stands in a window; drawing moves nothing but the free choices. -/
theorem drawRows_fold (l : List Nat) (w : AMap Row) (s : State) : ∃ r n,
    l.foldl (fun (a : AMap Row × State) j => let (r, s) := State.drawRow a.2; (a.1 ++ [(7 + j, r)], s)) (w, s) =
      (w ++ r, { s with free := n }) := by
  induction l generalizing w s with
  | nil => exact ⟨[], s.free, by simp⟩
  | cons j l ih =>
    obtain ⟨r, n, h⟩ := ih (w ++ [(7 + j, s.drawRow.1)]) s.drawRow.2
    exact ⟨(7 + j, s.drawRow.1) :: r, n, by rw [List.foldl_cons]; simpa using h⟩

theorem boolNat_eq_toNat (b : Bool) : boolNat b = b.toNat := by cases b <;> rfl

theorem rowMask_getElem (m : Mask) (l : Lane) : (rowMask m)[l] = BitVec.ofNat 64 (m.getLsbD l.val).toNat := by
  simp only [rowMask, Fin.getElem_fin, Vector.getElem_ofFn]
  cases m.getLsbD l.val <;> rfl

/-- The window of a handler, lane by lane: t0 to t6 are set; the rest is drawn. -/
theorem trapWindow_spec (s : State) (pidx : Nat) (mask : Mask) (i : TrapInfo) : ∃ w n, trapWindow s pidx mask i = (w, { s with free := n }) ∧
    ∀ l : Lane,
      (AMap.getD w 0 rowZero)[l] = BitVec.ofNat 64 (i.cause + 256 * pidx) ∧ (AMap.getD w 1 rowZero)[l] = i.resume ∧
      (AMap.getD w 2 rowZero)[l] = i.t2 ∧
      (AMap.getD w 3 rowZero)[l] = BitVec.ofNat 64 ((i.active.getLsbD l.val).toNat + 2 * (i.failing.getLsbD l.val).toNat) ∧
      (AMap.getD w 4 rowZero)[l] = i.word.extractLsb' 0 64 ∧
      (AMap.getD w 5 rowZero)[l] = (i.word.extractLsb' 64 32).setWidth 64 ∧
      (AMap.getD w 6 rowZero)[l] = BitVec.ofNat 64 (mask.getLsbD l.val).toNat := by
  unfold trapWindow
  obtain ⟨r, n, h⟩ := drawRows_fold (List.range 9) [(0, rowOf (BitVec.ofNat 64 (i.cause + 256 * pidx))), (1, rowOf i.resume),
    (2, rowOf i.t2), (3, Vector.ofFn fun l : Lane =>
      BitVec.ofNat 64 (boolNat (i.active.getLsbD l.val) + 2 * boolNat (i.failing.getLsbD l.val))),
    (4, rowOf (i.word.extractLsb' 0 64)), (5, rowOf ((i.word.extractLsb' 64 32).setWidth 64)), (6, rowMask mask)] s
  refine ⟨_, n, h, fun l => ⟨rowOf_getElem _ l, rowOf_getElem _ l, rowOf_getElem _ l, ?_, rowOf_getElem _ l, rowOf_getElem _ l,
    rowMask_getElem mask l⟩⟩
  simp [AMap.getD, AMap.get?, boolNat_eq_toNat]

/-- A path at the start of a handler. -/
def Path.entering (pc : Word64) (p : Path) : Path :=
  { p with pc := pc, handler := true, passes := 0, wdog := none, fault := none, held := false, stalled := false }

/-- What stands in the state where a path enters its port's handler. -/
theorem Env.enter_eq (e : Env) (s : State) (i : TrapInfo) : ∃ n, e.enter s i =
    e.modPath (e.modPort { s with free := n } fun p => { p with
      t := (trapWindow s e.path.idx e.path.mask i).1, handler := some (e.sel.slot, e.path.idx) }) (Path.entering (s.reg e.sig.ctx rTRAPVEC)) := by
  obtain ⟨w, n, hw, -⟩ := trapWindow_spec s e.path.idx e.path.mask i
  refine ⟨n, ?_⟩
  simp only [Env.enter, hw]
  rfl

section
variable {e : Env} {s : State} {g0 : Sig} (i : TrapInfo) (hg : s.sig? e.sel.core e.sel.slot = some g0)

include hg in
theorem Env.sig?_enter : (e.enter s i).sig? e.sel.core e.sel.slot =
    some (g0.modPath e.sel.pidx (Path.entering (s.reg e.sig.ctx rTRAPVEC))) := by
  obtain ⟨n, h⟩ := e.enter_eq s i
  have hg' : State.sig? { s with free := n } e.sel.core e.sel.slot = some g0 := hg
  rw [h, Env.modPath, Env.sig?_modSig, Env.sig?_modPort, hg']
  rfl

theorem Env.port_enter (hport : e.portNo < 4) : ((e.enter s i).core e.sel.core).port e.portNo =
    { (s.core e.sel.core).port e.portNo with
      t := (trapWindow s e.path.idx e.path.mask i).1, handler := some (e.sel.slot, e.path.idx) } := by
  obtain ⟨n, h⟩ := e.enter_eq s i
  rw [h, Env.modPath, Env.port_modSig, Env.core_modPort_self]
  exact Core.port_modPort_self _ _ hport

theorem Env.enter_frame : (∀ c, c ≠ e.sel.core → (e.enter s i).core c = s.core c) ∧
    (e.enter s i).ctxs = s.ctxs ∧ (e.enter s i).hbm = s.hbm ∧ (e.enter s i).host = s.host := by
  obtain ⟨n, h⟩ := e.enter_eq s i
  rw [h]
  refine ⟨fun c hc => ?_, rfl, rfl, rfl⟩
  rw [Env.modPath, Env.core_modSig_ne _ _ _ hc, Env.core_modPort_ne _ _ _ hc]
  rfl

end

/-! ### Parting while the handler is busy -/

/-- A state with a record appended to those of the path's core. -/
def Env.appendRecord (e : Env) (s : State) (births : Nat) (r : Record) : State :=
  { s with births := births }.modCore e.sel.core fun k => { k with records := k.records ++ [r], pseq := k.pseq + 1 }

theorem Env.core_appendRecord (e : Env) (s : State) (n : Nat) (r : Record) : (e.appendRecord s n r).core e.sel.core =
    { s.core e.sel.core with records := (s.core e.sel.core).records ++ [r], pseq := (s.core e.sel.core).pseq + 1 } :=
  State.core_modCore_self ..

theorem Env.sig?_appendRecord (e : Env) (s : State) (n : Nat) (r : Record) (x : Nat) :
    (e.appendRecord s n r).sig? e.sel.core x = s.sig? e.sel.core x := by
  simp only [State.sig?, Env.core_appendRecord]

/-- A parting with a reason above 0x0F always finds room: the record that is appended, and what is left of the signature. -/
theorem Env.part_unshared {e : Env} {s : State} {g0 : Sig} {p : PartSpec} (hreason : 0x0F < p.reason)
    (hg : s.sig? e.sel.core e.sel.slot = some g0) (hp : g0.path? e.sel.pidx = some e.path) (harm : p.arm = none) :
    ∃ (r : Record) (f : Sig → Sig) (n : Nat), e.part s p =
        .ok (e.appendRecord (e.modSig s f) n r) ∧
      (r.reason = p.reason ∧ r.ready = p.ready ∧ r.wait = p.wait ∧ r.resume = p.resume ∧ r.mask = e.path.mask ∧
        r.pidx = e.path.idx ∧ r.slot = e.sel.slot ∧ r.port = e.path.port ∧ r.iret = if p.counts then g0.iret + 1 else g0.iret) ∧
      ∀ g, (f g).paths = g0.paths.filter fun q => q.idx != e.path.idx := by
  have room : (decide (p.reason ≤ 0x0F) && (s.core e.sel.core).storeFull) = false := by simp [hreason]
  unfold Env.part
  simp only [room, Bool.false_eq_true, if_false, Option.map_none, false_and, hg, hp, harm, Option.getD_some, Option.toList_none,
    List.append_nil]
  exact ⟨_, _, _, rfl, ⟨rfl, rfl, rfl, rfl, rfl, rfl, rfl, rfl, rfl⟩, fun _ => rfl⟩

/-- The three ways of taking an exception (R415). -/
theorem State.trapEnabled_iff (s : State) (ctx cause : Nat) :
    s.trapEnabled ctx cause = true ↔ s.reg ctx 0x03 ≠ 0 ∧ (s.reg ctx 0x04).getLsbD cause = true := by
  simp [State.trapEnabled, rTRAPVEC, rTRAPEN]

theorem Env.take_kill {e : Env} {s : State} {i : TrapInfo} (h : ¬ s.trapEnabled e.sig.ctx i.cause = true ∨ e.path.handler = true) :
    e.take s i = e.killWith s i :=
  if_pos (by simpa using h)

theorem Env.take_enter {e : Env} {s : State} {i : TrapInfo} (ht : s.trapEnabled e.sig.ctx i.cause = true)
    (hh : e.path.handler = false) (hfree : e.port.handler = none) : e.take s i = e.enter s i := by
  simp [Env.take, ht, hh, hfree]

/-- The parting with reason TRAP, for which the handler of the port is awaited. -/
def Env.trapPart (e : Env) (i : TrapInfo) : PartSpec where
  reason := 0x10
  evkey := BitVec.ofNat 64 e.portNo
  evaux := BitVec.ofNat 64 i.cause
  resume := i.resume
  wait := .trap i
  counts := false

theorem Env.take_part {e : Env} {s t : State} {i : TrapInfo} (ht : s.trapEnabled e.sig.ctx i.cause = true)
    (hh : e.path.handler = false) (hbusy : e.port.handler ≠ none)
    (hpart : e.part s (e.trapPart i) = .ok t) : e.take s i = t := by
  have busy : e.port.handler.isSome = true := Option.isSome_iff_ne_none.mpr hbusy
  unfold Env.trapPart at hpart
  simp [Env.take, ht, hh, busy, hpart]

/-- The path of an environment stands in the signature that the state holds. -/
theorem State.env_guarded_path {s : State} {h : Hdr} {e : Env} {g0 : Sig} (he : (s.env.map fun e0 => e0.guarded h) = some e)
    (hg : s.sig? e.sel.core e.sel.slot = some g0) : g0.path? e.sel.pidx = some e.path := by
  obtain ⟨e0, h0, rfl⟩ := Option.map_eq_some_iff.mp he
  obtain ⟨-, hp, -, g, hg', hsig⟩ := State.env_some h0
  obtain rfl : g0 = g := Option.some.inj (hg.symm.trans hg')
  have same : e0.sig.paths = g0.paths := by
    rw [hsig]
    split
    · exact Sig.asIssued_paths _ _
    · rfl
  have hp' : e0.sig.paths.find? (fun p => p.idx == e0.sel.pidx) = some e0.path := hp
  rwa [same] at hp'

end Sys2Proof.Machine

namespace Sys2Proof.Claim
open Machine

/-- Settles O57: the three ways of `Env.take`, and what stands in the state that each leaves. -/
theorem exceptionEntry : Obligations.ExceptionEntry := by
  intro s h e x g0 he hport hg failing info t enabled
  have hes : e.s = s := State.env_guarded_s he
  have hp := State.env_guarded_path he hg
  have ht : t = e.take s info := by rw [← hes]; rfl
  have hen : enabled ↔ s.trapEnabled e.sig.ctx x.cause = true := (State.trapEnabled_iff ..).symm
  refine ⟨fun hk => ?_, fun hon hh hfree => ?_, fun hon hh hbusy => ?_⟩
  · rw [ht]
    exact Env.take_kill (hk.imp_left fun hoff hon => hoff (hen.mpr hon))
  · rw [ht, Env.take_enter (hen.mp hon) hh hfree]
    obtain ⟨hcore, hctxs, hhbm, hhost⟩ := Env.enter_frame (e := e) (s := s) info
    have hq := Env.port_enter (e := e) (s := s) info hport
    obtain ⟨w, n, hw, hrow⟩ := trapWindow_spec s e.path.idx e.path.mask info
    rw [hw] at hq
    refine ⟨_, _, Env.sig?_enter info hg, Sig.path?_modPath_self (fun _ => rfl) hp, rfl, rfl, rfl, rfl, rfl, rfl,
      fun i hi => Sig.path?_modPath_ne _ (fun _ => rfl) hi, hcore, hctxs, hhbm, hhost, ?_⟩
    intro q
    have hq' : q = _ := hq
    rw [hq']
    exact ⟨rfl, hrow⟩
  · obtain ⟨r, f, n, hpart, ⟨h1, h2, h3, h4, h5, h6, h7, h8, h9⟩, hf⟩ := Env.part_unshared (e := e) (s := s)
      (p := e.trapPart info) (show 0x0F < 0x10 by decide) hg hp rfl
    rw [ht, Env.take_part (hen.mp hon) hh hbusy hpart]
    refine ⟨r, ?_, h1, h2, h3, h4, h5, h6, h7, h8, h9, rfl, rfl, ?_⟩
    · rw [Env.core_appendRecord, Env.core_modSig_self, Env.core, hes]
    · rw [Env.sig?_appendRecord, Env.sig?_modSig, hg]
      exact congrArg some (hf g0)

end Sys2Proof.Claim
end

