-- ==== Sys2Proof/Proofs/StepRuns.lean ====
section
/-!
A step of an issue slot (R10, R11, R14, R32, R251, R428), and O56.
-/
namespace Sys2Proof.Machine

set_option Elab.async false

/-! ### Bytes of a line -/

theorem Mem.readN_length (m : Mem) (a n : Nat) : (Mem.readN m a n).length = n := by simp [Mem.readN]

/-- A part of the bytes read is read at its own address. -/
theorem Mem.readN_drop_take (m : Mem) (a n i k : Nat) (h : i + k ≤ n) : ((Mem.readN m a n).drop i).take k = Mem.readN m (a + i) k := by
  apply List.ext_getElem
  · simp [Mem.readN]
    omega
  · intro j h1 h2
    simp [Mem.readN, Nat.add_assoc]

/-- A number is 0 when its bytes are. -/
theorem natOfBytes_eq_zero_iff (bs : List Byte) : natOfBytes bs = 0 ↔ bs = List.replicate bs.length 0 := by
  induction bs with
  | nil => simp [natOfBytes]
  | cons b bs ih =>
    have unfold_cons : natOfBytes (b :: bs) = b.toNat + 256 * natOfBytes bs := rfl
    have byte : b.toNat = 0 ↔ b = 0 := ⟨fun h => BitVec.eq_of_toNat_eq h, fun h => by rw [h]; rfl⟩
    rw [unfold_cons, List.length_cons, List.replicate_succ, List.cons.injEq, ← ih, ← byte]
    omega

/-- The header of a line is 0 when its eight bytes are. -/
theorem header_eq_zero_iff (m : Mem) (line : Nat) :
    natOfBytes ((Mem.readN m line 128).take 8) = 0 ↔ Mem.readN m line 8 = List.replicate 8 0 := by
  have head := Mem.readN_drop_take m line 128 0 8 (by decide)
  rw [List.drop_zero, Nat.add_zero] at head
  rw [head, natOfBytes_eq_zero_iff, Mem.readN_length]

/-- A valid PC leaves room for a slot in its line (R12). -/
theorem slot_in_line {pc : Word64} (h : pcValid pc = true) : pc.toNat % 128 + 12 ≤ 128 := by
  simp only [pcValid, Bool.and_eq_true, decide_eq_true_eq, beq_iff_eq] at h
  omega

theorem mem_linesOf {a n i : Nat} (h : i < n) : (a + i) / 128 ∈ linesOf a n := by
  unfold linesOf
  rw [if_neg (by omega)]
  refine List.mem_map.mpr ⟨(a + i) / 128 - a / 128, ?_, ?_⟩
  · rw [List.mem_range]
    omega
  · omega

/-- Where no line is stale, HBM gives the bytes that stand in it. -/
theorem State.loadHbm_of_fresh {s : State} {a n : Nat} (h : ∀ x ∈ linesOf a n, x ∉ s.l2.stale) :
    s.loadHbm a n = (Mem.readN s.hbm a n, s.hold a n) := by
  have bytes : (List.range n).map (fun i =>
      if s.l2.stale.contains ((a + i) / 128) then Config.freeByte (s.free + i) else Mem.read s.hbm (a + i)) = Mem.readN s.hbm a n := by
    refine List.map_congr_left fun i hi => if_neg ?_
    simpa using h _ (mem_linesOf (List.mem_range.mp hi))
  have fresh : (linesOf a n).any s.l2.stale.contains = false := by
    simpa using h
  unfold State.loadHbm
  rw [bytes, fresh]
  rfl

/-- A line of code: as it stands in HBM or, where an instruction cache holds other bytes of a page that is not SYNC, maybe those. -/
theorem State.codeLine_spec {s : State} {ctx va line : Nat} (h : ∀ x ∈ linesOf line 128, x ∉ s.l2.stale) :
    let now := Mem.readN s.hbm line 128
    let held := AMap.get? (s.ctx ctx).icache (va / 128)
    ∃ bs u, s.codeLine ctx va (.hbm line) = (bs, u) ∧ u.hbm = s.hbm ∧
      (bs = now ∨ held = some bs ∧ ¬ ∃ l, s.walk ctx va = some l ∧ l.sync = true) := by
  intro now held
  have hread : s.readPlace (.hbm line) 128 = (now, s.hold line 128) := State.loadHbm_of_fresh h
  have hwalk : (s.hold line 128).walk ctx va = s.walk ctx va := rfl
  have hheld : AMap.get? ((s.hold line 128).ctx ctx).icache (va / 128) = held := rfl
  simp only [State.codeLine, hread, hwalk, hheld]
  by_cases hsync : ∃ l, s.walk ctx va = some l ∧ l.sync = true
  · rw [if_pos]
    · exact ⟨now, _, rfl, rfl, Or.inl rfl⟩
    · obtain ⟨l, hl, hs⟩ := hsync
      rw [hl]
      exact hs
  · rw [if_neg]
    · cases hh : held with
      | none => exact ⟨now, _, rfl, rfl, Or.inl rfl⟩
      | some old =>
        dsimp only
        by_cases hsame : old = now
        · rw [if_pos hsame]
          exact ⟨now, _, rfl, rfl, Or.inl rfl⟩
        · rw [if_neg hsame]
          split
          · exact ⟨old, _, rfl, rfl, Or.inr ⟨rfl, hsync⟩⟩
          · exact ⟨now, _, rfl, rfl, Or.inl rfl⟩
    · intro h
      split at h
      next l hl => exact hsync ⟨l, hl, h⟩
      next => cases h

/-- The fetch of a slot in HBM, from the line's bytes. -/
theorem State.fetch_of_codeLine {s u : State} {ctx a : Nat} {pc : Word64} {bs : List Byte}
    (hr : s.reach ctx { x := true } anyPage [⟨0, pc, 4⟩] = .ok [.hbm a])
    (hc : s.codeLine ctx pc.toNat (.hbm (a - pc.toNat % 128)) = (bs, u)) :
    s.fetch ctx pc = if natOfBytes (bs.take 8) = 0 then .word (wordOfBytes ((bs.drop (pc.toNat % 128)).take 12)) u
      else .illegal (wordOfBytes ((bs.drop (pc.toNat % 128)).take 12)) u := by
  have hr' : s.reach ctx { x := true } (fun _ => true) [⟨0, pc, 4⟩] = .ok [.hbm a] := hr
  have hown : s.refuses { x := true } (.hbm a) 128 = false := rfl
  simp only [State.fetch, hr', hown, Place.back, hc]
  rfl

/-! ### The step of an issue slot -/

/-- A step whose agenda names an issue slot is that slot's. -/
theorem step_of_issue {s : State} {c port : Nat} {rest : List Move} (ha : s.agenda = .issue c port :: rest) :
    let s1 := { s with tick := s.tick + 1, sel := none, platform := s.platform.serviceTick s.tick, agenda := rest }
    (∀ t, s1.issue c port = .spent t → step s = .next (t.after true)) ∧
    (∀ i t, s1.issue c port = .run i t →
      (∀ u, exec i t = .next u → step s = .next (u.after t.sel.isNone)) ∧
      (∀ x, exec i t = .fault x → step s = .fault x) ∧ (∀ x, exec i t = .refused x → step s = .refused x)) := by
  intro s1
  have hmove : s.move = (s1.issue c port).todo s1 := by
    simp only [State.move, ha]
    rfl
  refine ⟨fun t ht => ?_, fun i t ht => ⟨fun u hu => ?_, fun x hx => ?_, fun x hx => ?_⟩⟩
  · simp only [step, hmove, ht, Issue.todo]
  · simp only [step, hmove, ht, Issue.todo, hu]
  · simp only [step, hmove, ht, Issue.todo, hx]
  · simp only [step, hmove, ht, Issue.todo, hx]

/-- An issue slot that finds a path without WATCHDOG and fault: while its line is away it passes; else the path's word is looked at. -/
theorem State.issue_of_choose {s : State} {c port slot : Nat} {g : Sig} {p : Path} (hc : s.choose c port = some (slot, g, p))
    (hw : p.wdog = none) : s.issue c port = if (s.codeReady g.ctx p.pc).1 then
      ((s.codeReady g.ctx p.pc).2.chosen c port (slot, g, p)).issuePath c slot g p else .spent (s.codeReady g.ctx p.pc).2 := by
  simp [State.issue, hc, hw]

theorem State.issuePath_of_decode_ok {s u : State} {c slot : Nat} {g : Sig} {p : Path} {w : InstrWord} {i : Instr}
    (hf : s.fetch g.ctx p.pc = .word w u) (hw : p.wdog = none) (hp : p.fault = none) (hd : decode w = .ok i) :
    s.issuePath c slot g p = .run i { u with sel := some ⟨c, slot, p.idx, w, false⟩ } := by
  simp [State.issuePath, hf, hw, hp, hd]

theorem State.issuePath_of_illegal {s u : State} {c slot : Nat} {g : Sig} {p : Path} {w : InstrWord}
    (hf : s.fetch g.ctx p.pc = .illegal w u) (hw : p.wdog = none) (hp : p.fault = none) :
    s.issuePath c slot g p = .spent ((u.envWith c slot ((u.sig? c slot).getD g) p w).raise (trapOf cILLOP)) := by
  simp [State.issuePath, hf, hw, hp]

end Sys2Proof.Machine

namespace Sys2Proof.Claim
open Machine

/-- Every instruction has its checks. -/
theorem demand_isSome (i : Instr) : (demand i).isSome = (hdrOf i).isSome := by
  cases i <;> rfl

theorem perform_next (h : Hdr) (os : List Operand) (f : Front) (sync : Env → Bool) (body : Env → Eff) {s : State} {e : Env}
    (he : s.env = some e) : ∃ t, perform h os f sync body s = .next t := by
  unfold perform
  rw [he]
  dsimp only
  split
  · exact ⟨_, rfl⟩
  · split
    · exact ⟨_, rfl⟩
    · split <;> exact ⟨_, rfl⟩

/-- An instruction of a selected path never stops the machine. -/
theorem exec_next {i : Instr} {h : Hdr} {s : State} {e : Env} (hh : hdrOf i = some h) (he : s.env = some e) : ∃ t, exec i s = .next t := by
  obtain ⟨d, hd⟩ := Option.isSome_iff_exists.mp ((demand_isSome i).trans (Option.isSome_iff_exists.mpr ⟨h, hh⟩))
  obtain ⟨sync, body, hx, -⟩ := performs hh hd
  rw [hx]
  exact perform_next _ _ _ _ _ he

/-- Settles O56: the step of a slot, the totality of `exec` on a selected path, and the bytes of the line. -/
theorem stepRunsDecoded : Obligations.StepRunsDecoded := by
  refine ⟨?_, fun i h s e hh he => exec_next hh he, ?_⟩
  · intro s c port slot rest g p ha s1 hc hw hp s2
    obtain ⟨hspent, hrun⟩ := step_of_issue ha
    have hissue := State.issue_of_choose hc hw
    refine ⟨fun hready => hspent _ ?_, fun hready => ⟨fun w u i hf hd => ?_, fun w u hill => hspent _ ?_⟩⟩
    · rw [hissue, if_neg (by rw [hready]; decide)]
    · refine hrun i _ ?_
      rw [hissue, if_pos hready]
      exact State.issuePath_of_decode_ok hf hw hp hd
    · rw [hissue, if_pos hready]
      rcases hill with hf | ⟨hf, hd⟩
      · exact State.issuePath_of_illegal hf hw hp
      · exact State.issuePath_of_decode_error hf hw hp hd
  · intro s ctx a pc hr off line now held hpc hoff hfresh
    obtain ⟨bs, u, hline, hhbm, hbs⟩ := State.codeLine_spec (ctx := ctx) (va := pc.toNat) hfresh
    have hfetch := State.fetch_of_codeLine hr hline
    refine ⟨fun hnow => ?_, fun old hold => ⟨bs, u, ?_, hhbm, hfetch⟩⟩
    · have hbs' : bs = now := by
        rcases hbs with hbs | ⟨hheld, hsync⟩
        · exact hbs
        · rcases hnow with hn | hn | hn
          · exact absurd (hheld.symm.trans hn) (Option.some_ne_none _)
          · exact Option.some.inj (hheld.symm.trans hn)
          · exact absurd hn hsync
      have slot : (bs.drop (pc.toNat % 128)).take 12 = Mem.readN s.hbm a 12 := by
        rw [hbs', Mem.readN_drop_take _ _ _ _ _ (slot_in_line hpc), Nat.sub_add_cancel hoff]
      have header : natOfBytes (bs.take 8) = 0 ↔ Mem.readN s.hbm line 8 = List.replicate 8 0 := by
        rw [hbs']
        exact header_eq_zero_iff s.hbm line
      rw [slot] at hfetch
      exact ⟨fun hz => ⟨u, hfetch.trans (if_pos (header.mpr hz)), hhbm⟩, fun hz => ⟨u, hfetch.trans (if_neg fun h0 => hz (header.mp h0))⟩⟩
    · rcases hbs with hbs | ⟨hheld, -⟩
      · exact Or.inr hbs
      · exact Or.inl (Option.some.inj (hheld.symm.trans hold))

end Sys2Proof.Claim
end

