-- ==== Sys2Proof/Proofs/RegisterWrites.lean ====
section
/-!
What the writes of registers leave unchanged (R93, R130): a frame that the model's write operations keep, one rule for each, and
what retiring adds to it.
-/
namespace Sys2Proof.Claim
open Machine

set_option Elab.async false

/-! ### The frame -/

/-- Of a signature nothing but the registers that the destinations name differs, in the active lanes. -/
structure SigKeeps (e : Env) (ds : List (Operand × Bool)) (g0 g : Sig) : Prop where
  rest : g = { g0 with v := g.v, s := g.s, p := g.p, h := g.h }
  reg : ∀ (n : Nat) (l : Lane), ¬ (namesV e ds n ∧ Active e l) → (g.reg n)[l] = (g0.reg n)[l]
  sreg : ∀ n, ¬ namesS ds n → g.sreg n = g0.sreg n
  preg : ∀ (n : Nat) (l : Lane), ¬ (namesP ds n ∧ Active e l) → (g.preg n)[l] = (g0.preg n)[l]
  hreg : ∀ n, ¬ namesH ds n → g.hreg n = g0.hreg n

/-- Of a port nothing but the t registers that the destinations name, in the active lanes, and the format errors differs. -/
structure PortKeeps (e : Env) (ds : List (Operand × Bool)) (p0 p : Port) : Prop where
  rest : p = { p0 with t := p.t, fmtErr := p.fmtErr }
  treg : ∀ (n : Nat) (l : Lane), ¬ (namesT e ds n ∧ Active e l) → (p.treg n)[l] = (p0.treg n)[l]

/-- From s to t nothing differs but the path's port, as `PortKeeps` says, its signature, as R says, the cycle count of its core
and the free choices. -/
structure Frame (e : Env) (ds : List (Operand × Bool)) (R : Sig → Sig → Prop) (s t : State) : Prop where
  device : t = { s with cores := t.cores, free := t.free }
  cores : ∀ c, c ≠ e.sel.core → t.core c = s.core c
  core : t.core e.sel.core = { s.core e.sel.core with
    sigs := (t.core e.sel.core).sigs, ports := (t.core e.sel.core).ports, cycles := (t.core e.sel.core).cycles }
  ports : ∀ p, p ≠ e.portNo → (t.core e.sel.core).port p = (s.core e.sel.core).port p
  port : PortKeeps e ds ((s.core e.sel.core).port e.portNo) ((t.core e.sel.core).port e.portNo)
  sigs : ∀ slot, slot ≠ e.sel.slot → t.sig? e.sel.core slot = s.sig? e.sel.core slot
  sig : ∀ g0, s.sig? e.sel.core e.sel.slot = some g0 → ∃ g, t.sig? e.sel.core e.sel.slot = some g ∧ R g0 g

section
variable {e : Env} {ds : List (Operand × Bool)}

theorem SigKeeps.refl (g : Sig) : SigKeeps e ds g g := ⟨rfl, fun _ _ _ => rfl, fun _ _ => rfl, fun _ _ _ => rfl, fun _ _ => rfl⟩

theorem SigKeeps.trans {a b c : Sig} (h : SigKeeps e ds a b) (k : SigKeeps e ds b c) : SigKeeps e ds a c where
  rest := k.rest.trans (congrArg (fun x : Sig => { x with v := c.v, s := c.s, p := c.p, h := c.h }) h.rest)
  reg n l hn := (k.reg n l hn).trans (h.reg n l hn)
  sreg n hn := (k.sreg n hn).trans (h.sreg n hn)
  preg n l hn := (k.preg n l hn).trans (h.preg n l hn)
  hreg n hn := (k.hreg n hn).trans (h.hreg n hn)

theorem PortKeeps.refl (p : Port) : PortKeeps e ds p p := ⟨rfl, fun _ _ _ => rfl⟩

theorem PortKeeps.trans {a b c : Port} (h : PortKeeps e ds a b) (k : PortKeeps e ds b c) : PortKeeps e ds a c where
  rest := k.rest.trans (congrArg (fun x : Port => { x with t := c.t, fmtErr := c.fmtErr }) h.rest)
  treg n l hn := (k.treg n l hn).trans (h.treg n l hn)

theorem Frame.trans {R Q P : Sig → Sig → Prop} {s t u : State} (hRQ : ∀ a b c, R a b → Q b c → P a c)
    (h : Frame e ds R s t) (k : Frame e ds Q t u) : Frame e ds P s u where
  device := k.device.trans (congrArg (fun x : State => { x with cores := u.cores, free := u.free }) h.device)
  cores c hc := (k.cores c hc).trans (h.cores c hc)
  core := k.core.trans (congrArg (fun x : Core => { x with
    sigs := (u.core e.sel.core).sigs, ports := (u.core e.sel.core).ports, cycles := (u.core e.sel.core).cycles }) h.core)
  ports p hp := (k.ports p hp).trans (h.ports p hp)
  port := h.port.trans k.port
  sigs x hx := (k.sigs x hx).trans (h.sigs x hx)
  sig g0 hg := by
    obtain ⟨g1, hg1, h1⟩ := h.sig g0 hg
    obtain ⟨g2, hg2, h2⟩ := k.sig g1 hg1
    exact ⟨g2, hg2, hRQ _ _ _ h1 h2⟩

/-! ### What each way of changing the state keeps -/

theorem Frame.of_modSig {R : Sig → Sig → Prop} (s : State) {f : Sig → Sig} (hf : ∀ g, R g (f g)) : Frame e ds R s (e.modSig s f) where
  device := rfl
  cores c hc := Env.core_modSig_ne e s f hc
  core := by
    rw [Env.core_modSig_self]
  ports p _ := Env.port_modSig e s f p
  port := by
    rw [Env.port_modSig]
    exact PortKeeps.refl _
  sigs x hx := State.sig?_modSig_ne s f hx
  sig g0 hg := ⟨f g0, by rw [Env.sig?_modSig, hg]; rfl, hf g0⟩

theorem Frame.of_modPort (s : State) {f : Port → Port} (hf : ∀ p, PortKeeps e ds p (f p)) :
    Frame e ds (SigKeeps e ds) s (e.modPort s f) where
  device := rfl
  cores c hc := Env.core_modPort_ne e s f hc
  core := by
    rw [Env.core_modPort_self]
    rfl
  ports p hp := by
    rw [Env.core_modPort_self]
    exact Core.port_modPort_ne _ f hp
  port := by
    rw [Env.core_modPort_self]
    by_cases hp : e.portNo < 4
    · rw [Core.port_modPort_self _ f hp]
      exact hf _
    · have same : ((s.core e.sel.core).modPort e.portNo f).port e.portNo = (s.core e.sel.core).port e.portNo := by
        simp [Core.port, Core.modPort, Core.setPort, hp]
      rw [same]
      exact PortKeeps.refl _
  sigs x _ := Env.sig?_modPort e s f x
  sig g0 hg := ⟨g0, by rw [Env.sig?_modPort, hg], SigKeeps.refl g0⟩

theorem Frame.of_free (s : State) (n : Nat) : Frame e ds (SigKeeps e ds) s { s with free := n } :=
  ⟨rfl, fun _ _ => rfl, rfl, fun _ _ => rfl, PortKeeps.refl _, fun _ _ => rfl, fun g0 hg => ⟨g0, hg, SigKeeps.refl g0⟩⟩

theorem Frame.of_cycles (s : State) (n : Word64) :
    Frame e ds (SigKeeps e ds) s (s.modCore e.sel.core fun k => { k with cycles := n }) where
  device := rfl
  cores c hc := State.core_modCore_ne s _ hc
  core := by
    rw [State.core_modCore_self]
  ports p _ := by
    rw [State.core_modCore_self]
    rfl
  port := by
    rw [State.core_modCore_self]
    exact PortKeeps.refl _
  sigs x _ := by
    simp only [State.sig?, State.core_modCore_self]
  sig g0 hg := ⟨g0, by rw [← hg]; simp only [State.sig?, State.core_modCore_self], SigKeeps.refl g0⟩

/-! ### Registers of a signature and of a port -/

/-- A merged predicate holds the new value in the lanes of the mask, the old one elsewhere. -/
theorem mergePred_getElem (m : Mask) (old new : PredRow) (l : Lane) :
    (mergePred m old new)[l] = if m.getLsbD l.val then new[l] else old[l] := by
  simp [mergePred]

theorem Sig.preg_setP_self (g : Sig) (n : Nat) (r : PredRow) :
    (g.setP n r).preg n = if n < 8 then r else g.preg n := by
  unfold Sig.preg Sig.setP
  split
  · simp [*]
  · rw [Vector.setIfInBounds_eq_of_size_le (by omega)]

theorem SigKeeps.setReg {n : Nat} (hn : namesV e ds n) (g : Sig) (r : Row) :
    SigKeeps e ds g (g.setReg n (mergeRow e.act (g.reg n) r)) where
  rest := rfl
  reg m l hm := by
    by_cases h : m = n
    · subst h
      have idle : e.act.getLsbD l.val = false := by simpa [hn, Active] using hm
      rw [Sig.reg_setReg_self, mergeRow_getElem, idle]
      rfl
    · rw [Sig.reg_setReg_ne g _ h]
  sreg _ _ := rfl
  preg _ _ _ := rfl
  hreg _ _ := rfl

theorem SigKeeps.setS {n : Nat} (hn : namesS ds n) (g : Sig) (x : Word64) : SigKeeps e ds g (g.setS n x) where
  rest := rfl
  reg _ _ _ := rfl
  sreg m hm := by
    have h : n ≠ m := fun h => hm (h ▸ hn)
    simp [Sig.sreg, Sig.setS, h]
  preg _ _ _ := rfl
  hreg _ _ := rfl

theorem SigKeeps.setH {n : Nat} (hn : namesH ds n) (g : Sig) (x : Word64) : SigKeeps e ds g (g.setH n x) where
  rest := rfl
  reg _ _ _ := rfl
  sreg _ _ := rfl
  preg _ _ _ := rfl
  hreg m hm := by
    have h : n ≠ m := fun h => hm (h ▸ hn)
    simp [Sig.hreg, Sig.setH, h]

theorem SigKeeps.setP {n : Nat} (hn : namesP ds n) (g : Sig) (r : PredRow) :
    SigKeeps e ds g (g.setP n (mergePred e.act (g.preg n) r)) where
  rest := rfl
  reg _ _ _ := rfl
  sreg _ _ := rfl
  preg m l hm := by
    by_cases h : n = m
    · subst h
      have idle : e.act.getLsbD l.val = false := by simpa [hn, Active] using hm
      rw [Sig.preg_setP_self]
      split
      · rw [mergePred_getElem, idle]
        rfl
      · rfl
    · simp [Sig.preg, Sig.setP, h]
  hreg _ _ := rfl

theorem PortKeeps.setT {n : Nat} (hn : namesT e ds n) (p : Port) (r : Row) :
    PortKeeps e ds p (p.setT n (mergeRow e.act (p.treg n) r)) where
  rest := rfl
  treg m l hm := by
    by_cases h : m = n
    · subst h
      have idle : e.act.getLsbD l.val = false := by simpa [hn, Active] using hm
      rw [Port.treg_setT_self, mergeRow_getElem, idle]
      rfl
    · rw [Port.treg_setT_ne p _ h]

/-! ### The writes of an instruction -/

section
variable {s t : State} (k : Frame e ds (SigKeeps e ds) s t)
include k

/-- A frame goes on over what keeps it. -/
theorem Frame.andThen {u : State} (h : Frame e ds (SigKeeps e ds) t u) : Frame e ds (SigKeeps e ds) s u :=
  Frame.trans (R := SigKeeps e ds) (fun _ _ _ => SigKeeps.trans) k h

/-- The first register of a destination, or the second one of a pair. -/
theorem Frame.writeDest {o : Operand} {b : Bool} (ho : (o, b) ∈ ds) {add : Nat} (hadd : add = 0 ∨ b = true ∧ add = 1) (r : Row) :
    Frame e ds (SigKeeps e ds) s (writeDest t e.sel.core e.sel.slot e.portNo e.act add (e.dest o) r) := by
  refine k.andThen ?_
  have named (n : Nat) : n + add = n ∨ b = true ∧ n + add = n + 1 := hadd.imp (by omega) (And.imp_right (by omega))
  cases hd : e.dest o with
  | none => exact Frame.of_free t t.free
  | v n => exact Frame.of_modSig t fun g => SigKeeps.setReg ⟨_, ho, n, hd, named n⟩ g r
  | t n => exact Frame.of_modPort t fun p => PortKeeps.setT ⟨_, ho, n, hd, named n⟩ p r

theorem Frame.write {o : Operand} {b : Bool} (ho : (o, b) ∈ ds) (r : Row) : Frame e ds (SigKeeps e ds) s (e.write t o r) :=
  k.writeDest ho (Or.inl rfl) r

theorem Frame.writeHi {o : Operand} (ho : (o, true) ∈ ds) (r : Row) : Frame e ds (SigKeeps e ds) s (e.writeHi t o r) :=
  k.writeDest ho (Or.inr ⟨rfl, rfl⟩) r

/-- A register, and the one after it when the destination is a pair. -/
theorem Frame.writePair {o : Operand} {wide : Bool} (ho : (o, wide) ∈ ds) (lo hi : Row) :
    Frame e ds (SigKeeps e ds) s (if wide then e.writeHi (e.write t o lo) o hi else e.write t o lo) := by
  cases wide with
  | true => exact (k.write ho lo).writeHi ho hi
  | false => exact k.write ho lo

theorem Frame.writeS {n : Nat} (hn : namesS ds n) (x : Word64) : Frame e ds (SigKeeps e ds) s (e.writeS t n x) :=
  k.andThen (Frame.of_modSig t fun g => SigKeeps.setS hn g x)

theorem Frame.writeH {n : Nat} (hn : namesH ds n) (x : Word64) : Frame e ds (SigKeeps e ds) s (e.writeH t n x) :=
  k.andThen (Frame.of_modSig t fun g => SigKeeps.setH hn g x)

theorem Frame.writeP {n : Nat} (hn : namesP ds n) (r : PredRow) : Frame e ds (SigKeeps e ds) s (e.writeP t n r) :=
  k.andThen (Frame.of_modSig t fun g => SigKeeps.setP hn g r)

theorem Frame.writeUni {o : Operand} {b : Bool} (ho : (o, b) ∈ ds) (x : Word64) :
    Frame e ds (SigKeeps e ds) s (e.writeUni t o x) := by
  unfold Env.writeUni
  split
  · exact k.writeS ⟨_, ho, _, _, _, rfl, Or.inl rfl⟩ x
  · exact k.write ho _

theorem Frame.writeAny {o : Operand} {b : Bool} (ho : (o, b) ∈ ds) (r : Row) :
    Frame e ds (SigKeeps e ds) s (e.writeAny t o r) := by
  unfold Env.writeAny
  split
  · exact k.writeS ⟨_, ho, _, _, _, rfl, Or.inl rfl⟩ _
  · exact k.write ho r

theorem Frame.writeIv {o : Operand} {ty : Ty} (ho : (o, ivWide ty) ∈ ds) (x : Lane → Bounds) :
    Frame e ds (SigKeeps e ds) s (e.writeIv t ty o x) := by
  unfold Env.writeIv
  split
  case isTrue wide => exact (k.write ho _).writeHi ((show ivWide ty = true from wide) ▸ ho) _
  case isFalse => exact k.write ho _

theorem Frame.countErr (n : Nat) : Frame e ds (SigKeeps e ds) s (e.countErr t n) :=
  k.andThen (Frame.of_modPort t fun _ => ⟨rfl, fun _ _ _ => rfl⟩)

theorem Frame.tickCycles : Frame e ds (SigKeeps e ds) s (t.tickCycles e.sel.core).2 :=
  (k.andThen (Frame.of_free t _)).andThen (Frame.of_cycles _ _)

theorem Frame.drawRows : Frame e ds (SigKeeps e ds) s t.drawRows.2 := k.andThen (Frame.of_free t _)

end

end
end Sys2Proof.Claim
end

