-- ==== Sys2Proof/Proofs/RetiredFrame.lean ====
section
/-!
Retiring moves the path and the counts alone: what is left of a frame when the instruction has retired.
-/
namespace Sys2Proof.Claim
open Machine

set_option Elab.async false

/-! ### Retiring -/

/-- Of a signature that holds the path of e nothing but that path's place and the counts of retired instructions differs. -/
def Counted (e : Env) (g0 g : Sig) : Prop :=
  ∀ p, g0.path? e.sel.pidx = some p →
    g = { g0 with paths := g.paths, iret := g.iret, wdog := g.wdog, quantum := g.quantum } ∧
    (∀ i, i ≠ e.sel.pidx → g.path? i = g0.path? i) ∧
    ∃ q, g.path? e.sel.pidx = some q ∧ q.mask = p.mask ∧ q.nest = p.nest ∧ q.rseq = p.rseq ∧ q.handler = p.handler ∧ q.port = p.port

section
variable {e : Env} {ds : List (Operand × Bool)}

theorem Counted.trans {a b c : Sig} (h : Counted e a b) (k : Counted e b c) : Counted e a c := by
  intro p hp
  obtain ⟨hb, hbo, q, hq, hqm, hqn, hqr, hqh, hqp⟩ := h p hp
  obtain ⟨hc, hco, r, hr, hrm, hrn, hrr, hrh, hrp⟩ := k q hq
  exact ⟨hc.trans (congrArg (fun x : Sig => { x with paths := c.paths, iret := c.iret, wdog := c.wdog, quantum := c.quantum }) hb),
    fun i hi => (hco i hi).trans (hbo i hi), r, hr, hrm.trans hqm, hrn.trans hqn, hrr.trans hqr, hrh.trans hqh, hrp.trans hqp⟩

/-- An update of the path that moves its place alone. -/
theorem Counted.of_modPath (g : Sig) {f : Path → Path} (hi : ∀ p, (f p).idx = p.idx)
    (hf : ∀ p, (f p).mask = p.mask ∧ (f p).nest = p.nest ∧ (f p).rseq = p.rseq ∧ (f p).handler = p.handler ∧ (f p).port = p.port) :
    Counted e g (g.modPath e.sel.pidx f) := fun p hp =>
  ⟨rfl, fun _ h => Sig.path?_modPath_ne g hi h, f p, Sig.path?_modPath_self hi hp, hf p⟩

/-- One more instruction in the counts of a signature, with its watchdog at n. -/
def tally (g : Sig) (n : Nat) : Sig := { g with iret := g.iret + 1, wdog := n, quantum := g.quantum + 1 }

theorem Counted.of_tally (g : Sig) (n : Nat) : Counted e g (tally g n) := fun p hp =>
  ⟨rfl, fun _ _ => rfl, p, hp, rfl, rfl, rfl, rfl, rfl⟩

theorem Frame.of_count (s : State) : Frame e ds (Counted e) s (e.count s) := by
  refine Frame.of_modSig s fun g p hp => ?_
  have here (n : Nat) : (tally g n).path? e.sel.pidx = some p := hp
  have moved (n : Nat) (f : Path → Path) hi hf :=
    (Counted.of_tally g n).trans (Counted.of_modPath (e := e) (f := f) (tally g n) hi hf) p hp
  unfold tally at here moved
  simp only [here, Option.isSome_some, if_true]
  apply moved
  · exact fun _ => rfl
  · exact fun _ => ⟨rfl, rfl, rfl, rfl, rfl⟩

/-- What an instruction that keeps its frame leaves when it has retired. -/
theorem keeps_retire {h : Hdr} {s u : State} (he : (s.env.map fun e0 => e0.guarded h) = some e)
    (k : Frame e ds (SigKeeps e ds) e.s u) : Keeps e (e.retire u e.next) ds := by
  have counted : Frame e ds (Counted e) u (e.retire u e.next) := by
    refine Frame.trans (Q := Counted e) (fun _ _ _ => Counted.trans) (Frame.of_count u) (Frame.of_modSig _ fun g => Counted.of_modPath g ?_ ?_)
    · exact fun _ => rfl
    · exact fun _ => ⟨rfl, rfl, rfl, rfl, rfl⟩
  have whole : Frame e ds (Relation.Comp (SigKeeps e ds) (Counted e)) e.s (e.retire u e.next) :=
    Frame.trans (fun _ b _ hab hbc => ⟨b, hab, hbc⟩) k counted
  obtain ⟨g0, hg0⟩ : ∃ g0, e.s.sig? e.sel.core e.sel.slot = some g0 := by
    obtain ⟨e0, h0, rfl⟩ := Option.map_eq_some_iff.mp he
    obtain ⟨-, -, -, g, hg, -⟩ := State.env_some h0
    exact ⟨g, by rw [← hg, ← State.env_s h0]; rfl⟩
  have hpath : g0.path? e.sel.pidx = some e.path := State.env_guarded_path he (State.env_guarded_s he ▸ hg0)
  obtain ⟨g, hg, g1, hregs, hcount⟩ := whole.sig g0 hg0
  have paths : g1.paths = g0.paths := (congrArg Sig.paths hregs.rest :)
  have path (i : Nat) : g1.path? i = g0.path? i := by
    simp only [Sig.path?, paths]
  obtain ⟨hrest, hothers, hself⟩ := hcount e.path ((path _).trans hpath)
  have hidx : e.path.idx = e.sel.pidx := Sig.path?_idx hpath
  rw [← hidx] at hself hothers
  refine ⟨whole.device, whole.cores, whole.core, whole.ports, whole.port.rest, whole.port.treg, whole.sigs,
    g0, g, hg0, hg, ?_, ?_, ?_, ?_, ?_, fun i hi => (hothers i hi).trans (path i), hself⟩
  · rw [hrest, hregs.rest]
  · rw [hrest]
    exact hregs.reg
  · rw [hrest]
    exact hregs.sreg
  · rw [hrest]
    exact hregs.preg
  · rw [hrest]
    exact hregs.hreg

end
end Sys2Proof.Claim
end

