-- ==== Sys2Proof/Proofs/RegisterFrame.lean ====
section
/-!
O59: the body of each instruction that writes registers keeps the frame of its destinations.
-/
namespace Sys2Proof.Claim
open Machine

set_option Elab.async false

/-! ### Destinations that the front has checked -/

section
variable {e : Env} {o : Operand} {b : Bool}

/-- An instruction that passes its front has its operand fields in order. -/
theorem ok_of_front {f : Front} {os : List Operand} (h : e.front f os = none) : f.ok e = true := by
  unfold Env.front at h
  split at h
  · cases h
  · split at h
    · cases h
    · split at h
      · cases h
      · simpa using h

theorem fieldOk_of_ops4Ok {o : Ops4} {d a b c : Pos} (h : e.ops4Ok o d a b c = true) : e.fieldOk d o.d = true := by
  simp only [Env.ops4Ok, Bool.and_eq_true] at h
  obtain ⟨⟨⟨hd, -⟩, -⟩, -⟩ := h
  exact hd

theorem namesP_of_eq {n : BitVec 3} (h : o = .p n) : namesP [(o, b)] n.toNat := ⟨_, List.mem_singleton_self _, n, h, rfl⟩

theorem namesS_of_eq {n : BitVec 6} {neg abs : Bool} (h : o = .s n neg abs) : namesS [(o, b)] n.toNat :=
  ⟨_, List.mem_singleton_self _, n, neg, abs, h, Or.inl rfl⟩

theorem namesP_of_fieldOk (h : e.fieldOk { kinds := [.p] } o = true) : namesP [(o, b)] (pregNo o) := by
  cases o with
  | p n => exact namesP_of_eq rfl
  | _ => simp [Env.fieldOk] at h

theorem namesS_of_fieldOk (h : e.fieldOk sPos o = true) : namesS [(o, b)] (sregNo o) := by
  cases o with
  | s n neg abs => exact namesS_of_eq rfl
  | _ => simp [Env.fieldOk, sPos] at h

theorem namesH_of_isH (h : Machine.Operand.isH o = true) : namesH [(o, b)] (hregNo o) := by
  cases o with
  | h n => exact ⟨_, List.mem_singleton_self _, n, rfl, rfl⟩
  | _ => cases h

/-- A predicate destination. -/
theorem namesP_of_front {f : Front} {os : List Operand} {o : Ops4} {a b c : Pos} {w : Bool} (h : e.front f os = none)
    (hf : f.ok e = e.ops4Ok o { kinds := [.p] } a b c) : namesP [(o.d, w)] (pregNo o.d) :=
  namesP_of_fieldOk (fieldOk_of_ops4Ok (hf ▸ ok_of_front h))

end

/-! ### Bodies -/

/-- A body raises a fault, or ends in a state that keeps the frame of the destinations. -/
def Writes (e : Env) (ds : List (Operand × Bool)) (x : Eff) : Prop :=
  (∃ t, x = .done t ∧ Frame e ds (SigKeeps e ds) e.s t) ∨ ∃ y, x = .trap y

section
variable {e : Env} {ds : List (Operand × Bool)} {o : Operand} {b : Bool}

theorem Frame.refl (s : State) : Frame e ds (SigKeeps e ds) s s := Frame.of_free s s.free

theorem Writes.done {t : State} (k : Frame e ds (SigKeeps e ds) e.s t) : Writes e ds (.done t) := Or.inl ⟨t, rfl, k⟩

theorem Writes.trap (y : Trap) : Writes e ds (.trap y) := Or.inr ⟨y, rfl⟩

theorem Writes.ite {c : Prop} [Decidable c] {x y : Eff} (hx : c → Writes e ds x) (hy : ¬ c → Writes e ds y) :
    Writes e ds (if c then x else y) := by
  split
  · exact hx ‹_›
  · exact hy ‹_›

theorem Writes.indexed {os : List (Operand × Bool)} {k : Unit → Eff} (h : Writes e ds (k ())) :
    Writes e ds (e.indexed os k) := by
  unfold Env.indexed
  split
  · exact .trap _
  · exact h

theorem Writes.checkedHandle {k : Word64 → Eff} (h : ∀ x, Writes e ds (k x)) : Writes e ds (e.checkedHandle o k) :=
  .ite (fun _ => h _) fun _ => .trap _

theorem Writes.write (r : Row) : Writes e [(o, b)] (.done (e.write e.s o r)) :=
  .done ((Frame.refl _).write (List.mem_singleton_self _) r)

theorem Writes.indexed_write {os : List (Operand × Bool)} (r : Row) :
    Writes e [(o, b)] (e.indexed os fun _ => .done (e.write e.s o r)) := .indexed (.write r)

theorem Writes.writePair (lo hi : Row) :
    Writes e [(o, b)] (.done (if b then e.writeHi (e.write e.s o lo) o hi else e.write e.s o lo)) :=
  .done ((Frame.refl _).writePair (List.mem_singleton_self _) lo hi)

theorem Writes.writeAny (r : Row) : Writes e [(o, b)] (.done (e.writeAny e.s o r)) :=
  .done ((Frame.refl _).writeAny (List.mem_singleton_self _) r)

theorem Writes.writeUni (x : Word64) : Writes e [(o, b)] (.done (e.writeUni e.s o x)) :=
  .done ((Frame.refl _).writeUni (List.mem_singleton_self _) x)

theorem Writes.writeP {n : Nat} (hn : namesP ds n) (r : PredRow) : Writes e ds (.done (e.writeP e.s n r)) :=
  .done ((Frame.refl _).writeP hn r)

theorem Writes.ivResult {ty : Ty} {o : Ops4} (f : Lane → Option Bounds) : Writes e [(o.d, ivWide ty)] (e.ivResult ty o f) :=
  .ite (fun _ => .trap _) fun _ => .done ((Frame.refl _).writeIv (List.mem_singleton_self _) _)

theorem Writes.ptResult {o : Ops4} (f : Lane → Option Nat) : Writes e [(o.d, b)] (e.ptResult o f) :=
  .ite (fun _ => .trap _) fun _ => .write _

theorem Writes.triResult {o : Ops4} (h : namesP ds (pregNo o.d)) (f : Lane → Option Tri) : Writes e ds (e.triResult o f) :=
  .ite (fun _ => .trap _) fun _ => .writeP h _

theorem Frame.localData (space n : Nat) (ea : Row) : Frame e ds (SigKeeps e ds) e.s (e.localData space n ea).2 := by
  unfold Env.localData
  dsimp only
  split
  · exact Frame.refl _
  · exact (Frame.refl _).drawRows

theorem Writes.localLoad (o : Ops2) (imm : BitVec 32) (m : LMod) : Writes e [(o.d, m.wide)] (localLoad o imm m e) := by
  refine .indexed ?_
  dsimp only
  split
  · exact .trap _
  · have drawn := Frame.localData (e := e) (ds := [(o.d, m.wide)]) m.space.toNat m.bytes (e.addrs o.a imm)
    split
    case isTrue wide =>
      have pair : (o.d, true) ∈ [(o.d, m.wide)] := by rw [wide]; exact List.mem_singleton_self _
      exact .done ((drawn.write pair _).writeHi pair _)
    case isFalse => exact .done (drawn.write (List.mem_singleton_self _) _)

end

/-! ### Instructions -/

/-- The instruction is `perform` of a body that, once its front is passed, writes the destinations alone. -/
def WritesOnly (i : Instr) (h : Hdr) (ds : List (Operand × Bool)) : Prop :=
  ∃ os f body, exec i = perform h os f noSync body ∧ ∀ e, e.front f os = none → Writes e ds (body e)

theorem WritesOnly.intro {i : Instr} {h : Hdr} {ds : List (Operand × Bool)} {os : List Operand} {f : Front}
    {body : Env → Eff} {x : State → Host.Outcome State Fault Refusal} (hi : exec i = x) (hx : x = perform h os f noSync body)
    (hb : ∀ e, e.front f os = none → Writes e ds (body e)) : WritesOnly i h ds := ⟨os, f, body, hi.trans hx, hb⟩

theorem WritesOnly.frame {i : Instr} {h : Hdr} {ds : List (Operand × Bool)} (w : WritesOnly i h ds) {s t : State} {e : Env}
    (he : (s.env.map fun e0 => e0.guarded h) = some e) (ht : exec i s = .next t) : (∃ x, t = e.raise x) ∨ Keeps e t ds := by
  obtain ⟨os, f, body, hx, hb⟩ := w
  obtain ⟨e', he', hcases⟩ := perform_cases ((congrFun hx s).symm.trans ht)
  obtain rfl : e = e' := Option.some.inj (he.symm.trans he')
  rcases hcases with ⟨x, -, rfl⟩ | ⟨-, -, rfl⟩ | ⟨-, -, -, -, sync, -⟩ | ⟨hf, -, rfl⟩
  · exact Or.inl ⟨x, rfl⟩
  · exact Or.inr (keeps_retire he (Frame.refl _))
  · cases sync
  · obtain ⟨u, hu, k⟩ | ⟨y, hy⟩ := hb e hf
    · rw [hu]
      exact Or.inr (keeps_retire he k)
    · rw [hy]
      exact Or.inl ⟨y, rfl⟩

theorem writesOnly_mov (h : Hdr) (o : Ops4) (m : X2Mod) : WritesOnly (.mov h o m) h [(o.d, m.x2)] := by
  refine .intro (x := execMov h o m) rfl rfl fun e _ => .indexed ?_
  dsimp only
  split
  case h_1 n hd => exact .done ((Frame.refl _).writeH ⟨_, List.mem_singleton_self _, n, by simp [hd], rfl⟩ _)
  case h_2 n neg abs hd => exact .done ((Frame.refl _).writeS (namesS_of_eq hd) _)
  case h_3 => exact .writePair _ _

theorem writesOnly_movi (h : Hdr) (o : Ops2) (imm : BitVec 32) (m : MoviMod) :
    WritesOnly (.movi h o imm m) h [(o.d, false)] := by
  refine .intro (x := execMovi h o imm m) rfl rfl fun e _ => ?_
  split
  case h_1 n neg abs hd => exact .done ((Frame.refl _).writeS (namesS_of_eq hd) _)
  case h_2 => exact .write _

theorem writesOnly_sread (h : Hdr) (o : Ops4) : WritesOnly (.sread h o) h [(o.d, false)] := by
  refine .intro (x := execSread h o) rfl rfl fun e _ =>
    .ite (fun _ => .write _) fun _ => .ite (fun _ => ?_) fun _ => .writeUni _
  exact .done ((Frame.refl _).tickCycles.writeUni (List.mem_singleton_self _) _)

theorem writesOnly_vote (h : Hdr) (o : Ops4) (m : XMod) : WritesOnly (.vote h o m) h [(o.d, isS o.d)] := by
  refine .intro (x := execVote h o m) rfl (by unfold execVote; exact rfl) fun e hf => .ite (fun _ => ?_) fun hsel => ?_
  · dsimp only
    split
    case h_1 n neg abs hd =>
      have lo : namesS [(o.d, isS o.d)] n.toNat := namesS_of_eq hd
      have hi : namesS [(o.d, isS o.d)] (n.toNat + 1) :=
        ⟨_, List.mem_singleton_self _, n, neg, abs, hd, Or.inr ⟨by simp [hd, isS], rfl⟩⟩
      exact .done (((Frame.refl _).writeS lo _).writeS hi _)
    case h_2 => exact .write _
  · have fields := (Bool.and_eq_true _ _ ▸ ok_of_front hf).1
    rw [if_neg hsel] at fields
    have pred : namesP [(o.d, isS o.d)] (pregNo o.d) := namesP_of_fieldOk (fieldOk_of_ops4Ok fields)
    exact .ite (fun _ => .writeP pred _) fun _ => .writeP pred _

theorem writesOnly_pmov (h : Hdr) (o : Ops4) (m : XMod) : WritesOnly (.pmov h o m) h [(o.d, false)] := by
  refine .intro (x := execPmov h o m) rfl (by unfold execPmov; exact rfl) fun e _ => ?_
  dsimp only
  split
  case h_1 n _ hd _ => exact .writeP (namesP_of_eq hd) _
  case h_2 n hd _ => exact .writeP (namesP_of_eq hd) _
  case h_3 => exact .write _

theorem writesOnly_matchOp (h : Hdr) (o : Ops4) (m : XMod) : WritesOnly (.matchOp h o m) h [(o.d, false)] := by
  refine .intro (x := execMatchOp h o m) rfl (by unfold execMatchOp; exact rfl) fun e hf => ?_
  dsimp only
  split
  case h_1 hsel =>
    have zero : (m.sel == 0) = true := by simpa using BitVec.eq_of_toNat_eq hsel
    have fields : e.ops4Ok o (if m.sel == 0 then pPos else vPos) vsPos unused unused = true := ok_of_front hf
    rw [if_pos zero] at fields
    exact .writeP (namesP_of_fieldOk (fieldOk_of_ops4Ok fields)) _
  case h_2 => exact .write _
  case h_3 => exact .write _

theorem writesOnly_pset (h : Hdr) (o : Ops4) (m : XMod) : WritesOnly (.pset h o m) h [(o.d, false)] := by
  refine .intro (x := execPset h o m) rfl (by unfold execPset; exact rfl) fun e hf => ?_
  have fields := (Bool.and_eq_true _ _ ▸ ok_of_front hf).1
  exact .writeP (namesP_of_fieldOk (fieldOk_of_ops4Ok fields)) _

theorem writesOnly_fredux (h : Hdr) (o : Ops4) (m : XMod) : WritesOnly (.fredux h o m) h [(o.d, false)] :=
  .intro (x := execFredux h o m) rfl (by unfold execFredux; exact rfl) fun _ _ =>
    .ite (fun _ => .ite (fun _ => .trap _) fun _ => .writeAny _) fun _ => .writeAny _

theorem writesOnly_fclass (h : Hdr) (o : Ops4) (m : AMod) : WritesOnly (.fclass h o m) h [(o.d, false)] := by
  refine .intro (x := execFclass h o m) rfl (by unfold execFclass; exact rfl) fun e _ =>
    .indexed (.ite (fun isP => ?_) fun _ => .write _)
  split at isP
  case h_1 n hd => exact .writeP (by rw [hd]; exact namesP_of_eq rfl) _
  case h_2 => cases isP

theorem writesOnly_hmov (h : Hdr) (o : Ops4) : WritesOnly (.hmov h o) h [(o.d, false)] := by
  refine .intro (x := execHmov h o) rfl rfl fun e hf => .ite (fun hH => ?_) fun hH => ?_
  · refine .ite (fun _ => ?_) fun _ => .trap _
    exact .done ((Frame.refl _).writeH (namesH_of_isH hH) _)
  · have fields := ok_of_front hf
    dsimp only at fields
    rw [if_neg hH] at fields
    exact .done ((Frame.refl _).writeS (namesS_of_fieldOk (fieldOk_of_ops4Ok fields)) _)

theorem writesOnly_deq (h : Hdr) (o : Ops4) (m : AMod) : WritesOnly (.deq h o m) h [(o.d, true)] := by
  refine .intro (x := execDeq h o m) rfl (by unfold execDeq; exact rfl) fun e _ => .indexed (.done (Frame.countErr ?_ _))
  exact ((Frame.refl _).write (List.mem_singleton_self _) _).writeHi (List.mem_singleton_self _) _

theorem writesOnly_pack (h : Hdr) (o : Ops4) (m : AMod) : WritesOnly (.pack h o m) h [(o.d, false)] :=
  .intro (x := execPack h o m) rfl (by unfold execPack; exact rfl) fun _ _ =>
    .indexed (.done (((Frame.refl _).write (List.mem_singleton_self _) _).countErr _))

theorem writesOnly_ivmake (h : Hdr) (o : Ops4) (m : AMod) : WritesOnly (.ivmake h o m) h [(o.d, ivWide m.ty)] := by
  by_cases k : ctlNo o.c = 2
  · exact .intro (x := execIvmake h o m) rfl (by unfold execIvmake; rw [if_pos k]) fun _ _ => .indexed (.ivResult _)
  · exact .intro (x := execIvmake h o m) rfl (by unfold execIvmake; rw [if_neg k]) fun _ _ => .indexed (.ivResult _)

theorem writesOnly_ivbnd (h : Hdr) (o : Ops4) (m : AMod) :
    WritesOnly (.ivbnd h o m) h [(o.d, ivWide m.ty && ctlNo o.c == 0)] := by
  rcases k : ctlNo o.c with _ | _ | _ | _ | n
  · rw [show (ivWide m.ty && 0 == 0) = ivWide m.ty by simp]
    exact .intro (x := execIvbnd h o m) rfl (by unfold execIvbnd; rw [k]; exact rfl) fun _ _ => .indexed (.ivResult _)
  · exact .intro (x := execIvbnd h o m) rfl (by unfold execIvbnd; rw [k]; exact rfl) fun _ _ => .indexed (.ptResult _)
  · exact .intro (x := execIvbnd h o m) rfl (by unfold execIvbnd; rw [k]; exact rfl) fun _ _ => .indexed (.ptResult _)
  · exact .intro (x := execIvbnd h o m) rfl (by unfold execIvbnd; rw [k]; exact rfl) fun _ hf =>
      .indexed (.triResult (namesP_of_front hf rfl) _)
  · exact .intro (x := execIvbnd h o m) rfl (by unfold execIvbnd; rw [k]; exact rfl) fun _ _ => .indexed (.ptResult _)

theorem writesOnly_ivisect (h : Hdr) (o : Ops4) (m : AMod) : WritesOnly (.ivisect h o m) h [(o.d, ivWide m.ty)] :=
  .intro (x := execIvisect h o m) rfl (by unfold execIvisect; exact rfl) fun _ _ =>
    .ite (fun _ => .indexed (.ivResult _)) fun _ => .indexed (.ivResult _)

theorem writesOnly_ivcmp (h : Hdr) (o : Ops4) (m : AMod) : WritesOnly (.ivcmp h o m) h [(o.d, false)] :=
  .intro (x := execIvcmp h o m) rfl (by unfold execIvcmp; exact rfl) fun _ hf =>
    .indexed (.ite (fun _ => .triResult (namesP_of_front hf rfl) _) fun _ => .triResult (namesP_of_front hf rfl) _)

theorem writesOnly_htest (h : Hdr) (o : Ops4) : WritesOnly (.htest h o) h [(o.d, false)] :=
  .intro (x := execHtest h o) rfl rfl fun _ hf => .checkedHandle fun _ => .writeP (namesP_of_front hf rfl) _

/-- Every instruction that writes only registers. -/
theorem writesOnly {i : Instr} {h : Hdr} {ds : List (Operand × Bool)} (hh : hdrOf i = some h) (hw : writes i = some ds) :
    WritesOnly i h ds := by
  cases i with
  | mov => cases hh; cases hw; exact writesOnly_mov ..
  | movi => cases hh; cases hw; exact writesOnly_movi ..
  | sread => cases hh; cases hw; exact writesOnly_sread ..
  | vote => cases hh; cases hw; exact writesOnly_vote ..
  | pmov => cases hh; cases hw; exact writesOnly_pmov ..
  | matchOp => cases hh; cases hw; exact writesOnly_matchOp ..
  | pset => cases hh; cases hw; exact writesOnly_pset ..
  | fredux => cases hh; cases hw; exact writesOnly_fredux ..
  | fclass => cases hh; cases hw; exact writesOnly_fclass ..
  | hmov => cases hh; cases hw; exact writesOnly_hmov ..
  | deq => cases hh; cases hw; exact writesOnly_deq ..
  | pack => cases hh; cases hw; exact writesOnly_pack ..
  | ivmake => cases hh; cases hw; exact writesOnly_ivmake ..
  | ivbnd => cases hh; cases hw; exact writesOnly_ivbnd ..
  | ivisect => cases hh; cases hw; exact writesOnly_ivisect ..
  | ivcmp => cases hh; cases hw; exact writesOnly_ivcmp ..
  | htest => cases hh; cases hw; exact writesOnly_htest ..
  | nop h o => cases hh; cases hw; exact .intro (x := execNop h o) rfl rfl fun _ _ => .done (Frame.refl _)
  | rgn h o m => cases hh; cases hw; exact .intro (x := execRgn h o m) rfl rfl fun _ _ => .done (Frame.refl _)
  | shfl h o m => cases hh; cases hw; exact .intro (x := execShfl h o m) rfl rfl fun _ _ => .write _
  | redux h o m => cases hh; cases hw; exact .intro (x := execRedux h o m) rfl rfl fun _ _ => .writeAny _
  | pcount h o m => cases hh; cases hw; exact .intro (x := execPcount h o m) rfl rfl fun _ _ => .writeAny _
  | plop h o m =>
    cases hh; cases hw
    exact .intro (x := execPlop h o m) rfl (by unfold execPlop; exact rfl) fun _ hf => .writeP (namesP_of_front hf rfl) _
  | iadd h o m => cases hh; cases hw; exact .intro (x := execIadd h o m) rfl rfl fun _ _ => .indexed_write _
  | isub h o m => cases hh; cases hw; exact .intro (x := execIsub h o m) rfl rfl fun _ _ => .indexed_write _
  | imul h o m => cases hh; cases hw; exact .intro (x := execImul h o m) rfl rfl fun _ _ => .indexed_write _
  | imulh h o m => cases hh; cases hw; exact .intro (x := execImulh h o m) rfl rfl fun _ _ => .indexed_write _
  | imad h o m => cases hh; cases hw; exact .intro (x := execImad h o m) rfl rfl fun _ _ => .indexed_write _
  | imin h o m => cases hh; cases hw; exact .intro (x := execImin h o m) rfl rfl fun _ _ => .indexed_write _
  | imax h o m => cases hh; cases hw; exact .intro (x := execImax h o m) rfl rfl fun _ _ => .indexed_write _
  | iabs h o m => cases hh; cases hw; exact .intro (x := execIabs h o m) rfl rfl fun _ _ => .indexed_write _
  | lop3 h o m => cases hh; cases hw; exact .intro (x := execLop3 h o m) rfl rfl fun _ _ => .indexed_write _
  | shl h o m => cases hh; cases hw; exact .intro (x := execShl h o m) rfl rfl fun _ _ => .indexed_write _
  | shr h o m => cases hh; cases hw; exact .intro (x := execShr h o m) rfl rfl fun _ _ => .indexed_write _
  | sar h o m => cases hh; cases hw; exact .intro (x := execSar h o m) rfl rfl fun _ _ => .indexed_write _
  | rot h o m => cases hh; cases hw; exact .intro (x := execRot h o m) rfl rfl fun _ _ => .indexed_write _
  | bfx h o m => cases hh; cases hw; exact .intro (x := execBfx h o m) rfl rfl fun _ _ => .indexed_write _
  | bfi h o m => cases hh; cases hw; exact .intro (x := execBfi h o m) rfl rfl fun _ _ => .indexed_write _
  | popc h o m => cases hh; cases hw; exact .intro (x := execPopc h o m) rfl rfl fun _ _ => .indexed_write _
  | clz h o m => cases hh; cases hw; exact .intro (x := execClz h o m) rfl rfl fun _ _ => .indexed_write _
  | brev h o m => cases hh; cases hw; exact .intro (x := execBrev h o m) rfl rfl fun _ _ => .indexed_write _
  | lea h o m => cases hh; cases hw; exact .intro (x := execLea h o m) rfl rfl fun _ _ => .indexed_write _
  | idiv h o m => cases hh; cases hw; exact .intro (x := execIdiv h o m) rfl rfl fun _ _ => .indexed_write _
  | cvti h o m => cases hh; cases hw; exact .intro (x := execCvti h o m) rfl rfl fun _ _ => .indexed_write _
  | fadd h o m => cases hh; cases hw; exact .intro (x := execFadd h o m) rfl rfl fun _ _ => .indexed_write _
  | fmul h o m => cases hh; cases hw; exact .intro (x := execFmul h o m) rfl rfl fun _ _ => .indexed_write _
  | ffma h o m => cases hh; cases hw; exact .intro (x := execFfma h o m) rfl rfl fun _ _ => .indexed_write _
  | fmin h o m => cases hh; cases hw; exact .intro (x := execFmin h o m) rfl rfl fun _ _ => .indexed_write _
  | fmax h o m => cases hh; cases hw; exact .intro (x := execFmax h o m) rfl rfl fun _ _ => .indexed_write _
  | frnd h o m => cases hh; cases hw; exact .intro (x := execFrnd h o m) rfl rfl fun _ _ => .indexed_write _
  | frcp h o m => cases hh; cases hw; exact .intro (x := execFrcp h o m) rfl rfl fun _ _ => .indexed_write _
  | fsqrt h o m => cases hh; cases hw; exact .intro (x := execFsqrt h o m) rfl rfl fun _ _ => .indexed_write _
  | frsq h o m => cases hh; cases hw; exact .intro (x := execFrsq h o m) rfl rfl fun _ _ => .indexed_write _
  | fex2 h o m => cases hh; cases hw; exact .intro (x := execFex2 h o m) rfl rfl fun _ _ => .indexed_write _
  | flg2 h o m => cases hh; cases hw; exact .intro (x := execFlg2 h o m) rfl rfl fun _ _ => .indexed_write _
  | fsin h o m => cases hh; cases hw; exact .intro (x := execFsin h o m) rfl rfl fun _ _ => .indexed_write _
  | fcos h o m => cases hh; cases hw; exact .intro (x := execFcos h o m) rfl rfl fun _ _ => .indexed_write _
  | fdiv h o m => cases hh; cases hw; exact .intro (x := execFdiv h o m) rfl rfl fun _ _ => .indexed_write _
  | ftanh h o m => cases hh; cases hw; exact .intro (x := execFtanh h o m) rfl rfl fun _ _ => .indexed_write _
  | fdot h o m => cases hh; cases hw; exact .intro (x := execFdot h o m) rfl rfl fun _ _ => .indexed_write _
  | fscale h o m => cases hh; cases hw; exact .intro (x := execFscale h o m) rfl rfl fun _ _ => .indexed_write _
  | cvtf h o m =>
    cases hh; cases hw
    exact .intro (x := execCvtf h o m) rfl (by unfold execCvtf; exact rfl) fun _ _ => .indexed_write _
  | qblk h o m =>
    cases hh; cases hw
    exact .intro (x := execQblk h o m) rfl (by unfold execQblk; exact rfl) fun _ _ => .indexed_write _
  | targ h o =>
    cases hh; cases hw
    exact .intro (x := execTarg h o) rfl (by unfold execTarg; exact rfl) fun _ _ => .indexed_write _
  | icmp h o m =>
    cases hh; cases hw
    exact .intro (x := execIcmp h o m) rfl rfl fun _ hf => .indexed (.writeP (namesP_of_front hf rfl) _)
  | fcmp h o m =>
    cases hh; cases hw
    exact .intro (x := execFcmp h o m) rfl rfl fun _ hf => .indexed (.writeP (namesP_of_front hf rfl) _)
  | ivadd h o m => cases hh; cases hw; exact .intro (x := execIvadd h o m) rfl rfl fun _ _ => .indexed (.ivResult _)
  | ivsub h o m => cases hh; cases hw; exact .intro (x := execIvsub h o m) rfl rfl fun _ _ => .indexed (.ivResult _)
  | ivmul h o m => cases hh; cases hw; exact .intro (x := execIvmul h o m) rfl rfl fun _ _ => .indexed (.ivResult _)
  | ivdiv h o m => cases hh; cases hw; exact .intro (x := execIvdiv h o m) rfl rfl fun _ _ => .indexed (.ivResult _)
  | ivfma h o m => cases hh; cases hw; exact .intro (x := execIvfma h o m) rfl rfl fun _ _ => .indexed (.ivResult _)
  | ivsqr h o m => cases hh; cases hw; exact .intro (x := execIvsqr h o m) rfl rfl fun _ _ => .indexed (.ivResult _)
  | ivsqrt h o m => cases hh; cases hw; exact .intro (x := execIvsqrt h o m) rfl rfl fun _ _ => .indexed (.ivResult _)
  | ivex2 h o m => cases hh; cases hw; exact .intro (x := execIvex2 h o m) rfl rfl fun _ _ => .indexed (.ivResult _)
  | ivlg2 h o m => cases hh; cases hw; exact .intro (x := execIvlg2 h o m) rfl rfl fun _ _ => .indexed (.ivResult _)
  | ivhull h o m => cases hh; cases hw; exact .intro (x := execIvhull h o m) rfl rfl fun _ _ => .indexed (.ivResult _)
  | ivmid h o m => cases hh; cases hw; exact .intro (x := execIvmid h o m) rfl rfl fun _ _ => .indexed (.ptResult _)
  | ivwid h o m => cases hh; cases hw; exact .intro (x := execIvwid h o m) rfl rfl fun _ _ => .indexed (.ptResult _)
  | hstat h o => cases hh; cases hw; exact .intro (x := execHstat h o) rfl rfl fun _ _ => .checkedHandle fun _ => .writeUni _
  | sel h o m =>
    cases hh; cases hw
    exact .intro (x := execSel h o m) rfl (by unfold execSel; exact rfl) fun _ _ => .indexed (.writePair _ _)
  | unpack h o m =>
    cases hh; cases hw
    exact .intro (x := execUnpack h o m) rfl (by unfold execUnpack; exact rfl) fun _ _ => .indexed (.writePair _ _)
  | ldl h o imm m => cases hh; cases hw; exact .intro (x := execLdl h o imm m) rfl rfl fun _ _ => .localLoad o imm m
  | ldb h o imm m => cases hh; cases hw; exact .intro (x := execLdb h o imm m) rfl rfl fun _ _ => .localLoad o imm m
  | _ => cases hw

/-- Settles O59: each body keeps the frame of its destinations, write by write. -/
theorem registerFrame : Obligations.RegisterFrame :=
  fun _ _ _ _ _ _ hh hw he ht => (writesOnly hh hw).frame he ht

end Sys2Proof.Claim
end

