-- ==== Sys2Proof/Proofs/EventsFromOutside.lean ====
section
/-!
What comes from outside: a peer's and the host's accesses, the messages of a reduction, register writes (R83, R145, R418,
R423, R431, R435, R436), and O51.
-/
namespace Sys2Proof.Machine

set_option Elab.async false

/-! ### Writes to HBM -/

theorem Mem.read_writeN (m : Mem) (a : Nat) (bs : List Byte) (x : Nat) (hw : Mem.wf m = true) :
    Mem.read (Mem.writeN m a bs) x = if a ≤ x ∧ x < a + bs.length then bs.getD (x - a) 0 else Mem.read m x := by
  split
  · next h =>
    have hi : x - a < bs.length := by omega
    have hr := Mem.read_writeN_in bs m a (x - a) hi hw
    rw [Nat.add_sub_cancel' h.1] at hr
    rw [hr, List.getD_eq_getElem bs 0 hi]
  · next h => exact Mem.read_writeN_out bs m a x (by omega) hw

theorem State.wf_hbm_of_memOk {s : State} (h : s.memOk = true) : Mem.wf s.hbm = true := by
  simp only [State.memOk, Bool.and_eq_true] at h
  exact h.1.1

/-- R270: the bytes that a write of the central die leaves in HBM. -/
theorem State.read_hbm_storeHbm {s : State} (h : s.memOk = true) (a : Nat) (bs : List Byte) (x : Nat) :
    Mem.read (s.storeHbm a bs).hbm x = if a ≤ x ∧ x < a + bs.length then bs.getD (x - a) 0 else Mem.read s.hbm x :=
  Mem.read_writeN s.hbm a bs x (State.wf_hbm_of_memOk h)

/-! ### A peer's request (R435) -/

section
variable {s : State} {r : PeerReq} (hsize : PeerOp.sizeOk r.size r.op = true) (hown : s.ownEarlier r = false)
include hsize hown

theorem exec_peerRequest_of_not_active (hst : (s.ctx r.ctx).st ≠ .active) : exec (.peerRequest r) s = .next (s.dropRequest r) := by
  show execPeerRequest r s = _
  simp [execPeerRequest, hsize, hown, hst]

/-- A request that the checks of R252 refuse is dropped, whatever the state of its context. -/
theorem exec_peerRequest_of_fail {x : Trap}
    (hreach : s.reach r.ctx { r := PeerOp.isRead r.op, w := PeerOp.isWrite r.op, noHost := PeerOp.isAtomic r.op } anyPage
      [⟨0, r.va, r.size⟩] = .fail x) :
    exec (.peerRequest r) s = .next (s.dropRequest r) := by
  by_cases hst : (s.ctx r.ctx).st = .active
  · show execPeerRequest r s = _
    simp [execPeerRequest, hsize, hown, hst, hreach]
  · exact exec_peerRequest_of_not_active hsize hown hst

end

theorem State.performAccess_write_hbm (s : State) (lane va n a peer : Nat) (bs : List Byte) (got : Option Nat) :
    (s.performAccess { lane := lane, va := va, size := n, place := .hbm a, op := .write bs, got := got } peer).2 =
      s.storeHbm a bs := rfl

/-- A write that passes the checks is performed at the home slices of the place that the tables give. -/
theorem exec_peerRequest_write {s : State} {ctx a : Nat} {va : Word64} {bs : List Byte} (hst : (s.ctx ctx).st = .active)
    (hown : s.ownEarlier ⟨ctx, va, bs.length, .write bs⟩ = false)
    (hreach : s.reach ctx { w := true } anyPage [⟨0, va, bs.length⟩] = .ok [.hbm a]) :
    exec (.peerRequest ⟨ctx, va, bs.length, .write bs⟩) s =
      .next ((s.dropRequest ⟨ctx, va, bs.length, .write bs⟩).storeHbm a bs) := by
  show execPeerRequest _ s = _
  simp [execPeerRequest, PeerOp.sizeOk, PeerOp.isRead, PeerOp.isWrite, PeerOp.isAtomic, PeerOp.access, hown, hst, hreach,
    State.performAccess_write_hbm]

/-! ### The host's access (R431) -/

/-- Bytes that end within their 4 KiB of the striped view are written in one run. -/
theorem State.stripedAccess_write {s : State} {pa a : Nat} {bs : List Byte} (fuel : Nat) (hbs : bs ≠ [])
    (hpage : pa % 4096 + bs.length ≤ 4096) (ha : hbmOf pa = some a) :
    State.stripedAccess (some bs) (fuel + 2) s pa bs.length = s.storeHbm a bs := by
  have hlen : bs.length ≠ 0 := mt List.length_eq_zero_iff.mp hbs
  have hrun : min bs.length (4096 - pa % 4096) = bs.length := by omega
  simp [State.stripedAccess, hlen, hrun, ha]

theorem exec_hostBar2Access_write {s : State} {fn off a : Nat} {bs : List Byte} (hfn : fn ≤ 64) (hbs : bs ≠ [])
    (hoff : off + bs.length ≤ 2 ^ 36) (hpage : (0x100 * 2 ^ 32 + (s.func fn).bar2 + off) % 4096 + bs.length ≤ 4096)
    (ha : hbmOf (0x100 * 2 ^ 32 + (s.func fn).bar2 + off) = some a) :
    exec (.hostBar2Access fn ⟨off, bs.length, some bs⟩) s = .next (s.storeHbm a bs) := by
  have taken : ¬ (64 < fn ∨ 2 ^ 36 < off + bs.length ∨ (some bs).any (fun b => b.length != bs.length) = true) := by
    simp
    omega
  show execHostBar2Access fn _ s = _
  rw [execHostBar2Access, if_neg taken, State.stripedAccess_write _ hbs hpage ha]

/-! ### Messages of a reduction (R436) -/

theorem State.group_of_get? {s : State} {ctx n : Nat} {g : RGroup} (h : AMap.get? (s.ctx ctx).groups n = some g) :
    s.group ctx n = g := by
  simp [State.group, AMap.getD, h]

/-- The operation that has taken number k in a group. -/
def State.rblkOf (s : State) (ctx group k : Nat) : Option RblkOp :=
  (s.ctx ctx).rblk.find? fun o => o.group == group && o.k == k && o.phase != 0

theorem State.group_eq_of_rblkOf {s : State} {ctx group k : Nat} {o : RblkOp} (h : s.rblkOf ctx group k = some o) :
    o.group = group := by
  have := List.find?_some h
  simp only [Bool.and_eq_true, beq_iff_eq] at this
  exact this.1.1

/-- A group that is not defined keeps nothing of a peer's message. -/
theorem State.rblkReceive_of_no_group {s : State} {m : RblkMsg} (hg : AMap.get? (s.ctx m.ctx).groups m.group = none) :
    s.rblkReceive none m = s := by
  simp only [State.rblkReceive, hg]

section
variable {s : State} {m : RblkMsg} {g : RGroup} {o : RblkOp} (hg : AMap.get? (s.ctx m.ctx).groups m.group = some g)
include hg

theorem State.rblkReceive_of_no_op (ho : s.rblkOf m.ctx m.group m.k = none) :
    s.rblkReceive none m = if g.issued ≤ m.k then s.keepRblk m else s := by
  unfold State.rblkOf at ho
  simp only [State.rblkReceive, hg, ho]

theorem State.rblkReceive_of_op (ho : s.rblkOf m.ctx m.group m.k = some o) :
    s.rblkReceive none m = if o.phase ≤ 1 ∧ m.phase ≠ 3 then s.keepRblk m else s.rblkTake m.ctx o m := by
  unfold State.rblkOf at ho
  simp [State.rblkReceive, hg, ho, RblkOp.unsent]

end

/-- A message of this device to a group that is not defined: an abort is dropped, another ends the sender's operation. -/
theorem State.rblkReceive_own_of_no_group {s : State} {m : RblkMsg} (sender : Nat)
    (hg : AMap.get? (s.ctx m.ctx).groups m.group = none) :
    s.rblkReceive (some sender) m = if m.phase = 3 then s else s.rblkRefuse sender m := by
  simp only [State.rblkReceive, hg]

/-- The fields of a phase-1 message by which a rank finds a mismatch. -/
def RblkOp.Formed (o : RblkOp) (g : RGroup) (m : RblkMsg) : Prop :=
  m.nranks = g.members.length ∧ m.crc = g.crc ∧ m.rank < g.members.length ∧ m.rank ≠ g.rank ∧
    m.nblk = o.nblk ∧ m.tag = o.tag

section
variable {s : State} {ctx : Nat} {g : RGroup} {o : RblkOp} {m : RblkMsg}

/-- Phase 1: the codes of a well-formed message are kept, another ends the operation with OPERAND. -/
theorem State.rblkTake_codes (hg : s.group ctx o.group = g) (hm : m.phase = 1) :
    (o.Formed g m → s.rblkTake ctx o m = s.putRblk ctx { o with got1 := AMap.set o.got1 m.rank m }) ∧
    (¬ o.Formed g m → s.rblkTake ctx o m = s.rblkFault ctx o cOPERAND 0 false) := by
  subst hg
  have agree : (!(m.nranks == (s.group ctx o.group).members.length && m.crc == (s.group ctx o.group).crc &&
      decide (m.rank < (s.group ctx o.group).members.length) && m.rank != (s.group ctx o.group).rank) ||
      m.nblk != o.nblk || m.tag != o.tag) = false ↔ o.Formed (s.group ctx o.group) m := by
    simp [RblkOp.Formed, and_assoc]
  simp only [State.rblkTake, hm]
  refine ⟨fun h => if_neg ?_, fun h => if_pos ?_⟩
  · rw [agree.mpr h]
    exact Bool.false_ne_true
  · exact eq_true_of_ne_false (mt agree.mp h)

theorem State.rblkTake_mants (hm : m.phase = 2) :
    s.rblkTake ctx o m = s.putRblk ctx { o with got2 := AMap.set o.got2 m.rank m } := by
  simp only [State.rblkTake, hm]

theorem State.rblkTake_abort (hm : m.phase = 3) : s.rblkTake ctx o m = s.rblkFault ctx o cACCESS 0 false := by
  simp only [State.rblkTake, hm]

end

theorem exec_rblkMessage_of_peer {s : State} {m : RblkMsg}
    (h : (s.outbox.find? fun x => x.1 == Config.deviceNumber 0 && x.2.2 == m) = none) :
    exec (.rblkMessage m) s = .next (s.rblkReceive none m) := by
  show execRblkMessage m s = _
  simp only [execRblkMessage, h]

theorem exec_rblkMessage_of_own {s : State} {m : RblkMsg} {x : Nat × Nat × RblkMsg}
    (h : (s.outbox.find? fun x => x.1 == Config.deviceNumber 0 && x.2.2 == m) = some x) :
    exec (.rblkMessage m) s = .next ({ s with outbox := s.outbox.erase x }.rblkReceive (some x.2.1) m) := by
  show execRblkMessage m s = _
  simp only [execRblkMessage, h]

/-! ### Registers from outside (R409, R411, R435) -/

section
variable {s : State} {ctx num : Nat} {v : Word64} {any : Bool}

theorem State.regEvent_of_ok (ha : any = true ∨ (s.ctx ctx).grids = []) (hv : s.regOk ctx num v = true) :
    s.regEvent ctx num v any = s.setReg ctx num v := by
  refine if_pos ?_
  simpa [hv] using ha

theorem State.regEvent_of_refused (h : s.regOk ctx num v = false ∨ any = false ∧ (s.ctx ctx).grids ≠ []) :
    s.regEvent ctx num v any = s := by
  refine if_neg ?_
  rcases h with hv | ⟨ha, hl⟩
  · simp [hv]
  · simp [ha, hl]

end

theorem windowOk_iff (v : Word64) : windowOk v = true ↔ v.extractLsb' 37 26 = 0 := by
  rw [windowOk, beq_iff_eq, ← BitVec.toNat_inj, BitVec.extractLsb'_toNat, Nat.shiftRight_eq_div_pow]
  rfl

/-- R418: FRTAIL goes forward only, and not past FRHEAD. -/
theorem State.regOk_frtail (s : State) (ctx : Nat) (v : Word64) :
    s.regOk ctx rFRTAIL v = true ↔ s.regN ctx rFRTAIL ≤ v.toNat ∧ v.toNat ≤ s.regN ctx rFRHEAD := by
  show (decide _ && decide _) = true ↔ _
  rw [Bool.and_eq_true, decide_eq_true_iff, decide_eq_true_iff]

end Sys2Proof.Machine

namespace Sys2Proof.Claim
open Machine

/-- What a write of HBM answers: its bytes, and every other byte, the host's memory and the cores as before. -/
theorem exists_next_changed {i : Instr} {s u : State} {a : Nat} {bs : List Byte} (hx : exec i s = .next (u.storeHbm a bs))
    (hm : u.memOk = true) (hbm : u.hbm = s.hbm) (host : u.host = s.host) (cores : u.cores = s.cores) :
    ∃ t, exec i s = .next t ∧
      (∀ x, Mem.read t.hbm x = if a ≤ x ∧ x < a + bs.length then bs.getD (x - a) 0 else Mem.read s.hbm x) ∧
      t.host = s.host ∧ t.cores = s.cores :=
  ⟨_, hx, fun x => hbm ▸ State.read_hbm_storeHbm hm a bs x, host, cores⟩

/-- A register's write from outside: performed in its limits, and without effect otherwise. -/
theorem register_event {i : Instr} {s : State} {ctx num : Nat} {v : Word64} {any : Bool}
    (hx : exec i s = .next (s.regEvent ctx num v any)) :
    (any = true ∨ (s.ctx ctx).grids = [] → s.regOk ctx num v = true → exec i s = .next (s.setReg ctx num v)) ∧
    (s.regOk ctx num v = false ∨ any = false ∧ (s.ctx ctx).grids ≠ [] → exec i s = .next s) :=
  ⟨fun ha hv => by rw [hx, State.regEvent_of_ok ha hv], fun h => by rw [hx, State.regEvent_of_refused h]⟩

/-- R436: a message from a peer that meets an operation of its number. -/
theorem rblkMessage_meets_op {s : State} {m : RblkMsg} {g : RGroup} {o : RblkOp}
    (hx : exec (.rblkMessage m) s = .next (s.rblkReceive none m)) (hg : AMap.get? (s.ctx m.ctx).groups m.group = some g)
    (ho : s.rblkOf m.ctx m.group m.k = some o) :
    (o.phase ≤ 1 → m.phase ≠ 3 → exec (.rblkMessage m) s = .next (s.keepRblk m)) ∧
    (1 < o.phase → m.phase = 1 → o.Formed g m → exec (.rblkMessage m) s =
      .next (s.putRblk m.ctx { o with got1 := AMap.set o.got1 m.rank m })) ∧
    (1 < o.phase → m.phase = 1 → ¬ o.Formed g m → exec (.rblkMessage m) s = .next (s.rblkFault m.ctx o cOPERAND 0 false)) ∧
    (1 < o.phase → m.phase = 2 → exec (.rblkMessage m) s =
      .next (s.putRblk m.ctx { o with got2 := AMap.set o.got2 m.rank m })) ∧
    (m.phase = 3 → exec (.rblkMessage m) s = .next (s.rblkFault m.ctx o cACCESS 0 false)) := by
  rw [hx, State.rblkReceive_of_op hg ho]
  have hgo : s.group m.ctx o.group = g := by
    rw [State.group_eq_of_rblkOf ho]
    exact State.group_of_get? hg
  have late : 1 < o.phase → ¬ (o.phase ≤ 1 ∧ m.phase ≠ 3) := by omega
  refine ⟨fun hp hm => ?_, fun hp hm hf => ?_, fun hp hm hf => ?_, fun hp hm => ?_, fun hm => ?_⟩
  · rw [if_pos ⟨hp, hm⟩]
  · rw [if_neg (late hp), (State.rblkTake_codes hgo hm).1 hf]
  · rw [if_neg (late hp), (State.rblkTake_codes hgo hm).2 hf]
  · rw [if_neg (late hp), State.rblkTake_mants hm]
  · rw [if_neg fun h => h.2 hm, State.rblkTake_abort hm]

/-- Settles O51. -/
theorem eventsFromOutside : Obligations.EventsFromOutside := by
  refine ⟨fun s hm => ⟨?_, ?_, ?_, ?_, ?_, ?_, ?_⟩, fun s ctx n v => ⟨?_, ?_, ?_, ?_, ?_, ?_⟩⟩
  · intro ctx va bs a hst _ _ hown hreach
    exact exists_next_changed (exec_peerRequest_write hst hown hreach) hm rfl rfl rfl
  · intro r hsize hown hst
    exact exec_peerRequest_of_not_active hsize hown hst
  · intro r x hsize hown hreach
    exact exec_peerRequest_of_fail hsize hown hreach
  · intro fn off bs a hfn hbs hoff pa hpage ha
    exact exists_next_changed (exec_hostBar2Access_write hfn hbs hoff hpage ha) hm rfl rfl rfl
  · intro m own group op
    refine ⟨fun hown => ?_, fun x hown hg => ?_⟩
    · have hx := exec_rblkMessage_of_peer hown
      refine ⟨fun hg => ?_, fun g hg ho => ?_, fun g o hg ho => rblkMessage_meets_op hx hg ho⟩
      · rw [hx, State.rblkReceive_of_no_group hg]
      · rw [hx, State.rblkReceive_of_no_op hg ho]
        rfl
    · rw [exec_rblkMessage_of_own hown]
      exact congrArg _ (State.rblkReceive_own_of_no_group x.2.1 hg)
  · intro ctx group k hg
    exact congrArg _ (State.rblkReceive_of_no_group hg)
  · intro ctx group k o g hg ho
    have hr := State.rblkReceive_of_op (m := ⟨ctx, group, k, 3, 0, 0, 0, 0, 0, [], []⟩) hg ho
    exact congrArg _ (hr.trans (if_neg fun h => h.2 rfl))
  · exact register_event rfl
  · exact register_event rfl
  · exact register_event rfl
  · intro hn
    exact register_event (if_pos hn)
  · intro hn
    have hx : exec (.peerWindowWrite ctx n v) s = .next (if windowOk v then s.setWindow ctx n v else s) :=
      if_neg (Nat.not_le.mpr hn)
    rw [hx]
    refine ⟨fun hv => ?_, fun hv => ?_⟩
    · rw [if_pos ((windowOk_iff v).mpr hv)]
      rfl
    · rw [if_neg (mt (windowOk_iff v).mp hv)]
  · exact State.regOk_frtail s ctx v

end Sys2Proof.Claim
end

