-- ==== Sys2Proof/Proofs/OffsetBranches.lean ====
section
/-!
Branches to a slot offset (R13, R95, R102, R103, R105, R106), and O18.
-/
namespace Sys2Proof.Machine

set_option Elab.async false

theorem slotOk_iff (n : Int) : slotOk n = true ↔ 0 ≤ n ∧ n < 2 ^ 47 * 10 := by
  simp [slotOk]

theorem Env.badTarget_of_inside {e : Env} {t : BitVec 21} (h : 0 ≤ e.target t ∧ e.target t < 2 ^ 47 * 10) : e.badTarget t = none :=
  if_pos ((slotOk_iff _).mpr h)

theorem Env.badTarget_of_outside {e : Env} {t : BitVec 21} (h : ¬ (0 ≤ e.target t ∧ e.target t < 2 ^ 47 * 10)) :
    e.badTarget t = some ⟨cACCESS, addrOf (e.target t), none⟩ :=
  if_neg (mt (slotOk_iff _).mp h)

end Sys2Proof.Machine

namespace Sys2Proof.Claim
open Machine

section
variable {s : State} {h : Hdr} {os : List Operand} {e : Env} (I : Issues s h os e)
include I

/-- An instruction whose front looks at its operand fields alone performs its body. -/
theorem Issues.exec_fields {i : Instr} {x : State → Host.Outcome State Fault Refusal} {ok : Env → Bool} {body : Env → Eff}
    (hi : exec i = x) (hx : x = Machine.perform h os { ok := ok } noSync body) (hok : ok e = true) :
    exec i e.s = .next (e.finish (body e)) := by
  rw [hi, hx]
  exact I.perform (f := { ok := ok }) (fun hf => absurd hf Bool.false_ne_true) (fun _ hb => absurd hb List.not_mem_nil) rfl hok (Or.inl rfl)

end

section
variable {s : State} {h : Hdr} {o : Ops2} {t u : BitVec 21} {e : Env} (I : Issues s h o.list e)
include I

theorem bra_branches (hok : e.ops2Ok o unused unused = true) :
    (e.badTarget t = none → Branches (.bra h o t u) e e.s (e.twoArms (addrOf (e.target t)))) ∧
    (∀ x, e.badTarget t = some x → Raises (.bra h o t u) e x) := by
  have hx := I.exec_fields (i := .bra h o t u) (x := execBra h o t u) rfl rfl hok
  refine ⟨fun ht => branches_of hx ?_, fun x ht => raises_of_finish hx ?_⟩ <;> rw [ht]

theorem call_branches (hok : e.ops2Ok o { kinds := [.s] } unused = true) :
    (e.badTarget t = none → Branches (.call h o t u) e (e.writeS e.s (sregNo o.d) e.next) (e.twoArms (addrOf (e.target t)))) ∧
    (∀ x, e.badTarget t = some x → Raises (.call h o t u) e x) := by
  have hx := I.exec_fields (i := .call h o t u) (x := execCall h o t u) rfl rfl hok
  refine ⟨fun ht => branches_of hx ?_, fun x ht => raises_of_finish hx ?_⟩ <;> rw [ht]

/-- LOOPD branches while the count that it leaves is not zero. -/
theorem loopd_branches (hok : e.ops2Ok o { kinds := [.s] } unused = true) :
    let c := e.sig.sreg (sregNo o.d) - 1
    (c = 0 → Retires (.loopd h o t u) e (e.writeS e.s (sregNo o.d) c)) ∧
    (c ≠ 0 → e.badTarget t = none →
      Branches (.loopd h o t u) e (e.writeS e.s (sregNo o.d) c) (e.twoArms (addrOf (e.target t)))) ∧
    (c ≠ 0 → ∀ x, e.badTarget t = some x → Raises (.loopd h o t u) e x) := by
  have hx := I.exec_fields (i := .loopd h o t u) (x := execLoopd h o t u) rfl rfl hok
  refine ⟨fun hc => ?_, fun hc ht => branches_of hx ?_, fun hc x ht => raises_of_finish hx ?_⟩
  · rw [if_pos hc] at hx
    exact hx
  · rw [if_neg hc, ht]
  · rw [if_neg hc, ht]

/-- The targets of BTRI are looked at where a lane takes them, that of true first. -/
theorem btri_branches {p : BitVec 3} (hp : o.a = .p p) (hok : e.ops2Ok o unused { kinds := [.p] } = true) {at_ au : Mask}
    (hat : ∀ l : Lane, at_.getLsbD l.val = (e.act.getLsbD l.val && (e.sig.preg p.toNat)[l] == .t))
    (hau : ∀ l : Lane, au.getLsbD l.val = (e.act.getLsbD l.val && (e.sig.preg p.toNat)[l] == .u)) :
    ((at_ ≠ 0 → e.badTarget t = none) → (au ≠ 0 → e.badTarget u = none) → Branches (.btri h o t u) e e.s
      [⟨0, at_, addrOf (e.target t)⟩, ⟨1, e.path.mask &&& ~~~at_ &&& ~~~au, e.next⟩, ⟨2, au, addrOf (e.target u)⟩]) ∧
    (at_ ≠ 0 → ∀ x, e.badTarget t = some x → Raises (.btri h o t u) e x) ∧
    ((at_ ≠ 0 → e.badTarget t = none) → au ≠ 0 → ∀ x, e.badTarget u = some x → Raises (.btri h o t u) e x) := by
  have hx := I.exec_fields (i := .btri h o t u) (x := execBtri h o t u) rfl rfl hok
  have pred : e.predSrc o.a = e.sig.preg p.toNat := by rw [hp]; rfl
  simp only [pred, Env.act_and_maskOf hat, Env.act_and_maskOf hau] at hx
  have first : (at_ ≠ 0 → e.badTarget t = none) → (if at_ = 0 then none else e.badTarget t) = none := by
    intro ht
    split
    · rfl
    · exact ht ‹_›
  refine ⟨fun ht hu => branches_of hx ?_, fun hne x ht => raises_of_finish hx ?_, fun ht hne x hu => raises_of_finish hx ?_⟩
  · have second : (if au = 0 then none else e.badTarget u) = none := by
      split
      · rfl
      · exact hu ‹_›
    simp only [first ht, second, Option.orElse_none]
  · simp only [if_neg hne, ht, Option.orElse_some]
  · simp only [first ht, if_neg hne, hu, Option.orElse_none]

end

/-- Settles O18, from what each branch does with a target that lies in the address space, and with one that does not. -/
theorem branchesToAnOffset : Obligations.BranchesToAnOffset := by
  intro s h o t u e I
  refine ⟨fun hok => ?_, fun n neg abs hd hok => ?_, fun p hp hok at_ au hat hau => ?_⟩
  · obtain ⟨goes, faults⟩ := bra_branches (t := t) (u := u) I hok
    exact ⟨fun ht => goes (Env.badTarget_of_inside ht), fun ht => faults _ (Env.badTarget_of_outside ht)⟩
  · have reg : sregNo o.d = n.toNat := by rw [hd]; rfl
    obtain ⟨calls, faults⟩ := call_branches (t := t) (u := u) I hok
    obtain ⟨ends, loops, misses⟩ := loopd_branches (t := t) (u := u) I hok
    rw [reg] at calls ends loops misses
    exact ⟨fun ht => calls (Env.badTarget_of_inside ht), fun ht => faults _ (Env.badTarget_of_outside ht),
      fun hc => hc ▸ ends hc, fun hc ht => loops hc (Env.badTarget_of_inside ht),
      fun hc ht => misses hc _ (Env.badTarget_of_outside ht)⟩
  · obtain ⟨goes, first, second⟩ := btri_branches (t := t) (u := u) I hp hok hat hau
    exact ⟨fun ht hu => goes (fun h0 => Env.badTarget_of_inside (ht h0)) (fun h0 => Env.badTarget_of_inside (hu h0)),
      fun h0 ht => first h0 _ (Env.badTarget_of_outside ht),
      fun ht h0 hu => second (fun h1 => Env.badTarget_of_inside (ht h1)) h0 _ (Env.badTarget_of_outside hu)⟩

end Sys2Proof.Claim
end

