-- ==== Sys2Proof/Proofs/PathSplit.lean ====
section
/-!
What a split leaves of a path (R94, R95), and O20.
-/
namespace Sys2Proof.Machine

set_option Elab.async false

/-- A row of deferred entries, read through what does not depend on the entries' ids, is a row of arms. -/
theorem map_deferred_zip {α : Type} (shape : StackEntry → α) (l : List Arm) (id nest pidx : Nat) (hd : Bool)
    {f : Arm → α} (hf : ∀ a i, shape (a.deferred i nest pidx hd) = f a) :
    ((l.zip (List.range l.length)).map fun a => a.1.deferred (id + a.2) nest pidx hd).map shape = l.map f := by
  have byArm : (shape ∘ fun a : Arm × Nat => a.1.deferred (id + a.2) nest pidx hd) = f ∘ Prod.fst := funext fun a => hf a.1 _
  rw [List.map_map, byArm, ← List.map_map, List.map_fst_zip (by simp)]

end Sys2Proof.Machine

namespace Sys2Proof.Claim
open Machine

/-- Settles O20, from the two forms of a split: an undivided signature has an empty stack. -/
theorem splitOpensANest : Obligations.SplitOpensANest := by
  intro g p l _ _
  refine ⟨fun undivided alone => ?_, fun divided => ?_⟩
  · have empty : g.stack.isEmpty = true := by rw [undivided]; rfl
    simp only [Sig.split, if_pos empty, List.map_map, List.map_cons]
    exact ⟨rfl, rfl⟩
  · have used : ¬ g.stack.isEmpty = true := by rwa [List.isEmpty_iff]
    simp only [Sig.split, if_neg used, List.map_append, List.map_cons, List.map_map]
    refine ⟨rfl, ?_⟩
    rw [← List.map_map, map_deferred_zip _ _ _ _ _ _ (f := fun a => (false, a.mask, p.idx, a.pc.toNat, 0)) fun _ _ => rfl]
    rfl

end Sys2Proof.Claim
end

