-- ==== Sys2Proof/Proofs/TrapReturns.lean ====
section
/-!
TRAP and BPT, and the return from a handler (R108, R417, R425), and O22.
-/
namespace Sys2Proof.Machine

set_option Elab.async false

section
variable {e : Env} {l : Lane} (hl : lowest e.path.mask = some l)
include hl

theorem Env.tLow_of_lowest (n : Nat) : e.tLow n = (e.port.treg n)[l] := by
  simp only [Env.tLow, hl]

/-- With no nest of the handler open, a valid PC in t1 is where the path goes on from, and any other is MISALIGN. -/
theorem Env.tret_of_no_nest (hn : e.handlerNest = false) (f : Word64 → Word64) :
    e.tret f = if pcValid (e.port.treg 1)[l] = true then .moved (e.leaveHandler e.s (f (e.port.treg 1)[l]))
      else .trap ⟨cMISALIGN, (e.port.treg 1)[l], none⟩ := by
  rw [Env.tret, hn, Env.tLow_of_lowest hl]
  cases pcValid (e.port.treg 1)[l] <;> rfl

end

theorem Env.tret_of_nest {e : Env} (hn : e.handlerNest = true) (f : Word64 → Word64) : e.tret f = .trap (trapOf cPRIV) :=
  if_pos hn

end Sys2Proof.Machine

namespace Sys2Proof.Claim
open Machine

/-- R416: an instruction that is reserved to handlers raises PRIV outside one. -/
theorem raises_priv {i : Instr} {h : Hdr} {o : Ops4} {s : State} {e : Env} (hh : hdrOf i = some h)
    (hd : demand i = some { four o unused unused unused unused with handler := true })
    (he : (s.env.map fun e0 => e0.guarded h) = some e) (hp : e.path.handler = false) : Raises i e ⟨0x19, 0, none⟩ :=
  raises_of_firstFailure hh hd he (by simp [firstFailure, four, hp])

section
variable {s : State} {h : Hdr} {o : Ops4} {e : Env} (I : Issues s h o.list e)
  (hok : e.ops4Ok o unused unused unused unused = true) (hp : e.path.handler = true)
include I hok hp

/-- In a handler, TRET performs its body. -/
theorem exec_tret {i : Instr} {x : State → Host.Outcome State Fault Refusal} {body : Env → Eff} (hi : exec i = x)
    (hx : x = Machine.perform h o.list (tretFront o) noSync body) : exec i e.s = .next (e.finish (body e)) := by
  rw [hi, hx]
  refine I.perform (fun hf => absurd hf Bool.false_ne_true) (fun _ hb => absurd hb List.not_mem_nil) ?_ hok (Or.inl rfl)
  simp [tretFront, hp]

theorem exec_tretRetry : exec (.tretRetry h o) e.s = .next (e.finish (e.tret id)) :=
  exec_tret I hok hp (x := execTretRetry h o) rfl rfl

theorem exec_tretSkip : exec (.tretSkip h o) e.s = .next (e.finish (e.tret nextPc)) :=
  exec_tret I hok hp (x := execTretSkip h o) rfl rfl

theorem tret_raises_of_nest (hn : e.handlerNest = true) :
    Raises (.tretRetry h o) e ⟨0x19, 0, none⟩ ∧ Raises (.tretSkip h o) e ⟨0x19, 0, none⟩ ∧ Raises (.tretKill h o) e ⟨0x19, 0, none⟩ :=
  ⟨raises_of_finish (exec_tretRetry I hok hp) (Env.tret_of_nest hn _),
    raises_of_finish (exec_tretSkip I hok hp) (Env.tret_of_nest hn _),
    raises_of_finish (exec_tret I hok hp (x := execTretKill h o) rfl rfl) (if_pos hn)⟩

/-- R417: with no nest of the handler open, .kill reports what t0 to t5 hold in the lowest lane, and the lanes of t3. -/
theorem exec_tretKill_of_no_nest (hn : e.handlerNest = false) {l : Lane} (hl : lowest e.path.mask = some l) :
    exec (.tretKill h o) e.s = .next (e.killWith e.s ⟨((e.port.treg 0)[l]).toNat % 256, (e.port.treg 1)[l], (e.port.treg 2)[l],
      ((e.port.treg 5)[l]).setWidth 32 ++ (e.port.treg 4)[l],
      maskOf fun j => ((e.port.treg 3)[j]).getLsbD 0, maskOf fun j => ((e.port.treg 3)[j]).getLsbD 1⟩) := by
  rw [exec_tret I hok hp (x := execTretKill h o) rfl rfl, if_neg (by rw [hn]; exact Bool.false_ne_true)]
  simp only [Env.tLow_of_lowest hl]
  rfl

end

/-- Settles O22, from what TRET does with and without a nest of the handler. -/
theorem trapsAndReturns : Obligations.TrapsAndReturns := by
  refine ⟨fun s h o q imm e => ⟨fun I hok => ?_, fun I hok => ?_⟩, fun s h o e l I hok hl => ⟨fun hp => ?_, fun hp hn => ?_, fun hp hn => ?_⟩⟩
  · exact raises_of_finish (I.exec_fields (i := .trap h q imm) (x := execTrap h q imm) rfl rfl hok) rfl
  · refine raises_of_finish (I.exec_fields (i := .bpt h o) (x := execBpt h o) rfl rfl hok) ?_
    cases ha : o.a with
    | imm i => rfl
    | s n neg abs => simp [Env.ops4Ok, Env.fieldOk, ha] at hok
    | _ => rfl
  · exact ⟨raises_priv rfl rfl I.env hp, raises_priv rfl rfl I.env hp, raises_priv rfl rfl I.env hp⟩
  · exact tret_raises_of_nest I hok hp hn
  · refine ⟨fun hv => ?_, fun hv => ?_, ?_⟩
    · have moves := fun f => (Env.tret_of_no_nest hl hn f).trans (if_pos hv)
      unfold Moves
      rw [exec_tretRetry I hok hp, exec_tretSkip I hok hp, moves, moves]
      exact ⟨rfl, rfl⟩
    · have misaligned := fun f => (Env.tret_of_no_nest hl hn f).trans (if_neg (by rw [hv]; exact Bool.false_ne_true))
      exact ⟨raises_of_finish (exec_tretRetry I hok hp) (misaligned _), raises_of_finish (exec_tretSkip I hok hp) (misaligned _)⟩
    · exact ⟨_, _, maskOf_getLsbD _, maskOf_getLsbD _, exec_tretKill_of_no_nest I hok hp hn hl⟩

end Sys2Proof.Claim
end

