-- ==== Sys2Proof/Proofs/Predicates.lean ====
section
/-!
Predicates: three-valued logic, setting and moving (R117 to R119), and O14.
-/
namespace Sys2Proof.Machine

set_option Elab.async false

/-- A vector is the one that its elements make. -/
theorem vector_ofFn_getElem {α : Type} {n : Nat} (v : Vector α n) : (Vector.ofFn fun i : Fin n => v[i]) = v := by
  ext i hi
  simp

end Sys2Proof.Machine

namespace Sys2Proof.Claim
open Machine

section
variable {s : State} {h : Hdr} {o : Ops4} {m : XMod} {e : Env} (I : Issues s h o.list e)
include I

theorem plop_gives (hok : e.ops4Ok o pPos pPos (if m.op.toNat ≤ 2 ∨ m.op.toNat = 4 then pPos else unused) unused = true) :
    GivesPred (.plop h o m) e o.d fun l => plopCode m.op.toNat (e.predSrc o.a)[l] (e.predSrc o.b)[l] := by
  have hx := I.exec_fields (i := .plop h o m) (x := execPlop h o m) rfl (by unfold execPlop; exact rfl) (by exact hok)
  exact hx

/-- PSET of a test of A. -/
theorem pset_gives_test (hsel : m.sel.toNat = 0) (hok : e.ops4Ok o pPos { kinds := [.v, .s, .imm] } unused unused = true) :
    GivesPred (.pset h o m) e o.d fun l => Tri.ofBool ((e.raw o.a)[l] != 0) := by
  have hx := I.exec_fields (i := .pset h o m) (x := execPset h o m) rfl (by unfold execPset; exact rfl) (by
    simp only [hsel]
    cases o.a <;> simpa using hok)
  simp only [hsel] at hx
  exact hx

/-- PSET of a constant code. -/
theorem pset_gives_code (hsel : m.sel.toNat = 1) (hok : e.ops4Ok o pPos unused unused unused = true) :
    GivesPred (.pset h o m) e o.d fun _ => Tri.ofCode m.op.toNat := by
  have hx := I.exec_fields (i := .pset h o m) (x := execPset h o m) rfl (by unfold execPset; exact rfl) (by
    simp only [hsel]
    cases o.a <;> simpa using hok)
  simp only [hsel] at hx
  exact hx

/-- PSET of the bits of two s registers. -/
theorem pset_gives_bits {n : BitVec 6} {neg abs : Bool} (hsel : m.sel.toNat = 2) (ha : o.a = .s n neg abs)
    (heven : n.toNat % 2 = 0) (hok : e.ops4Ok o pPos { kinds := [.s] } unused unused = true) :
    GivesPred (.pset h o m) e o.d fun l =>
      Tri.ofBool ((e.sig.sreg (n.toNat + 1) ++ e.sig.sreg n.toNat).getLsbD l.val) := by
  have hx := I.exec_fields (i := .pset h o m) (x := execPset h o m) rfl (by unfold execPset; exact rfl) (by
    simp only [hsel, ha, heven]
    simpa using hok)
  simp only [hsel, ha] at hx
  exact hx

theorem pmov_gives_pred {n k : BitVec 3} (hd : o.d = .p n) (ha : o.a = .p k) (hok : e.ops4Ok o pPos pPos unused unused = true) :
    GivesPred (.pmov h o m) e o.d fun l => (e.sig.preg k.toNat)[l] := by
  have hx := I.exec_fields (i := .pmov h o m) (x := execPmov h o m) rfl (by unfold execPmov; exact rfl)
    (by simpa [Env.ops4Ok, Env.fieldOk, hd, ha, pPos] using hok)
  simp only [hd, ha] at hx
  rw [GivesPred, vector_ofFn_getElem, hd]
  exact hx

/-- PMOV of the codes in a register (R119). -/
theorem pmov_gives_codes {n : BitVec 3} (hd : o.d = .p n) (ha : o.a.isP = false) (hok : e.ops4Ok o pPos vPos unused unused = true) :
    GivesPred (.pmov h o m) e o.d fun l => Tri.ofCode ((e.raw o.a)[l]).toNat := by
  have hx := I.exec_fields (i := .pmov h o m) (x := execPmov h o m) rfl (by unfold execPmov; exact rfl) (by
    cases hc : o.a with
    | p k => simp [hc, Operand.isP] at ha
    | _ => simp_all [Env.ops4Ok, Env.fieldOk, pPos, vPos])
  rw [GivesPred, hd]
  cases hc : o.a with
  | p k => simp [hc, Operand.isP] at ha
  | _ => simp only [hd, hc] at hx; exact hx

/-- PMOV of a predicate's codes into a register (R119). -/
theorem pmov_gives_row {k : BitVec 3} (ha : o.a = .p k) (hd : o.d.isP = false) (hok : e.ops4Ok o vPos pPos unused unused = true) :
    GivesRow (.pmov h o m) e o.d fun l => BitVec.ofNat 64 (e.sig.preg k.toNat)[l].code := by
  have hx := I.exec_fields (i := .pmov h o m) (x := execPmov h o m) rfl (by unfold execPmov; exact rfl) (by
    cases hc : o.d with
    | p n => simp [hc, Operand.isP] at hd
    | _ => simp_all [Env.ops4Ok, Env.fieldOk, pPos, vPos])
  rw [GivesRow]
  cases hc : o.d with
  | p n => simp [hc, Operand.isP] at hd
  | _ => simp only [ha, hc] at hx; exact hx

end

theorem GivesPred.congr {i : Instr} {e : Env} {d : Operand} {f g : Lane → Tri} (hg : GivesPred i e d f) (hfg : ∀ l, f l = g l) :
    GivesPred i e d g := (funext hfg : f = g) ▸ hg

/-- Settles O14: the tables of PLOP case by case, then the forms of PSET and PMOV. -/
theorem predicateOperations : Obligations.PredicateOperations := by
  intro s h o m e I
  refine ⟨fun hok => ?_, fun hsel hok => pset_gives_test I hsel hok, fun hsel hok => pset_gives_code I hsel hok,
    fun n neg abs hsel ha heven hok => ?_, fun n k hd ha hok => pmov_gives_pred I hd ha hok,
    fun n hd ha hok => pmov_gives_codes I hd ha hok, fun k ha hd hok => ?_⟩
  · refine (plop_gives I (by simpa using hok)).congr fun l => ?_
    generalize (e.predSrc o.a)[l] = x
    generalize (e.predSrc o.b)[l] = y
    generalize m.op.toNat = n
    match n with
    | 0 | 1 | 2 | 3 | 4 | 5 | 6 => cases x <;> cases y <;> rfl
    | n + 7 => cases x <;> cases y <;> rfl
  · refine (pset_gives_bits I hsel ha heven hok).congr fun l => ?_
    exact congrArg Tri.ofBool BitVec.getLsbD_append
  · have row := pmov_gives_row (m := m) I ha hd hok
    have codes : (fun l : Lane => BitVec.ofNat 64 (e.sig.preg k.toNat)[l].code) =
        fun l : Lane => match (e.sig.preg k.toNat)[l] with | .f => 0 | .t => 1 | .u => 2 := by
      funext l
      cases (e.sig.preg k.toNat)[l] <;> rfl
    rw [codes] at row
    exact row

end Sys2Proof.Claim
end

