-- ==== Sys2Proof/Proofs/FloatTree.lean ====
section
/-!
FREDUX: the binary tree over the members of a segment (R42, R114), and O13.
-/
namespace Sys2Proof.Machine

set_option Elab.async false

/-- The first lane of a lane's segment. -/
def segHead (m : XMod) (l : Lane) : Lane := Fin.ofNat 128 (l.val / m.size * m.size)

/-- A segment has 32 lanes or all of them. -/
theorem segSize_cases (m : XMod) : m.size = 32 ∨ m.size = 128 := by
  unfold XMod.size
  cases m.w <;> simp

theorem segHead_val (m : XMod) (l : Lane) : (segHead m l).val = l.val / m.size * m.size :=
  Nat.mod_eq_of_lt (Nat.lt_of_le_of_lt (Nat.div_mul_le_self _ _) l.isLt)

theorem base_segHead (m : XMod) (l : Lane) : m.base (segHead m l) = l.val / m.size * m.size := by
  rw [XMod.base, segHead_val, Nat.mul_mod_left, Nat.sub_zero]

/-- Every lane gets the value of its segment's first lane. -/
theorem bySegment_getElem {α : Type} [Inhabited α] (m : XMod) (f : Lane → α) (l : Lane) : (bySegment m f)[l] = f (segHead m l) := by
  have inRange : l.val / m.size < 128 / m.size := by
    have := l.isLt
    rcases segSize_cases m with hs | hs <;> rw [hs] <;> omega
  simp [bySegment, inRange, segHead, List.getD]

/-- The leaves of a segment, from its first lane on. -/
theorem Env.leaves_segHead {α : Type} (e : Env) (m : XMod) (l : Lane) (v : Lane → α) :
    e.leaves m (segHead m l) v = (List.range m.size).map fun j =>
      let y : Lane := Fin.ofNat 128 (l.val / m.size * m.size + j)
      if e.act.getLsbD y.val then some (v y) else none := by
  rw [Env.leaves, base_segHead]

end Sys2Proof.Machine

namespace Sys2Proof.Claim
open Machine

section
variable {s : State} {h : Hdr} {o : Ops4} {m : XMod} {e : Env} (I : Issues s h o.list e)
  (hok : e.ops4Ok o (segPos m) { kinds := [.v, .s], fp := true } unused unused = true)
include I hok

/-- FREDUX performs its body where the feature of iv32 is accepted. -/
theorem exec_fredux (hf : m.ty = 6 → e.s.feat e.sig.ctx 0 = true) {body : Env → Eff}
    (hx : execFredux h o m = Machine.perform h o.list {
      ok := fun e => e.ops4Ok o (segPos m) { kinds := [.v, .s], fp := true } unused unused, feats := if m.ty == 6 then [0] else [] } noSync body) :
    exec (.fredux h o m) e.s = .next (e.finish (body e)) := by
  have feats : ∀ b ∈ (if m.ty == 6 then [0] else []), e.s.feat e.sig.ctx b = true := by
    intro b hb
    split at hb
    · rw [List.mem_singleton.mp hb]
      exact hf (by simpa using ‹(m.ty == 6) = true›)
    · exact absurd hb List.not_mem_nil
  rw [show exec (.fredux h o m) = execFredux h o m from rfl, hx]
  exact I.perform (fun hd => absurd hd Bool.false_ne_true) feats rfl hok (Or.inl rfl)

end

/-- Settles O13: every lane gets the tree over the leaves of its segment, from its first lane on. -/
theorem floatReduction : Obligations.FloatReduction := by
  intro s h o m e I hok
  refine ⟨fun hty => ?_, fun hty hfeat => ?_⟩
  · have hx := exec_fredux I hok (fun h6 => absurd h6 hty) (by unfold execFredux; exact rfl)
    rw [if_neg (by simpa using hty)] at hx
    refine ⟨_, hx, fun l => ?_⟩
    rewrite [bySegment_getElem, Env.leaves_segHead]
    rfl
  · have hx := exec_fredux I hok (fun _ => hfeat) (by unfold execFredux; exact rfl)
    rw [if_pos (by simpa using hty)] at hx
    refine ⟨_, checked_of hx, fun l => ?_⟩
    rewrite [bySegment_getElem, Env.leaves_segHead]
    rfl

end Sys2Proof.Claim
end

