-- ==== Sys2Proof/Proofs/NestArrival.lean ====
section
/-!
The arrival of an arm at its nest (R97, R98): what the model's loop over the deferred arms leaves is what `Claim.arrival` says.
-/
namespace Sys2Proof.Machine
open Claim

set_option Elab.async false

/-! ### The deferred arms of a nest -/

/-- The deferred arms of nest n, the topmost first. -/
def deferredArms (l : List StackEntry) (n : Nat) : List StackEntry := (l.filter fun x => !x.join && x.nest == n).reverse

/-- The topmost of them that have no lane left, c at most. -/
def deadArms (l : List StackEntry) (n c : Nat) : List StackEntry := ((deferredArms l n).takeWhile fun x => x.mask == 0).take c

theorem find?_reverse_deferred (l : List StackEntry) (n : Nat) :
    (l.reverse.find? fun x => !x.join && x.nest == n) = (deferredArms l n).head? := by
  rw [deferredArms, ← List.filter_reverse, List.head?_filter]

theorem mem_deferredArms {l : List StackEntry} {n : Nat} {x : StackEntry} :
    x ∈ deferredArms l n ↔ x ∈ l ∧ x.join = false ∧ x.nest = n := by
  simp [deferredArms]

theorem deferredArms_filter (l : List StackEntry) (n : Nat) (q : StackEntry → Bool) :
    deferredArms (l.filter q) n = (deferredArms l n).filter q := by
  rw [deferredArms, deferredArms, List.filter_reverse, List.filter_comm]

/-- The ids of a stack tell its entries apart. -/
theorem id_eq_iff {l : List StackEntry} (hl : (l.map (·.id)).Nodup) {x y : StackEntry} (hx : x ∈ l) (hy : y ∈ l) :
    x.id = y.id ↔ x = y :=
  ⟨List.inj_on_of_nodup_map hl hx hy, fun h => h ▸ rfl⟩

theorem nodup_filter_ids {l : List StackEntry} (hl : (l.map (·.id)).Nodup) (q : StackEntry → Bool) :
    ((l.filter q).map (·.id)).Nodup :=
  hl.sublist (List.filter_sublist.map _)

theorem nodup_deferredArms {l : List StackEntry} (hl : (l.map (·.id)).Nodup) (n : Nat) : (deferredArms l n).Nodup :=
  List.nodup_reverse.mpr (List.Nodup.of_map _ (nodup_filter_ids hl _))

theorem dropTop_of_nil {l : List StackEntry} {n : Nat} (h : deferredArms l n = []) : dropTop n l = l := by
  simp [dropTop, find?_reverse_deferred, h]

theorem dropTop_of_cons {l r : List StackEntry} {n : Nat} {x : StackEntry} (h : deferredArms l n = x :: r) :
    dropTop n l = l.filter fun y => y.id != x.id := by
  simp [dropTop, find?_reverse_deferred, h]

/-- Without its topmost deferred arm, a stack is what is not that arm. -/
theorem filter_id_ne {l : List StackEntry} (hl : (l.map (·.id)).Nodup) {x : StackEntry} (hx : x ∈ l) :
    (l.filter fun y => y.id != x.id) = l.filter fun y => y != x :=
  List.filter_congr fun y hy => by simp [bne, id_eq_iff hl hy hx, Bool.beq_eq_decide_eq]

theorem deferredArms_dropTop {l r : List StackEntry} {n : Nat} {x : StackEntry} (hl : (l.map (·.id)).Nodup)
    (h : deferredArms l n = x :: r) : deferredArms (dropTop n l) n = r := by
  have hx : x ∈ l := (mem_deferredArms.mp (h ▸ List.mem_cons_self)).1
  have fresh : x ∉ r := (List.nodup_cons.mp (h ▸ nodup_deferredArms hl n)).1
  rw [dropTop_of_cons h, filter_id_ne hl hx, deferredArms_filter, h, List.filter_cons_of_neg (by simp)]
  exact List.filter_eq_self.mpr fun y hy => by simpa using fun hyx : y = x => fresh (hyx ▸ hy)

/-! ### The loop of R97 -/

theorem deadArms_zero (l : List StackEntry) (n : Nat) : deadArms l n 0 = [] := List.take_zero

theorem deadArms_of_nil {l : List StackEntry} {n c : Nat} (h : deferredArms l n = []) : deadArms l n c = [] := by
  simp [deadArms, h]

theorem deadArms_of_live {l r : List StackEntry} {n c : Nat} {x : StackEntry} (h : deferredArms l n = x :: r) (hx : x.mask ≠ 0) :
    deadArms l n c = [] := by
  simp [deadArms, h]
  exact Or.inr hx

theorem deadArms_of_dead {l r : List StackEntry} {n c : Nat} {x : StackEntry} (hl : (l.map (·.id)).Nodup)
    (h : deferredArms l n = x :: r) (hx : x.mask = 0) : deadArms l n (c + 1) = x :: deadArms (dropTop n l) n c := by
  simp [deadArms, deferredArms_dropTop hl h, h, hx]

/-- The loop takes the dead arms off the stack and off the count. -/
theorem skipEmpty_eq {fuel n c : Nat} {l : List StackEntry} (hl : (l.map (·.id)).Nodup) (hf : (deferredArms l n).length ≤ fuel) :
    skipEmpty fuel n c l = (c - (deadArms l n c).length, l.filter fun x => !(deadArms l n c).contains x) := by
  have stops : ∀ {c : Nat} {l : List StackEntry}, deadArms l n c = [] →
      (c, l) = (c - (deadArms l n c).length, l.filter fun x => !(deadArms l n c).contains x) := by
    intro c l h
    simp [h]
  induction fuel generalizing c l with
  | zero => exact stops (deadArms_of_nil (List.length_eq_zero_iff.mp (Nat.le_zero.mp hf)))
  | succ fuel ih =>
    rw [skipEmpty, find?_reverse_deferred]
    cases h : deferredArms l n with
    | nil => exact stops (deadArms_of_nil h)
    | cons x r =>
      simp only [List.head?_cons]
      by_cases hx : 0 < c ∧ x.mask = 0
      · obtain ⟨c, rfl⟩ : ∃ d, c = d + 1 := ⟨c - 1, by omega⟩
        have top : x ∈ l := (mem_deferredArms.mp (h ▸ List.mem_cons_self)).1
        have left : ((dropTop n l).map (·.id)).Nodup := dropTop_of_cons h ▸ nodup_filter_ids hl _
        rw [if_pos hx, deadArms_of_dead hl h hx.2, Nat.add_sub_cancel,
          ih left (by rw [deferredArms_dropTop hl h]; simpa [h] using hf), dropTop_of_cons h, filter_id_ne hl top]
        simp [List.filter_filter, Bool.and_comm, bne, Bool.beq_eq_decide_eq]
      · rw [if_neg hx]
        by_cases hc : c = 0
        · exact stops (hc ▸ deadArms_zero l n)
        · exact stops (deadArms_of_live h fun hm => hx ⟨by omega, hm⟩)

/-- The elements of a list behind its first k are those that are not among these. -/
theorem filter_not_mem_take {α : Type} [BEq α] [LawfulBEq α] {a : List α} (ha : a.Nodup) (k : Nat) :
    (a.filter fun x => !(a.take k).contains x) = a.drop k := by
  have apart : ∀ x ∈ a.drop k, x ∉ a.take k := fun x hd ht => List.disjoint_take_drop ha (Nat.le_refl k) ht hd
  conv_lhs => enter [2]; rw [← List.take_append_drop k a]
  rw [List.filter_append, List.filter_eq_nil_iff.mpr (by simp), List.filter_eq_self.mpr (by simpa using apart), List.nil_append]

/-- What is left of the nest's deferred arms. -/
theorem deferredArms_left {l : List StackEntry} (hl : (l.map (·.id)).Nodup) (n c : Nat) :
    deferredArms (l.filter fun x => !(deadArms l n c).contains x) n = (deferredArms l n).drop (deadArms l n c).length := by
  have first : deadArms l n c = (deferredArms l n).take (deadArms l n c).length :=
    List.prefix_iff_eq_take.mp ((List.take_prefix _ _).trans (List.takeWhile_prefix _))
  rw [deferredArms_filter]
  conv_lhs => enter [1, x]; rw [first]
  exact filter_not_mem_take (nodup_deferredArms hl n) _

/-! ### One arrival -/

/-- The count of nest n's join entry set. -/
def setCount (n c : Nat) (x : StackEntry) : StackEntry := if x.join && x.id == n then { x with count := c } else x

theorem setCount_id (n c : Nat) (x : StackEntry) : (setCount n c x).id = x.id := by unfold setCount; split <;> rfl
theorem setCount_join (n c : Nat) (x : StackEntry) : (setCount n c x).join = x.join := by unfold setCount; split <;> rfl
theorem setCount_nest (n c : Nat) (x : StackEntry) : (setCount n c x).nest = x.nest := by unfold setCount; split <;> rfl
theorem setCount_of_deferred {n c : Nat} {x : StackEntry} (h : x.join = false) : setCount n c x = x := by simp [setCount, h]

/-- The count of a join entry is no matter to the deferred arms. -/
theorem deferredArms_setCount (l : List StackEntry) (n m c : Nat) : deferredArms (l.map (setCount m c)) n = deferredArms l n := by
  simp only [deferredArms, List.filter_map, Function.comp_def, setCount_join, setCount_nest]
  congr 1
  refine (List.map_congr_left fun x hx => ?_).trans (List.map_id _)
  have : x.join = false ∧ x.nest = n := by simpa using (List.mem_filter.mp hx).2
  exact setCount_of_deferred this.1

/-- The topmost deferred arm taken off the stack whose count has been set. -/
theorem dropTop_setCount {l : List StackEntry} (hl : (l.map (·.id)).Nodup) (n c : Nat) :
    dropTop n (l.map (setCount n c)) = (l.filter fun y => some y != (deferredArms l n).head?).map (setCount n c) := by
  cases h : deferredArms l n with
  | nil =>
    rw [dropTop_of_nil ((deferredArms_setCount l n n c).trans h), List.filter_eq_self.mpr]
    simp
  | cons x r =>
    have hx : x ∈ l := (mem_deferredArms.mp (h ▸ List.mem_cons_self)).1
    have others : (l.filter fun y => some y != (x :: r).head?) = l.filter fun y => y.id != x.id := by
      rw [filter_id_ne hl hx]
      rfl
    rw [dropTop_of_cons ((deferredArms_setCount l n n c).trans h), List.filter_map, others]
    simp only [Function.comp_def, setCount_id]

/-- What `arrival` says, through the nest's deferred arms. -/
theorem arrival_eq {l live : List StackEntry} {n k : Nat} (hl : (l.map (·.id)).Nodup)
    (hlive : live = l.filter fun x => !(deadArms l n (k - 1)).contains x) :
    arrival l n k = (k - 1 - (deadArms l n (k - 1)).length, live.filter fun x => !(x.join && x.id == n), (deferredArms live n).head?,
      (live.filter fun x => some x != (deferredArms live n).head?).map (setCount n (k - 1 - (deadArms l n (k - 1)).length))) := by
  subst hlive
  rw [deferredArms_left hl]
  rfl

/-- The path that deferred arm d becomes when an arm of path p has arrived at its nest. -/
def Sig.armed (g : Sig) (p : Path) (d : StackEntry) : Path where
  idx := d.pidx
  mask := d.mask
  pc := d.pc
  nest := some d.nest
  rseq := g.rseq
  passes := 0
  handler := p.handler
  port := p.port
  fault := none
  wdog := none
  held := false
  stalled := false

/-- The path that goes on behind the join entry j, all its arms having arrived. -/
def Path.joined (p : Path) (j : StackEntry) (pc : Word64) : Path := { p with idx := j.pidx, mask := j.mask, pc := pc, nest := j.parent }

section
variable {g : Sig} {p : Path} {n c : Nat} {j : StackEntry} (hp : p.nest = some n)
  (hj : g.stack.find? (fun x => x.join && x.id == n) = some j)
include hp hj

theorem Sig.arrive_of_nest {live : List StackEntry} (hs : skipEmpty g.stack.length n (j.count - 1) g.stack = (c, live))
    (fuel : Nat) (pc : Word64) (closed : List Nat) :
    g.arrive (fuel + 1) p pc closed =
      if 0 < c then
        ({ g with stack := dropTop n (live.map (setCount n c)) }, closed, some (.waits n ((deferredArms live n).head?.map (g.armed p))))
      else
        let u := { g with stack := live.filter fun x => !(x.join && x.id == n) }
        if j.mask = 0 then u.arrive fuel (p.joined j pc) pc (n :: closed) else (u, n :: closed, some (.merged (p.joined j pc))) := by
  rw [Sig.arrive.eq_def]
  simp only [hp, hj, hs, find?_reverse_deferred]
  split
  · cases h : deferredArms live n with
    | nil =>
      rw [dropTop_of_nil ((deferredArms_setCount live n n c).trans h)]
      rfl
    | cons d r =>
      obtain ⟨-, -, rfl⟩ := mem_deferredArms.mp (h ▸ List.mem_cons_self : d ∈ deferredArms live n)
      rfl
  · rfl

variable {next : Option StackEntry} {left rest : List StackEntry} (hl : (g.stack.map (·.id)).Nodup)
  (ha : arrival g.stack n j.count = (c, left, next, rest))
include hl ha

/-- An arrival at an open nest, in the words of `arrival`. -/
theorem Sig.arrive_eq (fuel : Nat) (pc : Word64) (closed : List Nat) :
    g.arrive (fuel + 1) p pc closed =
      if 0 < c then ({ g with stack := rest }, closed, some (.waits n (next.map (g.armed p))))
      else if j.mask = 0 then ({ g with stack := left } : Sig).arrive fuel (p.joined j pc) pc (n :: closed)
      else ({ g with stack := left }, n :: closed, some (.merged (p.joined j pc))) := by
  have fits : (deferredArms g.stack n).length ≤ g.stack.length := by
    rw [deferredArms, List.length_reverse]
    exact List.length_filter_le _ _
  obtain ⟨live, hlive⟩ : ∃ live, live = g.stack.filter fun x => !(deadArms g.stack n (j.count - 1)).contains x := ⟨_, rfl⟩
  have kept : (live.map (·.id)).Nodup := hlive ▸ nodup_filter_ids hl _
  have loop := skipEmpty_eq (c := j.count - 1) hl fits
  rw [arrival_eq hl hlive, ← dropTop_setCount kept, Prod.mk.injEq, Prod.mk.injEq, Prod.mk.injEq] at ha
  obtain ⟨rfl, rfl, rfl, rfl⟩ := ha
  rw [← hlive] at loop
  exact Sig.arrive_of_nest hp hj loop fuel pc closed

end

theorem Sig.arrive_of_no_nest {g : Sig} {p : Path} (hp : p.nest = none) (fuel : Nat) (pc : Word64) (closed : List Nat) :
    g.arrive fuel p pc closed = (g, closed, none) := by
  rw [Sig.arrive.eq_def]
  cases fuel <;> simp only [hp]

end Sys2Proof.Machine
end

