-- ==== Sys2Proof/Proofs/JoinExit.lean ====
section
/-!
JOIN, EXIT and YIELD (R96 to R98, R101, R107, R278), and O21.
-/
namespace Sys2Proof.Machine

set_option Elab.async false

/-! ### What closing no nest leaves -/

theorem AMap.get?_mapVals {α β : Type} (m : AMap α) (f : α → β) (k : Nat) :
    AMap.get? (AMap.mapVals m f) k = (AMap.get? m k).map f := by
  induction m with
  | nil => rfl
  | cons x r ih =>
    obtain ⟨i, a⟩ := x
    simp only [AMap.mapVals, List.map_cons, AMap.get?] at ih ⊢
    split
    · rfl
    · split
      · rfl
      · exact ih

theorem State.sig?_modCore (s : State) (d c slot : Nat) {f : Core → Core} (hf : ∀ k, (f k).sigs = k.sigs) :
    (s.modCore d f).sig? c slot = s.sig? c slot := by
  unfold State.sig?
  by_cases h : c = d
  · rw [h, State.core_modCore_self, hf]
  · rw [State.core_modCore_ne s f h]

theorem State.sig?_mapVals (s : State) (c slot : Nat) {f : Core → Core} (hf : ∀ k, (f k).sigs = k.sigs) :
    ({ s with cores := AMap.mapVals s.cores f } : State).sig? c slot = s.sig? c slot := by
  simp only [State.sig?, State.core, AMap.getD, AMap.get?_mapVals]
  cases AMap.get? s.cores c with
  | none => rfl
  | some k => exact congrArg (AMap.get? · slot) (hf k)

/-- A record of the selected signature is that of a path parted at one of some nests. -/
def Env.partedAt (e : Env) (nests : List Nat) (r : Record) : Bool :=
  r.slot == e.sel.slot && r.reason == 0x0B && (match r.nest with | some n => nests.contains n | none => false)

/-- Of closing nests, only the records that are discarded bear on the signatures. -/
theorem Env.sig?_closeNests (e : Env) (s : State) (nests : List Nat) (c slot : Nat) :
    let gone := (s.core e.sel.core).records.filter (e.partedAt nests)
    (e.closeNests s nests).sig? c slot =
      (gone.foldl (fun (s : State) r => s.loseLive e.sel.core e.sel.slot r.mask r.lb r.kept)
        (s.freeSpills e.sig.ctx e.sel.core gone)).sig? c slot := by
  unfold Env.closeNests
  refine (State.sig?_mapVals _ c slot ?_).trans ((State.sig?_modCore _ _ c slot ?_).trans rfl)
  · exact fun _ => rfl
  · exact fun _ => rfl

theorem Env.partedAt_nil (e : Env) (r : Record) : e.partedAt [] r = false := by
  unfold Env.partedAt
  cases r.nest <;> simp

/-- With no nest closed, no record is discarded, and the signatures are as before. -/
theorem Env.sig?_closeNests_nil (e : Env) (s : State) (c slot : Nat) : (e.closeNests s []).sig? c slot = s.sig? c slot := by
  have none_gone : (s.core e.sel.core).records.filter (e.partedAt []) = [] :=
    List.filter_eq_nil_iff.mpr fun r _ => by rw [e.partedAt_nil]; exact Bool.false_ne_true
  rw [Env.sig?_closeNests, none_gone]
  dsimp only [List.foldl_nil, State.freeSpills, State.clearSpills]
  refine State.sig?_modCore _ _ _ _ ?_
  exact fun _ => rfl

/-! ### The exit of a signature -/

/-- w without the signature: its records, with their slots of the overflow area, and the state of its own slot are gone. -/
def Env.withoutSig (e : Env) (w : State) : State :=
  (w.freeSpills e.sig.ctx e.sel.core ((w.core e.sel.core).records.filter fun r => r.slot == e.sel.slot)).dropSigs
    e.sel.core e.sig.ctx [e.sel.slot]

section
variable {e : Env} {w : State}

theorem Env.sigExit_of_no_clasp (hc : w.claspsOf e.sig.uid = []) : e.sigExit w = e.withoutSig w := by
  simp only [Env.sigExit, hc, List.isEmpty_nil, if_true]
  rfl

theorem Env.sigExit_of_clasps (hc : w.claspsOf e.sig.uid ≠ []) (hd : w.det e.sig.ctx = false) :
    e.sigExit w = e.withoutSig (w.releaseClasps e.sig.ctx e.sig.uid) := by
  simp only [Env.sigExit, List.isEmpty_iff, if_neg hc, hd, Bool.false_eq_true, if_false]
  rfl

theorem Env.sigExit_of_clasps_det (hc : w.claspsOf e.sig.uid ≠ []) (hd : w.det e.sig.ctx = true) :
    e.sigExit w = e.withoutSig (w.modCtx e.sig.ctx fun c =>
      { c with releases := c.releases ++ [(e.sig.place ++ [e.path.idx], e.sig.uid)] }) := by
  simp only [Env.sigExit, List.isEmpty_iff, if_neg hc, hd, if_true]
  rfl

end

/-! ### The body of EXIT -/

/-- The stack entries without the lanes of a mask. -/
def thinned (m : Mask) (l : List StackEntry) : List StackEntry := l.map fun x => { x with mask := x.mask &&& ~~~m }

/-- A signature without the lanes of a mask in its stack, and a path without lanes. -/
def Sig.thin (g : Sig) (m : Mask) : Sig := { g with stack := thinned m g.stack }
@[inherit_doc Sig.thin] def Path.emptied (p : Path) : Path := { p with mask := 0 }

theorem thinned_ids (m : Mask) (l : List StackEntry) : (thinned m l).map (·.id) = l.map (·.id) := by
  simp [thinned]

/-- The instruction counts as retired in the signature. -/
def Env.tallied (e : Env) (s : State) : State :=
  e.modSig s fun g => { g with wdog := 0, iret := g.iret + 1, quantum := g.quantum + 1 }

/-- What EXIT does once the signature has no lane left (R73, R278). -/
def Env.lastExit (e : Env) : Eff :=
  if !(e.s.claspsOf e.sig.uid).isEmpty && e.s.storesLeft e.sig.uid then .stall else .over (e.sigExit (e.tallied e.s))

/-- What EXIT does once the path without lanes has arrived at its nest (R98). -/
def Env.afterExit (e : Env) : Sig × List Nat × Option Arrival → Eff
  | (_, _, none) => e.lastExit
  | (g, closed, some (.merged m)) => .over (e.tallied (e.modSig (e.closeNests e.s closed) fun g0 => { g0 with
      stack := g.stack
      paths := (g0.paths.filter fun q => q.idx != e.path.idx) ++
        [{ m with passes := 0, held := false, stalled := false, fault := none, wdog := none }] }))
  | (g, closed, some (.waits _ arm)) => .over (e.tallied (e.modSig (e.closeNests e.s closed) fun g0 => { g0 with
      stack := g.stack, paths := (g0.paths.filter fun q => q.idx != e.path.idx) ++ arm.toList }))

/-- What JOIN does once its path has arrived at its nest (R97). -/
def Env.afterJoin (e : Env) : Sig × List Nat × Option Arrival → Eff
  | (_, _, none) => .done e.s
  | (g, closed, some (.merged m)) => .moved (e.modSig (e.closeNests e.s closed) fun g0 => { g0 with
      stack := g.stack, paths := (g0.paths.filter fun q => q.idx != e.path.idx) ++ [m] })
  | (g, _, some (.waits nest arm)) => .part (e.modSig e.s fun g0 => { g0 with stack := g.stack })
      { reason := 0x0B, evkey := BitVec.ofNat 64 (e.sig.position nest), resume := e.next, wait := .none, arm := arm }

section
variable {e : Env}

theorem Env.exitLanes_of_lanes (h : e.path.mask &&& ~~~e.act ≠ 0) :
    e.exitLanes = .done (e.modSig e.s fun g => { g with
      stack := thinned e.act g.stack
      paths := g.paths.map fun q => if q.idx == e.path.idx then { q with mask := e.path.mask &&& ~~~e.act } else q }) :=
  if_pos h

variable (h : e.path.mask &&& ~~~e.act = 0)
include h

/-- With its last lane gone, the path arrives at its nest. -/
theorem Env.exitLanes_of_no_lane : e.exitLanes = e.afterExit ((e.sig.thin e.act).arrive 33 e.path.emptied e.next []) := by
  rewrite [Env.exitLanes, if_neg (not_not_intro h), h]
  rfl

theorem Env.exitLanes_of_no_nest (hn : e.path.nest = none) : e.exitLanes = e.lastExit := by
  rw [Env.exitLanes_of_no_lane h, Sig.arrive_of_no_nest (p := e.path.emptied) hn]
  rfl

variable {n c : Nat} {j : StackEntry} {next : Option StackEntry} {left rest : List StackEntry}
  (hn : e.path.nest = some n) (hj : (thinned e.act e.sig.stack).find? (fun x => x.join && x.id == n) = some j)
  (hl : (e.sig.stack.map (·.id)).Nodup) (ha : Claim.arrival (thinned e.act e.sig.stack) n j.count = (c, left, next, rest))
include hn hj hl ha

omit h in
theorem Env.arrive_thin (fuel : Nat) (closed : List Nat) : (e.sig.thin e.act).arrive (fuel + 1) e.path.emptied e.next closed =
    if 0 < c then ({ e.sig.thin e.act with stack := rest }, closed, some (.waits n (next.map (Claim.armPath e))))
    else if j.mask = 0 then ({ e.sig.thin e.act with stack := left } : Sig).arrive fuel (e.path.emptied.joined j e.next) e.next (n :: closed)
    else ({ e.sig.thin e.act with stack := left }, n :: closed, some (.merged (e.path.emptied.joined j e.next))) :=
  Sig.arrive_eq (g := e.sig.thin e.act) (p := e.path.emptied) hn hj (by rwa [Sig.thin, thinned_ids]) ha fuel e.next closed

theorem Env.exitLanes_of_waits (hc : 0 < c) :
    e.exitLanes = .over (e.tallied (e.modSig (e.closeNests e.s []) fun g0 => { g0 with
      stack := rest, paths := (g0.paths.filter fun q => q.idx != e.path.idx) ++ (next.map (Claim.armPath e)).toList })) := by
  rw [Env.exitLanes_of_no_lane h, Env.arrive_thin hn hj hl ha, if_pos hc]
  rfl

theorem Env.exitLanes_of_merge (hc : c = 0) (hm : j.mask ≠ 0) :
    e.exitLanes = .over (e.tallied (e.modSig (e.closeNests e.s [n]) fun g0 => { g0 with
      stack := left
      paths := (g0.paths.filter fun q => q.idx != e.path.idx) ++ [{ e.path with
        idx := j.pidx, mask := j.mask, pc := e.next, nest := j.parent, passes := 0, held := false, stalled := false
        fault := none, wdog := none }] })) := by
  rw [Env.exitLanes_of_no_lane h, Env.arrive_thin hn hj hl ha, if_neg (by omega), if_neg hm]
  rfl

theorem Env.exitLanes_of_last (hc : c = 0) (hm : j.mask = 0) (hp : j.parent = none) : e.exitLanes = e.lastExit := by
  rw [Env.exitLanes_of_no_lane h, Env.arrive_thin hn hj hl ha, if_neg (by omega), if_pos hm,
    Sig.arrive_of_no_nest hp]
  rfl

end

theorem Env.sig?_tallied (e : Env) (s : State) (f : Sig → Sig) :
    (e.tallied (e.modSig s f)).sig? e.sel.core e.sel.slot = (s.sig? e.sel.core e.sel.slot).map fun g =>
      { f g with wdog := 0, iret := (f g).iret + 1, quantum := (f g).quantum + 1 } := by
  rw [Env.tallied, Env.modSig, Env.modSig, State.sig?_modSig_self, State.sig?_modSig_self, Option.map_map]
  rfl

end Sys2Proof.Machine

namespace Sys2Proof.Claim
open Machine

/-- The signature ends as i issues: it waits for its stores where it holds clasps (R278), and releases them, in deterministic mode in
the serial phase (R86). -/
def EndsSig (i : Instr) (e : Env) : Prop :=
  (e.s.claspsOf e.sig.uid = [] → exec i e.s = .next (e.withoutSig (e.tallied e.s))) ∧
  (e.s.claspsOf e.sig.uid ≠ [] →
    (e.s.storesLeft e.sig.uid = true → Waits i e) ∧
    (e.s.storesLeft e.sig.uid = false → e.s.det e.sig.ctx = false →
      exec i e.s = .next (e.withoutSig ((e.tallied e.s).releaseClasps e.sig.ctx e.sig.uid))) ∧
    (e.s.storesLeft e.sig.uid = false → e.s.det e.sig.ctx = true →
      exec i e.s = .next (e.withoutSig ((e.tallied e.s).modCtx e.sig.ctx fun c =>
        { c with releases := c.releases ++ [(e.sig.place ++ [e.path.idx], e.sig.uid)] }))))

theorem endsSig_of {i : Instr} {e : Env} (hx : exec i e.s = .next (e.finish e.lastExit)) : EndsSig i e := by
  have goes : ((!(e.s.claspsOf e.sig.uid).isEmpty && e.s.storesLeft e.sig.uid) = false) →
      exec i e.s = .next (e.sigExit (e.tallied e.s)) := by
    intro hg
    rw [hx, Env.lastExit, hg]
    rfl
  refine ⟨fun hc => ?_, fun hc => ⟨fun hs => ?_, fun hs hd => ?_, fun hs hd => ?_⟩⟩
  · rw [goes (by rw [hc]; rfl), Env.sigExit_of_no_clasp (w := e.tallied e.s) hc]
  · rw [Env.lastExit, if_pos (by simp [hc, hs])] at hx
    exact hx
  · rw [goes (by rw [hs, Bool.and_false]), Env.sigExit_of_clasps (w := e.tallied e.s) hc hd]
  · rw [goes (by rw [hs, Bool.and_false]), Env.sigExit_of_clasps_det (w := e.tallied e.s) hc hd]

/-- An instruction whose body parts does so where its record finds room. -/
theorem parts_of_finish {i : Instr} {e : Env} {b : Eff} {t : State} {p : PartSpec} (hx : exec i e.s = .next (e.finish b))
    (hb : b = .part t p) (room : ∃ u, e.part t p = .ok u) : Parts i e t p := by
  obtain ⟨u, hu⟩ := room
  refine ⟨u, hu, ?_⟩
  rw [hx, hb]
  simp only [Env.finish, hu]

section
variable {s : State} {h : Hdr} {o : Ops4} {e : Env} (I : Issues s h o.list e) (hok : e.ops4Ok o unused unused unused unused = true)
include I hok

theorem exec_join : exec (.join h o) e.s = .next (e.finish (e.afterJoin (e.sig.arrive 33 e.path e.next []))) :=
  I.exec_fields (i := .join h o) (x := execJoin h o) rfl rfl hok

/-- A JOIN of an open nest counts its arm. -/
theorem join_of_nest {n c : Nat} {j : StackEntry} {next : Option StackEntry} {left rest : List StackEntry}
    (hn : e.path.nest = some n) (hl : (e.sig.stack.map (·.id)).Nodup)
    (hj : e.sig.stack.find? (fun x => x.join && x.id == n) = some j)
    (ha : arrival e.sig.stack n j.count = (c, left, next, rest)) :
    (0 < c →
      let p : PartSpec := { reason := 0x0B, evkey := BitVec.ofNat 64 (e.sig.position n), resume := e.next, wait := .none
                            arm := next.map (armPath e) }
      let t := e.modSig e.s fun g => { g with stack := rest }
      (∃ u, e.part t p = .ok u) → Parts (.join h o) e t p) ∧
    (c = 0 → j.mask ≠ 0 → Moves (.join h o) e (e.modSig (e.closeNests e.s [n]) fun g => { g with
      stack := left
      paths := (g.paths.filter fun q => q.idx != e.path.idx) ++
        [{ e.path with idx := j.pidx, mask := j.mask, pc := e.next, nest := j.parent }] })) := by
  have hx := exec_join I hok
  rw [Sig.arrive_eq hn hj hl ha] at hx
  refine ⟨fun hc => ?_, fun hc hm => ?_⟩
  · rw [if_pos hc] at hx
    exact parts_of_finish hx rfl
  · rw [if_neg (by omega), if_neg hm] at hx
    exact hx

theorem exec_exit (hh : e.path.handler = false) : exec (.exit h o) e.s = .next (e.finish e.exitLanes) := by
  rw [I.exec_fields (i := .exit h o) (x := execExit h o) rfl rfl hok, hh]
  rfl

/-- An EXIT that takes the path's last lane from it and leaves its nest waiting or merged, or ends the signature. -/
theorem exit_of_nest (hh : e.path.handler = false) (hm : e.path.mask &&& ~~~e.act = 0) {n c : Nat} {j : StackEntry}
    {next : Option StackEntry} {left rest : List StackEntry} (hn : e.path.nest = some n) (hl : (e.sig.stack.map (·.id)).Nodup)
    (hj : (thinned e.act e.sig.stack).find? (fun x => x.join && x.id == n) = some j)
    (ha : arrival (thinned e.act e.sig.stack) n j.count = (c, left, next, rest)) :
    (0 < c → ∃ t, exec (.exit h o) e.s = .next t ∧ t.sig? e.sel.core e.sel.slot =
      (e.s.sig? e.sel.core e.sel.slot).map fun g => { g with
        stack := rest, wdog := 0, iret := g.iret + 1, quantum := g.quantum + 1
        paths := (g.paths.filter fun q => q.idx != e.path.idx) ++ (next.map (armPath e)).toList }) ∧
    (c = 0 → j.mask ≠ 0 → ∃ t, exec (.exit h o) e.s = .next t ∧ t.sig? e.sel.core e.sel.slot =
      ((e.closeNests e.s [n]).sig? e.sel.core e.sel.slot).map fun g => { g with
        stack := left, wdog := 0, iret := g.iret + 1, quantum := g.quantum + 1
        paths := (g.paths.filter fun q => q.idx != e.path.idx) ++ [{ e.path with
          idx := j.pidx, mask := j.mask, pc := e.next, nest := j.parent, passes := 0, held := false, stalled := false
          fault := none, wdog := none }] }) ∧
    (c = 0 → j.mask = 0 → j.parent = none → EndsSig (.exit h o) e) := by
  have hx := exec_exit I hok hh
  refine ⟨fun hc => ?_, fun hc hj0 => ?_, fun hc hj0 hp => ?_⟩
  · rw [Env.exitLanes_of_waits hm hn hj hl ha hc] at hx
    exact ⟨_, hx, (Env.sig?_tallied ..).trans (by rw [Env.sig?_closeNests_nil])⟩
  · rw [Env.exitLanes_of_merge hm hn hj hl ha hc hj0] at hx
    exact ⟨_, hx, Env.sig?_tallied ..⟩
  · rw [Env.exitLanes_of_last hm hn hj hl ha hc hj0 hp] at hx
    exact endsSig_of hx

end

/-- Settles O21, from the arrival of an arm at its nest. -/
theorem joinExitYield : Obligations.JoinExitYield := by
  intro s h o e I hok
  refine ⟨I.exec_fields (i := .nop h o) (x := execNop h o) rfl rfl hok, ?yield, fun hn => ?alone, fun n j hn hl hj _ => ?join,
    fun hh => ⟨fun hm => ?lanes, fun hm hn => ?last, fun n j hm hn hl hj _ => ?exit⟩, fun hh => ?handler, fun u ctx uid x pa w hx hw => ?clasp⟩
  case yield =>
    exact parts_of_finish (I.exec_fields (i := .yield h o) (x := execYield h o) rfl rfl hok) rfl
  case alone =>
    have hx := exec_join I hok
    rw [Sig.arrive_of_no_nest hn] at hx
    exact hx
  case join => exact join_of_nest I hok hn hl hj rfl
  case lanes =>
    have hx := exec_exit I hok hh
    rw [Env.exitLanes_of_lanes hm] at hx
    exact hx
  case last =>
    have hx := exec_exit I hok hh
    rw [Env.exitLanes_of_no_nest hm hn] at hx
    exact endsSig_of hx
  case exit => exact exit_of_nest I hok hh hm hn hl hj rfl
  case handler =>
    exact raises_of_finish (I.exec_fields (i := .exit h o) (x := execExit h o) rfl rfl hok) (if_pos hh)
  case clasp =>
    simp only [State.releaseClasps, hx, List.foldl_cons, List.foldl_nil, hw]

end Sys2Proof.Claim
end

