-- ==== Sys2Proof/Proofs/Moves.lean ====
section
/-!
MOV, MOVI and SEL in every form (R131 to R133), and O15.
-/
namespace Sys2Proof.Claim
open Machine

set_option Elab.async false

/-! ### Fields that are not indexed, pairs of registers -/

section
variable {e : Env} {p q : Pos} {a : Operand} {o : Ops4}

theorem ops4Ok_iff {d a b c : Pos} : e.ops4Ok o d a b c = true ↔
    e.fieldOk d o.d = true ∧ e.fieldOk a o.a = true ∧ e.fieldOk b o.b = true ∧ e.fieldOk c o.c = true := by
  simp [Env.ops4Ok, and_assoc]

/-- A field whose position lists no indexed operand raises no INDEX. -/
theorem indexFault1_of_fieldOk (hp : p.kinds.contains .idx = false) (h : e.fieldOk p a = true) (pair : Bool) :
    e.indexFault1 a pair = none := by
  cases a with
  | idx k off neg abs =>
    rw [Env.fieldOk, hp] at h
    exact absurd h Bool.false_ne_true
  | _ => rfl

/-- Two such fields raise none. -/
theorem indexFault_of_fieldOk (hp : p.kinds.contains .idx = false) (hq : q.kinds.contains .idx = false)
    (hd : e.fieldOk p o.d = true) (ha : e.fieldOk q o.a = true) (x2 : Bool) : e.indexFault [(o.d, x2), (o.a, x2)] = none := by
  simp [Env.indexFault, indexFault1_of_fieldOk hp hd, indexFault1_of_fieldOk hq ha]

/-- The rows of a result: one in D, or two in the pair that D names (R21). -/
def writeRows (e : Env) (d : Operand) (x2 : Bool) (row : Nat → Row) : State :=
  if x2 then e.writeHi (e.write e.s d (row 0)) d (row 1) else e.write e.s d (row 0)

end

/-! ### The instructions -/

section
variable {s : State} {h : Hdr} {o : Ops4} {x2 : Bool} {e : Env} (I : Issues s h o.list e)
include I

theorem mov_to_h {n : BitVec 4} (hd : o.d = .h n) (hok : e.ops4Ok o { kinds := [.h] } { kinds := [.h, .zero] } unused unused = true) :
    Retires (.mov h o ⟨false⟩) e (e.writeH e.s n.toNat (match o.a with | .h k => e.sig.hreg k.toNat | _ => 0)) := by
  obtain ⟨okD, okA, -, -⟩ := ops4Ok_iff.mp hok
  have hx := I.exec_fields (i := .mov h o ⟨false⟩) (x := execMov h o ⟨false⟩) rfl (by unfold execMov; exact rfl)
    (by simpa [movOk, hd, Operand.kindH] using hok)
  rw [Env.indexed_none (indexFault_of_fieldOk (by decide) (by decide) okD okA _)] at hx
  simp only [hd] at hx
  exact hx

theorem mov_to_s {n : BitVec 6} {neg abs : Bool} (hd : o.d = .s n neg abs)
    (hok : e.ops4Ok o { kinds := [.s] } { kinds := [.s, .imm, .zero] } unused unused = true) :
    Retires (.mov h o ⟨false⟩) e (e.writeS e.s n.toNat (e.uni o.a)) := by
  obtain ⟨okD, okA, -, -⟩ := ops4Ok_iff.mp hok
  have hx := I.exec_fields (i := .mov h o ⟨false⟩) (x := execMov h o ⟨false⟩) rfl (by unfold execMov; exact rfl)
    (by simpa [movOk, hd, Operand.kindH, Operand.kindS, uniPos] using hok)
  rw [Env.indexed_none (indexFault_of_fieldOk (by decide) (by decide) okD okA _)] at hx
  simp only [hd] at hx
  exact hx

/-- MOV to v, indexed and t registers, single or in pairs. -/
theorem mov_to_rows
    (hok : e.ops4Ok o { kinds := [.v, .idx], pair := x2 }
      (if x2 then { kinds := [.v, .idx], pair := true } else srcPos) unused unused = true)
    (hi : e.indexFault [(o.d, x2), (o.a, x2)] = none) :
    Retires (.mov h o ⟨x2⟩) e (writeRows e o.d x2 fun k => e.rawAt immWord k o.a) := by
  have okD := fieldOk_of_ops4Ok hok
  have perRow : Operand.kindH o.d = false ∧ Operand.kindS o.d = false := by
    cases hd : o.d with
    | h n => simp [hd, Env.fieldOk] at okD
    | s n neg abs => simp [hd, Env.fieldOk] at okD
    | _ => exact ⟨rfl, rfl⟩
  have hx := I.exec_fields (i := .mov h o ⟨x2⟩) (x := execMov h o ⟨x2⟩) rfl (by unfold execMov; exact rfl)
    (by cases x2 <;> simpa [movOk, perRow, dstPos] using hok)
  rw [Env.indexed_none hi] at hx
  split at hx
  case h_1 n hd => simp [hd, Operand.kindH] at perRow
  case h_2 n neg abs hd => simp [hd, Operand.kindS] at perRow
  case h_3 => exact hx

/-- SEL takes, in each lane, what its predicate chooses of A, B and C. -/
theorem sel_rows {pn : BitVec 3} {src : Pos} (hsrc : src = if x2 then { kinds := [.v, .idx], pair := true } else srcPos)
    (hok : e.ops4Ok o { kinds := [.v, .idx], pair := x2 } src src src = true)
    (hi : e.indexFault [(o.d, x2), (o.a, x2), (o.b, x2), (o.c, x2)] = none) :
    Retires (.sel h o ⟨pn, x2⟩) e (writeRows e o.d x2 fun k => Vector.ofFn fun l : Lane => match (e.sig.preg pn.toNat)[l] with
      | .t => (e.rawAt immWord k o.a)[l]
      | .f => (e.rawAt immWord k o.b)[l]
      | .u => (e.rawAt immWord k o.c)[l]) := by
  subst hsrc
  have hx := I.exec_fields (i := .sel h o ⟨pn, x2⟩) (x := execSel h o ⟨pn, x2⟩) rfl (by unfold execSel; exact rfl) hok
  rw [Env.indexed_none hi] at hx
  exact hx

end

section
variable {s : State} {h : Hdr} {q : Ops2} {e : Env} {imm : BitVec 32} {m : MoviMod} (I : Issues s h q.list e)
  (hok : e.ops2Ok q { kinds := [.v, .s] } unused = true)
include I hok

theorem movi_to_s {n : BitVec 6} {neg abs : Bool} (hd : q.d = .s n neg abs) :
    Retires (.movi h q imm m) e (e.writeS e.s n.toNat (moviVal m.mode.toNat imm (e.sig.sreg n.toNat))) := by
  have hx := I.exec_fields (i := .movi h q imm m) (x := execMovi h q imm m) rfl (by unfold execMovi; exact rfl) hok
  simp only [hd] at hx
  exact hx

theorem movi_to_row (hd : Operand.kindS q.d = false) :
    GivesRow (.movi h q imm m) e q.d fun l => moviVal m.mode.toNat imm (e.raw q.d)[l] := by
  have hx := I.exec_fields (i := .movi h q imm m) (x := execMovi h q imm m) rfl (by unfold execMovi; exact rfl) hok
  have row : (Vector.ofFn fun l : Lane => moviVal m.mode.toNat imm (e.raw q.d)[l]) = (e.raw q.d).map (moviVal m.mode.toNat imm) := by
    ext l hl
    simp
  unfold GivesRow
  rw [row]
  split at hx
  case h_1 n neg abs hs => simp [hs, Operand.kindS] at hd
  case h_2 => exact hx

end

/-- Settles O15. -/
theorem movesAndSelection : Obligations.MovesAndSelection := by
  intro s h o q x2 e
  refine ⟨fun I => ⟨?_, ?_, ?_, ?_, ?_⟩, fun I hok imm mode =>
    ⟨fun n neg abs hd => movi_to_s I hok hd, fun hd => movi_to_row I hok hd⟩⟩
  · rintro n hd rfl hok
    exact mov_to_h I hd hok
  · rintro n neg abs hd rfl hok
    exact mov_to_s I hd hok
  · rintro rfl hok hi
    exact mov_to_rows I hok hi
  · rintro rfl hok hi
    exact mov_to_rows I hok hi
  · intro pn src pick hok hi
    exact sel_rows I rfl hok hi

end Sys2Proof.Claim
end

