-- ==== Sys2Proof/Proofs/SpecialRegisters.lean ====
section
/-!
SREAD of each special register (R129, R134), and O16.
-/
namespace Sys2Proof.Claim
open Machine

set_option Elab.async false

section
variable {s : State} {h : Hdr} {o : Ops4} {n : BitVec 8} {e : Env} (I : Issues s h o.list e) (ha : o.a = .sr n)
include I ha

/-- The lane number is read in a v register alone. -/
theorem sread_lane (hn : n.toNat = 0) (hok : e.ops4Ok o { kinds := [.v] } { kinds := [.sr] } unused unused = true) :
    GivesRow (.sread h o) e o.d fun l => BitVec.ofNat 64 l.val := by
  have hno : srNo o.a = 0 := by rw [ha]; exact hn
  have hx := I.exec_fields (i := .sread h o) (x := execSread h o) rfl (by unfold execSread; exact rfl) (by simpa [hno] using hok)
  rw [if_pos hno] at hx
  exact hx

/-- Outside deterministic mode the cycle count advances when it is read. -/
theorem sread_cycles (hn : n.toNat = 0x11) (hdet : e.s.det e.sig.ctx = false)
    (hok : e.ops4Ok o { kinds := [.v, .s] } { kinds := [.sr] } unused unused = true) :
    Retires (.sread h o) e (e.writeUni (e.s.tickCycles e.sel.core).2 o.d (e.s.tickCycles e.sel.core).1) := by
  have hno : srNo o.a = 0x11 := by rw [ha]; exact hn
  have hx := I.exec_fields (i := .sread h o) (x := execSread h o) rfl (by unfold execSread; exact rfl)
    (by simpa [hno, Env.special] using hok)
  rw [if_neg (by omega), if_pos ⟨hno, by rw [hdet]; rfl⟩] at hx
  exact hx

/-- Every other special register is one value for all lanes. -/
theorem sread_uniform {v : Word64} (hv : e.special n.toNat = some v) (hn : n.toNat ≠ 0)
    (hc : n.toNat = 0x11 → e.s.det e.sig.ctx = true)
    (hok : e.ops4Ok o { kinds := [.v, .s] } { kinds := [.sr] } unused unused = true) :
    Retires (.sread h o) e (e.writeUni e.s o.d v) := by
  have hno : srNo o.a = n.toNat := by rw [ha]; rfl
  have hx := I.exec_fields (i := .sread h o) (x := execSread h o) rfl (by unfold execSread; exact rfl)
    (by simpa [hno, hn, hv] using hok)
  rw [hno, if_neg hn, if_neg (fun hr => by simp [hc hr.1] at hr), hv] at hx
  exact hx

end

/-- A number and the value that the uniform special register of that number has; the cycle count has entries of its own. -/
def Listed (e : Env) (p : Nat × Word64) : Prop := e.special p.1 = some p.2 ∧ p.1 ≠ 0 ∧ p.1 ≠ 0x11

/-- Settles O16. -/
theorem specialRegisters : Obligations.SpecialRegisters := by
  intro s h o n e I ha
  refine ⟨fun hn hok => sread_lane I ha hn hok, fun hok => ⟨fun hn hdet => sread_cycles I ha hn hdet hok, fun v hv => ?_⟩⟩
  rcases List.mem_append.mp hv with hv | hv
  · have listed : Listed e (n.toNat, v) := by
      refine List.forall_iff_forall_mem.mp ?_ _ hv
      cases hq : e.quire <;> cases hg : e.grid <;>
        simp [Listed, Env.special, hq, hg, clusterOf, Config.coresPerCluster, Env.portNo, rFEATACC0]
    obtain ⟨hs, h0, hc⟩ := listed
    exact sread_uniform I ha hs h0 (fun hn => absurd hn hc) hok
  · have det : e.s.det e.sig.ctx = true := by
      by_contra hd
      simp [hd] at hv
    rw [if_pos det, List.mem_singleton, Prod.mk.injEq] at hv
    obtain ⟨hn, rfl⟩ := hv
    exact sread_uniform I ha (by rw [hn]; rfl) (by omega) (fun _ => det) hok

end Sys2Proof.Claim
end

