-- ==== Sys2Proof/Proofs/QuotaTable.lean ====
section
/-!
QUOTA's take and a register table whose keys do not rise (R138): the state that refutes O17.
-/
namespace Sys2Proof.Claim
open Machine

set_option Elab.async false

/-- A signature of eight registers whose table lists register 8 before register 0, so that register 0 reads 0. -/
def unsortedSig : Sig := { bootSig with B := 8, LB := 8, v := [(8, rowZero), (0, rowOf 1)] }

/-- Its quire, with eight spare registers. -/
def spareQuire : Quire := { bootQuire with spare := 8 }

/-- The path of that signature, selected on core 0. -/
def unsortedState : State := { State.reset with
  cores := [(0, { Core.init with quires := [(0, spareQuire)], sigs := [(0, unsortedSig)] })]
  sel := some ⟨0, 0, 0, 0, false⟩ }

/-- QUOTA.take of one unit of eight registers, without a guard. -/
def takeOne : Ops4 := ⟨.zero, .imm 1, .zero, .zero⟩

def unguarded : Hdr := ⟨.always, 0, 0, false, 0⟩

/-- The environment in which it issues. -/
def unsortedEnv : Env where
  s := unsortedState
  sel := ⟨0, 0, 0, 0, false⟩
  sig := unsortedSig
  path := { idx := 0, mask := BitVec.allOnes 128, pc := 8, nest := none, rseq := 0, passes := 0, handler := false, port := 0,
            fault := none, stalled := false, wdog := none, held := false }
  act := BitVec.allOnes 128

theorem issues_unsorted : Issues unsortedState unguarded takeOne.list unsortedEnv := ⟨rfl, by decide, .inr (by decide)⟩

/-- What lane 0 reads in register 0. -/
def readsLow (g : Sig) : Word64 := (g.reg 0)[(0 : Lane)]

/-- After the take the signature reads 1 there. -/
theorem readsLow_after_take :
    (((unsortedState.modQuire 0 0 fun z => { z with spare := z.spare - 8 }).grow 0 0 8).sig? 0 0).map readsLow = some 1 := by
  decide

/-- Refutes O17: a take drops the registers that it adds from the signature's table, and where register 8 is listed before
register 0, an order that `AMap.set` does not make, register 0, which lies below the old budget, comes to light: it read 0 before
and reads 1 after. The statement does not ask that the table's keys rise. -/
theorem not_boundsAndQuotas : ¬ Obligations.BoundsAndQuotas := by
  intro claim
  obtain ⟨-, -, -, quota⟩ := claim unsortedState unguarded takeOne ⟨.zero, .zero⟩ 0 unsortedEnv
  obtain ⟨-, keyed⟩ := quota issues_unsorted (.inl (by decide)) (by decide)
  obtain ⟨-, -, taken⟩ := keyed 0 rfl
  obtain ⟨-, grown, -⟩ := taken spareQuire rfl
  obtain ⟨-, g, hg, -, reads⟩ := grown (by decide) (by decide) (by decide) (by decide) (by decide)
  have after : readsLow g = 1 := Option.some.inj ((congrArg (Option.map readsLow) hg).symm.trans readsLow_after_take)
  have same : g.reg 0 = unsortedEnv.now.reg 0 := reads 0
  have before : readsLow unsortedEnv.now = 0 := by decide
  rw [readsLow, same, ← readsLow, before] at after
  exact absurd after (by decide)

end Sys2Proof.Claim
end

