-- ==== Sys2Proof/Proofs/LoadArrives.lean ====
section
/-!
The data of a load and a port that the core does not have (R138, R264): the state that refutes O43.
-/
namespace Sys2Proof.Claim
open Machine

set_option Elab.async false

/-- Eight bytes at address 0 for lane 0, which have brought the value 1. -/
def broughtOne : Access := ⟨0, 0, .hbm 0, 8, .read, some 1⟩

/-- The record of a load into t0 by a path of port 4; a core has the ports 0 to 3. -/
def strayRecord : Record where
  slot := 0
  pidx := 0
  mask := 1
  nest := none
  handler := true
  reason := 1
  evkey := 0
  evaux := 0
  ready := false
  seen := 0
  readyord := 0
  fault := 0
  resume := 20
  pc := 8
  lb := 256
  budget := 256
  core := 0
  port := 4
  pseq := 0
  rseq := 0
  iret := 0
  wait := .load (.t 0) 0 false false false false [broughtOne]
  born := 0
  spill := none
  held := false

/-- Core 0 with that record. -/
def strayState : State := { State.reset with
  cores := [(0, { Core.init with sigs := [(0, bootSig)], records := [strayRecord] })] }

/-- A port beyond the four of a core reads 0 in every t register. -/
theorem treg_stray (s : State) (c n : Nat) : ((s.core c).port 4).treg n = rowZero := by
  simp [Core.port, Port.treg, Port.init, AMap.getD, AMap.get?]

/-- Refutes O43: the statement leaves the record's port free, and port 4 is none of a core. A load into a t register of that port
writes nothing, and t0 reads 0 in a lane whose access has brought 1. -/
theorem not_loadDataArrives : ¬ Obligations.LoadDataArrives := by
  intro claim
  obtain ⟨-, arrives⟩ := claim strayState 0 0 strayRecord bootSig (.t 0) 0 false false false false [broughtOne] []
    rfl rfl rfl (by decide) (by decide) (by simp [broughtOne])
  obtain ⟨-, -, brings⟩ := arrives (by decide)
  obtain ⟨t, g', -, -, -, toT, -⟩ := brings nofun (fun l hl => absurd hl.1 Bool.false_ne_true)
  obtain ⟨-, rows, -⟩ := toT 0 rfl
  have one : (((t.core 0).port 4).treg 0)[(0 : Lane)] = 1 := ((rows 0 (by decide) 0).1 ⟨broughtOne, by simp, rfl⟩).trans (by decide)
  rw [treg_stray] at one
  exact absurd one (by decide)

end Sys2Proof.Claim
end

