-- ==== Sys2Proof/Proofs/BodyEffects.lean ====
section
/-!
What an instruction does, read off the effect of its body: it retires, it waits, it makes the checks of an access first
(R33, R84, R252, R287).
-/
namespace Sys2Proof.Claim
open Machine

set_option Elab.async false

section
variable {i : Instr} {e : Env} {b : Eff} (hx : exec i e.s = .next (e.finish b))
include hx

theorem retires_of_finish {t : State} (hb : b = .done t) : Retires i e t := by
  subst hb
  exact hx

theorem waits_of_finish (hb : b = .stall) : Waits i e := by
  subst hb
  exact hx

/-- The checks of R252 come before what follows with the places. -/
theorem checksAt_of_finish {n : Need} {cell : Leaf → Bool} {ws : List Want} {k : List Place → Eff} (hb : b = e.reached n cell ws k) :
    ChecksAt cell i e n ws := by
  refine ⟨fun x hr => raises_of_finish hx ?_, fun pages va hr => parts_of_finish hx ?_⟩
  · rw [hb, Env.reached, hr]
  · rw [hb, Env.reached, hr]
    rfl

end

section
variable {e : Env}

theorem reached_of_ok {n : Need} {cell : Leaf → Bool} {ws : List Want} {ps : List Place}
    (hr : e.s.reach e.sig.ctx n cell ws = .ok ps) (k : List Place → Eff) : e.reached n cell ws k = k ps := by
  rw [Env.reached, hr]

theorem cellAt_of_atCell {a : Operand} {pa : Nat} (hc : AtCell e a pa) (k : Nat → Eff) : e.cellAt a k = k pa :=
  reached_of_ok hc _

/-- A "u" operand (R290). -/
theorem uVal_eq_u (e : Env) (o : Operand) : uVal e o = e.u o := by cases o <;> rfl

theorem point_of_getElem? {q : Quire} {n : Nat} {p : RvPoint} (hp : q.points[n]? = some p) : q.point n = p := by
  rw [Quire.point, hp]
  rfl

/-- R281: a point of the path's quire, initialised or not. -/
theorem pointAt_of_getElem? {o : Operand} {key : Nat} {q : Quire} {p : RvPoint} (hkey : e.sig.quire = some key)
    (hq : e.quire = some q) (hp : q.points[uVal e o]? = some p) (k : Nat → Nat → Quire → Eff) :
    e.pointAt o false k = if p.expect = 0 then .trap (trapOf cOPERAND) else k (uVal e o) key q := by
  have listed : ¬ q.points.length ≤ uVal e o := Nat.not_le.mpr (List.getElem?_eq_some_iff.mp hp).1
  simp only [Env.pointAt, hkey, hq, ← uVal_eq_u, if_neg listed, point_of_getElem? hp, Bool.not_false, true_and]

end

section
variable {s : State} {h : Hdr} {os : List Operand} {e : Env} (I : Issues s h os e)
include I

/-- An instruction whose front looks at features and operand fields performs its body where it need not wait for the serial
phase. -/
theorem Issues.exec_in_turn {i : Instr} {x : State → Host.Outcome State Fault Refusal} {feats : List Nat} {ok : Env → Bool}
    {sync : Env → Bool} {body : Env → Eff} (hi : exec i = x) (hx : x = Machine.perform h os { feats := feats, ok := ok } sync body)
    (hf : ∀ b ∈ feats, e.s.feat e.sig.ctx b = true) (hok : ok e = true) (turn : sync e = false ∨ Turn e) :
    exec i e.s = .next (e.finish (body e)) := by
  rw [hi, hx]
  exact I.perform (f := { feats := feats, ok := ok }) (fun hd => absurd hd Bool.false_ne_true) hf rfl hok turn

end

end Sys2Proof.Claim
end

