-- ==== Sys2Proof/Proofs/OrderingWaits.lean ====
section
/-!
The instructions that wait for writes, for the outstanding counter, for a phase and for a generation (R141, R294 to R297), and
O33.
-/
namespace Sys2Proof.Claim
open Machine

set_option Elab.async false

theorem passed32_mod_iff (x y : Nat) : passed32 x (y % 2 ^ 32) = true ↔ complete x (y % 2 ^ 32) := by
  simp [passed32, complete]

/-- Settles O33: each body decides in the order of the rules. -/
theorem orderingWaits : Obligations.OrderingWaits := by
  intro s h o m e I parts
  refine ⟨fun hok => ?_, fun key q p hok hkey hq hp => ?_, fun pa hok hcell => ?_⟩
  · have fence := I.exec_fields (i := .fence h o m) (x := execFence h o m) rfl rfl hok
    have ocwait := I.exec_fields (i := .ocwait h o) (x := execOcwait h o) rfl rfl hok
    exact ⟨fun hf => retires_of_finish fence (if_pos hf),
      fun hf => parts_of_finish fence (if_neg (by rw [hf]; exact Bool.false_ne_true)),
      fun ho => retires_of_finish ocwait (if_pos ho), fun ho => parts_of_finish ocwait (if_neg ho)⟩
  · have hx := I.exec_fields (i := .rvwait h o) (x := execRvwait h o) rfl rfl hok
    simp only [pointAt_of_getElem? hkey hq hp, point_of_getElem? hp, ← uVal_eq_u] at hx
    have passed := passed32_mod_iff p.phase (uVal e o.b)
    refine ⟨fun h0 => raises_of_finish hx (if_pos h0), fun h0 poisoned => ?_, fun h0 sound hc => ?_,
      fun h0 sound hc => ?_⟩ <;>
      rw [if_neg h0] at hx
    · exact raises_of_finish hx (if_pos poisoned)
    · rw [if_neg (not_not_intro sound), if_pos (passed.mpr hc)] at hx
      exact retires_of_finish hx rfl
    · rw [if_neg (not_not_intro sound), if_neg (mt passed.mp hc)] at hx
      exact parts_of_finish hx rfl
  · have hx := I.exec_fields (i := .mbwait h o) (x := execMbwait h o) rfl rfl hok
    simp only [cellAt_of_atCell hcell, ← uVal_eq_u] at hx
    have passed := passed32_mod_iff (e.s.cell pa).gen (uVal e o.b)
    refine ⟨fun hk => raises_of_finish hx (if_pos hk), fun hk hc => ?_, fun hk hc => ?_⟩ <;>
      rw [if_neg (not_not_intro hk)] at hx
    · exact retires_of_finish hx (if_pos (passed.mpr hc))
    · exact parts_of_finish hx (if_neg (mt passed.mp hc))

end Sys2Proof.Claim
end

