-- ==== Sys2Proof/Proofs/Handles.lean ====
section
/-!
Handles: the fields of a handle's value, the state of a new operation, the check of R155, and O36.
-/
namespace Sys2Proof.Machine

set_option Elab.async false

section
variable {kind unit ctx seq : Nat} (hkind : kind < 16) (hunit : unit < 256) (hctx : ctx < 1024) (hseq : seq < 2 ^ 40)
include hkind hunit hctx hseq

theorem handleVal_toNat : (handleVal kind unit ctx seq).toNat = kind * 2 ^ 60 + unit * 2 ^ 52 + ctx * 2 ^ 40 + seq := by
  rw [handleVal, BitVec.toNat_ofNat]
  omega

/-- A handle's value keeps its four fields. -/
theorem handleVal_fields : hKind (handleVal kind unit ctx seq) = kind ∧ hUnit (handleVal kind unit ctx seq) = unit ∧
    hCtx (handleVal kind unit ctx seq) = ctx ∧ hSeq (handleVal kind unit ctx seq) = seq := by
  simp only [hKind, hUnit, hCtx, hSeq, handleVal_toNat hkind hunit hctx hseq]
  omega

end

/-- The unit of a new operation. -/
theorem State.hunit_newHandle (s : State) (kind unit ctx : Nat) : (s.newHandle kind unit ctx).2.hunit kind unit ctx =
    ⟨(s.hunit kind unit ctx).next + 1, AMap.set (s.hunit kind unit ctx).ops (s.hunit kind unit ctx).next ⟨0, 0, 0⟩⟩ :=
  AMap.getD_set_self _ _ _ _

/-- R156: a new operation is PENDING. -/
theorem State.handleState_newHandle {s : State} {kind unit ctx : Nat} (hkind : kind < 16) (hunit : unit < 256) (hctx : ctx < 1024)
    (hnext : (s.hunit kind unit ctx).next < 2 ^ 40) :
    ((s.newHandle kind unit ctx).2.handleState (handleVal kind unit ctx (s.hunit kind unit ctx).next)).code = 0 := by
  obtain ⟨fkind, funit, fctx, fseq⟩ := handleVal_fields hkind hunit hctx hnext
  have young : ¬ (s.hunit kind unit ctx).next + 65536 < (s.hunit kind unit ctx).next + 1 := by omega
  simp [State.handleState, fkind, funit, fctx, fseq, State.hunit_newHandle, AMap.get?_set_self, young]

/-- The form that R155 asks of a value. -/
theorem handleFormOk_iff (ctx : Nat) (x : Word64) : handleFormOk ctx x = true ↔
    1 ≤ x.toNat / 2 ^ 60 ∧ x.toNat / 2 ^ 60 ≤ 5 ∧ x.toNat / 2 ^ 40 % 1024 = ctx ∧ x.toNat / 2 ^ 50 % 4 = 0 := by
  simp only [handleFormOk, Bool.and_eq_true, decide_eq_true_eq, beq_iff_eq, and_assoc]
  rfl

/-- The word of HSTAT, field by field (R158). -/
theorem HState.word_eq (x : HState) : x.word =
    BitVec.ofNat 64 (x.code + 2 ^ 8 * (if x.code = 3 then x.cause % 2 ^ 8 else 0) + 2 ^ 32 * (x.detail % 2 ^ 32)) := by
  rw [HState.word, Nat.mul_comm (2 ^ 8), Nat.mul_comm (2 ^ 32)]
  rfl

/-- What HTEST writes in every lane. -/
theorem replicate_ended (c : Nat) : Vector.replicate 128 (Tri.ofBool (c != 0)) = (Vector.ofFn fun _ : Lane => if c = 0 then Tri.f else .t) := by
  ext i hi
  by_cases hc : c = 0 <;> simp [hc, Tri.ofBool]

theorem Env.handle_of_eq {e : Env} {o : Operand} {n : BitVec 4} (ho : o = .h n) : e.handle o = e.sig.hreg n.toNat := by rw [ho]; rfl

end Sys2Proof.Machine

namespace Sys2Proof.Claim
open Machine

set_option Elab.async false

/-- The check of R155 on the handle in an h register, before what follows with it. -/
theorem handle_checked {i : Instr} {e : Env} {o : Operand} {n : BitVec 4} {k : Word64 → Eff} {good : Prop}
    (hx : exec i e.s = .next (e.finish (e.checkedHandle o k))) (ho : o = .h n)
    (follows : exec i e.s = .next (e.finish (k (e.sig.hreg n.toNat))) → good) :
    (e.s.handleOk e.sig.ctx (e.sig.hreg n.toNat) = false → Raises i e ⟨0x11, 0, none⟩) ∧
    (e.s.handleOk e.sig.ctx (e.sig.hreg n.toNat) = true → good) := by
  rw [Env.checkedHandle, Env.handle_of_eq ho] at hx
  refine ⟨fun bad => raises_of_finish hx (if_neg (by rw [bad]; exact Bool.false_ne_true)), fun valid => follows ?_⟩
  rw [hx, if_pos valid]

/-- Settles O36, from the fields of a handle's value and the check that stands before each body. -/
theorem handles : Obligations.Handles := by
  refine ⟨fun s kind unit ctx hkind hunit hctx hnext => ?_, fun s h o e n I => ?_⟩
  · exact ⟨rfl, congrArg HUnit.next (s.hunit_newHandle kind unit ctx), State.handleState_newHandle hkind hunit hctx hnext⟩
  intro x st hp checked
  refine ⟨fun ha hok => ⟨?_, ?_⟩, fun ha hok => ?_, fun ha hok => ?_, fun hd hok => ?_, fun d neg abs hd ha hok => ?_⟩
  · refine handle_checked (I.exec_fields (i := .hwait h o) (x := execHwait h o) rfl rfl hok :) ha fun hx => ?_
    exact ⟨fun ended => retires_of_finish hx (if_neg ended), fun pending => parts_of_finish hx (if_pos pending)⟩
  · exact handle_checked (I.exec_fields (i := .hcancel h o) (x := execHcancel h o) rfl rfl hok :) ha fun hx => hx
  · refine handle_checked (I.exec_fields (i := .htest h o) (x := execHtest h o) rfl rfl hok :) ha fun hx => ?_
    exact retires_of_finish hx (congrArg (fun r => Eff.done (e.writeP e.s (pregNo o.d) r)) (replicate_ended _))
  · refine handle_checked (I.exec_fields (i := .hstat h o) (x := execHstat h o) rfl rfl hok :) ha fun hx => ?_
    exact retires_of_finish hx (congrArg (fun w => Eff.done (e.writeUni e.s o.d w)) (HState.word_eq _))
  · have intoH : Machine.Operand.isH o.d = true := by rw [hd]; rfl
    have hx := I.exec_fields (i := .hmov h o) (x := execHmov h o) rfl rfl ((if_pos intoH).trans hok)
    rw [if_pos intoH, hd] at hx
    exact ⟨fun ok => retires_of_finish hx (if_pos ((handleFormOk_iff _ _).mpr ok)),
      fun bad => raises_of_finish hx (if_neg (mt (handleFormOk_iff _ _).mp bad))⟩
  · have intoS : ¬ Machine.Operand.isH o.d = true := by rw [hd]; exact Bool.false_ne_true
    have hx := I.exec_fields (i := .hmov h o) (x := execHmov h o) rfl rfl ((if_neg intoS).trans hok)
    rw [if_neg intoS, hd, Env.handle_of_eq ha] at hx
    exact retires_of_finish hx rfl

end Sys2Proof.Claim
end

