-- ==== Sys2Proof/Proofs/TasksAndLaunches.lean ====
section
/-!
Tasks and launches (R163, R167 to R169), and O37.
-/
namespace Sys2Proof.Machine

set_option Elab.async false

/-- What a place holds is read without an effect on the contexts. -/
theorem State.readPlace_ctxs (s : State) (p : Place) (n : Nat) : (s.readPlace p n).2.ctxs = s.ctxs := by
  unfold State.readPlace
  split
  · split
    · rfl
    · unfold State.loadPlace
      split <;> rfl
  · rfl

theorem State.readPlaces_ctxs {n : Nat} {s : State} {ps : List Place} {x : List Byte × State}
    (h : State.readPlaces n s ps = some x) : x.2.ctxs = s.ctxs := by
  induction ps generalizing s x with
  | nil => cases h; rfl
  | cons p r ih =>
    rw [State.readPlaces] at h
    split at h
    · cases h
    · obtain ⟨y, hy, rfl⟩ := Option.map_eq_some_iff.mp h
      exact (ih hy).trans (s.readPlace_ctxs p n)

theorem State.regN_congr {s t : State} (h : t.ctxs = s.ctxs) (ctx num : Nat) : t.regN ctx num = s.regN ctx num := by
  simp only [State.regN, State.reg, State.ctx, h]

theorem Env.orderKey_eq_serialKey (e : Env) : e.orderKey = Claim.serialKey e := by
  unfold Env.orderKey Claim.serialKey Sig.place Sig.rank
  cases e.sig.quire <;> rfl

/-- A device queue with one block more, in the queue itself or in its overflow (R168). -/
def DevQ.append (d : DevQ) (direct : Bool) (info : QMeta) : DevQ :=
  { d with info := d.info ++ [info], len := if direct then d.len + 1 else d.len, olen := if direct then d.olen else d.olen + 1 }

/-- Device queue q of the path's context. -/
def Env.devq (e : Env) (q : Nat) : DevQ := AMap.getD (e.s.ctx e.sig.ctx).devq q DevQ.init

/-- The serial number of the child grid's handle, and t with that handle in D; no handle where D is no h register. -/
def Env.withChild (e : Env) (d : Operand) (t : State) : Option Nat × State :=
  if Operand.isH d then
    let x := t.newHandle 5 0 e.sig.ctx
    (some x.1, e.writeH x.2 (hregNo d) (handleVal 5 0 e.sig.ctx x.1))
  else (none, t)

/-- t with the child grid's handle, and the entry of its block in device queue q. -/
def Env.enqueued (e : Env) (d : Operand) (q : Nat) (direct : Bool) (t : State) : State :=
  (e.withChild d t).2.modCtx e.sig.ctx fun c =>
    { c with devq := AMap.set c.devq q ((e.devq q).append direct ⟨e.sig.grid, (e.withChild d t).1, Claim.serialKey e, false⟩) }

/-- The same with the bytes of the block at an address; the context is lost where they cannot be written there (R411). -/
def Env.stored (e : Env) (d : Operand) (q : Nat) (direct : Bool) (addr : Nat) (bytes : List Byte) (t : State) : State :=
  match (e.enqueued d q direct t).areaWrite e.sig.ctx addr bytes with
  | .ok u => u
  | .error c => (e.enqueued d q direct t).areaLost e.sig.ctx c
    { source := 2, core := e.sel.core, grid := e.sig.grid, addr := BitVec.ofNat 64 addr, aux0 := BitVec.ofNat 64 q }

/-- What DLAUNCH does with its block (R168, R169): into the queue, or into the overflow, parting, or QFULL. -/
def Env.launch (e : Env) (d : Operand) (q : Nat) (bytes : List Byte) (t : State) : Eff :=
  let direct := decide ((e.devq q).len < 256)
  if !direct ∧ t.overflowSlots e.sig.ctx ≤ (e.devq q).olen then .trap (trapOf cQFULL)
  else
    let addr := if direct then t.queueAddr e.sig.ctx q ((e.devq q).head + (e.devq q).len)
      else t.overflowAddr e.sig.ctx q ((e.devq q).ohead + (e.devq q).olen)
    if direct then .done (e.stored d q direct addr bytes t)
    else .part (e.stored d q direct addr bytes t)
      { reason := 0x0D, evkey := BitVec.ofNat 64 q, resume := e.next
        wait := .launch ((e.devq q).head + (e.devq q).len + (e.devq q).olen) }

section
variable {e : Env} {d : Operand} {q : Nat} {bytes : List Byte} {t u : State} (ht : t.ctxs = e.s.ctxs)

theorem Env.stored_of_ok {direct : Bool} {addr : Nat} (hw : (e.enqueued d q direct t).areaWrite e.sig.ctx addr bytes = .ok u) :
    e.stored d q direct addr bytes t = u := by
  rw [Env.stored, hw]

include ht

/-- A queue that has room takes the block. -/
theorem Env.launch_of_room (hl : (e.devq q).len < 256) (hw : (e.enqueued d q true t).areaWrite e.sig.ctx
      (e.s.regN e.sig.ctx 0x0E + q * 65536 + 256 * (((e.devq q).head + (e.devq q).len) % 256)) bytes = .ok u) :
    e.launch d q bytes t = .done u := by
  have addr : t.queueAddr e.sig.ctx q ((e.devq q).head + (e.devq q).len) =
      e.s.regN e.sig.ctx 0x0E + q * 65536 + 256 * (((e.devq q).head + (e.devq q).len) % 256) := by
    rw [State.queueAddr, State.regN_congr ht]
    rfl
  simp only [Env.launch, decide_eq_true hl, Bool.not_true, Bool.false_eq_true, false_and, if_false, if_true, addr, Env.stored_of_ok hw]

theorem State.overflowSlots_congr : t.overflowSlots e.sig.ctx = e.s.regN e.sig.ctx 0x10 / 16 / 256 := by
  rw [State.overflowSlots, State.regN_congr ht]
  rfl

/-- An overflow that has room takes the block of a full queue, and the path parts. -/
theorem Env.launch_of_overflow (hl : 256 ≤ (e.devq q).len) (ho : (e.devq q).olen < e.s.regN e.sig.ctx 0x10 / 16 / 256)
    (hw : (e.enqueued d q false t).areaWrite e.sig.ctx (e.s.regN e.sig.ctx 0x0F + q * (e.s.regN e.sig.ctx 0x10 / 16) +
      256 * (((e.devq q).ohead + (e.devq q).olen) % (e.s.regN e.sig.ctx 0x10 / 16 / 256))) bytes = .ok u) :
    e.launch d q bytes t = .part u { reason := 0x0D, evkey := BitVec.ofNat 64 q, resume := e.next
                                     wait := .launch ((e.devq q).head + (e.devq q).len + (e.devq q).olen) } := by
  have addr : t.overflowAddr e.sig.ctx q ((e.devq q).ohead + (e.devq q).olen) =
      e.s.regN e.sig.ctx 0x0F + q * (e.s.regN e.sig.ctx 0x10 / 16) +
        256 * (((e.devq q).ohead + (e.devq q).olen) % (e.s.regN e.sig.ctx 0x10 / 16 / 256)) := by
    rw [State.overflowAddr, State.overflowSlots_congr ht, State.regN_congr ht, State.regN_congr ht]
    rfl
  simp only [Env.launch, decide_eq_false (Nat.not_lt.mpr hl), State.overflowSlots_congr ht, Nat.not_le.mpr ho, and_false, if_false,
    Bool.false_eq_true, addr, Env.stored_of_ok hw]

theorem Env.launch_of_full (hl : 256 ≤ (e.devq q).len) (ho : e.s.regN e.sig.ctx 0x10 / 16 / 256 ≤ (e.devq q).olen) :
    e.launch d q bytes t = .trap (trapOf cQFULL) :=
  if_pos ⟨by rw [decide_eq_false (Nat.not_lt.mpr hl)]; rfl, by rwa [State.overflowSlots_congr ht]⟩

end

end Sys2Proof.Machine

namespace Sys2Proof.Claim
open Machine

set_option Elab.async false

section
variable {s : State} {h : Hdr} {o : Ops4} {e : Env} {g : Grid} (I : Issues s h o.list e)
include I

theorem targ_gives (hf : e.s.feat e.sig.ctx 7 = true) {i : BitVec 12} (ha : o.a = .imm i) (hi : i.toNat ≤ 1)
    (hok : e.ops4Ok o dstPos { kinds := [.imm] } unused unused = true) (hd : e.indexFault [(o.d, false)] = none) :
    GivesRow (.targ h o) e o.d fun l => match AMap.get? e.sig.tasks l.val with
      | some (a, b) => if i = 0 then a else b
      | none => 0 := by
  have word : ctlNo o.a = 0 ↔ i = 0 := by
    rw [ha]
    exact BitVec.toNat_eq (y := 0#12) |>.symm
  have hx := I.exec_in_turn (i := .targ h o) (x := execTarg h o) (feats := [7]) rfl (by unfold execTarg; exact rfl)
    (by simpa using hf) (by simp [ha, hi, ← hok]) (.inl rfl)
  rw [Env.indexed_none hd] at hx
  simp only [word] at hx
  exact retires_of_finish hx rfl

/-- TSPAWN in its turn, by a path whose grid is g. -/
theorem exec_tspawn {m : TspMod} (hf : e.s.feat e.sig.ctx 7 = true) (hg : e.grid = some g)
    (hok : e.ops4Ok o unused dstPos { kinds := [.v, .s, .imm] } { kinds := [.v, .s, .imm, .zero] } = true) (T : Turn e) :
    exec (.tspawn h o m) e.s = .next (e.finish (
      if (g.blk.tasktab == 0 || !e.groupOk o.a (m.n.toNat + 1)) = true then .trap (trapOf cOPERAND)
      else e.indexed [(o.a, false)] fun _ =>
        if (e.failing fun l => decide ((e.raw o.b)[l].toNat ≤ 255)) ≠ 0 then .trap (trapOf cOPERAND)
        else
          let ts := (lanesOf e.act).map (e.taskOf o (m.n.toNat + 1))
          if e.s.taskRoom e.sig.ctx e.sel.core ts.length = true then
            .done (ts.foldl (fun (t : State) x => t.pushTask e.sig.ctx x) e.s)
          else .part e.s { reason := 0x0E, evkey := 0, resume := e.next, wait := .spawn ts })) := by
  have hx := I.exec_in_turn (i := .tspawn h o m) (x := execTspawn h o m) (feats := [7]) rfl (by unfold execTspawn; exact rfl)
    (by simpa using hf) hok (.inr T)
  rw [hg] at hx
  exact hx

theorem tspawn_pushes_or_parts {m : TspMod} (hf : e.s.feat e.sig.ctx 7 = true) (hg : e.grid = some g)
    (hok : e.ops4Ok o unused dstPos { kinds := [.v, .s, .imm] } { kinds := [.v, .s, .imm, .zero] } = true) (T : Turn e)
    (htab : g.blk.tasktab ≠ 0) (hgroup : e.groupOk o.a (m.n.toNat + 1) = true) (hindex : e.indexFault [(o.a, false)] = none) :
    ((∃ l, Active e l ∧ 255 < (e.raw o.b)[l].toNat) → Raises (.tspawn h o m) e ⟨0x02, 0, none⟩) ∧
    ((∀ l, Active e l → (e.raw o.b)[l].toNat ≤ 255) →
      let ts := (lanesOf e.act).map (e.taskOf o (m.n.toNat + 1))
      (e.s.taskRoom e.sig.ctx e.sel.core ts.length = true →
        Retires (.tspawn h o m) e (ts.foldl (fun (t : State) x => t.pushTask e.sig.ctx x) e.s)) ∧
      (e.s.taskRoom e.sig.ctx e.sel.core ts.length = false →
        let p : PartSpec := { reason := 0x0E, evkey := 0, resume := e.next, wait := .spawn ts }
        (∃ u, e.part e.s p = .ok u) → Parts (.tspawn h o m) e e.s p)) := by
  have hx := exec_tspawn (m := m) I hf hg hok T
  rw [if_neg (by simp [htab, hgroup]), Env.indexed_none hindex] at hx
  have entries := Env.failing_zero e fun l => decide ((e.raw o.b)[l].toNat ≤ 255)
  simp only [decide_eq_true_eq] at entries
  refine ⟨fun ⟨l, hl, big⟩ => raises_of_finish hx (if_pos fun none => Nat.not_le.mpr big (entries.mp none l hl)), fun small => ?_⟩
  rw [if_neg (not_not_intro (entries.mpr small))] at hx
  exact ⟨fun room => retires_of_finish hx (if_pos room),
    fun full => parts_of_finish hx (if_neg (by rw [full]; exact Bool.false_ne_true))⟩

/-- DLAUNCH in its turn, by a path of a quire whose grid is g. -/
theorem exec_dlaunch {m : DlMod} {key : Nat} (T : Turn e) (hf : e.s.feat e.sig.ctx 8 = true)
    (hok : e.ops4Ok o { kinds := [.h, .zero] } { kinds := [.s] } unused unused = true)
    (hkey : e.sig.quire = some key) (hg : e.grid = some g) :
    exec (.dlaunch h o m) e.s = .next (e.finish (
      if e.sig.sigix ≠ 0 then .trap (trapOf cOPERAND)
      else if g.blk.depth = 10 then .trap (trapOf cDEPTH)
      else e.reached { r := true } anyPage ((List.range 4).map fun i => ⟨0, e.uni o.a + BitVec.ofNat 64 (64 * i), 64⟩) fun ps =>
        e.released fun _ => match e.s.readPlaces 64 ps with
          | none => .trap (trapAt cACCESS (e.uni o.a).toNat)
          | some block => e.launch o.d m.q.toNat (setField block.1 4 1 (g.blk.depth + 1)) block.2)) := by
  have hx := I.exec_in_turn (i := .dlaunch h o m) (x := execDlaunch h o m) (feats := [8]) rfl (by unfold execDlaunch; exact rfl)
    (by simpa using hf) hok (.inr T)
  rw [hx]
  simp only [hkey, hg, Option.isNone_some, Bool.false_eq_true, false_or, beq_iff_eq]
  congr 5
  funext ps
  congr 1
  funext _
  cases e.s.readPlaces 64 ps with
  | none => rfl
  | some block =>
    rw [Env.orderKey_eq_serialKey]
    unfold Env.launch Env.stored Env.enqueued Env.withChild
    cases Machine.Operand.isH o.d <;> rfl

/-- Where the block of DLAUNCH lies in memory that can be read, it waits for the path's stores and then launches it. -/
theorem dlaunch_of_block {m : DlMod} {key : Nat} (T : Turn e) (hf : e.s.feat e.sig.ctx 8 = true)
    (hok : e.ops4Ok o { kinds := [.h, .zero] } { kinds := [.s] } unused unused = true)
    (hkey : e.sig.quire = some key) (hg : e.grid = some g) (hsig : e.sig.sigix = 0) (hdepth : g.blk.depth ≠ 10)
    {ps : List Place} {block : List Byte × State}
    (hr : e.s.reach e.sig.ctx { r := true } anyPage
      ((List.range 4).map fun i => ⟨0, e.uni o.a + BitVec.ofNat 64 (64 * i), 64⟩) = .ok ps)
    (hb : State.readPlaces 64 e.s ps = some block) :
    exec (.dlaunch h o m) e.s = .next (e.finish (
      e.released fun _ => e.launch o.d m.q.toNat (setField block.1 4 1 (g.blk.depth + 1)) block.2)) := by
  rw [exec_dlaunch I T hf hok hkey hg, if_neg (not_not_intro hsig), if_neg hdepth, reached_of_ok hr, hb]

end

/-- D of DLAUNCH. -/
theorem h_or_zero_of_ops4Ok {e : Env} {o : Ops4} {a b c : Pos} (hok : e.ops4Ok o { kinds := [.h, .zero] } a b c = true) :
    (∃ n, o.d = .h n) ∨ o.d = .zero := by
  have fits := fieldOk_of_ops4Ok hok
  cases hd : o.d with
  | h n => exact .inl ⟨n, rfl⟩
  | zero => exact .inr rfl
  | _ => simp [Env.fieldOk, hd] at fits

/-- Settles O37: TSPAWN and TARG from their bodies, DLAUNCH from what becomes of its block in a queue with room, in an overflow with
room, and with neither. -/
theorem tasksAndLaunches : Obligations.TasksAndLaunches := by
  refine ⟨fun s h o m e g I hf hg => ⟨fun hok T => ⟨fun h0 => ?_, tspawn_pushes_or_parts I hf hg hok T⟩,
    fun i ha hi hok hd => targ_gives I hf ha hi hok hd⟩, fun s h o m e key g I T hf hok hkey hg => ?_⟩
  · exact raises_of_finish (exec_tspawn I hf hg hok T) (if_pos (by simp [h0]))
  have hx := exec_dlaunch (m := m) I T hf hok hkey hg
  refine ⟨fun hs => raises_of_finish hx (if_pos hs), fun hs hdepth => ?_, fun hs hdepth => ?_, fun ps block hs hdepth hr hb => ?_⟩
  · rw [if_neg (not_not_intro hs)] at hx
    exact raises_of_finish hx (if_pos hdepth)
  · rw [if_neg (not_not_intro hs), if_neg hdepth] at hx
    exact checksAt_of_finish hx rfl
  have ht := State.readPlaces_ctxs hb
  replace hx := dlaunch_of_block (m := m) I T hf hok hkey hg hs hdepth hr hb
  refine ⟨fun left => waits_of_finish hx (if_pos left), fun performed => ?_⟩
  rw [Env.released, if_neg (by rw [performed]; exact Bool.false_ne_true)] at hx
  obtain ⟨n, hd⟩ | hd := h_or_zero_of_ops4Ok hok
  all_goals
    rw [hd] at hx ⊢
    exact ⟨fun hl t hw => retires_of_finish hx (Env.launch_of_room ht hl hw),
      fun hl ho t hw => parts_of_finish hx (Env.launch_of_overflow ht hl ho hw),
      fun hl ho => raises_of_finish hx (Env.launch_of_full ht hl ho)⟩

end Sys2Proof.Claim
end

