-- ==== Sys2Proof/Proofs/MemoryLeft.lean ====
section
/-!
Bodies that leave HBM and host memory as they were: what they store is on its way, or is left to an agent (R234, R264, R266).
-/
namespace Sys2Proof.Machine

set_option Elab.async false

/-! ### States with the same memory -/

/-- HBM and host memory hold in t what they hold in s. -/
structure SameMemory (s t : State) : Prop where
  hbm : t.hbm = s.hbm
  host : t.host = s.host

theorem SameMemory.refl (s : State) : SameMemory s s := ⟨rfl, rfl⟩

theorem SameMemory.trans {s t u : State} (h : SameMemory s t) (k : SameMemory t u) : SameMemory s u :=
  ⟨k.hbm.trans h.hbm, k.host.trans h.host⟩

theorem SameMemory.foldl {α : Type} {f : State → α → State} (hf : ∀ s a, SameMemory s (f s a)) (l : List α) (s : State) :
    SameMemory s (l.foldl f s) := by
  induction l generalizing s with
  | nil => exact .refl s
  | cons a l ih => exact (hf s a).trans (ih _)

theorem SameMemory.ite {c : Prop} [Decidable c] {s t u : State} (ht : c → SameMemory s t) (hu : ¬ c → SameMemory s u) :
    SameMemory s (if c then t else u) := by
  split
  · exact ht ‹_›
  · exact hu ‹_›

/-- Asking for a page adds to the fills alone. -/
theorem State.askFill_eq (s : State) (ctx : Nat) (l : Leaf) : ∃ fills, s.askFill ctx l = { s with fills := fills } := by
  unfold State.askFill
  split
  · exact ⟨s.fills, rfl⟩
  · exact ⟨_, rfl⟩

theorem State.askFills_eq (s : State) (ctx : Nat) (ls : List Leaf) : ∃ fills, s.askFills ctx ls = { s with fills := fills } := by
  unfold State.askFills
  induction ls generalizing s with
  | nil => exact ⟨s.fills, rfl⟩
  | cons l ls ih =>
    obtain ⟨first, hfirst⟩ := s.askFill_eq ctx l
    obtain ⟨rest, hrest⟩ := ih (s.askFill ctx l)
    exact ⟨rest, hrest.trans (by rw [hfirst])⟩

/-- SC operations join those that wait at the thimble. -/
theorem State.queueSc_eq (s : State) (ops : List ScOp) : ∃ thimble, s.queueSc ops = { s with thimble := thimble } := by
  unfold State.queueSc
  induction ops generalizing s with
  | nil => exact ⟨s.thimble, rfl⟩
  | cons o ops ih => exact ih _

/-- PREF asks for pages and lines (R268). -/
theorem State.prefetch_sameMemory (s : State) (ctx a n : Nat) (lines : Bool) : SameMemory s (s.prefetch ctx a n lines) := by
  have asked (l : List Leaf) (t : State) : SameMemory t (l.foldl (fun t l => t.askFill ctx l) t) :=
    .foldl (fun t l => by obtain ⟨fills, h⟩ := t.askFill_eq ctx l; rw [h]; exact ⟨rfl, rfl⟩) l t
  unfold State.prefetch
  refine .ite (fun _ => .refl s) fun _ => .ite (fun _ => (asked _ s).trans (.foldl (fun t l => .foldl (fun u i => ?_) _ t) _ _))
    fun _ => asked _ s
  split
  · exact ⟨rfl, rfl⟩
  · exact .refl u

/-! ### Parting with room in the store -/

theorem Core.storeFull_congr {k x : Core} (h : k.records = x.records) : k.storeFull = x.storeFull := by
  rw [Core.storeFull, h, Core.storeFull]

/-- A record that finds room in the store is written nowhere else. -/
theorem Env.part_sameMemory {e : Env} {s t : State} {p : PartSpec} (room : (s.core e.sel.core).storeFull = false)
    (hp : e.part s p = .ok t) : SameMemory s t := by
  unfold Env.part at hp
  simp only [room, Bool.and_false, Bool.false_eq_true, if_false, Option.map_none, false_and] at hp
  split at hp
  · cases hp
    exact .refl s
  · cases hp
    exact ⟨rfl, rfl⟩

/-! ### Bodies -/

/-- A body that leaves memory as it was, and that parts with the records of its core as they were. -/
inductive LeavesMemory (e : Env) : Eff → Prop where
  | done {t : State} (h : SameMemory e.s t) : LeavesMemory e (.done t)
  | moved {t : State} (h : SameMemory e.s t) : LeavesMemory e (.moved t)
  | part {t : State} {p : PartSpec} (h : SameMemory e.s t) (records : (t.core e.sel.core).records = e.core.records) :
      LeavesMemory e (.part t p)
  | trap (x : Trap) : LeavesMemory e (.trap x)
  | stall : LeavesMemory e .stall

/-- The state behind such a body, unless it raises a fault. -/
theorem LeavesMemory.finish {e : Env} {x : Eff} (hx : LeavesMemory e x) (room : e.core.storeFull = false) :
    (∃ y, e.finish x = e.raise y) ∨ SameMemory e.s (e.finish x) := by
  cases hx with
  | done h => exact .inr ⟨h.hbm, h.host⟩
  | moved h => exact .inr ⟨h.hbm, h.host⟩
  | trap y => exact .inl ⟨y, rfl⟩
  | stall => exact .inr ⟨rfl, rfl⟩
  | @part t p h records =>
    cases hp : e.part t p with
    | error y => exact .inl ⟨y, by simp only [Env.finish, hp]⟩
    | ok u =>
      refine .inr ?_
      simp only [Env.finish, hp]
      exact h.trans (Env.part_sameMemory ((Core.storeFull_congr records).trans room) hp)

section
variable {e : Env}

theorem LeavesMemory.part_here (p : PartSpec) : LeavesMemory e (.part e.s p) := .part (.refl _) rfl

theorem LeavesMemory.ite {c : Prop} [Decidable c] {x y : Eff} (hx : c → LeavesMemory e x) (hy : ¬ c → LeavesMemory e y) :
    LeavesMemory e (if c then x else y) := by
  split
  · exact hx ‹_›
  · exact hy ‹_›

/-- A check that may fail comes first. -/
theorem LeavesMemory.check {fault : Option Trap} {x : Eff} (h : LeavesMemory e x) :
    LeavesMemory e (match fault with | some y => .trap y | none => x) := by
  split
  · exact .trap _
  · exact h

theorem LeavesMemory.indexed {os : List (Operand × Bool)} {k : Unit → Eff} (h : LeavesMemory e (k ())) :
    LeavesMemory e (e.indexed os k) := by
  unfold Env.indexed
  split
  · exact .trap _
  · exact h

theorem LeavesMemory.released {k : Unit → Eff} (h : LeavesMemory e (k ())) : LeavesMemory e (e.released k) :=
  .ite (fun _ => .stall) fun _ => h

theorem LeavesMemory.reached {n : Need} {cell : Leaf → Bool} {ws : List Want} {k : List Place → Eff}
    (h : ∀ ps, LeavesMemory e (k ps)) : LeavesMemory e (e.reached n cell ws k) := by
  unfold Env.reached
  split
  · exact .trap _
  · rename_i pages va _
    obtain ⟨fills, hfills⟩ := e.s.askFills_eq e.sig.ctx pages
    rw [Env.partPage, hfills]
    exact .part ⟨rfl, rfl⟩ rfl
  · exact h _

theorem LeavesMemory.lanesReached {n : Need} {ea : Row} {size : Nat} {k : List (Lane × Nat × Place) → Eff}
    (h : ∀ acc, LeavesMemory e (k acc)) : LeavesMemory e (e.lanesReached n ea size k) := .reached fun _ => h _

theorem LeavesMemory.cellAt {a : Operand} {k : Nat → Eff} (h : ∀ pa, LeavesMemory e (k pa)) : LeavesMemory e (e.cellAt a k) := by
  refine .reached fun ps => ?_
  split
  · exact h _
  · exact .trap _

theorem LeavesMemory.checkedHandle {o : Operand} {k : Word64 → Eff} (h : ∀ x, LeavesMemory e (k x)) :
    LeavesMemory e (e.checkedHandle o k) := .ite (fun _ => h _) fun _ => .trap _

theorem LeavesMemory.pointAt {o : Operand} {init : Bool} {k : Nat → Nat → Quire → Eff} (h : ∀ n key q, LeavesMemory e (k n key q)) :
    LeavesMemory e (e.pointAt o init k) := by
  unfold Env.pointAt
  split
  · exact .ite (fun _ => .trap _) fun _ => .ite (fun _ => .trap _) fun _ => h _ _ _
  · exact .trap _

theorem LeavesMemory.pointNo {n : Nat} {k : Unit → Eff} (h : LeavesMemory e (k ())) : LeavesMemory e (e.pointNo n k) := by
  unfold Env.pointNo
  split
  · exact .ite (fun _ => .trap _) fun _ => .ite (fun _ => .trap _) fun _ => h
  · exact .trap _

/-! ### Control -/

theorem LeavesMemory.branch {s : State} (h : SameMemory e.s s) (arms : List Arm) : LeavesMemory e (e.branch s arms) := by
  unfold Env.branch
  split
  · exact .done h
  · exact .moved ⟨h.hbm, h.host⟩
  · exact .ite (fun _ => .trap _) fun _ => .moved ⟨h.hbm, h.host⟩

theorem LeavesMemory.branchTo (a : Operand) : LeavesMemory e (e.branchTo a) :=
  .ite (fun _ => .trap _) fun _ => .branch (.refl _) _

theorem LeavesMemory.tret (f : Word64 → Word64) : LeavesMemory e (e.tret f) :=
  .ite (fun _ => .trap _) fun _ => .ite (fun _ => .trap _) fun _ => .moved ⟨rfl, rfl⟩

end
end Sys2Proof.Machine
end

