-- ==== Sys2Proof/Proofs/MemoryFrame.lean ====
section
/-!
The instructions that write more than registers and leave memory alone at their issue (R140, R143, R234, R264, R266, R289), and O60.
-/
namespace Sys2Proof.Machine

set_option Elab.async false

section
variable {e : Env}

/-! ### Local and global memory -/

theorem State.localWrites_sameMemory (s : State) (core space : Nat) (a : Lane → Nat) (bs : Lane → List Byte) (ls : List Lane) :
    SameMemory s (ls.foldl (fun (s : State) l => s.localWrite core space (a l) (bs l)) s) :=
  .foldl (fun s l => (⟨rfl, rfl⟩ : SameMemory s (s.localWrite core space (a l) (bs l)))) ls s

theorem State.drawRows_sameMemory (s : State) : SameMemory s s.drawRows.2 := ⟨rfl, rfl⟩

theorem State.modCore_sameMemory (s : State) (core : Nat) (f : Core → Core) : SameMemory s (s.modCore core f) := ⟨rfl, rfl⟩

theorem State.modQuire_sameMemory (s : State) (core key : Nat) (f : Quire → Quire) : SameMemory s (s.modQuire core key f) := ⟨rfl, rfl⟩

theorem Env.raceEngines_sameMemory (e : Env) (s : State) (space n : Nat) (ea : Row) (race : Mask) :
    SameMemory s (e.raceEngines s space n ea race) := by
  unfold Env.raceEngines
  split
  · exact ⟨rfl, rfl⟩
  · exact .refl s

/-- Lanes that race with an engine bring free values and spoil its operations (R232). -/
theorem Env.raced_sameMemory (e : Env) {α : Type} {x y : α} {race : Mask} {space n : Nat} {ea : Row} :
    SameMemory e.s (if race = 0 then (x, e.s) else (y, e.raceEngines e.s.drawRows.2 space n ea race)).2 := by
  split
  · exact .refl _
  · exact e.s.drawRows_sameMemory.trans (e.raceEngines_sameMemory ..)

theorem Env.storeData_sameMemory (d : Operand) (space n : Nat) (ea : Row) : SameMemory e.s (e.storeData d space n ea).2 :=
  e.raced_sameMemory

theorem LeavesMemory.localStore (o : Ops2) (imm : BitVec 32) (m : LMod) : LeavesMemory e (localStore o imm m e) :=
  .indexed (.check (.done ((e.storeData_sameMemory ..).trans (State.localWrites_sameMemory ..))))

theorem Env.writeS_sameMemory (e : Env) (s : State) (n : Nat) (x : Word64) : SameMemory s (e.writeS s n x) := ⟨rfl, rfl⟩

theorem Env.write_sameMemory (e : Env) (s : State) (o : Operand) (r : Row) : SameMemory s (e.write s o r) := by
  unfold Env.write writeDest
  split <;> exact ⟨rfl, rfl⟩

theorem Env.writeUni_sameMemory (e : Env) (s : State) (o : Operand) (x : Word64) : SameMemory s (e.writeUni s o x) := by
  unfold Env.writeUni
  split
  · exact e.writeS_sameMemory s _ x
  · exact e.write_sameMemory s o _

/-- Writes on their way, and SC operations that wait for the thimble, are no part of memory. -/
theorem LeavesMemory.sendUpdates {sc : Bool} {acc : List Access} (outside : e.sel.serial = false) :
    LeavesMemory e (e.sendUpdates sc acc) := by
  unfold Env.sendUpdates
  rw [outside]
  refine .ite (fun h => absurd h Bool.false_ne_true) fun _ => .ite (fun _ => .stall) fun _ => .ite (fun _ => .done ?_) fun _ =>
    .done ⟨rfl, rfl⟩
  obtain ⟨thimble, h⟩ := (e.send e.s [] acc.length).queueSc_eq (acc.map fun a => e.scOf a none true)
  rw [h]
  exact ⟨rfl, rfl⟩

theorem Env.send_records (e : Env) (s : State) (ws : List PendW) (n : Nat) :
    ((e.send s ws n).core e.sel.core).records = (s.core e.sel.core).records := by
  rw [Env.send, State.core_modCore_self]
  rfl

/-- A path that parts with writes or SC operations on their way. -/
theorem LeavesMemory.part_sent {ws : List PendW} {n : Nat} {p : PartSpec} : LeavesMemory e (.part (e.send e.s ws n) p) :=
  .part ⟨rfl, rfl⟩ (e.send_records e.s ws n)

theorem LeavesMemory.part_queued {ws : List PendW} {n : Nat} {ops : List ScOp} {p : PartSpec} :
    LeavesMemory e (.part ((e.send e.s ws n).queueSc ops) p) := by
  obtain ⟨thimble, h⟩ := (e.send e.s ws n).queueSc_eq ops
  rw [h]
  exact .part ⟨rfl, rfl⟩ (e.send_records e.s ws n)

theorem LeavesMemory.awaitUpdates {d : Operand} {sc : Bool} {ea : Row} {f : LoadForm} {acc : List Access} :
    LeavesMemory e (e.awaitUpdates d sc ea f acc) := by
  refine .ite (fun _ => .part_here _) fun _ => ?_
  cases sc with
  | true => exact .part_queued
  | false => exact .part_sent

theorem LeavesMemory.atomic {o : Ops4} {m : AtMod} {isCas : Bool} (outside : e.sel.serial = false) :
    LeavesMemory e (atomic o m isCas e) := by
  refine .indexed (.lanesReached fun acc => .ite (fun _ => .awaitUpdates) fun _ => ?_)
  exact .check (.sendUpdates outside)

theorem LeavesMemory.flushRange {o : Ops4} {inv : Bool} : LeavesMemory e (flushRange o inv e) :=
  .ite (fun _ => .done (.refl _)) fun _ => .ite (fun _ => .trap _) fun _ => .ite (fun _ => .trap _) fun _ =>
    .reached fun _ => .ite (fun _ => .stall) fun _ => .done ⟨rfl, rfl⟩

theorem State.prefetches_sameMemory (s : State) (ctx n : Nat) (a : Lane → Nat) (lines : Bool) (ls : List Lane) :
    SameMemory s (ls.foldl (fun (s : State) l => s.prefetch ctx (a l) n lines) s) :=
  .foldl (fun s l => s.prefetch_sameMemory ctx (a l) n lines) ls s

/-! ### Engines -/

/-- An operation with a new handle, in D where D is an h register. -/
theorem Env.newHandle_sameMemory (e : Env) (d : Operand) (kind unit ctx : Nat) (x : Word64) :
    SameMemory e.s (e.writeHandle (e.s.newHandle kind unit ctx).2 d x) :=
  .ite (fun _ => ⟨rfl, rfl⟩) fun _ => ⟨rfl, rfl⟩

theorem LeavesMemory.new_in_cluster {d : Operand} {kind unit ctx cl : Nat} {x : Word64} {f : Cluster → Cluster} :
    LeavesMemory e (.done ((e.writeHandle (e.s.newHandle kind unit ctx).2 d x).modCluster cl f)) :=
  .done ((e.newHandle_sameMemory d kind unit ctx x).trans ⟨rfl, rfl⟩)

theorem LeavesMemory.copyBody {expand : Bool} {o : Ops4} {m : CpMod} : LeavesMemory e (copyBody expand o m e) := by
  refine .ite (fun _ => .stall) fun _ => .ite (fun _ => .trap _) fun _ => .ite (fun _ => .pointAt fun _ _ _ => ?_) fun _ => ?_ <;>
    exact .ite (fun _ => .trap _) fun _ => .released .new_in_cluster

theorem LeavesMemory.pushMat {d : Operand} {key : Nat} {op : MatOp} : LeavesMemory e (e.pushMat d key op) := .new_in_cluster

theorem LeavesMemory.matQuire {k : Nat → Eff} (h : ∀ key, LeavesMemory e (k key)) : LeavesMemory e (e.matQuire k) := by
  unfold Env.matQuire
  split
  · exact .trap _
  · exact .ite (fun _ => .stall) fun _ => h _

theorem LeavesMemory.matBody {sparse : Bool} {o : Ops4} {m : MmMod} : LeavesMemory e (matBody sparse o m e) := by
  refine .matQuire fun key => .ite (fun _ => .trap _) fun _ => .ite (fun _ => .trap _) fun _ => ?_
  split
  · exact .trap _
  · exact .ite (fun _ => .trap _) fun _ => .ite (fun _ => .trap _) fun _ => .ite (fun _ => .trap _) fun _ => .ite (fun _ => .trap _)
      fun _ => .ite (fun _ => .trap _) fun _ => .ite (fun _ => .trap _) fun _ => .ite (fun _ => .pointNo .pushMat) fun _ => .pushMat

theorem LeavesMemory.ctlHandle {d : Operand} {st : Nat} {op : Nat → CfgOp} : LeavesMemory e (e.ctlHandle d st op) :=
  .done (.ite (fun _ => ⟨rfl, rfl⟩) fun _ => ⟨rfl, rfl⟩)

theorem LeavesMemory.ctlChecked {stack : Operand} {key : Option Operand} {va : Word64} {align : Nat} {k : Unit → Eff}
    (h : LeavesMemory e (k ())) : LeavesMemory e (e.ctlChecked stack key va align k) :=
  .ite (fun _ => .trap _) fun _ => .ite (fun _ => .trap _) fun _ => h

/-! ### System registers -/

theorem State.readCounter_sameMemory (s : State) (st ch num : Nat) : SameMemory s (s.readCounter st ch num).2 := by
  unfold State.readCounter
  dsimp only
  split <;> exact ⟨rfl, rfl⟩

/-- What reading a system register changes is a count that has moved on (R425). -/
theorem Env.sysRead_sameMemory (e : Env) (r : Selector) : SameMemory e.s (e.sysRead r).2 := by
  unfold Env.sysRead
  dsimp only
  split
  · exact .refl _
  · split
    · exact e.s.readCounter_sameMemory ..
    · exact .refl _
  · split <;> exact .refl _
  · split
    · exact ⟨rfl, rfl⟩
    · exact .refl _
  · exact .refl _
  · exact .refl _

end
end Sys2Proof.Machine

namespace Sys2Proof.Claim
open Machine

set_option Elab.async false

/-- The instruction is `perform` of a body that leaves memory as it was, outside the serial phase. -/
def LeavesAtIssue (i : Instr) (h : Hdr) : Prop :=
  ∃ os f sync body, exec i = Machine.perform h os f sync body ∧ ∀ e : Env, e.sel.serial = false → LeavesMemory e (body e)

theorem LeavesAtIssue.intro {i : Instr} {h : Hdr} {os : List Operand} {f : Front} {sync : Env → Bool} {body : Env → Eff}
    {x : State → Host.Outcome State Fault Refusal} (hi : exec i = x) (hx : x = Machine.perform h os f sync body)
    (hb : ∀ e : Env, e.sel.serial = false → LeavesMemory e (body e)) : LeavesAtIssue i h := ⟨os, f, sync, body, hi.trans hx, hb⟩

theorem LeavesAtIssue.frame {i : Instr} {h : Hdr} (l : LeavesAtIssue i h) {s t : State} {e : Env}
    (he : (s.env.map fun e0 => e0.guarded h) = some e) (outside : e.sel.serial = false) (room : e.core.storeFull = false)
    (ht : exec i s = .next t) : (∃ x, t = e.raise x) ∨ SameMemory s t := by
  obtain ⟨os, f, sync, body, hx, hb⟩ := l
  obtain ⟨e', he', hcases⟩ := perform_cases ((congrFun hx s).symm.trans ht)
  obtain rfl : e = e' := Option.some.inj (he.symm.trans he')
  rw [← State.env_guarded_s he]
  rcases hcases with ⟨x, -, rfl⟩ | ⟨-, -, rfl⟩ | ⟨-, -, -, -, -, rfl⟩ | ⟨-, -, rfl⟩
  · exact .inl ⟨x, rfl⟩
  · exact .inr ⟨rfl, rfl⟩
  · exact .inr ⟨rfl, rfl⟩
  · exact (hb e outside).finish room

theorem leavesAtIssue_quotaGive (h : Hdr) (o : Ops4) : LeavesAtIssue (.quotaGive h o) h := by
  refine .intro (x := execQuotaGive h o) rfl rfl fun e _ => ?_
  dsimp only
  split
  · exact .trap _
  · exact .ite (fun _ => .trap _) fun _ => .done ⟨rfl, rfl⟩

theorem leavesAtIssue_quotaTake (h : Hdr) (o : Ops4) : LeavesAtIssue (.quotaTake h o) h := by
  refine .intro (x := execQuotaTake h o) rfl rfl fun e _ => ?_
  dsimp only
  split
  · exact .ite (fun _ => .trap _) fun _ => .ite (fun _ => .done ⟨rfl, rfl⟩) fun _ => .part_here _
  · exact .trap _

/-- An entry goes to the receiver's FIFO, or waits in the record. -/
theorem leavesAtIssue_spush (h : Hdr) (o : Ops4) : LeavesAtIssue (.spush h o) h := by
  refine .intro (x := execSpush h o) rfl rfl fun e _ => ?_
  split
  · exact .trap _
  · refine .indexed ?_
    dsimp only
    split
    · exact .done (.refl _)
    · exact .ite (fun _ => .part_here _) fun _ => .done ⟨rfl, rfl⟩

theorem leavesAtIssue_spop (h : Hdr) (o : Ops4) : LeavesAtIssue (.spop h o) h := by
  refine .intro (x := execSpop h o) rfl rfl fun e _ => ?_
  split
  · exact .trap _
  · refine .indexed ?_
    dsimp only
    split
    · exact .ite (fun _ => .trap _) fun _ => .part_here _
    · exact .ite (fun _ => .part_here _) fun _ => .done ((e.s.modQuire_sameMemory ..).trans (e.write_sameMemory ..))

/-- The update of local memory is performed at once (R237). -/
theorem leavesAtIssue_atoml (h : Hdr) (o : Ops4) (m : AtMod) : LeavesAtIssue (.atoml h o m) h := by
  refine .intro (x := execAtoml h o m) rfl (by unfold execAtoml; exact rfl) fun e _ => .indexed (.check ?_)
  exact .done (e.raced_sameMemory.trans ((State.modCore_sameMemory ..).trans (e.write_sameMemory ..)))

theorem leavesAtIssue_srreg (h : Hdr) (o : Ops2) (imm : BitVec 32) : LeavesAtIssue (.srreg h o imm) h := by
  refine .intro (x := execSrreg h o imm) rfl rfl fun e _ => .indexed ?_
  split
  · exact .trap _
  · exact .done ((e.sysRead_sameMemory _).trans (e.writeUni_sameMemory ..))

theorem leavesAtIssue_swreg (h : Hdr) (o : Ops2) (imm : BitVec 32) : LeavesAtIssue (.swreg h o imm) h := by
  refine .intro (x := execSwreg h o imm) rfl rfl fun e _ => .indexed ?_
  split
  · exact .trap _
  · exact .ite (fun _ => .trap _) fun _ => .ite (fun _ => .trap _) fun _ => .done ⟨rfl, rfl⟩

/-- An instruction that leaves memory alone, and writes more than registers. -/
theorem leavesAtIssue {i : Instr} {h : Hdr} (hh : hdrOf i = some h) (hl : (leavesMemory i && (writes i).isNone) = true) :
    LeavesAtIssue i h := by
  cases i with
  | bra h o t u => cases hh; exact .intro (x := execBra h o t u) rfl rfl fun _ _ => .check (.branch (.refl _) _)
  | brx h o => cases hh; exact .intro (x := execBrx h o) rfl rfl fun _ _ => .branchTo _
  | ret h o => cases hh; exact .intro (x := execRet h o) rfl rfl fun _ _ => .branchTo _
  | call h o t u =>
    cases hh
    exact .intro (x := execCall h o t u) rfl rfl fun e _ => .check (.branch (e.writeS_sameMemory ..) _)
  | loopd h o t u =>
    cases hh
    exact .intro (x := execLoopd h o t u) rfl rfl fun e _ =>
      .ite (fun _ => .done (e.writeS_sameMemory ..)) fun _ => .check (.branch (e.writeS_sameMemory ..) _)
  | btri h o t u => cases hh; exact .intro (x := execBtri h o t u) rfl rfl fun _ _ => .check (.branch (.refl _) _)
  | yield h o => cases hh; exact .intro (x := execYield h o) rfl rfl fun _ _ => .part_here _
  | tretRetry h o => cases hh; exact .intro (x := execTretRetry h o) rfl rfl fun _ _ => .tret _
  | tretSkip h o => cases hh; exact .intro (x := execTretSkip h o) rfl rfl fun _ _ => .tret _
  | live h o imm =>
    cases hh
    exact .intro (x := execLive h o imm) rfl rfl fun _ _ => .ite (fun _ => .trap _) fun _ => .done ⟨rfl, rfl⟩
  | setk h o m =>
    cases hh
    exact .intro (x := execSetk h o m) rfl rfl fun _ _ =>
      .ite (fun _ => .trap _) fun _ => .ite (fun _ => .trap _) fun _ => .done ⟨rfl, rfl⟩
  | quotaGive h o => cases hh; exact leavesAtIssue_quotaGive h o
  | quotaTake h o => cases hh; exact leavesAtIssue_quotaTake h o
  | ivld h o imm m =>
    cases hh
    exact .intro (x := execIvld h o imm m) rfl rfl fun _ _ => .indexed (.lanesReached fun _ => .part_here _)
  | ivst h o imm m =>
    cases hh
    exact .intro (x := execIvst h o imm m) rfl rfl fun _ _ => .indexed (.lanesReached fun _ => .check (.done ⟨rfl, rfl⟩))
  | stl h o imm m => cases hh; exact .intro (x := execStl h o imm m) rfl rfl fun _ _ => .localStore o imm m
  | stb h o imm m => cases hh; exact .intro (x := execStb h o imm m) rfl rfl fun _ _ => .localStore o imm m
  | atoml h o m => cases hh; exact leavesAtIssue_atoml h o m
  | spush h o => cases hh; exact leavesAtIssue_spush h o
  | spop h o => cases hh; exact leavesAtIssue_spop h o
  | ld h o imm m => cases hh; exact .intro (x := execLd h o imm m) rfl rfl fun _ _ => .indexed (.lanesReached fun _ => .part_here _)
  | st h o imm m =>
    cases hh
    exact .intro (x := execSt h o imm m) rfl rfl fun _ _ =>
      .indexed (.lanesReached fun _ => .check (.ite (fun _ => .stall) fun _ => .done ⟨rfl, rfl⟩))
  | atom h o m => cases hh; exact .intro (x := execAtom h o m) rfl rfl fun _ outside => .atomic outside
  | red h o m => cases hh; exact .intro (x := execRed h o m) rfl rfl fun _ outside => .atomic outside
  | cas h o m => cases hh; exact .intro (x := execCas h o m) rfl rfl fun _ outside => .atomic outside
  | ldsc h o imm m =>
    cases hh
    exact .intro (x := execLdsc h o imm m) rfl rfl fun _ _ => .indexed (.lanesReached fun _ => .awaitUpdates)
  | stsc h o imm m =>
    cases hh
    exact .intro (x := execStsc h o imm m) rfl rfl fun _ _ =>
      .indexed (.lanesReached fun _ => .ite (fun _ => .part_here _) fun _ => .part_queued)
  | cflush h o => cases hh; exact .intro (x := execCflush h o) rfl rfl fun _ _ => .flushRange
  | cinv h o => cases hh; exact .intro (x := execCinv h o) rfl rfl fun _ _ => .flushRange
  | pref h o m =>
    cases hh
    exact .intro (x := execPref h o m) rfl rfl fun _ _ => .done (State.prefetches_sameMemory ..)
  | fence h o m => cases hh; exact .intro (x := execFence h o m) rfl rfl fun _ _ => .ite (fun _ => .done (.refl _)) fun _ => .part_here _
  | ocwait h o => cases hh; exact .intro (x := execOcwait h o) rfl rfl fun _ _ => .ite (fun _ => .done (.refl _)) fun _ => .part_here _
  | rvinit h o =>
    cases hh
    exact .intro (x := execRvinit h o) rfl rfl fun _ _ => .pointAt fun _ _ _ => .ite (fun _ => .trap _) fun _ => .done ⟨rfl, rfl⟩
  | rvwait h o =>
    cases hh
    exact .intro (x := execRvwait h o) rfl rfl fun _ _ => .pointAt fun _ _ _ =>
      .ite (fun _ => .trap _) fun _ => .ite (fun _ => .done (.refl _)) fun _ => .part_here _
  | mbwait h o =>
    cases hh
    exact .intro (x := execMbwait h o) rfl rfl fun _ _ => .cellAt fun _ =>
      .ite (fun _ => .trap _) fun _ => .ite (fun _ => .done (.refl _)) fun _ => .part_here _
  | hwait h o =>
    cases hh
    exact .intro (x := execHwait h o) rfl rfl fun _ _ => .checkedHandle fun _ => .ite (fun _ => .part_here _) fun _ => .done (.refl _)
  | copy h o m => cases hh; exact .intro (x := execCopy h o m) rfl rfl fun _ _ => .copyBody
  | copyx h o m => cases hh; exact .intro (x := execCopyx h o m) rfl rfl fun _ _ => .copyBody
  | mma h o m => cases hh; exact .intro (x := execMma h o m) rfl rfl fun _ _ => .matBody
  | mmas h o m => cases hh; exact .intro (x := execMmas h o m) rfl rfl fun _ _ => .matBody
  | mzero h o m =>
    cases hh
    exact .intro (x := execMzero h o m) rfl rfl fun _ _ => .matQuire fun _ =>
      .ite (fun _ => .trap _) fun _ => .ite (fun _ => .trap _) fun _ => .ite (fun _ => .trap _) fun _ => .pushMat
  | cfgload h o => cases hh; exact .intro (x := execCfgload h o) rfl rfl fun _ _ => .ctlChecked (.released .ctlHandle)
  | cfgrun h o m => cases hh; exact .intro (x := execCfgrun h o m) rfl rfl fun _ _ => .ctlChecked (.released .ctlHandle)
  | cfgrunRes h o m =>
    cases hh
    exact .intro (x := execCfgrunRes h o m) rfl rfl fun _ _ => .ctlChecked (.released (.done ⟨rfl, rfl⟩))
  | cfgdrain h o m => cases hh; exact .intro (x := execCfgdrain h o m) rfl rfl fun _ _ => .ctlChecked .ctlHandle
  | cfgevict h o => cases hh; exact .intro (x := execCfgevict h o) rfl rfl fun _ _ => .ctlChecked .ctlHandle
  | rblk h o =>
    cases hh
    exact .intro (x := execRblk h o) rfl rfl fun e _ =>
      .ite (fun _ => .trap _) fun _ => .released (.done ((e.newHandle_sameMemory ..).trans ⟨rfl, rfl⟩))
  | srreg h o imm => cases hh; exact leavesAtIssue_srreg h o imm
  | swreg h o imm => cases hh; exact leavesAtIssue_swreg h o imm
  | icinv h o =>
    cases hh
    exact .intro (x := execIcinv h o) rfl rfl fun _ _ => .ite (fun _ => .trap _) fun _ => .done ⟨rfl, rfl⟩
  | _ => exact absurd hl Bool.false_ne_true

/-- Settles O60: an instruction that writes registers alone keeps its frame, and the body of every other one leaves memory as it
was. -/
theorem memoryFrame : Obligations.MemoryFrame := by
  intro i h s t e hh hl he outside room ht
  cases hw : writes i with
  | some ds =>
    refine (registerFrame i h s t e ds hh hw he ht).imp_right fun k => ?_
    rw [k.device, State.env_guarded_s he]
    exact ⟨rfl, rfl⟩
  | none =>
    have quiet := leavesAtIssue hh (by rw [hl, hw]; rfl)
    exact (quiet.frame he outside room ht).imp_right fun k => ⟨k.hbm, k.host⟩

end Sys2Proof.Claim
end

