-- ==== Sys2Proof/Proofs/IntegerArithmetic.lean ====
section
/-!
Integer arithmetic, element by element (R174, R175), and O1.
-/
namespace Sys2Proof.Claim
open Machine

set_option Elab.async false

/-- The wrapped or clamped result is an element of its own. -/
theorem wrap_mod (t : Ty) (sat : Bool) (x : Int) : Ty.wrap t sat t.shape.1 x % 2 ^ t.shape.1 = narrow t sat x := by
  rw [wrap_eq, narrow_mod]

section
variable {s : State} {h : Hdr} {o : Ops4} {t : Ty} {e : Env} (I : Issues s h o.list e) {i : Instr}
  {x : State → Host.Outcome State Fault Refusal} {sat : Bool}
include I

/-- The forms of R174 with one, two and three sources give the exact result, narrowed. -/
theorem gives_arith1 {f : Int → Int} (hi : exec i = x)
    (hx : x = Machine.perform h o.list (front1 o) noSync (lane1 o t (t.arith1 sat f)))
    (hok : e.ops4Ok o dstPos srcPos unused unused = true) (hidx : e.indexFault [(o.d, false), (o.a, false)] = none) :
    Gives i e o.d t fun l k => narrow t sat (f (num t k (e.src t o.a)[l])) :=
  gives_lane1 (I.exec_fields hi hx hok) hidx fun _ _ _ => wrap_mod t sat _

theorem gives_arith2 {f : Int → Int → Int} (hi : exec i = x)
    (hx : x = Machine.perform h o.list (front2 o) noSync (lane2 o t (t.arith2 sat f)))
    (hok : e.ops4Ok o dstPos srcPos srcPos unused = true)
    (hidx : e.indexFault [(o.d, false), (o.a, false), (o.b, false)] = none) :
    Gives i e o.d t fun l k => narrow t sat (f (num t k (e.src t o.a)[l]) (num t k (e.src t o.b)[l])) :=
  gives_lane2 (I.exec_fields hi hx hok) hidx fun _ _ _ => wrap_mod t sat _

theorem gives_arith3 {f : Int → Int → Int → Int} (hi : exec i = x)
    (hx : x = Machine.perform h o.list (front3 o) noSync (lane3 o t (t.arith3 sat f)))
    (hok : e.ops4Ok o dstPos srcPos srcPos srcPos = true)
    (hidx : e.indexFault [(o.d, false), (o.a, false), (o.b, false), (o.c, false)] = none) :
    Gives i e o.d t fun l k => narrow t sat (f (num t k (e.src t o.a)[l]) (num t k (e.src t o.b)[l]) (num t k (e.src t o.c)[l])) :=
  gives_lane3 (I.exec_fields hi hx hok) hidx fun _ _ _ => wrap_mod t sat _

end

/-- Settles O1: each instruction is one of the three forms with its exact operation. -/
theorem integerArithmetic : Obligations.IntegerArithmetic := by
  intro s h o m e I
  refine ⟨fun hok hi => ?_, fun hok hi => ⟨?_, ?_, ?_, ?_, ?_, ?_⟩, fun hok hi => ?_⟩
  · exact gives_arith1 I (i := .iabs h o m) (x := execIabs h o m) (sat := m.sat) (f := fun a => (a.natAbs : Int)) rfl rfl hok hi
  · exact gives_arith2 I (i := .iadd h o m) (x := execIadd h o m) (sat := m.sat) (f := fun a b => a + b) rfl rfl hok hi
  · exact gives_arith2 I (i := .isub h o m) (x := execIsub h o m) (sat := m.sat) (f := fun a b => a - b) rfl rfl hok hi
  · exact gives_arith2 I (i := .imul h o m) (x := execImul h o m) (sat := m.sat) (f := fun a b => a * b) rfl rfl hok hi
  · exact gives_arith2 I (i := .imulh h o m) (x := execImulh h o m) (sat := false)
      (f := fun a b => a * b / 2 ^ m.ty.shape.1) rfl rfl hok hi
  · exact gives_arith2 I (i := .imin h o m) (x := execImin h o m) (sat := false) (f := fun a b => min a b) rfl rfl hok hi
  · exact gives_arith2 I (i := .imax h o m) (x := execImax h o m) (sat := false) (f := fun a b => max a b) rfl rfl hok hi
  · exact gives_arith3 I (i := .imad h o m) (x := execImad h o m) (sat := m.sat) (f := fun a b c => a * b + c) rfl rfl hok hi

end Sys2Proof.Claim
end

