-- ==== Sys2Proof/Proofs/ElementBits.lean ====
section
/-!
The bits of an element: shifts and rotation (R177), tables, fields, counts and reversal (R176, R178, R179).
-/
namespace Sys2Proof.Machine

set_option Elab.async false

/-! ### Signed readings -/

theorem signedOf_of_lt {n x : Nat} (h : x < 2 ^ n) : signedOf n x = if x < 2 ^ (n - 1) then (x : Int) else (x : Int) - 2 ^ n := by
  unfold signedOf
  norm_cast
  rw [Nat.mod_eq_of_lt h]

/-- A signed reading lies in the range of n bits. -/
theorem signedOf_bounds (n x : Nat) : -(2 ^ n : Int) ≤ signedOf n x ∧ signedOf n x < 2 ^ n := by
  have lt : ((x % 2 ^ n : Nat) : Int) < 2 ^ n := by exact_mod_cast Nat.mod_lt x (Nat.two_pow_pos n)
  unfold signedOf
  push_cast at lt ⊢
  split <;> omega

theorem signedOf_eq_zero {n x : Nat} (h : x < 2 ^ n) (hz : signedOf n x = 0) : x = 0 := by
  rw [signedOf_of_lt h] at hz
  have : (x : Int) < 2 ^ n := by exact_mod_cast h
  split at hz <;> omega

theorem Ty.int_eq_zero {t : Ty} {w x : Nat} (h : x < 2 ^ w) (hz : t.int w x = 0) : x = 0 := by
  unfold Ty.int at hz
  split at hz
  · exact signedOf_eq_zero h hz
  · exact_mod_cast hz

theorem Ty.int_zero (t : Ty) (w : Nat) : t.int w 0 = 0 := by
  simp [Ty.int, signedOf]

/-- The range of a type lies within w bits and holds 0. -/
theorem Ty.range_bounds (t : Ty) (w : Nat) : -(2 ^ w : Int) ≤ t.lo w ∧ t.lo w ≤ 0 ∧ 0 ≤ t.hi w ∧ t.hi w < 2 ^ w := by
  have half : (1 : Int) ≤ 2 ^ (w - 1) := one_le_pow₀ (by norm_num)
  have mono : (2 : Int) ^ (w - 1) ≤ 2 ^ w := pow_le_pow_right₀ (by norm_num) (Nat.sub_le w 1)
  unfold Ty.lo Ty.hi
  split <;> omega

/-! ### Shifts -/

/-- Beyond w + 1 places the clamped product of a number other than 0 stays at the end of the range. -/
theorem Ty.clamp_shift {t : Ty} {w : Nat} {x : Int} (hx : x ≠ 0) (n : Nat) :
    max (t.lo w) (min (t.hi w) (x * 2 ^ min n (w + 1))) = max (t.lo w) (min (t.hi w) (x * 2 ^ n)) := by
  rcases Nat.le_total n (w + 1) with hn | hn
  · rw [Nat.min_eq_left hn]
  rw [Nat.min_eq_right hn]
  obtain ⟨lo, lo0, hi0, hi⟩ := Ty.range_bounds t w
  have far : ∀ k, w + 1 ≤ k → (2 : Int) ^ w ≤ 2 ^ k := fun k hk => pow_le_pow_right₀ (by norm_num) (by omega)
  have f1 := far (w + 1) le_rfl
  have f2 := far n hn
  rcases lt_or_gt_of_ne hx with neg | pos
  · have beyond : ∀ k, (2 : Int) ^ w ≤ 2 ^ k → x * 2 ^ k ≤ t.lo w := fun k hk => by nlinarith
    have b1 := beyond _ f1
    have b2 := beyond _ f2
    omega
  · have beyond : ∀ k, (2 : Int) ^ w ≤ 2 ^ k → t.hi w ≤ x * 2 ^ k := fun k hk => by nlinarith
    have b1 := beyond _ f1
    have b2 := beyond _ f2
    omega

theorem shiftLeft_mod {t : Ty} {a : Nat} (ha : a < 2 ^ t.shape.1) (sat : Bool) (n : Nat) :
    shiftLeft t sat a n % 2 ^ t.shape.1 =
      if sat then Ty.wrap t true t.shape.1 (t.int t.shape.1 a * 2 ^ n) % 2 ^ t.shape.1
      else if n < t.shape.1 then a * 2 ^ n % 2 ^ t.shape.1 else 0 := by
  unfold shiftLeft
  cases sat with
  | false =>
    simp only [Bool.false_eq_true, if_false]
    by_cases hn : n < t.shape.1
    · rw [if_neg (by omega), if_pos hn, Nat.mod_mod]
    · rw [if_pos (by omega), if_neg hn, Nat.zero_mod]
  | true =>
    simp only [if_true]
    by_cases h0 : a = 0
    · obtain ⟨-, lo0, hi0, -⟩ := Ty.range_bounds t t.shape.1
      have : max (t.lo t.shape.1) (min (t.hi t.shape.1) 0) = 0 := by omega
      simp [h0, Ty.wrap, Ty.int_zero, this, intCode]
    · rw [if_neg h0, Ty.wrap, Ty.wrap, if_pos rfl, if_pos rfl, Ty.clamp_shift fun hz => h0 (Ty.int_eq_zero ha hz)]

theorem shiftRight_mod {w a : Nat} (ha : a < 2 ^ w) (n : Nat) : shiftRight w a n % 2 ^ w = if n < w then a / 2 ^ n else 0 := by
  unfold shiftRight
  by_cases hn : n < w
  · rw [if_neg (by omega), if_pos hn]
    exact Nat.mod_eq_of_lt (Nat.lt_of_le_of_lt (Nat.div_le_self _ _) ha)
  · rw [if_pos (by omega), if_neg hn, Nat.zero_mod]

/-- From w places on a shift leaves copies of the sign alone. -/
theorem signedOf_div_min (w a n : Nat) : signedOf w a / 2 ^ min n w = signedOf w a / 2 ^ n := by
  rcases Nat.le_total n w with hn | hn
  · rw [Nat.min_eq_left hn]
  rw [Nat.min_eq_right hn]
  obtain ⟨lo, hi⟩ := signedOf_bounds w a
  have mono : (2 : Int) ^ w ≤ 2 ^ n := pow_le_pow_right₀ (by norm_num) hn
  have sign : ∀ k, (2 : Int) ^ w ≤ 2 ^ k → signedOf w a / 2 ^ k = if signedOf w a < 0 then -1 else 0 := by
    intro k hk
    split
    · exact Int.ediv_eq_neg_one_of_neg_of_le (by omega) (by omega)
    · exact Int.ediv_eq_zero_of_lt (by omega) (by omega)
  rw [sign w le_rfl, sign n mono]

theorem intCode_lt (w : Nat) (x : Int) : intCode w x < 2 ^ w := by
  have pos : (0 : Int) < 2 ^ w := by positivity
  have lt := Int.emod_lt_of_pos x pos
  have ge := Int.emod_nonneg x pos.ne'
  unfold intCode
  zify
  omega

/-- Rotation moves bit j - n to bit j, modulo w (R177). -/
theorem testBit_rotate {w a j : Nat} (ha : a < 2 ^ w) (hj : j < w) (n : Nat) :
    (rotate w a n % 2 ^ w).testBit j = a.testBit ((j + w - n % w) % w) := by
  have hr : n % w < w := Nat.mod_lt n (by omega)
  unfold rotate
  generalize n % w = r at hr ⊢
  have split : 2 ^ w = 2 ^ (w - r) * 2 ^ r := by rw [← Nat.pow_add]; congr 1; omega
  have high : a / 2 ^ (w - r) < 2 ^ r := Nat.div_lt_of_lt_mul (by rw [← split]; exact ha)
  have parts : a * 2 ^ r % 2 ^ w + a / 2 ^ (w - r) = 2 ^ r * (a % 2 ^ (w - r)) + a / 2 ^ (w - r) := by
    rw [split, Nat.mul_mod_mul_right, Nat.mul_comm]
  rw [parts, Nat.testBit_mod_two_pow, Nat.testBit_two_pow_mul_add _ high, decide_eq_true hj, Bool.true_and]
  by_cases hjr : j < r
  · rw [if_pos hjr, Nat.testBit_div_two_pow, Nat.mod_eq_of_lt (by omega)]
    congr 1
    omega
  · have place : (j + w - r) % w = j - r := by
      rw [show j + w - r = (j - r) + w by omega, Nat.add_mod_right, Nat.mod_eq_of_lt (by omega)]
    rw [if_neg hjr, Nat.testBit_mod_two_pow, decide_eq_true (by omega), Bool.true_and, place]

/-! ### Sums of bits -/

theorem foldl_range_eq_sum (g : Nat → Nat) (w : Nat) : (List.range w).foldl (fun r j => r + g j) 0 = ∑ j ∈ Finset.range w, g j := by
  induction w with
  | zero => rfl
  | succ w ih => rw [List.range_succ, List.foldl_append, ih, Finset.sum_range_succ]; rfl

theorem sum_bits_lt (b : Nat → Bool) (w : Nat) : ∑ j ∈ Finset.range w, (b j).toNat * 2 ^ j < 2 ^ w := by
  induction w with
  | zero => simp
  | succ w ih =>
    have bit : (b w).toNat * 2 ^ w ≤ 2 ^ w := by cases b w <;> simp
    rw [Finset.sum_range_succ, Nat.pow_succ]
    omega

theorem testBit_sum_bits (b : Nat → Bool) (w j : Nat) :
    (∑ j ∈ Finset.range w, (b j).toNat * 2 ^ j).testBit j = (decide (j < w) && b j) := by
  induction w with
  | zero => simp
  | succ w ih =>
    rw [Finset.sum_range_succ, Nat.add_comm, Nat.mul_comm, Nat.testBit_two_pow_mul_add _ (sum_bits_lt b w), ih]
    by_cases hj : j < w
    · simp [hj, Nat.lt_succ_of_lt hj]
    · by_cases hw : j = w
      · subst hw
        cases b j <;> simp
      · have above : (b w).toNat.testBit (j - w) = false :=
          Nat.testBit_lt_two_pow (Nat.lt_of_le_of_lt (Bool.toNat_le _) (Nat.one_lt_two_pow (by omega)))
        simp [hj, above, show ¬ j < w + 1 by omega]

theorem div_mod_two_eq_toNat (a j : Nat) : a / 2 ^ j % 2 = (a.testBit j).toNat := by
  rw [Nat.testBit_eq_decide_div_mod_eq]
  rcases Nat.mod_two_eq_zero_or_one (a / 2 ^ j) with h | h <;> simp [h]

theorem div_mod_two_beq_one (a j : Nat) : (a / 2 ^ j % 2 == 1) = a.testBit j := by
  rw [Nat.testBit_eq_decide_div_mod_eq]
  rfl

/-- LOP3 looks every bit up (R176). -/
theorem testBit_lop3 {w j : Nat} (hj : j < w) (lut a b d : Nat) :
    (lop3 w lut a b d).testBit j =
      lut.testBit (4 * (a.testBit j).toNat + 2 * (b.testBit j).toNat + (d.testBit j).toNat) := by
  unfold lop3
  simp only [div_mod_two_eq_toNat]
  rw [foldl_range_eq_sum, testBit_sum_bits fun j =>
    lut.testBit (4 * (a.testBit j).toNat + 2 * (b.testBit j).toNat + (d.testBit j).toNat), decide_eq_true hj, Bool.true_and]

theorem testBit_reverseBits {w j : Nat} (hj : j < w) (a : Nat) : (reverseBits w a).testBit j = a.testBit (w - 1 - j) := by
  have reflect : reverseBits w a = ∑ j ∈ Finset.range w, (a.testBit (w - 1 - j)).toNat * 2 ^ j := by
    unfold reverseBits
    simp only [div_mod_two_eq_toNat]
    rw [foldl_range_eq_sum, ← Finset.sum_range_reflect]
    refine Finset.sum_congr rfl fun i hi => ?_
    have := Finset.mem_range.mp hi
    rw [show w - 1 - (w - 1 - i) = i by omega]
  rw [reflect, testBit_sum_bits fun j => a.testBit (w - 1 - j), decide_eq_true hj, Bool.true_and]

theorem popBits_eq_length (w a : Nat) : popBits w a = ((List.range w).filter fun j => a.testBit j).length := by
  unfold popBits
  simp only [div_mod_two_eq_toNat]
  induction w with
  | zero => rfl
  | succ w ih =>
    rw [List.range_succ, List.foldl_append, ih, List.filter_append, List.length_append]
    cases hb : a.testBit w <;> simp [hb]

/-- A count of bits is itself an element. -/
theorem popBits_lt (w a : Nat) : popBits w a < 2 ^ w := by
  rw [popBits_eq_length]
  calc _ ≤ (List.range w).length := List.length_filter_le _ _
    _ < 2 ^ w := by rw [List.length_range]; exact Nat.lt_two_pow_self

/-- The leading zeros: above them the number is 0, below them stands its highest bit. -/
theorem leadingZeros_spec {w a : Nat} (ha : a < 2 ^ w) :
    leadingZeros w a ≤ w ∧ a < 2 ^ (w - leadingZeros w a) ∧ (leadingZeros w a < w → 2 ^ (w - leadingZeros w a - 1) ≤ a) := by
  unfold leadingZeros
  by_cases h0 : a = 0
  · simp [h0]
  · have top : Nat.log2 a < w := (Nat.log2_lt h0).mpr ha
    rw [if_neg h0, show w - (w - 1 - Nat.log2 a) = Nat.log2 a + 1 by omega]
    exact ⟨by omega, Nat.lt_log2_self, fun _ => Nat.log2_self_le h0⟩

theorem leadingZeros_lt {w a : Nat} (ha : a < 2 ^ w) : leadingZeros w a < 2 ^ w :=
  Nat.lt_of_le_of_lt (leadingZeros_spec ha).1 Nat.lt_two_pow_self

/-! ### Bit fields -/

/-- A signed reading of len bits, in w bits: copies of the top bit above them. -/
theorem testBit_intCode_signedOf {w len f j : Nat} (hl : 0 < len) (hw : len ≤ w) (hf : f < 2 ^ len) (hj : j < w) :
    (intCode w (signedOf len f)).testBit j = if j < len then f.testBit j else f.testBit (len - 1) := by
  have wide : 2 ^ len ≤ 2 ^ w := Nat.pow_le_pow_right (by omega) hw
  rw [signedOf_of_lt hf]
  by_cases low : f < 2 ^ (len - 1)
  · have code : intCode w (f : Int) = f := by
      unfold intCode
      norm_cast
      exact Nat.mod_eq_of_lt (by omega)
    rw [if_pos low, code, Nat.testBit_lt_two_pow low]
    split
    · rfl
    · exact Nat.testBit_lt_two_pow (Nat.lt_of_lt_of_le hf (Nat.pow_le_pow_right (by omega) (by omega)))
  · have ones : 2 ^ w - 2 ^ len = 2 ^ len * (2 ^ (w - len) - 1) := by
      rw [Nat.mul_sub, ← Nat.pow_add, Nat.mul_one]
      congr 2
      omega
    have code : intCode w ((f : Int) - 2 ^ len) = 2 ^ len * (2 ^ (w - len) - 1) + f := by
      have wrap : ((f : Int) - 2 ^ len) % 2 ^ w = ((2 ^ w - 2 ^ len + f : Nat) : Int) := by
        rw [← Int.add_emod_right, Nat.cast_add, Nat.cast_sub wide]
        push_cast
        rw [show (f : Int) - 2 ^ len + 2 ^ w = 2 ^ w - 2 ^ len + f by ring]
        exact Int.emod_eq_of_lt (by zify at wide; omega) (by zify at hf; omega)
      rw [intCode, wrap, Int.toNat_natCast, ones]
    have top : f.testBit (len - 1) = true :=
      Nat.testBit_of_two_pow_le_and_two_pow_add_one_gt (by omega) (by rwa [Nat.sub_add_cancel hl])
    rw [if_neg low, code, Nat.testBit_two_pow_mul_add _ hf, top, Nat.testBit_two_pow_sub_one]
    split
    · rfl
    · exact decide_eq_true (by omega)

/-- BFX of a field that is not empty (R178). -/
theorem testBit_fieldExtract {t : Ty} {a b x j : Nat} (hx : ¬ (x % 256 = 0 ∨ t.shape.1 ≤ b % 256)) (hj : j < t.shape.1) :
    (fieldExtract t a b x).testBit j =
      if j < min (x % 256) (t.shape.1 - b % 256) then a.testBit (b % 256 + j)
      else t.signed && a.testBit (b % 256 + min (x % 256) (t.shape.1 - b % 256) - 1) := by
  unfold fieldExtract
  dsimp only
  rw [if_neg hx]
  have hl : 0 < min (x % 256) (t.shape.1 - b % 256) := by omega
  have hw : min (x % 256) (t.shape.1 - b % 256) ≤ t.shape.1 := by omega
  generalize min (x % 256) (t.shape.1 - b % 256) = len at hl hw ⊢
  have field : ∀ i, (a / 2 ^ (b % 256) % 2 ^ len).testBit i = (decide (i < len) && a.testBit (b % 256 + i)) := fun i => by
    rw [Nat.testBit_mod_two_pow, Nat.testBit_div_two_pow, Nat.add_comm]
  cases t.signed with
  | false => rw [if_neg (by simp), field]; split <;> simp [*]
  | true =>
    rw [if_pos rfl, testBit_intCode_signedOf hl hw (Nat.mod_lt _ (Nat.two_pow_pos _)) hj, field, field]
    split
    · simp [*]
    · rw [decide_eq_true (by omega), Nat.add_sub_assoc hl, Bool.true_and]

/-- BFI of a field that is not empty (R178), the bits above the element included. -/
theorem testBit_fieldInsert {w b x : Nat} (hx : ¬ (x % 256 = 0 ∨ w ≤ b % 256)) (a d j : Nat) :
    (fieldInsert w a b x d).testBit j =
      if b % 256 ≤ j ∧ j < b % 256 + min (x % 256) (w - b % 256) then a.testBit (j - b % 256) else d.testBit j := by
  unfold fieldInsert
  dsimp only
  rw [if_neg hx]
  generalize min (x % 256) (w - b % 256) = len
  generalize b % 256 = pos
  have nested : d % 2 ^ pos + a % 2 ^ len * 2 ^ pos + d / 2 ^ (pos + len) * 2 ^ (pos + len) =
      2 ^ pos * (2 ^ len * (d / 2 ^ (pos + len)) + a % 2 ^ len) + d % 2 ^ pos := by
    rw [Nat.pow_add]
    ring
  rw [nested, Nat.testBit_two_pow_mul_add _ (Nat.mod_lt _ (Nat.two_pow_pos _)),
    Nat.testBit_two_pow_mul_add _ (Nat.mod_lt _ (Nat.two_pow_pos _)), Nat.testBit_mod_two_pow, Nat.testBit_mod_two_pow,
    Nat.testBit_div_two_pow]
  by_cases below : j < pos
  · simp [below, Nat.not_le.mpr below]
  · by_cases inside : j - pos < len
    · simp [below, inside, Nat.not_lt.mp below, show j < pos + len by omega]
    · rw [if_neg below, if_neg inside, if_neg (by omega)]
      congr 1
      omega

theorem fieldInsert_lt {w d : Nat} (hd : d < 2 ^ w) (a b x : Nat) : fieldInsert w a b x d < 2 ^ w := by
  by_cases hx : x % 256 = 0 ∨ w ≤ b % 256
  · unfold fieldInsert
    dsimp only
    rwa [if_pos hx]
  · refine Nat.lt_pow_two_of_testBit _ fun j hj => ?_
    rw [testBit_fieldInsert hx, if_neg (by omega)]
    exact Nat.testBit_lt_two_pow (Nat.lt_of_lt_of_le hd (Nat.pow_le_pow_right (by omega) hj))

end Sys2Proof.Machine
end

