-- ==== Sys2Proof/Proofs/Shifts.lean ====
section
/-!
Shifts and rotation (R177), and O2.
-/
namespace Sys2Proof.Claim
open Machine

set_option Elab.async false

theorem elem_lt (t : Ty) (k : Nat) (x : Word64) : elem t k x < 2 ^ t.shape.1 := Nat.mod_lt _ (Nat.two_pow_pos _)

section
variable {s : State} {h : Hdr} {o : Ops4} {m : AMod} {e : Env} (I : Issues s h o.list e)
  (hok : e.ops4Ok o dstPos srcPos srcPos unused = true) (hi : e.indexFault [(o.d, false), (o.a, false), (o.b, false)] = none)
include I hok hi

theorem gives_shl : Gives (.shl h o m) e o.d m.ty fun l k =>
    if m.sat then narrow m.ty true (num m.ty k (e.src m.ty o.a)[l] * 2 ^ elem m.ty k (e.src m.ty o.b)[l])
    else if elem m.ty k (e.src m.ty o.b)[l] < m.ty.shape.1 then
      elem m.ty k (e.src m.ty o.a)[l] * 2 ^ elem m.ty k (e.src m.ty o.b)[l] % 2 ^ m.ty.shape.1
    else 0 := by
  refine gives_lane2 (I.exec_fields (x := execShl h o m) rfl rfl hok) hi fun l k _ => ?_
  rw [shiftLeft_mod (elem_lt _ _ _), wrap_mod]
  rfl

theorem gives_shr : Gives (.shr h o m) e o.d m.ty fun l k =>
    if elem m.ty k (e.src m.ty o.b)[l] < m.ty.shape.1 then
      elem m.ty k (e.src m.ty o.a)[l] / 2 ^ elem m.ty k (e.src m.ty o.b)[l]
    else 0 :=
  gives_lane2 (I.exec_fields (x := execShr h o m) rfl rfl hok) hi fun _ _ _ => shiftRight_mod (elem_lt _ _ _) _

theorem gives_sar : Gives (.sar h o m) e o.d m.ty fun l k =>
    intCode m.ty.shape.1 (signedOf m.ty.shape.1 (elem m.ty k (e.src m.ty o.a)[l]) / 2 ^ elem m.ty k (e.src m.ty o.b)[l]) := by
  refine gives_lane2 (I.exec_fields (x := execSar h o m) rfl rfl hok) hi fun l k _ => ?_
  rw [shiftArith, signedOf_div_min, Nat.mod_eq_of_lt (intCode_lt _ _)]

theorem gives_rot : Gives (.rot h o m) e o.d m.ty fun l k =>
    rotate m.ty.shape.1 (elem m.ty k (e.src m.ty o.a)[l]) (elem m.ty k (e.src m.ty o.b)[l]) % 2 ^ m.ty.shape.1 :=
  gives_lane2 (I.exec_fields (x := execRot h o m) rfl rfl hok) hi fun _ _ _ => rfl

end

/-- Settles O2. -/
theorem shifts : Obligations.Shifts := by
  intro s h o m e I hok hi
  refine ⟨gives_shl I hok hi, gives_shr I hok hi, gives_sar I hok hi, ?_⟩
  obtain ⟨r, retires, holds⟩ := gives_rot (m := m) I hok hi
  refine ⟨r, retires, fun l => ⟨(holds l).2, fun k j hk hj => ?_⟩⟩
  rw [(holds l).1 k hk]
  exact testBit_rotate (elem_lt _ _ _) hj _

end Sys2Proof.Claim
end

