-- ==== Sys2Proof/Proofs/BitOperations.lean ====
section
/-!
Logic by a table, bit fields, counts and bit reversal (R176, R178, R179), and O3.
-/
namespace Sys2Proof.Claim
open Machine

set_option Elab.async false

/-- A row of single elements in the low bits holds them. -/
theorem holds_ofNat {t : Ty} (one : t.shape.2 = 1) {r : Row} {f : Lane → Nat → Nat}
    (hr : ∀ l : Lane, r[l] = BitVec.ofNat 64 (f l 0)) (hf : ∀ l, f l 0 < 2 ^ t.shape.1) : Holds t r f := by
  intro l
  have fits : t.shape.1 ≤ 64 := by simpa [one] using Ty.shape_fits t
  have value : (r[l]).toNat = f l 0 := by
    rw [hr l, BitVec.toNat_ofNat]
    exact Nat.mod_eq_of_lt (Nat.lt_of_lt_of_le (hf l) (Nat.pow_le_pow_right (by omega) fits))
  refine ⟨fun k hk => ?_, ?_⟩
  · obtain rfl : k = 0 := by omega
    rw [elem, elemAt, value, Nat.mul_zero, Nat.pow_zero, Nat.div_one, Nat.mod_eq_of_lt (hf l)]
  · rw [value, one, Nat.mul_one]
    exact hf l

/-- Where a register holds one element, the row gives it, and zero above. -/
theorem Gives.single {i : Instr} {e : Env} {d : Operand} {t : Ty} {f : Lane → Nat → Nat} (g : Gives i e d t f)
    (one : t.shape.2 = 1) :
    ∃ r, Retires i e (e.write e.s d r) ∧ ∀ l : Lane, (r[l]).toNat < 2 ^ t.shape.1 ∧ elem t 0 r[l] = f l 0 := by
  obtain ⟨r, retires, holds⟩ := g
  refine ⟨r, retires, fun l => ⟨?_, (holds l).1 0 (by omega)⟩⟩
  simpa [one] using (holds l).2

section
variable {s : State} {h : Hdr} {o : Ops4} {m : AMod} {e : Env} (I : Issues s h o.list e)
include I

theorem gives_lop3 (hok : e.ops4Ok o dstPos srcPos srcPos ctlPos = true)
    (hi : e.indexFault [(o.d, false), (o.a, false), (o.b, false)] = none) :
    Gives (.lop3 h o m) e o.d m.ty fun l k =>
      lop3 m.ty.shape.1 (ctlNo o.c) (elem m.ty k (e.src m.ty o.a)[l]) (elem m.ty k (e.src m.ty o.b)[l]) (elem m.ty k (e.raw o.d)[l])
        % 2 ^ m.ty.shape.1 := by
  have hx := I.exec_fields (i := .lop3 h o m) (x := execLop3 h o m) rfl rfl hok
  rw [Env.indexed_none hi] at hx
  exact ⟨_, hx, holds_pack _ (fun l => mapRow3_getElem _ _ _ _ l) fun _ _ _ => rfl⟩

theorem gives_bfx (hok : e.ops4Ok o dstPos srcPos srcPos srcPos = true)
    (hi : e.indexFault [(o.d, false), (o.a, false), (o.b, false), (o.c, false)] = none) :
    Gives (.bfx h o m) e o.d m.ty fun l k =>
      fieldExtract m.ty (elem m.ty k (e.src m.ty o.a)[l]) (elem m.ty k (e.src m.ty o.b)[l]) (elem m.ty k (e.src m.ty o.c)[l])
        % 2 ^ m.ty.shape.1 :=
  gives_lane3 (I.exec_fields (x := execBfx h o m) rfl rfl hok) hi fun _ _ _ => rfl

theorem gives_bfi (one : m.ty.shape.2 = 1) (hok : e.ops4Ok o dstPos srcPos srcPos srcPos = true)
    (hi : e.indexFault [(o.d, false), (o.a, false), (o.b, false), (o.c, false)] = none) :
    Gives (.bfi h o m) e o.d m.ty fun l _ =>
      fieldInsert m.ty.shape.1 (elem m.ty 0 (e.src m.ty o.a)[l]) (elem m.ty 0 (e.src m.ty o.b)[l])
        (elem m.ty 0 (e.src m.ty o.c)[l]) (elem m.ty 0 (e.raw o.d)[l]) := by
  have hx := I.exec_fields (i := .bfi h o m) (x := execBfi h o m) rfl rfl hok
  rw [Env.indexed_none hi] at hx
  exact ⟨_, hx, holds_ofNat one (fun l => Vector.getElem_ofFn l.isLt) fun l => fieldInsert_lt (elem_lt _ _ _) _ _ _⟩

theorem gives_popc (one : m.ty.shape.2 = 1) (hok : e.ops4Ok o dstPos srcPos unused unused = true)
    (hi : e.indexFault [(o.d, false), (o.a, false)] = none) :
    Gives (.popc h o m) e o.d m.ty fun l _ =>
      ((List.range m.ty.shape.1).filter fun j => (elem m.ty 0 (e.src m.ty o.a)[l]).testBit j).length := by
  refine gives_lane1 (I.exec_fields (x := execPopc h o m) rfl rfl hok) hi fun l k hk => ?_
  obtain rfl : k = 0 := by omega
  rw [Nat.mod_eq_of_lt (popBits_lt _ _), popBits_eq_length]

theorem gives_clz (one : m.ty.shape.2 = 1) (hok : e.ops4Ok o dstPos srcPos unused unused = true)
    (hi : e.indexFault [(o.d, false), (o.a, false)] = none) :
    Gives (.clz h o m) e o.d m.ty fun l _ => leadingZeros m.ty.shape.1 (elem m.ty 0 (e.src m.ty o.a)[l]) := by
  refine gives_lane1 (I.exec_fields (x := execClz h o m) rfl rfl hok) hi fun l k hk => ?_
  obtain rfl : k = 0 := by omega
  rw [Nat.mod_eq_of_lt (leadingZeros_lt (elem_lt _ _ _))]

theorem gives_brev (hok : e.ops4Ok o dstPos srcPos unused unused = true)
    (hi : e.indexFault [(o.d, false), (o.a, false)] = none) :
    Gives (.brev h o m) e o.d m.ty fun l k => reverseBits m.ty.shape.1 (elem m.ty k (e.src m.ty o.a)[l]) % 2 ^ m.ty.shape.1 :=
  gives_lane1 (I.exec_fields (x := execBrev h o m) rfl rfl hok) hi fun _ _ _ => rfl

end

/-- Settles O3: each row's element, and the bits of it. -/
theorem bitOperations : Obligations.BitOperations := by
  intro s h o m e I w a b c d bit one
  have bit_eq : ∀ x j, bit x j = (x.testBit j).toNat := fun x j => by cases hx : x.testBit j <;> simp [bit, hx]
  have low : ∀ {x j : Nat}, j < w → (x % 2 ^ w).testBit j = x.testBit j := fun hj => by
    rw [Nat.testBit_mod_two_pow, decide_eq_true hj, Bool.true_and]
  refine ⟨fun hok hi => ?_, fun hok hi => ⟨?_, ?_⟩, fun hok hi => ⟨?_, ?_, ?_⟩⟩
  · obtain ⟨r, retires, single⟩ := (gives_lop3 (m := m) I hok hi).single one
    refine ⟨r, retires, fun l => ⟨(single l).1, fun j hj => ?_⟩⟩
    rw [(single l).2, low hj, testBit_lop3 hj, bit_eq, bit_eq, bit_eq]
  · obtain ⟨r, retires, single⟩ := (gives_bfx (m := m) I hok hi).single one
    refine ⟨r, retires, fun l => ⟨(single l).1, fun empty => ?_, fun field j hj => ?_⟩⟩
    · rw [(single l).2, fieldExtract, if_pos empty, Nat.zero_mod]
    · rw [(single l).2, low hj, testBit_fieldExtract field hj]
  · obtain ⟨r, retires, single⟩ := (gives_bfi I one hok hi).single one
    refine ⟨r, retires, fun l => ⟨(single l).1, fun empty => ?_, fun field j _ => ?_⟩⟩
    · rw [(single l).2]
      exact if_pos empty
    · rw [(single l).2, testBit_fieldInsert field]
  · exact gives_popc I one hok hi
  · exact ⟨_, gives_clz I one hok hi, fun l => leadingZeros_spec (elem_lt _ _ _)⟩
  · obtain ⟨r, retires, single⟩ := (gives_brev (m := m) I hok hi).single one
    refine ⟨r, retires, fun l => ⟨(single l).1, fun j hj => ?_⟩⟩
    rw [(single l).2, low hj, testBit_reverseBits hj]

end Sys2Proof.Claim
end

