-- ==== Sys2Proof/Proofs/IntegerDivide.lean ====
section
/-!
Integer comparison, addresses, division and conversion (R180 to R183), and O4.
-/
namespace Sys2Proof.Machine

set_option Elab.async false

/-- The comparison codes on integers (R180). -/
theorem ccHolds_compare (cc : Nat) (x y : Int) : cc ≤ 5 →
    ccHolds cc (compare x y) = match cc with
      | 0 => decide (x = y) | 1 => decide (x ≠ y) | 2 => decide (x < y)
      | 3 => decide (x ≤ y) | 4 => decide (y < x) | _ => decide (y ≤ x) := by
  intro hcc
  rcases lt_trichotomy x y with h | h | h
  · rw [compare_lt_iff_lt.mpr h]
    interval_cases cc <;> simp [ccHolds] <;> omega
  · rw [compare_eq_iff_eq.mpr h]
    interval_cases cc <;> simp [ccHolds] <;> omega
  · rw [compare_gt_iff_gt.mpr h]
    interval_cases cc <;> simp [ccHolds] <;> omega

theorem leaAddr_eq (t : Ty) (sh : Nat) (a b : Word64) :
    leaAddr t sh a b = a + BitVec.ofInt 64 (t.int t.shape.1 (elemAt t.shape.1 0 b) * 2 ^ sh) := by
  have power : BitVec.twoPow 64 sh = BitVec.ofInt 64 (2 ^ sh) := by
    apply BitVec.eq_of_toNat_eq
    rw [BitVec.toNat_twoPow, BitVec.toNat_ofInt]
    norm_cast
  rw [leaAddr, BitVec.shiftLeft_eq_mul_twoPow, power, BitVec.ofInt_mul]

/-- IDIV with its two special cases (R182). -/
theorem divide_mod {t : Ty} {a : Nat} (ha : a < 2 ^ t.shape.1) (sat rem : Bool) (b : Nat) :
    divide t sat rem a b % 2 ^ t.shape.1 =
      if t.int t.shape.1 b = 0 then (if rem then a else 2 ^ t.shape.1 - 1)
      else if rem then Ty.wrap t false t.shape.1 ((t.int t.shape.1 a).tmod (t.int t.shape.1 b)) % 2 ^ t.shape.1
      else Ty.wrap t sat t.shape.1 ((t.int t.shape.1 a).tdiv (t.int t.shape.1 b)) % 2 ^ t.shape.1 := by
  have ones : 2 ^ t.shape.1 - 1 < 2 ^ t.shape.1 := Nat.sub_lt (Nat.two_pow_pos _) Nat.one_pos
  unfold divide
  dsimp only
  split
  · cases rem with
    | true => exact Nat.mod_eq_of_lt ha
    | false => exact Nat.mod_eq_of_lt ones
  · cases rem <;> rfl

end Sys2Proof.Machine

namespace Sys2Proof.Claim
open Machine

theorem GivesRow.congr {i : Instr} {e : Env} {d : Operand} {f g : Lane → Word64} (hg : GivesRow i e d f) (hfg : ∀ l, f l = g l) :
    GivesRow i e d g := (funext hfg : f = g) ▸ hg

section
variable {s : State} {h : Hdr} {o : Ops4} {m : AMod} {e : Env} (I : Issues s h o.list e)
include I

theorem gives_icmp (hok : e.ops4Ok o { kinds := [.p] } srcPos srcPos ctlPos = true)
    (hi : e.indexFault [(o.a, false), (o.b, false)] = none) :
    GivesPred (.icmp h o m) e o.d fun l =>
      Tri.ofBool (ccHolds (ctlNo o.c) (compare (num m.ty 0 (e.src m.ty o.a)[l]) (num m.ty 0 (e.src m.ty o.b)[l]))) := by
  have hx := I.exec_fields (i := .icmp h o m) (x := execIcmp h o m) rfl rfl hok
  rw [Env.indexed_none hi] at hx
  exact hx

theorem gives_lea (hok : e.ops4Ok o dstPos srcPos srcPos ctlPos = true)
    (hi : e.indexFault [(o.d, false), (o.a, false), (o.b, false)] = none) :
    GivesRow (.lea h o m) e o.d fun l => leaAddr m.ty (ctlNo o.c) (e.raw o.a)[l] (e.src m.ty o.b)[l] := by
  have hx := I.exec_fields (i := .lea h o m) (x := execLea h o m) rfl rfl hok
  rw [Env.indexed_none hi] at hx
  exact hx

theorem gives_idiv (one : m.ty.shape.2 = 1) (hok : e.ops4Ok o dstPos srcPos srcPos ctlPos = true)
    (hi : e.indexFault [(o.d, false), (o.a, false), (o.b, false)] = none) :
    Gives (.idiv h o m) e o.d m.ty fun l _ =>
      if num m.ty 0 (e.src m.ty o.b)[l] = 0 then (if ctlNo o.c = 1 then elem m.ty 0 (e.src m.ty o.a)[l] else 2 ^ m.ty.shape.1 - 1)
      else if ctlNo o.c = 1 then
        narrow m.ty false ((num m.ty 0 (e.src m.ty o.a)[l]).tmod (num m.ty 0 (e.src m.ty o.b)[l]))
      else narrow m.ty m.sat ((num m.ty 0 (e.src m.ty o.a)[l]).tdiv (num m.ty 0 (e.src m.ty o.b)[l])) := by
  refine gives_lane2 (I.exec_fields (x := execIdiv h o m) rfl rfl hok) hi fun l k hk => ?_
  obtain rfl : k = 0 := by omega
  rw [divide_mod (elem_lt _ _ _), wrap_mod, wrap_mod]
  simp only [beq_iff_eq]
  rfl

theorem gives_cvti (one : m.ty.shape.2 = 1) (hok : e.ops4Ok o dstPos srcPos ctlPos unused = true)
    (hi : e.indexFault [(o.d, false), (o.a, false)] = none) :
    Gives (.cvti h o m) e o.d m.ty fun l _ => narrow m.ty m.sat (num (srcTy o.b) 0 (e.src (srcTy o.b) o.a)[l]) := by
  have hx := I.exec_fields (i := .cvti h o m) (x := execCvti h o m) rfl rfl hok
  dsimp only at hx
  rw [Env.indexed_none hi] at hx
  refine ⟨_, hx, holds_ofNat one (fun l => ?_) fun l => ?_⟩
  · rw [mapRow_getElem, wrap_eq]
    rfl
  · rw [← wrap_mod]
    exact Nat.mod_lt _ (Nat.two_pow_pos _)

end

/-- Settles O4. -/
theorem integerCompareAddressDivide : Obligations.IntegerCompareAddressDivide := by
  intro s h o m e I one
  refine ⟨fun hok hi hcc => ?_, fun hok hi => ⟨?_, gives_idiv I one hok hi⟩, fun hok hi => gives_cvti I one hok hi⟩
  · exact (gives_icmp I hok hi).congr fun l => congrArg Tri.ofBool (ccHolds_compare _ _ _ hcc)
  · exact (gives_lea I hok hi).congr fun l => leaAddr_eq _ _ _ _

end Sys2Proof.Claim
end

