-- ==== Sys2Proof/Proofs/ApproximateFunctions.lean ====
section
/-!
The approximate functions (R190): their special values and exact cases, the bound on every other value, and O6.
-/
namespace Sys2Proof.Machine

set_option Elab.async false

/-! ### What the device returns -/

theorem ApproxFn.eval_of_special {k : ApproxFn} {x : Nat} {v y : XR} (hv : FP32.decode x = v) (hy : k.special v = some y) :
    k.eval x = FP32.encode .rne false false y := by
  simp only [ApproxFn.eval, hv, hy]

/-- Where no special case holds, the value lies within the bound or is the nearest to the exact one. -/
theorem ApproxFn.eval_of_not_special {k : ApproxFn} {x : Nat} {neg : Bool} {m : Nat} {e : Int} (hv : FP32.decode x = .fin neg m e)
    (hs : k.special (.fin neg m e) = none) :
    (∃ rz rk rn, FP32.decode (k.eval x) = .fin rz rk rn ∧
      k.exact neg m e - k.bound m e (k.exact neg m e) ≤ fxOf rz rk rn ∧
      fxOf rz rk rn ≤ k.exact neg m e + k.bound m e (k.exact neg m e)) ∨
    k.eval x = FP32.encode .rne false false (fxNum (k.exact neg m e)) := by
  simp only [ApproxFn.eval, hv, hs]
  split
  · split
    · exact .inl ⟨_, _, _, ‹_›, ‹_ ∧ _›⟩
    · exact .inr rfl
  · exact .inr rfl

/-! ### Numbers that are integers or powers of two -/

/-- The exponent of the leading bit, with the powers of two on the side where they are whole. -/
theorem le_floorLog2_iff {m : Nat} (hm : m ≠ 0) (e : Int) (c : Nat) :
    (c : Int) ≤ floorLog2 m e ↔ 2 ^ c * 2 ^ (-e).toNat ≤ m * 2 ^ e.toNat := by
  unfold floorLog2
  rcases Int.le_total 0 e with he | he
  · obtain ⟨p, rfl⟩ := Int.eq_ofNat_of_zero_le he
    rw [show (-(p : Int)).toNat = 0 by omega, Int.toNat_natCast, Nat.pow_zero, Nat.mul_one]
    rcases Nat.le_total c p with hc | hc
    · have small : 2 ^ c ≤ m * 2 ^ p :=
        (Nat.pow_le_pow_right (by omega) hc).trans (Nat.le_mul_of_pos_left _ (Nat.pos_of_ne_zero hm))
      exact ⟨fun _ => small, fun _ => by omega⟩
    · rw [show 2 ^ c = 2 ^ (c - p) * 2 ^ p by rw [← Nat.pow_add, Nat.sub_add_cancel hc],
        Nat.mul_le_mul_right_iff (Nat.two_pow_pos p), ← Nat.le_log2 hm]
      omega
  · obtain ⟨q, hq⟩ := Int.eq_ofNat_of_zero_le (Int.neg_nonneg_of_nonpos he)
    rw [show e.toNat = 0 by omega, hq, Int.toNat_natCast, Nat.pow_zero, Nat.mul_one, ← Nat.pow_add, ← Nat.le_log2 hm]
    omega

theorem asInt_eq {neg : Bool} {m : Nat} {e : Int} {i : Nat} (h : m * 2 ^ e.toNat = i * 2 ^ (-e).toNat) :
    asInt neg m e = some (if neg then -(i : Int) else (i : Int)) := by
  unfold asInt
  by_cases he : 0 ≤ e
  · rw [show (-e).toNat = 0 by omega, Nat.pow_zero, Nat.mul_one] at h
    simp [he, h]
  · rw [show e.toNat = 0 by omega, Nat.pow_zero, Nat.mul_one] at h
    simp [he, h]

/-- An integer is no less than a natural number that the value reaches. -/
theorem le_of_asInt {m : Nat} {e i : Int} {c : Nat} (h : asInt false m e = some i) (hc : c * 2 ^ (-e).toNat ≤ m * 2 ^ e.toNat) :
    (c : Int) ≤ i := by
  unfold asInt at h
  by_cases he : 0 ≤ e
  · rw [show (-e).toNat = 0 by omega, Nat.pow_zero, Nat.mul_one] at hc
    simp only [he, if_true, Option.map_some, Bool.false_eq_true, if_false, Option.some.injEq] at h
    omega
  · rw [show e.toNat = 0 by omega, Nat.pow_zero, Nat.mul_one] at hc
    have quotient := (Nat.le_div_iff_mul_le (Nat.two_pow_pos (-e).toNat)).mpr hc
    simp only [he, if_false, Bool.false_eq_true] at h
    split at h
    · simp only [Option.map_some, Option.some.injEq] at h
      omega
    · cases h

/-! ### Special values and exact cases -/

theorem special_of_negative {m : Nat} (hm : m ≠ 0) (e : Int) :
    ApproxFn.rsq.special (.fin true m e) = some .nan ∧ ApproxFn.lg2.special (.fin true m e) = some .nan := by
  simp [ApproxFn.special, hm]

theorem special_lg2_two_pow (j : Nat) (e : Int) : ApproxFn.lg2.special (.fin false (2 ^ j) e) = some (XR.ofInt (j + e)) := by
  simp [ApproxFn.special, powerOfTwo, Nat.log2_two_pow]

/-- FEX2 of an integer is exact, from −149 on and below 2^8. -/
theorem special_ex2_int {neg : Bool} {m : Nat} {e : Int} {i : Nat} (hm : m ≠ 0) (hi : m * 2 ^ e.toNat = i * 2 ^ (-e).toNat)
    (small : i < 256) (low : neg = true → i ≤ 149) :
    ApproxFn.ex2.special (.fin neg m e) = some (.fin false 1 (if neg then -(i : Int) else i)) := by
  have below : ¬ 7 < floorLog2 m e := fun h => by
    have := (le_floorLog2_iff hm e 8).mp h
    rw [hi] at this
    have := Nat.le_of_mul_le_mul_right this (Nat.two_pow_pos _)
    omega
  have inside : ¬ (if neg then -(i : Int) else i) < -149 := by
    cases neg with
    | false => simp only [Bool.false_eq_true, if_false]; omega
    | true => have := low rfl; simp only [if_true]; omega
  simp only [ApproxFn.special, hm, below, asInt_eq hi, inside, if_false]

/-- 2^i from 2^128 on overflows as infinity does. -/
theorem encode_two_pow_of_overflow {i : Int} (hi : 128 ≤ i) :
    FP32.encode .rne false false (.fin false 1 i) = FP32.encode .rne false false (.inf false) := by
  have log : Nat.log2 1 = 0 := by decide
  have round : FP32.round1 .rne false 1 i = (i, 2 ^ 23) := by
    simp [FFmt.round1, roundAt, FP32, log]
  have top : FP32.maxCode = 255 * 2 ^ 23 - 1 := by decide
  have big : FP32.maxCode < (i + FP32.bias).toNat * 2 ^ FP32.mbits + (2 ^ 23 - 2 ^ FP32.mbits) := by
    rw [top]
    show 255 * 2 ^ 23 - 1 < (i + 127).toNat * 2 ^ 23 + 0
    omega
  have normal : ¬ i < FP32.emin := by
    show ¬ i < 1 - 127
    omega
  simp only [FFmt.encode, round, one_ne_zero, if_false]
  rw [if_neg normal, if_pos big]
  rfl

/-- FEX2 from 128 on gives infinity (R44 under RNE). -/
theorem special_ex2_of_overflow {m : Nat} {e : Int} (h : 128 * 2 ^ (-e).toNat ≤ m * 2 ^ e.toNat) :
    ∃ y, ApproxFn.ex2.special (.fin false m e) = some y ∧
      FP32.encode .rne false false y = FP32.encode .rne false false (.inf false) := by
  have hm : m ≠ 0 := by
    rintro rfl
    have := Nat.two_pow_pos (-e).toNat
    omega
  have seven : 7 ≤ floorLog2 m e := (le_floorLog2_iff hm e 7).mpr h
  by_cases above : 7 < floorLog2 m e
  · exact ⟨.inf false, by simp [ApproxFn.special, hm, above], rfl⟩
  · cases hi : asInt false m e with
    | some i =>
      have reached : 128 ≤ i := le_of_asInt hi h
      have inside : ¬ i < -149 := by omega
      exact ⟨.fin false 1 i, by simp [ApproxFn.special, hm, above, hi, inside], encode_two_pow_of_overflow reached⟩
    | none =>
      have exactly : floorLog2 m e = 7 := by omega
      exact ⟨.inf false, by simp [ApproxFn.special, hm, hi, exactly], rfl⟩

end Sys2Proof.Machine

namespace Sys2Proof.Claim
open Machine

section
variable {x : Nat}

theorem eval_nan (hv : FP32.decode x = .nan) (fn : ApproxFn) : fn.eval x = FP32.nan :=
  fn.eval_of_special hv (y := .nan) rfl

theorem eval_inf {z : Bool} (hv : FP32.decode x = .inf z) :
    let enc := FP32.encode .rne false false
    ApproxFn.rsq.eval x = enc (if z then .nan else .fin false 0 0) ∧ ApproxFn.ex2.eval x = enc (if z then .fin false 0 0 else .inf false) ∧
    ApproxFn.lg2.eval x = enc (if z then .nan else .inf false) ∧ ApproxFn.sin.eval x = FP32.nan ∧ ApproxFn.cos.eval x = FP32.nan ∧
    ApproxFn.tanh.eval x = enc (.fin z 1 0) :=
  have special : ∀ (fn : ApproxFn) {y}, fn.special (.inf z) = some y → fn.eval x = FP32.encode .rne false false y :=
    fun fn _ hy => fn.eval_of_special hv hy
  ⟨special .rsq rfl, special .ex2 rfl, special .lg2 rfl, special .sin rfl, special .cos rfl, special .tanh rfl⟩

theorem eval_zero {z : Bool} {n : Int} (hv : FP32.decode x = .fin z 0 n) :
    let enc := FP32.encode .rne false false
    ApproxFn.rsq.eval x = enc (.inf z) ∧ ApproxFn.ex2.eval x = enc (.fin false 1 0) ∧ ApproxFn.lg2.eval x = enc (.inf true) ∧
    ApproxFn.sin.eval x = enc (.fin z 0 n) ∧ ApproxFn.cos.eval x = enc (.fin false 1 0) ∧ ApproxFn.tanh.eval x = enc (.fin z 0 n) :=
  have special : ∀ (fn : ApproxFn) {y}, fn.special (.fin z 0 n) = some y → fn.eval x = FP32.encode .rne false false y :=
    fun fn _ hy => fn.eval_of_special hv hy
  ⟨special .rsq rfl, special .ex2 rfl, special .lg2 rfl, special .sin rfl, special .cos rfl, special .tanh rfl⟩

/-- FLG2 has a value of its own for positive numbers alone. -/
theorem positive_of_lg2 {z : Bool} {k : Nat} {n : Int} (hs : ApproxFn.lg2.special (.fin z k n) = none) : z = false := by
  cases z with
  | false => rfl
  | true =>
    by_cases hk : k = 0
    · subst hk
      cases hs
    · rw [(special_of_negative hk n).2] at hs
      cases hs

end

/-- An approximate function converts its operand to f32 and its value from f32 (R190). -/
theorem gives_approx {s : State} {h : Hdr} {o : Ops4} {m : AMod} {e : Env} (I : Issues s h o.list e) (hr : RmOk e (m.rm == .dyn))
    (hok : e.ops4Ok o dstPos fpPos unused unused = true) (hi : e.indexFault [(o.d, false), (o.a, false)] = none)
    {i : Instr} (fn : ApproxFn) (hx : exec i = Machine.perform h o.list (frontF1 o m) noSync (approxBody o m fn)) :
    Gives i e o.d m.ty fun l k =>
      m.ty.fmt.encode .rne m.sat m.ftz (FP32.decode (fn.eval (FP32.encode .rne false false
        (m.ty.fmt.read m.ftz (elem m.ty k (e.src m.ty o.a)[l]))))) % 2 ^ m.ty.shape.1 :=
  gives_lane1 (exec_float I hr i _ hx rfl hok :) hi fun _ _ _ => rfl

/-- Settles O6: the special cases are those of `ApproxFn.special`; elsewhere the value was tested against the bound. -/
theorem approximateFunctions : Obligations.ApproximateFunctions := by
  refine ⟨fun x => ⟨eval_nan, fun z hv => eval_inf hv, fun z n hv => ?_, fun k n hv hk => ?_, fun j n hv => ?_,
      fun z k n i hv hk hi => ⟨fun hz low => ?_, fun hz high => ?_⟩, fun k n hv big => ?_, fun fn z k n hv hs => ?_⟩,
    fun s h o m e I hr hok hi => ⟨gives_approx I hr hok hi .rsq rfl, gives_approx I hr hok hi .ex2 rfl,
      gives_approx I hr hok hi .lg2 rfl, gives_approx I hr hok hi .sin rfl, gives_approx I hr hok hi .cos rfl,
      gives_approx I hr hok hi .tanh rfl⟩⟩
  · rw [hv]
    exact eval_zero hv
  · exact ⟨ApproxFn.eval_of_special hv (special_of_negative hk n).1, ApproxFn.eval_of_special hv (special_of_negative hk n).2⟩
  · exact ApproxFn.eval_of_special hv (special_lg2_two_pow j n)
  · subst hz
    exact ApproxFn.eval_of_special hv (special_ex2_int hk hi (by omega) fun _ => low)
  · subst hz
    exact ApproxFn.eval_of_special hv (special_ex2_int hk hi (by omega) fun hz => absurd hz Bool.false_ne_true)
  · obtain ⟨y, hy, infinite⟩ := special_ex2_of_overflow big
    rw [ApproxFn.eval_of_special hv hy]
    exact infinite
  · rw [hv] at hs
    cases fn with
    | lg2 =>
      obtain rfl := positive_of_lg2 hs
      rw [hv]
      exact ApproxFn.eval_of_not_special hv hs
    | _ => exact ApproxFn.eval_of_not_special hv hs

end Sys2Proof.Claim
end

