-- ==== Sys2Proof/Proofs/FloatClasses.lean ====
section
/-!
Floating comparison and classification (R187, R188), and O7.
-/
namespace Sys2Proof.Machine

set_option Elab.async false

theorem mapRow_eq_ofFn (f : Word64 → Word64) (a : Row) : mapRow f a = Vector.ofFn fun l : Lane => f a[l] := by
  ext i hi
  simp [mapRow]

/-! ### Comparison -/

theorem XR.cmp_swap (x y : XR) : y.cmp x = (x.cmp y).swap := by
  cases x with
  | nan => cases y <;> simp [XR.cmp]; split <;> rfl
  | inf a =>
    cases y with
    | nan => cases a <;> rfl
    | inf b => cases a <;> cases b <;> rfl
    | fin => cases a <;> rfl
  | fin a m e =>
    cases y with
    | nan => rfl
    | inf b => cases b <;> rfl
    | fin b n f =>
      rw [XR.cmp, XR.cmp, min_comm f e]
      exact Std.OrientedCmp.eq_swap

/-- FCMP by the comparisons of R187; two numbers are always ordered. -/
theorem fcmpTri_eq (cc : Nat) (x y : XR) : cc ≤ 6 →
    fcmpTri cc x y = if x.isNan || y.isNan then (if cc = 6 then .f else .u)
      else Tri.ofBool (match cc with
        | 0 => x.eq y | 1 => !x.eq y | 2 => x.lt y | 3 => x.le y | 4 => y.lt x | 5 => y.le x | _ => true) := by
  intro hcc
  unfold fcmpTri
  by_cases nan : (x.isNan || y.isNan) = true
  · rw [if_pos nan, if_pos nan]
  · rw [if_neg nan, if_neg nan]
    obtain ⟨hx, hy⟩ : x.isNan = false ∧ y.isNan = false := by simpa using nan
    simp only [XR.le, XR.lt, XR.eq, hx, hy, XR.cmp_swap x y]
    interval_cases cc <;> cases x.cmp y <;> rfl

/-! ### Classes -/

/-- The lane types' formats have infinities and NaNs. -/
theorem fmt_special (t : Ty) : t.fmt.special = .ieee := by cases t <;> rfl

theorem mod_signBit (f : FFmt) (c : Nat) : c % f.signBit = c % 2 ^ f.mbits + 2 ^ f.mbits * (c / 2 ^ f.mbits % 2 ^ f.ebits) := by
  rw [FFmt.signBit, Nat.add_comm f.ebits, Nat.pow_add, Nat.mod_mul]

/-- The class of a code of an IEEE format, by the number that it denotes (R188). -/
theorem FFmt.classOf_eq {f : FFmt} (hf : f.special = .ieee) (c : Nat) :
    f.classOf c = match f.decode c with
      | .inf n => if n then 0 else 7
      | .nan => if c % 2 ^ f.mbits < 2 ^ (f.mbits - 1) then 8 else 9
      | .fin _ v _ =>
        if v = 0 then (if c / f.signBit % 2 == 1 then 3 else 4)
        else if decide (2 ^ f.mbits ≤ c % f.signBit) then (if c / f.signBit % 2 == 1 then 1 else 6)
        else (if c / f.signBit % 2 == 1 then 2 else 5) := by
  have narrow : ¬ (f.special == Special.e4m3) = true := by rw [hf]; decide
  have ieee : (f.special == Special.ieee) = true := by rw [hf]; decide
  have low := Nat.mod_lt c (Nat.two_pow_pos f.mbits)
  unfold FFmt.classOf FFmt.decode
  by_cases top : c / 2 ^ f.mbits % 2 ^ f.ebits = 2 ^ f.ebits - 1
  · by_cases hfr : c % 2 ^ f.mbits = 0
    · simp [top, ieee, hfr]
    · simp [top, ieee, hfr, Nat.div_eq_zero_iff]
  · by_cases sub : c / 2 ^ f.mbits % 2 ^ f.ebits = 0
    · have small : ¬ 2 ^ f.mbits ≤ c % f.signBit := by
        rw [mod_signBit, sub]
        omega
      have finite : ¬ 0 = 2 ^ f.ebits - 1 := sub ▸ top
      simp [finite, sub, narrow, small]
    · have large : 2 ^ f.mbits ≤ c % f.signBit := by
        rw [mod_signBit]
        have := Nat.le_mul_of_pos_right (2 ^ f.mbits) (Nat.pos_of_ne_zero sub)
        omega
      simp [top, sub, narrow, large]

end Sys2Proof.Machine

namespace Sys2Proof.Claim
open Machine

section
variable {s : State} {h : Hdr} {o : Ops4} {m : AMod} {e : Env} (I : Issues s h o.list e)
include I

theorem gives_fcmp (hok : e.ops4Ok o { kinds := [.p] } fpPos fpPos ctlPos = true)
    (hi : e.indexFault [(o.a, false), (o.b, false)] = none) :
    GivesPred (.fcmp h o m) e o.d fun l => fcmpTri (ctlNo o.c) (m.ty.fmt.read m.ftz (elem m.ty 0 (e.src m.ty o.a)[l]))
      (m.ty.fmt.read m.ftz (elem m.ty 0 (e.src m.ty o.b)[l])) := by
  have hx := I.exec_fields (i := .fcmp h o m) (x := execFcmp h o m) rfl rfl hok
  rw [Env.indexed_none hi] at hx
  exact hx

/-- The form of FCLASS that writes a register. -/
theorem gives_fclass_bit (hok : e.ops4Ok o dstPos fpPos unused unused = true)
    (hi : e.indexFault [(o.d, false), (o.a, false)] = none) :
    GivesRow (.fclass h o m) e o.d fun l => BitVec.ofNat 64 (2 ^ m.ty.fmt.classOf (elem m.ty 0 (e.src m.ty o.a)[l])) := by
  cases hd : o.d with
  | p n => simp [Env.ops4Ok, Env.fieldOk, dstPos, hd] at hok
  | _ =>
    have hx := I.exec_fields (i := .fclass h o m) (x := execFclass h o m) rfl (by unfold execFclass; exact rfl)
      (by simpa [hd] using hok)
    dsimp only at hx
    rw [Env.indexed_none hi, mapRow_eq_ofFn] at hx
    simp only [hd] at hx
    exact hx

/-- The form of FCLASS that tests a mask. -/
theorem gives_fclass_test (hd : o.d.isP = true) (hok : e.ops4Ok o { kinds := [.p] } fpPos unused ctlPos = true)
    (hi : e.indexFault [(o.d, false), (o.a, false)] = none) :
    GivesPred (.fclass h o m) e o.d fun l =>
      Tri.ofBool ((ctlNo o.c).testBit (m.ty.fmt.classOf (elem m.ty 0 (e.src m.ty o.a)[l]))) := by
  cases hc : o.d with
  | p n =>
    have hx := I.exec_fields (i := .fclass h o m) (x := execFclass h o m) rfl (by unfold execFclass; exact rfl)
      (by simpa [hc] using hok)
    dsimp only at hx
    rw [Env.indexed_none hi] at hx
    simp only [hc, if_true] at hx
    simp only [div_mod_two_beq_one] at hx
    exact hx
  | _ => simp [Operand.isP, hc] at hd

end

/-- Settles O7. -/
theorem floatCompareAndClass : Obligations.FloatCompareAndClass := by
  intro s h o m e I
  refine ⟨fun hok hi hcc => ?_, fun _ hi => ⟨fun hok => ?_, fun hd hok => ?_⟩⟩
  · exact (gives_fcmp I hok hi).congr fun l => fcmpTri_eq _ _ _ hcc
  · exact (gives_fclass_bit I hok hi).congr fun _ =>
      congrArg (fun n => BitVec.ofNat 64 (2 ^ n)) (FFmt.classOf_eq (fmt_special _) _)
  · exact (gives_fclass_test I hd hok hi).congr fun _ =>
      congrArg (fun n => Tri.ofBool ((ctlNo o.c).testBit n)) (FFmt.classOf_eq (fmt_special _) _)

end Sys2Proof.Claim
end

