-- ==== Sys2Proof/Proofs/Conversions.lean ====
section
/-!
Conversions between lane types and storage formats, and block quantisation (R193 to R197), and O8.
-/
namespace Sys2Proof.Claim
open Machine

set_option Elab.async false

section
variable {s : State} {h : Hdr} {o : Ops4} {m : AMod} {e : Env} (I : Issues s h o.list e)
include I

theorem gives_cvtf (hr : RmOk e (m.rm == .dyn)) (hi : e.indexFault [(o.d, false), (o.a, false)] = none)
    (hok : e.ops4Ok o dstPos { kinds := [.v, .s, .idx, .imm, .zero], fp := (srcTy o.b).isFloat } ctlPos unused = true) :
    GivesRow (.cvtf h o m) e o.d fun l =>
      BitVec.ofNat 64 (convertTo m.ty (e.rnd m) (valueOf (srcTy o.b) m.ftz (elem (srcTy o.b) 0 (e.src (srcTy o.b) o.a)[l]))) := by
  have hx := exec_float I hr (.cvtf h o m) (execCvtf h o m) rfl (by unfold execCvtf; exact rfl) hok
  dsimp only at hx
  rw [Env.indexed_none hi, mapRow_eq_ofFn] at hx
  exact hx

/-- What PACK writes, and how many of its sources a format cannot hold (R194). -/
theorem retires_pack (hr : RmOk e (m.rm == .dyn)) (hi : e.indexFault [(o.d, false), (o.a, false), (o.b, false)] = none)
    (hok : e.ops4Ok o dstPos fpPos (if m.ty == .f32x2 then fpPos else unused) ctlPos = true) :
    let x := fun (l : Lane) => packSources m.ty m.ftz (e.src m.ty o.a)[l] (e.src m.ty o.b)[l]
    Retires (.pack h o m) e (e.countErr
      (e.write e.s o.d (Vector.ofFn fun l : Lane =>
        groupPut (fgFmt o.c) (fgGroup o.c) ((x l).map (fmtEncode (fgFmt o.c) (e.rnd m).rm (e.rnd m).sat (e.rnd m).ftz)) (e.raw o.d)[l]))
      ((lanesOf e.act).foldl (fun n l => n + ((x l).filter (fmtCounts (fgFmt o.c))).length) 0)) := by
  have hx := exec_float I hr (.pack h o m) (execPack h o m) rfl (by unfold execPack; exact rfl) hok
  dsimp only at hx
  rw [Env.indexed_none hi] at hx
  exact hx

/-- What UNPACK writes to D, or to the pair at D (R195). -/
theorem retires_unpack (hr : RmOk e (m.rm == .dyn)) (hi : e.indexFault [(o.d, m.ty == .f32x2), (o.a, false)] = none)
    (hok : e.ops4Ok o { kinds := [.v, .idx], pair := m.ty == .f32x2 } srcPos unused ctlPos = true) :
    let code := fun (x : Word64) i => m.ty.fmt.encode (e.rnd m).rm (e.rnd m).sat (e.rnd m).ftz
      (fmtValue (fgFmt o.c) m.ftz (groupElem (fgFmt o.c) (fgGroup o.c) i x))
    let row := fun hi => mapRow (fun x => spread m.ty (code x) hi) (e.raw o.a)
    Retires (.unpack h o m) e
      (if m.ty == .f32x2 then e.writeHi (e.write e.s o.d (row false)) o.d (row true) else e.write e.s o.d (row false)) := by
  have hx := exec_float I hr (.unpack h o m) (execUnpack h o m) rfl (by unfold execUnpack; exact rfl) hok
  dsimp only at hx
  rw [Env.indexed_none hi] at hx
  exact hx

/-- What DEQ writes to the pair at D, and how many TERN2 codes it counts (R196). -/
theorem retires_deq (hr : RmOk e (m.rm == .dyn)) (hi : e.indexFault [(o.d, true), (o.a, false), (o.b, false)] = none)
    (hok : e.ops4Ok o { kinds := [.v, .idx], pair := true } srcPos srcPos ctlPos = true)
    (hf : ∀ b ∈ blockFeats (fgFmt o.c), e.s.feat e.sig.ctx b = true) :
    let code := fun (x y : Word64) i =>
      FP32.encode (e.rnd m).rm false (e.rnd m).ftz (deqValue (fgFmt o.c) (groupElem (fgFmt o.c) (fgGroup o.c) i x) y)
    let row := fun hi => mapRow2 (fun x y => spread .f32x2 (code x y) hi) (e.raw o.a) (e.raw o.b)
    let errs := if fgFmt o.c = 15 then (lanesOf e.act).foldl (fun n l =>
        n + ((List.range 4).filter fun i => groupElem (fgFmt o.c) (fgGroup o.c) i (e.raw o.a)[l] == 3).length) 0 else 0
    Retires (.deq h o m) e (e.countErr (e.writeHi (e.write e.s o.d (row false)) o.d (row true)) errs) := by
  have hx : exec (.deq h o m) e.s = execDeq h o m e.s := rfl
  unfold execDeq at hx
  exact retires_of I hr hf rfl hok (Or.inl rfl) (Env.indexed_none hi _) hx

/-- What QBLK writes: the lane's place in the block of its quarter (R197). -/
theorem retires_qblk (hi : e.indexFault [(o.d, false), (o.a, false), (o.b, false)] = none)
    (hok : e.ops4Ok o dstPos fpPos (if fgFmt o.c = 14 then srcPos else unused) ctlPos = true)
    (hf : ∀ b ∈ blockFeats (fgFmt o.c), e.s.feat e.sig.ctx b = true) :
    ∃ row, Retires (.qblk h o m) e (e.write e.s o.d row) ∧ ∀ l : Lane, row[l] =
      if fgFmt o.c = 14 then qblkQ4n (e.src m.ty o.a) (e.raw o.b) (e.quarter (l.val / 32)) l
      else qblkMx (fgFmt o.c) (e.src m.ty o.a) (e.quarter (l.val / 32)) l := by
  have hx : exec (.qblk h o m) e.s = execQblk h o m e.s := rfl
  unfold execQblk at hx
  refine ⟨_, retires_of I (fun hd => absurd hd Bool.false_ne_true) hf rfl hok (Or.inl rfl) (Env.indexed_none hi _) hx, fun l => ?_⟩
  have quarter : l.val / 32 < 4 := by omega
  by_cases q4n : fgFmt o.c = 14 <;> simp [q4n, quarter, List.getD]

end

/-- Settles O8. -/
theorem conversionsAndBlocks : Obligations.ConversionsAndBlocks := by
  intro s h o m e I
  exact ⟨fun hr _ hi hok => gives_cvtf I hr hi hok, fun hr hi hok => retires_pack I hr hi hok,
    fun hr hi hok => retires_unpack I hr hi hok, fun hr hi hok hf => retires_deq I hr hi hok hf,
    fun hi hok hf => retires_qblk I hi hok hf⟩

end Sys2Proof.Claim
end

