-- ==== Sys2Proof/Proofs/IntervalArithmetic.lean ====
section
/-!
Interval instructions (R198, R199): the checks of their operands and results, and O9.
-/
namespace Sys2Proof.Machine

set_option Elab.async false

/-- What follows with a well-formed operand. -/
theorem FFmt.checked_bind {α : Type} (f : FFmt) (x : Bounds) (g : Bounds → Option α) :
    (f.checked x).bind g = if f.ivOk x then g x else none := by
  unfold FFmt.checked
  split <;> rfl

theorem FFmt.checked_map {α : Type} (f : FFmt) (x : Bounds) (g : Bounds → α) :
    (f.checked x).map g = if f.ivOk x then some (g x) else none := by
  unfold FFmt.checked
  split <;> rfl

theorem FFmt.checked_bind2 {α : Type} (f : FFmt) (x y : Bounds) (g : Bounds → Bounds → Option α) :
    ((f.checked x).bind fun x => (f.checked y).bind fun y => g x y) = if f.ivOk x && f.ivOk y then g x y else none := by
  simp only [FFmt.checked_bind, Bool.and_eq_true, ite_and]

theorem FFmt.checked_bind3 {α : Type} (f : FFmt) (x y z : Bounds) (g : Bounds → Bounds → Bounds → Option α) :
    ((f.checked x).bind fun x => (f.checked y).bind fun y => (f.checked z).bind fun z => g x y z) =
      if f.ivOk x && f.ivOk y && f.ivOk z then g x y z else none := by
  simp only [FFmt.checked_bind, Bool.and_eq_true, ite_and]

end Sys2Proof.Machine

namespace Sys2Proof.Claim
open Machine

set_option Elab.async false

section
variable {i : Instr} {e : Env} {o : Ops4} {t : Ty}

/-- A checked result depends on the values of its lanes alone. -/
theorem GivesIv.congr {d : Operand} {f g : Lane → Option Bounds} (hf : GivesIv i e t d f) (hfg : ∀ l, f l = g l) : GivesIv i e t d g :=
  (funext hfg : f = g) ▸ hf

theorem GivesPt.congr {d : Operand} {f g : Lane → Option Nat} (hf : GivesPt i e d f) (hfg : ∀ l, f l = g l) : GivesPt i e d g :=
  (funext hfg : f = g) ▸ hf

theorem GivesTri.congr {d : Operand} {f g : Lane → Option Tri} (hf : GivesTri i e d f) (hfg : ∀ l, f l = g l) : GivesTri i e d g :=
  (funext hfg : f = g) ▸ hf

theorem givesIv_of_finish {f : Lane → Option Bounds} (hx : exec i e.s = .next (e.finish (e.ivResult t o f))) : GivesIv i e t o.d f :=
  checked_of hx

theorem givesPt_of_finish {f : Lane → Option Nat} (hx : exec i e.s = .next (e.finish (e.ptResult o f))) : GivesPt i e o.d f :=
  checked_of hx

theorem givesTri_of_finish {f : Lane → Option Tri} (hx : exec i e.s = .next (e.finish (e.triResult o f))) : GivesTri i e o.d f :=
  checked_of hx

end

section
variable {s : State} {h : Hdr} {o : Ops4} {t : Ty} {e : Env} (I : Issues s h o.list e) (feat : e.s.feat e.sig.ctx 0 = true) {i : Instr}
  {x : State → Host.Outcome State Fault Refusal}
include I feat

/-- The frame of an interval instruction whose fields fit (R423). -/
theorem exec_interval {d a b c : Pos} {body : Env → Eff} (hi : exec i = x)
    (hx : x = Machine.perform h o.list (ivFront o d a b c) noSync body) (hok : e.ops4Ok o d a b c = true) :
    exec i e.s = .next (e.finish (body e)) :=
  I.exec_in_turn hi hx (fun _ hb => List.mem_singleton.mp hb ▸ feat) hok (Or.inl rfl)

/-- Operations on one, two and three well-formed intervals. -/
theorem gives_iv1 {g : Bounds → Option Bounds} (hi : exec i = x)
    (hx : x = Machine.perform h o.list (ivFront1 o t) noSync (iv1 o t g)) (hok : e.ops4Ok o (ivDst t) (ivPos t) unused unused = true)
    (hidx : e.indexFault [(o.d, ivWide t), (o.a, ivWide t)] = none) :
    GivesIv i e t o.d fun l => if (boundFmt t).ivOk (e.iv t o.a)[l] then g (e.iv t o.a)[l] else none := by
  have body := exec_interval I feat hi hx hok
  rw [iv1, Env.indexed_none hidx] at body
  exact (givesIv_of_finish body).congr fun _ => FFmt.checked_bind _ _ _

theorem gives_iv2 {g : Bounds → Bounds → Option Bounds} (hi : exec i = x)
    (hx : x = Machine.perform h o.list (ivFront2 o t) noSync (iv2 o t g)) (hok : e.ops4Ok o (ivDst t) (ivPos t) (ivPos t) unused = true)
    (hidx : e.indexFault [(o.d, ivWide t), (o.a, ivWide t), (o.b, ivWide t)] = none) :
    GivesIv i e t o.d fun l =>
      if (boundFmt t).ivOk (e.iv t o.a)[l] && (boundFmt t).ivOk (e.iv t o.b)[l] then g (e.iv t o.a)[l] (e.iv t o.b)[l] else none := by
  have body := exec_interval I feat hi hx hok
  rw [iv2, Env.indexed_none hidx] at body
  exact (givesIv_of_finish body).congr fun _ => FFmt.checked_bind2 _ _ _ _

theorem gives_iv3 {g : Bounds → Bounds → Bounds → Option Bounds} (hi : exec i = x)
    (hx : x = Machine.perform h o.list (ivFront3 o t) noSync (iv3 o t g))
    (hok : e.ops4Ok o (ivDst t) (ivPos t) (ivPos t) (ivPos t) = true)
    (hidx : e.indexFault [(o.d, ivWide t), (o.a, ivWide t), (o.b, ivWide t), (o.c, ivWide t)] = none) :
    GivesIv i e t o.d fun l =>
      if (boundFmt t).ivOk (e.iv t o.a)[l] && (boundFmt t).ivOk (e.iv t o.b)[l] && (boundFmt t).ivOk (e.iv t o.c)[l]
      then g (e.iv t o.a)[l] (e.iv t o.b)[l] (e.iv t o.c)[l] else none := by
  have body := exec_interval I feat hi hx hok
  rw [iv3, Env.indexed_none hidx] at body
  exact (givesIv_of_finish body).congr fun _ => FFmt.checked_bind3 _ _ _ _ _

/-- A point of one well-formed interval. -/
theorem gives_ivPoint {g : Bounds → Nat} (hi : exec i = x)
    (hx : x = Machine.perform h o.list (ivFrontP o t) noSync (ivPoint o t g))
    (hok : e.ops4Ok o { kinds := [.v, .idx] } (ivPos t) unused unused = true)
    (hidx : e.indexFault [(o.d, false), (o.a, ivWide t)] = none) :
    GivesPt i e o.d fun l => if (boundFmt t).ivOk (e.iv t o.a)[l] then some (g (e.iv t o.a)[l]) else none := by
  have body := exec_interval I feat hi hx hok
  rw [ivPoint, Env.indexed_none hidx] at body
  exact (givesPt_of_finish body).congr fun _ => FFmt.checked_map _ _ _

end

/-- Settles O9: each instruction is an operation on one, two or three well-formed intervals. -/
theorem intervalArithmetic : Obligations.IntervalArithmetic := by
  intro s h o m e I feat
  refine ⟨fun hok hidx => ⟨?_, ?_, fun _ => ⟨?_, ?_⟩⟩, fun hok hidx => ⟨?_, ?_⟩, fun hok hidx => ⟨?_, ?_, ?_, ?_, ?_⟩, fun hok hidx => ?_⟩
  · exact gives_iv1 I feat (x := execIvsqr h o m) rfl rfl hok hidx
  · exact gives_iv1 I feat (x := execIvsqrt h o m) rfl rfl hok hidx
  · exact gives_iv1 I feat (x := execIvex2 h o m) rfl rfl hok hidx
  · exact gives_iv1 I feat (x := execIvlg2 h o m) rfl rfl hok hidx
  · exact gives_ivPoint I feat (x := execIvmid h o m) rfl rfl hok hidx
  · exact gives_ivPoint I feat (x := execIvwid h o m) rfl rfl hok hidx
  · exact gives_iv2 I feat (x := execIvadd h o m) rfl rfl hok hidx
  · exact gives_iv2 I feat (x := execIvsub h o m) rfl rfl hok hidx
  · exact gives_iv2 I feat (x := execIvmul h o m) rfl rfl hok hidx
  · exact gives_iv2 I feat (x := execIvdiv h o m) rfl rfl hok hidx
  · exact gives_iv2 I feat (x := execIvhull h o m) rfl rfl hok hidx
  · exact gives_iv3 I feat (x := execIvfma h o m) rfl rfl hok hidx

end Sys2Proof.Claim
end

