-- ==== Sys2Proof/Proofs/IntervalForms.lean ====
section
/-!
Intervals made, taken apart, intersected and compared (R206, R207, R215, R216), IVBISECT (R217 to R219), O10 and O11.
-/
namespace Sys2Proof.Machine

set_option Elab.async false

theorem FFmt.checked_bind_map {α : Type} (f : FFmt) (x y : Bounds) (g : Bounds → Bounds → α) :
    ((f.checked x).bind fun x => (f.checked y).map fun y => g x y) = if f.ivOk x && f.ivOk y then some (g x y) else none := by
  simp only [FFmt.checked_bind, FFmt.checked_map, Bool.and_eq_true, ite_and]

/-- IVISECT: none where the operands or the intersection are no interval. -/
theorem FFmt.checked_isect (f : FFmt) (x y : Bounds) :
    (if f.ivOk x && f.ivOk y then f.checked (f.isect x y) else none) =
      if f.ivOk x && f.ivOk y && f.ivOk (f.isect x y) then some (f.isect x y) else none := by
  simp only [FFmt.checked, Bool.and_eq_true, ite_and]

/-- IVISECT.e: an empty operand and an empty intersection give the empty interval (R215). -/
theorem FFmt.isectE_eq (f : FFmt) (x y : Bounds) :
    f.isectE x y =
      if (f.ivOk x || x == f.ivEmpty) && (f.ivOk y || y == f.ivEmpty) then
        some (if x == f.ivEmpty || y == f.ivEmpty || !f.ivOk (f.isect x y) then f.ivEmpty else f.isect x y)
      else none := by
  simp only [FFmt.isectE, ← Bool.not_and]
  by_cases operands : ((f.ivOk x || x == f.ivEmpty) && (f.ivOk y || y == f.ivEmpty)) = true
  · rw [if_pos operands, if_neg (by simp only [operands, Bool.not_true, Bool.false_eq_true, not_false_eq_true])]
    by_cases empty : (x == f.ivEmpty || y == f.ivEmpty) = true
    · simp [empty]
    · by_cases meet : f.ivOk (f.isect x y) = true <;> simp [empty, meet]
  · rw [if_neg operands, if_pos (by simp only [operands, Bool.not_false])]

end Sys2Proof.Machine

namespace Sys2Proof.Claim
open Machine

set_option Elab.async false

section
variable {s : State} {h : Hdr} {o : Ops4} {m : AMod} {e : Env} (I : Issues s h o.list e) (feat : e.s.feat e.sig.ctx 0 = true)
include I feat

/-- IVMAKE.pair and .sort. -/
theorem gives_ivmake_points (hok : e.ops4Ok o (ivDst m.ty) (ptPos m.ty) (ptPos m.ty) ctlPos = true)
    (hidx : e.indexFault [(o.d, ivWide m.ty), (o.a, false), (o.b, false)] = none) (hc : ctlNo o.c ≤ 1) :
    GivesIv (.ivmake h o m) e m.ty o.d fun l =>
      (boundFmt m.ty).makeIv (ctlNo o.c == 1) (e.pt m.ty o.a)[l] (e.pt m.ty o.b)[l] := by
  have points : ctlNo o.c ≠ 2 := by omega
  have body := exec_interval I feat (i := .ivmake h o m) (x := execIvmake h o m) rfl (if_neg points) hok
  rw [Env.indexed_none hidx] at body
  exact givesIv_of_finish body

/-- IVMAKE.cvt. -/
theorem gives_ivmake_cvt (hok : e.ops4Ok o (ivDst m.ty) (ivPos (otherIv m.ty)) unused ctlPos = true) (hc : ctlNo o.c = 2)
    (hidx : e.indexFault [(o.d, ivWide m.ty), (o.a, ivWide (otherIv m.ty))] = none) :
    let g := boundFmt (otherIv m.ty)
    GivesIv (.ivmake h o m) e m.ty o.d fun l =>
      let z := (e.iv (otherIv m.ty) o.a)[l]
      if g.ivOk z then some ((boundFmt m.ty).outward (g.decode z.lo) (g.decode z.hi)) else none := by
  have body := exec_interval I feat (i := .ivmake h o m) (x := execIvmake h o m) rfl (if_pos hc) hok
  rw [Env.indexed_none hidx] at body
  exact (givesIv_of_finish body).congr fun _ => FFmt.checked_map _ _ _

/-- IVBND.set never raises EMPTY. -/
theorem gives_ivbnd_set (hok : e.ops4Ok o (ivDst m.ty) (ptPos m.ty) (ptPos m.ty) ctlPos = true)
    (hidx : e.indexFault [(o.d, ivWide m.ty), (o.a, false), (o.b, false)] = none) (hc : ctlNo o.c = 0) :
    GivesIv (.ivbnd h o m) e m.ty o.d fun l =>
      some (((boundFmt m.ty).makeIv false (e.pt m.ty o.a)[l] (e.pt m.ty o.b)[l]).getD (boundFmt m.ty).ivEmpty) := by
  have body := exec_interval I feat (i := .ivbnd h o m) (x := execIvbnd h o m) rfl (by simp only [execIvbnd, hc]; exact rfl) hok
  rw [Env.indexed_none hidx] at body
  exact givesIv_of_finish body

/-- IVBND.lo and .hi. -/
theorem gives_ivbnd_point (hok : e.ops4Ok o { kinds := [.v, .idx] } (ivPos m.ty) unused ctlPos = true)
    (hidx : e.indexFault [(o.d, false), (o.a, ivWide m.ty)] = none) (hc : ctlNo o.c = 1 ∨ ctlNo o.c = 2) :
    GivesPt (.ivbnd h o m) e o.d fun l => some (if ctlNo o.c = 1 then (e.iv m.ty o.a)[l].lo else (e.iv m.ty o.a)[l].hi) := by
  have form : execIvbnd h o m = Machine.perform h o.list (ivFront o { kinds := [.v, .idx] } (ivPos m.ty) unused ctlPos) noSync fun e =>
      e.indexed [(o.d, false), (o.a, ivWide m.ty)] fun _ =>
        e.ptResult o fun l => some (if ctlNo o.c = 1 then (e.iv m.ty o.a)[l].lo else (e.iv m.ty o.a)[l].hi) := by
    rcases hc with hc | hc <;> simp only [execIvbnd, hc]
  have body := exec_interval I feat (i := .ivbnd h o m) rfl form hok
  rw [Env.indexed_none hidx] at body
  exact givesPt_of_finish body

/-- IVBND.emp. -/
theorem gives_ivbnd_emp (hok : e.ops4Ok o { kinds := [.p] } (ivPos m.ty) unused ctlPos = true)
    (hidx : e.indexFault [(o.a, ivWide m.ty)] = none) (hc : ctlNo o.c = 3) :
    GivesTri (.ivbnd h o m) e o.d fun l => some (Tri.ofBool (!(boundFmt m.ty).ivOk (e.iv m.ty o.a)[l])) := by
  have body := exec_interval I feat (i := .ivbnd h o m) (x := execIvbnd h o m) rfl (by simp only [execIvbnd, hc]; exact rfl) hok
  rw [Env.indexed_none hidx] at body
  exact givesTri_of_finish body

section
variable (hok : e.ops4Ok o (ivDst m.ty) (ivPos m.ty) (ivPos m.ty) ctlPos = true)
  (hidx : e.indexFault [(o.d, ivWide m.ty), (o.a, ivWide m.ty), (o.b, ivWide m.ty)] = none)
include hok hidx

theorem gives_ivisect (hc : ctlNo o.c = 0) :
    let f := boundFmt m.ty
    let x := fun (l : Lane) => (e.iv m.ty o.a)[l]
    let y := fun (l : Lane) => (e.iv m.ty o.b)[l]
    GivesIv (.ivisect h o m) e m.ty o.d fun l =>
      if f.ivOk (x l) && f.ivOk (y l) && f.ivOk (f.isect (x l) (y l)) then some (f.isect (x l) (y l)) else none := by
  have body := exec_interval I feat (i := .ivisect h o m) (x := execIvisect h o m) rfl (by unfold execIvisect; exact rfl) hok
  rw [if_pos hc, iv2, Env.indexed_none hidx] at body
  exact (givesIv_of_finish body).congr fun _ => (FFmt.checked_bind2 _ _ _ _).trans (FFmt.checked_isect _ _ _)

theorem gives_ivisect_e (hc : ctlNo o.c = 1) :
    GivesIv (.ivisect h o m) e m.ty o.d fun l => (boundFmt m.ty).isectE (e.iv m.ty o.a)[l] (e.iv m.ty o.b)[l] := by
  have body := exec_interval I feat (i := .ivisect h o m) (x := execIvisect h o m) rfl (by unfold execIvisect; exact rfl) hok
  rw [if_neg (by omega), Env.indexed_none hidx] at body
  exact givesIv_of_finish body

end

/-- IVCMP on two intervals. -/
theorem gives_ivcmp (hok : e.ops4Ok o { kinds := [.p] } (ivPos m.ty) (ivPos m.ty) ctlPos = true)
    (hidx : e.indexFault [(o.a, ivWide m.ty), (o.b, ivWide m.ty)] = none) (hc : ctlNo o.c ≠ 5) :
    let f := boundFmt m.ty
    GivesTri (.ivcmp h o m) e o.d fun l =>
      if f.ivOk (e.iv m.ty o.a)[l] && f.ivOk (e.iv m.ty o.b)[l]
      then some (f.ivCmp (ctlNo o.c) (e.iv m.ty o.a)[l] (e.iv m.ty o.b)[l]) else none := by
  have intervals : (ctlNo o.c == 5) = false := beq_false_of_ne hc
  have body := exec_interval I feat (i := .ivcmp h o m) (x := execIvcmp h o m) rfl (by unfold execIvcmp; exact rfl)
    (by simpa [intervals] using hok)
  simp only [intervals, Bool.not_false, Bool.and_true] at body
  rw [Env.indexed_none hidx] at body
  exact (givesTri_of_finish body).congr fun _ => FFmt.checked_bind_map _ _ _ _

/-- IVCMP.contains (R216). -/
theorem gives_ivcmp_contains (hok : e.ops4Ok o { kinds := [.p] } (ivPos m.ty) (ptPos m.ty) ctlPos = true)
    (hidx : e.indexFault [(o.a, ivWide m.ty), (o.b, false)] = none) (hc : ctlNo o.c = 5) :
    let f := boundFmt m.ty
    let x := fun (l : Lane) => (e.iv m.ty o.a)[l]
    let y := fun (l : Lane) => f.decode (e.pt m.ty o.b)[l]
    GivesTri (.ivcmp h o m) e o.d fun l =>
      if f.ivOk (x l) then some (Tri.ofBool ((f.decode (x l).lo).le (y l) && (y l).le (f.decode (x l).hi))) else none := by
  have point : (ctlNo o.c == 5) = true := beq_iff_eq.mpr hc
  have body := exec_interval I feat (i := .ivcmp h o m) (x := execIvcmp h o m) rfl (by unfold execIvcmp; exact rfl)
    (by simpa [point] using hok)
  simp only [point, Bool.not_true, Bool.and_false] at body
  rw [Env.indexed_none hidx] at body
  exact (givesTri_of_finish body).congr fun _ => FFmt.checked_map _ _ _

end

/-- Settles O10. -/
theorem intervalFormsAndTests : Obligations.IntervalFormsAndTests := by
  intro s h o m e I feat
  refine ⟨fun hok hidx => ⟨gives_ivmake_points I feat hok hidx, gives_ivbnd_set I feat hok hidx⟩, gives_ivmake_cvt I feat,
    fun hok hidx => ⟨fun hc => ?_, fun hc => ?_⟩, gives_ivbnd_emp I feat, fun hok hidx => ⟨gives_ivisect I feat hok hidx, fun hc => ?_⟩,
    gives_ivcmp I feat, gives_ivcmp_contains I feat⟩
  · exact (gives_ivbnd_point I feat hok hidx (Or.inl hc)).congr fun _ => congrArg some (if_pos hc)
  · exact (gives_ivbnd_point I feat hok hidx (Or.inr hc)).congr fun _ => congrArg some (if_neg (by omega))
  · exact (gives_ivisect_e I feat hok hidx hc).congr fun _ => FFmt.isectE_eq _ _ _

/-- Settles O11: the body goes by whether the pool has room for the upper halves. -/
theorem bisection : Obligations.Bisection := by
  intro s h o m e split I feat0 feat7 hok hd hb turn mark d
  have features : ∀ b ∈ [0, 7], e.s.feat e.sig.ctx b = true := by simp [feat0, feat7]
  have hx := I.exec_in_turn (i := .ivbisect h o m) (x := execIvbisect h o m) rfl (by unfold execIvbisect; exact rfl) features
    (by simp [hok, hd]) (turn.imp_left fun none_ => by simp [hb, none_])
  simp only [hb] at hx
  refine ⟨fun some_ full => retires_of_finish hx (if_pos ⟨some_, by rw [full]; rfl⟩), fun room => retires_of_finish hx (if_neg ?_)⟩
  rintro ⟨some_, full⟩
  rcases room with none_ | room
  · exact some_ none_
  · simp [room] at full

end Sys2Proof.Claim
end

