-- ==== Sys2Proof/Proofs/GlobalLoads.lean ====
section
/-!
Global accesses of the active lanes: their addresses, the places that the checks of R252 give them, the parting with reason LOAD
(R141, R151), and O28.
-/
namespace Sys2Proof.Machine
open Claim

set_option Elab.async false

/-! ### Addresses -/

section
variable (e : Env) (o : Ops2) (imm : BitVec 32)

theorem Env.addrs_getElem (l : Lane) : (e.addrs o.a imm)[l] = addrI e o imm l := by simp [Env.addrs, addrI]

theorem Env.lowAddr_addrs : e.lowAddr (e.addrs o.a imm) = Claim.lowAddr e (addrI e o imm) := by
  unfold Env.lowAddr Claim.lowAddr
  cases lowest e.act with
  | none => rfl
  | some l => exact e.addrs_getElem o imm l

/-- The checks on the active lanes' accesses, in the words of the statements. -/
theorem Env.lanesReached_addrs (n : Need) (size : Nat) (k : List (Lane × Nat × Place) → Eff) :
    e.lanesReached n (e.addrs o.a imm) size k =
      e.reached n anyPage (wants e (addrI e o imm) size) fun ps => k (Claim.reached e (addrI e o imm) ps) := by
  simp only [Env.lanesReached, Env.addrs_getElem, wants, Claim.reached]

theorem Env.loadPart_addrs (t : State) (d : Operand) (f : LoadForm) (sc : Bool) (acc late : List Access) :
    e.loadPart t d f sc (e.addrs o.a imm) acc late =
      .part t { Claim.loadPart e d f.sx f.interval f.pair sc (addrI e o imm) acc with late := late } := by
  rw [Env.loadPart, Env.lowAddr_addrs]
  rfl

end

/-! ### Reads -/

/-- One access for each lane. -/
theorem laneReads_whole (acc : List (Lane × Nat × Place)) (n : Nat) :
    laneReads acc n false = acc.map fun x => ⟨x.1.val, x.2.1, x.2.2, n, .read, none⟩ := List.flatMap_pure_eq_map _ _

/-- Two accesses for each lane (R264). -/
theorem laneReads_halves (acc : List (Lane × Nat × Place)) (n : Nat) :
    laneReads acc n true = acc.flatMap fun x =>
      [⟨x.1.val, x.2.1, x.2.2, 8, .read, none⟩, ⟨x.1.val, x.2.1 + 8, x.2.2.add 8, 8, .read, none⟩] := rfl

end Sys2Proof.Machine

namespace Sys2Proof.Claim
open Machine

set_option Elab.async false

/-- The checks of R252, and what follows with the places where they pass. -/
theorem checksFirst_then {i : Instr} {e : Env} {n : Need} {ws : List Want} {k : List Place → Eff} {follows : List Place → Prop}
    (hx : exec i e.s = .next (e.finish (e.reached n anyPage ws k)))
    (hk : ∀ ps, e.s.reach e.sig.ctx n anyPage ws = .ok ps → exec i e.s = .next (e.finish (k ps)) → follows ps) :
    ChecksFirst i e n ws ∧ ∀ ps, e.s.reach e.sig.ctx n anyPage ws = .ok ps → follows ps :=
  ⟨checksAt_of_finish hx rfl, fun ps hps => hk ps hps (by rw [hx, reached_of_ok hps])⟩

section
variable {s : State} {h : Hdr} {o : Ops2} {imm : BitVec 32} {m : GMod} {am : AMod} {e : Env} (I : Issues s h o.list e)
include I

/-- LD, with an access of each lane, or two (R264). -/
theorem exec_ld (hok : e.ops2Ok o { kinds := [.v, .idx], pair := m.size == 4 } { kinds := [.v, .s, .zero] } = true)
    (hidx : e.indexFault [(o.d, m.size == 4)] = none) :
    exec (.ld h o imm m) e.s = .next (e.finish (e.reached { r := true } anyPage (wants e (addrI e o imm) (2 ^ m.size.toNat)) fun ps =>
      .part e.s (loadPart e o.d m.sx false (m.size == 4) false (addrI e o imm)
        (laneReads (reached e (addrI e o imm) ps) (2 ^ m.size.toNat) (m.size == 4))))) := by
  have hx := I.exec_fields (i := .ld h o imm m) (x := execLd h o imm m) rfl rfl hok
  rw [show e.indexed [(o.d, m.wide)] _ = _ from Env.indexed_none hidx _] at hx
  simp only [Env.lanesReached_addrs, Env.loadPart_addrs] at hx
  exact hx

/-- IVLD (R222). -/
theorem exec_ivld (feat : e.s.feat e.sig.ctx 0 = true) (hidx : e.indexFault [(o.d, am.ty == .iv64)] = none)
    (hok : e.ops2Ok o { kinds := [.v, .idx], pair := am.ty == .iv64 } { kinds := [.v, .s] } = true) :
    exec (.ivld h o imm am) e.s = .next (e.finish (e.reached { r := true } anyPage (wants e (addrI e o imm) (ivBytes am.ty)) fun ps =>
      .part e.s (loadPart e o.d false true (am.ty == .iv64) false (addrI e o imm)
        (laneReads (reached e (addrI e o imm) ps) (ivBytes am.ty) false)))) := by
  have hx := I.exec_in_turn (i := .ivld h o imm am) (x := execIvld h o imm am) rfl rfl
    (fun _ hb => List.mem_singleton.mp hb ▸ feat) hok (Or.inl rfl)
  rw [show e.indexed [(o.d, ivWide am.ty)] _ = _ from Env.indexed_none hidx _] at hx
  simp only [Env.lanesReached_addrs, Env.loadPart_addrs] at hx
  exact hx

/-- LDSC: its reads await their turn as updates do (R291). -/
theorem exec_ldsc (hidx : e.indexFault [(o.d, false)] = none)
    (hok : e.ops2Ok o { kinds := [.v, .idx] } { kinds := [.v, .s, .zero] } = true) :
    exec (.ldsc h o imm m) e.s = .next (e.finish (e.reached { r := true, noHost := true, noPeer := true } anyPage
      (wants e (addrI e o imm) (2 ^ m.size.toNat)) fun ps =>
        e.awaitUpdates o.d true (e.addrs o.a imm) { sx := m.sx } (laneReads (reached e (addrI e o imm) ps) (2 ^ m.size.toNat) false))) := by
  have hx := I.exec_fields (i := .ldsc h o imm m) (x := execLdsc h o imm m) rfl rfl hok
  rw [Env.indexed_none hidx] at hx
  simp only [Env.lanesReached_addrs] at hx
  exact hx

end

theorem ivBytes_eq (t : Ty) : ivBytes t = if t = .iv64 then 16 else 8 := by
  simp [ivBytes, ivWide]

/-- The accesses of a load of n bytes, by whether a lane's are two. -/
theorem laneReads_eq {acc : List (Lane × Nat × Place)} {n : Nat} {w : BitVec 3} :
    laneReads acc n (w == 4) = if w = 4 then laneReads acc n true else laneReads acc n false := by
  by_cases wide : w = 4
  · rw [if_pos wide, beq_iff_eq.mpr wide]
  · rw [if_neg wide, beq_false_of_ne wide]

/-- Settles O28. -/
theorem globalLoads : Obligations.GlobalLoads := by
  intro s h o imm m am e I ea n reads halves gives
  refine ⟨fun hok hidx => ?_, fun feat hidx hok => ?_, fun hidx hok => ?_⟩
  · refine checksFirst_then (exec_ld I hok hidx) fun ps _ hx room => parts_of_finish hx ?_ room
    rw [laneReads_eq, laneReads_whole, laneReads_halves]
  · rw [← ivBytes_eq]
    refine checksFirst_then (exec_ivld I feat hidx hok) fun ps _ hx room => parts_of_finish hx ?_ room
    rw [laneReads_whole]
  · refine checksFirst_then (exec_ldsc I hidx hok) fun ps _ hx => ⟨fun free room => ?_, fun det room => ?_⟩
    · refine parts_of_finish hx ?_ room
      rw [Env.awaitUpdates, if_neg (by rw [free]; exact Bool.false_ne_true), Env.loadPart_addrs, laneReads_whole]
      rfl
    · refine parts_of_finish hx ?_ room
      rw [Env.awaitUpdates, if_pos det, Env.loadPart_addrs, laneReads_whole]

end Sys2Proof.Claim
end

