-- ==== Sys2Proof/Proofs/LanePlaces.lean ====
section
/-!
The places that the checks of R252 give to the accesses of the active lanes, and a peer's refusal of them (R435).
-/
namespace Sys2Proof.Machine

set_option Elab.async false

/-! ### The lanes of a mask, and the places that the checks give them -/

theorem mem_lanesOf {m : Mask} {l : Lane} : l ∈ lanesOf m ↔ m.getLsbD l.val = true := by
  simp [lanesOf]

theorem lanesOf_pairwise_lt (m : Mask) : (lanesOf m).Pairwise (· < ·) := (List.pairwise_lt_finRange 128).filter _

theorem firstBad_eq_none {ws : List Want} {cause : Nat} {p : Want → Bool} (h : firstBad ws cause p = none) : ∀ w ∈ ws, p w = true := by
  unfold firstBad at h
  split at h
  · cases h
  · rename_i found
    simpa using found

/-- Accesses that pass the checks are aligned, and each has its place (R252). -/
theorem State.aligned_of_reach {s : State} {ctx : Nat} {n : Need} {cell : Leaf → Bool} {ws : List Want} {ps : List Place}
    (h : s.reach ctx n cell ws = .ok ps) : (∀ w ∈ ws, w.va.toNat % w.size = 0) ∧ ps.length = ws.length := by
  unfold State.reach at h
  dsimp only at h
  split at h
  · cases h
  rename_i aligned
  iterate 6
    split at h
    · cases h
  split at h
  · cases h
  split at h
  · cases h
  cases h
  exact ⟨fun w hw => beq_iff_eq.mp (firstBad_eq_none aligned w hw), List.length_map _⟩

end Sys2Proof.Machine

namespace Sys2Proof.Claim
open Machine

set_option Elab.async false

section
variable {e : Env} {ea : Lane → Word64} {ps : List Place}

theorem mem_reached {x : Lane × Nat × Place} (hx : x ∈ reached e ea ps) : Active e x.1 ∧ x.2.1 = (ea x.1).toNat := by
  obtain ⟨y, hy, rfl⟩ := List.mem_map.mp hx
  exact ⟨mem_lanesOf.mp (List.of_mem_zip hy).1, rfl⟩

/-- Each of the active lanes has its place. -/
def Placed (e : Env) (ps : List Place) : Prop := ps.length = (lanesOf e.act).length

theorem placed_of_reach {n : Need} {size : Nat} (h : e.s.reach e.sig.ctx n anyPage (wants e ea size) = .ok ps) : Placed e ps :=
  (State.aligned_of_reach h).2.trans (List.length_map _)

variable (placed : Placed e ps)
include placed

theorem reached_lanes : (reached e ea ps).map Prod.fst = lanesOf e.act := by
  rw [reached, List.map_map]
  exact List.map_fst_zip placed.ge

theorem reached_length : (reached e ea ps).length = ps.length := by
  rw [placed, ← reached_lanes placed (ea := ea), List.length_map]

theorem reached_pairwise_lt : (reached e ea ps).Pairwise fun x y => x.1 < y.1 :=
  List.pairwise_map.mp ((reached_lanes placed).symm ▸ lanesOf_pairwise_lt e.act)

theorem exists_mem_reached {l : Lane} (hl : Active e l) : ∃ p, (l, (ea l).toNat, p) ∈ reached e ea ps := by
  have mem : l ∈ (reached e ea ps).map Prod.fst := (reached_lanes placed).symm ▸ mem_lanesOf.mpr hl
  obtain ⟨x, hx, rfl⟩ := List.mem_map.mp mem
  refine ⟨x.2.2, ?_⟩
  rw [← (mem_reached hx).2]
  exact hx

end

/-! ### A peer's refusal (R435) -/

section
variable {e : Env} {ea : Lane → Word64} {ps : List Place} {need : Need} {n : Nat}

theorem peerFault_eq_none (h : ∀ l, ¬ ∃ x ∈ reached e ea ps, x.1 = l ∧ e.s.refuses need x.2.2 n = true) :
    e.peerFault need n (reached e ea ps) = none := by
  rw [Env.peerFault, Option.map_eq_none_iff, List.find?_eq_none]
  exact fun x hx refuses => h x.1 ⟨x, hx, rfl, refuses⟩

/-- The lowest lane that is refused names the fault. -/
theorem faultsAt_of_peerFault (placed : Placed e ps) {i : Instr} {b : Eff} (hx : exec i e.s = .next (e.finish b))
    (hb : ∀ t, e.peerFault need n (reached e ea ps) = some t → b = .trap t) :
    FaultsAt i e 0x07 ea fun l => ¬ ∃ x ∈ reached e ea ps, x.1 = l ∧ e.s.refuses need x.2.2 n = true := by
  rintro ⟨l, -, refused⟩
  obtain ⟨y, hy, -, refuses⟩ := not_not.mp refused
  obtain ⟨x, found⟩ := Option.isSome_iff_exists.mp
    (List.find?_isSome.mpr ⟨y, hy, refuses⟩ : ((reached e ea ps).find? fun x => e.s.refuses need x.2.2 n).isSome)
  obtain ⟨hrefuses, before, after, split_, first⟩ := List.find?_eq_some_iff_append.mp found
  have mem : x ∈ reached e ea ps := List.mem_of_find?_eq_some found
  obtain ⟨active, va⟩ := mem_reached mem
  refine ⟨x.1, active, not_not.mpr ⟨x, mem, rfl, hrefuses⟩, fun k hk _ => ?_, raises_of_finish hx (hb _ ?_)⟩
  · rintro ⟨z, hz, rfl, again⟩
    have order := reached_pairwise_lt placed (ea := ea)
    rw [split_] at hz order
    obtain ⟨-, tail, -⟩ := List.pairwise_append.mp order
    rcases List.mem_append.mp hz with hz | hz
    · simpa [again] using first z hz
    · rcases List.mem_cons.mp hz with rfl | hz
      · exact lt_irrefl _ hk
      · exact lt_asymm hk (List.rel_of_pairwise_cons tail hz)
  · rw [Env.peerFault, found, Option.map_some, trapAt, va, BitVec.ofNat_toNat, BitVec.setWidth_eq]
    rfl

end

end Sys2Proof.Claim
end

