-- ==== Sys2Proof/Proofs/StorePieces.lean ====
section
/-!
The pieces of a store by the active lanes (R264), and what becomes of those that cover a whole line (R273): every byte is the
highest lane's that stores it.
-/
namespace Sys2Proof.Machine
open Claim

set_option Elab.async false

/-! ### The bytes that a lane stores -/

theorem bytesOfNat_eq_map (n x : Nat) : bytesOfNat n x = (List.range n).map fun j => BitVec.ofNat 8 (x / 2 ^ (8 * j)) := by
  induction n generalizing x with
  | zero => rfl
  | succ n ih =>
    rw [bytesOfNat, ih, List.range_succ_eq_map, List.map_cons, List.map_map]
    congr 1
    · simp
    · refine List.map_congr_left fun j _ => ?_
      rw [Nat.div_div_eq_div_mul, show (256 : Nat) = 2 ^ 8 from rfl, ← Nat.pow_add, Function.comp, Nat.mul_succ, Nat.add_comm]

/-- A byte of two words, one above the other. -/
theorem byte_of_words (x y : Word64) (j : Nat) :
    BitVec.ofNat 8 ((x.toNat + 2 ^ 64 * y.toNat) / 2 ^ (8 * j)) =
      if j < 8 then x.extractLsb' (8 * j) 8 else y.extractLsb' (8 * (j - 8)) 8 := by
  refine BitVec.eq_of_getLsbD_eq fun i hi => ?_
  rw [BitVec.getLsbD_ofNat, Nat.testBit_div_two_pow, Nat.add_comm x.toNat, Nat.testBit_two_pow_mul_add _ x.isLt]
  by_cases low : j < 8
  · rw [if_pos low, if_pos (by omega), BitVec.getLsbD_extractLsb', Nat.add_comm i]
    rfl
  · rw [if_neg low, if_neg (by omega), BitVec.getLsbD_extractLsb', show i + 8 * j - 64 = 8 * (j - 8) + i by omega]
    rfl

/-- The bytes of a lane's register, or pair of registers. -/
theorem Env.dataBytes_eq_map (e : Env) (d : Operand) {n : Nat} (hn : n ≤ 8 ∨ n = 16) (l : Lane) :
    e.dataBytes d n l = (List.range n).map (storeByte e d l) := by
  rw [Env.dataBytes, bytesOfNat_eq_map]
  refine List.map_congr_left fun j hj => ?_
  have lt := List.mem_range.mp hj
  rcases hn with hn | rfl
  · have := byte_of_words (e.raw d)[l] 0 j
    rw [if_pos (by omega)] at this
    rw [if_neg (by omega), storeByte, if_pos (by omega)]
    exact this
  · exact byte_of_words _ _ _

/-! ### The byte that pieces leave at an address -/

/-- The piece has a byte for the address. -/
def Piece.Covers (p : Piece) (va : Nat) : Prop := p.va ≤ va ∧ va < p.va + p.bytes.length

theorem pieceByte_append_of_covers {p : Piece} {va : Nat} (ps : List Piece) (hp : p.Covers va) :
    pieceByte (ps ++ [p]) va = p.bytes[va - p.va]? := by
  simp [pieceByte, List.foldl_append, show p.va ≤ va ∧ va < p.va + p.bytes.length from hp]

theorem pieceByte_append_of_not_covers {p : Piece} {va : Nat} (ps : List Piece) (hp : ¬ p.Covers va) :
    pieceByte (ps ++ [p]) va = pieceByte ps va := by
  simp [pieceByte, List.foldl_append, show ¬ (p.va ≤ va ∧ va < p.va + p.bytes.length) from hp]

/-- A byte that pieces leave is one of a piece. -/
theorem covers_of_pieceByte_isSome {va : Nat} {ps : List Piece} : (pieceByte ps va).isSome = true → ∃ p ∈ ps, p.Covers va := by
  induction ps using List.reverseRecOn with
  | nil => exact fun h => absurd h Bool.false_ne_true
  | append_singleton ps p ih =>
    intro h
    by_cases hp : p.Covers va
    · exact ⟨p, by simp, hp⟩
    · rw [pieceByte_append_of_not_covers ps hp] at h
      obtain ⟨q, hq, hc⟩ := ih h
      exact ⟨q, by simp [hq], hc⟩

/-- Of pieces in the order of their lanes, the byte left is that of a piece of no lower lane than any with the address. -/
theorem pieceByte_eq_of_covers {va : Nat} {ps : List Piece} (sorted : ps.Pairwise fun p q => p.lane ≤ q.lane) {q : Piece}
    (hq : q ∈ ps) (hc : q.Covers va) : ∃ p ∈ ps, p.Covers va ∧ q.lane ≤ p.lane ∧ pieceByte ps va = p.bytes[va - p.va]? := by
  induction ps using List.reverseRecOn with
  | nil => exact absurd hq List.not_mem_nil
  | append_singleton ps p ih =>
    obtain ⟨before, -, after⟩ := List.pairwise_append.mp sorted
    by_cases hp : p.Covers va
    · refine ⟨p, by simp, hp, ?_, pieceByte_append_of_covers ps hp⟩
      rcases List.mem_append.mp hq with hq | hq
      · exact after q hq p (by simp)
      · rw [List.mem_singleton.mp hq]
    · have earlier : q ∈ ps := by
        rcases List.mem_append.mp hq with hq | hq
        · exact hq
        · exact absurd (List.mem_singleton.mp hq ▸ hc) hp
      obtain ⟨p', hp', cover, order, byte⟩ := ih before earlier
      exact ⟨p', by simp [hp'], cover, order, by rw [pieceByte_append_of_not_covers ps hp, byte]⟩

/-! ### Whole lines -/

/-- The pieces of a line, and the bytes that they leave in it. -/
def ofLine (ps : List Piece) (ln : Nat) : List Piece := ps.filter fun p => p.va / 128 == ln
@[inherit_doc ofLine] def lineBytes (ps : List Piece) (ln : Nat) : List Byte :=
  (List.range 128).filterMap fun i => pieceByte (ofLine ps ln) (128 * ln + i)

/-- The line that a piece begins in, with some bytes. -/
def Piece.line (p : Piece) (bytes : List Byte) : Piece :=
  ⟨p.lane, 128 * (p.va / 128), placeAt p.place p.va (128 * (p.va / 128)), bytes⟩

theorem mem_ofLine {ps : List Piece} {ln : Nat} {p : Piece} : p ∈ ofLine ps ln ↔ p ∈ ps ∧ p.va / 128 = ln := by
  simp [ofLine]

/-- A line that is whole has the byte that its pieces leave at each of its addresses. -/
theorem lineBytes_getElem? {ps : List Piece} {ln i : Nat} (whole : (lineBytes ps ln).length = 128) (hi : i < 128) :
    (lineBytes ps ln)[i]? = pieceByte (ofLine ps ln) (128 * ln + i) ∧ (pieceByte (ofLine ps ln) (128 * ln + i)).isSome = true := by
  have all := List.filterMap_length_eq_length.mp (whole.trans List.length_range.symm)
  have known : ∀ k ∈ List.range 128, pieceByte (ofLine ps ln) (128 * ln + k) = some ((pieceByte (ofLine ps ln) (128 * ln + k)).getD 0) := by
    intro k hk
    obtain ⟨b, hb⟩ := Option.isSome_iff_exists.mp (all k hk)
    rw [hb, Option.getD_some]
  have here := List.mem_range.mpr hi
  refine ⟨?_, all i here⟩
  rw [lineBytes, List.filterMap_eq_map_iff_forall_eq_some.mpr known, List.getElem?_map, List.getElem?_range hi]
  exact (known i here).symm

/-- The lines of some pieces, each once. -/
def pieceLines (ps : List Piece) : List Nat :=
  ps.foldl (fun (acc : List Nat) p => if acc.contains (p.va / 128) then acc else acc ++ [p.va / 128]) []

theorem mem_pieceLines {ps : List Piece} {p : Piece} (hp : p ∈ ps) : p.va / 128 ∈ pieceLines ps := by
  unfold pieceLines
  induction ps using List.reverseRecOn with
  | nil => exact absurd hp List.not_mem_nil
  | append_singleton ps q ih =>
    rw [List.foldl_append, List.foldl_cons, List.foldl_nil]
    rcases List.mem_append.mp hp with hp | hp
    · split
      · exact ih hp
      · exact List.mem_append_left _ (ih hp)
    · rw [List.mem_singleton.mp hp]
      split
      · rename_i known
        exact List.contains_iff_mem.mp known
      · simp

/-- The lanes of a line's pieces, each once. -/
def lineLanes (ps : List Piece) (ln : Nat) : List Nat :=
  (ofLine ps ln).foldl (fun (acc : List Nat) q => if acc.contains q.lane then acc else acc ++ [q.lane]) []

/-- A line's writes: the whole line, or its pieces. -/
def lineWrites (ps : List Piece) (ln : Nat) : List (Piece × Nat) :=
  match (ofLine ps ln).head? with
  | some p => if (lineBytes ps ln).length = 128 then [(p.line (lineBytes ps ln), (lineLanes ps ln).length)]
    else (ofLine ps ln).map fun q => (q, 1)
  | none => []

theorem byLine_eq_flatMap (ps : List Piece) : byLine ps = (pieceLines ps).flatMap (lineWrites ps) := by
  refine List.flatMap_congr fun ln _ => ?_
  unfold lineWrites
  cases first : (ofLine ps ln).head? with
  | none =>
    have first' : (ps.filter fun p => p.va / 128 == ln).head? = none := first
    simp only [first']
  | some p =>
    have first' : (ps.filter fun p => p.va / 128 == ln).head? = some p := first
    obtain ⟨-, rfl⟩ := mem_ofLine.mp (List.mem_of_mem_head? first)
    simp only [first']
    have place : p.line (lineBytes ps (p.va / 128)) = ⟨p.lane, 128 * (p.va / 128), match p.place with
        | .hbm a => .hbm (a - p.va % 128)
        | .host a => .host (a - p.va % 128)
        | .peer d k a => .peer d k (a - p.va % 128), lineBytes ps (p.va / 128)⟩ := by
      have shift : ∀ a, a + 128 * (p.va / 128) - p.va = a - p.va % 128 := fun a => by omega
      cases at_ : p.place <;> simp only [Piece.line, placeAt, at_, shift]
    rw [place]
    rfl

/-- A write of a store is a piece, or a whole line. -/
theorem mem_byLine {ps : List Piece} {x : Piece × Nat} (hx : x ∈ byLine ps) : x.1 ∈ ps ∨
    ∃ p ∈ ps, x.1 = p.line (lineBytes ps (p.va / 128)) ∧ (lineBytes ps (p.va / 128)).length = 128 := by
  rw [byLine_eq_flatMap] at hx
  obtain ⟨ln, -, hx⟩ := List.mem_flatMap.mp hx
  unfold lineWrites at hx
  split at hx
  · rename_i p first
    obtain ⟨hp, rfl⟩ := mem_ofLine.mp (List.mem_of_mem_head? first)
    split at hx
    · rename_i whole
      exact Or.inr ⟨p, hp, by rw [List.mem_singleton.mp hx], whole⟩
    · obtain ⟨q, hq, rfl⟩ := List.mem_map.mp hx
      exact Or.inl (mem_ofLine.mp hq).1
  · exact absurd hx List.not_mem_nil

/-- A piece is a write, or its line is. -/
theorem exists_mem_byLine {ps : List Piece} {q : Piece} (hq : q ∈ ps) : (∃ n, (q, n) ∈ byLine ps) ∨
    (lineBytes ps (q.va / 128)).length = 128 ∧ ∃ p ∈ ps, p.va / 128 = q.va / 128 ∧ ∃ n, (p.line (lineBytes ps (q.va / 128)), n) ∈ byLine ps := by
  have mine : q ∈ ofLine ps (q.va / 128) := mem_ofLine.mpr ⟨hq, rfl⟩
  have writes : ∀ x ∈ lineWrites ps (q.va / 128), x ∈ byLine ps := fun x hx => by
    rw [byLine_eq_flatMap]
    exact List.mem_flatMap.mpr ⟨_, mem_pieceLines hq, hx⟩
  obtain ⟨p, r, cons⟩ := List.exists_cons_of_ne_nil (List.ne_nil_of_mem mine)
  have first : (ofLine ps (q.va / 128)).head? = some p := by rw [cons]; rfl
  obtain ⟨hp, line⟩ := mem_ofLine.mp (List.mem_of_mem_head? first)
  by_cases whole : (lineBytes ps (q.va / 128)).length = 128
  · exact Or.inr ⟨whole, p, hp, line, _, writes _ (by simp only [lineWrites, first, if_pos whole, List.mem_singleton]; rfl)⟩
  · refine Or.inl ⟨1, writes _ ?_⟩
    simp only [lineWrites, first, if_neg whole]
    exact List.mem_map_of_mem mine

end Sys2Proof.Machine
end

