-- ==== Sys2Proof/Proofs/StoreWrites.lean ====
section
/-!
The writes of a store by the active lanes: each byte of each lane, the highest lane's of several, and no other (R264, R273).
-/
namespace Sys2Proof.Claim
open Machine

set_option Elab.async false

/-! ### The pieces of a store -/

/-- The sizes of a store: a register's, or a pair's (R263). -/
def StoreSize (n : Nat) : Prop := n ≤ 8 ∨ n = 16

/-- A piece is a part of the n bytes that a lane stores at an address, with the place of its first byte. -/
structure PartOf (e : Env) (d : Operand) (n : Nat) (x : Lane × Nat × Place) (q : Piece) : Prop where
  lane : q.lane = x.1.val
  above : x.2.1 ≤ q.va
  below : q.va + q.bytes.length ≤ x.2.1 + n
  place : q.place = placeAt x.2.2 x.2.1 q.va
  byte : ∀ va, q.Covers va → q.bytes[va - q.va]? = some (storeByte e d x.1 (va - x.2.1))

/-- Pieces, in the order of their lanes, which are the lanes' parts and all that they store. -/
structure Cut (e : Env) (d : Operand) (n : Nat) (acc : List (Lane × Nat × Place)) (qs : List Piece) : Prop where
  part : ∀ q ∈ qs, ∃ x ∈ acc, PartOf e d n x q
  cover : ∀ x ∈ acc, ∀ va, x.2.1 ≤ va → va < x.2.1 + n → ∃ q ∈ qs, q.lane = x.1.val ∧ q.Covers va
  sorted : qs.Pairwise fun p q => p.lane ≤ q.lane

section
variable {e : Env} {d : Operand} {n : Nat} {x : Lane × Nat × Place}

theorem placeAt_self (p : Place) (va : Nat) : placeAt p va va = p := by
  cases p <;> simp [placeAt]

theorem add_eq_placeAt (p : Place) (va k : Nat) : p.add k = placeAt p va (va + k) := by
  cases p <;> simp only [Place.add, placeAt] <;> congr 1 <;> omega

theorem partOf_whole (hn : StoreSize n) : PartOf e d n x ⟨x.1.val, x.2.1, x.2.2, e.dataBytes d n x.1⟩ := by
  rw [Env.dataBytes_eq_map e d hn]
  refine ⟨rfl, le_rfl, by simp, (placeAt_self _ _).symm, fun va hc => ?_⟩
  obtain ⟨lo, hi⟩ := hc
  simp only [List.length_map, List.length_range] at lo hi
  simp [show va - x.2.1 < n by omega]

theorem partOf_low : PartOf e d 16 x ⟨x.1.val, x.2.1, x.2.2, (e.dataBytes d 16 x.1).take 8⟩ := by
  rw [Env.dataBytes_eq_map e d (Or.inr rfl)]
  refine ⟨rfl, le_rfl, by simp, (placeAt_self _ _).symm, fun va hc => ?_⟩
  obtain ⟨lo, hi⟩ := hc
  simp only [List.length_take, List.length_map, List.length_range] at lo hi
  simp [show va - x.2.1 < 8 by omega]

theorem partOf_high : PartOf e d 16 x ⟨x.1.val, x.2.1 + 8, x.2.2.add 8, (e.dataBytes d 16 x.1).drop 8⟩ := by
  rw [Env.dataBytes_eq_map e d (Or.inr rfl)]
  refine ⟨rfl, Nat.le_add_right _ _, by simp, add_eq_placeAt _ _ _, fun va hc => ?_⟩
  obtain ⟨lo, hi⟩ := hc
  simp only [List.length_drop, List.length_map, List.length_range] at lo hi
  have high : 8 + (va - (x.2.1 + 8)) = va - x.2.1 := by omega
  simp [high, show va - x.2.1 < 16 by omega]

/-- The pieces of a store, with a pair's cut in two, are a cut of it. -/
theorem cut_pieces {acc : List (Lane × Nat × Place)} {halves : Bool} (hn : StoreSize n) (pair : halves = true → n = 16)
    (order : acc.Pairwise fun x y => x.1 < y.1) : Cut e d n acc (e.pieces d acc n halves) := by
  have ofLane : acc.Pairwise fun x y => x.1.val ≤ y.1.val := order.imp fun lt => le_of_lt lt
  cases halves with
  | false =>
    have single : e.pieces d acc n false = acc.map fun x => ⟨x.1.val, x.2.1, x.2.2, e.dataBytes d n x.1⟩ := List.flatMap_pure_eq_map _ _
    rw [single]
    refine ⟨fun q hq => ?_, fun x hx va lo hi => ⟨_, List.mem_map_of_mem hx, rfl, lo, ?_⟩, List.pairwise_map.mpr ofLane⟩
    · obtain ⟨x, hx, rfl⟩ := List.mem_map.mp hq
      exact ⟨x, hx, partOf_whole hn⟩
    · simpa [Env.dataBytes_eq_map e d hn] using hi
  | true =>
    obtain rfl := pair rfl
    refine ⟨fun q hq => ?_, fun x hx va lo hi => ?_, List.pairwise_flatMap.mpr ⟨fun x _ => ?_, ofLane.imp fun le p hp q hq => ?_⟩⟩
    · obtain ⟨x, hx, hq⟩ := List.mem_flatMap.mp hq
      rcases List.mem_pair.mp hq with rfl | rfl
      · exact ⟨x, hx, partOf_low⟩
      · exact ⟨x, hx, partOf_high⟩
    · have bytes : (e.dataBytes d 16 x.1).length = 16 := by simp [Env.dataBytes_eq_map e d hn]
      by_cases low : va < x.2.1 + 8
      · refine ⟨_, List.mem_flatMap.mpr ⟨x, hx, List.mem_pair.mpr (Or.inl rfl)⟩, rfl, lo, ?_⟩
        simpa [bytes] using low
      · refine ⟨_, List.mem_flatMap.mpr ⟨x, hx, List.mem_pair.mpr (Or.inr rfl)⟩, rfl, Nat.le_of_not_lt low, ?_⟩
        simp only [List.length_drop, bytes]
        omega
    · simp
    · rcases List.mem_pair.mp hp with rfl | rfl <;> rcases List.mem_pair.mp hq with rfl | rfl <;> exact le

end

/-! ### The writes of a store -/

/-- What writes must be to be those of a store, in the words of `Stores`. -/
structure StoredBy (e : Env) (d : Operand) (n : Nat) (ea : Lane → Word64) (ps : List Place) (qs : List Piece) : Prop where
  place : ∀ q ∈ qs, ∃ x ∈ reached e ea ps, q.place = placeAt x.2.2 x.2.1 q.va
  all : ∀ (l : Lane) (j : Nat), Active e l → j < n →
    (∀ k : Lane, l < k → Active e k → ¬ ((ea k).toNat ≤ (ea l).toNat + j ∧ (ea l).toNat + j < (ea k).toNat + n)) →
    ∃ q ∈ qs, q.va ≤ (ea l).toNat + j ∧ q.bytes[(ea l).toNat + j - q.va]? = some (storeByte e d l j)
  only : ∀ q ∈ qs, ∀ i, i < q.bytes.length → ∃ l, Active e l ∧ (ea l).toNat ≤ q.va + i ∧ q.va + i < (ea l).toNat + n

section
variable {e : Env} {d : Operand} {n : Nat} {ea : Lane → Word64} {ps : List Place} {qs : List Piece}

/-- Writes of the path with some pieces' accesses store what the pieces hold. -/
theorem StoredBy.stores (stored : StoredBy e d n ea ps qs) {ws : List PendW} (accesses : ws.map PendW.acc = qs.map Piece.access)
    (own : ∀ w ∈ ws, w.uid = e.sig.uid ∧ w.grid = e.sig.grid ∧ w.mask = e.path.mask ∧ w.posted = false ∧ w.waiter = none) :
    Stores e d n ea ps ws := by
  have ofPiece : ∀ w ∈ ws, ∃ q ∈ qs, q.access = w.acc := fun w hw =>
    List.mem_map.mp (accesses ▸ List.mem_map_of_mem hw : w.acc ∈ qs.map Piece.access)
  refine ⟨own, fun w hw => ?_, fun l j hl hj top => ?_, fun w hw => ?_⟩
  · obtain ⟨q, hq, same⟩ := ofPiece w hw
    rw [← same]
    exact stored.place q hq
  · obtain ⟨q, hq, lo, byte⟩ := stored.all l j hl hj top
    obtain ⟨w, hw, same⟩ := List.mem_map.mp (accesses ▸ List.mem_map_of_mem hq : q.access ∈ ws.map PendW.acc)
    refine ⟨w, hw, q.bytes, ?_⟩
    rw [same]
    exact ⟨rfl, lo, byte⟩
  · obtain ⟨q, hq, same⟩ := ofPiece w hw
    refine ⟨q.bytes, ?_⟩
    rw [← same]
    exact ⟨rfl, rfl, stored.only q hq⟩

section
variable (cut : Cut e d n (reached e ea ps) qs)
include cut

theorem Cut.place {q : Piece} (hq : q ∈ qs) : ∃ x ∈ reached e ea ps, q.place = placeAt x.2.2 x.2.1 q.va := by
  obtain ⟨x, hx, part⟩ := cut.part q hq
  exact ⟨x, hx, part.place⟩

/-- An address that a piece has belongs to an active lane. -/
theorem Cut.lane_of_covers {q : Piece} (hq : q ∈ qs) {va : Nat} (hc : q.Covers va) :
    ∃ l : Lane, l.val = q.lane ∧ Active e l ∧ (ea l).toNat ≤ va ∧ va < (ea l).toNat + n ∧
      q.bytes[va - q.va]? = some (storeByte e d l (va - (ea l).toNat)) := by
  obtain ⟨x, hx, part⟩ := cut.part q hq
  obtain ⟨active, addr⟩ := mem_reached hx
  obtain ⟨lo, hi⟩ := hc
  have above := part.above
  have below := part.below
  refine ⟨x.1, part.lane.symm, active, ?_⟩
  rw [← addr]
  exact ⟨by omega, by omega, part.byte va ⟨lo, hi⟩⟩

/-- A byte of an active lane is one of a piece of its own. -/
theorem Cut.exists_piece (placed : Placed e ps) {l : Lane} {j : Nat} (hl : Active e l) (hj : j < n) :
    ∃ q ∈ qs, q.lane = l.val ∧ q.Covers ((ea l).toNat + j) ∧ q.bytes[(ea l).toNat + j - q.va]? = some (storeByte e d l j) := by
  obtain ⟨p, hx⟩ := exists_mem_reached placed (ea := ea) hl
  obtain ⟨q, hq, lane, hc⟩ := cut.cover _ hx ((ea l).toNat + j) (Nat.le_add_right _ _) (Nat.add_lt_add_left hj _)
  obtain ⟨k, same, -, -, -, byte⟩ := cut.lane_of_covers hq hc
  obtain rfl : k = l := Fin.ext (same.trans lane)
  rw [Nat.add_sub_cancel_left] at byte
  exact ⟨q, hq, lane, hc, byte⟩

/-- The pieces themselves are writes of the store. -/
theorem Cut.storedBy (placed : Placed e ps) : StoredBy e d n ea ps qs := by
  refine ⟨fun q hq => cut.place hq, fun l j hl hj _ => ?_, fun q hq i hi => ?_⟩
  · obtain ⟨q, hq, -, hc, byte⟩ := cut.exists_piece placed hl hj
    exact ⟨q, hq, hc.1, byte⟩
  · obtain ⟨l, -, active, lo, hi, -⟩ := cut.lane_of_covers hq ⟨Nat.le_add_right _ i, Nat.add_lt_add_left hi _⟩
    exact ⟨l, active, lo, hi⟩

/-- The place of a whole line (R273). -/
theorem Cut.place_line {p : Piece} (hp : p ∈ qs) (bytes : List Byte) :
    ∃ x ∈ reached e ea ps, (p.line bytes).place = placeAt x.2.2 x.2.1 (p.line bytes).va := by
  obtain ⟨x, hx, part⟩ := cut.part p hp
  refine ⟨x, hx, ?_⟩
  have above := part.above
  simp only [Piece.line, part.place]
  cases x.2.2 <;> simp only [placeAt] <;> congr 1 <;> omega

/-- Where no higher lane stores at an address, the pieces of its line leave the lane's byte there. -/
theorem Cut.pieceByte_eq {q : Piece} {ln : Nat} (hq : q ∈ ofLine qs ln) {l : Lane} (lane : q.lane = l.val) {j : Nat}
    (hc : q.Covers ((ea l).toNat + j))
    (top : ∀ k : Lane, l < k → Active e k → ¬ ((ea k).toNat ≤ (ea l).toNat + j ∧ (ea l).toNat + j < (ea k).toNat + n)) :
    pieceByte (ofLine qs ln) ((ea l).toNat + j) = some (storeByte e d l j) := by
  have sorted : (ofLine qs ln).Pairwise fun p q => p.lane ≤ q.lane := cut.sorted.filter _
  obtain ⟨p, hp, cover, order, byte⟩ := pieceByte_eq_of_covers sorted hq hc
  obtain ⟨k, same, active, lo, hi, stored⟩ := cut.lane_of_covers (mem_ofLine.mp hp).1 cover
  have notAbove : ¬ l.val < k.val := fun above => top k above active ⟨lo, hi⟩
  obtain rfl : k = l := Fin.ext (by omega)
  rw [byte, stored, Nat.add_sub_cancel_left]

/-- The pieces by line, where none lies in two, are writes of the store (R273). -/
theorem Cut.storedBy_byLine (placed : Placed e ps) (inLine : ∀ q ∈ qs, q.va % 128 + q.bytes.length ≤ 128) :
    StoredBy e d n ea ps ((byLine qs).map Prod.fst) := by
  refine ⟨fun q hq => ?_, fun l j hl hj top => ?_, fun q hq i hi => ?_⟩
  · obtain ⟨x, hx, rfl⟩ := List.mem_map.mp hq
    rcases mem_byLine hx with hp | ⟨p, hp, line, -⟩
    · exact cut.place hp
    · rw [line]
      exact cut.place_line hp _
  · obtain ⟨q, hq, lane, hc, byte⟩ := cut.exists_piece placed hl hj
    rcases exists_mem_byLine hq with ⟨c, hx⟩ | ⟨whole, p, -, same, c, hx⟩
    · exact ⟨q, List.mem_map_of_mem hx, hc.1, byte⟩
    · have left := cut.pieceByte_eq (mem_ofLine.mpr ⟨hq, rfl⟩) lane hc top
      have short := inLine q hq
      obtain ⟨lo, hi⟩ := hc
      have begins : 128 * (p.va / 128) ≤ (ea l).toNat + j := by omega
      have in_ : (ea l).toNat + j - 128 * (p.va / 128) < 128 := by omega
      refine ⟨_, List.mem_map_of_mem hx, begins, ?_⟩
      simp only [Piece.line]
      rw [same] at begins in_ ⊢
      rw [(lineBytes_getElem? whole in_).1, Nat.add_sub_cancel' begins, left]
  · obtain ⟨x, hx, rfl⟩ := List.mem_map.mp hq
    rcases mem_byLine hx with hp | ⟨p, hp, line, whole⟩
    · exact (cut.storedBy placed).only _ hp i hi
    · rw [line] at hi ⊢
      obtain ⟨q, hq, hc⟩ := covers_of_pieceByte_isSome (lineBytes_getElem? whole (whole ▸ hi)).2
      obtain ⟨l, -, active, lo, hi, -⟩ := cut.lane_of_covers (mem_ofLine.mp hq).1 hc
      exact ⟨l, active, lo, hi⟩

end

/-- A part of an aligned access lies in one line. -/
theorem Cut.inLine (cut : Cut e d n (reached e ea ps) qs) (pow : n ∈ [1, 2, 4, 8, 16])
    (aligned : ∀ l, Active e l → (ea l).toNat % n = 0) : ∀ q ∈ qs, q.va % 128 + q.bytes.length ≤ 128 := by
  intro q hq
  obtain ⟨x, hx, part⟩ := cut.part q hq
  obtain ⟨active, addr⟩ := mem_reached hx
  have whole := aligned x.1 active
  rw [← addr] at whole
  have above := part.above
  have below := part.below
  fin_cases pow <;> omega

end

end Sys2Proof.Claim
end

