-- ==== Sys2Proof/Proofs/GlobalStores.lean ====
section
/-!
ST, IVST and STSC (R223, R264, R273, R291), and O29.
-/
namespace Sys2Proof.Claim
open Machine

set_option Elab.async false

section
variable {e : Env}

theorem storeSize_of_le {k : Nat} (hk : k ≤ 4) : StoreSize (2 ^ k) ∧ 2 ^ k ∈ [1, 2, 4, 8, 16] := by
  interval_cases k <;> exact ⟨by unfold StoreSize; decide, by decide⟩

/-- The cut of a store whose accesses pass the checks. -/
theorem cut_of_reach {d : Operand} {need : Need} {n : Nat} {ea : Lane → Word64} {ps : List Place} {halves : Bool} (hn : StoreSize n)
    (pair : halves = true → n = 16) (hps : e.s.reach e.sig.ctx need anyPage (wants e ea n) = .ok ps) :
    Cut e d n (reached e ea ps) (e.pieces d (reached e ea ps) n halves) :=
  cut_pieces hn pair (reached_pairwise_lt (placed_of_reach hps))

theorem aligned_of_reach {need : Need} {n : Nat} {ea : Lane → Word64} {ps : List Place}
    (hps : e.s.reach e.sig.ctx need anyPage (wants e ea n) = .ok ps) (l : Lane) (hl : Active e l) : (ea l).toNat % n = 0 :=
  (State.aligned_of_reach hps).1 _ (List.mem_map_of_mem (mem_lanesOf.mpr hl))

/-- The accesses of STSC. -/
theorem pieces_access (e : Env) (d : Operand) {n : Nat} (hn : StoreSize n) (acc : List (Lane × Nat × Place)) :
    (e.pieces d acc n false).map Piece.access = acc.map fun x =>
      ⟨x.1.val, x.2.1, x.2.2, n, .write ((List.range n).map (storeByte e d x.1)), none⟩ := by
  have single : e.pieces d acc n false = acc.map fun x => ⟨x.1.val, x.2.1, x.2.2, e.dataBytes d n x.1⟩ := List.flatMap_pure_eq_map _ _
  simp [single, Piece.access, Env.dataBytes_eq_map e d hn]

end

/-- What a store does with the lanes' places (R289, R435). -/
def StoreFollows (i : Instr) (e : Env) (d : Operand) (n : Nat) (ea : Lane → Word64) (nm : Bool) (ps : List Place) : Prop :=
  let c := if nm then ps.length else 0
  let refused := fun (l : Lane) => ∃ x ∈ reached e ea ps, x.1 = l ∧ e.s.refuses { w := true } x.2.2 n = true
  FaultsAt i e 0x07 ea (fun l => ¬ refused l) ∧
  ((∀ l, ¬ refused l) →
    (e.core.outst + c < 2 ^ 32 → ∃ ws, Retires i e (sent e ws c) ∧ Stores e d n ea ps ws) ∧
    (2 ^ 32 ≤ e.core.outst + c → nm = true → Waits i e))

section
variable {s : State} {h : Hdr} {o : Ops2} {imm : BitVec 32} {m : GMod} {am : AMod} {e : Env} (I : Issues s h o.list e)
include I

/-- ST: its pieces by line. -/
theorem st_follows (hsize : m.size.toNat ≤ 4) (hidx : e.indexFault [(o.d, m.wide)] = none)
    (hok : e.ops2Ok o (storePos m.wide) addrPos = true) :
    ChecksFirst (.st h o imm m) e { w := true } (wants e (addrI e o imm) m.bytes) ∧
      ∀ ps, e.s.reach e.sig.ctx { w := true } anyPage (wants e (addrI e o imm) m.bytes) = .ok ps →
        StoreFollows (.st h o imm m) e o.d m.bytes (addrI e o imm) m.nm ps := by
  have hx := I.exec_fields (i := .st h o imm m) (x := execSt h o imm m) rfl rfl hok
  rw [Env.indexed_none hidx] at hx
  simp only [Env.lanesReached_addrs] at hx
  refine checksFirst_then hx fun ps hps hx => ?_
  have placed := placed_of_reach hps
  obtain ⟨size, pow⟩ := storeSize_of_le hsize
  have pair : m.wide = true → m.bytes = 16 := fun wide => by rw [GMod.bytes, beq_iff_eq.mp wide]; rfl
  have cut := cut_of_reach (d := o.d) (halves := m.wide) size pair hps
  have stored := cut.storedBy_byLine placed (cut.inLine pow (aligned_of_reach hps))
  rw [reached_length placed] at hx
  refine ⟨faultsAt_of_peerFault placed hx fun t ht => by rw [ht], fun open_ => ?_⟩
  rw [peerFault_eq_none open_] at hx
  refine ⟨fun room => ⟨_, retires_of_finish hx (if_neg ?_), stored.stores ?_ fun w hw => ?_⟩,
    fun full _ => waits_of_finish hx (if_pos (decide_eq_true (by omega)))⟩
  · simp only [Env.outstFull, decide_eq_true_eq]
    omega
  · simp only [List.map_map]
    rfl
  · obtain ⟨x, -, rfl⟩ := List.mem_map.mp hw
    exact ⟨rfl, rfl, rfl, rfl, rfl⟩

/-- IVST: an image is one piece (R223). -/
theorem ivst_follows (feat : e.s.feat e.sig.ctx 0 = true) (hidx : e.indexFault [(o.d, ivWide am.ty)] = none)
    (hok : e.ops2Ok o (ivDst am.ty) { kinds := [.v, .s] } = true) :
    ChecksFirst (.ivst h o imm am) e { w := true } (wants e (addrI e o imm) (ivBytes am.ty)) ∧
      ∀ ps, e.s.reach e.sig.ctx { w := true } anyPage (wants e (addrI e o imm) (ivBytes am.ty)) = .ok ps →
        StoreFollows (.ivst h o imm am) e o.d (ivBytes am.ty) (addrI e o imm) false ps := by
  have hx := I.exec_in_turn (i := .ivst h o imm am) (x := execIvst h o imm am) rfl rfl
    (fun _ hb => List.mem_singleton.mp hb ▸ feat) hok (Or.inl rfl)
  rw [Env.indexed_none hidx] at hx
  simp only [Env.lanesReached_addrs] at hx
  refine checksFirst_then hx fun ps hps hx => ?_
  have placed := placed_of_reach hps
  have size : StoreSize (ivBytes am.ty) := by
    rw [ivBytes]
    split
    · exact Or.inr rfl
    · exact Or.inl le_rfl
  have stored := (cut_of_reach (d := o.d) (halves := false) size (fun wide => absurd wide Bool.false_ne_true) hps).storedBy placed
  refine ⟨faultsAt_of_peerFault placed hx fun t ht => by rw [ht], fun open_ => ?_⟩
  rw [peerFault_eq_none open_] at hx
  refine ⟨fun _ => ⟨_, retires_of_finish hx rfl, stored.stores ?_ fun w hw => ?_⟩, fun _ counted => absurd counted Bool.false_ne_true⟩
  · simp only [List.map_map]
    rfl
  · obtain ⟨q, -, rfl⟩ := List.mem_map.mp hw
    exact ⟨rfl, rfl, rfl, rfl, rfl⟩

/-- STSC: its writes go to the thimble (R291), in deterministic mode in the serial phase (R473). -/
theorem stsc_follows (hsize : m.size.toNat ≤ 3) (hidx : e.indexFault [(o.d, false)] = none)
    (hok : e.ops2Ok o { kinds := [.v, .s, .idx, .zero] } { kinds := [.v, .s, .zero] } = true) :
    let ea := addrI e o imm
    let need : Need := { w := true, noHost := true, noPeer := true }
    ChecksFirst (.stsc h o imm m) e need (wants e ea m.bytes) ∧
    ∀ ps, e.s.reach e.sig.ctx need anyPage (wants e ea m.bytes) = .ok ps →
      let acc := (reached e ea ps).map fun x =>
        (⟨x.1.val, x.2.1, x.2.2, m.bytes, .write ((List.range m.bytes).map (storeByte e o.d x.1)), none⟩ : Access)
      let t := (sent e [] 0).queueSc (acc.map fun a => e.scOf a (some e.core.pseq) false)
      let p : PartSpec := { reason := 0x02, evkey := lowAddr e ea, resume := e.next, wait := .scStore acc.length }
      let held := { p with late := acc }
      (e.s.det e.sig.ctx = false → (∃ u, e.part t p = .ok u) → Parts (.stsc h o imm m) e t p) ∧
      (e.s.det e.sig.ctx = true → (∃ u, e.part e.s held = .ok u) → Parts (.stsc h o imm m) e e.s held) := by
  have hx := I.exec_fields (i := .stsc h o imm m) (x := execStsc h o imm m) rfl rfl hok
  rw [Env.indexed_none hidx] at hx
  have size : StoreSize m.bytes := (storeSize_of_le (hsize.trans (by decide))).1
  simp only [Env.lanesReached_addrs, Env.lowAddr_addrs, pieces_access e o.d size] at hx
  refine checksFirst_then hx fun ps _ hx => ⟨fun free room => ?_, fun det room => ?_⟩
  · exact parts_of_finish hx (if_neg (by rw [free]; exact Bool.false_ne_true)) room
  · exact parts_of_finish hx (if_pos det) room

end

/-- Settles O29: the pieces of ST and IVST are cut from the lanes' bytes, and lines are made of them; the writes of STSC are the
lanes' own. -/
theorem globalStores : Obligations.GlobalStores := by
  intro s h o imm m am e I ea n stored
  refine ⟨fun hsize hidx hok => st_follows I hsize hidx hok, fun feat hidx hok => ?_, fun hsize hidx hok => stsc_follows I hsize hidx hok⟩
  rw [← ivBytes_eq]
  exact ivst_follows I feat hidx hok

end Sys2Proof.Claim
end

