-- ==== Sys2Proof/Proofs/LocalAccess.lean ====
section
/-!
Accesses to the local spaces: the checks on the active lanes (R225, R234, R237), the lanes that race with an engine operation
(R232), and bytes as numbers (R6).
-/
namespace Sys2Proof.Machine

set_option Elab.async false

/-! ### Bytes and numbers -/

@[simp] theorem bytesOfNat_length (n x : Nat) : (bytesOfNat n x).length = n := by simp [bytesOfNat_eq_map]

theorem Mem.readN_getD (m : Mem) (a : Nat) {n j : Nat} (hj : j < n) : (Mem.readN m a n).getD j 0 = Mem.read m (a + j) := by
  simp [Mem.readN, hj]

/-- Bit 8j + i of a number is bit i of its byte j. -/
theorem testBit_natOfBytes (bs : List Byte) (j : Nat) {i : Nat} (hi : i < 8) :
    (natOfBytes bs).testBit (8 * j + i) = (bs.getD j 0).getLsbD i := by
  induction bs generalizing j with
  | nil => simp [natOfBytes]
  | cons b bs ih =>
    have digits : natOfBytes (b :: bs) = 2 ^ 8 * natOfBytes bs + b.toNat := Nat.add_comm _ _
    rw [digits, Nat.testBit_two_pow_mul_add _ b.isLt]
    cases j with
    | zero =>
      rw [if_pos (by omega), Nat.mul_zero, Nat.zero_add]
      rfl
    | succ j =>
      rw [if_neg (by omega), show 8 * (j + 1) + i - 8 = 8 * j + i by omega, ih]
      rfl

theorem natOfBytes_lt (bs : List Byte) : natOfBytes bs < 2 ^ (8 * bs.length) := by
  refine Nat.lt_pow_two_of_testBit _ fun k hk => ?_
  have bit := testBit_natOfBytes bs (k / 8) (Nat.mod_lt k (by decide))
  rw [Nat.div_add_mod, List.getD_eq_default _ _ (by omega)] at bit
  simpa using bit

/-! ### The lanes of a mask -/

theorem mask_eq_zero_iff {m : Mask} : m = 0 ↔ ∀ l : Lane, ¬ m.getLsbD l.val = true := by
  refine ⟨fun h l => by simp [h], fun h => BitVec.eq_of_getLsbD_eq fun i hi => ?_⟩
  simpa using h ⟨i, hi⟩

end Sys2Proof.Machine

namespace Sys2Proof.Claim
open Machine

set_option Elab.async false

/-- The active lanes whose bytes an engine operation of the quire touches (R232). -/
theorem engineRace_iff {e : Env} {store : Bool} {space n : Nat} {ea : Row} {l : Lane} :
    (e.engineRace store space n ea).getLsbD l.val = true ↔ Active e l ∧ ∃ key, e.sig.quire = some key ∧
      (if store then (e.s.cluster (e.sel.core / 12)).meets e.sel.core key space ea[l].toNat n
        else (e.s.cluster (e.sel.core / 12)).writes e.sel.core key space ea[l].toNat n) = true := by
  unfold Env.engineRace
  cases e.sig.quire with
  | none => simp
  | some key =>
    rw [BitVec.getLsbD_and, maskOf_getLsbD]
    simp [Active, clusterOf, Config.coresPerCluster]

/-! ### The checks -/

section
variable {e : Env} {cause space n : Nat} {ea : Row} {ok : Word64 → Bool}

theorem laneFault_of_forall (h : ∀ l, Active e l → ok ea[l] = true) : e.laneFault cause ea ok = none := by
  have none_ : (lanesOf e.act).find? (fun l => !ok ea[l]) = none :=
    List.find?_eq_none.mpr fun l hl => by simpa using h l (mem_lanesOf.mp hl)
  unfold Env.laneFault
  rw [none_]

/-- The fault of a test is that of the lowest lane that fails it. -/
theorem laneFault_of_exists (h : ∃ l, Active e l ∧ ¬ ok ea[l] = true) : ∃ l, Active e l ∧ ¬ ok ea[l] = true ∧
    (∀ k : Lane, k < l → Active e k → ok ea[k] = true) ∧ e.laneFault cause ea ok = some ⟨cause, ea[l], none⟩ := by
  obtain ⟨k, active, fails⟩ := h
  obtain ⟨l, found⟩ := Option.isSome_iff_exists.mp
    (List.find?_isSome.mpr ⟨k, mem_lanesOf.mpr active, by simpa using fails⟩ :
      ((lanesOf e.act).find? fun l => !ok ea[l]).isSome)
  obtain ⟨bad, before, after, split_, first⟩ := List.find?_eq_some_iff_append.mp found
  refine ⟨l, mem_lanesOf.mp (List.mem_of_find?_eq_some found), by simpa using bad, fun k lower hk => ?_, by
    unfold Env.laneFault
    rw [found]⟩
  have order := lanesOf_pairwise_lt e.act
  have mem := mem_lanesOf.mpr hk
  rw [split_] at order mem
  rcases List.mem_append.mp mem with mem | mem
  · simpa using first k mem
  · rcases List.mem_cons.mp mem with rfl | mem
    · exact absurd lower (lt_irrefl _)
    · obtain ⟨-, tail, -⟩ := List.pairwise_append.mp order
      exact absurd lower (lt_asymm (List.rel_of_pairwise_cons tail mem))

theorem localFault_of_laneFault {x : Trap} (h : e.laneFault cMISALIGN ea (fun a => a.toNat % n == 0) = some x) :
    e.localFault space n ea = some x := by
  simp [Env.localFault, h]

theorem localFault_of_aligned (h : ∀ l, Active e l → ea[l].toNat % n = 0) :
    e.localFault space n ea = e.laneFault cACCESS ea fun a => decide (a.toNat + n ≤ (e.reserved space).2) := by
  have none_ : e.laneFault cMISALIGN ea (fun a => a.toNat % n == 0) = none :=
    laneFault_of_forall fun l hl => beq_iff_eq.mpr (h l hl)
  simp [Env.localFault, none_]

end

/-- The lowest lane that fails a test names the fault. -/
theorem faultsAt_of_laneFault {i : Instr} {e : Env} {cause : Nat} {ea : Row} {test : Word64 → Bool} {ok : Lane → Prop}
    (hok : ∀ l : Lane, ok l ↔ test ea[l] = true) (raises : ∀ x, e.laneFault cause ea test = some x → Raises i e x) :
    FaultsAt i e cause (fun l => ea[l]) ok := by
  simp only [FaultsAt, hok]
  intro fails
  obtain ⟨l, active, bad, lower, fault⟩ := laneFault_of_exists fails
  exact ⟨l, active, bad, lower, raises _ fault⟩

/-- The checks of an access to a local space: MISALIGN, then ACCESS (R234, R237). -/
theorem faultsAt_of_localFault {i : Instr} {e : Env} {space n : Nat} {ea : Row}
    (raises : ∀ x, e.localFault space n ea = some x → Raises i e x) :
    FaultsAt i e 0x05 (fun l => ea[l]) (fun l => ea[l].toNat % n = 0) ∧
    ((∀ l : Lane, Active e l → ea[l].toNat % n = 0) →
      FaultsAt i e 0x07 (fun l => ea[l]) fun l => ea[l].toNat + n ≤ (e.reserved space).2) :=
  ⟨faultsAt_of_laneFault (fun _ => beq_iff_eq.symm) fun x hx => raises x (localFault_of_laneFault hx),
    fun aligned => faultsAt_of_laneFault (fun _ => decide_eq_true_iff.symm) fun x hx =>
      raises x ((localFault_of_aligned aligned).trans hx)⟩

/-- Accesses that are aligned and inside the reservation pass the checks. -/
theorem localFault_eq_none {e : Env} {space n : Nat} {ea : Row}
    (h : ∀ l : Lane, Active e l → ea[l].toNat % n = 0 ∧ ea[l].toNat + n ≤ (e.reserved space).2) : e.localFault space n ea = none :=
  (localFault_of_aligned fun l hl => (h l hl).1).trans (laneFault_of_forall fun l hl => decide_eq_true (h l hl).2)

end Sys2Proof.Claim
end

