-- ==== Sys2Proof/Proofs/LocalLoads.lean ====
section
/-!
LDL and LDB: the bytes of a lane in a register (R232 to R234), and O23.
-/
namespace Sys2Proof.Machine

set_option Elab.async false

/-! ### The bytes of a number in a register -/

section
variable {bs : List Byte} {j : Nat}

theorem byte_ofNat_natOfBytes (hj : j < 8) : (BitVec.ofNat 64 (natOfBytes bs)).extractLsb' (8 * j) 8 = bs.getD j 0 := by
  refine BitVec.eq_of_getLsbD_eq fun i hi => ?_
  rw [BitVec.getLsbD_extractLsb', BitVec.getLsbD_ofNat, testBit_natOfBytes bs j hi]
  simp [hi, show 8 * j + i < 64 by omega]

/-- The odd register of a pair holds the bytes from byte 8 on. -/
theorem byte_ofNat_natOfBytes_div (hj : j < 8) :
    (BitVec.ofNat 64 (natOfBytes bs / 2 ^ 64)).extractLsb' (8 * j) 8 = bs.getD (8 + j) 0 := by
  refine BitVec.eq_of_getLsbD_eq fun i hi => ?_
  rw [BitVec.getLsbD_extractLsb', BitVec.getLsbD_ofNat, Nat.testBit_div_two_pow,
    show 8 * j + i + 64 = 8 * (8 + j) + i by omega, testBit_natOfBytes bs (8 + j) hi]
  simp [hi, show 8 * j + i < 64 by omega]

/-- The bits of n bytes extended to a register (R234). -/
theorem extend_getLsbD {sx : Bool} {n x k : Nat} (pos : 0 < n) (hn : n ≤ 8) (hx : x < 2 ^ (8 * n)) (hk : k < 64) :
    (extend sx n x).getLsbD k = if k < 8 * n then x.testBit k else sx && x.testBit (8 * n - 1) := by
  unfold extend
  cases sx with
  | true =>
    have code : (BitVec.ofInt 64 (signedOf (8 * n) x)).toNat = intCode 64 (signedOf (8 * n) x) := BitVec.toNat_ofInt ..
    rw [if_pos rfl, ← BitVec.testBit_toNat, code, testBit_intCode_signedOf (by omega) (by omega) hx hk, Bool.true_and]
  | false =>
    rw [if_neg Bool.false_ne_true, BitVec.getLsbD_ofNat, Bool.false_and, decide_eq_true hk, Bool.true_and]
    split
    · rfl
    · exact Nat.testBit_lt_two_pow (Nat.lt_of_lt_of_le hx (Nat.pow_le_pow_right (by decide) (by omega)))

/-- The bytes of a number of n bytes, and copies of its sign above them under SX. -/
theorem byte_extend {sx : Bool} {n : Nat} (len : bs.length = n) (pos : 0 < n) (hn : n ≤ 8) (hj : j < 8) :
    (extend sx n (natOfBytes bs)).extractLsb' (8 * j) 8 =
      if j < n then bs.getD j 0 else if sx && (bs.getD (n - 1) 0).msb then 0xFF else 0 := by
  have bit : ∀ i, i < 8 → (extend sx n (natOfBytes bs)).getLsbD (8 * j + i) =
      if j < n then (bs.getD j 0).getLsbD i else sx && (bs.getD (n - 1) 0).msb := fun i hi => by
    rw [extend_getLsbD pos hn (len ▸ natOfBytes_lt bs) (by omega), testBit_natOfBytes bs j hi,
      show 8 * n - 1 = 8 * (n - 1) + 7 by omega, testBit_natOfBytes bs (n - 1) (by decide)]
    exact if_congr (by omega) rfl rfl
  refine BitVec.eq_of_getLsbD_eq fun i hi => ?_
  rw [BitVec.getLsbD_extractLsb', bit i hi, decide_eq_true hi, Bool.true_and]
  split
  · rfl
  · cases sx && (bs.getD (n - 1) 0).msb
    · simp
    · exact (BitVec.getLsbD_allOnes.trans (decide_eq_true hi)).symm

end

end Sys2Proof.Machine

namespace Sys2Proof.Claim
open Machine

set_option Elab.async false

/-! ### What a load of the active lanes gives -/

/-- Unspecified values come in the lanes that race with an engine alone; nothing else of the state changes. -/
theorem localData_spec (e : Env) (space n : Nat) (ea : Row) : ∃ (x : Lane → Nat) (k : Nat),
    e.localData space n ea = (x, { e.s with free := k }) ∧ (e.engineRace false space n ea = 0 → k = e.s.free) ∧
    ∀ l : Lane, ¬ (e.engineRace false space n ea).getLsbD l.val = true → x l = e.localBytes space n ea[l] := by
  unfold Env.localData
  by_cases none_ : e.engineRace false space n ea = 0
  · exact ⟨_, e.s.free, if_pos none_, fun _ => rfl, fun _ _ => rfl⟩
  · exact ⟨_, e.s.free + 128 + 128, if_neg none_, fun h => absurd h none_, fun _ hl => if_neg hl⟩

section
variable {e : Env} {o : Ops2} {imm : BitVec 32} {m : LMod} (hidx : e.indexFault [(o.d, m.wide)] = none)
include hidx

theorem localLoad_of_fault {x : Trap} (h : e.localFault m.space.toNat m.bytes (e.addrs o.a imm) = some x) :
    localLoad o imm m e = .trap x := by
  simp [localLoad, Env.indexed_none hidx, h]

theorem localLoad_of_passed {x : Lane → Nat} {t : State} (h : e.localFault m.space.toNat m.bytes (e.addrs o.a imm) = none)
    (data : e.localData m.space.toNat m.bytes (e.addrs o.a imm) = (x, t)) : localLoad o imm m e =
      if m.wide then
        .done (e.writeHi (e.write t o.d (Vector.ofFn fun l : Lane => BitVec.ofNat 64 (x l))) o.d
          (Vector.ofFn fun l : Lane => BitVec.ofNat 64 (x l / 2 ^ 64)))
      else .done (e.write t o.d (Vector.ofFn fun l : Lane => extend m.sx m.bytes (x l))) := by
  simp [localLoad, Env.indexed_none hidx, h, data]

end

/-- Settles O23: the checks come first; then a lane that no engine operation races with has the bytes at its address. -/
theorem localLoads : Obligations.LocalLoads := by
  intro s h o imm m e I hsize n ea space byte aligned inside races on hok hidx
  have addr : ∀ l : Lane, (e.addrs o.a imm)[l] = ea l := e.addrs_getElem o imm
  have rows : (fun l : Lane => (e.addrs o.a imm)[l]) = ea := funext addr
  have follows : ∀ i, exec i e.s = .next (e.finish (localLoad o imm m e)) → on i := by
    intro i hx
    obtain ⟨misaligned, outside⟩ := faultsAt_of_localFault fun x fault => raises_of_finish hx (localLoad_of_fault hidx fault)
    rw [rows] at misaligned outside
    simp only [addr] at misaligned outside
    refine ⟨misaligned, outside, fun passed => ?_⟩
    obtain ⟨x, k, data, drawn, value⟩ := localData_spec e space n (e.addrs o.a imm)
    have done := localLoad_of_passed hidx (localFault_eq_none fun l hl => by rw [addr]; exact passed l hl) data
    have race : ∀ l : Lane, (e.engineRace false space n (e.addrs o.a imm)).getLsbD l.val = true → races l :=
      fun l hl => by have touched := engineRace_iff.mp hl; rwa [addr] at touched
    have loaded : ∀ l, ¬ races l → x l = natOfBytes (Mem.readN (e.core.mem.get space) ((e.reserved space).1 + (ea l).toNat) n) :=
      fun l quiet => addr l ▸ value l (mt (race l) quiet)
    have byteOf : ∀ l j, j < n → (Mem.readN (e.core.mem.get space) ((e.reserved space).1 + (ea l).toNat) n).getD j 0 = byte l j :=
      fun l j hj => Mem.readN_getD _ _ hj
    refine ⟨k, fun quiet => drawn (mask_eq_zero_iff.mpr fun l => mt (race l) (quiet l)), fun single => ?_, fun pair => ?_⟩
    · have small : n ≤ 8 := Nat.pow_le_pow_right (n := 2) (by decide) (Nat.le_of_lt_succ (Nat.lt_of_le_of_ne hsize
        fun four => single (BitVec.eq_of_toNat_eq four)))
      have pos : 0 < n := Nat.two_pow_pos _
      refine ⟨_, retires_of_finish hx (done.trans (if_neg (by simpa [LMod.wide] using single))), fun l j quiet hj => ?_⟩
      rw [Fin.getElem_fin, Vector.getElem_ofFn, loaded l quiet, ← byteOf l (n - 1) (by omega)]
      rw [show m.bytes = n from rfl, byte_extend (Mem.readN_length _ _ _) pos small hj]
      split
      · next hj => exact byteOf l j hj
      · rfl
    · have wide : n = 16 := by simp [n, pair]
      refine ⟨_, _, retires_of_finish hx (done.trans (if_pos (by simpa [LMod.wide] using pair))), fun l j quiet hj => ?_⟩
      rw [Fin.getElem_fin, Fin.getElem_fin, Vector.getElem_ofFn, Vector.getElem_ofFn, loaded l quiet,
        byte_ofNat_natOfBytes hj, byte_ofNat_natOfBytes_div hj]
      exact ⟨byteOf l j (by omega), byteOf l (8 + j) (by omega)⟩
  exact ⟨follows _ (I.exec_fields rfl rfl hok), follows _ (I.exec_fields rfl rfl hok)⟩

end Sys2Proof.Claim
end

