-- ==== Sys2Proof/Proofs/LocalStores.lean ====
section
/-!
STL and STB: the bytes that the lanes leave in a space, one lane after another (R231, R234), the engine operations that they
spoil (R232), and O24.
-/
namespace Sys2Proof

/-- A value that a table gives at a key is listed with it. -/
theorem AMap.mem_of_get? {α : Type} {m : AMap α} {k : Nat} {x : α} (h : AMap.get? m k = some x) : (k, x) ∈ m := by
  induction m with
  | nil => cases h
  | cons p r ih =>
    obtain ⟨y, b⟩ := p
    unfold AMap.get? at h
    split at h
    · next same =>
      cases h
      exact same ▸ List.mem_cons_self
    · split at h
      · cases h
      · exact List.mem_cons_of_mem _ (ih h)

end Sys2Proof

namespace Sys2Proof.Machine

set_option Elab.async false

/-! ### The spaces of a core -/

section
variable (m : Spaces) (n : Nat) (x y : Mem)

@[simp] theorem Spaces.get_set_self : (m.set n x).get n = x := by
  match n with
  | 0 | 1 | 2 | _ + 3 => rfl

@[simp] theorem Spaces.set_get : m.set n (m.get n) = m := by
  match n with
  | 0 | 1 | 2 | _ + 3 => rfl

@[simp] theorem Spaces.set_set : (m.set n x).set n y = m.set n y := by
  match n with
  | 0 | 1 | 2 | _ + 3 => rfl

theorem Spaces.get_set_ne {k n : Nat} (hk : k < 4) (hn : n < 4) (ne : k ≠ n) : (m.set n x).get k = m.get k := by
  interval_cases n <;> interval_cases k <;> simp [Spaces.set, Spaces.get] at ne ⊢

end

theorem State.wf_space_of_memOk {s : State} (h : s.memOk = true) (core space : Nat) :
    Mem.wf ((s.core core).mem.get space) = true := by
  have ok : (s.core core).memOk = true := by
    simp only [State.memOk, Bool.and_eq_true, List.all_eq_true] at h
    unfold State.core AMap.getD
    cases found : AMap.get? s.cores core with
    | none => rfl
    | some k => exact h.2 _ (AMap.mem_of_get? found)
  simp only [Core.memOk, Bool.and_eq_true] at ok
  obtain ⟨⟨⟨lm, wb⟩, ab⟩, cb⟩ := ok
  unfold Spaces.get
  split
  · exact lm
  · exact wb
  · exact ab
  · exact cb

/-! ### Bytes written lane after lane -/

/-- A memory in which some lanes' bytes have been written, one lane after another. -/
def Mem.writeLanes (m : Mem) (a : Lane → Nat) (bs : Lane → List Byte) (ls : List Lane) : Mem :=
  ls.foldl (fun m l => Mem.writeN m (a l) (bs l)) m

section
variable {m : Mem} {a : Lane → Nat} {bs : Lane → List Byte} {ls : List Lane}

theorem Mem.writeLanes_concat (l : Lane) :
    Mem.writeLanes m a bs (ls ++ [l]) = Mem.writeN (Mem.writeLanes m a bs ls) (a l) (bs l) := List.foldl_concat ..

theorem Mem.writeLanes_wf (h : Mem.wf m = true) : Mem.wf (Mem.writeLanes m a bs ls) = true := by
  induction ls using List.reverseRecOn with
  | nil => exact h
  | append_singleton ls l ih => exact Mem.writeLanes_concat l ▸ Mem.writeN_wf _ _ _ ih

theorem Mem.read_writeLanes_out (h : Mem.wf m = true) {p : Nat} (out : ∀ l ∈ ls, ¬ (a l ≤ p ∧ p < a l + (bs l).length)) :
    Mem.read (Mem.writeLanes m a bs ls) p = Mem.read m p := by
  induction ls using List.reverseRecOn with
  | nil => rfl
  | append_singleton ls l ih =>
    rw [Mem.writeLanes_concat, Mem.read_writeN _ _ _ _ (Mem.writeLanes_wf h), if_neg (out l (by simp))]
    exact ih fun k hk => out k (List.mem_append_left _ hk)

/-- Of the lanes that write a byte the highest one leaves it (R231). -/
theorem Mem.read_writeLanes_highest (h : Mem.wf m = true) (order : ls.Pairwise (· < ·)) {l : Lane} (hl : l ∈ ls) {p : Nat}
    (lo : a l ≤ p) (hi : p < a l + (bs l).length) (top : ∀ k ∈ ls, l < k → ¬ (a k ≤ p ∧ p < a k + (bs k).length)) :
    Mem.read (Mem.writeLanes m a bs ls) p = (bs l).getD (p - a l) 0 := by
  induction ls using List.reverseRecOn with
  | nil => exact absurd hl List.not_mem_nil
  | append_singleton ls k ih =>
    obtain ⟨before, -, below⟩ := List.pairwise_append.mp order
    rw [Mem.writeLanes_concat, Mem.read_writeN _ _ _ _ (Mem.writeLanes_wf h)]
    rcases List.mem_append.mp hl with earlier | last
    · rw [if_neg (top k (by simp) (below l earlier k (by simp)))]
      exact ih before earlier fun k hk => top k (List.mem_append_left _ hk)
    · rw [← List.mem_singleton.mp last, if_pos ⟨lo, hi⟩]

end

/-- t differs from s in one space of one core. -/
structure SpaceWritten (s t : State) (core space : Nat) (m : Mem) : Prop where
  here : t.core core = { s.core core with mem := (s.core core).mem.set space m }
  others : ∀ c, c ≠ core → t.core c = s.core c
  frame : ∃ cs, t = { s with cores := cs }

/-- What a store by some lanes leaves. -/
theorem spaceWritten_localWrites (s : State) (core space : Nat) (a : Lane → Nat) (bs : Lane → List Byte) (ls : List Lane) :
    SpaceWritten s (ls.foldl (fun (s : State) l => s.localWrite core space (a l) (bs l)) s) core space
      (Mem.writeLanes ((s.core core).mem.get space) a bs ls) := by
  induction ls using List.reverseRecOn with
  | nil => exact ⟨by simp [Mem.writeLanes], fun _ _ => rfl, s.cores, rfl⟩
  | append_singleton ls l ih =>
    obtain ⟨here, others, cs, frame⟩ := ih
    rw [List.foldl_concat, Mem.writeLanes_concat]
    refine ⟨?_, fun c hc => (State.core_modCore_ne _ _ hc).trans (others c hc), ?_⟩
    · rw [State.localWrite, State.core_modCore_self, here]
      simp
    · rw [frame]
      exact ⟨_, rfl⟩

/-! ### Racing lanes -/

theorem Cluster.race_nil (k : Cluster) (core key space : Nat) : k.race core key space [] = k := by
  simp [Cluster.race]

theorem State.cluster_modCluster (s : State) (n c : Nat) (f : Cluster → Cluster) :
    (s.modCluster n f).cluster c = if c = n then f (s.cluster c) else s.cluster c := by
  split
  · next same =>
    rw [same]
    exact State.cluster_modCluster_self s n f
  · next other => exact AMap.getD_set_ne _ _ _ other

/-- The state in which the operations that the active lanes' stores race with are spoilt (R232). -/
def Env.spoilt (e : Env) (space n : Nat) (ea : Row) : State :=
  if e.engineRace true space n ea = 0 then e.s else e.raceEngines e.s.drawRows.2 space n ea (e.engineRace true space n ea)

section
variable {e : Env} {space n : Nat} {ea : Row}

theorem Env.spoilt_of_no_race (h : e.engineRace true space n ea = 0) : e.spoilt space n ea = e.s := if_pos h

theorem Env.spoilt_frame (e : Env) (space n : Nat) (ea : Row) :
    ∃ cl fr, e.spoilt space n ea = { e.s with clusters := cl, free := fr } := by
  unfold Env.spoilt Env.raceEngines
  split
  · exact ⟨_, _, rfl⟩
  · cases e.sig.quire with
    | none => exact ⟨_, _, rfl⟩
    | some key => exact ⟨_, _, rfl⟩

theorem Env.core_spoilt (e : Env) (space n : Nat) (ea : Row) (c : Nat) : (e.spoilt space n ea).core c = e.s.core c := by
  obtain ⟨cl, fr, frame⟩ := e.spoilt_frame space n ea
  rw [frame]
  rfl

theorem Env.cluster_spoilt {key : Nat} (hkey : e.sig.quire = some key) (c : Nat) : (e.spoilt space n ea).cluster c =
    if c = e.sel.core / 12 then
      (e.s.cluster c).race e.sel.core key space ((lanesOf (e.engineRace true space n ea)).map fun l => (ea[l].toNat, n))
    else e.s.cluster c := by
  by_cases none_ : e.engineRace true space n ea = 0
  · have no_lanes : lanesOf (0 : Mask) = [] := by simp [lanesOf]
    rw [Env.spoilt_of_no_race none_, none_, no_lanes, List.map_nil, Cluster.race_nil, ite_self]
  · rw [Env.spoilt, if_neg none_, Env.raceEngines, hkey]
    exact State.cluster_modCluster e.s.drawRows.2 _ c _

/-- n bytes for each lane; undefined ones in the lanes that race. -/
theorem Env.storeData_spec (e : Env) (d : Operand) (space n : Nat) (ea : Row) : ∃ x : Lane → List Byte,
    e.storeData d space n ea = (x, e.spoilt space n ea) ∧ (∀ l, (x l).length = n) ∧
    ∀ l : Lane, ¬ (e.engineRace true space n ea).getLsbD l.val = true → x l = e.dataBytes d n l := by
  have len : ∀ l, (e.dataBytes d n l).length = n := fun l => bytesOfNat_length ..
  unfold Env.storeData Env.spoilt
  by_cases none_ : e.engineRace true space n ea = 0
  · simp only [if_pos none_]
    exact ⟨_, rfl, len, fun _ _ => rfl⟩
  · simp only [if_neg none_]
    refine ⟨_, rfl, fun l => ?_, fun l quiet => if_neg quiet⟩
    split
    · exact bytesOfNat_length ..
    · exact len l

end

section
variable {e : Env} {o : Ops2} {imm : BitVec 32} {m : LMod} (hidx : e.indexFault [(o.d, m.wide)] = none)
include hidx

theorem localStore_of_fault {x : Trap} (h : e.localFault m.space.toNat m.bytes (e.addrs o.a imm) = some x) :
    localStore o imm m e = .trap x := by
  simp [localStore, Env.indexed_none hidx, h]

/-- A store that passes the checks writes n bytes for each active lane: the operand's, but in lanes that race. -/
theorem localStore_of_passed (h : e.localFault m.space.toNat m.bytes (e.addrs o.a imm) = none) :
    ∃ (x : Lane → List Byte) (t : State), localStore o imm m e = .done t ∧
      SpaceWritten (e.spoilt m.space.toNat m.bytes (e.addrs o.a imm)) t e.sel.core m.space.toNat
        (Mem.writeLanes (e.core.mem.get m.space.toNat)
          (fun l => (e.reserved m.space.toNat).1 + ((e.addrs o.a imm)[l]).toNat) x (lanesOf e.act)) ∧
      (∀ l, (x l).length = m.bytes) ∧
      ∀ l : Lane, ¬ (e.engineRace true m.space.toNat m.bytes (e.addrs o.a imm)).getLsbD l.val = true →
        x l = e.dataBytes o.d m.bytes l := by
  obtain ⟨x, data, len, value⟩ := e.storeData_spec o.d m.space.toNat m.bytes (e.addrs o.a imm)
  refine ⟨x, (lanesOf e.act).foldl (fun (s : State) (l : Lane) => s.localWrite e.sel.core m.space.toNat
    ((e.reserved m.space.toNat).1 + ((e.addrs o.a imm)[l]).toNat) (x l)) (e.spoilt m.space.toNat m.bytes (e.addrs o.a imm)),
    ?_, ?_, len, value⟩
  · simp only [localStore, Env.indexed_none hidx, h, data]
  · rw [Env.core, ← e.core_spoilt m.space.toNat m.bytes (e.addrs o.a imm)]
    exact spaceWritten_localWrites ..

end

end Sys2Proof.Machine

namespace Sys2Proof.Claim
open Machine

set_option Elab.async false

/-- Settles O24: the checks come first; then the lanes' bytes are written in ascending order. -/
theorem localStores : Obligations.LocalStores := by
  intro s h o imm m e I memOk hsize n ea space aligned inside first within races on hok hidx
  have addr : ∀ l : Lane, (e.addrs o.a imm)[l] = ea l := e.addrs_getElem o imm
  have rows : (fun l : Lane => (e.addrs o.a imm)[l]) = ea := funext addr
  have race : ∀ l : Lane, (e.engineRace true space n (e.addrs o.a imm)).getLsbD l.val = true ↔ races l := fun l => by
    have touched := engineRace_iff (e := e) (store := true) (space := space) (n := n) (ea := e.addrs o.a imm) (l := l)
    rwa [addr] at touched
  have follows : ∀ i, exec i e.s = .next (e.finish (localStore o imm m e)) → on i := by
    intro i hx
    obtain ⟨misaligned, outside⟩ := faultsAt_of_localFault fun x fault => raises_of_finish hx (localStore_of_fault hidx fault)
    rw [rows] at misaligned outside
    simp only [addr] at misaligned outside
    refine ⟨misaligned, outside, fun passed => ?_⟩
    obtain ⟨x, t, done, ⟨here, others, cs, frame⟩, len, value⟩ :=
      localStore_of_passed hidx (localFault_eq_none fun l hl => by rw [addr]; exact passed l hl)
    simp only [addr] at here
    rw [e.core_spoilt] at here
    have wf : Mem.wf (e.core.mem.get space) = true := State.wf_space_of_memOk (I.s_eq ▸ memOk) e.sel.core space
    have stored : (t.core e.sel.core).mem.get space = Mem.writeLanes (e.core.mem.get space) first x (lanesOf e.act) := by
      rw [here]
      exact Spaces.get_set_self ..
    have covers : ∀ l a, (first l ≤ a ∧ a < first l + (x l).length) ↔ within l a := fun l a => by
      rw [len]
      rfl
    refine ⟨t, retires_of_finish hx done, fun a out => ?_, fun l j active quiet hj top => ?_, fun k hk ne => ?_, ?_, fun c hc => ?_, ?_,
      fun quiet => ?_, fun key hkey => ?_⟩
    · rw [stored]
      exact Mem.read_writeLanes_out wf fun l hl => (covers l a).not.mpr (out l (mem_lanesOf.mp hl))
    · rw [stored, Mem.read_writeLanes_highest wf (lanesOf_pairwise_lt e.act) (mem_lanesOf.mpr active) (Nat.le_add_right _ j)
        (by rw [len]; exact Nat.add_lt_add_left hj _) fun k hk above => (covers k _).not.mpr (top k above (mem_lanesOf.mp hk)),
        value l (mt (race l).mp quiet), Nat.add_sub_cancel_left]
      have bytes : e.dataBytes o.d m.bytes l = (List.range n).map (storeByte e o.d l) :=
        Env.dataBytes_eq_map e o.d (storeSize_of_le hsize).1 l
      simp [bytes, hj]
    · rw [here]
      exact Spaces.get_set_ne _ _ hk m.space.isLt ne
    · rw [here]
      rfl
    · rw [others c hc, e.core_spoilt]
    · obtain ⟨cl, fr, spoilt⟩ := e.spoilt_frame space n (e.addrs o.a imm)
      rw [frame, show e.spoilt m.space.toNat m.bytes (e.addrs o.a imm) = _ from spoilt]
    · have unspoilt : e.spoilt m.space.toNat m.bytes (e.addrs o.a imm) = e.s :=
        Env.spoilt_of_no_race (mask_eq_zero_iff.mpr fun l => mt (race l).mp (quiet l))
      rw [frame, unspoilt]
      exact ⟨rfl, rfl⟩
    · refine ⟨(lanesOf (e.engineRace true space n (e.addrs o.a imm))).map fun l => ((ea l).toNat, n), fun r => ?_, fun c => ?_⟩
      · simp only [List.mem_map, mem_lanesOf, race, eq_comm]
      · have clusters := e.cluster_spoilt (space := space) (n := n) (ea := e.addrs o.a imm) hkey c
        simp only [addr] at clusters
        rw [frame]
        exact clusters
  exact ⟨follows _ (I.exec_fields rfl rfl hok), follows _ (I.exec_fields rfl rfl hok)⟩

end Sys2Proof.Claim
end

