-- ==== Sys2Proof/Proofs/LocalAtomics.lean ====
section
/-!
ATOML: one event of the active lanes, each on what the lane before it left (R236, R237), and O25.
-/
namespace Sys2Proof.Machine

set_option Elab.async false

/-! ### Lanes in turn -/

section
variable {mem : Mem → Lane → Mem} {old : Mem → Lane → Word64} {ls : List Lane}

/-- A lane acts on a memory, and leaves in its place of a row what it makes of the memory that it found. -/
def laneTurn (mem : Mem → Lane → Mem) (old : Mem → Lane → Word64) (a : Mem × Row) (l : Lane) : Mem × Row :=
  (mem a.1 l, a.2.set l.val (old a.1 l) l.isLt)

theorem foldl_laneTurn (distinct : ls.Nodup) (m : Mem) (r : Row) :
    (ls.foldl (laneTurn mem old) (m, r)).1 = ls.foldl mem m ∧
    ∀ (i : Nat) (l : Lane), ls[i]? = some l → (ls.foldl (laneTurn mem old) (m, r)).2[l] = old ((ls.take i).foldl mem m) l := by
  induction ls using List.reverseRecOn with
  | nil => exact ⟨rfl, fun i l hl => by simp at hl⟩
  | append_singleton ls k ih =>
    obtain ⟨before, -, apart⟩ := List.nodup_append.mp distinct
    obtain ⟨left, row⟩ := ih before
    rw [List.foldl_concat, List.foldl_concat]
    generalize ls.foldl (laneTurn mem old) (m, r) = z at left row ⊢
    unfold laneTurn
    refine ⟨by rw [left], fun i l hl => ?_⟩
    rw [left]
    by_cases hi : i < ls.length
    · rw [List.getElem?_append_left hi] at hl
      have ne : k.val ≠ l.val := fun same => apart l (List.mem_of_getElem? hl) k (by simp) (Fin.ext same.symm)
      rw [List.take_append_of_le_length (Nat.le_of_lt hi), Fin.getElem_fin, Vector.getElem_set_ne _ _ ne]
      exact row i l hl
    · obtain ⟨last, rfl⟩ : i = ls.length ∧ k = l := by
        rw [List.getElem?_append_right (Nat.le_of_not_lt hi)] at hl
        obtain ⟨h0, same⟩ := List.getElem?_eq_some_iff.mp hl
        exact ⟨by simp at h0; omega, by simpa using same⟩
      rw [last, List.take_left, Fin.getElem_fin, Vector.getElem_set_self]

end

/-! ### The update of one lane -/

/-- The value that a lane of ATOML finds and the bytes that it leaves; those of a lane that races with an engine are undefined
(R232). -/
def Env.atomOld (e : Env) (o : Ops4) (m : AtMod) (v : Lane → Nat) (lm : Mem) (l : Lane) : Nat :=
  let ea := e.raw o.a
  if (e.engineRace true 0 m.bytes ea).getLsbD l.val then v l % 2 ^ (8 * m.bytes)
  else natOfBytes (Mem.readN lm ((e.reserved 0).1 + ea[l].toNat) m.bytes)
@[inherit_doc Env.atomOld] def Env.atomLeft (e : Env) (o : Ops4) (m : AtMod) (v : Lane → Nat) (lm : Mem) (l : Lane) : Mem :=
  let ea := e.raw o.a
  Mem.writeN lm ((e.reserved 0).1 + ea[l].toNat) (bytesOfNat m.bytes
    (if (e.engineRace true 0 m.bytes ea).getLsbD l.val then v l / 2 ^ 64
      else rmwNew m.opc.toNat m.bytes m.signed (natOfBytes (Mem.readN lm ((e.reserved 0).1 + ea[l].toNat) m.bytes))
        ((e.src m.ty o.b)[l]).toNat ((e.src m.ty o.c)[l]).toNat))

/-- The event: the lanes of a mask in ascending order, and the old values in a row. -/
def Env.atomLanes (e : Env) (o : Ops4) (m : AtMod) (v : Lane → Nat) : Mem × Row :=
  (lanesOf e.act).foldl (laneTurn (e.atomLeft o m v) fun lm l => BitVec.ofNat 64 (e.atomOld o m v lm l)) (e.core.mem.lm, rowZero)

end Sys2Proof.Machine

namespace Sys2Proof.Claim
open Machine

set_option Elab.async false

section
variable {s : State} {h : Hdr} {o : Ops4} {m : AtMod} {e : Env} (I : Issues s h o.list e)
include I

/-- ATOML makes its checks, and is one event where they pass. -/
theorem atoml_follows (hok : e.ops4Ok o atomDst addrPos (atomB m) (if m.isCas then srcPos else unused) = true)
    (hidx : e.indexFault [(o.d, false), (o.b, false), (o.c, false)] = none) :
    (∀ x, e.localFault 0 m.bytes (e.raw o.a) = some x → Raises (.atoml h o m) e x) ∧
    (e.localFault 0 m.bytes (e.raw o.a) = none → ∃ v : Lane → Nat, Retires (.atoml h o m) e
      (e.write ((e.spoilt 0 m.bytes (e.raw o.a)).modCore e.sel.core fun k =>
        { k with mem := { k.mem with lm := (e.atomLanes o m v).1 } }) o.d (e.atomLanes o m v).2)) := by
  have hx := I.exec_fields (i := .atoml h o m) (x := execAtoml h o m) rfl (by unfold execAtoml; exact rfl) hok
  rw [Env.indexed_none hidx] at hx
  refine ⟨fun x fault => raises_of_finish hx (by simp only [fault]), fun passed => ?_⟩
  simp only [passed, apply_ite Prod.fst, apply_ite Prod.snd] at hx
  exact ⟨fun l => (if e.engineRace true 0 m.bytes (e.raw o.a) = 0 then fun _ => 0 else e.s.drawRows.1) l, hx⟩

end

/-- Settles O25: each lane acts on what the lanes before it left, with the operation of R236. -/
theorem localAtomics : Obligations.LocalAtomics := by
  intro s h o m e I n w ea b c first less new lanes races cas hok hidx
  have isCas : cas = if m.isCas then srcPos else unused := if_congr beq_iff_eq.symm rfl rfl
  rw [isCas] at hok
  obtain ⟨raises, passes⟩ := atoml_follows I hok hidx
  obtain ⟨misaligned, outside⟩ := faultsAt_of_localFault raises
  refine ⟨misaligned, outside, fun passed => ?_⟩
  obtain ⟨v, done⟩ := passes (localFault_eq_none passed)
  obtain ⟨left, olds⟩ := foldl_laneTurn (mem := e.atomLeft o m v) (old := fun lm l => BitVec.ofNat 64 (e.atomOld o m v lm l))
    ((lanesOf_pairwise_lt e.act).imp ne_of_lt) e.core.mem.lm rowZero
  have race : ∀ l : Lane, (e.engineRace true 0 m.bytes (e.raw o.a)).getLsbD l.val = true ↔ Active e l ∧ races l :=
    fun _ => engineRace_iff
  have update : ∀ x l, rmwNew m.opc.toNat n m.signed x ((e.src m.ty o.b)[l]).toNat ((e.src m.ty o.c)[l]).toNat = new x l := by
    intro x l
    unfold rmwNew new less b c w
    generalize m.opc.toNat = k
    match k with
    | 1 | 2 => cases m.signed <;> simp
    | 0 | 3 | 4 | 5 | 6 | 7 | _ + 8 => rfl
  refine ⟨fun i => (lanes.take i).foldl (e.atomLeft o m v) e.core.mem.lm, (e.atomLanes o m v).2, e.spoilt 0 m.bytes (e.raw o.a), rfl,
    fun i l hl => ?_, ?_, fun quiet => ?_, ?_⟩
  · have next : (lanes.take (i + 1)).foldl (e.atomLeft o m v) e.core.mem.lm =
        e.atomLeft o m v ((lanes.take i).foldl (e.atomLeft o m v) e.core.mem.lm) l := by
      rw [List.take_add_one, hl, Option.toList_some, List.foldl_concat]
    refine ⟨fun quiet => ?_, fun racing => ⟨_, bytesOfNat_length .., next⟩⟩
    have calm := mt (race l).mp fun touched => quiet touched.2
    refine ⟨(olds i l hl).trans (congrArg _ (if_neg calm)), next.trans ?_⟩
    rw [Env.atomLeft, if_neg calm]
    exact congrArg (fun y => Mem.writeN _ _ (bytesOfNat n y)) (update _ l)
  · obtain ⟨cl, fr, frame⟩ := e.spoilt_frame 0 m.bytes (e.raw o.a)
    rw [frame]
  · exact Env.spoilt_of_no_race (mask_eq_zero_iff.mpr fun l touched => quiet l ((race l).mp touched).1 ((race l).mp touched).2)
  · dsimp only
    rw [List.take_length, ← left]
    exact done

end Sys2Proof.Claim
end

