-- ==== Sys2Proof/Proofs/ClusterStreams.lean ====
section
/-!
SPUSH and SPOP: the endpoint of a stream, its FIFO at the receiving quire, and O26 (R238 to R241).
-/
namespace Sys2Proof.Machine

set_option Elab.async false

/-! ### The endpoint -/

section
variable {e : Env} {a : Operand}

theorem Env.endpoint_of_large (h : 11 < (e.uni a).toNat) : e.endpoint a = .error ⟨0x02, 0, none⟩ := if_pos h

theorem Env.endpoint_of_no_quire (h : (e.uni a).toNat ≤ 11) (hq : e.quire = none) : e.endpoint a = .error ⟨0x07, 0, none⟩ := by
  simp only [Env.endpoint, if_neg (Nat.not_lt.mpr h), hq]
  rfl

theorem Env.endpoint_of_not_mate {q : Quire} (h : (e.uni a).toNat ≤ 11) (hq : e.quire = some q)
    (other : (e.uni a).toNat = q.pos ∨ q.gsize ≤ (e.uni a).toNat) : e.endpoint a = .error ⟨0x07, 0, none⟩ := by
  simp only [Env.endpoint, if_neg (Nat.not_lt.mpr h), hq, if_pos other]
  rfl

theorem Env.endpoint_of_mate {q : Quire} (h : (e.uni a).toNat ≤ 11) (hq : e.quire = some q)
    (other : (e.uni a).toNat ≠ q.pos) (inside : (e.uni a).toNat < q.gsize) : e.endpoint a = .ok ((e.uni a).toNat, q) := by
  have mate : ¬ ((e.uni a).toNat = q.pos ∨ q.gsize ≤ (e.uni a).toNat) := not_or.mpr ⟨other, Nat.not_le.mpr inside⟩
  simp only [Env.endpoint, if_neg (Nat.not_lt.mpr h), hq, if_neg mate]

end

end Sys2Proof.Machine

namespace Sys2Proof.Claim
open Machine

set_option Elab.async false

section
variable {s : State} {h : Hdr} {o : Ops4} {e : Env} (I : Issues s h o.list e)
include I

/-- What a push of the active lanes' values does at an endpoint of the gang. -/
theorem spush_follows (hok : e.ops4Ok o unused srcPos endpointPos unused = true) (hidx : e.indexFault [(o.a, false)] = none) :
    let entry : Row := Vector.ofFn fun l : Lane => if e.act.getLsbD l.val then (e.raw o.a)[l] else 0
    (∀ x, e.endpoint o.b = .error x → Raises (.spush h o) e x) ∧
    ∀ n q, e.endpoint o.b = .ok (n, q) →
      (e.s.mate e.sig.ctx q n = none → Retires (.spush h o) e e.s) ∧
      ∀ c key r, e.s.mate e.sig.ctx q n = some (c, key) → e.s.quire? c key = some r →
        let fifo := AMap.getD r.fifos q.pos []
        let p : PartSpec := { reason := 0x0A, evkey := BitVec.ofNat 64 n, resume := e.next, wait := .push entry }
        (fifo.length < 4 → e.streamWaits n 0 = false → Retires (.spush h o) e (e.s.modQuire c key fun z =>
          { z with fifos := AMap.set z.fifos q.pos (fifo ++ [entry]) })) ∧
        (4 ≤ fifo.length ∨ e.streamWaits n 0 = true → (∃ t, e.part e.s p = .ok t) → Parts (.spush h o) e e.s p) := by
  have hx := I.exec_fields (i := .spush h o) (x := execSpush h o) rfl rfl hok
  refine ⟨fun x bad => raises_of_finish hx (by simp only [bad]), fun n q mate => ?_⟩
  simp only [mate, Env.indexed_none hidx] at hx
  refine ⟨fun closed => retires_of_finish hx (by simp only [closed]), fun c key r receiver hr => ?_⟩
  simp only [receiver, hr] at hx
  refine ⟨fun room free => retires_of_finish hx (if_neg ?_), fun blocked => parts_of_finish hx (if_pos blocked)⟩
  rw [free]
  exact not_or.mpr ⟨Nat.not_le.mpr room, Bool.false_ne_true⟩

/-- What a pop does at an endpoint of the gang. -/
theorem spop_follows (hok : e.ops4Ok o dstPos endpointPos unused unused = true) (hidx : e.indexFault [(o.d, false)] = none) :
    (∀ x, e.endpoint o.a = .error x → Raises (.spop h o) e x) ∧
    ∀ n q, e.endpoint o.a = .ok (n, q) →
      let p : PartSpec := { reason := 0x0A, evkey := BitVec.ofNat 64 n, evaux := 1, resume := e.next, wait := .pop (e.dest o.d) }
      (AMap.getD q.fifos n [] = [] → e.s.mate e.sig.ctx q n = none → Raises (.spop h o) e ⟨0x07, 0, none⟩) ∧
      (∀ key x rest, AMap.getD q.fifos n [] = x :: rest → e.streamWaits n 1 = false → e.sig.quire = some key →
        Retires (.spop h o) e (e.write (e.s.modQuire e.sel.core key fun z =>
          { z with fifos := AMap.set z.fifos n rest }) o.d x)) ∧
      (AMap.getD q.fifos n [] = [] ∧ e.s.mate e.sig.ctx q n ≠ none ∨ AMap.getD q.fifos n [] ≠ [] ∧ e.streamWaits n 1 = true →
        (∃ t, e.part e.s p = .ok t) → Parts (.spop h o) e e.s p) := by
  have hx := I.exec_fields (i := .spop h o) (x := execSpop h o) rfl rfl hok
  refine ⟨fun x bad => raises_of_finish hx (by simp only [bad]), fun n q mate => ?_⟩
  simp only [mate, Env.indexed_none hidx] at hx
  refine ⟨fun empty closed => raises_of_finish hx ?_, fun key x rest first free hkey => retires_of_finish hx ?_, ?_⟩
  · simp only [empty, closed]
    rfl
  · simp only [first, free, hkey]
    rfl
  · rintro (⟨empty, open_⟩ | ⟨entries, waiting⟩)
    · refine parts_of_finish hx ?_
      simp only [empty]
      exact if_neg (by simpa using open_)
    · obtain ⟨x, rest, first⟩ := List.exists_cons_of_ne_nil entries
      refine parts_of_finish hx ?_
      simp only [first, waiting]
      rfl

end

/-- Settles O26: an endpoint that is no mate of the gang raises its fault; at any other the FIFO decides. -/
theorem clusterStreams : Obligations.ClusterStreams := by
  intro s h o e I act ends
  have ends_of : ∀ (a : Operand) (i : Instr) (next : Quire → Prop), (∀ x, e.endpoint a = .error x → Raises i e x) →
      (∀ q, e.endpoint a = .ok ((e.uni a).toNat, q) → next q) → ends a i next := fun a i next bad good =>
    ⟨fun large => bad _ (Env.endpoint_of_large large), fun small hq => bad _ (Env.endpoint_of_no_quire small hq),
      fun q small hq => ⟨fun other => bad _ (Env.endpoint_of_not_mate small hq other),
        fun other inside => good q (Env.endpoint_of_mate small hq other inside)⟩⟩
  refine ⟨fun hok hidx => ?_, fun hok hidx => ?_⟩
  · obtain ⟨bad, good⟩ := spush_follows I hok hidx
    exact ends_of _ _ _ bad fun q mate => good _ q mate
  · obtain ⟨bad, good⟩ := spop_follows I hok hidx
    exact ends_of _ _ _ bad fun q mate => good _ q mate

end Sys2Proof.Claim
end

