-- ==== Sys2Proof/Proofs/ResetState.lean ====
section
/-!
The machine after reset (R440), and O52.
-/
namespace Sys2Proof.Machine

set_option Elab.async false

theorem State.part_reset (st slot : Nat) : State.reset.part st slot = Part.init := by
  show (Vector.replicate 8 Part.init)[slot]?.getD Part.init = Part.init
  rw [Vector.getElem?_replicate]
  split <;> rfl

theorem State.reg_reset (ctx num : Nat) : State.reset.reg ctx num = regInit ctx num := rfl

end Sys2Proof.Machine

namespace Sys2Proof.Claim
open Machine

set_option Elab.async false

/-- Settles O52: every table of the machine after reset is empty, so each entry reads its value after reset. -/
theorem resetState : Obligations.ResetState := by
  have part := State.part_reset
  exact ⟨rfl, rfl, rfl, rfl, rfl, fun _ => rfl, fun _ => rfl, fun _ => ⟨rfl, rfl⟩,
    fun n p => ⟨rfl, congrArg Part.st (part n p), congrArg Part.reg (part n p)⟩,
    fun c n id feat => by rw [State.reg_reset, regInit, if_neg id, if_neg feat], fun _ => rfl, rfl, rfl, rfl, rfl, rfl⟩

end Sys2Proof.Claim
end

