-- ==== Sys2Proof/Proofs/AccessChecks.lean ====
section
/-!
The checks on a global access in their order, each over every lane before the next (R243, R246 to R248, R252, R275), and O27.
-/
namespace Sys2Proof.Machine

set_option Elab.async false

section
variable {ws : List Want} {cause : Nat} {p : Want → Bool}

theorem firstBad_of_forall (h : ∀ w ∈ ws, p w = true) : firstBad ws cause p = none := by
  have none_ : ws.find? (fun w => !p w) = none := List.find?_eq_none.mpr fun w hw => by simp [h w hw]
  rw [firstBad, none_]

/-- The first access that a check refuses names the fault. -/
theorem firstBad_of_exists {ok : Want → Prop} (hp : ∀ w, p w = true ↔ ok w) (h : ∃ w ∈ ws, ¬ ok w) :
    ∃ (a : List Want) (w : Want) (b : List Want), ws = a ++ w :: b ∧ (∀ x ∈ a, ok x) ∧ ¬ ok w ∧
      firstBad ws cause p = some ⟨cause, w.va, none⟩ := by
  obtain ⟨z, hz, bad⟩ := h
  obtain ⟨w, found⟩ := Option.isSome_iff_exists.mp
    (List.find?_isSome.mpr ⟨z, hz, by simpa using mt (hp z).mp bad⟩ : (ws.find? fun w => !p w).isSome)
  obtain ⟨hw, a, b, split_, before⟩ := List.find?_eq_some_iff_append.mp found
  refine ⟨a, w, b, split_, fun x hx => (hp x).mp (by simpa using before x hx), fun h => ?_, ?_⟩
  · simp [(hp w).mpr h] at hw
  · rw [firstBad, found]

end

/-! ### The checks one by one -/

section
variable (s : State) (ctx : Nat)

/-- A check of the page, passed by an access that no page maps. -/
def State.onLeaf (p : Leaf → Bool) (w : Want) : Bool :=
  match s.walk ctx w.va.toNat with
  | some l => p l
  | none => true

theorem State.onLeaf_iff {p : Leaf → Bool} {q : Leaf → Prop} (hq : ∀ l, p l = true ↔ q l) (w : Want) :
    s.onLeaf ctx p w = true ↔ ∀ l, s.walk ctx w.va.toNat = some l → q l := by
  unfold State.onLeaf
  split
  · next l hl => simp [hl, hq]
  · next hl => simp [hl]

/-- The page of an access is away. -/
def State.awayAt (w : Want) : Bool :=
  match s.walk ctx w.va.toNat with
  | some l => !l.res
  | none => false

theorem State.awayAt_iff (w : Want) : s.awayAt ctx w = true ↔ ∃ l, s.walk ctx w.va.toNat = some l ∧ l.res = false := by
  unfold State.awayAt
  split
  · next l hl => simp [hl]
  · next hl => simp [hl]

/-- Memory stands at the address of an access. -/
def State.placedAt (w : Want) : Bool :=
  match s.walk ctx w.va.toNat with
  | some l => (s.placeOf ctx (l.addr + w.va.toNat % l.size)).isSome
  | none => false

theorem State.placedAt_iff (w : Want) : s.placedAt ctx w = true ↔
    ∃ p l, s.walk ctx w.va.toNat = some l ∧ s.placeOf ctx (l.addr + w.va.toNat % l.size) = some p := by
  unfold State.placedAt
  split
  · next l hl => simp [hl, Option.isSome_iff_exists]
  · next hl => simp [hl]

/-- The place of an access. -/
def State.wantPlace (w : Want) : Place :=
  match s.walk ctx w.va.toNat with
  | some l => (s.placeOf ctx (l.addr + w.va.toNat % l.size)).getD (.hbm 0)
  | none => .hbm 0

theorem State.wantPlace_eq {w : Want} {l : Leaf} {p : Place} (hl : s.walk ctx w.va.toNat = some l)
    (hp : s.placeOf ctx (l.addr + w.va.toNat % l.size) = some p) : s.wantPlace ctx w = p := by
  simp only [State.wantPlace, hl, hp, Option.getD_some]

/-- The checks of R252 that come before it matters whether a page is resident, in their order, with their causes. -/
def State.pageChecks (n : Need) (cell : Leaf → Bool) : List (Nat × (Want → Bool)) :=
  [(cMISALIGN, fun w => w.va.toNat % w.size == 0), (cACCESS, fun w => vaOk w.va.toNat w.size),
    (cPAGE, fun w => (s.walk ctx w.va.toNat).isSome), (cACCESS, s.onLeaf ctx n.perm),
    (cACCESS, s.onLeaf ctx fun l => !(n.noSync && l.sync)), (cCLASP, s.onLeaf ctx cell), (cACCESS, s.onLeaf ctx n.windowOk)]

/-- Pages, each named once. -/
def distinctPages (ls : List Leaf) : List Leaf :=
  ls.foldl (fun acc l => if acc.any fun m => m.va == l.va then acc else acc ++ [l]) []

/-- The lowest address of some accesses. -/
def lowestVa (w : Want) (ws : List Want) : Nat := ws.foldl (fun a w => min a w.va.toNat) w.va.toNat

/-- What follows those checks: the pages that are away, else the places. -/
def State.reachPlaces (ws : List Want) : Reach :=
  match ws.filter (s.awayAt ctx) with
  | w :: r => .absent (distinctPages ((ws.filter (s.awayAt ctx)).filterMap fun w => s.walk ctx w.va.toNat)) (lowestVa w r)
  | [] =>
    match firstBad ws cACCESS (s.placedAt ctx) with
    | some t => .fail t
    | none => .ok (ws.map (s.wantPlace ctx))

end

/-- The first of some checks that fails, else what follows. -/
def runChecks (ws : List Want) (next : Reach) : List (Nat × (Want → Bool)) → Reach
  | [] => next
  | c :: cs => match firstBad ws c.1 c.2 with
    | some t => .fail t
    | none => runChecks ws next cs

theorem State.reach_eq_runChecks (s : State) (ctx : Nat) (n : Need) (cell : Leaf → Bool) (ws : List Want) :
    s.reach ctx n cell ws = runChecks ws (s.reachPlaces ctx ws) (s.pageChecks ctx n cell) := rfl


/-- Checks that every access passes. -/
def Passed (ws : List Want) (cs : List (Nat × (Want → Bool))) : Prop := ∀ w ∈ ws, cs.Forall fun c => c.2 w = true

theorem runChecks_of_passed {ws : List Want} {cs : List (Nat × (Want → Bool))} (h : Passed ws cs) (next : Reach)
    (ds : List (Nat × (Want → Bool))) : runChecks ws next (cs ++ ds) = runChecks ws next ds := by
  induction cs with
  | nil => rfl
  | cons c cs ih =>
    have passed : ∀ w ∈ ws, c.2 w = true ∧ cs.Forall fun c => c.2 w = true := fun w hw => (List.forall_cons ..).mp (h w hw)
    rw [List.cons_append, runChecks, firstBad_of_forall fun w hw => (passed w hw).1]
    exact ih fun w hw => (passed w hw).2

/-- The first access that fails a check behind checks that all pass. -/
theorem runChecks_of_exists {ws : List Want} {cs : List (Nat × (Want → Bool))} (h : Passed ws cs) (next : Reach)
    {c : Nat × (Want → Bool)} {ok : Want → Prop} (hok : ∀ w, c.2 w = true ↔ ok w) (ds : List (Nat × (Want → Bool)))
    (bad : ∃ w ∈ ws, ¬ ok w) :
    ∃ (a : List Want) (w : Want) (b : List Want), ws = a ++ w :: b ∧ (∀ x ∈ a, ok x) ∧ ¬ ok w ∧
      runChecks ws next (cs ++ c :: ds) = .fail ⟨c.1, w.va, none⟩ := by
  obtain ⟨a, w, b, split_, before, refused, fault⟩ := firstBad_of_exists (cause := c.1) hok bad
  refine ⟨a, w, b, split_, before, refused, ?_⟩
  rw [runChecks_of_passed h, runChecks, fault]

/-- What checks ask, one by one. -/
def Asks (cs : List (Nat × (Want → Bool))) (oks : List (Want → Prop)) : Prop :=
  List.Forall₂ (fun c ok => ∀ w, c.2 w = true ↔ ok w) cs oks

/-- The first k checks pass where every access is as they ask. -/
theorem Asks.passed_take {ws : List Want} {cs : List (Nat × (Want → Bool))} {oks : List (Want → Prop)} (h : Asks cs oks) (k : Nat)
    (hw : ∀ w ∈ ws, (oks.take k).Forall (· w)) : Passed ws (cs.take k) := by
  intro w hmem
  have same : List.Forall₂ (fun c ok => c.2 w = true ↔ ok w) (cs.take k) (oks.take k) :=
    (List.forall₂_take k h).imp fun _ _ iff => iff w
  specialize hw w hmem
  generalize cs.take k = ds at same ⊢
  generalize oks.take k = ps at same hw
  induction same with
  | nil => trivial
  | cons iff _ ih =>
    rw [List.forall_cons] at hw ⊢
    exact hw.imp iff.mpr ih

/-! ### What the checks ask, in the words of R252 -/

section
variable {s : State} {ctx : Nat} {w : Want}

theorem vaOk_iff (va size : Nat) : vaOk va size = true ↔ va + size ≤ 2 ^ 54 := by simp [vaOk]

theorem Need.perm_iff (n : Need) (l : Leaf) : n.perm l = true ↔ (n.r → l.r = true) ∧ (n.w → l.w = true) ∧ (n.x → l.x = true) := by
  simp only [Need.perm, Bool.and_eq_true, Bool.or_eq_true, Bool.not_eq_true', and_assoc, ← Bool.not_eq_true, imp_iff_not_or]

theorem Need.noSync_iff (n : Need) (l : Leaf) : (!(n.noSync && l.sync)) = true ↔ (n.noSync = true → l.sync = false) := by
  cases n.noSync <;> simp

theorem Need.windowOk_iff (n : Need) (l : Leaf) : n.windowOk l = true ↔
    (l.res = true → (winOf l.addr = .host → n.noHost = false) ∧ (winOf l.addr = .peer → n.noPeer = false)) := by
  unfold Need.windowOk
  cases l.res with
  | false => simp
  | true => cases winOf l.addr <;> simp

end

/-! ### The pages that are away -/

theorem lowestVa_le (w : Want) (ws : List Want) : ∀ x ∈ w :: ws, lowestVa w ws ≤ x.va.toNat := by
  induction ws using List.reverseRecOn with
  | nil => simp [lowestVa]
  | append_singleton ws y ih =>
    intro x hx
    have step : lowestVa w (ws ++ [y]) = min (lowestVa w ws) y.va.toNat := by simp [lowestVa]
    rw [step]
    rcases List.mem_append.mp (show x ∈ (w :: ws) ++ [y] from hx) with hx | hx
    · exact (Nat.min_le_left _ _).trans (ih x hx)
    · rw [List.mem_singleton.mp hx]
      exact Nat.min_le_right _ _

theorem exists_lowestVa (w : Want) (ws : List Want) : ∃ x ∈ w :: ws, x.va.toNat = lowestVa w ws := by
  induction ws using List.reverseRecOn with
  | nil => exact ⟨w, List.mem_singleton_self w, rfl⟩
  | append_singleton ws y ih =>
    have step : lowestVa w (ws ++ [y]) = min (lowestVa w ws) y.va.toNat := by simp [lowestVa]
    obtain ⟨x, hx, hv⟩ := ih
    rw [step]
    rcases Nat.le_total (lowestVa w ws) y.va.toNat with h | h
    · exact ⟨x, List.mem_append_left [y] hx, by rw [hv, Nat.min_eq_left h]⟩
    · exact ⟨y, by simp, (Nat.min_eq_right h).symm⟩

theorem exists_mem_distinctPages {ls : List Leaf} : ∀ l ∈ ls, ∃ m ∈ distinctPages ls, m.va = l.va := by
  induction ls using List.reverseRecOn with
  | nil => simp
  | append_singleton ls y ih =>
    have step : distinctPages (ls ++ [y]) =
        if (distinctPages ls).any fun m => m.va == y.va then distinctPages ls else distinctPages ls ++ [y] := by
      simp [distinctPages]
    rw [step]
    intro l hl
    rcases List.mem_append.mp hl with hl | hl
    · obtain ⟨m, hm, hv⟩ := ih l hl
      refine ⟨m, ?_, hv⟩
      split
      · exact hm
      · exact List.mem_append_left _ hm
    · rw [List.mem_singleton.mp hl]
      split
      · next named => simpa using named
      · exact ⟨y, by simp, rfl⟩

section
variable {s : State} {ctx : Nat} {ws : List Want}

theorem State.reachPlaces_of_away (h : ∃ w ∈ ws, ∃ l, s.walk ctx w.va.toNat = some l ∧ l.res = false) :
    ∃ pages va, s.reachPlaces ctx ws = .absent pages va ∧
      (∀ w ∈ ws, ∀ l, s.walk ctx w.va.toNat = some l → l.res = false → (∃ m ∈ pages, m.va = l.va) ∧ va ≤ w.va.toNat) ∧
      ∃ w ∈ ws, w.va.toNat = va ∧ ∃ l, s.walk ctx w.va.toNat = some l ∧ l.res = false := by
  have mem : ∀ w, w ∈ ws.filter (s.awayAt ctx) ↔ w ∈ ws ∧ ∃ l, s.walk ctx w.va.toNat = some l ∧ l.res = false :=
    fun w => by rw [List.mem_filter, State.awayAt_iff]
  unfold State.reachPlaces
  obtain ⟨z, hz, away⟩ := h
  split
  · next w r hf =>
    refine ⟨_, _, rfl, fun x hx l hl hres => ⟨?_, ?_⟩, ?_⟩
    · exact exists_mem_distinctPages l (List.mem_filterMap.mpr ⟨x, (mem x).mpr ⟨hx, l, hl, hres⟩, hl⟩)
    · exact lowestVa_le w r x (hf ▸ (mem x).mpr ⟨hx, l, hl, hres⟩)
    · obtain ⟨x, hx, hv⟩ := exists_lowestVa w r
      obtain ⟨hws, far⟩ := (mem x).mp (hf ▸ hx)
      exact ⟨x, hws, hv, far⟩
  · next hf => exact absurd (hf ▸ (mem z).mpr ⟨hz, away⟩) List.not_mem_nil

theorem State.reachPlaces_of_near (h : ∀ w ∈ ws, ¬ ∃ l, s.walk ctx w.va.toNat = some l ∧ l.res = false) :
    s.reachPlaces ctx ws = runChecks ws (.ok (ws.map (s.wantPlace ctx))) [(cACCESS, s.placedAt ctx)] := by
  have near : ws.filter (s.awayAt ctx) = [] := List.filter_eq_nil_iff.mpr fun w hw => by
    rw [State.awayAt_iff]
    exact h w hw
  simp only [State.reachPlaces, near]
  rfl

end

end Sys2Proof.Machine

namespace Sys2Proof.Claim
open Machine

set_option Elab.async false

/-- Settles O27: the checks stand in a row, and each clause of the statement passes those before its own. -/
theorem accessChecks : Obligations.AccessChecks := by
  refine ⟨fun s ctx n cell ws => ?_, fun s h o m y e I => ?_⟩
  · intro aligned inside leaf allowed open_ suits window place away first
    have isAligned (w : Want) : (w.va.toNat % w.size == 0) = true ↔ aligned w := beq_iff_eq
    have isInside (w : Want) : vaOk w.va.toNat w.size = true ↔ inside w := vaOk_iff _ _
    have isMapped (w : Want) : (leaf w).isSome = true ↔ leaf w ≠ none := Option.isSome_iff_ne_none
    have isAllowed : ∀ w, s.onLeaf ctx n.perm w = true ↔ allowed w := s.onLeaf_iff ctx n.perm_iff
    have isOpen : ∀ w, s.onLeaf ctx (fun l => !(n.noSync && l.sync)) w = true ↔ open_ w := s.onLeaf_iff ctx n.noSync_iff
    have isSuited : ∀ w, s.onLeaf ctx cell w = true ↔ suits w := s.onLeaf_iff ctx fun _ => Iff.rfl
    have inWindow : ∀ w, s.onLeaf ctx n.windowOk w = true ↔ window w := s.onLeaf_iff ctx n.windowOk_iff
    simp only [first, s.reach_eq_runChecks ctx n cell ws]
    have asks : Asks (s.pageChecks ctx n cell) [aligned, inside, (leaf · ≠ none), allowed, open_, suits, window] :=
      .cons isAligned (.cons isInside (.cons isMapped (.cons isAllowed (.cons isOpen (.cons isSuited (.cons inWindow .nil))))))
    refine ⟨?_, fun h => ?_, fun h => ?_, fun h => ?_, fun h => ?_, fun h => ?_, fun h => ?_, fun h => ?_⟩
    · exact runChecks_of_exists (asks.passed_take 0 fun _ _ => trivial) _ isAligned _
    · exact runChecks_of_exists (asks.passed_take 1 h) _ isInside _
    · exact runChecks_of_exists (asks.passed_take 2 h) _ isMapped _
    · exact runChecks_of_exists (asks.passed_take 3 h) _ isAllowed _
    · exact runChecks_of_exists (asks.passed_take 4 h) _ isOpen _
    · exact runChecks_of_exists (asks.passed_take 5 h) _ isSuited _
    · exact runChecks_of_exists (asks.passed_take 6 h) _ inWindow _
    · have passed : Passed ws (s.pageChecks ctx n cell) := asks.passed_take 7 h
      rw [← List.append_nil (s.pageChecks ctx n cell), runChecks_of_passed passed, runChecks]
      refine ⟨State.reachPlaces_of_away, fun near => ?_, fun at_ stands => ?_⟩
      · rw [State.reachPlaces_of_near near]
        exact runChecks_of_exists (cs := []) (fun _ _ => trivial) _ (s.placedAt_iff ctx) _
      · have placed : Passed ws [(cACCESS, s.placedAt ctx)] := fun w hw => (s.placedAt_iff ctx w).mpr ⟨_, (stands w hw).2⟩
        rw [State.reachPlaces_of_near fun w hw => (stands w hw).1]
        refine (runChecks_of_passed placed _ []).trans ?_
        refine congrArg Reach.ok (List.map_congr_left fun w hw => ?_)
        obtain ⟨-, l, hl, hp⟩ := stands w hw
        exact s.wantPlace_eq ctx hl hp
  · intro checks
    have cell {i : Instr} {x : State → Host.Outcome State Fault Refusal} {ok : Env → Bool} {sync : Env → Bool} {k : Env → Nat → Eff}
        (hi : exec i = x) (hx : x = perform h o.list { ok := ok } sync fun e => e.cellAt o.a (k e)) (hok : ok e = true)
        (turn : sync e = false ∨ Turn e) : checks i :=
      checksAt_of_finish (I.exec_in_turn hi hx nofun hok turn) rfl
    refine ⟨fun turn hok => ?_, fun turn hok => ⟨?_, ?_⟩, fun hok => ⟨fun turn => ?_, ?_⟩, fun turn hok => ?_⟩
    · exact cell (x := execBind h o m) rfl rfl hok (.inr turn)
    · exact cell (x := execAcq h o y) rfl rfl hok (.inr turn)
    · exact cell (x := execRel h o y) rfl rfl hok (.inr turn)
    · exact cell (x := execMbinit h o) rfl rfl hok (.inr turn)
    · exact cell (x := execMbwait h o) rfl rfl hok (.inl rfl)
    · exact cell (x := execMbarr h o y) rfl rfl hok (.inr turn)

end Sys2Proof.Claim
end

