-- ==== Sys2Proof/Proofs/GlobalAtomics.lean ====
section
/-!
ATOM, RED and CAS (R265, R266, R286), in deterministic mode by the serial phase (R473), and O30.
-/
namespace Sys2Proof.Machine
open Claim

set_option Elab.async false

section
variable (e : Env) (ea : Row)

/-- Updates with a result, on their way or held for the serial phase (R266, R473). -/
theorem Env.awaitUpdates_eq (d : Operand) (sc : Bool) (acc : List Access) :
    e.awaitUpdates d sc ea {} acc =
      let p := Claim.loadPart e d false false false sc (fun l => ea[l]) acc
      let q := some e.core.pseq
      if e.s.det e.sig.ctx then .part e.s { p with late := acc }
      else .part (if sc then (sent e [] 0).queueSc (acc.map fun a => e.scOf a q false)
        else sent e (acc.map fun a => e.pendOf a 0 q) 0) p := by
  unfold Env.awaitUpdates
  split <;> rfl

end

/-- A field that an instruction does not use holds nothing (R20). -/
theorem Env.eq_zero_of_fieldOk_unused {e : Env} {o : Operand} (h : e.fieldOk unused o = true) : o = .zero := by
  cases o <;> simp_all [Env.fieldOk, unused]

end Sys2Proof.Machine

namespace Sys2Proof.Claim
open Machine

set_option Elab.async false

/-- The accesses of an atomic instruction at the lanes' places. -/
def atomAccesses (e : Env) (o : Ops4) (m : AtMod) (isCas : Bool) (ps : List Place) : List Access :=
  (reached e (fun l => (e.raw o.a)[l]) ps).map fun x => ⟨x.1.val, x.2.1, x.2.2, m.bytes,
    if isCas then .cas (e.src m.ty o.b)[x.1] (e.src m.ty o.c)[x.1] else .rmw m.opc.toNat m.signed (e.src m.ty o.b)[x.1], none⟩

def atomNeed (m : AtMod) : Need := { r := true, w := true, noHost := true, noPeer := m.sc }

/-- What an update with a result does with the lanes' places (R266, R286, R473). -/
def AwaitsUpdates (i : Instr) (e : Env) (o : Ops4) (m : AtMod) (acc : List Access) : Prop :=
  let q := some e.core.pseq
  let t := if m.sc then (sent e [] 0).queueSc (acc.map fun a => e.scOf a q false)
    else sent e (acc.map fun a => e.pendOf a 0 q) 0
  let p := loadPart e o.d false false false m.sc (fun l => (e.raw o.a)[l]) acc
  (e.s.det e.sig.ctx = false → (∃ u, e.part t p = .ok u) → Parts i e t p) ∧
  (e.s.det e.sig.ctx = true → let p := { p with late := acc }; (∃ u, e.part e.s p = .ok u) → Parts i e e.s p)

/-- What an update without a result does with the lanes' places (R266, R286, R289, R435, R473). -/
def SendsUpdates (i : Instr) (e : Env) (o : Ops4) (m : AtMod) (ps : List Place) (acc : List Access) : Prop :=
  let ea := fun (l : Lane) => (e.raw o.a)[l]
  let refused := fun (l : Lane) => ∃ x ∈ reached e ea ps, x.1 = l ∧ e.s.refuses { r := true, w := true, noHost := true } x.2.2 m.bytes = true
  (Turn e → FaultsAt i e 0x07 ea fun l => ¬ refused l) ∧
  ((∀ l, ¬ refused l) →
    (e.sel.serial = true → Retires i e (performAll e.sig.ctx e.s acc).2) ∧
    (e.s.det e.sig.ctx = false → e.sel.serial = false →
      (e.core.outst + acc.length < 2 ^ 32 → Retires i e
        (if m.sc then (sent e [] acc.length).queueSc (acc.map fun a => e.scOf a none true)
         else sent e (acc.map fun a => e.pendOf a 1 none) acc.length)) ∧
      (2 ^ 32 ≤ e.core.outst + acc.length → Waits i e)))

section
variable {s : State} {h : Hdr} {o : Ops4} {m : AtMod} {e : Env} {i : Instr} {isCas : Bool}

/-- The checks come first; what follows depends on whether there is a result. -/
theorem atomic_eq (hidx : e.indexFault [(o.d, false), (o.b, false), (o.c, false)] = none) :
    atomic o m isCas e = e.reached (atomNeed m) anyPage (wants e (fun l => (e.raw o.a)[l]) m.bytes) fun ps =>
      if isCas || o.d != .zero then e.awaitUpdates o.d m.sc (e.raw o.a) {} (atomAccesses e o m isCas ps)
      else match e.peerFault { r := true, w := true, noHost := true } m.bytes (reached e (fun l => (e.raw o.a)[l]) ps) with
        | some t => .trap t
        | none => e.sendUpdates m.sc (atomAccesses e o m isCas ps) := by
  rw [atomic, Env.indexed_none hidx]
  rfl

section
variable (hidx : e.indexFault [(o.d, false), (o.b, false), (o.c, false)] = none) {ps : List Place}
  (hps : e.s.reach e.sig.ctx (atomNeed m) anyPage (wants e (fun l => (e.raw o.a)[l]) m.bytes) = .ok ps)
include hidx hps

theorem atomic_with_result (result : (isCas || o.d != .zero) = true) :
    atomic o m isCas e = e.awaitUpdates o.d m.sc (e.raw o.a) {} (atomAccesses e o m isCas ps) := by
  rw [atomic_eq hidx, reached_of_ok hps, if_pos result]

theorem atomic_without_result (noResult : (isCas || o.d != .zero) = false) :
    atomic o m isCas e =
      match e.peerFault { r := true, w := true, noHost := true } m.bytes (reached e (fun l => (e.raw o.a)[l]) ps) with
        | some t => .trap t
        | none => e.sendUpdates m.sc (atomAccesses e o m isCas ps) := by
  rw [atomic_eq hidx, reached_of_ok hps, if_neg (by rw [noResult]; exact Bool.false_ne_true)]

end

theorem awaits_of_finish {acc : List Access} (hx : exec i e.s = .next (e.finish (e.awaitUpdates o.d m.sc (e.raw o.a) {} acc))) :
    AwaitsUpdates i e o m acc := by
  rw [Env.awaitUpdates_eq] at hx
  exact ⟨fun free room => parts_of_finish hx (if_neg (by rw [free]; exact Bool.false_ne_true)) room,
    fun det room => parts_of_finish hx (if_pos det) room⟩

theorem sends_of_finish {ps : List Place} {acc : List Access} (placed : Placed e ps)
    (hx : Turn e → exec i e.s = .next (e.finish
      (match e.peerFault { r := true, w := true, noHost := true } m.bytes (reached e (fun l => (e.raw o.a)[l]) ps) with
        | some t => .trap t
        | none => e.sendUpdates m.sc acc))) :
    SendsUpdates i e o m ps acc := by
  refine ⟨fun turn => faultsAt_of_peerFault placed (hx turn) fun t ht => by rw [ht], fun open_ => ?_⟩
  rw [peerFault_eq_none open_] at hx
  refine ⟨fun serial => retires_of_finish (hx (.inr serial)) (if_pos serial), fun free outside => ?_⟩
  have passed := hx (.inl free)
  simp only [Env.sendUpdates, outside, Bool.false_eq_true, if_false] at passed
  refine ⟨fun room => ?_, fun full => ?_⟩
  · have notFull : ¬ e.outstFull acc.length = true := by simp only [Env.outstFull, decide_eq_true_eq]; omega
    rw [if_neg notFull] at passed
    cases hsc : m.sc <;> rw [hsc] at passed <;> exact passed
  · have isFull : e.outstFull acc.length = true := by simp only [Env.outstFull, decide_eq_true_eq]; omega
    exact waits_of_finish passed (if_pos isFull)

/-- A synchronising instruction in deterministic mode passes the checks of R33 and waits for the serial phase (R84). -/
theorem Issues.exec_held {os : List Operand} (I : Issues s h os e) {x : State → Host.Outcome State Fault Refusal} {ok : Env → Bool}
    {sync : Env → Bool} {body : Env → Eff} (hi : exec i = x) (hx : x = Machine.perform h os { ok := ok } sync body)
    (hok : ok e = true) (hsync : sync e = true) (det : e.s.det e.sig.ctx = true) (outside : e.sel.serial = false) : Held i e := by
  have front : e.front { ok := ok } os = none := Env.front_none nofun nofun I.noT rfl hok
  have same := I.s_eq
  have lane := I.lane
  obtain ⟨e0, h0, rfl⟩ := Option.map_eq_some_iff.mp I.env
  rw [same] at det
  unfold Held
  rw [hi, hx, same]
  simp only [Machine.perform, h0, front, if_neg lane, det, outside, hsync, Bool.not_false, and_self, if_true]
  rw [same]

end

/-- Settles O30: each instruction's body makes the checks first, and awaits or sends the accesses. -/
theorem globalAtomics : Obligations.GlobalAtomics := by
  intro s h o m e I hidx n ea b cmp need rmw cas reach awaits updates held bPos
  refine ⟨fun hok => ⟨fun noResult => ?_, fun result => ?_, fun ps hps => ⟨fun result => ?_, fun noResult => ?_⟩⟩,
    fun hok => ⟨?_, fun turn => ?_, fun ps hps => ?_⟩, fun hok => ?_⟩
  · exact I.exec_held (x := execAtom h o m) rfl rfl hok (beq_iff_eq.mpr noResult)
  · have hx := I.exec_in_turn (i := .atom h o m) (x := execAtom h o m) (feats := []) rfl rfl nofun hok (result.imp_left beq_false_of_ne)
    exact checksAt_of_finish hx (atomic_eq hidx)
  · have hx := I.exec_in_turn (i := .atom h o m) (x := execAtom h o m) (feats := []) rfl rfl nofun hok (.inl (beq_false_of_ne result))
    rw [atomic_with_result hidx hps (by simp [result])] at hx
    exact awaits_of_finish hx
  · refine sends_of_finish (placed_of_reach hps) fun turn => ?_
    have hx := I.exec_in_turn (i := .atom h o m) (x := execAtom h o m) (feats := []) rfl rfl nofun hok (.inr turn)
    rw [atomic_without_result hidx hps (by simp [noResult])] at hx
    exact hx
  · exact I.exec_held (x := execRed h o m) rfl rfl hok rfl
  · have hx := I.exec_in_turn (i := .red h o m) (x := execRed h o m) (feats := []) rfl rfl nofun hok (.inr turn)
    exact checksAt_of_finish hx (atomic_eq hidx)
  · refine sends_of_finish (placed_of_reach hps) fun turn => ?_
    have noResult : o.d = .zero := Env.eq_zero_of_fieldOk_unused (fieldOk_of_ops4Ok hok)
    have hx := I.exec_in_turn (i := .red h o m) (x := execRed h o m) (feats := []) rfl rfl nofun hok (.inr turn)
    rw [atomic_without_result hidx hps (by simp [noResult])] at hx
    exact hx
  · have hx := I.exec_in_turn (i := .cas h o m) (x := execCas h o m) (feats := []) rfl rfl nofun hok (.inl rfl)
    refine ⟨checksAt_of_finish hx (atomic_eq hidx), fun ps hps => ?_⟩
    rw [atomic_with_result hidx hps (Bool.true_or _)] at hx
    exact awaits_of_finish hx

end Sys2Proof.Claim
end

