-- ==== Sys2Proof/Proofs/WritesArePerformed.lean ====
section
/-!
A write or an update on its way is performed (R266, R270, R289): what of it may race with others (R88; log entry 13), which lines an
update fetches first (R260), and O42.
-/
namespace Sys2Proof.Machine

set_option Elab.async false

/-! ### Races with loads on their way -/

theorem AMap.get?_mapPairs {α β : Type} (m : AMap α) (f : Nat × α → β) (k : Nat) :
    AMap.get? (m.map fun x => (x.1, f x)) k = (AMap.get? m k).map fun a => f (k, a) := by
  induction m with
  | nil => rfl
  | cons x r ih =>
    obtain ⟨i, a⟩ := x
    simp only [List.map_cons, AMap.get?]
    by_cases here : i = k
    · subst here
      simp
    · rw [if_neg here, if_neg here, ih]
      split <;> rfl

/-- A store that races with loads changes nothing but the records of cores. -/
theorem State.race_eq (s : State) (uid : Nat) (a : Access) : ∃ f : Nat × Core → Core,
    (∀ x, (f x).pend = x.2.pend) ∧ (∀ c, f (c, Core.init) = Core.init) ∧
    s.race uid a = { s with cores := s.cores.map fun x => (x.1, f x) } := by
  refine ⟨_, fun x => ?_, fun c => ?_, rfl⟩
  · dsimp only
    split <;> rfl
  · rfl

theorem State.core_of_mapPairs (s : State) {f : Nat × Core → Core} (init : ∀ c, f (c, Core.init) = Core.init) (c : Nat) :
    ({ s with cores := s.cores.map fun x => (x.1, f x) } : State).core c = f (c, s.core c) := by
  simp only [State.core, AMap.getD, AMap.get?_mapPairs]
  cases AMap.get? s.cores c with
  | none => exact (init c).symm
  | some k => rfl

/-- The writes on their way, core by core. -/
def State.pends (s : State) : List (List PendW) := s.cores.map fun c => c.2.pend

theorem State.anyPend_eq (s : State) (p : PendW → Bool) : s.anyPend p = s.pends.any fun l => l.any p := by
  simp [State.anyPend, State.pends, List.any_map, Function.comp_def]

@[simp] theorem State.race_pends (s : State) (uid : Nat) (a : Access) : (s.race uid a).pends = s.pends := by
  obtain ⟨f, keeps, -, eq⟩ := s.race_eq uid a
  rw [eq, State.pends, List.map_map]
  exact List.map_congr_left fun c _ => keeps c

@[simp] theorem State.race_pend (s : State) (uid : Nat) (a : Access) (c : Nat) : ((s.race uid a).core c).pend = (s.core c).pend := by
  obtain ⟨f, keeps, init, eq⟩ := s.race_eq uid a
  rw [eq, s.core_of_mapPairs init]
  exact keeps _

/-! ### Races with stores on their way -/

/-- A write of another signature on its way that meets a write; two IVSTs do not spoil one another (R221). -/
def PendW.spoils (w x : PendW) : Bool := x.rival w.uid w.acc && !(x.iv && w.iv)

theorem PendW.spoils_iff (w x : PendW) : w.spoils x = true ↔ x.rival w.uid w.acc = true ∧ ¬ (x.iv = true ∧ w.iv = true) := by
  simp only [PendW.spoils, Bool.and_eq_true, Bool.not_eq_true', ← Bool.not_eq_true]

/-- What a write leaves of its bytes where it meets another one. -/
def Access.blur (a o : Access) (free : Nat) : Access :=
  match a.op with
  | .write bs => { a with op := .write (a.blurred o bs free) }
  | _ => a

theorem Access.blur_write (a o : Access) (free : Nat) {bs : List Byte} (h : a.op = .write bs) :
    a.blur o free = { a with op := .write (a.blurred o bs free) } := by
  rw [Access.blur, h]

theorem Access.blurred_getElem? (a o : Access) (bs : List Byte) (free i : Nat)
    (apart : (a.place.add i).meets 1 o.place o.size = false) : (a.blurred o bs free)[i]? = bs[i]? := by
  rw [Access.blurred, List.getElem?_map, List.getElem?_zipIdx]
  cases bs[i]? with
  | none => rfl
  | some b => simp [apart]

/-- Bytes that none of some writes meets are as before. -/
theorem foldl_blur {a : Access} {bs : List Byte} (h : a.op = .write bs) (xs : List PendW) (free : Nat) :
    ∃ bs', xs.foldl (fun b x => b.blur x.acc free) a = { a with op := .write bs' } ∧ bs'.length = bs.length ∧
      ∀ i, (∀ x ∈ xs, (a.place.add i).meets 1 x.acc.place x.acc.size = false) → bs'[i]? = bs[i]? := by
  induction xs using List.reverseRecOn with
  | nil => exact ⟨bs, by rw [← h]; rfl, rfl, fun _ _ => rfl⟩
  | append_singleton xs x ih =>
    obtain ⟨bs', eq, len, apart⟩ := ih
    refine ⟨Access.blurred { a with op := .write bs' } x.acc bs' free, ?_, ?_, fun i hi => ?_⟩
    · rw [List.foldl_concat, eq, Access.blur_write _ _ _ rfl]
    · simp [Access.blurred, len]
    · exact (Access.blurred_getElem? _ _ _ _ _ (hi x (by simp))).trans (apart i fun y hy => hi y (List.mem_append_left _ hy))

/-- R88: what a store leaves that is performed while others are on their way. -/
theorem State.clash_write (s : State) (w : PendW) {bs : List Byte} (h : w.acc.op = .write bs) :
    ∃ bs' cores free, s.clash w = ({ w with acc := { w.acc with op := .write bs' } }, { s with cores := cores, free := free }) ∧
      bs'.length = bs.length ∧
      (∀ i, (∀ l ∈ s.pends, ∀ x ∈ l, w.spoils x = true → (w.acc.place.add i).meets 1 x.acc.place x.acc.size = false) → bs'[i]? = bs[i]?) ∧
      ((∀ l ∈ s.pends, ∀ x ∈ l, w.spoils x = false) → s.clash w = (w, s)) := by
  have quiet : (∀ l ∈ s.pends, ∀ x ∈ l, w.spoils x = false) → s.anyPend w.spoils = false := fun calm => by
    simpa [State.anyPend_eq] using calm
  have unspoilt (calm : s.anyPend w.spoils = false) : s.clash w = (w, s) :=
    if_pos ((Bool.not_eq_true' _).mpr calm)
  by_cases calm : s.anyPend w.spoils = false
  · refine ⟨bs, s.cores, s.free, ?_, rfl, fun _ _ => rfl, fun _ => unspoilt calm⟩
    rw [unspoilt calm, ← h]
  · obtain ⟨bs', eq, len, apart⟩ := foldl_blur h (s.cores.flatMap fun c => c.2.pend.filter w.spoils) s.free
    refine ⟨bs', _, _, (if_neg (mt (Bool.not_eq_true' _).mp calm)).trans (congrArg₂ Prod.mk (congrArg (fun a => { w with acc := a }) eq) rfl), len,
      fun i hi => apart i fun x hx => ?_, fun still => absurd (quiet still) calm⟩
    obtain ⟨c, hc, hx⟩ := List.mem_flatMap.mp hx
    obtain ⟨hx, spoils⟩ := List.mem_filter.mp hx
    exact hi _ (List.mem_map_of_mem hc) x hx spoils

/-! ### One access to HBM -/

/-- An access that goes to no peer stays where it stands. -/
theorem State.owned?_near {s : State} {a : Access} (near : a.place.isPeer = false) : s.owned? [a] = .ok [a] := by
  obtain ⟨lane, va, pl, size, op, got⟩ := a
  cases pl with
  | hbm p => cases got <;> rfl
  | host p => cases got <;> rfl
  | peer => exact absurd near Bool.noConfusion

/-- The value that an operation gives of the old one (R266, R286). -/
def MemOp.gives (op : MemOp) (old : Nat) : Nat :=
  match op with
  | .write _ => 0
  | _ => old

/-- The bytes that an operation on n bytes leaves (R236, R266); a read leaves none. -/
def MemOp.leaves (op : MemOp) (n old : Nat) : List Byte :=
  match op with
  | .read => []
  | .write bs => bs
  | .rmw opc sg b => bytesOfNat n (rmwNew opc n sg old b.toNat 0)
  | .cas b c => bytesOfNat n (if old = b.toNat % 2 ^ (8 * n) then c.toNat % 2 ^ (8 * n) else old)

/-- An access to HBM changes its bytes; one that reads them needs lines that DRAM has not been changed under (R288). -/
theorem State.performAccess_hbm {s : State} {a : Access} {p : Nat} (peer : Nat) (place : a.place = .hbm p)
    (fresh : (∀ bs, a.op ≠ .write bs) → ∀ x ∈ linesOf p a.size, x ∉ s.l2.stale) :
    let old := natOfBytes (Mem.readN s.hbm p a.size)
    ∃ l2, s.performAccess a peer = (a.op.gives old, { s with l2 := l2, hbm := Mem.writeN s.hbm p (a.op.leaves a.size old) }) := by
  obtain ⟨lane, va, pl, size, op, got⟩ := a
  obtain rfl : pl = .hbm p := place
  have update (op : MemOp) (load : s.loadHbm p size = (Mem.readN s.hbm p size, s.hold p size)) :=
    congrArg (fun x : List Byte × State => (natOfBytes x.1, x.2.storePlace (.hbm p) (op.leaves size (natOfBytes x.1)))) load
  cases op with
  | write bs => exact ⟨_, rfl⟩
  | read =>
    have load := congrArg (fun x : List Byte × State => (natOfBytes x.1, x.2)) (State.loadHbm_of_fresh (fresh nofun))
    exact ⟨_, load⟩
  | rmw opc sg b => exact ⟨_, update (.rmw opc sg b) (State.loadHbm_of_fresh (fresh nofun))⟩
  | cas b c => exact ⟨_, update (.cas b c) (State.loadHbm_of_fresh (fresh nofun))⟩

/-! ### The access, and what follows it -/

theorem State.storeMeets_eq (s : State) (ctx : Option Nat) (a : Access) :
    ∃ clusters, s.storeMeets ctx a = { s with clusters := clusters } := by
  cases h : a.op with
  | read => exact ⟨s.clusters, by rw [State.storeMeets, h]⟩
  | write | rmw | cas =>
    simp only [State.storeMeets, h]
    split
    · exact ⟨_, rfl⟩
    · exact ⟨s.clusters, rfl⟩

/-- The old value goes to the record that waits, the write leaves the core, its count the outstanding counter (R270, R289). -/
def State.afterPend (s : State) (core ix : Nat) (w : PendW) (old : Nat) : State :=
  let s := match w.waiter with
    | some q => s.modRecord core q fun r => { r with wait := r.wait.gets w.acc.va old w.acc.lane }
    | none => s
  let rest := (s.core core).pend.eraseIdx ix
  let parts := rest.any fun x => x.born == w.born && x.acc.lane == w.acc.lane && !x.posted
  let s := s.modCore core fun k => { k with
    pend := if w.acc.place.isHost then k.pend.set ix { w with posted := true } else rest }
  if parts then s else s.uncount core w.count

theorem State.afterPend_spec (s : State) (core ix : Nat) (w : PendW) (old : Nat) :
    (s.afterPend core ix w old).hbm = s.hbm ∧ (s.afterPend core ix w old).host = s.host ∧
    ((s.afterPend core ix w old).core core).pend =
      if w.acc.place.isHost then (s.core core).pend.set ix { w with posted := true } else (s.core core).pend.eraseIdx ix := by
  unfold State.afterPend
  cases w.waiter <;> dsimp only <;> split <;> simp [State.modRecord, State.uncount]

theorem State.performPend_update (s : State) (core ix : Nat) {w : PendW} (peer : Nat) (h : ∀ bs, w.acc.op ≠ .write bs) :
    s.performPend core ix w peer =
      let x := (s.storeMeets (s.core core).ctx w.acc).performAccess w.acc peer
      x.2.afterPend core ix w x.1 := by
  cases hop : w.acc.op with
  | write bs => exact absurd hop (h bs)
  | read | rmw | cas =>
    simp only [State.performPend, hop]
    rfl

theorem State.performPend_write (s : State) (core ix : Nat) {w : PendW} (peer : Nat) {bs : List Byte} (h : w.acc.op = .write bs) :
    s.performPend core ix w peer =
      let x := (s.race w.uid w.acc).clash w
      let y := (x.2.storeMeets (x.2.core core).ctx x.1.acc).performAccess x.1.acc peer
      y.2.afterPend core ix x.1 y.1 := by
  simp only [State.performPend, h]
  rfl

/-- An update of HBM is performed. -/
theorem State.performPend_update_hbm {s : State} {core ix : Nat} {w : PendW} {a : Nat} (peer : Nat) (h : ∀ bs, w.acc.op ≠ .write bs)
    (place : w.acc.place = .hbm a) (fresh : ∀ x ∈ linesOf a w.acc.size, x ∉ s.l2.stale) :
    let t := s.performPend core ix w peer
    t.hbm = Mem.writeN s.hbm a (w.acc.op.leaves w.acc.size (natOfBytes (Mem.readN s.hbm a w.acc.size))) ∧ t.host = s.host ∧
      (t.core core).pend = (s.core core).pend.eraseIdx ix := by
  obtain ⟨clusters, met⟩ := s.storeMeets_eq (s.core core).ctx w.acc
  obtain ⟨l2, performed⟩ := ({ s with clusters := clusters } : State).performAccess_hbm peer place fun _ => fresh
  rw [s.performPend_update core ix peer h, met, performed]
  obtain ⟨hbm, host, pend⟩ := State.afterPend_spec
    { s with clusters := clusters, l2 := l2, hbm := Mem.writeN s.hbm a (w.acc.op.leaves w.acc.size (natOfBytes (Mem.readN s.hbm a w.acc.size))) }
    core ix w (w.acc.op.gives (natOfBytes (Mem.readN s.hbm a w.acc.size)))
  exact ⟨hbm, host, pend.trans (by rw [place]; rfl)⟩

/-- What a write that is performed leaves: bytes of its own, but where it meets a store of another signature (R88). -/
structure Left (s : State) (w : PendW) (bs bs' : List Byte) : Prop where
  length : bs'.length = bs.length
  apart : ∀ i, (∀ l ∈ s.pends, ∀ x ∈ l, w.spoils x = true → (w.acc.place.add i).meets 1 x.acc.place x.acc.size = false) → bs'[i]? = bs[i]?

/-- No store of another signature meets the write. -/
def State.Unspoilt (s : State) (w : PendW) : Prop := ∀ l ∈ s.pends, ∀ x ∈ l, w.spoils x = false

theorem State.performAccess_write (s : State) {a : Access} {bs : List Byte} (peer : Nat) (near : a.place.isPeer = false) (h : a.op = .write bs) :
    s.performAccess a peer = (0, s.storePlace a.place bs) := by
  obtain ⟨lane, va, pl, size, op, got⟩ := a
  obtain rfl : op = .write bs := h
  cases pl with
  | hbm p => rfl
  | host p => rfl
  | peer => exact absurd near Bool.noConfusion

/-- A write is performed: it is stored at its place, and leaves the core or waits for the host's acknowledgement. -/
theorem State.performPend_write_near (s : State) (core ix : Nat) {w : PendW} (peer : Nat) {bs : List Byte} (h : w.acc.op = .write bs)
    (near : w.acc.place.isPeer = false) :
    ∃ bs' u w', s.performPend core ix w peer = (u.storePlace w.acc.place bs').afterPend core ix w' 0 ∧ Left s w bs bs' ∧
      SameMemory s u ∧ w'.acc.place = w.acc.place ∧ (s.Unspoilt w → w' = w ∧ (u.core core).pend = (s.core core).pend) := by
  obtain ⟨bs', cores, free, clash, len, apart, calm⟩ := (s.race w.uid w.acc).clash_write w h
  rw [State.race_pends] at apart calm
  let v : State := { s.race w.uid w.acc with cores := cores, free := free }
  let acc : Access := { w.acc with op := .write bs' }
  obtain ⟨clusters, met⟩ := v.storeMeets_eq (v.core core).ctx acc
  refine ⟨bs', v.storeMeets (v.core core).ctx acc, { w with acc := acc }, ?_, ⟨len, apart⟩, ?_, rfl, fun unspoilt => ?_⟩
  · rw [s.performPend_write core ix peer h, clash]
    exact congrArg (fun x => State.afterPend x.2 core ix _ x.1) (State.performAccess_write _ (a := acc) peer near rfl)
  · rw [met]
    exact ⟨rfl, rfl⟩
  · obtain ⟨same, cores_⟩ := Prod.mk.inj (clash.symm.trans (calm unspoilt))
    refine ⟨same, ?_⟩
    rw [met]
    show (v.core core).pend = _
    rw [show v = s.race w.uid w.acc from cores_, State.race_pend]

/-! ### Lines on their way (R260) -/

/-- Fetching lines changes nothing but budgets and which lines the central die holds. -/
structure Fetched (s t : State) : Prop where
  eq : t = { s with memStacks := t.memStacks, l2 := t.l2 }
  stale : t.l2.stale = s.l2.stale
  old : t.l2.old = s.l2.old

theorem Fetched.refl (s : State) : Fetched s s := ⟨rfl, rfl, rfl⟩

theorem Fetched.trans {s t u : State} (h : Fetched s t) (k : Fetched t u) : Fetched s u :=
  ⟨by rw [k.eq, h.eq], k.stale.trans h.stale, k.old.trans h.old⟩

theorem Fetched.hbm {s t : State} (h : Fetched s t) : t.hbm = s.hbm := by rw [h.eq]
theorem Fetched.host {s t : State} (h : Fetched s t) : t.host = s.host := by rw [h.eq]
theorem Fetched.core {s t : State} (h : Fetched s t) (c : Nat) : t.core c = s.core c := by rw [h.eq]; rfl

theorem State.fetchLine_fetched (s : State) (line : Nat) : Fetched s (s.fetchLine line).2 := by
  unfold State.fetchLine
  dsimp only
  generalize (if s.l2.half.contains line = true then 1 else 2) = need
  split
  · exact .refl s
  · split
    · exact ⟨rfl, rfl, rfl⟩
    · exact ⟨rfl, rfl, rfl⟩

theorem State.fetchLines_fetched (s : State) (acc : List Access) : Fetched s (s.fetchLines acc).2 := by
  have lines (ls : List Nat) (x : Bool × State) (h : Fetched s x.2) : Fetched s (ls.foldl (fun (x : Bool × State) n =>
      let (ok, s) := x.2.fetchLine n
      (x.1 && ok, s)) x).2 := by
    induction ls generalizing x with
    | nil => exact h
    | cons n ls ih => exact ih _ (h.trans (x.2.fetchLine_fetched n))
  exact lines _ _ (.refl s)

/-! ### The events -/

section
variable {s : State} {core ix : Nat} {w : PendW} (listed : (s.core core).pend[ix]? = some w)
include listed

theorem exec_apertureWriteAck (posted : w.posted = true) :
    exec (.apertureWriteAck core ix) s = .next (s.modCore core fun k => { k with pend := k.pend.eraseIdx ix }) := by
  show execApertureWriteAck core ix s = _
  simp only [execApertureWriteAck, listed, posted, if_true]

variable (ready : s.pendReady core ix w = true) (near : w.acc.place.isPeer = false) (data : List Nat)
include ready near

/-- A write of HBM or the host is performed where it stands. -/
theorem exec_storePerformed_write {bs : List Byte} (h : w.acc.op = .write bs) :
    exec (.storePerformed core ix (.ok data)) s = .next (s.performPend core ix w (data.headD 0)) := by
  show execStorePerformed core ix (.ok data) s = _
  simp [execStorePerformed, listed, ready, State.owned?_near near, h]

/-- An update waits for its lines (R260). -/
theorem exec_storePerformed_update (h : ∀ bs, w.acc.op ≠ .write bs) :
    exec (.storePerformed core ix (.ok data)) s = .next (if (s.fetchLines [w.acc]).1
      then (s.fetchLines [w.acc]).2.performPend core ix w (data.headD 0) else (s.fetchLines [w.acc]).2) := by
  show execStorePerformed core ix (.ok data) s = _
  cases hop : w.acc.op with
  | write bs => exact absurd hop (h bs)
  | read | rmw | cas => simp [execStorePerformed, listed, ready, State.owned?_near near, hop]

end

end Sys2Proof.Machine

namespace Sys2Proof.Claim
open Machine

set_option Elab.async false

theorem stored_of_left {s : State} {w : PendW} {bs bs' : List Byte} (left : Left s w bs bs') {m : Mem} (wf : Mem.wf m = true) (a x : Nat) :
    (a ≤ x → x < a + bs.length →
      (∀ c ∈ s.cores, ∀ y ∈ c.2.pend, (y.rival w.uid w.acc = true ∧ ¬ (y.iv = true ∧ w.iv = true)) →
        (w.acc.place.add (x - a)).meets 1 y.acc.place y.acc.size = false) →
      Mem.read (Mem.writeN m a bs') x = bs.getD (x - a) 0) ∧
    (x < a ∨ a + bs.length ≤ x → Mem.read (Mem.writeN m a bs') x = Mem.read m x) := by
  have bytes := Mem.read_writeN m a bs' x wf
  rw [left.length] at bytes
  refine ⟨fun lo hi apart => ?_, fun out => bytes.trans (if_neg (by omega))⟩
  rw [bytes, if_pos ⟨lo, hi⟩, List.getD_eq_getElem?_getD, List.getD_eq_getElem?_getD, left.apart (x - a)]
  intro l hl y hy spoils
  obtain ⟨c, hc, rfl⟩ := List.mem_map.mp hl
  exact apart c hc y hy ((w.spoils_iff y).mp spoils)

theorem wf_host_of_memOk {s : State} (h : s.memOk = true) : Mem.wf s.host = true := by
  simp only [State.memOk, Bool.and_eq_true] at h
  exact h.1.2

/-- Settles O42: a store is performed at once, an update when its lines are there. -/
theorem writesArePerformed : Obligations.WritesArePerformed := by
  intro s core ix w data ok listed
  refine ⟨fun posted => ⟨_, exec_apertureWriteAck listed posted, rfl, rfl, congrArg Core.pend (s.core_modCore_self core _)⟩, fun ready => ?_⟩
  intro done left changed rival quiet stored
  have unspoilt (calm : quiet) : s.Unspoilt w := by
    intro l hl x hx
    obtain ⟨c, hc, rfl⟩ := List.mem_map.mp hl
    exact Bool.eq_false_iff.mpr (mt (w.spoils_iff x).mp (calm c hc x hx))
  refine ⟨fun bs a op place => ?_, fun bs a op place => ?_, fun a place fresh => ?_⟩
  · have near : w.acc.place.isPeer = false := by rw [place]; rfl
    obtain ⟨bs', u, w', performed, spoilt, same, stay, calm⟩ := s.performPend_write_near core ix (data.headD 0) op near
    obtain ⟨hbm, host, pend⟩ := (u.storePlace w.acc.place bs').afterPend_spec core ix w' 0
    rw [← performed, place] at hbm host
    rw [← performed, stay, place] at pend
    refine ⟨_, exec_storePerformed_write listed ready near data op, fun x => ?_, host.trans same.host, fun still => ?_⟩
    · rw [hbm, ← same.hbm]
      exact stored_of_left spoilt (same.hbm ▸ State.wf_hbm_of_memOk ok) a x
    · exact pend.trans (congrArg (List.eraseIdx · ix) (calm (unspoilt still)).2)
  · have near : w.acc.place.isPeer = false := by rw [place]; rfl
    obtain ⟨bs', u, w', performed, spoilt, same, stay, calm⟩ := s.performPend_write_near core ix (data.headD 0) op near
    obtain ⟨hbm, host, pend⟩ := (u.storePlace w.acc.place bs').afterPend_spec core ix w' 0
    rw [← performed, place] at hbm host
    rw [← performed, stay, place] at pend
    refine ⟨_, exec_storePerformed_write listed ready near data op, fun x => ?_, hbm.trans same.hbm, fun still => ?_⟩
    · rw [host, ← same.host]
      exact stored_of_left spoilt (same.host ▸ wf_host_of_memOk ok) a x
    · obtain ⟨whole, listedLeft⟩ := calm (unspoilt still)
      rw [pend, whole]
      exact congrArg (List.set · ix { w with posted := true }) listedLeft
  · intro n old there away
    have near : w.acc.place.isPeer = false := by rw [place]; rfl
    have fetched := s.fetchLines_fetched [w.acc]
    have updates (h : ∀ bs, w.acc.op ≠ .write bs) : away ∧ (there → ∃ t, done t ∧ t.host = s.host ∧ (t.core core).pend = left ∧
        changed s.hbm t.hbm a (w.acc.op.leaves n old)) := by
      have hx := exec_storePerformed_update listed ready near data h
      refine ⟨fun absent => hx.trans (congrArg _ (if_neg (by rw [absent]; exact Bool.false_ne_true))),
        fun present => ⟨_, hx.trans (congrArg _ (if_pos present)), ?_⟩⟩
      obtain ⟨hbm, host, pend⟩ := State.performPend_update_hbm (s := (s.fetchLines [w.acc]).2) (core := core) (ix := ix) (data.headD 0) h place
        (fetched.stale ▸ fresh)
      rw [fetched.hbm] at hbm
      refine ⟨host.trans fetched.host, pend.trans (congrArg (fun k : Core => k.pend.eraseIdx ix) (fetched.core core)), fun x => ?_⟩
      rw [hbm]
      exact Mem.read_writeN _ _ _ _ (State.wf_hbm_of_memOk ok)
    refine ⟨fun opc sg b op => ?_, fun b c op => ?_⟩
    · have := updates (by rw [op]; exact nofun)
      rwa [op] at this
    · have := updates (by rw [op]; exact nofun)
      rwa [op] at this

end Sys2Proof.Claim
end

