-- ==== Sys2Proof/Proofs/SystemRegisters.lean ====
section
/-!
Selectors (R413), what SRREG reads of each group (R262, R425), what SWREG refuses (R426), and O41.
-/
namespace Sys2Proof.Machine
open Claim

set_option Elab.async false

/-! ### Selectors -/

/-- The fields of a selector. -/
def Selector.fields (sel : BitVec 32) : Selector :=
  ⟨sel.toNat % 256, sel.toNat / 2 ^ 8 % 64, sel.toNat / 2 ^ 14 % 16, sel.toNat / 2 ^ 18⟩

/-- A register of the groups 1 to 5 that its group lists (R413). -/
def Selector.Beyond (r : Selector) : Prop :=
  (r.group = 1 ∧ r.num ≤ 0x1C ∧ r.stack < 12) ∨ (r.group = 2 ∧ r.num ≤ 0x0A ∧ r.stack < 12) ∨
  (r.group = 3 ∧ r.num ≤ 8 ∧ r.sub = 0 ∧ r.stack < 12) ∨ (r.group = 4 ∧ r.num ≤ 3 ∧ r.sub < 4 ∧ r.stack = 0) ∨
  (r.group = 5 ∧ r.sub = 0 ∧ r.stack = 0)

theorem Selector.group_ne_zero {r : Selector} (h : r.Beyond) : r.group ≠ 0 := by
  rcases h with h | h | h | h | h <;> omega

/-- A register of group 0 that the group lists (R413). -/
def Selector.Context (r : Selector) : Prop := r.group = 0 ∧ r.num ≤ 0x22 ∧ r.sub = 0 ∧ r.stack = 0

/-- The test of the parser on a selector's fields. -/
def Selector.listed (r : Selector) : Bool :=
  match r.group with
  | 0 => decide (r.num ≤ 0x22) && r.sub == 0 && r.stack == 0
  | 1 => decide (r.num ≤ 0x1C) && decide (r.stack < 12)
  | 2 => decide (r.num ≤ 0x0A) && decide (r.stack < 12)
  | 3 => decide (r.num ≤ 0x08) && r.sub == 0 && decide (r.stack < 12)
  | 4 => decide (r.num ≤ 0x03) && decide (r.sub < 4) && r.stack == 0
  | 5 => r.sub == 0 && r.stack == 0
  | _ => false

theorem Selector.listed_iff (r : Selector) : r.listed = true ↔ r.Context ∨ r.Beyond := by
  unfold Selector.listed Selector.Context Selector.Beyond
  split
  case h_7 => simp only [Bool.false_eq_true, false_iff]; tauto
  all_goals simp [*, and_assoc]

/-- The bits above the group are reserved. -/
theorem Selector.parse_eq (sel : BitVec 32) :
    Selector.parse sel = if sel.toNat / 2 ^ 22 == 0 && (Selector.fields sel).listed then some (Selector.fields sel) else none := by
  by_cases low : sel.toNat / 2 ^ 22 = 0
  · have fields : Selector.fields sel =
        ⟨bitsOf sel.toNat 7 0, bitsOf sel.toNat 13 8, bitsOf sel.toNat 17 14, bitsOf sel.toNat 21 18⟩ := by
      have group : sel.toNat / 2 ^ 18 = sel.toNat / 2 ^ 18 % 2 ^ 4 := by omega
      simp only [Selector.fields, bitsOf]
      rw [group]
      simp
    rw [fields]
    rfl
  · simp only [Selector.parse, beq_false_of_ne low, Bool.false_and, Bool.false_eq_true, if_false]

theorem Selector.context_iff (sel : BitVec 32) : (Selector.fields sel).Context ↔ sel.toNat ≤ 0x22 := by
  simp only [Selector.Context, Selector.fields]
  omega

theorem Selector.parse_eq_some {sel : BitVec 32} (h : sel.toNat ≤ 0x22 ∨ (Selector.fields sel).Beyond) :
    Selector.parse sel = some (Selector.fields sel) := by
  have low : sel.toNat / 2 ^ 22 = 0 := by
    simp only [Selector.Beyond, Selector.fields] at h
    omega
  rw [Selector.parse_eq, low, (Selector.listed_iff _).mpr (h.imp_left (Selector.context_iff sel).mpr)]
  rfl

theorem Selector.parse_eq_none {sel : BitVec 32} (above : 0x23 ≤ sel.toNat) (h : ¬ (Selector.fields sel).Beyond) :
    Selector.parse sel = none := by
  have unlisted : ¬ (Selector.fields sel).listed = true := by
    rw [Selector.listed_iff, Selector.context_iff]
    exact fun listed => listed.elim (Nat.not_le.mpr above) h
  rw [Selector.parse_eq, Bool.eq_false_iff.mpr unlisted, Bool.and_false]
  rfl

/-! ### What a context may read (R262) -/

/-- Slot k of a stack is an enabled partition of the context. -/
theorem State.owns_iff (s : State) (ctx st slot : Nat) :
    s.owns ctx st slot = true ↔ (s.part st slot).reg.getLsbD 8 = true ∧ (s.part st slot).reg.toNat / 2 ^ 10 % 1024 = ctx := by
  simp [State.owns, prEn, prCtx, bitsOf]

theorem State.mayCount_iff (s : State) (ctx st num : Nat) :
    s.mayCount ctx st num = true ↔ (s.reg ctx 0x17).getLsbD 0 = true ∨ num = 0 ∨
      (3 ≤ num ∧ num ≤ 0x0A ∧ s.owns ctx st (num - 3) = true) ∨ (0x0D ≤ num ∧ num ≤ 0x14 ∧ s.owns ctx st (num - 0x0D) = true) := by
  simp [State.mayCount, rMONITOR, or_assoc, and_assoc]

theorem State.mayBudget_iff (s : State) (ctx st num : Nat) :
    s.mayBudget ctx st num = true ↔ (s.reg ctx 0x17).getLsbD 0 = true ∨ (2 ≤ num ∧ num ≤ 9 ∧ s.owns ctx st (num - 2) = true) := by
  simp [State.mayBudget, rMONITOR, and_assoc]

theorem counted_iff (num : Nat) : counted num = true ↔ (2 ≤ num ∧ num ≤ 0x0A) ∨ (0x18 ≤ num ∧ num ≤ 0x1A) := by
  simp [counted]

/-! ### Counts that move on as they are read (R4) -/

theorem Stack.chan_modChan_self (t : Stack) (p : Nat) (f : PChan → PChan) : (t.modChan p f).chan p = f (t.chan p) :=
  AMap.getD_set_self ..

theorem State.readCounter_counted {s : State} {st ch num : Nat} (h : counted num = true) :
    s.readCounter st ch num = (AMap.getD ((s.stack st).chan ch).counters num 0, s) := if_pos h

/-- A counter that the model does not count has advanced by a free amount. -/
theorem State.readCounter_free {s : State} {st ch num : Nat} (h : ¬ counted num = true) :
    ∃ (d : Word64) (t : State), t = { s with memStacks := t.memStacks, free := t.free } ∧
      AMap.getD ((t.stack st).chan ch).counters num 0 = AMap.getD ((s.stack st).chan ch).counters num 0 + d ∧
      s.readCounter st ch num = (AMap.getD ((s.stack st).chan ch).counters num 0 + d, t) := by
  refine ⟨_, _, ?_, ?_, if_neg h⟩
  · rfl
  · rw [State.stack_modStack_self, Stack.chan_modChan_self]
    exact AMap.getD_set_self ..

/-- An array's cycles have advanced by a free amount. -/
theorem State.tickArray_eq (s : State) (st : Nat) :
    ∃ (d : Word64) (t : State), t = { s with memStacks := t.memStacks, free := t.free } ∧
      (t.stack st).acyc = (s.stack st).acyc + d ∧ s.tickArray st = ((s.stack st).acyc + d, t) := by
  refine ⟨_, _, ?_, ?_, rfl⟩
  · rfl
  · rw [State.stack_modStack_self]
    rfl

end Sys2Proof.Machine

namespace Sys2Proof.Claim
open Machine

set_option Elab.async false

section
variable {s : State} {h : Hdr} {o : Ops2} {q : Ops4} {imm : BitVec 32} {e : Env} {r : Selector}

/-! ### SRREG and SWREG -/

section
variable (I : Issues s h o.list e) (hidx : e.indexFault [(o.d, false)] = none)
include I hidx

section
variable (hok : e.ops2Ok o { kinds := [.v, .s, .idx] } { kinds := [.s, .zero] } = true)
include hok

theorem srreg_finish : exec (.srreg h o imm) e.s = .next (e.finish (match e.selector o.a imm with
    | none => .trap (trapOf cOPERAND)
    | some r => .done (e.writeUni (e.sysRead r).2 o.d (e.sysRead r).1))) := by
  have hx := I.exec_fields (i := .srreg h o imm) (x := execSrreg h o imm) rfl rfl hok
  rw [Env.indexed_none hidx] at hx
  exact hx

theorem srreg_reads (hsel : e.selector o.a imm = some r) {v : Word64} {t : State} (hread : e.sysRead r = (v, t)) :
    Retires (.srreg h o imm) e (e.writeUni t o.d v) := by
  have hx := srreg_finish I hidx hok (imm := imm)
  rw [hsel] at hx
  exact retires_of_finish hx (by simp only [hread])

theorem srreg_raises (hsel : e.selector o.a imm = none) : Raises (.srreg h o imm) e ⟨0x02, 0, none⟩ := by
  have hx := srreg_finish I hidx hok (imm := imm)
  rw [hsel] at hx
  exact raises_of_finish hx rfl

end

section
variable (hok : e.ops2Ok o { kinds := [.v, .s, .idx, .zero] } { kinds := [.s, .zero] } = true)
include hok

theorem swreg_raises (hsel : e.selector o.a imm = none) : Raises (.swreg h o imm) e ⟨0x02, 0, none⟩ := by
  have hx := I.exec_fields (i := .swreg h o imm) (x := execSwreg h o imm) rfl rfl hok
  rw [Env.indexed_none hidx] at hx
  exact raises_of_finish hx (by rw [hsel]; rfl)

/-- The value of the lowest lane goes to the register when it may be written and keeps its limits. -/
theorem swreg_finish (hsel : e.selector o.a imm = some r) {l : Lane} (hl : lowest e.act = some l) :
    exec (.swreg h o imm) e.s = .next (e.finish (
      if r.group ≠ 0 ∨ !(r.num == rFPCTL || (e.path.handler && regS r.num)) then .trap (trapOf cPRIV)
      else if !e.s.regOk e.sig.ctx r.num (e.raw o.d)[l] then .trap (trapOf cOPERAND)
      else .done (e.s.setReg e.sig.ctx r.num (e.raw o.d)[l]))) := by
  have hx := I.exec_fields (i := .swreg h o imm) (x := execSwreg h o imm) rfl rfl hok
  rw [Env.indexed_none hidx, hsel] at hx
  simp only [hl] at hx
  exact hx

end
end

/-- FREC leaves a record of source 8 (R427). -/
theorem frec_retires (I : Issues s h q.list e)
    (hok : e.ops4Ok q { kinds := [.s, .zero] } unused { kinds := [.s, .imm, .zero] } { kinds := [.s, .imm, .zero] } = true) :
    let r : FRec := { source := 8, cause := 0, core := e.sel.core, port := e.path.port
                      sig := if e.sig.quire = none then 0xFF else e.sig.sigix, grid := e.sig.grid
                      quire := if e.sig.quire = none then 2 ^ 64 - 1 else e.sig.qix, pc := e.path.pc
                      aux0 := e.uni q.b, aux1 := e.uni q.c }
    let x := e.s.putRecord e.sig.ctx r.bytes
    Retires (.frec h q) e (e.writeSZ x.2 q.d (match x.1 with | some i => BitVec.ofNat 64 i | none => BitVec.allOnes 64)) := by
  have hx := I.exec_fields (i := .frec h q) (x := execFrec h q) (ok := fun e => e.ops4Ok q _ _ _ _) rfl (by unfold execFrec; exact rfl) hok
  refine retires_of_finish hx ?_
  cases e.sig.quire <;> rfl

/-- Which registers SWREG may write. -/
theorem writable_iff (handler : Bool) (num : Nat) : (num == rFPCTL || (handler && regS num)) = true ↔
    num = 0x01 ∨ handler = true ∧ (num = 0x08 ∨ num = 0x0A ∨ num = 0x0B) := by
  simp [rFPCTL, regS, rFRTAIL, rCOVBASE, rCOVSIZE, or_assoc]

end

/-- Settles O41: the selector is taken apart first; each group then reads its own table. -/
theorem systemRegisters : Obligations.SystemRegisters := by
  intro s h o q imm e sel num sub_ st grp listed owner monitor
  have atContext (low : sel.toNat ≤ 0x22) : e.selector o.a imm = some ⟨num, sub_, st, grp⟩ := Selector.parse_eq_some (.inl low)
  have atListed (hl : listed) : e.selector o.a imm = some ⟨num, sub_, st, grp⟩ := Selector.parse_eq_some (.inr hl)
  have atNone (above : 0x23 ≤ sel.toNat) (hl : ¬ listed) : e.selector o.a imm = none := Selector.parse_eq_none above hl
  have groupZero (low : sel.toNat ≤ 0x22) : grp = 0 := by simp only [grp]; omega
  refine ⟨fun I hidx => ⟨fun hok => ⟨fun low => ?_, fun above hl => srreg_raises I hidx hok (atNone above hl), fun hl => ?_⟩,
    fun hok l hlow => ?_⟩, fun I hok => ?_⟩
  · exact srreg_reads I hidx hok (atContext low) (by rw [groupZero low]; rfl)
  · intro chan reads mayCount counted_ mayBudget
    have at_ {v : Word64} {t : State} := srreg_reads I hidx hok (atListed hl) (v := v) (t := t)
    have count : e.s.mayCount e.sig.ctx st num = true ↔ mayCount := by
      simp only [State.mayCount_iff, State.owns_iff]; rfl
    have budget : e.s.mayBudget e.sig.ctx st num = true ↔ mayBudget := by
      simp only [State.mayBudget_iff, State.owns_iff]; rfl
    refine ⟨fun g no => at_ ?_, fun g may c => at_ ?_, fun g may c => ?_, fun g no => at_ ?_, fun g may => at_ ?_, fun g n => at_ ?_,
      fun g n => ?_, fun g n => at_ ?_, fun g n => at_ ?_, fun g n => at_ ?_, fun g n => at_ ?_, fun g => at_ ?_⟩
    · rw [g]; exact if_neg (no ∘ count.mp)
    · rw [g]; exact (if_pos (count.mpr may)).trans (State.readCounter_counted ((counted_iff num).mpr c))
    · obtain ⟨d, t, same, advanced, read⟩ := State.readCounter_free (s := e.s) (st := st) (ch := sub_) (c ∘ (counted_iff num).mp)
      refine ⟨d, t, same, advanced, at_ ?_⟩
      rw [g]
      exact (if_pos (count.mpr may)).trans read
    · rw [g]; exact if_neg (no ∘ budget.mp)
    · rw [g]; exact if_pos (budget.mpr may)
    · rw [g]; exact if_neg n
    · obtain ⟨d, t, same, advanced, read⟩ := e.s.tickArray_eq st
      refine ⟨d, t, same, advanced, at_ ?_⟩
      rw [g]
      exact (if_pos n).trans read
    all_goals rw [g]
    · rw [n]; rfl
    · rw [n]; rfl
    · rw [n]; rfl
    · rw [n]; rfl
    · rfl
  · intro v writable
    have at_ {r : Selector} (hsel : e.selector o.a imm = some r) := swreg_finish I hidx hok hsel hlow
    have refused (unwritable : ¬ writable) : ¬ (num == rFPCTL || (e.path.handler && regS num)) = true :=
      unwritable ∘ (writable_iff _ _).mp
    have allowed (low : sel.toNat ≤ 0x22) (w : writable) :
        ¬ (grp ≠ 0 ∨ (!(num == rFPCTL || (e.path.handler && regS num))) = true) := by
      rw [(writable_iff _ _).mpr w, groupZero low]
      simp
    refine ⟨fun above hl => swreg_raises I hidx hok (atNone above hl), fun hl => ?_, fun low unwritable => ?_,
      fun low w bad => ?_, fun low w good => ?_⟩
    · exact raises_of_finish (at_ (atListed hl)) (if_pos (.inl (Selector.group_ne_zero (r := .fields sel) hl)))
    · exact raises_of_finish (at_ (atContext low)) (if_pos (.inr (by rw [Bool.eq_false_iff.mpr (refused unwritable)]; rfl)))
    · exact raises_of_finish (at_ (atContext low)) ((if_neg (allowed low w)).trans (if_pos (by rw [bad]; rfl)))
    · exact retires_of_finish (at_ (atContext low)) ((if_neg (allowed low w)).trans (if_neg (by rw [good]; exact Bool.false_ne_true)))
  · exact frec_retires I hok

end Sys2Proof.Claim
end

