-- ==== Sys2Proof/Proofs/FlushAndThimble.lean ====
section
/-!
Flushes and invalidations (R267), the thimble's visits (R285), and one operation at a node (R266, R286).
-/
namespace Sys2Proof.Machine

set_option Elab.async false

/-! ### Sets of numbers as lists -/

theorem mem_insertNat {l : List Nat} {x y : Nat} : x ∈ insertNat l y ↔ x = y ∨ x ∈ l := by
  induction l with
  | nil => simp [insertNat]
  | cons z r ih =>
    simp only [insertNat]
    split
    · simp
    · split
      · simp_all
      · simp only [List.mem_cons, ih]
        tauto

theorem mem_foldl_insertNat {ls acc : List Nat} {x : Nat} : x ∈ ls.foldl insertNat acc ↔ x ∈ acc ∨ x ∈ ls := by
  induction ls generalizing acc with
  | nil => simp
  | cons y ls ih =>
    rw [List.foldl_cons, ih, mem_insertNat, List.mem_cons]
    tauto

/-! ### Lines that are dropped -/

/-- What dropping some lines leaves (R267). -/
structure Dropped (s t : State) (ls : List Nat) : Prop where
  eq : t = { s with l2 := t.l2, hbm := t.hbm, free := t.free }
  wf : Mem.wf t.hbm = true
  held : ∀ n ∈ t.l2.held, n ∈ s.l2.held ∧ n ∉ ls
  kept : ∀ a, a / 128 ∉ ls → Mem.read t.hbm a = Mem.read s.hbm a

theorem Dropped.nil {s : State} (wf : Mem.wf s.hbm = true) : Dropped s s [] := ⟨rfl, wf, by simp, fun _ _ => rfl⟩

theorem Dropped.trans {s t u : State} {ls ms : List Nat} (h : Dropped s t ls) (k : Dropped t u ms) : Dropped s u (ls ++ ms) where
  eq := by rw [k.eq, h.eq]
  wf := k.wf
  held n hn := by
    obtain ⟨hn, hms⟩ := k.held n hn
    obtain ⟨hn, hls⟩ := h.held n hn
    exact ⟨hn, by simp [hls, hms]⟩
  kept a ha := by
    rw [List.mem_append, not_or] at ha
    exact (k.kept a ha.2).trans (h.kept a ha.1)

/-- Bytes of one line written one after the other leave every other line. -/
theorem Mem.foldl_write_line {m : Mem} (wf : Mem.wf m = true) (line : Nat) (cs : List (Nat × Byte)) (inLine : ∀ p ∈ cs, p.1 / 128 = line) :
    Mem.wf (cs.foldl (fun m p => Mem.write m p.1 p.2) m) = true ∧
      ∀ a, a / 128 ≠ line → Mem.read (cs.foldl (fun m p => Mem.write m p.1 p.2) m) a = Mem.read m a := by
  induction cs generalizing m with
  | nil => exact ⟨wf, fun _ _ => rfl⟩
  | cons c cs ih =>
    obtain ⟨wf', kept⟩ := ih (Mem.write_wf m c.1 c.2 wf) fun p hp => inLine p (List.mem_cons_of_mem _ hp)
    refine ⟨wf', fun a ha => (kept a ha).trans (Mem.read_write_ne m c.2 ?_ wf)⟩
    rintro rfl
    exact ha (inLine c List.mem_cons_self)

theorem State.dropLine_dropped {s : State} (wf : Mem.wf s.hbm = true) (line : Nat) : Dropped s (s.dropLine line) [line] := by
  have mine : ∀ p ∈ s.l2.old.filter (fun p => p.1 / 128 == line), p.1 / 128 = line := fun p hp => by simpa using (List.mem_filter.mp hp).2
  obtain ⟨lost, kept⟩ := Mem.foldl_write_line wf line _ mine
  have held (n : Nat) (hn : n ∈ s.l2.held.filter (· != line)) : n ∈ s.l2.held ∧ n ∉ [line] := by simpa using hn
  unfold State.dropLine
  dsimp only
  split
  · exact ⟨rfl, wf, held, fun _ _ => rfl⟩
  · refine ⟨rfl, ?_, held, fun a ha => ?_⟩ <;> dsimp only <;> split
    · exact lost
    · exact wf
    · exact kept a (by simpa using ha)
    · rfl

theorem State.foldl_dropLine_dropped {s : State} (wf : Mem.wf s.hbm = true) (ls : List Nat) : Dropped s (ls.foldl State.dropLine s) ls := by
  induction ls generalizing s with
  | nil => exact .nil wf
  | cons line ls ih =>
    have first := State.dropLine_dropped wf line
    exact first.trans (ih first.wf)

/-! ### Bursts -/

/-- Paying bursts changes counters of pseudo-channels alone (R260). -/
theorem State.payBursts_eq (s : State) (ce : Bool) (need paid : Bursts) :
    ∃ dies, (s.payBursts ce need paid).2 = { s with memStacks := dies } := by
  have pays (xs : List (Nat × Nat)) (a : Bursts × State) (h : ∃ dies, a.2 = { s with memStacks := dies }) :
      ∃ dies, (xs.foldl (fun (a : Bursts × State) (x : Nat × Nat) =>
        let left := x.2 - AMap.getD a.1 x.1 0
        let (k, c) := ((a.2.stack (x.1 / 64)).chan (x.1 % 64)).issue ce left
        if k = 0 then a
        else (AMap.set a.1 x.1 (AMap.getD a.1 x.1 0 + k), a.2.modStack (x.1 / 64) fun t => t.modChan (x.1 % 64) fun _ => c)) a).2 =
        { s with memStacks := dies } := by
    induction xs generalizing a with
    | nil => exact h
    | cons x xs ih =>
      refine ih _ ?_
      obtain ⟨dies, eq⟩ := h
      dsimp only
      split
      · exact ⟨dies, eq⟩
      · exact ⟨_, by rw [eq]; rfl⟩
  exact pays need (paid, s) ⟨s.memStacks, rfl⟩

/-! ### The end of a flush or an invalidation -/

/-- It leaves its core and the outstanding counter. -/
def State.flushGone (s : State) (core ix : Nat) : State :=
  (s.modCore core fun k => { k with flushes := k.flushes.eraseIdx ix }).uncount core 1

theorem State.flushGone_core (s : State) (core ix : Nat) : (s.flushGone core ix).core core =
    { s.core core with flushes := (s.core core).flushes.eraseIdx ix, outst := (s.core core).outst - 1 } := by
  rw [State.flushGone, State.uncount, State.core_modCore_self, State.core_modCore_self]

theorem State.flushGone_counts (t : State) {k : Core} {core : Nat} (ix : Nat) (h : t.core core = k) :
    ((t.flushGone core ix).core core).outst = k.outst - 1 ∧ ((t.flushGone core ix).core core).flushes = k.flushes.eraseIdx ix := by
  rw [State.flushGone_core, h]
  exact ⟨rfl, rfl⟩

/-- Lines of HBM that are dropped leave the cores. -/
theorem State.core_of_dropped (s : State) {t : State} {ls : List Nat} (h : Dropped s t ls) (core : Nat) : t.core core = s.core core := by
  rw [h.eq]
  rfl

/-- The lines of a flush are written back. -/
def State.flushed (s : State) (core ix : Nat) (need paid : Bursts) (mine : Nat → Bool) : State :=
  let t := (s.payBursts false need paid).2
  ({ t with l2 := { t.l2 with old := t.l2.old.filter fun p => !mine (p.1 / 128) } } : State).flushGone core ix

/-- No byte changes by it. -/
theorem State.flushed_spec (s : State) (core ix : Nat) (need paid : Bursts) (mine : Nat → Bool) :
    let t := s.flushed core ix need paid mine
    t.hbm = s.hbm ∧ t.host = s.host ∧ t.l2.old = s.l2.old.filter (fun p => !mine (p.1 / 128)) ∧
      (t.core core).outst = (s.core core).outst - 1 ∧ (t.core core).flushes = (s.core core).flushes.eraseIdx ix := by
  obtain ⟨dies, eq⟩ := s.payBursts_eq false need paid
  dsimp only
  rw [State.flushed, eq]
  exact ⟨rfl, rfl, rfl, State.flushGone_counts _ ix rfl⟩

section
variable {s : State} {core ix : Nat} {f : Flush} (listed : (s.core core).flushes[ix]? = some f)
include listed

/-- An invalidation drops every line of its range that the central die holds. -/
theorem exec_flushComplete_inv (inv : f.inv = true) :
    let mine := lineIn (s.flushLeaves f) f.va f.len
    ∃ ls : List Nat, (∀ n, n ∈ ls ↔ (n ∈ s.l2.held ∨ n ∈ (AMap.keys s.l2.old).map (· / 128)) ∧ mine n = true) ∧
      exec (.flushComplete core ix) s = .next ((ls.foldl State.dropLine s).flushGone core ix) := by
  refine ⟨((s.l2.held ++ (AMap.keys s.l2.old).map (· / 128)).filter (lineIn (s.flushLeaves f) f.va f.len)).foldl insertNat [],
    fun n => ?_, ?_⟩
  · simp only [mem_foldl_insertNat, List.not_mem_nil, false_or, List.mem_filter, List.mem_append]
  · show execFlushComplete core ix s = _
    simp only [execFlushComplete, listed, inv, if_true]
    rfl

/-- A flush waits until its bursts are through. -/
theorem exec_flushComplete_flush (flush : f.inv = false) :
    let mine := lineIn (s.flushLeaves f) f.va f.len
    let need := s.backBursts mine
    let pay := s.payBursts false need f.paid
    exec (.flushComplete core ix) s = .next (if Bursts.covered need pay.1 then s.flushed core ix need f.paid mine
      else pay.2.modCore core fun k => { k with flushes := k.flushes.modify ix fun f => { f with paid := pay.1 } }) := by
  show execFlushComplete core ix s = _
  simp only [execFlushComplete, listed, flush, Bool.false_eq_true, if_false]
  split <;> rfl

end

/-! ### Operations at a node of the thimble -/

/-- The operation leaves the outstanding counter, when it was counted. -/
def State.uncounted (s : State) (o : ScOp) : State := if o.counted then s.uncount o.core 1 else s

theorem State.uncounted_core (s : State) (o : ScOp) : (s.uncounted o).core o.core =
    { s.core o.core with outst := (s.core o.core).outst - (if o.counted then 1 else 0) } := by
  unfold State.uncounted
  split
  · rw [State.uncount, State.core_modCore_self]
  · rfl

theorem State.uncounted_eq (s : State) (o : ScOp) : ∃ cores, s.uncounted o = { s with cores := cores } := by
  unfold State.uncounted
  split
  · exact ⟨_, rfl⟩
  · exact ⟨s.cores, rfl⟩

theorem State.takeOrd_eq (s : State) (ctx : Nat) : ∃ n ctxs, s.takeOrd ctx = (n, { s with ctxs := ctxs }) := by
  unfold State.takeOrd
  split
  · exact ⟨_, s.ctxs, rfl⟩
  · split
    · exact ⟨_, _, rfl⟩
    · exact ⟨_, s.ctxs, rfl⟩

theorem State.modRecord_core (s : State) (core q : Nat) (f : Record → Record) : (s.modRecord core q f).core core =
    { s.core core with records := (s.core core).records.map fun r => if r.pseq == q then f r else r } :=
  State.core_modCore_self ..

/-- The record that waits takes the value. -/
def State.giveTo (s : State) (o : ScOp) (old q : Nat) : State :=
  s.modRecord o.core q fun r => { r with wait := r.wait.gets o.acc.va old o.acc.lane }

/-- The record that waits takes the value; a store's record becomes READY. -/
def State.afterSc (s : State) (o : ScOp) (old : Nat) : State :=
  match o.waiter with
  | none => s
  | some q =>
    let s := s.giveTo o old q
    if (s.core o.core).records.any fun r => r.pseq == q && r.scDone && !r.ready then
      let (ord, s) := s.takeOrd o.ctx
      s.modRecord o.core q fun r => r.wake s.tick ord 0
    else s

/-- A record of some number changes as f says, each other one stays. -/
theorem mem_map_pseq {rs : List Record} {q : Nat} {f : Record → Record} {r : Record} (hr : r ∈ rs) (hq : r.pseq = q) :
    f r ∈ rs.map fun r => if r.pseq == q then f r else r :=
  List.mem_map.mpr ⟨r, hr, by simp [hq]⟩

/-- What a value that is given to a record leaves: all memory, and in the record all but its wait and that it is READY. -/
structure Given (s t : State) (o : ScOp) (old : Nat) : Prop where
  eq : t = { s with cores := t.cores, ctxs := t.ctxs }
  outst : (t.core o.core).outst = (s.core o.core).outst
  waits : ∀ q, o.waiter = some q → ∀ r ∈ (s.core o.core).records, r.pseq = q →
    ∃ x ∈ (t.core o.core).records, x.pseq = q ∧ x.wait = r.wait.gets o.acc.va old o.acc.lane

theorem State.giveTo_given (s : State) {o : ScOp} {q : Nat} (old : Nat) (hw : o.waiter = some q) : Given s (s.giveTo o old q) o old where
  eq := rfl
  outst := by rw [State.giveTo, State.modRecord_core]
  waits q' hq r hr hpseq := by
    obtain rfl : q = q' := Option.some.inj (hw.symm.trans hq)
    rw [State.giveTo, State.modRecord_core]
    exact ⟨_, mem_map_pseq hr hpseq, hpseq, rfl⟩

/-- A record that becomes READY keeps its number and its wait. -/
theorem Given.wake {s u : State} {o : ScOp} {old : Nat} (h : Given s u o old) (q n : Nat) (ctxs : AMap Ctx) :
    Given s (({ u with ctxs := ctxs } : State).modRecord o.core q fun r => r.wake u.tick n 0) o old where
  eq := by
    rw [h.eq]
    rfl
  outst := (congrArg Core.outst (State.modRecord_core ..)).trans h.outst
  waits q' hq r hr hpseq := by
    obtain ⟨x, hx, hxp, hxw⟩ := h.waits q' hq r hr hpseq
    rw [State.modRecord_core]
    refine ⟨_, List.mem_map.mpr ⟨x, hx, rfl⟩, ?_⟩
    split
    · exact ⟨hxp, hxw⟩
    · exact ⟨hxp, hxw⟩

theorem State.afterSc_given (s : State) (o : ScOp) (old : Nat) : Given s (s.afterSc o old) o old := by
  unfold State.afterSc
  cases hw : o.waiter with
  | none => exact ⟨rfl, rfl, fun q hq => absurd (hw.symm.trans hq) nofun⟩
  | some q =>
    have given := s.giveTo_given old hw
    dsimp only
    split
    · obtain ⟨n, ctxs, ord⟩ := (s.giveTo o old q).takeOrd_eq o.ctx
      rw [ord]
      exact given.wake q n ctxs
    · exact given

/-- An operation that no soft error meets is performed, and gives its value. -/
theorem State.performSc_eq {s : State} {o : ScOp} (clean : s.eccMeets o.acc = false) : s.performSc o =
    let x := ((s.uncounted o).storeMeets (some o.ctx) o.acc).performAccess o.acc 0
    x.2.afterSc o x.1 := by
  have clean' : (s.uncounted o).eccMeets o.acc = false := by
    obtain ⟨cores, eq⟩ := s.uncounted_eq o
    rw [eq]
    exact clean
  exact if_neg (Bool.eq_false_iff.mp clean')

/-- One that meets a soft error changes no memory. -/
theorem State.performSc_ecc {s : State} {o : ScOp} (meets : s.eccMeets o.acc = true) :
    ∃ dies cores ctxs, s.performSc o = { s with memStacks := dies, cores := cores, ctxs := ctxs } := by
  obtain ⟨cores, eq⟩ := s.uncounted_eq o
  have meets' : (s.uncounted o).eccMeets o.acc = true := by
    rw [eq]
    exact meets
  obtain ⟨dies, counted⟩ : ∃ dies, (s.uncounted o).countEcc o.acc.place = { s.uncounted o with memStacks := dies } := by
    cases o.acc.place with
    | hbm p => exact ⟨_, rfl⟩
    | host p => exact ⟨_, rfl⟩
    | peer d c p => exact ⟨_, rfl⟩
  have hit : s.performSc o = match o.waiter with
      | some q => ((s.uncounted o).countEcc o.acc.place).wakeEcc o.ctx o.core q o.acc.va
      | none => (s.uncounted o).countEcc o.acc.place := if_pos meets'
  rw [hit, counted, eq]
  cases o.waiter with
  | none => exact ⟨_, _, _, rfl⟩
  | some q =>
    dsimp only
    unfold State.wakeEcc
    obtain ⟨n, ctxs, ord⟩ := State.takeOrd_eq { s with cores := cores, memStacks := dies } o.ctx
    rw [ord]
    exact ⟨_, _, _, rfl⟩

/-- An operation at a place of HBM (R266, R286). -/
theorem State.performSc_hbm {s : State} {o : ScOp} {p : Nat} (clean : s.eccMeets o.acc = false) (place : o.acc.place = .hbm p)
    (fresh : ∀ x ∈ linesOf p o.acc.size, x ∉ s.l2.stale) :
    let old := natOfBytes (Mem.readN s.hbm p o.acc.size)
    let v := o.acc.op.gives old
    let t := s.performSc o
    t.hbm = Mem.writeN s.hbm p (o.acc.op.leaves o.acc.size old) ∧ t.host = s.host ∧
      (t.core o.core).outst = (s.core o.core).outst - (if o.counted then 1 else 0) ∧
      ∀ q, o.waiter = some q → ∀ r ∈ (s.core o.core).records, r.pseq = q →
        ∃ x ∈ (t.core o.core).records, x.pseq = q ∧ x.wait = r.wait.gets o.acc.va v o.acc.lane := by
  intro old v t
  obtain ⟨cores, uncounted⟩ := s.uncounted_eq o
  obtain ⟨clusters, met⟩ := (s.uncounted o).storeMeets_eq (some o.ctx) o.acc
  rw [uncounted] at met
  obtain ⟨l2, performed⟩ := ({ s with cores := cores, clusters := clusters } : State).performAccess_hbm 0 place fun _ => fresh
  let bytes := o.acc.op.leaves o.acc.size old
  let u : State := { s with cores := cores, clusters := clusters, l2 := l2, hbm := Mem.writeN s.hbm p bytes }
  have eq : t = u.afterSc o v := by
    simp only [t, State.performSc_eq clean, uncounted, met, performed]
    rfl
  obtain ⟨same, outst, waits⟩ := u.afterSc_given o v
  rw [← eq] at same outst waits
  have core : ({ s with cores := cores } : State).core o.core =
      { s.core o.core with outst := (s.core o.core).outst - (if o.counted then 1 else 0) } := uncounted ▸ s.uncounted_core o
  refine ⟨by rw [same], by rw [same], outst.trans (congrArg Core.outst core), fun q hq r hr => waits q hq r ?_⟩
  exact (congrArg Core.records core) ▸ hr

/-! ### What an operation leaves of the thimble -/

theorem State.storePlace_thimble (s : State) (p : Place) (bs : List Byte) : (s.storePlace p bs).thimble = s.thimble := by
  unfold State.storePlace
  split
  · dsimp only
    split <;> rfl
  · rfl
  · dsimp only
    split <;> rfl

theorem State.loadPlace_thimble (s : State) (p : Place) (n peer : Nat) : (s.loadPlace p n peer).2.thimble = s.thimble := by
  cases p <;> rfl

theorem State.performAt_thimble (s : State) (a : Access) (peer : Nat) : (s.performAt a peer).2.thimble = s.thimble := by
  unfold State.performAt
  split
  · exact s.storePlace_thimble ..
  · exact s.loadPlace_thimble ..
  · rfl
  · rfl
  · exact (State.storePlace_thimble ..).trans (s.loadPlace_thimble ..)
  · exact (State.storePlace_thimble ..).trans (s.loadPlace_thimble ..)

theorem State.performAccess_thimble (s : State) (a : Access) (peer : Nat) : (s.performAccess a peer).2.thimble = s.thimble := by
  unfold State.performAccess
  split
  · exact s.performAt_thimble ..
  · rfl
  · exact s.performAt_thimble ..

theorem State.performSc_thimble (s : State) (o : ScOp) : (s.performSc o).thimble = s.thimble := by
  cases ecc : s.eccMeets o.acc with
  | true =>
    obtain ⟨dies, cores, ctxs, eq⟩ := State.performSc_ecc ecc
    rw [eq]
  | false =>
    obtain ⟨cores, uncounted⟩ := s.uncounted_eq o
    obtain ⟨clusters, met⟩ := (s.uncounted o).storeMeets_eq (some o.ctx) o.acc
    rw [State.performSc_eq ecc]
    dsimp only
    rw [(State.afterSc_given ..).eq]
    show (State.performAccess _ o.acc 0).2.thimble = _
    rw [State.performAccess_thimble, met, uncounted]

theorem State.foldl_performSc_thimble (s : State) (ops : List ScOp) : (ops.foldl State.performSc s).thimble = s.thimble :=
  List.foldlRecOn (motive := fun t : State => t.thimble = s.thimble) ops State.performSc rfl fun t same o _ => (t.performSc_thimble o).trans same

/-! ### Visits -/

/-- A notify port performs the arrivals of its stack (R279). -/
def State.notifyPort (s : State) (st : Nat) : State :=
  let performed := fun (s : State) (x : Notify) => s.modStack st fun t => t.modPart x.slot fun p =>
    { p with act := p.act.map fun a => if a.run.seq = x.seq ∧ a.run.ctx = x.ctx then { a with notifies := a.notifies - 1 } else a }
  (s.stack st).notify.foldl (fun (s : State) x => (performed s x).happen x.ctx x.order (.notify x.grid x.cell x.payload x.bytes))
    (s.modStack st fun t => { t with notify := [] })

theorem exec_thimbleVisit (s : State) : exec .thimbleVisit s =
    let n := s.thimble.node
    let ops := AMap.getD s.thimble.queues n []
    let fetched := s.fetchLines ((ops.map (·.acc)).filter fun a => !a.isStore)
    let on := { fetched.2 with thimble := { fetched.2.thimble with node := (n + 1) % 76, queues := AMap.del s.thimble.queues n } }
    let u := ops.foldl State.performSc on
    .next (if fetched.1 then if 64 ≤ n then u.notifyPort (n - 64) else u else fetched.2) := by
  have queues : (s.fetchLines (((AMap.getD s.thimble.queues s.thimble.node []).map (·.acc)).filter fun a => !a.isStore)).2.thimble.queues =
      s.thimble.queues := by rw [(s.fetchLines_fetched _).eq]
  show execThimbleVisit s = _
  unfold execThimbleVisit
  dsimp only
  rw [queues]
  cases (s.fetchLines (((AMap.getD s.thimble.queues s.thimble.node []).map (·.acc)).filter fun a => !a.isStore)).1 with
  | false => rfl
  | true =>
    by_cases port : 64 ≤ s.thimble.node
    · rw [if_pos port, if_pos rfl, if_pos port]
      rfl
    · rw [if_neg port, if_pos rfl, if_neg port]
      rfl

/-- A payload and its arrival touch nothing but HBM, caches and the events of a context. -/
theorem State.happen_notify (s : State) (ctx : Nat) (order : List Nat) (grid cell payload : Nat) (bs : List Byte) :
    ∃ hbm l2 ctxs, s.happen ctx order (.notify grid cell payload bs) = { s with hbm := hbm, l2 := l2, ctxs := ctxs } := by
  unfold State.happen
  split
  · exact ⟨s.hbm, s.l2, _, rfl⟩
  · exact ⟨_, _, s.ctxs, rfl⟩

theorem State.notifyPort_thimble (s : State) (st : Nat) : (s.notifyPort st).thimble = s.thimble := by
  unfold State.notifyPort
  dsimp only
  refine List.foldlRecOn (motive := fun t : State => t.thimble = s.thimble) _ _ rfl fun t same x _ => ?_
  obtain ⟨hbm, l2, ctxs, eq⟩ := (t.modStack st fun t => t.modPart x.slot fun p =>
    { p with act := p.act.map fun a => if a.run.seq = x.seq ∧ a.run.ctx = x.ctx then { a with notifies := a.notifies - 1 } else a }).happen_notify
      x.ctx x.order x.grid x.cell x.payload x.bytes
  rw [eq]
  exact same

theorem State.notifyPort_nil {s : State} {st : Nat} (none_ : (s.stack st).notify = []) : (s.notifyPort st).hbm = s.hbm := by
  rw [State.notifyPort, none_]
  rfl

/-- An arrival leaves the same in HBM whatever the base dies are. -/
theorem State.happen_notify_hbm (s : State) (dies : AMap Stack) (ctx : Nat) (order : List Nat) (grid cell payload : Nat) (bs : List Byte) :
    (({ s with memStacks := dies } : State).happen ctx order (.notify grid cell payload bs)).hbm =
      (s.happen ctx order (.notify grid cell payload bs)).hbm := by
  unfold State.happen
  rw [show ({ s with memStacks := dies } : State).det ctx = s.det ctx from rfl,
    show ({ s with memStacks := dies } : State).ctx ctx = s.ctx ctx from rfl]
  split <;> rfl

theorem State.notifyPort_one {s : State} {st : Nat} {x : Notify} (one : (s.stack st).notify = [x]) :
    (s.notifyPort st).hbm = (s.happen x.ctx x.order (.notify x.grid x.cell x.payload x.bytes)).hbm := by
  rw [State.notifyPort, one]
  exact s.happen_notify_hbm _ ..

end Sys2Proof.Machine
end

