-- ==== Sys2Proof/Proofs/MemoryEvents.lean ====
section
/-!
Little-endian numbers and the bytes of a cell (R6, R275), the frame of a page and its image (R249, R255), and page fills.
-/
namespace Sys2Proof.Machine

set_option Elab.async false

/-! ### Numbers in bytes -/

theorem natOfBytes_bytesOfNat (n x : Nat) : natOfBytes (bytesOfNat n x) = x % 2 ^ (8 * n) := by
  induction n generalizing x with
  | zero => simp [bytesOfNat, natOfBytes, Nat.mod_one]
  | succ n ih =>
    have cons : natOfBytes (bytesOfNat (n + 1) x) = x % 256 + 256 * natOfBytes (bytesOfNat n (x / 256)) := by
      simp [bytesOfNat, natOfBytes]
    rw [cons, ih, show 2 ^ (8 * (n + 1)) = 256 * 2 ^ (8 * n) by rw [Nat.mul_add, Nat.pow_add, Nat.mul_comm]]
    exact Nat.mod_mul.symm

/-- Part of what has been written. -/
theorem Mem.readN_writeN_part {m : Mem} (wf : Mem.wf m = true) (a : Nat) (bs : List Byte) {i n : Nat} (h : i + n ≤ bs.length) :
    Mem.readN (Mem.writeN m a bs) (a + i) n = (bs.drop i).take n := by
  rw [← Mem.readN_drop_take _ a bs.length i n h, Mem.readN_writeN bs m a wf]

/-- Bytes that are all as before. -/
theorem Mem.readN_congr {m m' : Mem} {a n : Nat} (h : ∀ i, i < n → Mem.read m (a + i) = Mem.read m' (a + i)) :
    Mem.readN m a n = Mem.readN m' a n :=
  List.map_congr_left fun i hi => h i (List.mem_range.mp hi)

/-! ### Cells -/

/-- The bytes of a cell's fields. -/
def Cell.bytes (c : Cell) : List Byte :=
  bytesOfNat 1 c.kind ++ bytesOfNat 1 c.state ++ bytesOfNat 2 0 ++ bytesOfNat 4 c.expect ++ bytesOfNat 4 c.count ++ bytesOfNat 4 c.gen
    ++ bytesOfNat 8 c.hgrid ++ bytesOfNat 8 c.rbase ++ bytesOfNat 8 c.rlen ++ bytesOfNat 8 c.hwho

theorem State.storeHbm_hbm (s : State) (a : Nat) (bs : List Byte) : (s.storeHbm a bs).hbm = Mem.writeN s.hbm a bs := rfl

theorem State.storeHbm_host (s : State) (a : Nat) (bs : List Byte) : (s.storeHbm a bs).host = s.host := rfl

theorem State.setCell_hbm (s : State) (pa : Nat) (c : Cell) : (s.setCell pa c).hbm = Mem.writeN s.hbm pa c.bytes := by
  rw [State.setCell, State.storeHbm_hbm, Cell.bytes]

/-- Every field has room for its value. -/
structure Cell.Fits (c : Cell) : Prop where
  kind : c.kind < 2 ^ (8 * 1)
  state : c.state < 2 ^ (8 * 1)
  expect : c.expect < 2 ^ (8 * 4)
  count : c.count < 2 ^ (8 * 4)
  gen : c.gen < 2 ^ (8 * 4)
  hgrid : c.hgrid < 2 ^ (8 * 8)
  rbase : c.rbase < 2 ^ (8 * 8)
  rlen : c.rlen < 2 ^ (8 * 8)
  hwho : c.hwho < 2 ^ (8 * 8)

theorem State.cell_fits (s : State) (pa : Nat) : (s.cell pa).Fits := by
  have bound (a n : Nat) : natOfBytes (Mem.readN s.hbm a n) < 2 ^ (8 * n) := by
    have := natOfBytes_lt (Mem.readN s.hbm a n)
    rwa [Mem.readN_length] at this
  exact ⟨bound _ _, bound _ _, bound _ _, bound _ _, bound _ _, bound _ _, bound _ _, bound _ _, bound _ _⟩

/-- A cell reads as it was written. -/
theorem State.cell_setCell {s : State} (wf : Mem.wf s.hbm = true) (pa : Nat) {c : Cell} (h : c.Fits) : (s.setCell pa c).cell pa = c := by
  have part (i n x : Nat) (fits : i + n ≤ 48) (at_ : (c.bytes.drop i).take n = bytesOfNat n x) (hx : x < 2 ^ (8 * n)) :
      natOfBytes (Mem.readN (s.setCell pa c).hbm (pa + i) n) = x := by
    rw [State.setCell_hbm, Mem.readN_writeN_part wf pa _ fits, at_, natOfBytes_bytesOfNat, Nat.mod_eq_of_lt hx]
  unfold State.cell
  simp only [part 0 1 c.kind (by decide) rfl h.kind, part 1 1 c.state (by decide) rfl h.state, part 4 4 c.expect (by decide) rfl h.expect,
    part 8 4 c.count (by decide) rfl h.count, part 0xC 4 c.gen (by decide) rfl h.gen, part 0x10 8 c.hgrid (by decide) rfl h.hgrid,
    part 0x18 8 c.rbase (by decide) rfl h.rbase, part 0x20 8 c.rlen (by decide) rfl h.rlen, part 0x28 8 c.hwho (by decide) rfl h.hwho]

/-- A cell after one arrival (R279). -/
def Cell.arrived (c : Cell) : Cell :=
  if (c.count + 1) % 2 ^ 32 = c.expect then { c with count := 0, gen := (c.gen + 1) % 2 ^ 32 } else { c with count := (c.count + 1) % 2 ^ 32 }

theorem Cell.Fits.arrived {c : Cell} (h : c.Fits) : c.arrived.Fits := by
  unfold Cell.arrived
  split
  · exact { h with count := Nat.two_pow_pos _, gen := Nat.mod_lt _ (Nat.two_pow_pos _) }
  · exact { h with count := Nat.mod_lt _ (Nat.two_pow_pos _) }

theorem State.arrive_eq (s : State) (pa : Nat) : s.arrive pa = s.setCell pa (s.cell pa).arrived := rfl

/-- An arrival changes the bytes of its cell alone. -/
theorem State.arrive_spec {s : State} (wf : Mem.wf s.hbm = true) (pa : Nat) :
    Claim.OnlyCell s (s.arrive pa) pa ∧ (s.arrive pa).cell pa = (s.cell pa).arrived := by
  rw [State.arrive_eq]
  refine ⟨⟨fun a out => ?_, ?_⟩, State.cell_setCell wf pa (s.cell_fits pa).arrived⟩
  · rw [State.setCell_hbm]
    exact Mem.read_writeN_out _ _ _ _ out wf
  · rw [State.setCell, State.storeHbm_host]

/-! ### Frames (R249) -/

/-- A frame of n bytes at pa lies in one window of HBM. -/
structure Frame (pa n : Nat) : Prop where
  hbm : (hbmOf pa).isSome = true
  window : winOf pa = winOf (pa + n - 1)

theorem winOf_eq_local_iff (pa : Nat) : winOf pa = .local ↔ pa < 0xC0 * 2 ^ 32 := by
  unfold winOf
  split_ifs <;> simp <;> omega

theorem winOf_eq_striped_iff (pa : Nat) : winOf pa = .striped ↔ 0x100 * 2 ^ 32 ≤ pa ∧ pa < 0x1C0 * 2 ^ 32 := by
  unfold winOf
  split_ifs <;> simp <;> omega

theorem winOf_of_hbmOf_isSome {pa : Nat} (h : (hbmOf pa).isSome = true) : winOf pa = .local ∨ winOf pa = .striped := by
  unfold hbmOf at h
  split at h
  · exact .inl ‹_›
  · exact .inr ‹_›
  · exact absurd h Bool.false_ne_true

/-- The striped view of a DRAM byte is the one that it was reached through. -/
theorem stripedOf_hbmOf {pa : Nat} (h : winOf pa = .striped) : ∃ x, hbmOf pa = some x ∧ stripedOf x = pa := by
  obtain ⟨lo, hi⟩ := (winOf_eq_striped_iff pa).mp h
  refine ⟨_, by rw [hbmOf, h], ?_⟩
  simp only [stripedOf]
  omega

/-- Each byte of a frame stands in HBM, and is found there. -/
theorem Frame.byte {pa n i : Nat} (h : Frame pa n) (hi : i < n) : ∃ x, hbmOf (pa + i) = some x ∧ offsetIn pa n x = some i := by
  obtain ⟨hbm, window⟩ := h
  rcases winOf_of_hbmOf_isSome hbm with here | here
  · have last := (winOf_eq_local_iff _).mp (window ▸ here)
    have there : winOf (pa + i) = .local := (winOf_eq_local_iff _).mpr (by omega)
    refine ⟨pa + i, by rw [hbmOf, there], ?_⟩
    simp [offsetIn, here, hi]
  · have first := (winOf_eq_striped_iff _).mp here
    have last := (winOf_eq_striped_iff _).mp (window ▸ here)
    have there : winOf (pa + i) = .striped := (winOf_eq_striped_iff _).mpr (by omega)
    obtain ⟨x, found, back⟩ := stripedOf_hbmOf there
    refine ⟨x, found, ?_⟩
    simp [offsetIn, here, back, hi]

/-- Two bytes of a frame at one place are the same byte. -/
theorem Frame.inj {pa n i j : Nat} (h : Frame pa n) (hi : i < n) (hj : j < n) (same : (hbmOf (pa + i)).getD 0 = (hbmOf (pa + j)).getD 0) :
    i = j := by
  obtain ⟨x, hx, offx⟩ := h.byte hi
  obtain ⟨y, hy, offy⟩ := h.byte hj
  rw [hx, hy, Option.getD_some, Option.getD_some] at same
  subst same
  exact Option.some.inj (offx.symm.trans offy)

/-! ### Images -/

/-- The bytes of an image written to their places. -/
def Mem.place (m cells : Mem) (f : Nat → Nat) : Mem := cells.foldl (fun m c => Mem.write m (f c.1) c.2) m

theorem Mem.place_wf {m : Mem} (wf : Mem.wf m = true) (cells : Mem) (f : Nat → Nat) : Mem.wf (m.place cells f) = true :=
  List.foldlRecOn (motive := fun m : Mem => Mem.wf m = true) _ _ wf fun m wf _ _ => Mem.write_wf m _ _ wf

theorem Mem.read_place_out {m : Mem} (wf : Mem.wf m = true) {cells : Mem} {f : Nat → Nat} {x : Nat} (h : ∀ c ∈ cells, f c.1 ≠ x) :
    Mem.read (m.place cells f) x = Mem.read m x := by
  induction cells generalizing m with
  | nil => rfl
  | cons c r ih =>
    exact (ih (Mem.write_wf m _ _ wf) fun d hd => h d (List.mem_cons_of_mem _ hd)).trans
      (Mem.read_write_ne m c.2 (h c List.mem_cons_self).symm wf)

/-- Over zeros, the image's own bytes are read. -/
theorem Mem.read_place {m : Mem} (wf : Mem.wf m = true) {cells : Mem} (image : Mem.wf cells = true) {f : Nat → Nat} {n i : Nat}
    (inj : ∀ j k, j < n → k < n → f j = f k → j = k) (within : ∀ c ∈ cells, c.1 < n) (hi : i < n) (zero : Mem.read m (f i) = 0) :
    Mem.read (m.place cells f) (f i) = Mem.read cells i := by
  induction cells generalizing m with
  | nil => exact zero
  | cons c r ih =>
    obtain ⟨y, b⟩ := c
    obtain ⟨-, above, wfr⟩ := (Mem.wf_cons y b r).mp image
    have hy : y < n := within _ List.mem_cons_self
    have withinR : ∀ c ∈ r, c.1 < n := fun c hc => within c (List.mem_cons_of_mem _ hc)
    by_cases here : y = i
    · subst here
      have out : ∀ c ∈ r, f c.1 ≠ f y := fun c hc same => absurd (inj _ _ (withinR c hc) hy same) (Nat.ne_of_gt (above c hc))
      have head : Mem.read ((y, b) :: r) y = b := by rw [Mem.read, if_pos rfl]
      exact (Mem.read_place_out (Mem.write_wf m _ _ wf) out).trans ((Mem.read_write_self m _ b wf).trans head.symm)
    · have unmet : f i ≠ f y := fun same => here (inj _ _ hi hy same).symm
      refine (ih (Mem.write_wf m _ _ wf) wfr withinR ((Mem.read_write_ne m b unmet wf).trans zero)).trans ?_
      rw [Mem.read, if_neg here]
      split
      · exact Mem.read_above _ _ fun d hd => Nat.lt_trans ‹_› (above d hd)
      · rfl

/-- A page's image, as the cells of a frame: byte by byte, and nothing beyond it. -/
structure PageImage (cells : Mem) (n : Nat) (image : Nat → Byte) : Prop where
  wf : Mem.wf cells = true
  within : ∀ c ∈ cells, c.1 < n
  read : ∀ i, i < n → Mem.read cells i = image i

theorem PageImage.zero (n : Nat) : PageImage [] n fun _ => 0 := ⟨rfl, by simp, fun _ _ => rfl⟩

theorem Mem.read_shift (m : Mem) (a i : Nat) (h : ∀ c ∈ m, a ≤ c.1) : Mem.read (m.map fun c => (c.1 - a + 0, c.2)) i = Mem.read m (a + i) := by
  induction m with
  | nil => rfl
  | cons c r ih =>
    obtain ⟨y, b⟩ := c
    have hy : a ≤ y := h (y, b) List.mem_cons_self
    have ih := ih fun c hc => h c (List.mem_cons_of_mem _ hc)
    have same : y - a + 0 = i ↔ y = a + i := by omega
    have below : i < y - a + 0 ↔ a + i < y := by omega
    simp only [List.map_cons, Mem.read, ih, same, below]

theorem Mem.read_slice {m : Mem} (wf : Mem.wf m = true) (a n i : Nat) : Mem.read (Mem.slice m a n 0) i = if i < n then Mem.read m (a + i) else 0 := by
  rw [Mem.slice, Mem.read_shift _ a i fun c hc => by simpa using (Bool.and_eq_true_iff.mp (List.mem_filter.mp hc).2).1,
    Mem.read_filter (fun x => decide (a ≤ x) && decide (x < a + n)) m (a + i) wf]
  simp

theorem PageImage.slice {m : Mem} (wf : Mem.wf m = true) (a n : Nat) : PageImage (Mem.slice m a n 0) n fun i => Mem.read m (a + i) where
  wf := Mem.slice_wf m a n 0 wf
  within c hc := by
    obtain ⟨d, hd, rfl⟩ := List.mem_map.mp hc
    have := (List.mem_filter.mp hd).2
    simp only [Bool.and_eq_true, decide_eq_true_eq] at this
    dsimp only
    omega
  read i hi := (Mem.read_slice wf a n i).trans (if_pos hi)

/-- A byte list as cells from an offset on. -/
theorem cellsFrom (bs : List Byte) (k : Nat) :
    let cells : Mem := ((List.range' k bs.length).zip bs).filter fun c => c.2 != 0
    Mem.wf cells = true ∧ (∀ c ∈ cells, k ≤ c.1 ∧ c.1 < k + bs.length) ∧ ∀ i, Mem.read cells (k + i) = bs.getD i 0 := by
  induction bs generalizing k with
  | nil => exact ⟨rfl, by simp, fun _ => rfl⟩
  | cons b bs ih =>
    obtain ⟨wf, within, read⟩ := ih (k + 1)
    intro cells
    have above : Mem.above k (((List.range' (k + 1) bs.length).zip bs).filter fun c => c.2 != 0) := fun c hc => (within c hc).1
    by_cases zero : b = 0
    · have eq : cells = ((List.range' (k + 1) bs.length).zip bs).filter fun c => c.2 != 0 :=
        List.filter_cons_of_neg (by simp [zero])
      rw [eq]
      refine ⟨wf, fun c hc => ?_, fun i => ?_⟩
      · have := within c hc
        simp only [List.length_cons]
        omega
      · cases i with
        | zero => exact (Mem.read_above _ k above).trans zero.symm
        | succ i => exact (congrArg (Mem.read _) (by omega)).trans (read i)
    · have eq : cells = (k, b) :: ((List.range' (k + 1) bs.length).zip bs).filter fun c => c.2 != 0 :=
        List.filter_cons_of_pos (bne_iff_ne.mpr zero)
      rw [eq]
      refine ⟨(Mem.wf_cons _ _ _).mpr ⟨zero, above, wf⟩, fun c hc => ?_, fun i => ?_⟩
      · simp only [List.length_cons]
        rcases List.mem_cons.mp hc with rfl | hc
        · exact ⟨Nat.le_refl _, by dsimp only; omega⟩
        · have := within c hc
          omega
      · cases i with
        | zero => simp [Mem.read]
        | succ i =>
          have later : ¬ k = k + (i + 1) := by omega
          have after : ¬ k + (i + 1) < k := by omega
          rw [Mem.read, if_neg later, if_neg after]
          exact (congrArg (Mem.read _) (by omega)).trans (read i)

theorem PageImage.cellsOf (bs : List Byte) : PageImage (cellsOf bs) bs.length fun i => bs.getD i 0 := by
  obtain ⟨wf, within, read⟩ := cellsFrom bs 0
  rw [Machine.cellsOf, List.range_eq_range']
  exact ⟨wf, fun c hc => by simpa using (within c hc).2, fun i _ => by simpa using read i⟩

/-- A frame replaced by an image holds it; every other byte is as before. -/
theorem State.setFrame_hbm {s : State} (wf : Mem.wf s.hbm = true) {pa n : Nat} (frame : Frame pa n) {cells : Mem} {image : Nat → Byte}
    (im : PageImage cells n image) :
    Mem.wf (s.setFrame pa n cells).hbm = true ∧
    (∀ i x, i < n → hbmOf (pa + i) = some x → Mem.read (s.setFrame pa n cells).hbm x = image i) ∧
    ∀ x, offsetIn pa n x = none → Mem.read (s.setFrame pa n cells).hbm x = Mem.read s.hbm x := by
  let place : Nat → Nat := fun i => (hbmOf (pa + i)).getD 0
  let kept : Mem := s.hbm.filter fun c => (offsetIn pa n c.1).isNone
  have eq : (s.setFrame pa n cells).hbm = kept.place cells place := rfl
  have wfk : Mem.wf kept = true := Mem.filter_wf _ _ wf
  have readKept (x : Nat) : Mem.read kept x = if (offsetIn pa n x).isNone then Mem.read s.hbm x else 0 :=
    Mem.read_filter (fun x => (offsetIn pa n x).isNone) s.hbm x wf
  rw [eq]
  refine ⟨Mem.place_wf wfk _ _, fun i x hi hx => ?_, fun x hx => ?_⟩
  · have at_ : place i = x := by simp only [place, hx, Option.getD_some]
    have zero : Mem.read kept (place i) = 0 := by
      obtain ⟨y, hy, off⟩ := frame.byte hi
      rw [at_, readKept, Option.some.inj (hx.symm.trans hy), off]
      rfl
    rw [← at_, Mem.read_place wfk im.wf (fun j k hj hk => frame.inj hj hk) im.within hi zero]
    exact im.read i hi
  · have out : ∀ c ∈ cells, place c.1 ≠ x := by
      intro c hc same
      obtain ⟨y, hy, off⟩ := frame.byte (im.within c hc)
      simp only [place, hy, Option.getD_some] at same
      rw [same, hx] at off
      exact absurd off nofun
    rw [Mem.read_place_out wfk out, readKept, hx]
    rfl

/-! ### Fills (R255) -/

theorem Backing.parse_spec {bs : List Byte} {l : Leaf} {b : Backing} (h : Backing.parse bs l = some b) :
    Frame b.frame l.size ∧ (b.kind = 1 → l.cmp = false → b.srclen = l.size) := by
  unfold Backing.parse at h
  obtain ⟨ok, eq⟩ := Option.ite_none_right_eq_some.mp h
  obtain rfl := Option.some.inj eq
  simp only [Bool.and_eq_true, Bool.or_eq_true, beq_iff_eq] at ok
  obtain ⟨⟨⟨-, found⟩, window⟩, source⟩ := ok
  refine ⟨⟨found, window⟩, fun kind plain => ?_⟩
  rw [show field bs 0x10 1 = 1 from kind, plain] at source
  simpa using (source.resolve_left (by decide)).1

/-- What a fill writes: the image in the frame, RES and the frame in the entry. -/
def State.filled (s : State) (l : Leaf) (frame : Nat) (cells : Mem) : State :=
  let t := s.setFrame frame l.size cells
  let e := natOfBytes (Mem.readN t.hbm l.entry 8)
  t.storeHbm l.entry (bytesOfNat 8 (e % 2 ^ 12 + (if e / 4 % 2 = 1 then 0 else 4) + frame / 4096 * 2 ^ 12))

section
variable {s : State} {ctx va p : Nat} {r : Resp} {l : Leaf} {b : Backing} {cells : Mem}

/-- The fill of a page whose descriptor is resident and in order (R255). -/
theorem fillPage_eq_done (walk : s.walk ctx va = some l) (absent : l.res = false) (bound : l.addr < s.regN ctx 0x14)
    (reach : s.reach ctx { r := true } (fun _ => true) [⟨0, BitVec.ofNat 64 (s.regN ctx 0x13 + 64 * l.addr), 64⟩] = .ok [.hbm p])
    (fresh : ∀ x ∈ linesOf p 64, x ∉ s.l2.stale) (parse : Backing.parse (Mem.readN s.hbm p 64) l = some b) (kind : b.kind ≠ 2)
    (image : s.fillImage ctx l b r = .ok cells) :
    fillPage s.fillDepth s ctx va r = .done ((s.hold p 64).filled l b.frame cells) := by
  have inRange : ¬ s.regN ctx rBKCOUNT ≤ l.addr := Nat.not_le.mpr bound
  have read : s.readPlace (.hbm p) 64 = (Mem.readN s.hbm p 64, s.hold p 64) := State.loadHbm_of_fresh fresh
  have image' : (s.hold p 64).fillImage ctx l b r = .ok cells := image
  have unrefused : (s.hold p 64).refuses { r := true } (.hbm p) 64 = false := rfl
  rw [State.fillDepth, fillPage]
  simp only [walk, absent, Bool.false_eq_true, if_false, if_neg inRange]
  rw [show rBKBASE = 0x13 from rfl, reach]
  simp only [fillPage.finish, reach, read, parse, unrefused, Bool.false_eq_true, if_false]
  match r with
  | .ok [] => simp only [if_neg kind, List.isEmpty_nil, if_true, image', State.filled]
  | .ok (_ :: _) | .refused | .ecc => simp only [List.isEmpty_nil, if_true, image', State.filled]

end

/-- The bytes of a filled page, and of its entry. -/
theorem State.filled_hbm {s : State} (wf : Mem.wf s.hbm = true) {l : Leaf} {frame : Nat} (inWindow : Frame frame l.size) {cells : Mem}
    {image : Nat → Byte} (im : PageImage cells l.size image) (apart : ∀ i, i < 8 → offsetIn frame l.size (l.entry + i) = none) :
    (∀ i, i < l.size → ∀ x, hbmOf (frame + i) = some x → Mem.read (s.filled l frame cells).hbm x = image i) ∧
    natOfBytes (Mem.readN (s.filled l frame cells).hbm l.entry 8) =
      (let e := natOfBytes (Mem.readN s.hbm l.entry 8)
       (e % 2 ^ 12 + (if e / 4 % 2 = 1 then 0 else 4) + frame / 4096 * 2 ^ 12) % 2 ^ 64) := by
  obtain ⟨wfFrame, inside, outside⟩ := State.setFrame_hbm wf inWindow im
  have entry : Mem.readN (s.setFrame frame l.size cells).hbm l.entry 8 = Mem.readN s.hbm l.entry 8 :=
    Mem.readN_congr fun i hi => outside _ (apart i hi)
  refine ⟨fun i hi x hx => ?_, ?_⟩
  · obtain ⟨y, hy, off⟩ := inWindow.byte hi
    obtain rfl : y = x := Option.some.inj (hy.symm.trans hx)
    have away : y < l.entry ∨ l.entry + 8 ≤ y := by
      by_contra near
      have := apart (y - l.entry) (by omega)
      rw [show l.entry + (y - l.entry) = y by omega, off] at this
      exact absurd this nofun
    rw [State.filled, State.storeHbm_hbm, Mem.read_writeN_out _ _ _ _ (by rwa [bytesOfNat_length]) wfFrame]
    exact inside i y hi hx
  · rw [State.filled, State.storeHbm_hbm, entry]
    have bytes (x : Nat) : Mem.readN (Mem.writeN (s.setFrame frame l.size cells).hbm l.entry (bytesOfNat 8 x)) l.entry 8 = bytesOfNat 8 x := by
      have whole := Mem.readN_writeN (bytesOfNat 8 x) (s.setFrame frame l.size cells).hbm l.entry wfFrame
      rwa [bytesOfNat_length] at whole
    rw [bytes, natOfBytes_bytesOfNat]

/-- The image of a page of zeros (R255). -/
theorem State.fillImage_zero {s : State} {ctx : Nat} {l : Leaf} {b : Backing} (r : Resp) (kind : b.kind = 3)
    (known : l.cmp = true → rgWidth b.xform ≠ none) : s.fillImage ctx l b r = .ok [] := by
  have ok : ¬ (l.cmp = true ∧ (rgWidth b.xform).isNone = true) := fun ⟨cmp, none_⟩ => known cmp (Option.isNone_iff_eq_none.mp none_)
  unfold State.fillImage
  rw [if_pos kind, if_neg ok]

section
variable {s : State} {ctx a : Nat} {l : Leaf} {b : Backing} (d : List Nat) (kind : b.kind = 1) (source : s.placeOf ctx b.src = some (.host a))
include kind source

/-- The host's bytes as they stand. -/
theorem State.fillImage_plain (plain : l.cmp = false) : s.fillImage ctx l b (.ok d) = .ok (Mem.slice s.host a b.srclen 0) := by
  simp [State.fillImage, kind, source, plain, Place.isPeer]

/-- The host's bytes through the expander (R317). -/
theorem State.fillImage_expanded (wf : Mem.wf s.host = true) (cmp : l.cmp = true) (raw : b.xform % 2 = 0 → b.srclen = l.size)
    {bs : List Byte} (len : bs.length = l.size)
    (expands : expand (fun i n => if i + n ≤ b.srclen then some (Mem.readN s.host (a + i) n) else none) b.xform l.size l.size = some bs) :
    s.fillImage ctx l b (.ok d) = .ok (cellsOf bs) := by
  have stream : (fun i n => if i + n ≤ b.srclen then some (Mem.readN (Mem.slice s.host a b.srclen 0) i n) else none) =
      fun i n => if i + n ≤ b.srclen then some (Mem.readN s.host (a + i) n) else none := by
    funext i n
    refine ite_congr rfl (fun within => ?_) fun _ => rfl
    refine congrArg some (List.map_congr_left fun j hj => ?_)
    have := List.mem_range.mp hj
    rw [Mem.read_slice wf, if_pos (by omega), Nat.add_assoc]
  have shape : ¬ (b.xform % 2 = 0 ∧ b.srclen ≠ l.size) := fun ⟨even, ne⟩ => ne (raw even)
  simp only [State.fillImage, kind, source, Place.isPeer, cmp, stream, expands, if_pos len, if_neg shape]
  rfl

end

/-! ### PAGE_FILL_COMPLETE (R255, R256) -/

/-- Where the backing table cannot be reached. -/
theorem State.fillLost_table (s : State) (ix : Nat) (f : Fill) (errs : List FillErr) :
    s.fillLost ix f errs true = (s.dropFill ix).fillFailed f.ctx errs true := by
  simp only [State.fillLost, if_true]

/-- Where the page alone cannot be filled. -/
theorem State.fillLost_page (s : State) (ix : Nat) (f : Fill) (errs : List FillErr) :
    s.fillLost ix f errs false = ((((s.dropFill ix).fillFailed f.ctx errs false).wakePage f 0x06).failEngines f
      ((errs.getLast?.map (·.code)).getD 0)).parkPage f.ctx f.va f.size := by
  simp only [State.fillLost, Bool.false_eq_true, if_false]
  cases errs.getLast? <;> rfl

section
variable {s u : State} {ix : Nat} {f : Fill} {r : Resp} (listed : s.fills[ix]? = some f) (started : f.started = true)
include listed started

/-- A fill that has ended well stands once its bursts are through. -/
theorem exec_pageFillComplete_done (done : fillPage s.fillDepth s f.ctx f.va r = .done u) :
    let need := s.fillBursts u f
    let pay := s.payBursts true need f.paid
    exec (.pageFillComplete ix r) s = .next (if Bursts.covered need pay.1 then (u.payBursts true need f.paid).2.fillDone ix f
      else { pay.2 with fills := pay.2.fills.modify ix fun f => { f with paid := pay.1 } }) := by
  show execPageFillComplete ix r s = _
  simp only [execPageFillComplete, listed, started, done, Bool.not_true, Bool.false_eq_true, if_false]
  split <;> rfl

theorem exec_pageFillComplete_failed {errs : List FillErr} {lost : Bool}
    (failed : fillPage s.fillDepth s f.ctx f.va r = .failed u errs lost) :
    exec (.pageFillComplete ix r) s = .next (u.fillLost ix f errs lost) := by
  show execPageFillComplete ix r s = _
  simp only [execPageFillComplete, listed, started, failed, Bool.not_true, Bool.false_eq_true, if_false]

end

end Sys2Proof.Machine

namespace Sys2Proof.Claim
open Machine

set_option Elab.async false

/-- Settles O44: each event, and each operation at a node, by the lemma that says what it leaves. -/
theorem memoryEvents : Obligations.MemoryEvents := by
  unfold Obligations.MemoryEvents
  intro changed
  refine ⟨fun s core ix f ok listed => ?_, fun s => ?_, fun s o p ok place fresh => ?_, fun s ctx grid cell payload order bs => ?_,
    fun s ctx va p r l b image ok walk absent bound reach fresh parse apart source => ?_, fun s u ix f r listed started => ?_⟩
  · intro mine need pay ends
    refine ⟨fun inv => ?_, fun flush covered => ?_, fun flush uncovered => ?_⟩
    · obtain ⟨ls, lines, hx⟩ := exec_flushComplete_inv listed inv
      have dropped := State.foldl_dropLine_dropped (State.wf_hbm_of_memOk ok) ls
      obtain ⟨outst, flushes⟩ := (ls.foldl State.dropLine s).flushGone_counts ix (s.core_of_dropped dropped core)
      have host : (ls.foldl State.dropLine s).host = s.host := by rw [dropped.eq]
      refine ⟨_, ⟨hx, outst, flushes, host⟩, fun n held => ?_, fun a other => dropped.kept a fun hit => ?_⟩
      · obtain ⟨there, unlisted⟩ := dropped.held n held
        exact Bool.eq_false_iff.mpr fun within => unlisted ((lines n).mpr ⟨.inl there, within⟩)
      · exact absurd ((lines _).mp hit).2 (Bool.eq_false_iff.mp other)
    · have hx := (exec_flushComplete_flush listed flush).trans (congrArg _ (if_pos covered))
      obtain ⟨hbm, host, old, outst, flushes⟩ := State.flushed_spec s core ix need f.paid mine
      exact ⟨_, ⟨hx, outst, flushes, host⟩, hbm, old⟩
    · exact (exec_flushComplete_flush listed flush).trans (congrArg _ (if_neg (Bool.eq_false_iff.mp uncovered)))
  · intro n ops fetched on u
    have hx := exec_thimbleVisit s
    have node : u.thimble.node = (n + 1) % 76 := congrArg Thimble.node (on.foldl_performSc_thimble ops)
    refine ⟨fun away => hx.trans (congrArg _ (if_neg (Bool.eq_false_iff.mp away))),
      fun there slice => hx.trans (congrArg _ ((if_pos there).trans (if_neg (Nat.not_le.mpr slice)))),
      fun there port => ⟨_, hx.trans (congrArg _ ((if_pos there).trans (if_pos port))), ?_, State.notifyPort_nil, fun x => State.notifyPort_one⟩⟩
    exact (congrArg Thimble.node (u.notifyPort_thimble (n - 64))).trans node
  · intro n old t gives
    have wf := State.wf_hbm_of_memOk ok
    refine ⟨fun ecc => ?_, fun clean => ?_⟩
    · obtain ⟨dies, cores, ctxs, eq⟩ := State.performSc_ecc ecc
      show (s.performSc o).hbm = s.hbm
      rw [eq]
    · obtain ⟨hbm, host, outst, waits⟩ := State.performSc_hbm clean place fresh
      have given : gives (o.acc.op.gives old) := ⟨host, outst, waits⟩
      have bytes : changed s.hbm t.hbm p (o.acc.op.leaves n old) := fun x => by
        rw [show t.hbm = _ from hbm]
        exact Mem.read_writeN _ _ _ _ wf
      have both := And.intro given bytes
      refine ⟨fun op => ?_, fun bs op => ?_, fun opc sg b op => ?_, fun b c op => ?_⟩
      · rw [op] at given hbm
        exact ⟨given, hbm⟩
      · rwa [op] at both
      · rwa [op] at both
      · rwa [op] at both
  · intro t
    refine ⟨fun det alive => if_pos ?_, fun free ok => ?_⟩
    · rw [det, Bool.true_and]
      exact bne_iff_ne.mpr alive
    · have eq : t = (s.storeHbm payload bs).arrive cell := if_neg (by rw [free]; exact Bool.false_ne_true)
      have wf : Mem.wf (s.storeHbm payload bs).hbm = true := Mem.writeN_wf _ _ _ (State.wf_hbm_of_memOk ok)
      obtain ⟨only, arrived⟩ := State.arrive_spec wf cell
      have bytes := State.read_hbm_storeHbm ok payload bs
      rw [eq]
      exact ⟨s.storeHbm payload bs, bytes, only, only.2, arrived⟩
  · have wf := State.wf_hbm_of_memOk ok
    obtain ⟨frame, plain⟩ := Backing.parse_spec parse
    obtain ⟨cells, kind, filled, im⟩ : ∃ cells, b.kind ≠ 2 ∧ s.fillImage ctx l b r = .ok cells ∧ PageImage cells l.size image := by
      obtain ⟨kind, known, rfl⟩ | ⟨kind, ⟨d, rfl⟩, a, at_, ⟨raw, rfl⟩ | ⟨cmp, shape, bs, len, rfl, expands⟩⟩ := source
      · exact ⟨[], by omega, State.fillImage_zero r kind known, .zero _⟩
      · refine ⟨_, by omega, State.fillImage_plain d kind at_ raw, ?_⟩
        rw [plain kind raw]
        exact .slice (wf_host_of_memOk ok) a l.size
      · exact ⟨_, by omega, State.fillImage_expanded d kind at_ (wf_host_of_memOk ok) cmp shape len expands, len ▸ .cellsOf bs⟩
    have done := fillPage_eq_done walk absent bound reach fresh parse kind filled
    obtain ⟨bytes, entry⟩ := State.filled_hbm (s := s.hold p 64) wf frame im apart
    exact ⟨_, done, rfl, bytes, entry⟩
  · refine ⟨fun done => ?_, fun errs failed => ?_, fun errs failed => ?_⟩
    · have hx := exec_pageFillComplete_done listed started done
      exact ⟨fun covered => hx.trans (congrArg _ (if_pos covered)), fun uncovered => hx.trans (congrArg _ (if_neg (Bool.eq_false_iff.mp uncovered)))⟩
    · rw [exec_pageFillComplete_failed listed started failed, State.fillLost_page]
    · rw [exec_pageFillComplete_failed listed started failed, State.fillLost_table]

end Sys2Proof.Claim
end

