-- ==== Sys2Proof/Proofs/ContextCommands.lean ====
section
/-!
Commands of the driver on contexts (R408, R409, R432 to R434, R436, R439), and O49.
-/
namespace Sys2Proof.Machine
open Claim

set_option Elab.async false

/-! ### Commands and their status (R429, R432) -/

theorem State.status_eq (s : State) (fn code : Nat) : s.status fn code = answered s fn code := by
  have vector : (0 : Nat) < msixVectors fn := by
    unfold msixVectors
    split <;> decide
  simp only [State.status, answered, State.modFunc, Func.raise, if_pos vector]
  rfl

theorem State.busyCtx_eq (s : State) (fn ctx : Nat) : s.busyCtx fn ctx = working s fn ctx := rfl

section
variable {s : State} {fn ctx : Nat} (ready : Ready s fn) (name : String) (k : Unit → State)
include ready

theorem State.command_of_ready : s.command name fn k = .next (k ()) := by
  obtain ⟨valid, free, there⟩ := ready
  refine if_neg ?_
  simp [free, State.hasCommand, there, Nat.not_lt.mpr valid]

theorem State.ctxCommand_of_other (other : (s.ctx ctx).owner ≠ fn) : s.ctxCommand name fn ctx k = .next (answered s fn 3) := by
  rw [State.ctxCommand, State.command_of_ready ready, if_pos (.inr other), State.status_eq]

theorem State.ctxCommand_of_owner (bound : ctx < 1024) (own : (s.ctx ctx).owner = fn) : s.ctxCommand name fn ctx k = .next (k ()) := by
  rw [State.ctxCommand, State.command_of_ready ready, if_neg (not_or.mpr ⟨Nat.not_le.mpr bound, not_not.mpr own⟩)]

end

/-! ### Active entries (R408) -/

theorem CtxState.active_or_passing (x : CtxState) : (x == .active || x.passing) = decide (x ∈ [.active, .saving, .restoring, .killing]) := by
  cases x <;> rfl

theorem State.activeEntries_eq (s : State) :
    s.activeEntries = (s.ctxs.filter fun (c : Nat × Ctx) => c.2.st ∈ [.active, .saving, .restoring, .killing]).length := by
  simp only [State.activeEntries, CtxState.active_or_passing]

/-! ### Drains of a pre-emption (R421) -/

/-- A drain that no handle belongs to leaves the contexts. -/
theorem State.startDrain_ctxs (s : State) (st slot : Nat) {d : Drain} (noHandle : d.seq = none) : (s.startDrain st slot d).ctxs = s.ctxs := by
  have ends (t : State) : t.endDrain st (some d) = t := by rw [State.endDrain, noHandle]
  unfold State.startDrain
  dsimp only
  simp only [ends]
  refine (apply_ite State.ctxs _ _ _).trans ((ite_congr rfl (fun _ => rfl) fun _ => ?_).trans (ite_self s.ctxs))
  split <;> rfl

theorem State.drainParts_ctxs (s : State) (ctx : Nat) : (s.drainParts ctx).ctxs = s.ctxs := by
  unfold State.drainParts
  refine List.foldlRecOn (motive := fun t : State => t.ctxs = s.ctxs) _ _ rfl fun t same st _ => ?_
  refine List.foldlRecOn (motive := fun t : State => t.ctxs = s.ctxs) _ _ same fun t same slot _ => ?_
  exact (apply_ite State.ctxs _ _ _).trans
    ((ite_congr rfl (fun _ => (State.startDrain_ctxs t st slot rfl).trans same) fun _ => same).trans (ite_self s.ctxs))

/-! ### The members of a group (R436) -/

theorem membersOf_any_iff (ms : List (Nat × Nat)) :
    (ms.any fun m => decide (256 ≤ m.1) || decide (1024 ≤ m.2)) = true ↔ ¬ ∀ m ∈ ms, m.1 < 256 ∧ m.2 < 1024 := by
  simp only [List.any_eq_true, Bool.or_eq_true, decide_eq_true_eq, not_forall, not_and_or, Nat.not_lt, exists_prop]

end Sys2Proof.Machine

namespace Sys2Proof.Claim
open Machine

set_option Elab.async false

/-! ### The commands on a context, one by one -/

section
variable {s : State} {fn ctx : Nat} (ready : Ready s fn) (bound : ctx < 1024) (own : (s.ctx ctx).owner = fn)
include ready bound own

theorem exec_ctxDefine : exec (.ctxDefine fn ctx) s = .next (
    if (s.ctx ctx).st ≠ .undefined ∨ s.platform.life = .decommissioned then answered s fn 2
    else answered { s with
      ctxs := AMap.set s.ctxs ctx { Ctx.init with st := .defined, owner := fn }
      handles := s.handles.filter fun (h : Nat × HUnit) => h.1 % 1024 != ctx } fn 0) := by
  show execCtxDefine fn ctx s = _
  rw [execCtxDefine, State.ctxCommand_of_owner ready _ _ bound own]
  simp only [State.status_eq]

theorem exec_ctxUndefine (defined : (s.ctx ctx).st = .defined) :
    ∃ t, exec (.ctxUndefine fn ctx) s = .next t ∧ t.ctx ctx = { Ctx.init with owner := fn } := by
  refine ⟨_, ((State.ctxCommand_of_owner ready _ _ bound own).trans (congrArg _ (if_neg (not_not.mpr defined))) : execCtxUndefine fn ctx s = _), ?_⟩
  rw [State.status_eq]
  exact AMap.getD_set_self ..

theorem exec_ctxUndefine_refused (undefined : (s.ctx ctx).st ≠ .defined) : exec (.ctxUndefine fn ctx) s = .next (answered s fn 2) := by
  show execCtxUndefine fn ctx s = _
  rw [execCtxUndefine, State.ctxCommand_of_owner ready _ _ bound own, if_pos undefined, State.status_eq]

theorem exec_ctxActivate : exec (.ctxActivate fn ctx) s = .next (
    if 64 ≤ s.activeEntries then answered s fn 2
    else match (s.ctx ctx).st with
      | .defined => answered ((s.modCtx ctx fun c => { c with st := .active }).pumpQueues ctx) fn 0
      | .saved => working (s.modCtx ctx fun c => { c with st := .restoring }) fn ctx
      | _ => answered s fn 2) := by
  show execCtxActivate fn ctx s = _
  rw [execCtxActivate, State.ctxCommand_of_owner ready _ _ bound own]
  simp only [State.status_eq, State.busyCtx_eq] <;> rfl

theorem exec_ctxKill : exec (.ctxKill fn ctx) s = .next (
    match (s.ctx ctx).st with
    | .undefined => answered s fn 2
    | .killing => answered s fn 2
    | .defined => answered s fn 0
    | _ => working (s.killCtx ctx) fn ctx) := by
  show execCtxKill fn ctx s = _
  rw [execCtxKill, State.ctxCommand_of_owner ready _ _ bound own]
  simp only [State.status_eq, State.busyCtx_eq] <;> rfl

theorem exec_ctxPreempt_idle (idle : (s.ctx ctx).st ≠ .active) : exec (.ctxPreempt fn ctx) s = .next (answered s fn 0) := by
  show execCtxPreempt fn ctx s = _
  rw [execCtxPreempt, State.ctxCommand_of_owner ready _ _ bound own, if_pos idle, State.status_eq]

/-- Its cores halt, then the records are latched and the partitions drain; a halt that has killed the context ends it. -/
theorem exec_ctxPreempt_active (active : (s.ctx ctx).st = .active) :
    let h := (s.coresOf ctx).foldl (fun (s : State) n => s.haltCore n) s
    let l := (h.coresOf ctx).foldl (fun (s : State) n => s.latchReady true n ctx (List.range 64)) h
    let begun := (l.modCtx ctx fun c => { c with st := .saving, saved := some ⟨[], [], [], [], [], [], []⟩ }).drainParts ctx
    exec (.ctxPreempt fn ctx) s = .next (if (h.ctx ctx).st ≠ .active then working h fn ctx else working begun fn ctx) := by
  show execCtxPreempt fn ctx s = _
  rw [execCtxPreempt, State.ctxCommand_of_owner ready _ _ bound own, if_neg (not_not.mpr active)]
  rfl

section
variable (defined : (s.ctx ctx).st ≠ .undefined)
include defined

theorem exec_ctxwrite (sel : BitVec 32) (v : Word64) : exec (.ctxwrite fn ctx sel v) s = .next (
    match Selector.parse sel with
    | none => answered s fn 1
    | some r =>
      if r.group = 5 then (if windowOk v then answered (s.setWindow ctx r.num v) fn 0 else answered s fn 1)
      else if r.group ≠ 0 ∨ !(regS r.num || regD r.num) ∨ !s.regOk ctx r.num v then answered s fn 1
      else if !regAnyTime r.num ∧ !(s.ctx ctx).grids.isEmpty then answered s fn 2
      else answered (s.setReg ctx r.num v) fn 0) := by
  show execCtxwrite fn ctx sel v s = _
  rw [execCtxwrite, State.ctxCommand_of_owner ready _ _ bound own, if_neg defined]
  simp only [State.status_eq] <;> rfl

/-- A register of group 0. -/
theorem exec_ctxwrite_context {num : Nat} (listed : num ≤ 0x22) (v : Word64) :
    exec (.ctxwrite fn ctx (BitVec.ofNat 32 num) v) s = .next (
      if !(regS num || regD num) ∨ !s.regOk ctx num v then answered s fn 1
      else if !regAnyTime num ∧ !(s.ctx ctx).grids.isEmpty then answered s fn 2
      else answered (s.setReg ctx num v) fn 0) := by
  have toNat : (BitVec.ofNat 32 num).toNat = num := by rw [BitVec.toNat_ofNat]; omega
  have fields : Selector.fields (BitVec.ofNat 32 num) = ⟨num, 0, 0, 0⟩ := by
    simp only [Selector.fields, toNat, Selector.mk.injEq]
    omega
  rw [exec_ctxwrite ready bound own defined, Selector.parse_eq_some (.inl (by rw [toNat]; exact listed)), fields]
  simp only [ne_eq, not_true_eq_false, false_or, if_false, OfNat.zero_ne_ofNat]

/-- A peer window. -/
theorem exec_ctxwrite_window {n : Nat} (listed : n < 256) (v : Word64) :
    exec (.ctxwrite fn ctx (BitVec.ofNat 32 (5 * 2 ^ 18 + n)) v) s = .next (
      if windowOk v then answered (s.setWindow ctx n v) fn 0 else answered s fn 1) := by
  have toNat : (BitVec.ofNat 32 (5 * 2 ^ 18 + n)).toNat = 5 * 2 ^ 18 + n := by rw [BitVec.toNat_ofNat]; omega
  have fields : Selector.fields (BitVec.ofNat 32 (5 * 2 ^ 18 + n)) = ⟨n, 0, 0, 5⟩ := by
    simp only [Selector.fields, toNat, Selector.mk.injEq]
    omega
  have beyond : (Selector.fields (BitVec.ofNat 32 (5 * 2 ^ 18 + n))).Beyond := by
    rw [fields]
    exact .inr (.inr (.inr (.inr ⟨rfl, rfl, rfl⟩)))
  rw [exec_ctxwrite ready bound own defined, Selector.parse_eq_some (.inr beyond), fields]
  exact congrArg _ (if_pos rfl)

theorem exec_qset {q entries : Nat} {ring head : Word64} (serial : Bool) (queue : q < 4) (aligned : ring.toNat % 256 = 0)
    (size : ringSizeOk entries = true) (headAligned : head.toNat % 8 = 0) :
    exec (.qset fn ctx q ring entries serial head) s = .next (answered (s.modCtx ctx fun c => { c with
      hostq := AMap.set c.hostq q ⟨ring.toNat, entries, serial, head.toNat, 0, 0, false⟩
      grids := AMap.mapVals c.grids fun g => if g.hostq == some q then { g with hostq := none } else g }) fn 0) := by
  have fine : ¬ (4 ≤ q ∨ ring.toNat % 256 ≠ 0 ∨ (!ringSizeOk entries) = true ∨ head.toNat % 8 ≠ 0) := by
    simp [Nat.not_le.mpr queue, aligned, size, headAligned]
  show execQset fn ctx q ring entries serial head s = _
  rw [execQset, State.ctxCommand_of_owner ready _ _ bound own, if_neg defined, if_neg fine, State.status_eq]

theorem exec_inval (va : Word64) (len : Nat) : exec (.inval fn ctx va len) s =
    .next (answered ((s.invalLeaves (s.leavesIn ctx va.toNat len)).dropCode ctx va.toNat len) fn 0) := by
  show execInval fn ctx va len s = _
  rw [execInval, State.ctxCommand_of_owner ready _ _ bound own, if_neg defined, State.status_eq]

theorem exec_unmap (va : Word64) (len : Nat) (wipe : Bool) : exec (.unmap fn ctx va len wipe) s = .next (
    if s.filling ctx va.toNat len then { s with
      funcs := AMap.set s.funcs fn { s.func fn with busy := some (.unmap ctx va.toNat len wipe) } }
    else answered (s.finishUnmap ctx va.toNat len wipe) fn 0) := by
  show execUnmap fn ctx va len wipe s = _
  rw [execUnmap, State.ctxCommand_of_owner ready _ _ bound own, if_neg defined, State.status_eq]
  rfl

theorem exec_grpset (group rank n : Nat) (va : Word64) : exec (.grpset fn ctx group rank ⟨n, va⟩) s = .next (
    if 64 ≤ group ∨ n < 2 ∨ 256 < n ∨ n ≤ rank then answered s fn 1
    else match s.areaRead ctx va.toNat (4 * n) with
      | .error c => answered (s.areaLost ctx c { source := 2, cause := c.cause, addr := va }) fn 2
      | .ok (bs, u) =>
        if (membersOf bs n).any fun m => 256 ≤ m.1 || 1024 ≤ m.2 then answered u fn 1
        else answered (u.modCtx ctx fun c => { c with groups := AMap.set c.groups group ⟨rank, membersOf bs n, 0, []⟩ }) fn 0) := by
  show execGrpset fn ctx group rank ⟨n, va⟩ s = _
  rw [execGrpset, State.ctxCommand_of_owner ready _ _ bound own, if_neg defined]
  simp only [State.status_eq] <;> rfl

theorem exec_attest {nonce : List Byte} {va : Word64} {u : State} (size : nonce.length = 32)
    (written : let r := s.platform.report nonce
      s.areaWrite ctx va.toNat (r ++ Config.ed25519Sign r ++ Config.mldsa65Sign r) = .ok u) :
    exec (.attest fn ctx nonce va) s = .next (answered u fn 0) := by
  show execAttest fn ctx nonce va s = _
  rw [execAttest, State.ctxCommand_of_owner ready _ _ bound own, if_neg defined, if_neg (not_not.mpr size)]
  simp only [written, State.status_eq]

end

end

/-- Registers that the driver may write at any time, only while no grid is live, and not at all (R409). -/
theorem regAnyTime_of_mem {num : Nat} (h : num ∈ [0x03, 0x04, 0x08, 0x0A, 0x0B, 0x16, 0x17]) :
    num ≤ 0x22 ∧ (regS num || regD num) = true ∧ regAnyTime num = true := by
  revert num
  decide

theorem regIdle_of_mem {num : Nat} (h : num ∈ [0x02, 0x05, 0x06, 0x0C, 0x0D, 0x0E, 0x0F, 0x10, 0x11, 0x12, 0x13, 0x14, 0x15, 0x18, 0x19, 0x1A,
      0x1F, 0x20, 0x21, 0x22]) : num ≤ 0x22 ∧ (regS num || regD num) = true ∧ regAnyTime num = false := by
  revert num
  decide

theorem regFixed_of_mem {num : Nat} (h : num ∈ [0x00, 0x01, 0x07, 0x09, 0x1B, 0x1C, 0x1D, 0x1E]) :
    num ≤ 0x22 ∧ (regS num || regD num) = false := by
  revert num
  decide

/-- Settles O49: each command by its equation, branch by branch. -/
theorem contextCommands : Obligations.ContextCommands := by
  intro s fn ctx ready bound st answers put entries
  refine ⟨fun other i hi => ?_, fun own => ?_⟩
  · have refused {x : Host.Outcome State Fault Refusal} {name : String} {k : Unit → State} (eq : x = s.ctxCommand name fn ctx k) :
        x = .next (answered s fn 3) := eq.trans (State.ctxCommand_of_other ready name k other)
    simp only [List.mem_cons, List.not_mem_nil, or_false] at hi
    obtain rfl | rfl | rfl | rfl | rfl := hi
    · exact refused (x := execCtxDefine fn ctx s) rfl
    · exact refused (x := execCtxUndefine fn ctx s) rfl
    · exact refused (x := execCtxActivate fn ctx s) rfl
    · exact refused (x := execCtxPreempt fn ctx s) rfl
    · exact refused (x := execCtxKill fn ctx s) rfl
  have define := exec_ctxDefine ready bound own
  have activate := exec_ctxActivate ready bound own
  have kill := exec_ctxKill ready bound own
  have room : s.activeEntries = entries := s.activeEntries_eq
  rw [room] at activate
  refine ⟨fun no => define.trans (congrArg _ (if_pos no)), fun new alive => define.trans (congrArg _ (if_neg (not_or.mpr ⟨not_not.mpr new, alive⟩))),
    exec_ctxUndefine_refused ready bound own, exec_ctxUndefine ready bound own, fun full => activate.trans (congrArg _ (if_pos full)),
    fun free at_ => ?_, fun free at_ => ?_, fun free notDefined notSaved => ?_, exec_ctxPreempt_idle ready bound own, fun active => ?_,
    fun at_ => ?_, fun at_ => ?_, fun at_ => ?_, fun defined => ?_⟩
  · rw [activate, if_neg (Nat.not_le.mpr free), show (s.ctx ctx).st = _ from at_]
  · rw [activate, if_neg (Nat.not_le.mpr free), show (s.ctx ctx).st = _ from at_]
  · refine activate.trans (congrArg _ ((if_neg (Nat.not_le.mpr free)).trans ?_))
    cases at_ : (s.ctx ctx).st with
    | defined => exact absurd at_ notDefined
    | saved => exact absurd at_ notSaved
    | _ => rfl
  · intro h l begun
    have hx := exec_ctxPreempt_active ready bound own active
    refine ⟨fun still => ⟨hx.trans (congrArg _ (if_neg (not_not.mpr still))), ?_⟩, fun killed => hx.trans (congrArg _ (if_pos killed))⟩
    have ctxs : begun.ctxs = _ := State.drainParts_ctxs _ ctx
    rw [State.ctx, ctxs]
    exact congrArg Ctx.st (State.ctx_modCtx_self l ctx fun c => { c with st := .saving, saved := some ⟨[], [], [], [], [], [], []⟩ })
  · obtain at_ | at_ := at_ <;> exact kill.trans (by rw [show (s.ctx ctx).st = _ from at_])
  · exact kill.trans (by rw [show (s.ctx ctx).st = _ from at_])
  · simp only [List.mem_cons, List.not_mem_nil, or_false] at at_
    obtain at_ | at_ | at_ | at_ := at_ <;> exact kill.trans (by rw [show (s.ctx ctx).st = _ from at_])
  · refine ⟨fun num v => ?_, fun n v listed => ?_, fun sel v none_ => ?_, fun sel v r some_ group => ?_,
      fun q ring entries serial head queue aligned size headAligned => exec_qset ready bound own defined serial queue aligned size headAligned,
      exec_inval ready bound own defined, fun va len wipe => ?_, fun group rank n va => ?_,
      fun nonce va u size written => exec_attest ready bound own defined size written⟩
    · intro write sets anyTime idle
      have writes (listed : num ≤ 0x22) := exec_ctxwrite_context ready bound own defined listed v
      refine ⟨fun mem good => ?_, fun mem good live => ?_, fun mem good live => ?_, fun mem bad => ?_, fun mem => ?_⟩
      · obtain ⟨listed, class_, any⟩ := regAnyTime_of_mem mem
        simp [sets, write, writes listed, class_, any, good]
      · obtain ⟨listed, class_, any⟩ := regIdle_of_mem mem
        simp [sets, write, writes listed, class_, any, good, live]
      · obtain ⟨listed, class_, any⟩ := regIdle_of_mem mem
        simp [answers, write, writes listed, class_, any, good, live]
      · have listed : num ≤ 0x22 := mem.elim (fun h => (regAnyTime_of_mem h).1) fun h => (regIdle_of_mem h).1
        exact (writes listed).trans (congrArg _ (if_pos (.inr (by rw [bad]; rfl))))
      · obtain ⟨listed, class_⟩ := regFixed_of_mem mem
        exact (writes listed).trans (congrArg _ (if_pos (.inl (by rw [class_]; rfl))))
    · have hx := exec_ctxwrite_window ready bound own defined listed v
      exact ⟨fun clear => hx.trans (congrArg _ (if_pos ((windowOk_iff v).mpr clear))),
        fun set => hx.trans (congrArg _ (if_neg (mt (windowOk_iff v).mp set)))⟩
    · exact (exec_ctxwrite ready bound own defined sel v).trans (by rw [none_])
    · have other : r.group ≠ 0 ∧ r.group ≠ 5 := by simpa using group
      refine (exec_ctxwrite ready bound own defined sel v).trans ?_
      rw [some_]
      exact congrArg _ ((if_neg other.2).trans (if_pos (.inl other.1)))
    · have hx := exec_unmap ready bound own defined va len wipe
      exact ⟨fun idle => hx.trans (congrArg _ (if_neg (Bool.eq_false_iff.mp idle))), fun busy => hx.trans (congrArg _ (if_pos busy))⟩
    · have hx := exec_grpset ready bound own defined group rank n va
      refine ⟨fun bad => hx.trans (congrArg _ (if_pos bad)), fun g two many r => ?_⟩
      rw [if_neg (by omega)] at hx
      refine ⟨fun bs u read => ?_, fun c lost => hx.trans (by rw [lost])⟩
      rw [read] at hx
      exact ⟨fun fine => hx.trans (congrArg _ (if_neg fun any => (membersOf_any_iff _).mp any fine)),
        fun wrong => hx.trans (congrArg _ (if_pos ((membersOf_any_iff _).mpr wrong)))⟩

end Sys2Proof.Claim
end

