-- ==== Sys2Proof/Proofs/DeviceCommands.lean ====
section
/-!
Commands on the device (R260, R364, R365, R429, R438, R440), the time of pseudo-channels (R260, R261), and O50.
-/
namespace Sys2Proof.Machine
open Claim

set_option Elab.async false

/-! ### Budgets (R260) -/

theorem BudgetVals.ok_of_bounds {v : BudgetVals} (parts : v.parts.length = 8) (sum : v.cd + v.parts.foldl (· + ·) 0 + v.ref ≤ 1024)
    (sub : v.ce ≤ v.cd) : BudgetVals.ok v = true := by
  simp only [BudgetVals.ok, parts, sum, sub, beq_self_eq_true, decide_true, Bool.and_self]

theorem Stack.chan_modChan_ne (t : Stack) {p q : Nat} (f : PChan → PChan) (h : q ≠ p) : (t.modChan p f).chan q = t.chan q :=
  AMap.getD_set_ne _ _ _ h

/-- New budgets wait at each channel of a list (R260). -/
theorem State.pending_foldl (s : State) (st : Nat) (b : List Nat) (chans : List Nat) :
    ∀ i ∈ chans, (((chans.foldl (fun (s : State) ch => s.modStack st fun t => t.modChan ch fun c => { c with pending := some b }) s).stack st).chan
      i).pending = some b := by
  induction chans using List.reverseRecOn with
  | nil => simp
  | append_singleton chans ch ih =>
    intro i hi
    rw [List.foldl_concat, State.stack_modStack_self]
    by_cases here : i = ch
    · rw [here, Stack.chan_modChan_self]
    · rw [Stack.chan_modChan_ne _ _ here]
      exact ih i (by simpa [here] using hi)

/-! ### Functions (R429) -/

/-- The contexts of a range belong to a function. -/
theorem State.owner_foldl (s : State) (first target count : Nat) :
    ∀ i, i < count → (((List.range count).foldl (fun (s : State) i => s.modCtx (first + i) fun c => { c with owner := target }) s).ctx
      (first + i)).owner = target := by
  induction count with
  | zero => simp
  | succ n ih =>
    intro i hi
    rw [List.range_succ, List.foldl_concat]
    by_cases here : i = n
    · rw [here, State.ctx_modCtx_self]
    · rw [State.ctx_modCtx_ne _ _ (by omega)]
      exact ih i (by omega)

/-! ### Partitions (R364) -/

/-- A word without bits outside a mask is its part in the mask. -/
theorem and_eq_of_and_not {v m : Word64} (h : v &&& ~~~m = 0) : v &&& m = v := by
  ext i hi
  have bit := congrArg (·[i]) h
  simp only [BitVec.getElem_and, BitVec.getElem_not, BitVec.getElem_zero, BitVec.ofNat_eq_ofNat] at bit ⊢
  cases hv : v[i] <;> simp_all

/-- A block of the partition is one of another enabled partition of the stack. -/
theorem State.overlap_iff (s : State) (stack slot : Nat) (v : Word64) :
    ((List.range 8).any fun i => i != slot && prEn (s.part stack i).reg && (prBlocks (s.part stack i).reg).any (prBlocks v).contains) = true ↔
      ∃ i, i < 8 ∧ i ≠ slot ∧ (s.part stack i).reg.getLsbD 8 = true ∧ ∃ b, b ∈ prBlocks (s.part stack i).reg ∧ b ∈ prBlocks v := by
  simp [prEn, and_assoc]

/-! ### Pseudo-channels (R260, R261) -/

theorem PChan.add_left (c : PChan) (num n : Nat) : (c.add num n).left = c.left := rfl

theorem PChan.refresh_left_getD {c : PChan} (size : c.left.length = 11) (i : Nat) :
    c.refresh.left.getD i 0 = if i = 10 then c.left.getD 10 0 - 4 else c.left.getD i 0 := by
  rw [PChan.refresh, PChan.add_left]
  dsimp only
  split
  · next h => subst h; simp [List.getD_eq_getElem?_getD, size]
  · next h => simp [List.getD_eq_getElem?_getD, Ne.symm h]

theorem PChan.refresh_left_length (c : PChan) : c.refresh.left.length = c.left.length := List.length_set ..

/-- What catching up keeps of a pseudo-channel. -/
structure PChan.Same (c d : PChan) : Prop where
  budget : d.budget = c.budget
  pending : d.pending = c.pending
  allBank : d.allBank = c.allBank

theorem PChan.catchUp_same (l : List Nat) (c : PChan) : PChan.Same c (PChan.catchUp l c) := by
  induction l generalizing c with
  | nil => exact ⟨rfl, rfl, rfl⟩
  | cons b r ih =>
    rw [PChan.catchUp]
    split
    · exact ⟨rfl, rfl, rfl⟩
    · obtain ⟨budget, pending, allBank⟩ := ih c.refresh
      exact ⟨budget, pending, allBank⟩

theorem PChan.caught_same (c : PChan) : PChan.Same c c.caught := by
  unfold PChan.caught
  split
  · exact ⟨rfl, rfl, rfl⟩
  · exact PChan.catchUp_same ..

/-- Postponed refreshes are performed, oldest first, while units last (R261). -/
theorem PChan.catchUp_spec (l : List Nat) {c : PChan} (size : c.left.length = 11) :
    let d := PChan.catchUp l c
    ∃ k, d.postponed = l.drop k ∧ k ≤ l.length ∧ d.left.getD 10 0 + 4 * k = c.left.getD 10 0 ∧
      (k = l.length ∨ d.left.getD 10 0 < 4) ∧ ∀ i, i < 10 → d.left.getD i 0 = c.left.getD i 0 := by
  induction l generalizing c with
  | nil => exact ⟨0, rfl, Nat.le_refl _, rfl, .inl rfl, fun _ _ => rfl⟩
  | cons b r ih =>
    rw [PChan.catchUp]
    split
    next few => exact ⟨0, rfl, Nat.zero_le _, rfl, .inr few, fun _ _ => rfl⟩
    next enough =>
      obtain ⟨k, postponed, bound, units, ends, others⟩ := ih ((PChan.refresh_left_length c).trans size)
      have first := PChan.refresh_left_getD size
      rw [first 10, if_pos rfl] at units
      refine ⟨k + 1, postponed, Nat.succ_le_succ bound, by omega, ends.imp_left (congrArg Nat.succ), fun i hi => ?_⟩
      rw [others i hi, first i, if_neg (by omega)]

end Sys2Proof.Machine

namespace Sys2Proof.Claim
open Machine

set_option Elab.async false

/-! ### Commands on the device -/

section
variable {s : State} {fn : Nat} (ready : Ready s fn)
include ready

theorem exec_budget (stack : Nat) (pcs : BitVec 64) (vals : BudgetVals) : exec (.budget fn stack pcs vals) s = .next (
    if 12 ≤ stack ∨ !BudgetVals.ok vals then answered s fn 1
    else
      let chans := (List.range 64).filter fun i => pcs.getLsbD i
      (chans.foldl (fun (s : State) ch => s.modStack stack fun t => t.modChan ch fun c => { c with pending := some (BudgetVals.regs vals) }) s).modFunc
        fn fun f => { f with busy := some (.budget stack chans) }) := by
  show execBudget fn stack pcs vals s = _
  rw [execBudget, State.command_of_ready ready]
  simp only [State.status_eq] <;> rfl

theorem exec_partset (stack slot : Nat) {v : Word64} (clean : v &&& ~~~0xFFDFF = 0) : exec (.partset fn stack slot v) s = .next (
    if 12 ≤ stack ∨ 8 ≤ slot then answered s fn 1
    else if prEn v ∧ (3 < prBrow v + prBh v ∨ 3 < prBcol v + prBw v) then answered s fn 1
    else if prEn v ∧ (List.range 8).any (fun i => i != slot && prEn (s.part stack i).reg
        && (prBlocks (s.part stack i).reg).any (prBlocks v).contains) then answered s fn 1
    else if v ≠ (s.part stack slot).reg ∧ (s.part stack slot).st ≠ .idle then answered s fn 2
    else answered (s.modPart stack slot fun p => { p with reg := v }) fn 0) := by
  have whole := and_eq_of_and_not clean
  show execPartset fn stack slot v s = _
  rw [execPartset, State.command_of_ready ready]
  simp only [whole, State.status_eq] <;> rfl

theorem exec_lifecycle (target : LifeState) (auth : Bool) (svn : Nat) : exec (.lifecycle fn target auth svn) s = .next (
    if !((LifeState.nexts s.platform.life).contains target) then answered s fn 2
    else if !auth ∨ 127 < svn then answered s fn 1
    else answered { s.wiped with
      platform := { s.platform with life := target, svnFuse := max s.platform.svnFuse svn }
      funcs := s.funcs, ctxs := AMap.mapVals s.ctxs fun (c : Ctx) => { Ctx.init with owner := c.owner }, waiting := s.waiting } fn 0) := by
  show execLifecycle fn target auth svn s = _
  rw [execLifecycle, State.command_of_ready ready]
  simp only [State.status_eq]

end

theorem exec_fnset {s : State} (ready : Ready s 0) {target first count : Nat} (haoff : Word64) (valid : target ≤ 64) (bound : first + count ≤ 1024) :
    exec (.fnset 0 target first count haoff) s = .next (answered
      (((List.range count).foldl (fun (s : State) i => s.modCtx (first + i) fun c => { c with owner := target }) s).modFunc target
        fun f => { f with haoff := haoff }) 0 0) := by
  have fine : ¬ ((0 : Nat) ≠ 0 ∨ 64 < target ∨ 1024 < first + count) := by omega
  show execFnset 0 target first count haoff s = _
  rw [execFnset, State.command_of_ready ready, if_neg fine, State.status_eq]

/-- A status leaves the windows of functions. -/
theorem haoff_answered (s : State) (fn code target : Nat) : ((answered s fn code).func target).haoff = (s.func target).haoff := by
  simp only [answered, State.func]
  by_cases here : target = fn
  · rw [here, AMap.getD_set_self]
  · rw [AMap.getD_set_ne _ _ _ here]

/-! ### Reset (R440) -/

/-- The firmware after a reset (R438). -/
def afterReset (p : Platform) (rom image : List Byte) : Platform :=
  let q := { p with meas := List.replicate 8 0, slow := false }.extend 0 rom
  match Platform.firmware p image with
  | some f => { q.extend 1 f.body with running := image, svn := f.svn }
  | none => q

/-- A reset keeps what the checks on an image look at. -/
theorem exec_deviceReset (s : State) (rom image : List Byte) :
    exec (.deviceReset rom image) s = .next { s.wiped with platform := afterReset s.platform rom image } := rfl

theorem afterReset_fuses (p : Platform) (rom image : List Byte) :
    (afterReset p rom image).life = p.life ∧ (afterReset p rom image).svnFuse = p.svnFuse := by
  unfold afterReset
  cases Platform.firmware p image <;> exact ⟨rfl, rfl⟩

/-! ### The time of a pseudo-channel (R260, R261) -/

section
variable {stack pc : Nat} (dies : stack < 12) (chans : pc < 64)
include dies chans

theorem exec_channelPeriod (s : State) : exec (.channelPeriod stack pc) s = .next (s.modStack stack fun t => t.modChan pc fun c =>
    PChan.caught { c with budget := c.pending.getD c.budget, pending := none, left := c.pending.getD c.budget }) := by
  show execChannelPeriod stack pc s = _
  exact if_neg (not_or.mpr ⟨Nat.not_le.mpr dies, Nat.not_le.mpr chans⟩)

theorem exec_refreshDue (s : State) {bank : Nat} (banks : bank < 16) :
    exec (.refreshDue stack pc bank) s = .next (s.modStack stack fun t => t.modChan pc fun c =>
      let c := c.caught
      if 4 ≤ c.left.getD 10 0 ∧ !c.allBank then c.refresh
      else if c.postponed.count bank = 8 then { c with postponed := [], allBank := true }.add 0x1A 1
      else { c with postponed := c.postponed ++ [bank] }.add 0x19 1) := by
  show execRefreshDue stack pc bank s = _
  exact if_neg (not_or.mpr ⟨Nat.not_le.mpr dies, not_or.mpr ⟨Nat.not_le.mpr chans, Nat.not_le.mpr banks⟩⟩)

end

theorem exec_allBankRefreshEnd {s : State} {stack pc : Nat} (forced : ((s.stack stack).chan pc).allBank = true) :
    exec (.allBankRefreshEnd stack pc) s = .next (s.modStack stack fun t => t.modChan pc fun c => PChan.caught { c with allBank := false }) :=
  if_pos forced

/-- The pseudo-channel that an event has changed. -/
theorem chan_modStack (s : State) (stack pc : Nat) (f : PChan → PChan) :
    ((s.modStack stack fun t => t.modChan pc f).stack stack).chan pc = f ((s.stack stack).chan pc) := by
  rw [State.stack_modStack_self, Stack.chan_modChan_self]

/-- Settles O50: the commands by their equations, the events by what they leave of their pseudo-channel. -/
theorem deviceCommands : Obligations.DeviceCommands := by
  unfold Obligations.DeviceCommands
  refine ⟨fun s fn stack slot ready => ⟨fun pcs vals bad => ?_, fun pcs vals dies parts sum sub => ?_, fun v dies slots clean => ?_,
    fun target first count haoff own valid bound => ?_, fun target auth svn => ⟨fun no => ?_, fun next auth_ bound => ?_⟩⟩,
    fun s stack => ⟨fun rom image => ?_, fun lowered => rfl, fun pc dies chans => ?_⟩⟩
  · refine (exec_budget ready stack pcs vals).trans (congrArg _ (if_pos ?_))
    exact bad.elim (fun no => .inr (by rw [no]; rfl)) .inl
  · have fine : ¬ (12 ≤ stack ∨ (!BudgetVals.ok vals) = true) := by
      rw [BudgetVals.ok_of_bounds parts sum sub]
      simpa using dies
    refine ⟨_, (exec_budget ready stack pcs vals).trans (congrArg _ (if_neg fine)), fun i hi named => ?_⟩
    exact s.pending_foldl stack (BudgetVals.regs vals) _ i (List.mem_filter.mpr ⟨List.mem_range.mpr hi, named⟩)
  · intro overlap bad p
    have hx := exec_partset ready stack slot clean
    rw [if_neg (not_or.mpr ⟨Nat.not_le.mpr dies, Nat.not_le.mpr slots⟩)] at hx
    have shared := s.overlap_iff stack slot v
    have fine (good : ¬ bad) := hx.trans (congrArg _ ((if_neg fun h => good ⟨h.1, h.2.elim .inl fun x => .inr (.inl x)⟩).trans
      (if_neg fun h => good ⟨h.1, .inr (.inr (shared.mp h.2))⟩)))
    refine ⟨fun ⟨enabled, why⟩ => hx.trans (congrArg _ ?_), fun good new busy => (fine good).trans (congrArg _ (if_pos ⟨new, busy⟩)),
      fun good same => (fine good).trans (congrArg _ (if_neg fun h => same.elim h.1 h.2))⟩
    by_cases outside : 3 < prBrow v + prBh v ∨ 3 < prBcol v + prBw v
    · exact if_pos ⟨enabled, outside⟩
    · exact (if_neg fun h => outside h.2).trans (if_pos ⟨enabled, shared.mpr ((or_assoc.mpr why).resolve_left outside)⟩)
  · subst own
    refine ⟨_, exec_fnset ready haoff valid bound, ?_, s.owner_foldl first target count⟩
    rw [haoff_answered, State.func_modFunc_self]
  · refine (exec_lifecycle ready target auth svn).trans (congrArg _ (if_pos ?_))
    simpa using no
  · have hx := exec_lifecycle ready target auth svn
    have there : ¬ (!((LifeState.nexts s.platform.life).contains target)) = true := by simpa using next
    have fine : ¬ ((!auth) = true ∨ 127 < svn) := by simpa [auth_] using bound
    refine ⟨_, hx.trans (congrArg _ ((if_neg there).trans (if_neg fine))), rfl, rfl, rfl, rfl, fun c => ?_⟩
    simp only [answered, State.ctx, AMap.getD, AMap.get?_mapVals]
    cases AMap.get? s.ctxs c <;> rfl
  · obtain ⟨life, fuse⟩ := afterReset_fuses s.platform rom image
    refine ⟨_, exec_deviceReset s rom image, rfl, rfl, rfl, fun _ => rfl, life, fuse, fun refused => ?_, fun f accepted => ?_⟩
    · simp only [afterReset, refused]
      exact ⟨rfl, rfl⟩
    · simp only [afterReset, accepted, and_self]
  · intro c
    refine ⟨⟨_, exec_channelPeriod dies chans s, ?_⟩, fun bank banks => ⟨_, exec_refreshDue dies chans s banks, ?_⟩, exec_allBankRefreshEnd⟩
    · intro b d
      have at_ : d = PChan.caught { c with budget := b, pending := none, left := b } := chan_modStack s stack pc _
      rw [at_]
      obtain ⟨budget, pending, allBank⟩ := PChan.caught_same { c with budget := b, pending := none, left := b }
      refine ⟨budget, pending, allBank, fun forced => ?_, fun running size => ?_⟩
      · rw [PChan.caught, if_pos forced]
        exact ⟨rfl, rfl⟩
      · rw [PChan.caught, if_neg (Bool.eq_false_iff.mp running)]
        exact PChan.catchUp_spec c.postponed (c := { c with budget := b, pending := none, left := b }) size
    · intro d c
      have at_ : d = _ := chan_modStack s stack pc _
      rw [at_]
      have none_ (short : c.left.getD 10 0 < 4 ∨ c.allBank = true) : ¬ (4 ≤ c.left.getD 10 0 ∧ (!c.allBank) = true) := by
        rintro ⟨units, running⟩
        exact short.elim (Nat.not_lt.mpr units) fun forced => by rw [forced] at running; exact Bool.false_ne_true running
      refine ⟨fun units running size => ?_, fun short few => ?_, fun short full => ?_⟩
      · rw [if_pos ⟨units, by rw [running]; rfl⟩, PChan.refresh_left_getD size, if_pos rfl]
        exact ⟨rfl, rfl⟩
      · rw [if_neg (none_ short), if_neg few]
        rfl
      · rw [if_neg (none_ short), if_pos full]
        exact ⟨rfl, rfl⟩

end Sys2Proof.Claim
end

