-- ==== Sys2Proof/Proofs/CellWrites.lean ====
section
/-!
What a write to a synchronisation cell and a series of arrivals change, and what a waking of records leaves (R275, R277, R279).
-/
namespace Sys2Proof.Machine

set_option Elab.async false

/-! ### Numbers beyond their field -/

theorem bytesOfNat_mod (n x : Nat) : bytesOfNat n (x % 2 ^ (8 * n)) = bytesOfNat n x := by
  induction n generalizing x with
  | zero => rfl
  | succ n ih =>
    have split : 2 ^ (8 * (n + 1)) = 256 * 2 ^ (8 * n) := by rw [Nat.mul_add, Nat.pow_add, Nat.mul_comm]
    have low : BitVec.ofNat 8 (x % 2 ^ (8 * (n + 1))) = BitVec.ofNat 8 x :=
      BitVec.eq_of_toNat_eq (by rw [BitVec.toNat_ofNat, BitVec.toNat_ofNat, split]; exact Nat.mod_mul_right_mod x 256 _)
    rw [bytesOfNat, low, split, Nat.mod_mul_right_div_self, ih, bytesOfNat]

/-! ### Cells -/

/-- A cell that is written leaves every other byte. -/
theorem State.setCell_onlyCell {s : State} (wf : Mem.wf s.hbm = true) (pa : Nat) (c : Cell) : Claim.OnlyCell s (s.setCell pa c) pa := by
  refine ⟨fun a out => ?_, ?_⟩
  · rw [State.setCell_hbm]
    exact Mem.read_writeN_out _ _ _ _ out wf
  · rw [State.setCell, State.storeHbm_host]

/-- What is read of a cell depends on HBM alone. -/
theorem State.cell_congr {s t : State} (h : t.hbm = s.hbm) (pa : Nat) : t.cell pa = s.cell pa := by
  simp only [State.cell, h]

theorem State.sig?_congr {s t : State} (h : t.cores = s.cores) (core slot : Nat) : t.sig? core slot = s.sig? core slot := by
  simp only [State.sig?, State.core, h]

theorem State.storeHbm_cores (s : State) (a : Nat) (bs : List Byte) : (s.storeHbm a bs).cores = s.cores := rfl

theorem State.setCell_cores (s : State) (pa : Nat) (c : Cell) : (s.setCell pa c).cores = s.cores := by
  rw [State.setCell, State.storeHbm_cores]

theorem State.setCell_wf {s : State} (wf : Mem.wf s.hbm = true) (pa : Nat) (c : Cell) : Mem.wf (s.setCell pa c).hbm = true := by
  rw [State.setCell_hbm]
  exact Mem.writeN_wf _ _ _ wf

end Sys2Proof.Machine

namespace Sys2Proof.Claim
open Machine

set_option Elab.async false

theorem OnlyCell.refl (s : State) (pa : Nat) : OnlyCell s s pa := ⟨fun _ _ => rfl, rfl⟩

theorem OnlyCell.trans {s t u : State} {pa : Nat} (h : OnlyCell s t pa) (k : OnlyCell t u pa) : OnlyCell s u pa :=
  ⟨fun a out => (k.1 a out).trans (h.1 a out), k.2.trans h.2⟩

theorem OnlyCell.of_sameMemory {s t : State} (h : SameMemory s t) (pa : Nat) : OnlyCell s t pa :=
  ⟨fun a _ => by rw [h.hbm], h.host⟩

/-- Of all memory only a cell's fields differ from s, and the cell is now c. -/
structure CellWritten (s t : State) (pa : Nat) (c : Cell) : Prop where
  only : OnlyCell s t pa
  cell : t.cell pa = c

theorem cellWritten_setCell {s : State} (wf : Mem.wf s.hbm = true) (pa : Nat) {c : Cell} (fits : c.Fits) :
    CellWritten s (s.setCell pa c) pa c :=
  ⟨State.setCell_onlyCell wf pa c, State.cell_setCell wf pa fits⟩

/-- Who holds which clasp is no part of memory. -/
theorem CellWritten.with_holders {s t : State} {pa : Nat} {c : Cell} (w : CellWritten s t pa c) (holders : AMap Nat) :
    CellWritten s { t with holders := holders } pa c :=
  ⟨w.only, w.cell⟩

/-- The memory in which an instruction that touches a cell finds it. -/
theorem Issues.wf_hbm {s : State} {h : Hdr} {os : List Operand} {e : Env} (I : Issues s h os e) (ok : s.memOk = true) :
    Mem.wf e.s.hbm = true :=
  State.wf_hbm_of_memOk (I.s_eq ▸ ok)

/-- The selected signature stands in the state. -/
theorem Issues.sig?_now {s : State} {h : Hdr} {os : List Operand} {e : Env} (I : Issues s h os e) :
    e.s.sig? e.sel.core e.sel.slot = some e.now := by
  obtain ⟨e0, h0, rfl⟩ := Option.map_eq_some_iff.mp I.env
  obtain ⟨-, -, -, g, found, -⟩ := State.env_some h0
  have here : (e0.guarded h).s.sig? (e0.guarded h).sel.core (e0.guarded h).sel.slot = some g := I.s_eq ▸ found
  rw [Env.now, here]
  rfl

end Sys2Proof.Claim

namespace Sys2Proof.Machine
open Claim

set_option Elab.async false

/-! ### Arrivals -/

theorem State.arriveN_succ (s : State) (pa n : Nat) : s.arriveN pa (n + 1) = (s.arriveN pa n).arrive pa := by
  rw [State.arriveN, List.range_succ, List.foldl_concat]
  rfl

/-- A series of arrivals in a state. -/
structure Arrived (s t : State) (pa n : Nat) : Prop where
  wf : Mem.wf t.hbm = true
  only : OnlyCell s t pa
  cell : t.cell pa = (List.range n).foldl (fun c _ => c.arrived) (s.cell pa)
  cores : t.cores = s.cores

theorem State.arriveN_arrived {s : State} (wf : Mem.wf s.hbm = true) (pa n : Nat) : Arrived s (s.arriveN pa n) pa n := by
  induction n with
  | zero => exact ⟨wf, .refl s pa, rfl, rfl⟩
  | succ n ih =>
    obtain ⟨wfn, only, cell, cores⟩ := ih
    obtain ⟨onlyOne, one⟩ := State.arrive_spec wfn pa
    rw [State.arriveN_succ]
    refine ⟨?_, only.trans onlyOne, ?_, ?_⟩
    · rw [State.arrive_eq]
      exact State.setCell_wf wfn pa _
    · rw [one, cell, List.range_succ, List.foldl_concat]
    · rw [State.arrive_eq, State.setCell_cores, cores]

/-! ### Records that relaunch -/

theorem State.modCtx_sameMemory (s : State) (ctx : Nat) (f : Ctx → Ctx) : SameMemory s (s.modCtx ctx f) := ⟨rfl, rfl⟩

/-- Waking records leaves memory. -/
theorem State.wakeCtx_sameMemory (s : State) (ctx : Nat) (f : Record → Option Nat) : SameMemory s (s.wakeCtx ctx f) := by
  unfold State.wakeCtx
  refine SameMemory.trans ?_ (State.modCtx_sameMemory ..)
  split
  · refine .foldl (fun a c => ?_) _ s
    exact ⟨rfl, rfl⟩
  · refine .foldl (fun a c => ?_) _ s
    exact ⟨rfl, rfl⟩

/-! ### A uniform result in an s register or nowhere -/

theorem Env.writeSZ_sameMemory (e : Env) (s : State) (d : Operand) (x : Word64) : SameMemory s (e.writeSZ s d x) := by
  cases d <;> exact ⟨rfl, rfl⟩

theorem Env.sig?_writeSZ {e : Env} {s : State} {g : Sig} (hg : s.sig? e.sel.core e.sel.slot = some g) (d : Operand) (x : Word64) :
    (e.writeSZ s d x).sig? e.sel.core e.sel.slot = some (match d with
      | .s n _ _ => g.setS n.toNat x
      | _ => g) := by
  cases d with
  | s n neg abs => exact (State.sig?_modSig_self ..).trans (by rw [hg]; rfl)
  | _ => exact hg

end Sys2Proof.Machine
end

