-- ==== Sys2Proof/Proofs/RendezvousPoints.lean ====
section
/-!
Rendezvous points (R281, R282, R296), and O34.
-/
namespace Sys2Proof.Machine

set_option Elab.async false

section
variable {p : RvPoint} {b : Nat}

/-- One arrival more than the phase expects. -/
theorem RvPoint.arrive_of_full (full : p.arr = p.expect) : p.arrive b = { p with poison := cRVOVR } := if_pos full

/-- Not the last arrival. -/
theorem RvPoint.arrive_of_more (room : p.arr ≠ p.expect) (more : p.arr + 1 ≠ p.expect) :
    p.arrive b = { p with arr := p.arr + 1, expb := (p.expb + b) % 2 ^ 64 } := by
  rw [RvPoint.arrive, if_neg room, RvPoint.check, if_neg fun h => more h.1, if_neg fun h => more h.1]

/-- The last arrival, with all the bytes that are declared come, with too many, and with too few. -/
theorem RvPoint.arrive_of_last (last : p.arr + 1 = p.expect) : p.arrive b =
    if p.deliv = (p.expb + b) % 2 ^ 64 then { p with phase := (p.phase + 1) % 2 ^ 32, arr := 0, expb := 0, deliv := 0 }
    else if (p.expb + b) % 2 ^ 64 < p.deliv then { p with arr := p.expect, expb := (p.expb + b) % 2 ^ 64, poison := cRVOVR }
    else { p with arr := p.expect, expb := (p.expb + b) % 2 ^ 64 } := by
  have room : p.arr ≠ p.expect := by omega
  rw [RvPoint.arrive, if_neg room]
  simp only [RvPoint.check, last, true_and]

end

/-- R281: the point that an initialisation names, whatever it holds. -/
theorem Env.pointAt_init {e : Env} {o : Operand} {key : Nat} {q : Quire} {p : RvPoint} (hkey : e.sig.quire = some key)
    (hq : e.quire = some q) (hp : q.points[Claim.uVal e o]? = some p) (k : Nat → Nat → Quire → Eff) :
    e.pointAt o true k = k (Claim.uVal e o) key q := by
  have listed : ¬ q.points.length ≤ Claim.uVal e o := Nat.not_le.mpr (List.getElem?_eq_some_iff.mp hp).1
  simp only [Env.pointAt, hkey, hq, ← Claim.uVal_eq_u, if_neg listed, Bool.not_true, Bool.false_eq_true, false_and, if_false]

/-- The effect of an arrival that makes point n of the quire x: D is written, where it is an s register, and a point that the arrival has
poisoned raises RVOVR after that. -/
def Env.pointReached (e : Env) (d : Operand) (key n phase : Nat) (x : RvPoint) : Eff :=
  let t := e.writeSZ (e.s.modQuire e.sel.core key fun z => { z with points := z.points.set n x }) d (BitVec.ofNat 64 phase)
  if x.poison ≠ 0 then .over (Env.raise { e with s := t } (trapOf cRVOVR)) else .done t

end Sys2Proof.Machine

namespace Sys2Proof.Claim
open Machine

set_option Elab.async false

section
variable {s : State} {h : Hdr} {o : Ops4} {e : Env} {key : Nat} {q : Quire} {p : RvPoint} (I : Issues s h o.list e) (turn : Turn e)
  (hkey : e.sig.quire = some key) (hq : e.quire = some q) (hp : q.points[uVal e o.a]? = some p)
include I turn hkey hq hp

theorem exec_rvinit (hok : e.ops4Ok o unused uPos uPos unused = true) : exec (.rvinit h o) e.s = .next (e.finish (
    if uVal e o.b < 1 ∨ 65535 < uVal e o.b ∨ e.pointAwaited q (uVal e o.a) = true ∨ e.s.names e.sel.core key (· == uVal e o.a) = true then
      .trap (trapOf cOPERAND)
    else .done (e.s.modQuire e.sel.core key fun z => { z with points := z.points.set (uVal e o.a) ⟨0, uVal e o.b, 0, 0, 0, 0⟩ }))) := by
  have hx := I.exec_in_turn (i := .rvinit h o) (x := execRvinit h o) (feats := []) rfl rfl nofun hok (.inr turn)
  simp only [Env.pointAt_init hkey hq hp, ← uVal_eq_u] at hx
  exact hx

theorem exec_rvarr (hok : e.ops4Ok o sOrZero uPos uOrZero unused = true) : exec (.rvarr h o) e.s = .next (e.finish (
    if p.expect = 0 then .trap (trapOf cOPERAND)
    else if e.storesLeft = true then .stall
    else if p.poison ≠ 0 then .trap (trapOf p.poison)
    else e.pointReached o.d key (uVal e o.a) p.phase (p.arrive (uVal e o.b)))) := by
  have hx := I.exec_in_turn (i := .rvarr h o) (x := execRvarr h o) (feats := []) rfl rfl nofun hok (.inr turn)
  simp only [pointAt_of_getElem? hkey hq hp, point_of_getElem? hp, ← uVal_eq_u] at hx
  exact hx

end

/-- Settles O34: the point after an arrival, in each of its cases (R282). -/
theorem rendezvousPoints : Obligations.RendezvousPoints := by
  intro s h o e key q p I turn hkey hq hp n b put
  refine ⟨fun hok => ?init, fun hok => ?arrive⟩
  case init =>
    have hx := exec_rvinit I turn hkey hq hp hok
    refine ⟨fun bad => raises_of_finish hx (if_pos bad), fun low high free unnamed => retires_of_finish hx (if_neg ?_)⟩
    rintro (few | many | awaited | named)
    · exact absurd low (Nat.not_le.mpr few)
    · exact absurd high (Nat.not_le.mpr many)
    · exact absurd (free.symm.trans awaited) Bool.false_ne_true
    · exact absurd (unnamed.symm.trans named) Bool.false_ne_true
  case arrive =>
    have hx := exec_rvarr I turn hkey hq hp hok
    refine ⟨fun h0 => raises_of_finish hx (if_pos h0), fun h0 left => ?_, fun h0 none_left => ?_⟩ <;> rw [if_neg h0] at hx
    · exact waits_of_finish hx (if_pos left)
    rw [if_neg (Bool.eq_false_iff.mp none_left)] at hx
    intro bytes after gives overrun
    have hgives (sound : p.poison = 0) {x : RvPoint} (at_ : p.arrive b = x) (fine : x.poison = 0) : gives x := by
      rw [if_neg (not_not_intro sound), at_] at hx
      exact retires_of_finish hx (if_neg (not_not_intro fine))
    have hoverrun (sound : p.poison = 0) (x : RvPoint) (at_ : p.arrive b = { x with poison := cRVOVR }) : overrun x := by
      rw [if_neg (not_not_intro sound), at_] at hx
      exact hx
    refine ⟨fun poisoned => raises_of_finish hx (if_pos poisoned), fun sound full => hoverrun sound p (RvPoint.arrive_of_full full),
      fun sound room more => hgives sound (RvPoint.arrive_of_more room more) sound, fun sound last few => ?few,
      fun sound last all => ?all, fun sound last many => ?many⟩
    case few =>
      refine hgives sound ((RvPoint.arrive_of_last last).trans ?_) sound
      rw [if_neg (Nat.ne_of_lt few), if_neg (Nat.lt_asymm few)]
    case all => exact hgives sound ((RvPoint.arrive_of_last last).trans (if_pos all)) sound
    case many =>
      exact hoverrun sound _ ((RvPoint.arrive_of_last last).trans ((if_neg (Nat.ne_of_gt many)).trans (if_pos many)))

end Sys2Proof.Claim
end

