-- ==== Sys2Proof/Proofs/Clasps.lean ====
section
/-!
Clasps: who is granted one, who is woken (R275 to R278, R292, R293), and O32.
-/
namespace Sys2Proof.Machine
open Claim

set_option Elab.async false

/-! ### The signature that has waited longest -/

/-- Of two waiters, the one that was born first. -/
def earlier (a b : Nat × Sig) : Nat × Sig := if b.1 < a.1 then b else a

/-- Where w comes before every other of two, so does the earlier one, or it is w. -/
theorem earlier_of_first {w a b : Nat × Sig} (ha : a = w ∨ w.1 < a.1) (hb : b = w ∨ w.1 < b.1) :
    (earlier a b = w ∨ w.1 < (earlier a b).1) ∧ (w = a ∨ w = b → w = earlier a b) := by
  by_cases younger : b.1 < a.1
  · rw [earlier, if_pos younger]
    refine ⟨hb, ?_⟩
    rintro (rfl | rfl)
    · exact hb.elim (fun same => absurd younger (same ▸ Nat.lt_irrefl _)) fun later => absurd younger (Nat.lt_asymm later)
    · rfl
  · rw [earlier, if_neg younger]
    refine ⟨ha, ?_⟩
    rintro (rfl | rfl)
    · rfl
    · exact (ha.resolve_right younger).symm

/-- The waiter that comes before every other is the one that is found. -/
theorem foldl_earlier {w a : Nat × Sig} {l : List (Nat × Sig)} (hw : w ∈ a :: l) (first : ∀ x ∈ a :: l, x = w ∨ w.1 < x.1) :
    l.foldl earlier a = w := by
  induction l generalizing a with
  | nil => exact (List.mem_singleton.mp hw).symm
  | cons b l ih =>
    obtain ⟨ha, hb, rest⟩ := by simpa only [List.forall_mem_cons] using first
    obtain ⟨keeps, finds⟩ := earlier_of_first ha hb
    refine ih ?_ (List.forall_mem_cons.mpr ⟨keeps, rest⟩)
    simp only [List.mem_cons] at hw ⊢
    exact (or_assoc.mpr hw).imp_left finds

/-! ### Grants and releases (R277) -/

/-- A cell that is granted to a signature. -/
def Cell.granted (c : Cell) (g : Sig) : Cell :=
  { c with state := 1, gen := (c.gen + 1) % 2 ^ 32, hgrid := g.grid % 2 ^ 64, hwho := g.hwho % 2 ^ 64 }

/-- A cell that is free. -/
def Cell.freed (c : Cell) : Cell := { c with state := 0, hgrid := 0, hwho := 0 }

theorem Cell.Fits.granted {c : Cell} (h : c.Fits) (g : Sig) : (c.granted g).Fits :=
  { h with
    state := (by decide : 1 < 2 ^ (8 * 1))
    gen := Nat.mod_lt _ (Nat.two_pow_pos _)
    hgrid := Nat.mod_lt _ (Nat.two_pow_pos _)
    hwho := Nat.mod_lt _ (Nat.two_pow_pos _) }

theorem Cell.Fits.region {c : Cell} (h : c.Fits) {base len : Nat} (rbase : base < 2 ^ (8 * 8)) (rlen : len < 2 ^ (8 * 8)) :
    Cell.Fits { c with rbase := base, rlen := len } :=
  { h with rbase, rlen }

theorem Cell.Fits.clasp {c : Cell} (h : c.Fits) : Cell.Fits { c with kind := 1, state := 0, gen := 0, hgrid := 0, hwho := 0 } :=
  { h with
    kind := (by decide : 1 < 2 ^ (8 * 1))
    state := Nat.two_pow_pos _
    gen := Nat.two_pow_pos _
    hgrid := Nat.two_pow_pos _
    hwho := Nat.two_pow_pos _ }

theorem Cell.Fits.freed {c : Cell} (h : c.Fits) : c.freed.Fits :=
  { h with state := Nat.two_pow_pos _, hgrid := Nat.two_pow_pos _, hwho := Nat.two_pow_pos _ }

/-- The holders of every clasp but the one at a place. -/
def State.unheld (s : State) (ctx pa : Nat) : AMap Nat := s.holders.filter fun x => !s.holdsAt ctx pa x

theorem State.grantTo_eq (s : State) (va pa : Nat) (g : Sig) : s.grantTo va pa g =
    { s.setCell pa ((s.cell pa).granted g) with holders := AMap.set (s.unheld g.ctx pa) (claspKey g.ctx va) g.uid } := by
  have grid : bytesOfNat 8 (g.grid % 2 ^ 64) = bytesOfNat 8 g.grid := bytesOfNat_mod 8 _
  have who : bytesOfNat 8 (g.hwho % 2 ^ 64) = bytesOfNat 8 g.hwho := bytesOfNat_mod 8 _
  rw [State.setCell, Cell.granted, grid, who]
  rfl

theorem State.freeClasp_of_no_waiter {s : State} {ctx va pa : Nat} (none_ : s.waiters ctx (s.waitsClasp ctx pa) = []) :
    s.freeClasp ctx va pa = { s.setCell pa (s.cell pa).freed with holders := s.unheld ctx pa } := by
  rw [State.freeClasp, none_]
  rfl

theorem State.freeClasp_of_first {s : State} {ctx va pa : Nat} {w : Nat × Sig} (hw : w ∈ s.waiters ctx (s.waitsClasp ctx pa))
    (first : ∀ x ∈ s.waiters ctx (s.waitsClasp ctx pa), x = w ∨ w.1 < x.1) :
    s.freeClasp ctx va pa = (s.grantTo va pa w.2).wakeCtx ctx fun x =>
      if x.born = w.1 ∧ s.waitsClasp ctx pa x = true then some 0 else none := by
  cases waiting : s.waiters ctx (s.waitsClasp ctx pa) with
  | nil => exact absurd (waiting ▸ hw) List.not_mem_nil
  | cons a l =>
    rw [waiting] at hw first
    rw [State.freeClasp, waiting, ← foldl_earlier hw first]
    rfl

theorem Env.holds_iff (e : Env) (pa : Nat) : e.holds pa = true ↔ e.s.holderAt e.sig.ctx pa = some e.sig.uid := beq_iff_eq

end Sys2Proof.Machine

namespace Sys2Proof.Claim
open Machine

set_option Elab.async false

section
variable {s : State} {h : Hdr} {o : Ops4} {e : Env} {pa : Nat} (I : Issues s h o.list e) (turn : Turn e) (hcell : AtCell e o.a pa)
include I turn hcell

theorem exec_bind {m : BindMod} (hok : e.ops4Ok o unused sPos sPos uPos = true) {base len : Nat} {cell : Cell}
    (hbase : (e.uni o.b).toNat = base) (hlen : uVal e o.c = len) (hc : e.s.cell pa = cell) :
    exec (.bind h o m) e.s = .next (e.finish (
      if base % 128 ≠ 0 ∨ len % 128 ≠ 0 ∨ 2 ^ 36 < len then .trap (trapOf cOPERAND)
      else if 2 ^ 54 < base + len ∨ 2 ^ 54 ≤ base then .trap (trapAt cACCESS (max base (2 ^ 54)))
      else if m.kind = true then
        if cell.kind = 2 then .done (e.s.setCell pa { cell with rbase := base, rlen := len }) else claspTrap
      else if 1 < cell.kind ∨ cell.state = 1 then claspTrap
      else .done (e.s.setCell pa { cell with
        kind := 1, state := 0, gen := 0, hgrid := 0, hwho := 0, rbase := base, rlen := len }))) := by
  have hx := I.exec_in_turn (i := .bind h o m) (x := execBind h o m) (feats := []) rfl rfl nofun hok (.inr turn)
  simp only [cellAt_of_atCell hcell, ← uVal_eq_u, hbase, hlen, hc] at hx
  exact hx

theorem exec_acq {m : SyMod} (hok : e.ops4Ok o unused sPos unused unused = true) {cell : Cell} (hc : e.s.cell pa = cell) :
    exec (.acq h o m) e.s = .next (e.finish (
      if cell.kind ≠ 1 ∨ cell.state = 2 ∨ cell.state = 1 ∧ e.s.holderAt e.sig.ctx pa = some e.sig.uid then claspTrap
      else if cell.state = 0 then .done (e.s.grantTo (e.uni o.a).toNat pa e.sig)
      else .part e.s { reason := 0x04, evkey := e.uni o.a, resume := e.next, wait := .acq (e.uni o.a).toNat m.sy })) := by
  have hx := I.exec_in_turn (i := .acq h o m) (x := execAcq h o m) (feats := []) rfl rfl nofun hok (.inr turn)
  simp only [cellAt_of_atCell hcell, Env.holds_iff, hc] at hx
  exact hx

theorem exec_rel {m : SyMod} (hok : e.ops4Ok o unused sPos unused unused = true) {cell : Cell} (hc : e.s.cell pa = cell) :
    exec (.rel h o m) e.s = .next (e.finish (
      if cell.kind ≠ 1 ∨ cell.state ≠ 1 ∨ ¬ e.s.holderAt e.sig.ctx pa = some e.sig.uid then claspTrap
      else if m.oc = true ∧ e.core.outst ≠ 0 then
        .part e.s { reason := 0x05, evkey := BitVec.ofNat 64 e.sel.core, resume := e.next
                    wait := .relOc (e.uni o.a).toNat e.sig.uid m.sy }
      else if e.s.releaseWaits e.sig.uid m.sy = true then .stall
      else .done (e.s.freeClasp e.sig.ctx (e.uni o.a).toNat pa))) := by
  have hx := I.exec_in_turn (i := .rel h o m) (x := execRel h o m) (feats := []) rfl rfl nofun hok (.inr turn)
  simp only [cellAt_of_atCell hcell, Bool.not_eq_true', Bool.eq_false_iff, ne_eq, Env.holds_iff, hc] at hx
  exact hx

end

/-- Settles O32: the bodies decide in the order of the rules, and what they write is one cell. -/
theorem clasps : Obligations.Clasps := by
  intro s h o bm m e pa I turn ok hcell cell base len va mine clasp
  have wf := I.wf_hbm ok
  have fits := e.s.cell_fits pa
  refine ⟨fun hok => ?bind, fun hok => ?clasp⟩
  case bind =>
    have hx := exec_bind I turn hcell (m := bm) hok (base := base) (len := len) (cell := cell) rfl rfl rfl
    refine ⟨fun bad => raises_of_finish hx (if_pos bad), fun baseLine lenLine short low inside => ?_⟩
    have lines : ¬ (base % 128 ≠ 0 ∨ len % 128 ≠ 0 ∨ 2 ^ 36 < len) := by omega
    have region : ¬ (2 ^ 54 < base + len ∨ 2 ^ 54 ≤ base) := by omega
    have rbase : base < 2 ^ (8 * 8) := by omega
    have rlen : len < 2 ^ (8 * 8) := by omega
    rw [if_neg lines, if_neg region] at hx
    refine ⟨fun barrier other => ?_, fun barrier same => ?_, fun plain busy => ?_, fun plain young free => ?_⟩
    · exact raises_of_finish hx ((if_pos barrier).trans (if_neg other))
    · obtain ⟨only, reads⟩ := cellWritten_setCell wf pa (fits.region rbase rlen)
      exact ⟨_, retires_of_finish hx ((if_pos barrier).trans (if_pos same)), only, reads⟩
    · exact raises_of_finish hx ((if_neg (Bool.eq_false_iff.mp plain)).trans (if_pos busy))
    · have new : ¬ (1 < cell.kind ∨ cell.state = 1) := not_or.mpr ⟨Nat.not_lt.mpr young, free⟩
      obtain ⟨only, reads⟩ := cellWritten_setCell wf pa (fits.clasp.region rbase rlen)
      exact ⟨_, retires_of_finish hx ((if_neg (Bool.eq_false_iff.mp plain)).trans (if_neg new)), only, reads⟩
  case clasp =>
    have hacq := exec_acq I turn hcell (m := m) hok (cell := cell) rfl
    have hrel := exec_rel I turn hcell (m := m) hok (cell := cell) rfl
    refine ⟨fun bad => raises_of_finish hacq (if_pos bad), fun kind free => ?_, fun kind held other => ?_,
      fun bad => raises_of_finish hrel (if_pos bad), fun kind held own => ?_⟩
    · have good : ¬ (cell.kind ≠ 1 ∨ cell.state = 2 ∨ cell.state = 1 ∧ mine) := by omega
      obtain ⟨only, reads⟩ := (cellWritten_setCell wf pa (fits.granted e.sig)).with_holders
        (AMap.set (e.s.unheld e.sig.ctx pa) (claspKey e.sig.ctx va) e.sig.uid)
      refine ⟨_, retires_of_finish hacq ((if_neg good).trans ((if_pos free).trans (by rw [State.grantTo_eq]))), only, ?_⟩
      rw [reads]
      exact ⟨rfl, rfl, rfl, rfl, rfl⟩
    · have good : ¬ (cell.kind ≠ 1 ∨ cell.state = 2 ∨ cell.state = 1 ∧ mine) := by
        rintro (h | h | h)
        exacts [h kind, by omega, other h.2]
      have taken : ¬ cell.state = 0 := by omega
      exact parts_of_finish hacq ((if_neg good).trans (if_neg taken))
    · have good : ¬ (cell.kind ≠ 1 ∨ cell.state ≠ 1 ∨ ¬ mine) := by
        rintro (h | h | h)
        exacts [h kind, h held, h own]
      rw [if_neg good] at hrel
      refine ⟨fun counted busy => parts_of_finish hrel (if_pos ⟨counted, busy⟩), fun ready => ?_⟩
      rw [if_neg fun h => ready.elim (fun off => Bool.false_ne_true (off.symm.trans h.1)) h.2] at hrel
      refine ⟨fun left => waits_of_finish hrel (if_pos left), fun none_left => ?_⟩
      refine ⟨retires_of_finish hrel (if_neg (Bool.eq_false_iff.mp none_left)), fun alone => ?_, fun w hw first => ?_⟩
      · show OnlyCell e.s (e.s.freeClasp e.sig.ctx va pa) pa ∧ (e.s.freeClasp e.sig.ctx va pa).cell pa = cell.freed
        rw [State.freeClasp_of_no_waiter alone]
        obtain ⟨only, reads⟩ := (cellWritten_setCell wf pa fits.freed).with_holders (e.s.unheld e.sig.ctx pa)
        exact ⟨only, reads⟩
      · exact State.freeClasp_of_first hw first

end Sys2Proof.Claim
end

