-- ==== Sys2Proof/Proofs/MemoryBarriers.lean ====
section
/-!
Memory barriers (R275, R279, R297), and O35.
-/
namespace Sys2Proof.Machine

set_option Elab.async false

/-- A barrier as MBINIT leaves it. -/
theorem Cell.Fits.barrier {c : Cell} (h : c.Fits) {b : Nat} (expect : b < 2 ^ (8 * 4)) :
    Cell.Fits { c with kind := 2, state := 0, expect := b, count := 0, gen := 0, rbase := 0, rlen := 0 } :=
  { h with
    kind := (by decide : 2 < 2 ^ (8 * 1))
    state := Nat.two_pow_pos _
    expect
    count := Nat.two_pow_pos _
    gen := Nat.two_pow_pos _
    rbase := Nat.two_pow_pos _
    rlen := Nat.two_pow_pos _ }

end Sys2Proof.Machine

namespace Sys2Proof.Claim
open Machine

set_option Elab.async false

section
variable {s : State} {h : Hdr} {o : Ops4} {e : Env} {pa : Nat} (I : Issues s h o.list e) (turn : Turn e) (hcell : AtCell e o.a pa)
include I turn hcell

theorem exec_mbinit (hok : e.ops4Ok o unused sPos uPos unused = true) {b : Nat} {cell : Cell} (hb : uVal e o.b = b)
    (hc : e.s.cell pa = cell) : exec (.mbinit h o) e.s = .next (e.finish (
      if b < 1 ∨ 2 ^ 32 - 1 < b then .trap (trapOf cOPERAND)
      else if cell.kind = 1 ∧ cell.state = 1 then claspTrap
      else .done ((e.s.wakeCtx e.sig.ctx fun r => if e.s.waitsCell e.sig.ctx pa r then some cCLASP else none).setCell pa
        { cell with kind := 2, state := 0, expect := b, count := 0, gen := 0, rbase := 0, rlen := 0 }))) := by
  have hx := I.exec_in_turn (i := .mbinit h o) (x := execMbinit h o) (feats := []) rfl rfl nofun hok (.inr turn)
  simp only [cellAt_of_atCell hcell, ← uVal_eq_u, hb, hc] at hx
  exact hx

theorem exec_mbarr {m : SyMod} (hok : e.ops4Ok o sOrZero sPos uOrZero unused = true) {k : Nat} {cell : Cell}
    (hk : (if o.b = .zero then 1 else uVal e o.b) = k) (hc : e.s.cell pa = cell) : exec (.mbarr h o m) e.s = .next (e.finish (
      if cell.kind ≠ 2 then claspTrap
      else if k < 1 ∨ 65535 < k then .trap (trapOf cOPERAND)
      else if m.sy = true ∧ e.s.apertureLeft e.sig.uid = true then .stall
      else if e.storesLeft = true then .stall
      else .done ((e.writeSZ e.s o.d (BitVec.ofNat 64 cell.gen)).arriveN pa k))) := by
  have hx := I.exec_in_turn (i := .mbarr h o m) (x := execMbarr h o m) (feats := []) rfl rfl nofun hok (.inr turn)
  simp only [cellAt_of_atCell hcell, ← uVal_eq_u, beq_iff_eq, Bool.and_eq_true, hk, hc] at hx
  exact hx

end

/-- Settles O35: the arrivals are one series at the cell, after the result in D. -/
theorem memoryBarriers : Obligations.MemoryBarriers := by
  intro s h o m e pa I turn ok hcell cell b
  have wf := I.wf_hbm ok
  have fits := e.s.cell_fits pa
  refine ⟨fun hok => ?init, fun hok => ?arrive⟩
  case init =>
    have hx := exec_mbinit I turn hcell hok (b := b) (cell := cell) rfl rfl
    refine ⟨fun bad => raises_of_finish hx (if_pos bad), fun low high held => ?_, fun low high free => ?_⟩ <;>
      rw [if_neg (by omega)] at hx
    · exact raises_of_finish hx (if_pos held)
    · intro new t
      have woken := e.s.wakeCtx_sameMemory e.sig.ctx fun r => if e.s.waitsCell e.sig.ctx pa r then some 0x18 else none
      have wfWoken := woken.hbm ▸ wf
      have expect : b < 2 ^ (8 * 4) := by omega
      obtain ⟨only, reads⟩ := cellWritten_setCell wfWoken pa (fits.barrier expect)
      exact ⟨retires_of_finish hx (if_neg free), (OnlyCell.of_sameMemory woken pa).trans only, reads⟩
  case arrive =>
    intro k
    have hx := exec_mbarr I turn hcell (m := m) hok (k := k) (cell := cell) rfl rfl
    refine ⟨fun other => raises_of_finish hx (if_pos other), fun kind bad => ?_, fun kind low high left => ?_,
      fun kind low high none_left acked => ?_⟩ <;> rw [if_neg (not_not_intro kind)] at hx
    · exact raises_of_finish hx (if_pos bad)
    · rw [if_neg (by omega)] at hx
      by_cases unacked : m.sy = true ∧ e.s.apertureLeft e.sig.uid = true
      · exact waits_of_finish hx (if_pos unacked)
      · exact waits_of_finish hx ((if_neg unacked).trans (if_pos (left.resolve_right unacked)))
    · rw [if_neg (by omega), if_neg fun h => Bool.false_ne_true ((acked h.1).symm.trans h.2), if_neg (Bool.eq_false_iff.mp none_left)] at hx
      have result := e.writeSZ_sameMemory e.s o.d (BitVec.ofNat 64 cell.gen)
      obtain ⟨-, only, reads, cores⟩ := State.arriveN_arrived (result.hbm ▸ wf) pa k
      rw [State.cell_congr result.hbm] at reads
      have sig := (State.sig?_congr cores _ _).trans (Env.sig?_writeSZ I.sig?_now o.d (BitVec.ofNat 64 cell.gen))
      refine ⟨_, retires_of_finish hx rfl, (OnlyCell.of_sameMemory result pa).trans only, ⟨_, sig, ?_⟩, reads⟩
      cases o.d <;> rfl

end Sys2Proof.Claim
end

