-- ==== Sys2Proof/Proofs/CopyInstructions.lean ====
section
/-!
COPY and COPYX: the order of what their body looks at (R298, R301, R302), and O38.
-/
namespace Sys2Proof.Machine

set_option Elab.async false

/-- A new operation of a unit, its handle in D. -/
theorem Env.writeHandle_eq_started (e : Env) (d : Operand) (kind unit : Nat) :
    e.writeHandle (e.s.newHandle kind unit e.sig.ctx).2 d (handleVal kind unit e.sig.ctx (e.s.newHandle kind unit e.sig.ctx).1) =
      Claim.started e d kind unit := by
  cases d <;> rfl

theorem Env.pointAt_of_none_listed {e : Env} {o : Operand} {init : Bool} {k : Nat → Nat → Quire → Eff} {key : Nat} {q : Quire}
    (hkey : e.sig.quire = some key) (hq : e.quire = some q) (beyond : q.points.length ≤ Claim.uVal e o) :
    e.pointAt o init k = .trap (trapOf cACCESS) := by
  rw [Claim.uVal_eq_u] at beyond
  simp only [Env.pointAt, hkey, hq, if_pos beyond]

theorem Env.pointAt_of_pointOk {e : Env} {o : Operand} {b : Eff} (h : Claim.PointOk e (Claim.uVal e o)) :
    (e.pointAt o false fun _ _ _ => b) = b := by
  obtain ⟨key, q, p, hkey, hq, hp, set_up⟩ := h
  rw [Claim.pointAt_of_getElem? hkey hq hp, if_neg set_up]

/-- The copy queue of the path's core has its 16 operations (R298). -/
def Env.copiesFull (e : Env) : Prop := 16 ≤ (e.s.copyQueue e.sel.core).length

/-- A space is named that COPY or COPYX may not name there (R301, R302). -/
def Env.copyRefused (e : Env) (m : CpMod) (expand : Bool) : Prop :=
  m.sspace.toNat = 2 ∨ m.sspace.toNat = 3 ∨ m.dspace.toNat = 4 ∨ expand = true ∧ m.sspace.toNat ≠ 0 ∨
    e.sig.quire = none ∧ (m.sspace.toNat ≠ 0 ∨ m.dspace.toNat ≠ 0 ∨ m.ck.toNat = 1)

/-- The operation that COPY or COPYX appends, as number `id` of its cluster. -/
def Env.newCopy (e : Env) (o : Ops4) (m : CpMod) (expand : Bool) (id : Nat) : CopyOp where
  id := id
  unit := clusterOf e.sel.core
  core := e.sel.core
  ctx := e.sig.ctx
  grid := e.sig.grid
  quire := e.sig.quire
  seq := Claim.nextSeq e 1 (clusterOf e.sel.core)
  expand := expand
  sspace := m.sspace.toNat
  dspace := m.dspace.toNat
  ck := m.ck.toNat
  a := e.uni o.a
  b := e.uni o.b
  c := if m.ck.toNat = 0 then 0 else if m.ck.toNat = 1 then BitVec.ofNat 64 (Claim.uVal e o.c) else e.uni o.c
  order := Claim.serialKey e
  plan := none
  task := none
  written := 0
  scales := []
  supers := []
  page := none
  cancel := false

/-- The state with the operation in its queue and its handle in D. -/
def Env.copyQueued (e : Env) (o : Ops4) (m : CpMod) (expand : Bool) : State :=
  (Claim.started e o.d 1 (clusterOf e.sel.core)).modCluster (clusterOf e.sel.core) fun k =>
    { k with nextId := k.nextId + 1, copies := k.copies ++ [e.newCopy o m expand k.nextId] }

/-- What follows the checks on spaces and point: the task table of CK = 10, then the path's own stores (R302). -/
def Env.copyStarts (e : Env) (o : Ops4) (m : CpMod) (expand : Bool) : Eff :=
  if m.ck.toNat == 2 && (match e.grid with | some g => g.blk.tasktab == 0 | none => true) then .trap (trapOf cOPERAND)
  else e.released fun _ => .done (e.copyQueued o m expand)

section
variable {e : Env} {o : Ops4} {m : CpMod} {expand : Bool}

theorem copyBody_of_full (full : e.copiesFull) : copyBody expand o m e = .stall := if_pos full

section
variable (room : ¬ e.copiesFull)
include room

theorem copyBody_of_refused (h : e.copyRefused m expand) : copyBody expand o m e = .trap (trapOf cACCESS) := by
  refine (if_neg room).trans (if_pos ?_)
  rwa [Option.isNone_iff_eq_none]

/-- The point of CK = 01 is checked before the operation starts. -/
theorem copyBody_of_named (named : ¬ e.copyRefused m expand) : copyBody expand o m e =
    if m.ck.toNat = 1 then e.pointAt o.c false fun _ _ _ => e.copyStarts o m expand else e.copyStarts o m expand := by
  refine (if_neg room).trans ((if_neg ?_).trans ?_)
  · rwa [Option.isNone_iff_eq_none]
  · simp only [Env.writeHandle_eq_started, Env.orderKey_eq_serialKey, ← Claim.uVal_eq_u]
    rfl

end

theorem Env.copyStarts_of_no_table (hck : m.ck.toNat = 2) (none_named : ∀ g, e.grid = some g → g.blk.tasktab = 0) :
    e.copyStarts o m expand = .trap (trapOf cOPERAND) := by
  refine if_pos ?_
  cases hg : e.grid with
  | none => simp [hck]
  | some g => simp [hck, none_named g hg]

theorem Env.copyStarts_of_table (table : m.ck.toNat = 2 → ∃ g, e.grid = some g ∧ g.blk.tasktab ≠ 0) :
    e.copyStarts o m expand = if e.storesLeft = true then .stall else .done (e.copyQueued o m expand) := by
  refine if_neg fun h => ?_
  obtain ⟨hck, gone⟩ := Bool.and_eq_true_iff.mp h
  obtain ⟨g, hg, named⟩ := table (beq_iff_eq.mp hck)
  simp [hg, named] at gone

/-- A copy whose completion is in order waits for the path's own plain stores, then joins the queue. -/
theorem copyBody_of_completion (room : ¬ e.copiesFull) (named : ¬ e.copyRefused m expand)
    (point : m.ck.toNat = 1 → Claim.PointOk e (Claim.uVal e o.c))
    (table : m.ck.toNat = 2 → ∃ g, e.grid = some g ∧ g.blk.tasktab ≠ 0) :
    copyBody expand o m e = if e.storesLeft = true then .stall else .done (e.copyQueued o m expand) := by
  rw [copyBody_of_named room named, ← Env.copyStarts_of_table table]
  split
  case isTrue hck => exact Env.pointAt_of_pointOk (point hck)
  case isFalse => rfl

end

end Sys2Proof.Machine

namespace Sys2Proof.Claim
open Machine

set_option Elab.async false

/-- The operand fields of COPY and COPYX with each completion (R302). -/
theorem frontCopy_ok (o : Ops4) (m : CpMod) (expand : Bool) (e : Env) : (frontCopy o m expand).ok e =
    e.ops4Ok o { kinds := [.h, .zero] } { kinds := [.s] } { kinds := [.s] }
      (if m.ck.toNat = 0 then unused else if m.ck.toNat = 1 then { kinds := [.s, .imm] } else { kinds := [.s] }) := by
  unfold frontCopy
  match m.ck.toNat with
  | 0 => rfl
  | 1 => rfl
  | n + 2 => simp [hOrZero, sPos]

/-- The features that COPY and COPYX name (R423). -/
theorem mem_frontCopy_feats {o : Ops4} {m : CpMod} {expand : Bool} {b : Nat} (hb : b ∈ (frontCopy o m expand).feats) :
    b = 4 ∧ expand = true ∨ b = 7 ∧ m.ck.toNat = 2 := by
  obtain hb | hb := List.mem_append.mp hb
  · cases expand <;> simp_all
  · split at hb <;> simp_all

section
variable {s : State} {h : Hdr} {o : Ops4} {m : CpMod} {e : Env} (I : Issues s h o.list e)
  (tasks : m.ck.toNat = 2 → e.s.feat e.sig.ctx 7 = true)
  (fields : e.ops4Ok o { kinds := [.h, .zero] } { kinds := [.s] } { kinds := [.s] }
    (if m.ck.toNat = 0 then unused else if m.ck.toNat = 1 then { kinds := [.s, .imm] } else { kinds := [.s] }) = true)
include I tasks fields

/-- COPY and COPYX perform the body where the features that they name are there. -/
theorem exec_copy_of_front {i : Instr} {expand : Bool}
    (hi : exec i = Machine.perform h o.list (frontCopy o m expand) noSync (copyBody expand o m))
    (expander : expand = true → e.s.feat e.sig.ctx 4 = true) : exec i e.s = .next (e.finish (copyBody expand o m e)) := by
  refine I.exec_in_turn (i := i) (x := exec i) rfl hi (fun b hb => ?_) ((frontCopy_ok o m expand e).trans fields) (.inl rfl)
  obtain ⟨rfl, hx⟩ | ⟨rfl, hck⟩ := mem_frontCopy_feats (o := o) hb
  · exact expander hx
  · exact tasks hck

end

/-- Settles O38: the body looks at the queue, the spaces, the point or the task table and the path's stores, in this order. -/
theorem copyInstructions : Obligations.CopyInstructions := by
  intro s h o m e I cl ss ds ck full on tasks fields
  have each : ∀ (i : Instr) (expand : Bool), exec i e.s = .next (e.finish (copyBody expand o m e)) → on i expand := by
    intro i expand hx
    refine ⟨fun no_room => waits_of_finish hx (copyBody_of_full no_room),
      fun room bad => raises_of_finish hx (copyBody_of_refused room bad), fun room named hck key q hkey hq => ?_,
      fun room named hck gone => ?_, fun room named point table => ?_⟩
    · have point := (copyBody_of_named (o := o) room named).trans (if_pos hck)
      refine ⟨fun beyond => raises_of_finish hx (point.trans (Env.pointAt_of_none_listed hkey hq beyond)), fun p hp unset => ?_⟩
      exact raises_of_finish hx (point.trans ((pointAt_of_getElem? hkey hq hp _).trans (if_pos unset)))
    · have starts := (copyBody_of_named (o := o) room named).trans (if_neg (by omega))
      exact raises_of_finish hx (starts.trans (Env.copyStarts_of_no_table hck gone))
    · have body := copyBody_of_completion (o := o) room named point table
      exact ⟨fun left => waits_of_finish hx (body.trans (if_pos left)),
        fun performed => retires_of_finish hx (body.trans (if_neg (Bool.eq_false_iff.mp performed)))⟩
  exact ⟨each _ _ (exec_copy_of_front I tasks fields rfl nofun),
    fun expander => each _ _ (exec_copy_of_front I tasks fields rfl fun _ => expander)⟩

end Sys2Proof.Claim
end

