-- ==== Sys2Proof/Proofs/EngineEvents.lean ====
section
/-!
A copy whose descriptor has nine dimensions, where R303 allows eight: the state that refutes O46.
-/
namespace Sys2Proof.Claim
open Machine

set_option Elab.async false

/-- A tensor of one element of format 5, extent 1 in each of nine dimensions. -/
def nineDims : Desc := ⟨0, 5, 9, false, 0, 0, 0, List.replicate 9 1, List.replicate 9 0⟩

/-- The box that holds this element, copied bit for bit to the start of the reservation. -/
def oneElement : Window := ⟨List.replicate 8 0, List.replicate 8 1, 0, 5, false, false, 0, 0, 0⟩

/-- Its copy from LM to the W-buffer. -/
def nineDimsCopy : CopyOp where
  id := 0
  unit := 0
  core := 0
  ctx := 1
  grid := 1
  quire := some 0
  seq := 0
  expand := false
  sspace := 1
  dspace := 2
  ck := 0
  a := 0
  b := 0
  c := 0
  order := []
  plan := some (nineDims, oneElement)
  task := none
  written := 0
  scales := []
  supers := []
  page := none
  cancel := false

/-- The booted device with that copy in cluster 0 and 1 in the first byte of LM. -/
def nineDimsState : State :=
  { State.reset.boot 0 with clusters := [(0, { Cluster.init with copies := [nineDimsCopy] })] }.modCore 0 fun k =>
    { k with mem := { k.mem with lm := [(0, 1)] } }

theorem nextCopy_nineDimsState : nineDimsState.nextCopy 0 = some nineDimsCopy := by decide

theorem quire_nineDimsState : nineDimsState.quire? 0 0 = some bootQuire := by decide

theorem not_localSpoiled_nineDimsState (a n : Nat) : nineDimsState.localSpoiled 0 0 a n = false := rfl

/-- The coordinates 0 in the eight dimensions of a window, x in the ninth. -/
def ninth (x : Nat) : Nat → Nat := fun i => if i = 8 then x else 0

theorem ninth_in_box (x i : Nat) (hi : i < 8) : ninth x i < oneElement.boxAt i := by
  rw [ninth, if_neg hi.ne]
  decide +revert

/-- Refutes O46: the clause on a chunk from LM does not bound the dimensions of the descriptor, and reads the coordinates beyond
the eighth from a function that nothing bounds there. In a tensor of nine dimensions one and the same destination element is then
both padding, which the clause makes 0, and the source's element, which here is 1. The model takes coordinate 0 in the ninth
dimension; no descriptor that passes R303 has a ninth. -/
theorem not_engineEvents : ¬ Obligations.EngineEvents := by
  intro claim
  obtain ⟨-, chunk, -⟩ := claim
  obtain ⟨t, -, -, -, -, elements⟩ := chunk nineDimsState 0 (.ok []) nineDimsCopy nineDims oneElement 0 bootQuire
    nextCopy_nineDimsState rfl rfl rfl rfl rfl (by decide) rfl quire_nineDimsState rfl (.inl rfl)
    not_localSpoiled_nineDimsState rfl (by decide) rfl (by decide) (by decide) nofun (.inl ⟨rfl, rfl⟩) nofun
  obtain ⟨-, copied⟩ := elements (ninth 0) (ninth_in_box 0) (by decide) (by decide)
  obtain ⟨padded, -⟩ := elements (ninth 1) (ninth_in_box 1) (by decide) (by decide)
  have zero := padded (by decide) (by decide) (by decide)
  have one := (copied (by decide)).1 rfl rfl
  exact absurd (one.symm.trans zero) (by decide)

end Sys2Proof.Claim
end
